-- ==== Sys2Proof/Word.lean ====
section
/-!
DEFINITION. The word types of the machine (R1, R2, R24) and nothing else: every helper over them that a test could
show wrong stands in Sys2Proof/Machine/Bits.lean.
-/
namespace Sys2Proof

/-- A double word: 64 bits (R2). -/
abbrev Word := BitVec 64
/-- A byte (R2). -/
abbrev Byte := BitVec 8
/-- An assumption label handle (R24): 0 is the empty label, 0xFFFF is HIDDEN. -/
abbrev Handle := BitVec 16
/-- A core number as CORE holds it (R13): package, die, cluster, slot. -/
abbrev CoreNo := BitVec 20
/-- A context number, 0 to 15 (R16). -/
abbrev CtxNo := Fin 16

/-- A 64-bit value with its label (R24). -/
structure LWord where
  /-- The data. -/
  val : Word := 0
  /-- The handle of its label. -/
  lab : Handle := 0
  deriving DecidableEq, Repr, Inhabited

end Sys2Proof
end

