-- ==== Sys2Proof/Syntax.lean ====
section
/-!
DEFINITION. The whole instruction syntax: the operand types and Instr, one constructor per row of
spec/opcode_table.json. The rows that have an encoding come first, in the table's order; the rows after `jrnl` are
events of the machine and acts of the host or the debugger, which have none.
-/
namespace Sys2Proof

/-- A general register number (R93). -/
abbrev GReg := Fin 64
/-- A floating register number (R93). -/
abbrev FReg := Fin 32
/-- A vector mask register number (R93). -/
abbrev MReg := Fin 8
/-- A skip-list register number (R93). -/
abbrev KReg := Fin 4

/-- A v operand (R93): v0 to v7, or the stream register f24 + n. -/
inductive VOp where
  | v (n : Fin 8)
  | s (n : Fin 8)
  deriving DecidableEq, Repr

/-- Access sizes (R2, R94). -/
inductive Size where
  | b | h | w | d
  deriving DecidableEq, Repr

/-- The sizes of a synchronising access, an atomic or a group load: .w and .d (R176, R224, R238). -/
inductive SizeWD where
  | w | d
  deriving DecidableEq, Repr

/-- Scopes (R94, R187). -/
inductive Scope where
  | co | cl | di | pk | sy
  deriving DecidableEq, Repr

/-- The ordering of a store (R176): plain, release at a scope, or .post. -/
inductive StOrd where
  | plain
  | rel (s : Scope)
  | post
  deriving DecidableEq, Repr

/-- The ordering of a non-post atomic (R224). -/
inductive AtOrd where
  | plain
  | acq (s : Scope)
  | rel (s : Scope)
  deriving DecidableEq, Repr

/-- Conditions over g registers (R94, R117). -/
inductive Cond where
  | eq | ne | lt | ge | lo | hs
  deriving DecidableEq, Repr

/-- Conditions of FCMP (R196). -/
inductive FCond where
  | eq | ne | lt | ge
  deriving DecidableEq, Repr

/-- Rounding modes (R37). -/
inductive Rnd where
  | rne | rtz | rup | rdn
  deriving DecidableEq, Repr

/-- Type codes 1 to 19 (R95). -/
inductive Ty where
  | i8 | i16 | i32 | i64 | n8 | n16 | n32 | n64
  | f64 | f32 | f16 | bf16 | e4m3 | e5m2 | e3m2 | e2m3 | e2m1 | t2 | i4
  deriving DecidableEq, Repr

/-- The types of a scalar float form (R196). -/
inductive FTy where
  | f64 | f32
  deriving DecidableEq, Repr

/-- Access paths (R189). -/
inductive Path where
  | th | cp | xf | mx | gr
  deriving DecidableEq, Repr

/-- Operations of GLD with an integer destination (R238). -/
inductive GldOp where
  | add | max | min | maxn | and | or
  deriving DecidableEq, Repr

/-- Operations of GLD with a float destination (R238). -/
inductive GldFOp where
  | fadd | max | min
  deriving DecidableEq, Repr

/-- Operations of VRED (R206). -/
inductive RedOp where
  | add | max | min
  deriving DecidableEq, Repr

/-- A memory operand (R66): base and signed offset, or base and scaled index (`scl` is the log2 of the scale). -/
inductive MemOp where
  | off (base : GReg) (off : BitVec 40)
  | idx (base index : GReg) (scl : Fin 4)
  deriving DecidableEq, Repr

/-- The barrier operand [gR±off] of a .bar copy (R279). -/
structure BarOp where
  reg : GReg
  off : BitVec 32
  deriving DecidableEq, Repr

/-- The two data engines of a compute core (R278). -/
inductive Eng where
  | copy | xform
  deriving DecidableEq, Repr

/-- The host's writes through the configuration path (R362, R322, R396, R13). -/
inductive ConfigWrite where
  /-- A 64-byte partition record for one resident set, installed in the cores of its NODE (R362). -/
  | record (set : Fin 4) (rec : BitVec 512)
  /-- An entry of a router's shadow route table (R322, R323). -/
  | route (router : BitVec 12) (dest : Fin 129) (cls : Fin 16) (port : Fin 16)
  /-- The number of packages joined by peer links (R13, R396). -/
  | packages (n : Fin 65)
  /-- The capacity in bytes of a second-tier port (R396). -/
  | capacity (port : Fin 16) (bytes : BitVec 40)
  deriving DecidableEq, Repr

/-- One constructor per row of spec/opcode_table.json. -/
inductive Instr where
  -- control (R115 to R126)
  | nop
  | br (disp : BitVec 40)
  | brCond (c : Cond) (a b : GReg) (disp : BitVec 40)
  | call (disp : BitVec 40)
  | callr (a : GReg)
  | jr (a : GReg)
  | loop (c : GReg) (disp : BitVec 40)
  | spawnMark (j a b : GReg) (disp : BitVec 40)
  | spawnReg (p j a b : GReg)
  | jinit (b : GReg) (n : BitVec 40)
  | join (b : GReg) (off : BitVec 40)
  | done
  | start (a : GReg)
  | startPool (a : GReg)
  | reap (a : GReg)
  | yield
  -- integer (R129 to R137); w is the .w modifier
  | add (w : Bool) (d a b : GReg)
  | sub (w : Bool) (d a b : GReg)
  | and (w : Bool) (d a b : GReg)
  | or (w : Bool) (d a b : GReg)
  | xor (w : Bool) (d a b : GReg)
  | addi (w : Bool) (d a : GReg) (imm : BitVec 40)
  | subi (w : Bool) (d a : GReg) (imm : BitVec 40)
  | andi (w : Bool) (d a : GReg) (imm : BitVec 40)
  | ori (w : Bool) (d a : GReg) (imm : BitVec 40)
  | xori (w : Bool) (d a : GReg) (imm : BitVec 40)
  | andn (w : Bool) (d a b : GReg)
  | shl (w : Bool) (d a b : GReg)
  | shr (w : Bool) (d a b : GReg)
  | sra (w : Bool) (d a b : GReg)
  | rol (w : Bool) (d a b : GReg)
  | ror (w : Bool) (d a b : GReg)
  | shli (w : Bool) (d a : GReg) (n : Fin 64)
  | shri (w : Bool) (d a : GReg) (n : Fin 64)
  | srai (w : Bool) (d a : GReg) (n : Fin 64)
  | roli (w : Bool) (d a : GReg) (n : Fin 64)
  | rori (w : Bool) (d a : GReg) (n : Fin 64)
  | funl (w : Bool) (d a b c : GReg)
  | funr (w : Bool) (d a b c : GReg)
  | mul (w : Bool) (d a b : GReg)
  | mulh (w : Bool) (d a b : GReg)
  | mulhu (w : Bool) (d a b : GReg)
  | div (w : Bool) (d a b : GReg)
  | divu (w : Bool) (d a b : GReg)
  | rem (w : Bool) (d a b : GReg)
  | remu (w : Bool) (d a b : GReg)
  | max (w : Bool) (d a b : GReg)
  | min (w : Bool) (d a b : GReg)
  | maxu (w : Bool) (d a b : GReg)
  | minu (w : Bool) (d a b : GReg)
  | clz (w : Bool) (d a : GReg)
  | ctz (w : Bool) (d a : GReg)
  | popc (w : Bool) (d a : GReg)
  | brev (w : Bool) (d a : GReg)
  | bswap (w : Bool) (d a : GReg)
  | ext (w : Bool) (d a : GReg) (pos len : Fin 64)
  | extz (w : Bool) (d a : GReg) (pos len : Fin 64)
  | ins (w : Bool) (d a : GReg) (pos len : Fin 64)
  | cmp (w : Bool) (c : Cond) (d a b : GReg)
  | sel (w : Bool) (d c a b : GReg)
  | li (d : GReg) (imm : BitVec 40)
  | lih (d : GReg) (imm : BitVec 24)
  | lea (d : GReg) (m : MemOp)
  -- labels (R155 to R162)
  | assume (d : GReg) (n : Fin 64)
  | lunion (d a b : GReg)
  | nogood (t a : GReg)
  | lget (d a : GReg)
  | lset (d a b : GReg)
  | lclr (d : GReg)
  | ltest (d a : GReg)
  | lcount (d a : GReg)
  | lenvget (d a b : GReg)
  | lwin (a : GReg)
  | lflush
  -- memory (R176 to R190)
  | ld (sz : Size) (acq : Option Scope) (xp : Bool) (d : GReg) (m : MemOp)
  | ldz (sz : Size) (acq : Option Scope) (xp : Bool) (d : GReg) (m : MemOp)
  | st (sz : Size) (ord : StOrd) (a : GReg) (m : MemOp)
  | lds (sz : SizeWD) (d : GReg) (m : MemOp)
  | sts (sz : SizeWD) (a : GReg) (m : MemOp)
  | ldf (sz : SizeWD) (d : GReg) (m : MemOp)
  | stf (sz : SizeWD) (a : GReg) (m : MemOp)
  | feclr (m : MemOp)
  | fld (sz : SizeWD) (acq : Option Scope) (d : FReg) (m : MemOp)
  | fst (sz : SizeWD) (rel : Option Scope) (a : FReg) (m : MemOp)
  | fence (s : Scope)
  | fenceX (p1 p2 : Path)
  -- atomics (R224); base and off are the memory operand [gB±off]
  | aadd (sz : SizeWD) (o : AtOrd) (d base : GReg) (off : BitVec 40) (a : GReg)
  | aand (sz : SizeWD) (o : AtOrd) (d base : GReg) (off : BitVec 40) (a : GReg)
  | aor (sz : SizeWD) (o : AtOrd) (d base : GReg) (off : BitVec 40) (a : GReg)
  | axor (sz : SizeWD) (o : AtOrd) (d base : GReg) (off : BitVec 40) (a : GReg)
  | amin (sz : SizeWD) (o : AtOrd) (d base : GReg) (off : BitVec 40) (a : GReg)
  | amax (sz : SizeWD) (o : AtOrd) (d base : GReg) (off : BitVec 40) (a : GReg)
  | aminu (sz : SizeWD) (o : AtOrd) (d base : GReg) (off : BitVec 40) (a : GReg)
  | amaxu (sz : SizeWD) (o : AtOrd) (d base : GReg) (off : BitVec 40) (a : GReg)
  | aswap (sz : SizeWD) (o : AtOrd) (d base : GReg) (off : BitVec 40) (a : GReg)
  | aaddPost (sz : SizeWD) (base : GReg) (off : BitVec 40) (a : GReg)
  | aandPost (sz : SizeWD) (base : GReg) (off : BitVec 40) (a : GReg)
  | aorPost (sz : SizeWD) (base : GReg) (off : BitVec 40) (a : GReg)
  | axorPost (sz : SizeWD) (base : GReg) (off : BitVec 40) (a : GReg)
  | aminPost (sz : SizeWD) (base : GReg) (off : BitVec 40) (a : GReg)
  | amaxPost (sz : SizeWD) (base : GReg) (off : BitVec 40) (a : GReg)
  | aminuPost (sz : SizeWD) (base : GReg) (off : BitVec 40) (a : GReg)
  | amaxuPost (sz : SizeWD) (base : GReg) (off : BitVec 40) (a : GReg)
  | aswapPost (sz : SizeWD) (base : GReg) (off : BitVec 40) (a : GReg)
  | acas (sz : SizeWD) (o : AtOrd) (d base : GReg) (off : BitVec 40) (a c : GReg)
  | afadd (sz : SizeWD) (o : AtOrd) (d : FReg) (base : GReg) (off : BitVec 40) (a : FReg)
  | afaddPost (sz : SizeWD) (base : GReg) (off : BitVec 40) (a : FReg)
  | migrate (base : GReg) (off : BitVec 40)
  | mret
  | gldInt (op : GldOp) (sz : SizeWD) (d : GReg) (m : MemOp)
  | gldFloat (op : GldFOp) (sz : SizeWD) (d : FReg) (m : MemOp)
  | barinit (base : GReg) (off : BitVec 40) (a : GReg)
  | barinitAbort (base : GReg) (off : BitVec 40)
  | bararr (base : GReg) (off : BitVec 40)
  | barwait (base : GReg) (off : BitVec 40) (p : GReg)
  | bartry (d base : GReg) (off : BitVec 40) (p : GReg)
  -- scalar float (R196)
  | fadd (t : FTy) (r : Rnd) (d a b : FReg)
  | fsub (t : FTy) (r : Rnd) (d a b : FReg)
  | fmul (t : FTy) (r : Rnd) (d a b : FReg)
  | fma (t : FTy) (r : Rnd) (d a b c : FReg)
  | fmin (t : FTy) (d a b : FReg)
  | fmax (t : FTy) (d a b : FReg)
  | fabs (t : FTy) (d a : FReg)
  | fneg (t : FTy) (d a : FReg)
  | fcmp (c : FCond) (t : FTy) (d : GReg) (a b : FReg)
  | fcvtFf (ta tb : Ty) (r : Rnd) (sat : Bool) (d a : FReg)
  | fcvtGf (ta : Ty) (tb : FTy) (r : Rnd) (sat : Bool) (d : GReg) (a : FReg)
  | fcvtFg (ta : FTy) (tb : Ty) (r : Rnd) (sat : Bool) (d : FReg) (a : GReg)
  | fmovFg (d : FReg) (a : GReg)
  | fmovGf (d : GReg) (a : FReg)
  | fmovFf (d a : FReg)
  | frint (t : FTy) (r : Rnd) (d a : FReg)
  | fscale (t : FTy) (r : Rnd) (d a : FReg) (b : GReg)
  -- special functions (R196, R213)
  | fdiv (t : FTy) (d a b : FReg)
  | fexp2f (t : FTy) (d a : FReg)
  | flog2 (t : FTy) (d a : FReg)
  | frcp (t : FTy) (d a : FReg)
  | frsq (t : FTy) (d a : FReg)
  | fsqrt (t : FTy) (d a : FReg)
  | fsin (t : FTy) (d a : FReg)
  | fcos (t : FTy) (d a : FReg)
  -- vector (R197); mask is the masked form's register
  | vadd (t : Ty) (r : Rnd) (sat : Bool) (mask : Option MReg) (d a b : VOp)
  | vsub (t : Ty) (r : Rnd) (sat : Bool) (mask : Option MReg) (d a b : VOp)
  | vmul (t : Ty) (r : Rnd) (sat : Bool) (mask : Option MReg) (d a b : VOp)
  | vmin (t : Ty) (r : Rnd) (sat : Bool) (mask : Option MReg) (d a b : VOp)
  | vmax (t : Ty) (r : Rnd) (sat : Bool) (mask : Option MReg) (d a b : VOp)
  | vfma (t : Ty) (r : Rnd) (d a b c : VOp)
  | vabs (t : Ty) (mask : Option MReg) (d a : VOp)
  | vneg (t : Ty) (mask : Option MReg) (d a : VOp)
  | vand (t : Ty) (d a b : VOp)
  | vor (t : Ty) (d a b : VOp)
  | vxor (t : Ty) (d a b : VOp)
  | vshl (t : Ty) (d a b : VOp)
  | vshr (t : Ty) (d a b : VOp)
  | vcmp (c : Cond) (t : Ty) (d : MReg) (a b : VOp)
  | vsel (d : VOp) (m : MReg) (b c : VOp)
  | vcvt (ta tb : Ty) (r : Rnd) (sat : Bool) (d a : VOp)
  | vscale (t : FTy) (r : Rnd) (d a b : VOp)
  | vred (op : RedOp) (t : Ty) (r : Rnd) (d : GReg) (a : VOp)
  | vbcastG (t : Ty) (d : VOp) (a : GReg)
  | vbcastF (t : Ty) (d : VOp) (a : FReg)
  | vmask (d : MReg) (a b : GReg)
  | vld (acq : Option Scope) (d : VOp) (m : MemOp)
  | vst (rel : Option Scope) (a : VOp) (mask : MReg) (m : MemOp)
  | vloop (n : BitVec 40) (c : GReg)
  | scfg (d : FReg) (base : GReg) (off : BitVec 40)
  -- matrix (R261)
  | mmul (t : Ty) (neg nacc : Bool) (tok c a b k : GReg)
  | msca (t : Ty) (tok c a b : GReg)
  | msliceReg (t : Ty) (neg nacc : Bool) (tok c a b s : GReg)
  | msliceImm (t : Ty) (neg nacc : Bool) (tok c a b : GReg) (s : BitVec 40)
  | mzero (tok c : GReg)
  | mmove (base : GReg) (off : BitVec 40) (a : GReg)
  | mctlSetP (a b : GReg)
  | mctlSetSplit (a b : GReg)
  | mctlSetRhalf (a b : GReg)
  | mctlSetTol (a b : GReg)
  | mctlSetBnorm (a b : GReg)
  | mctlSetCap (a b : GReg)
  | mctlSetIter (a b : GReg)
  | mwait (d : GReg)
  | mstat (d : GReg)
  | rtest (tok c a : GReg)
  | kset (k : KReg) (a : GReg)
  -- copy and transform (R279)
  | cpy (tok dst src n : GReg) (bar : Option BarOp)
  | cpyg (tok dst src x : GReg) (bar : Option BarOp)
  | cpys (tok dst src x : GReg) (bar : Option BarOp)
  | xformReshape (tok l r : GReg)
  | xformCompact (tok l r : GReg)
  | xformExpand (tok l r : GReg)
  | xformMxPack (tok l r : GReg)
  | xformMxPackSat (tok l r : GReg)
  | xformMxUnpack (tok l r : GReg)
  | xformDeltaEncode (tok l r : GReg)
  | xformDeltaDecode (tok l r : GReg)
  | xformZeroRun (tok l r : GReg)
  | xformDeltaZeroRun (tok l r : GReg)
  -- rewriting (R305)
  | nalloc (d a : GReg)
  | nfree (a : GReg)
  | link (a b : GReg)
  | ppush (a b : GReg)
  | ppop (d a : GReg)
  | rdisp (a b : GReg)
  | rtload (tok a : GReg)
  -- messages (R327)
  | amsgMark (xp : Bool) (k a b : GReg) (disp : BitVec 40)
  | amsgReg (xp : Bool) (p k a b : GReg)
  | callatMark (xp : Bool) (tok k a : GReg) (disp : BitVec 40)
  | callatReg (xp : Bool) (tok k p a : GReg)
  | reply (xp : Bool) (a : GReg)
  -- system (R351)
  | trap (n : BitVec 40)
  | eret
  | mfs (d : GReg) (sys : BitVec 12)
  | mts (sys : BitVec 12) (a : GReg)
  | ackReplay (a : GReg)
  | ackResume (a : GReg)
  | ackRefuse (a : GReg)
  | csave (a : GReg)
  | crest (a : GReg)
  | banksel (a : GReg)
  | tlbinv (s : Scope) (a : GReg)
  | rtswap (tok a : GReg)
  | calsetCalendar (a b : GReg)
  | calsetArbitration (a b : GReg)
  | psplit (tok a : GReg)
  | pmerge (tok a : GReg)
  | sstop (a : GReg)
  | dbgbrk
  | idle
  | jrnl (d a : GReg)
  -- events; `core` is the core an event happens at, `src` the core a message comes from
  | fetchLineArrival (core : CoreNo) (line : Word) (flip : BitVec 480)
  | machineCheck (core : CoreNo) (ctx : CtxNo) (whole : Bool)
  | homeAccess (core src : CoreNo) (path : Path) (bad : Bool)
  | accessReply (core src : CoreNo) (path : Path)
  | feTimeout (core src : CoreNo) (ctx : CtxNo)
  | parkLimit (core : CoreNo) (ctx : CtxNo)
  | refusalRetry (core : CoreNo) (ctx : CtxNo)
  | journalResponse (core src : CoreNo) (path : Path)
  | asyncTrap (core : CoreNo) (ctx : CtxNo)
  | yieldWake (core : CoreNo) (ctx : CtxNo)
  | dequeSpillMove (core : CoreNo)
  | launchItemArrival (core : CoreNo) (fn : BitVec 8)
  | floodedLaunch (pkg : Fin 64) (fn : BitVec 8)
  | poolTake (core : CoreNo)
  | stealRequest (core : CoreNo)
  | stealBackoff (core : CoreNo)
  | stealServe (core src : CoreNo)
  | stealReply (core src : CoreNo)
  | completionNotice (core src : CoreNo)
  | combineMissComplete (core : CoreNo) (ctx : CtxNo)
  | labelInternRequest (core src : CoreNo)
  | nogoodApply (core src : CoreNo)
  | blightInstall (core : CoreNo)
  | nogoodTokenWrite (core : CoreNo)
  | lflushApply (core src : CoreNo)
  | rtloadApply (core src : CoreNo)
  | translationWalkComplete (core : CoreNo) (ctx : CtxNo)
  | scopeMiss (core src : CoreNo)
  | barrierArrivalSend (core : CoreNo)
  | barrierArrivalAtHome (core src : CoreNo)
  | engineBarrierArrival (core src : CoreNo) (path : Path)
  | gldResult (core : CoreNo) (ctx : CtxNo)
  | migrantBlockAtHome (core src : CoreNo)
  | migrantReturn (core src : CoreNo)
  | sfuServiceStart (core : CoreNo)
  | sfuResult (core : CoreNo)
  | sequencerDispatch (core : CoreNo)
  | vloopIteration (core : CoreNo)
  | streamPrefetch (core : CoreNo) (ctx : CtxNo) (f : Fin 8)
  | supervisorHandlerStart (core src : CoreNo)
  | amsgDelivery (core src : CoreNo)
  | callatArrival (core src : CoreNo)
  | replyDelivery (core src : CoreNo)
  | messageRetry (core dst : CoreNo)
  | flitSlot (router : BitVec 13) (out : Fin 8) (slot : Fin 64)
  | linkFlitRetry (router : BitVec 13) (out : Fin 20)
  | routeBankFlip (pkg : Fin 64)
  | calendarUpdateEffect (router : BitVec 13) (out : Fin 8)
  | matrixQueueAccept (core : CoreNo) (half : Fin 2)
  | matrixInstrStart (core : CoreNo) (half : Fin 2)
  | matrixCommit (core : CoreNo) (half : Fin 2)
  | matrixComplete (core : CoreNo) (half : Fin 2)
  | matrixFault (core : CoreNo) (half : Fin 2) (code : Byte) (addr : Word)
  | engineQueueAccept (core : CoreNo) (e : Eng)
  | engineCommit (core : CoreNo) (e : Eng)
  | engineComplete (core : CoreNo) (e : Eng)
  | engineFault (core : CoreNo) (e : Eng) (addr : Word)
  | enginePageFaultResume (core : CoreNo) (e : Eng)
  | rewriteUnitTake (core : CoreNo)
  | residentEventEntry (core : CoreNo)
  | interrupt (core : CoreNo) (controller : Bool)
  | partitionOpComplete (pkg : Fin 64)
  | stopAtTPrime (pkg : Fin 64)
  | stopSwitch (pkg : Fin 64)
  | tlbinvComplete (core : CoreNo) (ctx : CtxNo)
  | debugSetDbg (core : CoreNo) (ctx : CtxNo) (attach step : Bool)
  | debugFreezeSet (core : CoreNo)
  | debugFreezeClear (core : CoreNo)
  | configPathWrite (pkg : Fin 64) (w : ConfigWrite)
  | launchMessage (pkg : Fin 64) (fn : BitVec 8) (off : BitVec 12) (len : BitVec 6) (data : BitVec 256)
  | launchRetry (pkg : Fin 64) (fn : BitVec 8)
  | cxlMemWrite (pa : BitVec 57) (len : Fin 65) (data : BitVec 512)
  | eventRecordWrite (pkg : Fin 64) (fn : BitVec 8)
  | evreplyRetry (pkg : Fin 64) (fn : BitVec 8) (v : Word)
  | evreplyRefuse (pkg : Fin 64) (fn : BitVec 8) (v : Word)
  | evreplyConfirmFlip (pkg : Fin 64) (fn : BitVec 8) (v : Word)
  | functionEnable (pkg : Fin 64) (fn : BitVec 8)
  | functionDisable (pkg : Fin 64) (fn : BitVec 8)
  | functionReset (pkg : Fin 64) (fn : BitVec 8)
  | functionScrubComplete (pkg : Fin 64) (fn : BitVec 8)
  | migrationPause (pkg : Fin 64) (fn : BitVec 8)
  | migrationResume (pkg : Fin 64) (fn : BitVec 8)
  | hostRegisterWrite (pkg : Fin 64) (fn : BitVec 8) (table : Bool) (off : BitVec 16) (v : Word)
  | moduleReset (pkg : Fin 64) (ecdsa lms : Bool)
  | powerLimitHalt (pkg : Fin 64)
  | scheduledStopRequest (pkg : Fin 64) (node : BitVec 10) (next : Fin 4) (discard : Bool) (t : Word)
  | debugResume (core : CoreNo) (ctx : CtxNo)
  | spdmDoeRequest (pkg : Fin 64) (req : BitVec 64)
  deriving DecidableEq, Repr

end Sys2Proof
end

