-- ==== Sys2Proof/WellFormed.lean ====
section
/-!
DEFINITION. Which terms of Instr stand for something: the operand limits of each instruction's own entry that its
field types do not already say (R130, R155, R189, R192, R196, R197, R209, R210, R261, R327, R351). An encoding that
would break one of them raises the illegal-instruction trap by R98 and is refused by the decoder. Events have no limits
here: an event that names a core, a router or a message that is not there changes nothing.
-/
namespace Sys2Proof

/-- The integer types of FCVT (R196). -/
def Ty.isInt : Ty → Bool
  | .i8 | .i16 | .i32 | .i64 | .n8 | .n16 | .n32 | .n64 => true
  | _ => false

/-- The floating types (R30). -/
def Ty.isFloat : Ty → Bool
  | .f64 | .f32 | .f16 | .bf16 | .e4m3 | .e5m2 | .e3m2 | .e2m3 | .e2m1 => true
  | _ => false

/-- The lane types of R192. -/
def Ty.isLane : Ty → Bool
  | .i16 | .n16 | .f16 | .bf16 | .i32 | .n32 | .f32 | .i64 | .n64 | .f64 => true
  | _ => false

/-- The types of MMUL and MSCA (R261). -/
def Ty.isMmul : Ty → Bool
  | .i8 | .n8 | .i4 | .t2 | .e2m1 | .e2m3 => true
  | _ => false

/-- The types of MSLICE (R261). -/
def Ty.isSlice : Ty → Bool
  | .f64 | .f32 | .f16 | .bf16 => true
  | _ => false

/-- The largest slice count of each MSLICE type (R261). -/
def Ty.maxSlices : Ty → Nat
  | .f64 => 8
  | .f32 => 4
  | _ => 2

/-- The immediate of an immediate form under .w (R130): −2³¹ to 2³² − 1. -/
def immOk (w : Bool) (imm : BitVec 40) : Bool :=
  !w || (decide (-2147483648 ≤ imm.toInt) && decide (imm.toInt < 4294967296))

/-- The amount of an immediate shift (R130). -/
def shiftOk (w : Bool) (n : Fin 64) : Bool := !w || decide (n.val < 32)

/-- Position and length of EXT, EXTZ and INS (R130). -/
def fieldOk (w : Bool) (pos len : Fin 64) : Bool :=
  decide (1 ≤ len.val) && decide (pos.val + len.val ≤ 64) && (!w || decide (pos.val + len.val ≤ 32))

/-- RM of a lane instruction: only a floating type takes one (R197). -/
def laneRnd (t : Ty) (r : Rnd) : Bool := t.isFloat || r == .rne

/-- Well-formed instructions. -/
def Instr.wellFormed : Instr → Bool
  | .jinit _ n => decide (n.toNat < 4294967296)
  | .addi w _ _ i | .subi w _ _ i | .andi w _ _ i | .ori w _ _ i | .xori w _ _ i => immOk w i
  | .shli w _ _ n | .shri w _ _ n | .srai w _ _ n | .roli w _ _ n | .rori w _ _ n => shiftOk w n
  | .ext w _ _ p l | .extz w _ _ p l | .ins w _ _ p l => fieldOk w p l
  | .fenceX p1 p2 => !(p1 == p2)
  | .fcvtFf ta tb _ _ _ _ => ta.isFloat && tb.isFloat
  | .fcvtGf ta _ _ _ _ _ => ta.isInt
  | .fcvtFg _ tb _ _ _ _ => tb.isInt
  | .vadd t r _ _ _ _ _ | .vsub t r _ _ _ _ _ | .vmul t r _ _ _ _ _ => t.isLane && laneRnd t r
  | .vmin t _ _ _ _ _ _ | .vmax t _ _ _ _ _ _ => t.isLane
  | .vfma t r _ _ _ _ => t.isLane && laneRnd t r
  | .vabs t _ _ _ | .vneg t _ _ _ => t.isLane
  | .vand t _ _ _ | .vor t _ _ _ | .vxor t _ _ _ => t.isLane
  | .vshl t _ _ _ | .vshr t _ _ _ => t.isLane && !t.isFloat
  | .vcmp c t _ _ _ => t.isLane && !(t.isFloat && (c == .lo || c == .hs))
  | .vcvt ta tb _ _ _ _ => ta.isLane && tb.isLane
  | .vred _ t r d _ => t.isLane && laneRnd t r && (!t.isFloat || decide (d.val < 32))
  | .vbcastG t _ _ | .vbcastF t _ _ => t.isLane
  | .vloop n _ => decide (1 ≤ n.toNat) && decide (n.toNat ≤ 16)
  | .scfg d _ _ => decide (24 ≤ d.val)
  | .mmul t _ _ _ _ _ _ _ => t.isMmul
  | .msca t _ _ _ _ => t.isMmul
  | .msliceReg t _ _ _ _ _ _ _ => t.isSlice
  | .msliceImm t _ _ _ _ _ _ s => t.isSlice && decide (1 ≤ s.toNat) && decide (s.toNat ≤ t.maxSlices)
  | .callatMark _ _ _ a _ | .callatReg _ _ _ _ a => decide (a.val ≤ 60)
  | .trap n => decide (n.toNat ≤ 255)
  | _ => true

end Sys2Proof
end

