-- ==== Sys2Proof/Decode.lean ====
section
/-!
DEFINITION. The decoder, total on any 96 bits and any bytes, which refuses by name what R98 traps on, and the encoder
written from the same tables (R83, R91 to R98, and the encoding tables of each chapter). Three instructions have rows
that one encoding shares and a register's value tells apart when the instruction runs (MCTL R272, ACK R355, CALSET
R375): the decoder answers the first of those rows, and Machine/Fetch.lean takes the row the register names
(DEDUCED, log 5).
-/
namespace Sys2Proof

/-- Why a word is refused (R98). -/
inductive DecodeError where
  /-- Fewer than twelve bytes were given. -/
  | tooShort
  /-- A major code R96 does not assign. -/
  | unassignedOp
  /-- A function code R96 does not assign. -/
  | unassignedFn
  /-- A register field outside the values of its file (R93). -/
  | badRegister
  /-- A nonzero field that the form does not use. -/
  | nonzeroField
  /-- A reserved value in the mod field (R94, R95). -/
  | reservedMod
  /-- A modifier the instruction does not accept. -/
  | badModifier
  /-- An indexed form where it is not accepted, or with a nonzero imm40. -/
  | badIndex
  /-- An immediate or an operand outside the limits of the entry. -/
  | badImmediate
  deriving DecidableEq, Repr

/-- The fields of an instruction (R91). -/
structure Fields where
  op : BitVec 8
  fn : BitVec 8 := 0
  d : BitVec 6 := 0
  a : BitVec 6 := 0
  b : BitVec 6 := 0
  c : BitVec 6 := 0
  mod : BitVec 16 := 0
  imm : BitVec 40 := 0
  deriving DecidableEq, Repr

/-- The fields at their positions in the 96 bits (R91). -/
def Fields.unpack (w : BitVec 96) : Fields where
  op := w.extractLsb' 88 8
  fn := w.extractLsb' 80 8
  d := w.extractLsb' 74 6
  a := w.extractLsb' 68 6
  b := w.extractLsb' 62 6
  c := w.extractLsb' 56 6
  mod := w.extractLsb' 40 16
  imm := w.extractLsb' 0 40

/-- The 96 bits of a set of fields (R91). -/
def Fields.pack (f : Fields) : BitVec 96 :=
  f.op ++ (f.fn ++ (f.d ++ (f.a ++ (f.b ++ (f.c ++ (f.mod ++ f.imm))))))

-- Registers (R93)

/-- A g register field. -/
def g (x : BitVec 6) : GReg := x.toFin
/-- The field of a g register. -/
def gEnc (r : GReg) : BitVec 6 := BitVec.ofFin r
/-- An f register field, 0 to 31. -/
def fReg (x : BitVec 6) : Except DecodeError FReg :=
  if h : x.toNat < 32 then .ok ⟨x.toNat, h⟩ else .error .badRegister
/-- The field of an f register. -/
def fEnc (r : FReg) : BitVec 6 := BitVec.ofNat 6 r.val
/-- An m register field, 0 to 7. -/
def mReg (x : BitVec 6) : Except DecodeError MReg :=
  if h : x.toNat < 8 then .ok ⟨x.toNat, h⟩ else .error .badRegister
/-- The field of an m register. -/
def m8Enc (r : MReg) : BitVec 6 := BitVec.ofNat 6 r.val
/-- A k register field, 0 to 3. -/
def kReg (x : BitVec 6) : Except DecodeError KReg :=
  if h : x.toNat < 4 then .ok ⟨x.toNat, h⟩ else .error .badRegister
/-- The field of a k register. -/
def k4Enc (r : KReg) : BitVec 6 := BitVec.ofNat 6 r.val
/-- A v field: 0 to 7 for v0 to v7, 0x18 to 0x1F for the stream registers f24 to f31. -/
def vReg (x : BitVec 6) : Except DecodeError VOp :=
  if h : x.toNat < 8 then .ok (.v ⟨x.toNat, h⟩)
  else if h : x.toNat - 24 < 8 then
    if 24 ≤ x.toNat then .ok (.s ⟨x.toNat - 24, h⟩) else .error .badRegister
  else .error .badRegister
/-- The field of a v operand. -/
def vEnc : VOp → BitVec 6
  | .v n => BitVec.ofNat 6 n.val
  | .s n => BitVec.ofNat 6 (24 + n.val)

-- Codes (R37, R94, R95, R189, R196, R238)

/-- The type code (R95). -/
def Ty.code : Ty → BitVec 5
  | .i8 => 1 | .i16 => 2 | .i32 => 3 | .i64 => 4 | .n8 => 5 | .n16 => 6 | .n32 => 7 | .n64 => 8
  | .f64 => 9 | .f32 => 10 | .f16 => 11 | .bf16 => 12 | .e4m3 => 13 | .e5m2 => 14 | .e3m2 => 15
  | .e2m3 => 16 | .e2m1 => 17 | .t2 => 18 | .i4 => 19

/-- The type of a code; 0 is no type and 20 to 31 are reserved (R95). -/
def tyOf (x : BitVec 5) : Except DecodeError Ty :=
  match x.toNat with
  | 1 => .ok .i8 | 2 => .ok .i16 | 3 => .ok .i32 | 4 => .ok .i64
  | 5 => .ok .n8 | 6 => .ok .n16 | 7 => .ok .n32 | 8 => .ok .n64
  | 9 => .ok .f64 | 10 => .ok .f32 | 11 => .ok .f16 | 12 => .ok .bf16
  | 13 => .ok .e4m3 | 14 => .ok .e5m2 | 15 => .ok .e3m2 | 16 => .ok .e2m3
  | 17 => .ok .e2m1 | 18 => .ok .t2 | 19 => .ok .i4
  | 0 => .error .badModifier
  | _ => .error .reservedMod

/-- A scalar float type as a type (R196). -/
def FTy.ty : FTy → Ty
  | .f64 => .f64
  | .f32 => .f32

/-- TA of a scalar float form: .f32 or .f64 (R196). -/
def ftyOf (x : BitVec 5) : Except DecodeError FTy :=
  match tyOf x with
  | .ok .f64 => .ok .f64
  | .ok .f32 => .ok .f32
  | .ok _ => .error .badModifier
  | .error e => .error e

/-- The rounding code (R37). -/
def Rnd.code : Rnd → BitVec 2
  | .rne => 0 | .rtz => 1 | .rup => 2 | .rdn => 3

/-- The rounding mode of a code (R37). -/
def rndOf (x : BitVec 2) : Rnd :=
  match x.toNat with
  | 0 => .rne
  | 1 => .rtz
  | 2 => .rup
  | _ => .rdn

/-- The condition code (R94). -/
def Cond.code : Cond → BitVec 3
  | .eq => 0 | .ne => 1 | .lt => 2 | .ge => 3 | .lo => 4 | .hs => 5

/-- The condition of a code; 6 and 7 are reserved (R94). -/
def condOf (x : BitVec 3) : Except DecodeError Cond :=
  match x.toNat with
  | 0 => .ok .eq | 1 => .ok .ne | 2 => .ok .lt | 3 => .ok .ge | 4 => .ok .lo | 5 => .ok .hs
  | _ => .error .reservedMod

/-- The condition code of FCMP (R196). -/
def FCond.code : FCond → BitVec 3
  | .eq => 0 | .ne => 1 | .lt => 2 | .ge => 3

/-- The condition of FCMP; .lo and .hs are not accepted (R196). -/
def fcondOf (x : BitVec 3) : Except DecodeError FCond :=
  match x.toNat with
  | 0 => .ok .eq | 1 => .ok .ne | 2 => .ok .lt | 3 => .ok .ge
  | 4 | 5 => .error .badModifier
  | _ => .error .reservedMod

/-- The size code (R94). -/
def Size.code : Size → BitVec 2
  | .b => 0 | .h => 1 | .w => 2 | .d => 3

/-- The size of a code (R94). -/
def sizeOf (x : BitVec 2) : Size :=
  match x.toNat with
  | 0 => .b
  | 1 => .h
  | 2 => .w
  | _ => .d

/-- .w or .d as a size. -/
def SizeWD.size : SizeWD → Size
  | .w => .w
  | .d => .d

/-- A size that must be .w or .d (R176, R224, R238). -/
def wdOf : Size → Except DecodeError SizeWD
  | .w => .ok .w
  | .d => .ok .d
  | _ => .error .badModifier

/-- The scope code (R94). -/
def Scope.code : Scope → BitVec 3
  | .co => 1 | .cl => 2 | .di => 3 | .pk => 4 | .sy => 5

/-- The path code (R189). -/
def Path.code : Path → BitVec 3
  | .th => 0 | .cp => 1 | .xf => 2 | .mx => 3 | .gr => 4

/-- The path of a code; 5 to 7 are refused (R189). -/
def pathOf (x : BitVec 3) : Except DecodeError Path :=
  match x.toNat with
  | 0 => .ok .th | 1 => .ok .cp | 2 => .ok .xf | 3 => .ok .mx | 4 => .ok .gr
  | _ => .error .badImmediate

/-- The function code of an integer GLD (R238). -/
def GldOp.code : GldOp → BitVec 8
  | .add => 0 | .max => 2 | .min => 3 | .maxn => 4 | .and => 5 | .or => 6

/-- The function code of a float GLD (R238). -/
def GldFOp.code : GldFOp → BitVec 8
  | .fadd => 0x11 | .max => 0x12 | .min => 0x13

/-- The function code of VRED: the operation, and bit 4 for a float type (R197). -/
def redFn (o : RedOp) (t : Ty) : BitVec 8 :=
  match o, t.isFloat with
  | .add, false => 0 | .max, false => 1 | .min, false => 2
  | .add, true => 0x10 | .max, true => 0x11 | .min, true => 0x12

-- Layout A (R94)

/-- ORD and SCOPE together: the combinations that some instruction accepts (R94, R176, R190, R351). -/
inductive OrdS where
  /-- ORD 0, SCOPE 0. -/
  | none
  /-- .acq at a scope. -/
  | acq (s : Scope)
  /-- .rel at a scope. -/
  | rel (s : Scope)
  /-- SCOPE without ORD: FENCE and TLBINV. -/
  | fence (s : Scope)
  deriving DecidableEq, Repr

/-- The fields of layout A. -/
structure ModA where
  size : Size := .b
  ord : OrdS := .none
  post : Bool := false
  xp : Bool := false
  idx : Bool := false
  scl : Fin 4 := 0
  deriving DecidableEq, Repr

/-- ORD and SCOPE as five bits. -/
def OrdS.code : OrdS → BitVec 5
  | .none => 0
  | .acq s => 1#2 ++ s.code
  | .rel s => 2#2 ++ s.code
  | .fence s => 0#2 ++ s.code

/-- SCOPE 1 to 5; 6 and 7 are reserved. -/
def scopeOf (x : BitVec 3) : Except DecodeError Scope :=
  match x.toNat with
  | 1 => .ok .co | 2 => .ok .cl | 3 => .ok .di | 4 => .ok .pk | 5 => .ok .sy
  | 0 => .error .badModifier
  | _ => .error .reservedMod

/-- ORD and SCOPE of five bits: an ORD without a scope is a modifier not accepted, ORD 3 is reserved. -/
def ordOf (x : BitVec 5) : Except DecodeError OrdS :=
  match (x.extractLsb' 3 2).toNat, (x.extractLsb' 0 3).toNat with
  | 0, 0 => .ok .none
  | 0, _ => (scopeOf (x.extractLsb' 0 3)).map .fence
  | 1, _ => (scopeOf (x.extractLsb' 0 3)).map .acq
  | 2, _ => (scopeOf (x.extractLsb' 0 3)).map .rel
  | _, _ => .error .reservedMod

/-- The mod field of layout A. -/
def aMod (m : ModA) : BitVec 16 :=
  m.size.code ++ (m.ord.code ++ (BitVec.ofBool m.post ++ (BitVec.ofBool m.xp ++ (BitVec.ofBool m.idx ++
    ((BitVec.ofFin m.scl : BitVec 2) ++ 0#4)))))

/-- Layout A of a mod field. -/
def aDec (x : BitVec 16) : Except DecodeError ModA :=
  if x.extractLsb' 0 4 = 0 then
    match ordOf (x.extractLsb' 9 5) with
    | .ok o => .ok { size := sizeOf (x.extractLsb' 14 2), ord := o, post := x.getLsbD 8, xp := x.getLsbD 7,
                     idx := x.getLsbD 6, scl := (x.extractLsb' 4 2).toFin }
    | .error e => .error e
  else .error .nonzeroField

/-- The memory operand of an access (R92, R94): b and SCL are zero in the offset form, imm40 in the indexed one. -/
def memOf (f : Fields) (m : ModA) : Except DecodeError MemOp :=
  if m.idx then
    if f.imm = 0 then .ok (.idx (g f.a) (g f.b) m.scl) else .error .badIndex
  else if f.b = 0 ∧ m.scl = 0 then .ok (.off (g f.a) f.imm) else .error .nonzeroField

/-- The base field of a memory operand. -/
def MemOp.baseEnc : MemOp → BitVec 6
  | .off b _ => gEnc b
  | .idx b _ _ => gEnc b
/-- The index field of a memory operand. -/
def MemOp.idxEnc : MemOp → BitVec 6
  | .off _ _ => 0
  | .idx _ i _ => gEnc i
/-- imm40 of a memory operand. -/
def MemOp.immEnc : MemOp → BitVec 40
  | .off _ o => o
  | .idx _ _ _ => 0
/-- IDX and SCL of a memory operand. -/
def MemOp.amod : MemOp → ModA
  | .off _ _ => {}
  | .idx _ _ s => { idx := true, scl := s }

/-- ORD and SCOPE of a load. -/
def acqOrd : Option Scope → OrdS
  | none => .none
  | some s => .acq s
/-- ORD and SCOPE of a float or vector store. -/
def relOrd : Option Scope → OrdS
  | none => .none
  | some s => .rel s
/-- ORD and SCOPE of a store. -/
def stOrd : StOrd → OrdS
  | .rel s => .rel s
  | _ => .none
/-- POST of a store. -/
def stPost : StOrd → Bool
  | .post => true
  | _ => false
/-- ORD and SCOPE of an atomic. -/
def atOrd : AtOrd → OrdS
  | .plain => .none
  | .acq s => .acq s
  | .rel s => .rel s

-- Layout C (R94)

/-- The fields of layout C. -/
structure ModC where
  ta : BitVec 5 := 0
  tb : BitVec 5 := 0
  rm : BitVec 2 := 0
  sat : Bool := false
  opt : BitVec 3 := 0
  deriving DecidableEq, Repr

/-- The mod field of layout C. -/
def cMod (m : ModC) : BitVec 16 := m.ta ++ (m.tb ++ (m.rm ++ (BitVec.ofBool m.sat ++ m.opt)))

/-- Layout C of a mod field. -/
def cDec (x : BitVec 16) : ModC where
  ta := x.extractLsb' 11 5
  tb := x.extractLsb' 6 5
  rm := x.extractLsb' 4 2
  sat := x.getLsbD 3
  opt := x.extractLsb' 0 3

-- Layout W (R94)

/-- The mod field of layout W: W and COND. -/
def wMod (w : Bool) (c : Option Cond) : BitVec 16 :=
  BitVec.ofBool w ++ ((match c with | none => 0#3 | some k => k.code) ++ 0#12)

-- Small operands

/-- A small natural as imm40. -/
def immOf (n : Nat) : BitVec 40 := BitVec.ofNat 40 n
/-- pos and len of EXT, EXTZ and INS (R92). -/
def posLen (p l : Fin 64) : BitVec 40 := (BitVec.ofNat 32 l.val ++ (0#2 ++ BitVec.ofNat 6 p.val))
/-- p1 and p2 of FENCE.x (R92). -/
def pathImm (p q : Path) : BitVec 40 := 0#29 ++ (q.code ++ (0#5 ++ p.code))
/-- OPT<40> of a masked form. -/
def maskOpt : Option MReg → BitVec 3
  | none => 0
  | some _ => 1
/-- The mask register field. -/
def maskEnc : Option MReg → BitVec 6
  | none => 0
  | some m => m8Enc m
/-- OPT of .neg and .nacc (R261). -/
def negNacc (neg nacc : Bool) : BitVec 3 := BitVec.ofBool neg ++ (BitVec.ofBool nacc ++ 0#1)
/-- OPT of .bar (R279). -/
def barOpt : Option BarOp → BitVec 3
  | none => 0
  | some _ => 1
/-- imm40 of a copy: the barrier operand (R279). -/
def barImm : Option BarOp → BitVec 40
  | none => 0
  | some r => r.off ++ (0#2 ++ gEnc r.reg)

-- Shared form checks

/-- Bits of a set of used fields. -/
def useD : Nat := 1
/-- The a field is used. -/
def useA : Nat := 2
/-- The b field is used. -/
def useB : Nat := 4
/-- The c field is used. -/
def useC : Nat := 8
/-- imm40 is used. -/
def useI : Nat := 16

/-- Every field outside the used ones is zero (R98). -/
def unusedZero (f : Fields) (u : Nat) : Bool :=
  (u.testBit 0 || f.d == 0) && (u.testBit 1 || f.a == 0) && (u.testBit 2 || f.b == 0) &&
    (u.testBit 3 || f.c == 0) && (u.testBit 4 || f.imm == 0)

/-- The code has only function code 0 (R96). -/
def only (f : Fields) (r : Except DecodeError Instr) : Except DecodeError Instr :=
  if f.fn = 0 then r else .error .unassignedFn

/-- Accept a term that its own entry's limits allow. -/
def chk (e : DecodeError) (i : Instr) : Except DecodeError Instr := if i.wellFormed then .ok i else .error e

/-- A form of layout N. -/
def formN (f : Fields) (u : Nat) (i : Instr) : Except DecodeError Instr :=
  if f.mod = 0 ∧ unusedZero f u then chk .badImmediate i else .error .nonzeroField
/-- A form of layout N with limits of its own. -/
def formChk (f : Fields) (u : Nat) (i : Instr) : Except DecodeError Instr := formN f u i
/-- A form of layout N with a small natural in imm40, below `n` (at most 64). -/
def formSmall (f : Fields) (u n : Nat) (k : Fin 64 → Instr) : Except DecodeError Instr :=
  if h : f.imm.toNat < 64 then
    if f.imm.toNat < n then formN f u (k ⟨f.imm.toNat, h⟩) else .error .badImmediate
  else .error .badImmediate
/-- A form of layout N with a system register number, up to 0xFFF, in imm40 (R93, R348). -/
def formSys (f : Fields) (u : Nat) (k : BitVec 12 → Instr) : Except DecodeError Instr :=
  if f.imm.extractLsb' 12 28 = 0 then formN f u (k (f.imm.extractLsb' 0 12)) else .error .badImmediate
/-- LOOP: d and a hold the same register (R115). -/
def formLoop (f : Fields) : Except DecodeError Instr :=
  if f.d = f.a then formN f (useD + useA + useI) (.loop (g f.a) f.imm) else .error .nonzeroField
/-- LIH: 24 bits of imm40 (R130). -/
def formLih (f : Fields) : Except DecodeError Instr :=
  if f.imm.extractLsb' 24 16 = 0 then formN f (useD + useI) (.lih (g f.d) (f.imm.extractLsb' 0 24))
  else .error .badImmediate

/-- The W bit of a form that takes no condition: COND and the low bits are zero (R129). -/
def wOf (f : Fields) : Except DecodeError Bool :=
  if f.mod.extractLsb' 0 15 = 0 then .ok (f.mod.getLsbD 15) else .error .badModifier
/-- A form of layout W with neither W nor COND. -/
def formW0 (f : Fields) (k : Unit → Instr) : Except DecodeError Instr :=
  if f.mod = 0 then (if unusedZero f useI then .ok (k ()) else .error .nonzeroField) else .error .badModifier
/-- Three registers. -/
def formW3 (f : Fields) (k : Bool → GReg → GReg → GReg → Instr) : Except DecodeError Instr :=
  match wOf f with
  | .ok w => if unusedZero f (useD + useA + useB) then .ok (k w (g f.d) (g f.a) (g f.b)) else .error .nonzeroField
  | .error e => .error e
/-- Four registers. -/
def formW4 (f : Fields) (k : Bool → GReg → GReg → GReg → GReg → Instr) : Except DecodeError Instr :=
  match wOf f with
  | .ok w => if unusedZero f (useD + useA + useB + useC) then .ok (k w (g f.d) (g f.a) (g f.b) (g f.c))
    else .error .nonzeroField
  | .error e => .error e
/-- Two registers. -/
def formW2 (f : Fields) (k : Bool → GReg → GReg → Instr) : Except DecodeError Instr :=
  match wOf f with
  | .ok w => if unusedZero f (useD + useA) then .ok (k w (g f.d) (g f.a)) else .error .nonzeroField
  | .error e => .error e
/-- Two registers and a signed immediate. -/
def formWI (f : Fields) (k : Bool → GReg → GReg → BitVec 40 → Instr) : Except DecodeError Instr :=
  match wOf f with
  | .ok w => if unusedZero f (useD + useA + useI) then chk .badImmediate (k w (g f.d) (g f.a) f.imm)
    else .error .nonzeroField
  | .error e => .error e
/-- Two registers and a shift amount (R130). -/
def formWS (f : Fields) (k : Bool → GReg → GReg → Fin 64 → Instr) : Except DecodeError Instr :=
  match wOf f with
  | .ok w =>
    if unusedZero f (useD + useA + useI) then
      if h : f.imm.toNat < 64 then chk .badImmediate (k w (g f.d) (g f.a) ⟨f.imm.toNat, h⟩)
      else .error .badImmediate
    else .error .nonzeroField
  | .error e => .error e
/-- EXT, EXTZ and INS (R130). -/
def formField (f : Fields) (k : Bool → GReg → GReg → Fin 64 → Fin 64 → Instr) : Except DecodeError Instr :=
  match wOf f with
  | .ok w =>
    if unusedZero f (useD + useA + useI) then
      if f.imm.extractLsb' 6 2 = 0 ∧ f.imm.extractLsb' 14 26 = 0 then
        chk .badImmediate (k w (g f.d) (g f.a) (f.imm.extractLsb' 0 6).toFin (f.imm.extractLsb' 8 6).toFin)
      else .error .badImmediate
    else .error .nonzeroField
  | .error e => .error e
/-- CMP: W and COND. -/
def formCmp (f : Fields) : Except DecodeError Instr :=
  if f.mod.extractLsb' 0 12 = 0 then
    match condOf (f.mod.extractLsb' 12 3) with
    | .ok k => if unusedZero f (useD + useA + useB) then .ok (.cmp (f.mod.getLsbD 15) k (g f.d) (g f.a) (g f.b))
      else .error .nonzeroField
    | .error e => .error e
  else .error .nonzeroField
/-- BR with a condition: COND and no W (R115). -/
def formCond (f : Fields) : Except DecodeError Instr :=
  if f.mod.extractLsb' 0 12 = 0 then
    match condOf (f.mod.extractLsb' 12 3) with
    | .ok k =>
      if f.mod.getLsbD 15 then .error .badModifier
      else if unusedZero f (useA + useB + useI) then .ok (.brCond k (g f.a) (g f.b) f.imm) else .error .nonzeroField
    | .error e => .error e
  else .error .nonzeroField

/-- An access: layout A and its memory operand. -/
def formA (f : Fields) (k : ModA → MemOp → Except DecodeError Instr) : Except DecodeError Instr :=
  match aDec f.mod with
  | .ok m => match memOf f m with
    | .ok o => k m o
    | .error e => .error e
  | .error e => .error e
/-- The c field is zero. -/
def cZero (f : Fields) (r : Except DecodeError Instr) : Except DecodeError Instr :=
  if f.c = 0 then r else .error .nonzeroField
/-- .acq or nothing. -/
def acqOf : OrdS → Except DecodeError (Option Scope)
  | .none => .ok none
  | .acq s => .ok (some s)
  | _ => .error .badModifier
/-- .rel or nothing. -/
def relOf : OrdS → Except DecodeError (Option Scope)
  | .none => .ok none
  | .rel s => .ok (some s)
  | _ => .error .badModifier
/-- The ordering of a non-post atomic (R224). -/
def atOf : OrdS → Except DecodeError AtOrd
  | .none => .ok .plain
  | .acq s => .ok (.acq s)
  | .rel s => .ok (.rel s)
  | .fence _ => .error .badModifier

/-- LEA (R130): SIZE 0b11 and no other modifier. -/
def formLea (f : Fields) : Except DecodeError Instr :=
  formA f fun m o => cZero f <|
    if m.size = .d ∧ m.ord = .none ∧ m.post = false ∧ m.xp = false then .ok (.lea (g f.d) o) else .error .badModifier
/-- LD and LDZ (R176). -/
def formLoad (f : Fields) (k : Size → Option Scope → Bool → GReg → MemOp → Instr) : Except DecodeError Instr :=
  formA f fun m o => cZero f <|
    match acqOf m.ord with
    | .ok q => if m.post then .error .badModifier else .ok (k m.size q m.xp (g f.d) o)
    | .error e => .error e
/-- ST (R176): .post excludes ORD and SCOPE. -/
def formStore (f : Fields) : Except DecodeError Instr :=
  formA f fun m o => cZero f <|
    if m.xp then .error .badModifier
    else match relOf m.ord, m.post with
      | .ok none, false => .ok (.st m.size .plain (g f.d) o)
      | .ok none, true => .ok (.st m.size .post (g f.d) o)
      | .ok (some s), false => .ok (.st m.size (.rel s) (g f.d) o)
      | .ok (some _), true => .error .badModifier
      | .error e, _ => .error e
/-- Only a size. -/
def plainA (m : ModA) : Bool := m.ord == .none && !m.post && !m.xp
/-- LDS, STS, LDF and STF (R176). -/
def formSync (f : Fields) (k : SizeWD → GReg → MemOp → Instr) : Except DecodeError Instr :=
  formA f fun m o => cZero f <|
    match wdOf m.size with
    | .ok z => if plainA m then .ok (k z (g f.d) o) else .error .badModifier
    | .error e => .error e
/-- FECLR (R176): SIZE 0b11. -/
def formFeclr (f : Fields) : Except DecodeError Instr :=
  formA f fun m o => cZero f <|
    if f.d = 0 then (if m.size = .d ∧ plainA m then .ok (.feclr o) else .error .badModifier) else .error .nonzeroField
/-- FLD (R176). -/
def formFld (f : Fields) : Except DecodeError Instr :=
  formA f fun m o => cZero f <|
    match wdOf m.size, acqOf m.ord, fReg f.d with
    | .ok z, .ok q, .ok d => if m.post || m.xp then .error .badModifier else .ok (.fld z q d o)
    | .error e, _, _ => .error e
    | _, .error e, _ => .error e
    | _, _, .error e => .error e
/-- FST (R176). -/
def formFst (f : Fields) : Except DecodeError Instr :=
  formA f fun m o => cZero f <|
    match wdOf m.size, relOf m.ord, fReg f.d with
    | .ok z, .ok q, .ok d => if m.post || m.xp then .error .badModifier else .ok (.fst z q d o)
    | .error e, _, _ => .error e
    | _, .error e, _ => .error e
    | _, _, .error e => .error e
/-- Layout A without a memory operand in use: no IDX and no SCL. -/
def bareA (f : Fields) (k : ModA → Except DecodeError Instr) : Except DecodeError Instr :=
  match aDec f.mod with
  | .ok m => if m.idx then .error .badIndex else if m.scl = 0 then k m else .error .nonzeroField
  | .error e => .error e
/-- FENCE at a scope (R190). -/
def formFence (f : Fields) : Except DecodeError Instr :=
  bareA f fun m =>
    match m.ord with
    | .fence s => if m.size = .d ∧ m.post = false ∧ m.xp = false then
        (if unusedZero f 0 then .ok (.fence s) else .error .nonzeroField) else .error .badModifier
    | _ => .error .badModifier
/-- FENCE.x (R189, R190). -/
def formFenceX (f : Fields) : Except DecodeError Instr :=
  bareA f fun m =>
    if m.size = .d ∧ plainA m then
      if unusedZero f useI ∧ f.imm.extractLsb' 3 5 = 0 ∧ f.imm.extractLsb' 11 29 = 0 then
        match pathOf (f.imm.extractLsb' 0 3), pathOf (f.imm.extractLsb' 8 3) with
        | .ok p, .ok q => chk .badImmediate (.fenceX p q)
        | .error e, _ => .error e
        | _, .error e => .error e
      else .error .nonzeroField
    else .error .badModifier

/-- An atomic and its .post form (R224). -/
def formAtom (f : Fields) (k : SizeWD → AtOrd → GReg → GReg → BitVec 40 → GReg → Instr)
    (kp : SizeWD → GReg → BitVec 40 → GReg → Instr) : Except DecodeError Instr :=
  bareA f fun m => cZero f <|
    match wdOf m.size, atOf m.ord with
    | .ok z, .ok o =>
      if m.xp then .error .badModifier
      else if m.post then
        if o = .plain ∧ f.d = 0 then .ok (kp z (g f.a) f.imm (g f.b)) else .error .badModifier
      else .ok (k z o (g f.d) (g f.a) f.imm (g f.b))
    | .error e, _ => .error e
    | _, .error e => .error e
/-- ACAS (R224). -/
def formAcas (f : Fields) : Except DecodeError Instr :=
  bareA f fun m =>
    match wdOf m.size, atOf m.ord with
    | .ok z, .ok o =>
      if m.xp || m.post then .error .badModifier else .ok (.acas z o (g f.d) (g f.a) f.imm (g f.b) (g f.c))
    | .error e, _ => .error e
    | _, .error e => .error e
/-- AFADD and its .post form (R224). -/
def formAfadd (f : Fields) : Except DecodeError Instr :=
  bareA f fun m => cZero f <|
    match wdOf m.size, atOf m.ord, fReg f.b with
    | .ok z, .ok o, .ok b =>
      if m.xp then .error .badModifier
      else if m.post then
        if o = .plain ∧ f.d = 0 then .ok (.afaddPost z (g f.a) f.imm b) else .error .badModifier
      else match fReg f.d with
        | .ok d => .ok (.afadd z o d (g f.a) f.imm b)
        | .error e => .error e
    | .error e, _, _ => .error e
    | _, .error e, _ => .error e
    | _, _, .error e => .error e
/-- MIGRATE (R229). -/
def formMigrate (f : Fields) : Except DecodeError Instr :=
  bareA f fun m =>
    if m.size = .d ∧ plainA m then
      (if unusedZero f (useA + useI) then .ok (.migrate (g f.a) f.imm) else .error .nonzeroField)
    else .error .badModifier
/-- GLD with an integer destination (R238). -/
def formGld (f : Fields) (op : GldOp) : Except DecodeError Instr :=
  formA f fun m o => cZero f <|
    match wdOf m.size with
    | .ok z => if plainA m then .ok (.gldInt op z (g f.d) o) else .error .badModifier
    | .error e => .error e
/-- GLD with a float destination (R238). -/
def formGldF (f : Fields) (op : GldFOp) : Except DecodeError Instr :=
  formA f fun m o => cZero f <|
    match wdOf m.size, fReg f.d with
    | .ok z, .ok d => if plainA m then .ok (.gldFloat op z d o) else .error .badModifier
    | .error e, _ => .error e
    | _, .error e => .error e

/-- TB is zero. -/
def noTb (m : ModC) (r : Except DecodeError Instr) : Except DecodeError Instr :=
  if m.tb = 0 then r else .error .badModifier
/-- Layout C with a scalar float type, and with the rounding, SAT and OPT left to the form. -/
def formFt (f : Fields) (u : Nat) (k : ModC → FTy → Except DecodeError Instr) : Except DecodeError Instr :=
  match ftyOf (cDec f.mod).ta with
  | .ok t => noTb (cDec f.mod) <| if unusedZero f u then k (cDec f.mod) t else .error .nonzeroField
  | .error e => .error e
/-- No SAT and no OPT. -/
def noOpt (m : ModC) (r : Except DecodeError Instr) : Except DecodeError Instr :=
  if m.sat = false ∧ m.opt = 0 then r else .error .badModifier
/-- No rounding modifier. -/
def noRm (m : ModC) (r : Except DecodeError Instr) : Except DecodeError Instr :=
  if m.rm = 0 then r else .error .badModifier

/-- FADD, FSUB and FMUL. -/
def formF3 (f : Fields) (k : FTy → Rnd → FReg → FReg → FReg → Instr) : Except DecodeError Instr :=
  formFt f (useD + useA + useB) fun m t => noOpt m <|
    match fReg f.d, fReg f.a, fReg f.b with
    | .ok d, .ok a, .ok b => .ok (k t (rndOf m.rm) d a b)
    | _, _, _ => .error .badRegister
/-- FMA. -/
def formF4 (f : Fields) : Except DecodeError Instr :=
  formFt f (useD + useA + useB + useC) fun m t => noOpt m <|
    match fReg f.d, fReg f.a, fReg f.b, fReg f.c with
    | .ok d, .ok a, .ok b, .ok c => .ok (.fma t (rndOf m.rm) d a b c)
    | _, _, _, _ => .error .badRegister
/-- FMIN, FMAX and FDIV: no rounding modifier. -/
def formF3n (f : Fields) (k : FTy → FReg → FReg → FReg → Instr) : Except DecodeError Instr :=
  formFt f (useD + useA + useB) fun m t => noOpt m <| noRm m <|
    match fReg f.d, fReg f.a, fReg f.b with
    | .ok d, .ok a, .ok b => .ok (k t d a b)
    | _, _, _ => .error .badRegister
/-- FABS, FNEG and the one-operand special functions. -/
def formF2n (f : Fields) (k : FTy → FReg → FReg → Instr) : Except DecodeError Instr :=
  formFt f (useD + useA) fun m t => noOpt m <| noRm m <|
    match fReg f.d, fReg f.a with
    | .ok d, .ok a => .ok (k t d a)
    | _, _ => .error .badRegister
/-- FCMP. -/
def formFcmp (f : Fields) : Except DecodeError Instr :=
  formFt f (useD + useA + useB) fun m t => noRm m <|
    if m.sat then .error .badModifier
    else match fcondOf m.opt, fReg f.a, fReg f.b with
      | .ok k, .ok a, .ok b => .ok (.fcmp k t (g f.d) a b)
      | .error e, _, _ => .error e
      | _, _, _ => .error .badRegister
/-- FRINT. -/
def formFrint (f : Fields) : Except DecodeError Instr :=
  formFt f (useD + useA) fun m t => noOpt m <|
    match fReg f.d, fReg f.a with
    | .ok d, .ok a => .ok (.frint t (rndOf m.rm) d a)
    | _, _ => .error .badRegister
/-- FSCALE: b is a g register. -/
def formFscale (f : Fields) : Except DecodeError Instr :=
  formFt f (useD + useA + useB) fun m t => noOpt m <|
    match fReg f.d, fReg f.a with
    | .ok d, .ok a => .ok (.fscale t (rndOf m.rm) d a (g f.b))
    | _, _ => .error .badRegister
/-- A conversion: OPT is zero and only d and a are used. -/
def formCvt (f : Fields) (k : ModC → Except DecodeError Instr) : Except DecodeError Instr :=
  if (cDec f.mod).opt = 0 then
    (if unusedZero f (useD + useA) then k (cDec f.mod) else .error .nonzeroField)
  else .error .badModifier
/-- FCVT between f registers (R196). -/
def formCvtFF (f : Fields) : Except DecodeError Instr :=
  formCvt f fun m =>
    match tyOf m.ta, tyOf m.tb, fReg f.d, fReg f.a with
    | .ok u, .ok v, .ok d, .ok a => chk .badModifier (.fcvtFf u v (rndOf m.rm) m.sat d a)
    | .error e, _, _, _ => .error e
    | _, .error e, _, _ => .error e
    | _, _, _, _ => .error .badRegister
/-- FCVT to a g register (R196). -/
def formCvtGF (f : Fields) : Except DecodeError Instr :=
  formCvt f fun m =>
    match tyOf m.ta, ftyOf m.tb, fReg f.a with
    | .ok u, .ok v, .ok a => chk .badModifier (.fcvtGf u v (rndOf m.rm) m.sat (g f.d) a)
    | .error e, _, _ => .error e
    | _, .error e, _ => .error e
    | _, _, _ => .error .badRegister
/-- FCVT from a g register (R196). -/
def formCvtFG (f : Fields) : Except DecodeError Instr :=
  formCvt f fun m =>
    match ftyOf m.ta, tyOf m.tb, fReg f.d with
    | .ok u, .ok v, .ok d => chk .badModifier (.fcvtFg u v (rndOf m.rm) m.sat d (g f.a))
    | .error e, _, _ => .error e
    | _, .error e, _ => .error e
    | _, _, _ => .error .badRegister

/-- Layout C with a type and no TB. -/
def formTy (f : Fields) (k : ModC → Ty → Except DecodeError Instr) : Except DecodeError Instr :=
  match tyOf (cDec f.mod).ta with
  | .ok t => noTb (cDec f.mod) (k (cDec f.mod) t)
  | .error e => .error e
/-- The mask of a form that takes one: OPT<40>, with c zero when it is clear (R194, R197). -/
def maskOf (f : Fields) (m : ModC) : Except DecodeError (Option MReg) :=
  if m.opt = 0 then (if f.c = 0 then .ok none else .error .nonzeroField)
  else if m.opt = 1 then (match mReg f.c with | .ok r => .ok (some r) | .error e => .error e)
  else .error .badModifier
/-- VADD, VSUB, VMUL, VMIN and VMAX. -/
def formV3 (f : Fields) (_rnd : Bool) (k : Ty → Rnd → Bool → Option MReg → VOp → VOp → VOp → Instr) :
    Except DecodeError Instr :=
  formTy f fun m t =>
    if f.imm = 0 then
      match maskOf f m, vReg f.d, vReg f.a, vReg f.b with
      | .ok q, .ok d, .ok a, .ok b => chk .badModifier (k t (rndOf m.rm) m.sat q d a b)
      | .error e, _, _, _ => .error e
      | _, _, _, _ => .error .badRegister
    else .error .nonzeroField
/-- VFMA. -/
def formVfma (f : Fields) : Except DecodeError Instr :=
  formTy f fun m t => noOpt m <|
    if f.imm = 0 then
      match vReg f.d, vReg f.a, vReg f.b, vReg f.c with
      | .ok d, .ok a, .ok b, .ok c => chk .badModifier (.vfma t (rndOf m.rm) d a b c)
      | _, _, _, _ => .error .badRegister
    else .error .nonzeroField
/-- VABS and VNEG. -/
def formV2m (f : Fields) (k : Ty → Option MReg → VOp → VOp → Instr) : Except DecodeError Instr :=
  formTy f fun m t => noRm m <|
    if m.sat then .error .badModifier
    else if f.imm = 0 ∧ f.b = 0 then
      match maskOf f m, vReg f.d, vReg f.a with
      | .ok q, .ok d, .ok a => chk .badModifier (k t q d a)
      | .error e, _, _ => .error e
      | _, _, _ => .error .badRegister
    else .error .nonzeroField
/-- The bitwise and shift instructions. -/
def formV3n (f : Fields) (p : Ty → Bool) (k : Ty → VOp → VOp → VOp → Instr) : Except DecodeError Instr :=
  formTy f fun m t => noOpt m <| noRm m <|
    if unusedZero f (useD + useA + useB) then
      match vReg f.d, vReg f.a, vReg f.b with
      | .ok d, .ok a, .ok b => if p t then chk .badModifier (k t d a b) else .error .badModifier
      | _, _, _ => .error .badRegister
    else .error .nonzeroField
/-- VCMP. -/
def formVcmp (f : Fields) : Except DecodeError Instr :=
  formTy f fun m t => noRm m <|
    if m.sat then .error .badModifier
    else if unusedZero f (useD + useA + useB) then
      match condOf m.opt, mReg f.d, vReg f.a, vReg f.b with
      | .ok k, .ok d, .ok a, .ok b => chk .badModifier (.vcmp k t d a b)
      | .error e, _, _, _ => .error e
      | _, _, _, _ => .error .badRegister
    else .error .nonzeroField
/-- VSEL: layout C all zero. -/
def formVsel (f : Fields) : Except DecodeError Instr :=
  if f.mod = 0 then
    if f.imm = 0 then
      match vReg f.d, mReg f.a, vReg f.b, vReg f.c with
      | .ok d, .ok m, .ok b, .ok c => .ok (.vsel d m b c)
      | _, _, _, _ => .error .badRegister
    else .error .nonzeroField
  else .error .badModifier
/-- VCVT. -/
def formVcvt (f : Fields) : Except DecodeError Instr :=
  formCvt f fun m =>
    match tyOf m.ta, tyOf m.tb, vReg f.d, vReg f.a with
    | .ok u, .ok v, .ok d, .ok a => chk .badModifier (.vcvt u v (rndOf m.rm) m.sat d a)
    | .error e, _, _, _ => .error e
    | _, .error e, _, _ => .error e
    | _, _, _, _ => .error .badRegister
/-- VSCALE. -/
def formVscale (f : Fields) : Except DecodeError Instr :=
  formFt f (useD + useA + useB) fun m t => noOpt m <|
    match vReg f.d, vReg f.a, vReg f.b with
    | .ok d, .ok a, .ok b => .ok (.vscale t (rndOf m.rm) d a b)
    | _, _, _ => .error .badRegister
/-- VRED: fn<4> agrees with the type (R197). -/
def formVred (f : Fields) (o : RedOp) (fl : Bool) : Except DecodeError Instr :=
  formTy f fun m t => noOpt m <|
    if unusedZero f (useD + useA) then
      match vReg f.a with
      | .ok a => if t.isFloat = fl then chk .badModifier (.vred o t (rndOf m.rm) (g f.d) a) else .error .badModifier
      | .error e => .error e
    else .error .nonzeroField
/-- VBCAST from a g register. -/
def formVbcastG (f : Fields) : Except DecodeError Instr :=
  formTy f fun m t => noOpt m <| noRm m <|
    if unusedZero f (useD + useA) then
      match vReg f.d with
      | .ok d => chk .badModifier (.vbcastG t d (g f.a))
      | .error e => .error e
    else .error .nonzeroField
/-- VBCAST from an f register. -/
def formVbcastF (f : Fields) : Except DecodeError Instr :=
  formTy f fun m t => noOpt m <| noRm m <|
    if unusedZero f (useD + useA) then
      match vReg f.d, fReg f.a with
      | .ok d, .ok a => chk .badModifier (.vbcastF t d a)
      | _, _ => .error .badRegister
    else .error .nonzeroField
/-- VLD. -/
def formVld (f : Fields) : Except DecodeError Instr :=
  formA f fun m o => cZero f <|
    match acqOf m.ord, vReg f.d with
    | .ok q, .ok d => if m.size = .d ∧ m.post = false ∧ m.xp = false then .ok (.vld q d o) else .error .badModifier
    | .error e, _ => .error e
    | _, .error e => .error e
/-- VST: the mask register is in c. -/
def formVst (f : Fields) : Except DecodeError Instr :=
  formA f fun m o =>
    match relOf m.ord, vReg f.d, mReg f.c with
    | .ok q, .ok a, .ok k =>
      if m.size = .d ∧ m.post = false ∧ m.xp = false then .ok (.vst q a k o) else .error .badModifier
    | .error e, _, _ => .error e
    | _, _, _ => .error .badRegister
/-- VLOOP: n is 1 to 16 (R209). -/
def formVloop (f : Fields) : Except DecodeError Instr := formN f (useA + useI) (.vloop f.imm (g f.a))
/-- SCFG: fD is one of f24 to f31 (R210). -/
def formScfg (f : Fields) : Except DecodeError Instr :=
  match fReg f.d with
  | .ok d => formN f (useD + useA + useI) (.scfg d (g f.a) f.imm)
  | .error e => .error e

/-- Layout C of a matrix instruction: only TA and, where `o`, .neg and .nacc (R261). -/
def formMat (f : Fields) (o : Bool) (k : Ty → Bool → Bool → Except DecodeError Instr) : Except DecodeError Instr :=
  formTy f fun m t => noRm m <|
    if m.sat then .error .badModifier
    else if m.opt.getLsbD 0 then .error .badModifier
    else if o || m.opt == 0 then k t (m.opt.getLsbD 2) (m.opt.getLsbD 1) else .error .badModifier
/-- MMUL: the fifth register in imm40<5:0>. -/
def formMmul (f : Fields) : Except DecodeError Instr :=
  formMat f true fun t n z =>
    if f.imm.extractLsb' 6 34 = 0 then
      chk .badModifier (.mmul t n z (g f.d) (g f.a) (g f.b) (g f.c) (g (f.imm.extractLsb' 0 6)))
    else .error .badImmediate
/-- MSCA. -/
def formMsca (f : Fields) : Except DecodeError Instr :=
  formMat f false fun t _ _ =>
    if f.imm = 0 then chk .badModifier (.msca t (g f.d) (g f.a) (g f.b) (g f.c)) else .error .nonzeroField
/-- MSLICE with S in a register. -/
def formMsliceR (f : Fields) : Except DecodeError Instr :=
  formMat f true fun t n z =>
    if f.imm.extractLsb' 6 34 = 0 then
      chk .badModifier (.msliceReg t n z (g f.d) (g f.a) (g f.b) (g f.c) (g (f.imm.extractLsb' 0 6)))
    else .error .badImmediate
/-- MSLICE with S immediate. -/
def formMsliceI (f : Fields) : Except DecodeError Instr :=
  formMat f true fun t n z => chk .badImmediate (.msliceImm t n z (g f.d) (g f.a) (g f.b) (g f.c) f.imm)

/-- CPY, CPYG and CPYS (R279). -/
def formCpy (f : Fields) (k : GReg → GReg → GReg → GReg → Option BarOp → Instr) : Except DecodeError Instr :=
  if (cDec f.mod).ta = 0 ∧ (cDec f.mod).tb = 0 ∧ (cDec f.mod).rm = 0 ∧ (cDec f.mod).sat = false then
    if (cDec f.mod).opt = 0 then
      (if f.imm = 0 then .ok (k (g f.d) (g f.a) (g f.b) (g f.c) none) else .error .nonzeroField)
    else if (cDec f.mod).opt = 1 then
      (if f.imm.extractLsb' 6 2 = 0 then
        .ok (k (g f.d) (g f.a) (g f.b) (g f.c) (some ⟨g (f.imm.extractLsb' 0 6), f.imm.extractLsb' 8 32⟩))
      else .error .nonzeroField)
    else .error .badModifier
  else .error .badModifier
/-- XFORM: n in imm40, 0 to 9 (R279). -/
def formXform (f : Fields) : Except DecodeError Instr :=
  match f.imm.toNat with
  | 0 => formN f (useD + useA + useB + useI) (.xformReshape (g f.d) (g f.a) (g f.b))
  | 1 => formN f (useD + useA + useB + useI) (.xformCompact (g f.d) (g f.a) (g f.b))
  | 2 => formN f (useD + useA + useB + useI) (.xformExpand (g f.d) (g f.a) (g f.b))
  | 3 => formN f (useD + useA + useB + useI) (.xformMxPack (g f.d) (g f.a) (g f.b))
  | 4 => formN f (useD + useA + useB + useI) (.xformMxPackSat (g f.d) (g f.a) (g f.b))
  | 5 => formN f (useD + useA + useB + useI) (.xformMxUnpack (g f.d) (g f.a) (g f.b))
  | 6 => formN f (useD + useA + useB + useI) (.xformDeltaEncode (g f.d) (g f.a) (g f.b))
  | 7 => formN f (useD + useA + useB + useI) (.xformDeltaDecode (g f.d) (g f.a) (g f.b))
  | 8 => formN f (useD + useA + useB + useI) (.xformZeroRun (g f.d) (g f.a) (g f.b))
  | 9 => formN f (useD + useA + useB + useI) (.xformDeltaZeroRun (g f.d) (g f.a) (g f.b))
  | _ => .error .badImmediate

/-- The message instructions: layout A with XP only (R327). -/
def formXp (f : Fields) (u : Nat) (k : Bool → Instr) : Except DecodeError Instr :=
  bareA f fun m =>
    if m.size = .b ∧ m.ord = .none ∧ m.post = false then
      (if unusedZero f u then .ok (k m.xp) else .error .nonzeroField)
    else .error .badModifier
/-- CALLAT: gA is at most g60 (R327). -/
def formXpChk (f : Fields) (u : Nat) (k : Bool → Instr) : Except DecodeError Instr :=
  match formXp f u k with
  | .ok i => chk .badRegister i
  | .error e => .error e
/-- TLBINV: layout A with SCOPE only (R351). -/
def formTlbinv (f : Fields) : Except DecodeError Instr :=
  bareA f fun m =>
    match m.ord with
    | .fence s => if m.size = .b ∧ m.post = false ∧ m.xp = false then
        (if unusedZero f useA then .ok (.tlbinv s (g f.a)) else .error .nonzeroField) else .error .badModifier
    | _ => .error .badModifier

/-- The major codes 0x00 to 0x0F (R96). -/
def decode0X (f : Fields) : Except DecodeError Instr :=
  match f.op with
  | 0x01#8 => only f (formN f 0 .nop)
  | 0x02#8 => match f.fn with
    | 0x00#8 => formW0 f (fun _ => .br f.imm)
    | 0x01#8 => formCond f
    | _ => .error .unassignedFn
  | 0x03#8 => only f (formN f useI (.call f.imm))
  | 0x04#8 => only f (formN f useA (.callr (g f.a)))
  | 0x05#8 => only f (formN f useA (.jr (g f.a)))
  | 0x06#8 => only f (formLoop f)
  | 0x07#8 => match f.fn with
    | 0x00#8 => formN f (useA + useB + useC + useI) (.spawnMark (g f.a) (g f.b) (g f.c) f.imm)
    | 0x01#8 => formN f (useD + useA + useB + useC) (.spawnReg (g f.d) (g f.a) (g f.b) (g f.c))
    | _ => .error .unassignedFn
  | 0x08#8 => only f (formN f (useA + useI) (.jinit (g f.a) f.imm))
  | 0x09#8 => only f (formN f (useA + useI) (.join (g f.a) f.imm))
  | 0x0a#8 => only f (formN f 0 .done)
  | 0x0b#8 => match f.fn with
    | 0x00#8 => formN f useA (.start (g f.a))
    | 0x01#8 => formN f useA (.startPool (g f.a))
    | _ => .error .unassignedFn
  | 0x0c#8 => only f (formN f useA (.reap (g f.a)))
  | 0x0d#8 => only f (formN f 0 .yield)
  | _ => .error .unassignedOp

/-- The major codes 0x10 to 0x1F (R96). -/
def decode1X (f : Fields) : Except DecodeError Instr :=
  match f.op with
  | 0x10#8 => match f.fn with
    | 0x00#8 => formW3 f .add
    | 0x01#8 => formWI f .addi
    | _ => .error .unassignedFn
  | 0x11#8 => match f.fn with
    | 0x00#8 => formW3 f .sub
    | 0x01#8 => formWI f .subi
    | _ => .error .unassignedFn
  | 0x12#8 => match f.fn with
    | 0x00#8 => formW3 f .and
    | 0x01#8 => formWI f .andi
    | _ => .error .unassignedFn
  | 0x13#8 => match f.fn with
    | 0x00#8 => formW3 f .or
    | 0x01#8 => formWI f .ori
    | _ => .error .unassignedFn
  | 0x14#8 => match f.fn with
    | 0x00#8 => formW3 f .xor
    | 0x01#8 => formWI f .xori
    | _ => .error .unassignedFn
  | 0x15#8 => only f (formW3 f .andn)
  | 0x16#8 => match f.fn with
    | 0x00#8 => formW3 f .shl
    | 0x01#8 => formWS f .shli
    | _ => .error .unassignedFn
  | 0x17#8 => match f.fn with
    | 0x00#8 => formW3 f .shr
    | 0x01#8 => formWS f .shri
    | _ => .error .unassignedFn
  | 0x18#8 => match f.fn with
    | 0x00#8 => formW3 f .sra
    | 0x01#8 => formWS f .srai
    | _ => .error .unassignedFn
  | 0x19#8 => match f.fn with
    | 0x00#8 => formW3 f .rol
    | 0x01#8 => formWS f .roli
    | _ => .error .unassignedFn
  | 0x1a#8 => match f.fn with
    | 0x00#8 => formW3 f .ror
    | 0x01#8 => formWS f .rori
    | _ => .error .unassignedFn
  | 0x1b#8 => only f (formW4 f .funl)
  | 0x1c#8 => only f (formW4 f .funr)
  | 0x1d#8 => only f (formW3 f .mul)
  | 0x1e#8 => only f (formW3 f .mulh)
  | 0x1f#8 => only f (formW3 f .mulhu)
  | _ => .error .unassignedOp

/-- The major codes 0x20 to 0x2F (R96). -/
def decode2X (f : Fields) : Except DecodeError Instr :=
  match f.op with
  | 0x20#8 => only f (formW3 f .div)
  | 0x21#8 => only f (formW3 f .divu)
  | 0x22#8 => only f (formW3 f .rem)
  | 0x23#8 => only f (formW3 f .remu)
  | 0x24#8 => match f.fn with
    | 0x00#8 => formW3 f .max
    | 0x01#8 => formW3 f .min
    | 0x02#8 => formW3 f .maxu
    | 0x03#8 => formW3 f .minu
    | _ => .error .unassignedFn
  | 0x25#8 => match f.fn with
    | 0x00#8 => formW2 f .clz
    | 0x01#8 => formW2 f .ctz
    | 0x02#8 => formW2 f .popc
    | 0x03#8 => formW2 f .brev
    | 0x04#8 => formW2 f .bswap
    | _ => .error .unassignedFn
  | 0x26#8 => match f.fn with
    | 0x00#8 => formField f .ext
    | 0x01#8 => formField f .extz
    | 0x02#8 => formField f .ins
    | _ => .error .unassignedFn
  | 0x27#8 => only f (formCmp f)
  | 0x28#8 => only f (formW4 f .sel)
  | 0x29#8 => only f (formN f (useD + useI) (.li (g f.d) f.imm))
  | 0x2a#8 => only f (formLih f)
  | 0x2b#8 => only f (formLea f)
  | _ => .error .unassignedOp

/-- The major codes 0x30 to 0x3F (R96). -/
def decode3X (f : Fields) : Except DecodeError Instr :=
  match f.op with
  | 0x30#8 => only f (formSmall f (useD + useI) 64 (fun n => .assume (g f.d) n))
  | 0x31#8 => only f (formN f (useD + useA + useB) (.lunion (g f.d) (g f.a) (g f.b)))
  | 0x32#8 => only f (formN f (useD + useA) (.nogood (g f.d) (g f.a)))
  | 0x33#8 => match f.fn with
    | 0x00#8 => formN f (useD + useA) (.lget (g f.d) (g f.a))
    | 0x01#8 => formN f (useD + useA + useB) (.lset (g f.d) (g f.a) (g f.b))
    | 0x02#8 => formN f useD (.lclr (g f.d))
    | 0x03#8 => formN f (useD + useA) (.ltest (g f.d) (g f.a))
    | 0x04#8 => formN f (useD + useA) (.lcount (g f.d) (g f.a))
    | _ => .error .unassignedFn
  | 0x34#8 => only f (formN f (useD + useA + useB) (.lenvget (g f.d) (g f.a) (g f.b)))
  | 0x35#8 => only f (formN f useA (.lwin (g f.a)))
  | 0x36#8 => only f (formN f 0 .lflush)
  | 0x38#8 => only f (formLoad f .ld)
  | 0x39#8 => only f (formLoad f .ldz)
  | 0x3a#8 => only f (formStore f)
  | 0x3b#8 => only f (formSync f .lds)
  | 0x3c#8 => only f (formSync f .sts)
  | 0x3d#8 => only f (formSync f .ldf)
  | 0x3e#8 => only f (formSync f .stf)
  | 0x3f#8 => only f (formFeclr f)
  | _ => .error .unassignedOp

/-- The major codes 0x40 to 0x4F (R96). -/
def decode4X (f : Fields) : Except DecodeError Instr :=
  match f.op with
  | 0x40#8 => only f (formFld f)
  | 0x41#8 => only f (formFst f)
  | 0x42#8 => match f.fn with
    | 0x00#8 => formFence f
    | 0x01#8 => formFenceX f
    | _ => .error .unassignedFn
  | _ => .error .unassignedOp

/-- The major codes 0x50 to 0x5F (R96). -/
def decode5X (f : Fields) : Except DecodeError Instr :=
  match f.op with
  | 0x50#8 => only f (formAtom f .aadd .aaddPost)
  | 0x51#8 => only f (formAtom f .aand .aandPost)
  | 0x52#8 => only f (formAtom f .aor .aorPost)
  | 0x53#8 => only f (formAtom f .axor .axorPost)
  | 0x54#8 => only f (formAtom f .amin .aminPost)
  | 0x55#8 => only f (formAtom f .amax .amaxPost)
  | 0x56#8 => only f (formAtom f .aminu .aminuPost)
  | 0x57#8 => only f (formAtom f .amaxu .amaxuPost)
  | 0x58#8 => only f (formAtom f .aswap .aswapPost)
  | 0x59#8 => only f (formAcas f)
  | 0x5a#8 => only f (formAfadd f)
  | 0x5b#8 => match f.fn with
    | 0x00#8 => formMigrate f
    | 0x01#8 => formN f 0 .mret
    | _ => .error .unassignedFn
  | 0x5c#8 => match f.fn with
    | 0x00#8 => formGld f .add
    | 0x02#8 => formGld f .max
    | 0x03#8 => formGld f .min
    | 0x04#8 => formGld f .maxn
    | 0x05#8 => formGld f .and
    | 0x06#8 => formGld f .or
    | 0x11#8 => formGldF f .fadd
    | 0x12#8 => formGldF f .max
    | 0x13#8 => formGldF f .min
    | _ => .error .unassignedFn
  | 0x5d#8 => match f.fn with
    | 0x00#8 => formN f (useA + useB + useI) (.barinit (g f.a) f.imm (g f.b))
    | 0x01#8 => formN f (useA + useI) (.barinitAbort (g f.a) f.imm)
    | _ => .error .unassignedFn
  | 0x5e#8 => match f.fn with
    | 0x00#8 => formN f (useA + useI) (.bararr (g f.a) f.imm)
    | 0x01#8 => formN f (useA + useB + useI) (.barwait (g f.a) f.imm (g f.b))
    | 0x02#8 => formN f (useD + useA + useB + useI) (.bartry (g f.d) (g f.a) f.imm (g f.b))
    | _ => .error .unassignedFn
  | _ => .error .unassignedOp

/-- The major codes 0x60 to 0x6F (R96). -/
def decode6X (f : Fields) : Except DecodeError Instr :=
  match f.op with
  | 0x60#8 => only f (formF3 f .fadd)
  | 0x61#8 => only f (formF3 f .fsub)
  | 0x62#8 => only f (formF3 f .fmul)
  | 0x63#8 => only f (formF4 f)
  | 0x64#8 => only f (formF3n f .fmin)
  | 0x65#8 => only f (formF3n f .fmax)
  | 0x66#8 => match f.fn with
    | 0x00#8 => formF2n f .fabs
    | 0x01#8 => formF2n f .fneg
    | _ => .error .unassignedFn
  | 0x67#8 => only f (formFcmp f)
  | 0x68#8 => match f.fn with
    | 0x00#8 => formCvtFF f
    | 0x01#8 => formCvtGF f
    | 0x02#8 => formCvtFG f
    | _ => .error .unassignedFn
  | 0x69#8 => match f.fn with
    | 0x00#8 => (do let d ← fReg f.d; formN f (useD + useA) (.fmovFg d (g f.a)))
    | 0x01#8 => (do let a ← fReg f.a; formN f (useD + useA) (.fmovGf (g f.d) a))
    | 0x02#8 => (do let d ← fReg f.d; let a ← fReg f.a; formN f (useD + useA) (.fmovFf d a))
    | _ => .error .unassignedFn
  | 0x6a#8 => only f (formFrint f)
  | 0x6b#8 => only f (formFscale f)
  | _ => .error .unassignedOp

/-- The major codes 0x70 to 0x7F (R96). -/
def decode7X (f : Fields) : Except DecodeError Instr :=
  match f.op with
  | 0x70#8 => only f (formF3n f .fdiv)
  | 0x71#8 => only f (formF2n f .fexp2f)
  | 0x72#8 => only f (formF2n f .flog2)
  | 0x73#8 => only f (formF2n f .frcp)
  | 0x74#8 => only f (formF2n f .frsq)
  | 0x75#8 => only f (formF2n f .fsqrt)
  | 0x76#8 => only f (formF2n f .fsin)
  | 0x77#8 => only f (formF2n f .fcos)
  | _ => .error .unassignedOp

/-- The major codes 0x80 to 0x8F (R96). -/
def decode8X (f : Fields) : Except DecodeError Instr :=
  match f.op with
  | 0x80#8 => only f (formV3 f true .vadd)
  | 0x81#8 => only f (formV3 f true .vsub)
  | 0x82#8 => only f (formV3 f true .vmul)
  | 0x83#8 => only f (formV3 f false .vmin)
  | 0x84#8 => only f (formV3 f false .vmax)
  | 0x85#8 => only f (formVfma f)
  | 0x86#8 => match f.fn with
    | 0x00#8 => formV2m f .vabs
    | 0x01#8 => formV2m f .vneg
    | _ => .error .unassignedFn
  | 0x87#8 => match f.fn with
    | 0x00#8 => formV3n f (fun _ => true) .vand
    | 0x01#8 => formV3n f (fun _ => true) .vor
    | 0x02#8 => formV3n f (fun _ => true) .vxor
    | _ => .error .unassignedFn
  | 0x88#8 => match f.fn with
    | 0x00#8 => formV3n f (fun t => !t.isFloat) .vshl
    | 0x01#8 => formV3n f (fun t => !t.isFloat) .vshr
    | _ => .error .unassignedFn
  | 0x89#8 => only f (formVcmp f)
  | 0x8a#8 => only f (formVsel f)
  | 0x8b#8 => only f (formVcvt f)
  | 0x8c#8 => only f (formVscale f)
  | 0x8d#8 => match f.fn with
    | 0x00#8 => formVred f .add false
    | 0x10#8 => formVred f .add true
    | 0x01#8 => formVred f .max false
    | 0x11#8 => formVred f .max true
    | 0x02#8 => formVred f .min false
    | 0x12#8 => formVred f .min true
    | _ => .error .unassignedFn
  | 0x8e#8 => match f.fn with
    | 0x00#8 => formVbcastG f
    | 0x01#8 => formVbcastF f
    | _ => .error .unassignedFn
  | 0x8f#8 => only f ((do let d ← mReg f.d; formN f (useD + useA + useB) (.vmask d (g f.a) (g f.b))))
  | _ => .error .unassignedOp

/-- The major codes 0x90 to 0x9F (R96). -/
def decode9X (f : Fields) : Except DecodeError Instr :=
  match f.op with
  | 0x90#8 => only f (formVld f)
  | 0x91#8 => only f (formVst f)
  | 0x92#8 => only f (formVloop f)
  | 0x93#8 => only f (formScfg f)
  | _ => .error .unassignedOp

/-- The major codes 0xA0 to 0xAF (R96). -/
def decodeAX (f : Fields) : Except DecodeError Instr :=
  match f.op with
  | 0xa0#8 => only f (formMmul f)
  | 0xa1#8 => only f (formMsca f)
  | 0xa2#8 => match f.fn with
    | 0x00#8 => formMsliceR f
    | 0x01#8 => formMsliceI f
    | _ => .error .unassignedFn
  | 0xa3#8 => only f (formN f (useD + useA) (.mzero (g f.d) (g f.a)))
  | 0xa4#8 => only f (formN f (useA + useB + useI) (.mmove (g f.a) f.imm (g f.b)))
  | 0xa5#8 => only f (formN f (useA + useB) (.mctlSetP (g f.a) (g f.b)))
  | 0xa6#8 => only f (formN f useD (.mwait (g f.d)))
  | 0xa7#8 => only f (formN f useD (.mstat (g f.d)))
  | 0xa8#8 => only f (formN f (useD + useA + useB) (.rtest (g f.d) (g f.a) (g f.b)))
  | 0xa9#8 => only f ((do let k ← kReg f.d; formN f (useD + useA) (.kset k (g f.a))))
  | _ => .error .unassignedOp

/-- The major codes 0xB0 to 0xBF (R96). -/
def decodeBX (f : Fields) : Except DecodeError Instr :=
  match f.op with
  | 0xb0#8 => only f (formCpy f .cpy)
  | 0xb1#8 => only f (formCpy f .cpyg)
  | 0xb2#8 => only f (formCpy f .cpys)
  | 0xb3#8 => only f (formXform f)
  | 0xb8#8 => only f (formN f (useD + useA) (.nalloc (g f.d) (g f.a)))
  | 0xb9#8 => only f (formN f useA (.nfree (g f.a)))
  | 0xba#8 => only f (formN f (useA + useB) (.link (g f.a) (g f.b)))
  | 0xbb#8 => only f (formN f (useA + useB) (.ppush (g f.a) (g f.b)))
  | 0xbc#8 => only f (formN f (useD + useA) (.ppop (g f.d) (g f.a)))
  | 0xbd#8 => only f (formN f (useA + useB) (.rdisp (g f.a) (g f.b)))
  | 0xbe#8 => only f (formN f (useD + useA) (.rtload (g f.d) (g f.a)))
  | _ => .error .unassignedOp

/-- The major codes 0xC0 to 0xCF (R96). -/
def decodeCX (f : Fields) : Except DecodeError Instr :=
  match f.op with
  | 0xc0#8 => match f.fn with
    | 0x00#8 => formXp f (useA + useB + useC + useI) (fun x => .amsgMark x (g f.a) (g f.b) (g f.c) f.imm)
    | 0x01#8 => formXp f (useD + useA + useB + useC) (fun x => .amsgReg x (g f.d) (g f.a) (g f.b) (g f.c))
    | _ => .error .unassignedFn
  | 0xc1#8 => match f.fn with
    | 0x00#8 => formXpChk f (useD + useA + useC + useI) (fun x => .callatMark x (g f.d) (g f.a) (g f.c) f.imm)
    | 0x01#8 => formXpChk f (useD + useA + useB + useC) (fun x => .callatReg x (g f.d) (g f.a) (g f.b) (g f.c))
    | _ => .error .unassignedFn
  | 0xc2#8 => only f (formXp f useA (fun x => .reply x (g f.a)))
  | _ => .error .unassignedOp

/-- The major codes 0xE0 to 0xEF (R96). -/
def decodeEX (f : Fields) : Except DecodeError Instr :=
  match f.op with
  | 0xe0#8 => only f (formChk f useI (.trap f.imm))
  | 0xe1#8 => only f (formN f 0 .eret)
  | 0xe2#8 => only f (formSys f (useD + useI) (fun n => .mfs (g f.d) n))
  | 0xe3#8 => only f (formSys f (useA + useI) (fun n => .mts n (g f.a)))
  | 0xe4#8 => only f (formN f useA (.ackReplay (g f.a)))
  | 0xe5#8 => only f (formN f useA (.csave (g f.a)))
  | 0xe6#8 => only f (formN f useA (.crest (g f.a)))
  | 0xe7#8 => only f (formN f useA (.banksel (g f.a)))
  | 0xe8#8 => only f (formTlbinv f)
  | 0xe9#8 => only f (formN f (useD + useA) (.rtswap (g f.d) (g f.a)))
  | 0xea#8 => only f (formN f (useA + useB) (.calsetCalendar (g f.a) (g f.b)))
  | 0xeb#8 => match f.fn with
    | 0x00#8 => formN f (useD + useA) (.psplit (g f.d) (g f.a))
    | 0x01#8 => formN f (useD + useA) (.pmerge (g f.d) (g f.a))
    | _ => .error .unassignedFn
  | 0xec#8 => only f (formN f useA (.sstop (g f.a)))
  | 0xed#8 => only f (formN f 0 .dbgbrk)
  | 0xee#8 => only f (formN f 0 .idle)
  | 0xef#8 => only f (formN f (useD + useA) (.jrnl (g f.d) (g f.a)))
  | _ => .error .unassignedOp

/-- Decode the fields of one instruction word (R96, R98). -/
def decodeFields (f : Fields) : Except DecodeError Instr :=
  match f.op.extractLsb' 4 4 with
  | 0x0#4 => decode0X f
  | 0x1#4 => decode1X f
  | 0x2#4 => decode2X f
  | 0x3#4 => decode3X f
  | 0x4#4 => decode4X f
  | 0x5#4 => decode5X f
  | 0x6#4 => decode6X f
  | 0x7#4 => decode7X f
  | 0x8#4 => decode8X f
  | 0x9#4 => decode9X f
  | 0xa#4 => decodeAX f
  | 0xb#4 => decodeBX f
  | 0xc#4 => decodeCX f
  | 0xe#4 => decodeEX f
  | _ => .error .unassignedOp
/-- The fields of an instruction's word; none for an event, which has no encoding. -/
def encodeFields : Instr → Option Fields
  | .nop => some { op := 0x01#8 }
  | .br d => some { op := 0x02#8, imm := d }
  | .brCond k a b d => some { op := 0x02#8, fn := 0x01#8, a := gEnc a, b := gEnc b, mod := wMod false (some k), imm := d }
  | .call d => some { op := 0x03#8, imm := d }
  | .callr a => some { op := 0x04#8, a := gEnc a }
  | .jr a => some { op := 0x05#8, a := gEnc a }
  | .loop k d => some { op := 0x06#8, d := gEnc k, a := gEnc k, imm := d }
  | .spawnMark j a b d => some { op := 0x07#8, a := gEnc j, b := gEnc a, c := gEnc b, imm := d }
  | .spawnReg p j a b => some { op := 0x07#8, fn := 0x01#8, d := gEnc p, a := gEnc j, b := gEnc a, c := gEnc b }
  | .jinit b n => some { op := 0x08#8, a := gEnc b, imm := n }
  | .join b o => some { op := 0x09#8, a := gEnc b, imm := o }
  | .done => some { op := 0x0a#8 }
  | .start a => some { op := 0x0b#8, a := gEnc a }
  | .startPool a => some { op := 0x0b#8, fn := 0x01#8, a := gEnc a }
  | .reap a => some { op := 0x0c#8, a := gEnc a }
  | .yield => some { op := 0x0d#8 }
  | .add w d a b => some { op := 0x10#8, d := gEnc d, a := gEnc a, b := gEnc b, mod := wMod w none }
  | .addi w d a i => some { op := 0x10#8, fn := 0x01#8, d := gEnc d, a := gEnc a, mod := wMod w none, imm := i }
  | .sub w d a b => some { op := 0x11#8, d := gEnc d, a := gEnc a, b := gEnc b, mod := wMod w none }
  | .subi w d a i => some { op := 0x11#8, fn := 0x01#8, d := gEnc d, a := gEnc a, mod := wMod w none, imm := i }
  | .and w d a b => some { op := 0x12#8, d := gEnc d, a := gEnc a, b := gEnc b, mod := wMod w none }
  | .andi w d a i => some { op := 0x12#8, fn := 0x01#8, d := gEnc d, a := gEnc a, mod := wMod w none, imm := i }
  | .or w d a b => some { op := 0x13#8, d := gEnc d, a := gEnc a, b := gEnc b, mod := wMod w none }
  | .ori w d a i => some { op := 0x13#8, fn := 0x01#8, d := gEnc d, a := gEnc a, mod := wMod w none, imm := i }
  | .xor w d a b => some { op := 0x14#8, d := gEnc d, a := gEnc a, b := gEnc b, mod := wMod w none }
  | .xori w d a i => some { op := 0x14#8, fn := 0x01#8, d := gEnc d, a := gEnc a, mod := wMod w none, imm := i }
  | .andn w d a b => some { op := 0x15#8, d := gEnc d, a := gEnc a, b := gEnc b, mod := wMod w none }
  | .shl w d a b => some { op := 0x16#8, d := gEnc d, a := gEnc a, b := gEnc b, mod := wMod w none }
  | .shli w d a n => some { op := 0x16#8, fn := 0x01#8, d := gEnc d, a := gEnc a, mod := wMod w none, imm := immOf n.val }
  | .shr w d a b => some { op := 0x17#8, d := gEnc d, a := gEnc a, b := gEnc b, mod := wMod w none }
  | .shri w d a n => some { op := 0x17#8, fn := 0x01#8, d := gEnc d, a := gEnc a, mod := wMod w none, imm := immOf n.val }
  | .sra w d a b => some { op := 0x18#8, d := gEnc d, a := gEnc a, b := gEnc b, mod := wMod w none }
  | .srai w d a n => some { op := 0x18#8, fn := 0x01#8, d := gEnc d, a := gEnc a, mod := wMod w none, imm := immOf n.val }
  | .rol w d a b => some { op := 0x19#8, d := gEnc d, a := gEnc a, b := gEnc b, mod := wMod w none }
  | .roli w d a n => some { op := 0x19#8, fn := 0x01#8, d := gEnc d, a := gEnc a, mod := wMod w none, imm := immOf n.val }
  | .ror w d a b => some { op := 0x1a#8, d := gEnc d, a := gEnc a, b := gEnc b, mod := wMod w none }
  | .rori w d a n => some { op := 0x1a#8, fn := 0x01#8, d := gEnc d, a := gEnc a, mod := wMod w none, imm := immOf n.val }
  | .funl w d a b k => some { op := 0x1b#8, d := gEnc d, a := gEnc a, b := gEnc b, c := gEnc k, mod := wMod w none }
  | .funr w d a b k => some { op := 0x1c#8, d := gEnc d, a := gEnc a, b := gEnc b, c := gEnc k, mod := wMod w none }
  | .mul w d a b => some { op := 0x1d#8, d := gEnc d, a := gEnc a, b := gEnc b, mod := wMod w none }
  | .mulh w d a b => some { op := 0x1e#8, d := gEnc d, a := gEnc a, b := gEnc b, mod := wMod w none }
  | .mulhu w d a b => some { op := 0x1f#8, d := gEnc d, a := gEnc a, b := gEnc b, mod := wMod w none }
  | .div w d a b => some { op := 0x20#8, d := gEnc d, a := gEnc a, b := gEnc b, mod := wMod w none }
  | .divu w d a b => some { op := 0x21#8, d := gEnc d, a := gEnc a, b := gEnc b, mod := wMod w none }
  | .rem w d a b => some { op := 0x22#8, d := gEnc d, a := gEnc a, b := gEnc b, mod := wMod w none }
  | .remu w d a b => some { op := 0x23#8, d := gEnc d, a := gEnc a, b := gEnc b, mod := wMod w none }
  | .max w d a b => some { op := 0x24#8, d := gEnc d, a := gEnc a, b := gEnc b, mod := wMod w none }
  | .min w d a b => some { op := 0x24#8, fn := 0x01#8, d := gEnc d, a := gEnc a, b := gEnc b, mod := wMod w none }
  | .maxu w d a b => some { op := 0x24#8, fn := 0x02#8, d := gEnc d, a := gEnc a, b := gEnc b, mod := wMod w none }
  | .minu w d a b => some { op := 0x24#8, fn := 0x03#8, d := gEnc d, a := gEnc a, b := gEnc b, mod := wMod w none }
  | .clz w d a => some { op := 0x25#8, d := gEnc d, a := gEnc a, mod := wMod w none }
  | .ctz w d a => some { op := 0x25#8, fn := 0x01#8, d := gEnc d, a := gEnc a, mod := wMod w none }
  | .popc w d a => some { op := 0x25#8, fn := 0x02#8, d := gEnc d, a := gEnc a, mod := wMod w none }
  | .brev w d a => some { op := 0x25#8, fn := 0x03#8, d := gEnc d, a := gEnc a, mod := wMod w none }
  | .bswap w d a => some { op := 0x25#8, fn := 0x04#8, d := gEnc d, a := gEnc a, mod := wMod w none }
  | .ext w d a p l => some { op := 0x26#8, d := gEnc d, a := gEnc a, mod := wMod w none, imm := posLen p l }
  | .extz w d a p l => some { op := 0x26#8, fn := 0x01#8, d := gEnc d, a := gEnc a, mod := wMod w none, imm := posLen p l }
  | .ins w d a p l => some { op := 0x26#8, fn := 0x02#8, d := gEnc d, a := gEnc a, mod := wMod w none, imm := posLen p l }
  | .cmp w k d a b => some { op := 0x27#8, d := gEnc d, a := gEnc a, b := gEnc b, mod := wMod w (some k) }
  | .sel w d k a b => some { op := 0x28#8, d := gEnc d, a := gEnc k, b := gEnc a, c := gEnc b, mod := wMod w none }
  | .li d i => some { op := 0x29#8, d := gEnc d, imm := i }
  | .lih d i => some { op := 0x2a#8, d := gEnc d, imm := i.setWidth 40 }
  | .lea d m => some { op := 0x2b#8, d := gEnc d, a := m.baseEnc, b := m.idxEnc, mod := aMod { m.amod with size := .d }, imm := m.immEnc }
  | .assume d n => some { op := 0x30#8, d := gEnc d, imm := immOf n.val }
  | .lunion d a b => some { op := 0x31#8, d := gEnc d, a := gEnc a, b := gEnc b }
  | .nogood d a => some { op := 0x32#8, d := gEnc d, a := gEnc a }
  | .lget d a => some { op := 0x33#8, d := gEnc d, a := gEnc a }
  | .lset d a b => some { op := 0x33#8, fn := 0x01#8, d := gEnc d, a := gEnc a, b := gEnc b }
  | .lclr d => some { op := 0x33#8, fn := 0x02#8, d := gEnc d }
  | .ltest d a => some { op := 0x33#8, fn := 0x03#8, d := gEnc d, a := gEnc a }
  | .lcount d a => some { op := 0x33#8, fn := 0x04#8, d := gEnc d, a := gEnc a }
  | .lenvget d a b => some { op := 0x34#8, d := gEnc d, a := gEnc a, b := gEnc b }
  | .lwin a => some { op := 0x35#8, a := gEnc a }
  | .lflush => some { op := 0x36#8 }
  | .ld z q x d m => some { op := 0x38#8, d := gEnc d, a := m.baseEnc, b := m.idxEnc, mod := aMod { m.amod with size := z, ord := acqOrd q, xp := x }, imm := m.immEnc }
  | .ldz z q x d m => some { op := 0x39#8, d := gEnc d, a := m.baseEnc, b := m.idxEnc, mod := aMod { m.amod with size := z, ord := acqOrd q, xp := x }, imm := m.immEnc }
  | .st z o a m => some { op := 0x3a#8, d := gEnc a, a := m.baseEnc, b := m.idxEnc, mod := aMod { m.amod with size := z, ord := stOrd o, post := stPost o }, imm := m.immEnc }
  | .lds z d m => some { op := 0x3b#8, d := gEnc d, a := m.baseEnc, b := m.idxEnc, mod := aMod { m.amod with size := z.size }, imm := m.immEnc }
  | .sts z d m => some { op := 0x3c#8, d := gEnc d, a := m.baseEnc, b := m.idxEnc, mod := aMod { m.amod with size := z.size }, imm := m.immEnc }
  | .ldf z d m => some { op := 0x3d#8, d := gEnc d, a := m.baseEnc, b := m.idxEnc, mod := aMod { m.amod with size := z.size }, imm := m.immEnc }
  | .stf z d m => some { op := 0x3e#8, d := gEnc d, a := m.baseEnc, b := m.idxEnc, mod := aMod { m.amod with size := z.size }, imm := m.immEnc }
  | .feclr m => some { op := 0x3f#8, a := m.baseEnc, b := m.idxEnc, mod := aMod { m.amod with size := .d }, imm := m.immEnc }
  | .fld z q d m => some { op := 0x40#8, d := fEnc d, a := m.baseEnc, b := m.idxEnc, mod := aMod { m.amod with size := z.size, ord := acqOrd q }, imm := m.immEnc }
  | .fst z q a m => some { op := 0x41#8, d := fEnc a, a := m.baseEnc, b := m.idxEnc, mod := aMod { m.amod with size := z.size, ord := relOrd q }, imm := m.immEnc }
  | .fence k => some { op := 0x42#8, mod := aMod { size := .d, ord := .fence k } }
  | .fenceX p q => some { op := 0x42#8, fn := 0x01#8, mod := aMod { size := .d }, imm := pathImm p q }
  | .aadd z o d m off a => some { op := 0x50#8, d := gEnc d, a := gEnc m, b := gEnc a, mod := aMod { size := z.size, ord := atOrd o }, imm := off }
  | .aaddPost z m off a => some { op := 0x50#8, a := gEnc m, b := gEnc a, mod := aMod { size := z.size, post := true }, imm := off }
  | .aand z o d m off a => some { op := 0x51#8, d := gEnc d, a := gEnc m, b := gEnc a, mod := aMod { size := z.size, ord := atOrd o }, imm := off }
  | .aandPost z m off a => some { op := 0x51#8, a := gEnc m, b := gEnc a, mod := aMod { size := z.size, post := true }, imm := off }
  | .aor z o d m off a => some { op := 0x52#8, d := gEnc d, a := gEnc m, b := gEnc a, mod := aMod { size := z.size, ord := atOrd o }, imm := off }
  | .aorPost z m off a => some { op := 0x52#8, a := gEnc m, b := gEnc a, mod := aMod { size := z.size, post := true }, imm := off }
  | .axor z o d m off a => some { op := 0x53#8, d := gEnc d, a := gEnc m, b := gEnc a, mod := aMod { size := z.size, ord := atOrd o }, imm := off }
  | .axorPost z m off a => some { op := 0x53#8, a := gEnc m, b := gEnc a, mod := aMod { size := z.size, post := true }, imm := off }
  | .amin z o d m off a => some { op := 0x54#8, d := gEnc d, a := gEnc m, b := gEnc a, mod := aMod { size := z.size, ord := atOrd o }, imm := off }
  | .aminPost z m off a => some { op := 0x54#8, a := gEnc m, b := gEnc a, mod := aMod { size := z.size, post := true }, imm := off }
  | .amax z o d m off a => some { op := 0x55#8, d := gEnc d, a := gEnc m, b := gEnc a, mod := aMod { size := z.size, ord := atOrd o }, imm := off }
  | .amaxPost z m off a => some { op := 0x55#8, a := gEnc m, b := gEnc a, mod := aMod { size := z.size, post := true }, imm := off }
  | .aminu z o d m off a => some { op := 0x56#8, d := gEnc d, a := gEnc m, b := gEnc a, mod := aMod { size := z.size, ord := atOrd o }, imm := off }
  | .aminuPost z m off a => some { op := 0x56#8, a := gEnc m, b := gEnc a, mod := aMod { size := z.size, post := true }, imm := off }
  | .amaxu z o d m off a => some { op := 0x57#8, d := gEnc d, a := gEnc m, b := gEnc a, mod := aMod { size := z.size, ord := atOrd o }, imm := off }
  | .amaxuPost z m off a => some { op := 0x57#8, a := gEnc m, b := gEnc a, mod := aMod { size := z.size, post := true }, imm := off }
  | .aswap z o d m off a => some { op := 0x58#8, d := gEnc d, a := gEnc m, b := gEnc a, mod := aMod { size := z.size, ord := atOrd o }, imm := off }
  | .aswapPost z m off a => some { op := 0x58#8, a := gEnc m, b := gEnc a, mod := aMod { size := z.size, post := true }, imm := off }
  | .acas z o d m off a k => some { op := 0x59#8, d := gEnc d, a := gEnc m, b := gEnc a, c := gEnc k, mod := aMod { size := z.size, ord := atOrd o }, imm := off }
  | .afadd z o d m off a => some { op := 0x5a#8, d := fEnc d, a := gEnc m, b := fEnc a, mod := aMod { size := z.size, ord := atOrd o }, imm := off }
  | .afaddPost z m off a => some { op := 0x5a#8, a := gEnc m, b := fEnc a, mod := aMod { size := z.size, post := true }, imm := off }
  | .migrate m off => some { op := 0x5b#8, a := gEnc m, mod := aMod { size := .d }, imm := off }
  | .mret => some { op := 0x5b#8, fn := 0x01#8 }
  | .gldInt o z d m => some { op := 0x5c#8, fn := o.code, d := gEnc d, a := m.baseEnc, b := m.idxEnc, mod := aMod { m.amod with size := z.size }, imm := m.immEnc }
  | .gldFloat o z d m => some { op := 0x5c#8, fn := o.code, d := fEnc d, a := m.baseEnc, b := m.idxEnc, mod := aMod { m.amod with size := z.size }, imm := m.immEnc }
  | .barinit m off a => some { op := 0x5d#8, a := gEnc m, b := gEnc a, imm := off }
  | .barinitAbort m off => some { op := 0x5d#8, fn := 0x01#8, a := gEnc m, imm := off }
  | .bararr m off => some { op := 0x5e#8, a := gEnc m, imm := off }
  | .barwait m off p => some { op := 0x5e#8, fn := 0x01#8, a := gEnc m, b := gEnc p, imm := off }
  | .bartry d m off p => some { op := 0x5e#8, fn := 0x02#8, d := gEnc d, a := gEnc m, b := gEnc p, imm := off }
  | .fadd t r d a b => some { op := 0x60#8, d := fEnc d, a := fEnc a, b := fEnc b, mod := cMod { ta := t.ty.code, rm := r.code } }
  | .fsub t r d a b => some { op := 0x61#8, d := fEnc d, a := fEnc a, b := fEnc b, mod := cMod { ta := t.ty.code, rm := r.code } }
  | .fmul t r d a b => some { op := 0x62#8, d := fEnc d, a := fEnc a, b := fEnc b, mod := cMod { ta := t.ty.code, rm := r.code } }
  | .fma t r d a b k => some { op := 0x63#8, d := fEnc d, a := fEnc a, b := fEnc b, c := fEnc k, mod := cMod { ta := t.ty.code, rm := r.code } }
  | .fmin t d a b => some { op := 0x64#8, d := fEnc d, a := fEnc a, b := fEnc b, mod := cMod { ta := t.ty.code } }
  | .fmax t d a b => some { op := 0x65#8, d := fEnc d, a := fEnc a, b := fEnc b, mod := cMod { ta := t.ty.code } }
  | .fdiv t d a b => some { op := 0x70#8, d := fEnc d, a := fEnc a, b := fEnc b, mod := cMod { ta := t.ty.code } }
  | .fabs t d a => some { op := 0x66#8, d := fEnc d, a := fEnc a, mod := cMod { ta := t.ty.code } }
  | .fneg t d a => some { op := 0x66#8, fn := 0x01#8, d := fEnc d, a := fEnc a, mod := cMod { ta := t.ty.code } }
  | .fcmp k t d a b => some { op := 0x67#8, d := gEnc d, a := fEnc a, b := fEnc b, mod := cMod { ta := t.ty.code, opt := k.code } }
  | .fcvtFf u v r q d a => some { op := 0x68#8, d := fEnc d, a := fEnc a, mod := cMod { ta := u.code, tb := v.code, rm := r.code, sat := q } }
  | .fcvtGf u v r q d a => some { op := 0x68#8, fn := 0x01#8, d := gEnc d, a := fEnc a, mod := cMod { ta := u.code, tb := v.ty.code, rm := r.code, sat := q } }
  | .fcvtFg u v r q d a => some { op := 0x68#8, fn := 0x02#8, d := fEnc d, a := gEnc a, mod := cMod { ta := u.ty.code, tb := v.code, rm := r.code, sat := q } }
  | .fmovFg d a => some { op := 0x69#8, d := fEnc d, a := gEnc a }
  | .fmovGf d a => some { op := 0x69#8, fn := 0x01#8, d := gEnc d, a := fEnc a }
  | .fmovFf d a => some { op := 0x69#8, fn := 0x02#8, d := fEnc d, a := fEnc a }
  | .frint t r d a => some { op := 0x6a#8, d := fEnc d, a := fEnc a, mod := cMod { ta := t.ty.code, rm := r.code } }
  | .fscale t r d a b => some { op := 0x6b#8, d := fEnc d, a := fEnc a, b := gEnc b, mod := cMod { ta := t.ty.code, rm := r.code } }
  | .fexp2f t d a => some { op := 0x71#8, d := fEnc d, a := fEnc a, mod := cMod { ta := t.ty.code } }
  | .flog2 t d a => some { op := 0x72#8, d := fEnc d, a := fEnc a, mod := cMod { ta := t.ty.code } }
  | .frcp t d a => some { op := 0x73#8, d := fEnc d, a := fEnc a, mod := cMod { ta := t.ty.code } }
  | .frsq t d a => some { op := 0x74#8, d := fEnc d, a := fEnc a, mod := cMod { ta := t.ty.code } }
  | .fsqrt t d a => some { op := 0x75#8, d := fEnc d, a := fEnc a, mod := cMod { ta := t.ty.code } }
  | .fsin t d a => some { op := 0x76#8, d := fEnc d, a := fEnc a, mod := cMod { ta := t.ty.code } }
  | .fcos t d a => some { op := 0x77#8, d := fEnc d, a := fEnc a, mod := cMod { ta := t.ty.code } }
  | .vadd t r q m d a b => some { op := 0x80#8, d := vEnc d, a := vEnc a, b := vEnc b, c := maskEnc m, mod := cMod { ta := t.code, rm := r.code, sat := q, opt := maskOpt m } }
  | .vsub t r q m d a b => some { op := 0x81#8, d := vEnc d, a := vEnc a, b := vEnc b, c := maskEnc m, mod := cMod { ta := t.code, rm := r.code, sat := q, opt := maskOpt m } }
  | .vmul t r q m d a b => some { op := 0x82#8, d := vEnc d, a := vEnc a, b := vEnc b, c := maskEnc m, mod := cMod { ta := t.code, rm := r.code, sat := q, opt := maskOpt m } }
  | .vmin t r q m d a b => some { op := 0x83#8, d := vEnc d, a := vEnc a, b := vEnc b, c := maskEnc m, mod := cMod { ta := t.code, rm := r.code, sat := q, opt := maskOpt m } }
  | .vmax t r q m d a b => some { op := 0x84#8, d := vEnc d, a := vEnc a, b := vEnc b, c := maskEnc m, mod := cMod { ta := t.code, rm := r.code, sat := q, opt := maskOpt m } }
  | .vfma t r d a b k => some { op := 0x85#8, d := vEnc d, a := vEnc a, b := vEnc b, c := vEnc k, mod := cMod { ta := t.code, rm := r.code } }
  | .vabs t m d a => some { op := 0x86#8, d := vEnc d, a := vEnc a, c := maskEnc m, mod := cMod { ta := t.code, opt := maskOpt m } }
  | .vneg t m d a => some { op := 0x86#8, fn := 0x01#8, d := vEnc d, a := vEnc a, c := maskEnc m, mod := cMod { ta := t.code, opt := maskOpt m } }
  | .vand t d a b => some { op := 0x87#8, d := vEnc d, a := vEnc a, b := vEnc b, mod := cMod { ta := t.code } }
  | .vor t d a b => some { op := 0x87#8, fn := 0x01#8, d := vEnc d, a := vEnc a, b := vEnc b, mod := cMod { ta := t.code } }
  | .vxor t d a b => some { op := 0x87#8, fn := 0x02#8, d := vEnc d, a := vEnc a, b := vEnc b, mod := cMod { ta := t.code } }
  | .vshl t d a b => some { op := 0x88#8, d := vEnc d, a := vEnc a, b := vEnc b, mod := cMod { ta := t.code } }
  | .vshr t d a b => some { op := 0x88#8, fn := 0x01#8, d := vEnc d, a := vEnc a, b := vEnc b, mod := cMod { ta := t.code } }
  | .vcmp k t d a b => some { op := 0x89#8, d := m8Enc d, a := vEnc a, b := vEnc b, mod := cMod { ta := t.code, opt := k.code } }
  | .vsel d m b k => some { op := 0x8a#8, d := vEnc d, a := m8Enc m, b := vEnc b, c := vEnc k }
  | .vcvt u v r q d a => some { op := 0x8b#8, d := vEnc d, a := vEnc a, mod := cMod { ta := u.code, tb := v.code, rm := r.code, sat := q } }
  | .vscale t r d a b => some { op := 0x8c#8, d := vEnc d, a := vEnc a, b := vEnc b, mod := cMod { ta := t.ty.code, rm := r.code } }
  | .vred o t r d a => some { op := 0x8d#8, fn := redFn o t, d := gEnc d, a := vEnc a, mod := cMod { ta := t.code, rm := r.code } }
  | .vbcastG t d a => some { op := 0x8e#8, d := vEnc d, a := gEnc a, mod := cMod { ta := t.code } }
  | .vbcastF t d a => some { op := 0x8e#8, fn := 0x01#8, d := vEnc d, a := fEnc a, mod := cMod { ta := t.code } }
  | .vmask d a b => some { op := 0x8f#8, d := m8Enc d, a := gEnc a, b := gEnc b }
  | .vld q d m => some { op := 0x90#8, d := vEnc d, a := m.baseEnc, b := m.idxEnc, mod := aMod { m.amod with size := .d, ord := acqOrd q }, imm := m.immEnc }
  | .vst q a k m => some { op := 0x91#8, d := vEnc a, a := m.baseEnc, b := m.idxEnc, c := m8Enc k, mod := aMod { m.amod with size := .d, ord := relOrd q }, imm := m.immEnc }
  | .vloop n k => some { op := 0x92#8, a := gEnc k, imm := n }
  | .scfg d m off => some { op := 0x93#8, d := fEnc d, a := gEnc m, imm := off }
  | .mmul t n z o k a b s => some { op := 0xa0#8, d := gEnc o, a := gEnc k, b := gEnc a, c := gEnc b, mod := cMod { ta := t.code, opt := negNacc n z }, imm := immOf s.val }
  | .msca t o k a b => some { op := 0xa1#8, d := gEnc o, a := gEnc k, b := gEnc a, c := gEnc b, mod := cMod { ta := t.code } }
  | .msliceReg t n z o k a b s => some { op := 0xa2#8, d := gEnc o, a := gEnc k, b := gEnc a, c := gEnc b, mod := cMod { ta := t.code, opt := negNacc n z }, imm := immOf s.val }
  | .msliceImm t n z o k a b s => some { op := 0xa2#8, fn := 0x01#8, d := gEnc o, a := gEnc k, b := gEnc a, c := gEnc b, mod := cMod { ta := t.code, opt := negNacc n z }, imm := s }
  | .mzero d a => some { op := 0xa3#8, d := gEnc d, a := gEnc a }
  | .mmove m off a => some { op := 0xa4#8, a := gEnc m, b := gEnc a, imm := off }
  | .mctlSetP a b => some { op := 0xa5#8, a := gEnc a, b := gEnc b }
  | .mctlSetSplit a b => some { op := 0xa5#8, a := gEnc a, b := gEnc b }
  | .mctlSetRhalf a b => some { op := 0xa5#8, a := gEnc a, b := gEnc b }
  | .mctlSetTol a b => some { op := 0xa5#8, a := gEnc a, b := gEnc b }
  | .mctlSetBnorm a b => some { op := 0xa5#8, a := gEnc a, b := gEnc b }
  | .mctlSetCap a b => some { op := 0xa5#8, a := gEnc a, b := gEnc b }
  | .mctlSetIter a b => some { op := 0xa5#8, a := gEnc a, b := gEnc b }
  | .mwait d => some { op := 0xa6#8, d := gEnc d }
  | .mstat d => some { op := 0xa7#8, d := gEnc d }
  | .rtest d a b => some { op := 0xa8#8, d := gEnc d, a := gEnc a, b := gEnc b }
  | .kset k a => some { op := 0xa9#8, d := k4Enc k, a := gEnc a }
  | .cpy t x y n r => some { op := 0xb0#8, d := gEnc t, a := gEnc x, b := gEnc y, c := gEnc n, mod := cMod { opt := barOpt r }, imm := barImm r }
  | .cpyg t x y n r => some { op := 0xb1#8, d := gEnc t, a := gEnc x, b := gEnc y, c := gEnc n, mod := cMod { opt := barOpt r }, imm := barImm r }
  | .cpys t x y n r => some { op := 0xb2#8, d := gEnc t, a := gEnc x, b := gEnc y, c := gEnc n, mod := cMod { opt := barOpt r }, imm := barImm r }
  | .xformReshape t l r => some { op := 0xb3#8, d := gEnc t, a := gEnc l, b := gEnc r, imm := 0#40 }
  | .xformCompact t l r => some { op := 0xb3#8, d := gEnc t, a := gEnc l, b := gEnc r, imm := 1#40 }
  | .xformExpand t l r => some { op := 0xb3#8, d := gEnc t, a := gEnc l, b := gEnc r, imm := 2#40 }
  | .xformMxPack t l r => some { op := 0xb3#8, d := gEnc t, a := gEnc l, b := gEnc r, imm := 3#40 }
  | .xformMxPackSat t l r => some { op := 0xb3#8, d := gEnc t, a := gEnc l, b := gEnc r, imm := 4#40 }
  | .xformMxUnpack t l r => some { op := 0xb3#8, d := gEnc t, a := gEnc l, b := gEnc r, imm := 5#40 }
  | .xformDeltaEncode t l r => some { op := 0xb3#8, d := gEnc t, a := gEnc l, b := gEnc r, imm := 6#40 }
  | .xformDeltaDecode t l r => some { op := 0xb3#8, d := gEnc t, a := gEnc l, b := gEnc r, imm := 7#40 }
  | .xformZeroRun t l r => some { op := 0xb3#8, d := gEnc t, a := gEnc l, b := gEnc r, imm := 8#40 }
  | .xformDeltaZeroRun t l r => some { op := 0xb3#8, d := gEnc t, a := gEnc l, b := gEnc r, imm := 9#40 }
  | .nalloc d a => some { op := 0xb8#8, d := gEnc d, a := gEnc a }
  | .nfree a => some { op := 0xb9#8, a := gEnc a }
  | .link a b => some { op := 0xba#8, a := gEnc a, b := gEnc b }
  | .ppush a b => some { op := 0xbb#8, a := gEnc a, b := gEnc b }
  | .ppop d a => some { op := 0xbc#8, d := gEnc d, a := gEnc a }
  | .rdisp a b => some { op := 0xbd#8, a := gEnc a, b := gEnc b }
  | .rtload d a => some { op := 0xbe#8, d := gEnc d, a := gEnc a }
  | .amsgMark x k a b d => some { op := 0xc0#8, a := gEnc k, b := gEnc a, c := gEnc b, mod := aMod { xp := x }, imm := d }
  | .amsgReg x p k a b => some { op := 0xc0#8, fn := 0x01#8, d := gEnc p, a := gEnc k, b := gEnc a, c := gEnc b, mod := aMod { xp := x } }
  | .callatMark x t k a d => some { op := 0xc1#8, d := gEnc t, a := gEnc k, c := gEnc a, mod := aMod { xp := x }, imm := d }
  | .callatReg x t k p a => some { op := 0xc1#8, fn := 0x01#8, d := gEnc t, a := gEnc k, b := gEnc p, c := gEnc a, mod := aMod { xp := x } }
  | .reply x a => some { op := 0xc2#8, a := gEnc a, mod := aMod { xp := x } }
  | .trap n => some { op := 0xe0#8, imm := n }
  | .eret => some { op := 0xe1#8 }
  | .mfs d n => some { op := 0xe2#8, d := gEnc d, imm := n.setWidth 40 }
  | .mts n a => some { op := 0xe3#8, a := gEnc a, imm := n.setWidth 40 }
  | .ackReplay a => some { op := 0xe4#8, a := gEnc a }
  | .ackResume a => some { op := 0xe4#8, a := gEnc a }
  | .ackRefuse a => some { op := 0xe4#8, a := gEnc a }
  | .csave a => some { op := 0xe5#8, a := gEnc a }
  | .crest a => some { op := 0xe6#8, a := gEnc a }
  | .banksel a => some { op := 0xe7#8, a := gEnc a }
  | .tlbinv k a => some { op := 0xe8#8, a := gEnc a, mod := aMod { ord := .fence k } }
  | .rtswap d a => some { op := 0xe9#8, d := gEnc d, a := gEnc a }
  | .calsetCalendar a b => some { op := 0xea#8, a := gEnc a, b := gEnc b }
  | .calsetArbitration a b => some { op := 0xea#8, a := gEnc a, b := gEnc b }
  | .psplit d a => some { op := 0xeb#8, d := gEnc d, a := gEnc a }
  | .pmerge d a => some { op := 0xeb#8, fn := 0x01#8, d := gEnc d, a := gEnc a }
  | .sstop a => some { op := 0xec#8, a := gEnc a }
  | .dbgbrk => some { op := 0xed#8 }
  | .idle => some { op := 0xee#8 }
  | .jrnl d a => some { op := 0xef#8, d := gEnc d, a := gEnc a }
  | _ => none
/-- Decode the 96 bits of a slot. -/
def decode (w : BitVec 96) : Except DecodeError Instr := decodeFields (Fields.unpack w)

/-- The words of an instruction; none for an event. -/
def encode (i : Instr) : Option (BitVec 96) := (encodeFields i).map Fields.pack

/-- The instruction the decoder answers for a row that shares its encoding with others (MCTL, ACK, CALSET). -/
def Instr.canon : Instr → Instr
  | .mctlSetSplit a b | .mctlSetRhalf a b | .mctlSetTol a b | .mctlSetBnorm a b | .mctlSetCap a b
  | .mctlSetIter a b => .mctlSetP a b
  | .ackResume a | .ackRefuse a => .ackReplay a
  | .calsetArbitration a b => .calsetCalendar a b
  | i => i

/-- The 96 bits of twelve bytes, the lowest address first (R83). -/
def wordOfBytes : List Byte → Nat
  | [] => 0
  | b :: bs => b.toNat + 256 * wordOfBytes bs

/-- Decode the twelve bytes of a slot, total on any bytes (R83). -/
def decodeBytes (bs : List Byte) : Except DecodeError Instr :=
  if bs.length < 12 then .error .tooShort else decode (BitVec.ofNat 96 (wordOfBytes (bs.take 12)))

/-- The twelve bytes of a word, the lowest address first (R83). -/
def slotBytes (w : BitVec 96) : List Byte := (List.range 12).map fun i => w.extractLsb' (8 * i) 8

/-- The instruction the decoder reads from an instruction whose bits are w: a slot holds the 96 bits little-endian
in twelve bytes (R83). -/
def decodeTableWord (nbits w : Nat) : Option Instr :=
  (decodeBytes (slotBytes (BitVec.ofNat 96 (w % 2 ^ nbits)))).toOption

end Sys2Proof
end

