-- ==== Sys2Proof/Config.lean ====
section
/-!
DEFINITION. What the spec leaves open and the model leaves free: constants without a body, so that nothing in Lean can
evaluate one or prove a value of it. Each is named in a log entry. They are applied to the operands they depend on or,
where a fresh value is wanted each time, to State.tick.
-/
namespace Sys2Proof.Config

/-- The bits of an approximate special function inside its bound are a fixed function of the operand that the spec does
not give (R213): this number chooses among the results that the bound allows, from the function's major code, whether
the format is FP64, and the operand (free value, log 12). -/
opaque sfuPick : Nat → Bool → Word → Nat

/-- A word of a tile that a fault left undefined (R254), by tick, row and column (free value, log 13). -/
opaque tileWord : Nat → Nat → Nat → Word

/-- The count in the status of a matrix instruction that a fault stopped, for which R252 and R254 state no number, by
tick (free value, log 13). -/
opaque faultCount : Nat → BitVec 32

/-- A byte that a faulted engine operation delivered, whose content is not guaranteed (R236, R285), by tick and address
(free value, log 15). -/
opaque faultByte : Nat → Nat → Byte

/-- Whether an access that the spec leaves unordered sees the newer of two values (R212, R259, R284), by tick
(free value, log 16). -/
opaque seesNew : Nat → Bool

/-- A double word of the un-architected part of a cellar record (R366), by tick and offset (free value, log 21). -/
opaque cellarWord : Nat → Nat → Word

/-- A double word of an SPDM report, whose measurements and signatures the spec does not give (R397), by tick and
index (free value, log 26). -/
opaque spdmWord : Nat → Nat → Word

/-- A word that an ordinary store to a barrier object leaves undefined until the next BARINIT (R232), by tick
(free value, log 14). -/
opaque barrierWord : Nat → BitVec 128

/-- The result of a VRED over no lane at all, from a pop of a stream that has no element left inside a VLOOP (R206, R209),
by tick (free value, log 37). -/
opaque emptyReduction : Nat → Word

/-- Whether a zero word of a tile is written as part of a zero run or as a literal: the spec gives the decoding of a
zero-run tile and not which of its encodings is written (R290, R292), by tick and word (free value, log 38). -/
opaque zeroRun : Nat → Nat → Bool

/-- What EADDR takes from a trap whose defining rule does not state it (R341), by tick (free value, log 39). -/
opaque openAddr : Nat → Word

/-- How many of the sweeps that a core has still to install its label cache shows already when it reads a handle (R149), by
core, handle and tick (free value, log 9). -/
opaque labelSweeps : Nat → Nat → Nat → Nat

/-- The peer link, of the twelve, by which a message leaves one package for another, which the spec does not give (R396),
by the two packages (free value, log 125). -/
opaque peerLink : Nat → Nat → Fin 12

end Sys2Proof.Config
end

