-- ==== Sys2Proof/Machine/Bits.lean ====
section
/-!
DEFINITION. Bit-field, sign-extension, byte-order and list helpers, and the widths of the formats (R1, R2, R27, R30).
-/
namespace Sys2Proof.Machine

/-- x<lo+n−1:lo> as a natural (R1). -/
def bitsAt (x : Nat) (lo n : Nat) : Nat := (x >>> lo) % 2 ^ n

/-- SignExtend of the low `n` bits of `x` to 64 bits (R6). -/
def sextNat (n x : Nat) : Word :=
  if (x % 2 ^ n).testBit (n - 1) then BitVec.ofNat 64 (x % 2 ^ n + (2 ^ 64 - 2 ^ n)) else BitVec.ofNat 64 (x % 2 ^ n)

/-- The low `n` bits of `x` read as a signed number. -/
def toSigned (n x : Nat) : Int :=
  if (x % 2 ^ n).testBit (n - 1) then (x % 2 ^ n : Int) - 2 ^ n else (x % 2 ^ n : Int)

/-- An integer reduced modulo 2ⁿ (R29). -/
def wrapInt (n : Nat) (x : Int) : Nat := (x % (2 ^ n : Int)).toNat

/-- An integer saturated to a signed or natural range of n bits, as its n bits (R29). -/
def satInt (n : Nat) (signed : Bool) (x : Int) : Nat :=
  if signed then wrapInt n (max (-(2 ^ (n - 1) : Int)) (min (2 ^ (n - 1) - 1 : Int) x))
  else wrapInt n (max 0 (min (2 ^ n - 1 : Int) x))

/-- The little-endian bytes of a natural, `n` of them (R2). -/
def leBytes : Nat → Nat → List Byte
  | 0, _ => []
  | n + 1, x => BitVec.ofNat 8 x :: leBytes n (x / 256)

/-- The natural of little-endian bytes (R2). -/
def leNat : List Byte → Nat
  | [] => 0
  | b :: bs => b.toNat + 256 * leNat bs

/-- The number of bits a natural needs. -/
def bitLen (x : Nat) : Nat := if x = 0 then 0 else Nat.log2 x + 1

/-- The number of one bits among the low `n` bits. -/
def popCount : Nat → Nat → Nat
  | 0, _ => 0
  | n + 1, x => x % 2 + popCount n (x / 2)

/-- The exclusive or of the low `n` bits: true when odd. -/
def parity (n x : Nat) : Bool := popCount n x % 2 == 1

/-- The lowest number of a list. -/
def lowest : List Nat → Option Nat
  | [] => none
  | x :: xs => match lowest xs with
    | none => some x
    | some y => some (min x y)

/-- Round up to a multiple of `k`. -/
def roundUp (x k : Nat) : Nat := (x + k - 1) / k * k

/-- The scope's rank: a wider scope has a larger one (R187). -/
def scopeRank : Scope → Nat
  | .co => 1 | .cl => 2 | .di => 3 | .pk => 4 | .sy => 5

/-- The wider of two scopes (R187). -/
def widerScope (a b : Scope) : Scope := if scopeRank a < scopeRank b then b else a

/-- Bytes of an access size (R2). -/
def sizeBytes : Size → Nat
  | .b => 1 | .h => 2 | .w => 4 | .d => 8

/-- Bytes of a .w or .d access. -/
def wdBytes : SizeWD → Nat
  | .w => 4 | .d => 8

/-- The bits of an element of a type (R27, R30). -/
def tyBits : Ty → Nat
  | .i8 | .n8 | .e4m3 | .e5m2 => 8
  | .i16 | .n16 | .f16 | .bf16 => 16
  | .i32 | .n32 | .f32 => 32
  | .i64 | .n64 | .f64 => 64
  | .e3m2 | .e2m3 => 6
  | .e2m1 | .i4 => 4
  | .t2 => 2

/-- The signed integer types (R27). -/
def tySigned : Ty → Bool
  | .i8 | .i16 | .i32 | .i64 | .i4 | .t2 => true
  | _ => false

/-- A lookup in a list of keyed values. -/
def assoc {α : Type} (l : List (Nat × α)) (k : Nat) : Option α :=
  match l with
  | [] => none
  | (j, x) :: t => if j = k then some x else assoc t k

/-- Set the value of a key, keeping the keys rising. -/
def assocSet {α : Type} (l : List (Nat × α)) (k : Nat) (v : α) : List (Nat × α) :=
  match l with
  | [] => [(k, v)]
  | (j, x) :: t => if j = k then (k, v) :: t else if k < j then (k, v) :: (j, x) :: t else (j, x) :: assocSet t k v

/-- Remove a key. -/
def assocDel {α : Type} (l : List (Nat × α)) (k : Nat) : List (Nat × α) := l.filter fun p => p.1 != k

/-- Set the element at an index of a list, leaving a list that is too short as it is. -/
def listSet {α : Type} : List α → Nat → α → List α
  | [], _, _ => []
  | _ :: t, 0, v => v :: t
  | x :: t, n + 1, v => x :: listSet t n v

/-- The first element that meets a test, with the others in order. -/
def takeFirst {α : Type} (p : α → Bool) : List α → Option (α × List α)
  | [] => none
  | x :: t => if p x then some (x, t) else match takeFirst p t with
    | some (y, r) => some (y, x :: r)
    | none => none

end Sys2Proof.Machine
end

