-- ==== Sys2Proof/Machine/Float.lean ====
section
/-!
DEFINITION. Number formats and rounding (02_numbers.md, R27 to R51) and the special functions of R213. Values are
decoded into exact dyadic numbers, computed without rounding, and rounded once.
-/
namespace Sys2Proof.Machine

/-- FFLAGS (R215): IV 4, DZ 3, OF 2, UF 1, IX 0. -/
abbrev Flags := BitVec 5

/-- Invalid. -/
def fIV : Flags := 16
/-- Division by zero. -/
def fDZ : Flags := 8
/-- Overflow. -/
def fOF : Flags := 4
/-- Underflow. -/
def fUF : Flags := 2
/-- Inexact. -/
def fIX : Flags := 1

/-- The layout of a floating format (R30): exponent and significand widths, bias, and whether the top exponent code
holds infinity and NaN, only the NaN of E4M3, or neither. -/
structure Fmt where
  ew : Nat
  mw : Nat
  bias : Nat
  inf : Bool
  nan : Bool
  deriving DecidableEq, Repr

/-- The formats of R30 (an integer type has none; FP64 stands in). -/
def fmtOf : Ty → Fmt
  | .f32 => ⟨8, 23, 127, true, true⟩
  | .f16 => ⟨5, 10, 15, true, true⟩
  | .bf16 => ⟨8, 7, 127, true, true⟩
  | .e5m2 => ⟨5, 2, 15, true, true⟩
  | .e4m3 => ⟨4, 3, 7, false, true⟩
  | .e3m2 => ⟨3, 2, 3, false, false⟩
  | .e2m3 => ⟨2, 3, 1, false, false⟩
  | .e2m1 => ⟨2, 1, 1, false, false⟩
  | _ => ⟨11, 52, 1023, true, true⟩

/-- An exact floating value: NaN (signalling or not), an infinity, or ±m·2^e. -/
inductive FVal where
  | nan (sig : Bool)
  | inf (neg : Bool)
  | fin (neg : Bool) (m : Nat) (e : Int)
  deriving DecidableEq, Repr

/-- The value of a code (R30, R35). -/
def decF (t : Ty) (x : Nat) : FVal :=
  let f := fmtOf t
  let neg := x.testBit (f.ew + f.mw)
  let ex := bitsAt x f.mw f.ew
  let mn := x % 2 ^ f.mw
  if ex = 2 ^ f.ew - 1 ∧ f.inf then
    if mn = 0 then .inf neg else .nan (!(mn.testBit (f.mw - 1)))
  else if ex = 2 ^ f.ew - 1 ∧ f.nan ∧ mn = 2 ^ f.mw - 1 then .nan false
  else if ex = 0 then .fin neg mn (1 - (f.bias : Int) - f.mw)
  else .fin neg (2 ^ f.mw + mn) ((ex : Int) - f.bias - f.mw)

/-- The sign bit of a format. -/
def signBit (f : Fmt) (neg : Bool) : Nat := if neg then 2 ^ (f.ew + f.mw) else 0

/-- The canonical NaN (R35); +0 in a format without NaN (R36). -/
def nanCode (t : Ty) : Nat :=
  let f := fmtOf t
  if f.inf then (2 ^ f.ew - 1) * 2 ^ f.mw + 2 ^ (f.mw - 1)
  else if f.nan then 2 ^ (f.ew + f.mw) - 1
  else 0

/-- The code of the largest finite magnitude (R30). -/
def maxCode (f : Fmt) : Nat :=
  if f.inf then (2 ^ f.ew - 1) * 2 ^ f.mw - 1
  else if f.nan then 2 ^ (f.ew + f.mw) - 2
  else 2 ^ (f.ew + f.mw) - 1

/-- The code of an infinity, in a format that has one. -/
def infCode (f : Fmt) (neg : Bool) : Nat := signBit f neg + (2 ^ f.ew - 1) * 2 ^ f.mw

/-- The exponent of the smallest subnormal. -/
def qMin (f : Fmt) : Int := 1 - (f.bias : Int) - f.mw

/-- The code of the magnitude n·2^q, where n has at most mw + 1 bits and q is at least qMin (R30). -/
def magCode (f : Fmt) (n : Nat) (q : Int) : Nat :=
  if n < 2 ^ f.mw then n else (q - qMin f).toNat * 2 ^ f.mw + n

/-- m·2^e (and a little more when `st`) cut at 2^q: the multiple, and whether the rest is nonzero, and how it compares
with a half. -/
def cutAt (m : Nat) (e : Int) (st : Bool) (q : Int) : Nat × Bool × Ordering :=
  if q ≤ e then (m * 2 ^ (e - q).toNat, st, .lt)
  else
    let k := (q - e).toNat
    if bitLen m + 1 < k then (0, st || m != 0, .lt)
    else
      let r := m % 2 ^ k
      let c := compare (2 * r) (2 ^ k)
      (m / 2 ^ k, st || r != 0, if c = .eq ∧ st then .gt else c)

/-- One more, by the rounding mode (R37, R39). -/
def roundInc (r : Rnd) (neg : Bool) (n : Nat) (inexact : Bool) (half : Ordering) : Nat :=
  match r with
  | .rne => if half = .gt ∨ (half = .eq ∧ n % 2 = 1) then n + 1 else n
  | .rtz => n
  | .rup => if inexact && !neg then n + 1 else n
  | .rdn => if inexact && neg then n + 1 else n

/-- The result of an overflow (R41). -/
def overflowCode (t : Ty) (r : Rnd) (sat neg : Bool) : Nat :=
  let f := fmtOf t
  if sat then signBit f neg + maxCode f
  else if f.inf then
    match r with
    | .rne => infCode f neg
    | .rtz => signBit f neg + maxCode f
    | .rup => if neg then signBit f neg + maxCode f else infCode f neg
    | .rdn => if neg then infCode f neg else signBit f neg + maxCode f
  else if f.nan then nanCode t
  else signBit f neg + maxCode f

/-- Round the exact value ±m·2^e once (R37 to R42); `st` says that the value lies a little above m·2^e. -/
def roundF (t : Ty) (r : Rnd) (sat neg : Bool) (m : Nat) (e : Int) (st : Bool) : Nat × Flags :=
  let f := fmtOf t
  if m = 0 ∧ !st then (signBit f neg, 0)
  else
    let lead := e + bitLen m - 1
    let qu := lead - f.mw
    let q := max qu (qMin f)
    let (n0, ix, half) := cutAt m e st q
    let n1 := roundInc r neg n0 ix half
    let (n, q) := if n1 = 2 ^ (f.mw + 1) then (2 ^ f.mw, q + 1) else (n1, q)
    -- the value rounded with an unbounded exponent (R40)
    let (u0, uix, uhalf) := cutAt m e st qu
    let u := roundInc r neg u0 uix uhalf
    let leadU := if u = 2 ^ (f.mw + 1) then lead + 1 else lead
    let tiny := decide (leadU < 1 - (f.bias : Int))
    if magCode f n q > maxCode f then (overflowCode t r sat neg, fOF ||| fIX)
    else (signBit f neg + magCode f n q,
      (if ix then fIX else 0) ||| (if tiny && ix then fUF else 0))

/-- An infinite arithmetic result (R41): under .sat it becomes ±largest finite with OF and IX. -/
def infResult (t : Ty) (sat neg : Bool) : Nat × Flags :=
  let f := fmtOf t
  if sat then (signBit f neg + maxCode f, fOF ||| fIX)
  else if f.inf then (infCode f neg, 0)
  else if f.nan then (nanCode t, fIV)
  else (signBit f neg + maxCode f, fOF ||| fIX)

/-- IV of a signalling NaN (R35). -/
def sigFlag : FVal → Flags
  | .nan true => fIV
  | _ => 0

/-- A NaN of either kind. -/
def isNan : FVal → Bool
  | .nan _ => true
  | _ => false

/-- The sign of a value; a NaN has none. -/
def FVal.neg : FVal → Bool
  | .inf s => s
  | .fin s _ _ => s
  | .nan _ => false

/-- The value with its sign inverted. -/
def FVal.flip : FVal → FVal
  | .nan s => .nan s
  | .inf s => .inf (!s)
  | .fin s m e => .fin (!s) m e

/-- The signed magnitude of a finite value at exponent q, not above its own. -/
def atExp (neg : Bool) (m : Nat) (e q : Int) : Int :=
  let x : Int := (m * 2 ^ (e - q).toNat : Nat)
  if neg then -x else x

/-- Round an exact integer multiple x·2^q, whose zero takes the sign `z`. -/
def roundInt (t : Ty) (r : Rnd) (sat : Bool) (x : Int) (q : Int) (z : Bool) : Nat × Flags :=
  if x = 0 then (signBit (fmtOf t) z, 0) else roundF t r sat (decide (x < 0)) x.natAbs q false

/-- The sum of two values (R38, R42). -/
def addV (t : Ty) (r : Rnd) (sat : Bool) (a b : FVal) : Nat × Flags :=
  let s := sigFlag a ||| sigFlag b
  match a, b with
  | .nan _, _ | _, .nan _ => (nanCode t, s)
  | .inf x, .inf y => if x = y then infResult t sat x else (nanCode t, fIV)
  | .inf x, _ => infResult t sat x
  | _, .inf y => infResult t sat y
  | .fin x m e, .fin y n d =>
    if m = 0 ∧ n = 0 then (signBit (fmtOf t) (if x = y then x else r == .rdn), 0)
    else
      let q := min e d
      roundInt t r sat (atExp x m e q + atExp y n d q) q (r == .rdn)

/-- The exact product, or NaN with IV for 0 · ∞ (R42). -/
def mulV (a b : FVal) : FVal × Flags :=
  match a, b with
  | .nan x, .nan y => (.nan false, sigFlag (.nan x) ||| sigFlag (.nan y))
  | .nan x, _ => (.nan false, sigFlag (.nan x))
  | _, .nan y => (.nan false, sigFlag (.nan y))
  | .inf x, .inf y => (.inf (x != y), 0)
  | .inf x, .fin y n _ => if n = 0 then (.nan false, fIV) else (.inf (x != y), 0)
  | .fin x m _, .inf y => if m = 0 then (.nan false, fIV) else (.inf (x != y), 0)
  | .fin x m e, .fin y n d => (.fin (x != y) (m * n) (e + d), 0)

/-- Round a value into a format as an arithmetic result. -/
def roundV (t : Ty) (r : Rnd) (sat : Bool) : FVal → Nat × Flags
  | .nan _ => (nanCode t, 0)
  | .inf s => infResult t sat s
  | .fin s m e => roundF t r sat s m e false

/-- FADD (R199). -/
def fAdd (t : Ty) (r : Rnd) (sat : Bool) (a b : Nat) : Nat × Flags := addV t r sat (decF t a) (decF t b)
/-- FSUB (R199). -/
def fSub (t : Ty) (r : Rnd) (sat : Bool) (a b : Nat) : Nat × Flags := addV t r sat (decF t a) (decF t b).flip
/-- FMUL (R199). -/
def fMul (t : Ty) (r : Rnd) (sat : Bool) (a b : Nat) : Nat × Flags :=
  let (p, f) := mulV (decF t a) (decF t b)
  let (x, g) := roundV t r sat p
  (x, f ||| g)
/-- FMA (R199): one rounding; 0 · ∞ plus a quiet NaN sets IV (R35). -/
def fFma (t : Ty) (r : Rnd) (a b c : Nat) : Nat × Flags :=
  let (p, f) := mulV (decF t a) (decF t b)
  let (x, g) := addV t r false p (decF t c)
  (x, f ||| g)

/-- The order of two values that are not NaN; −0 below +0 when `zeros` (R34, R51). -/
def cmpV (zeros : Bool) (a b : FVal) : Ordering :=
  match a, b with
  | .inf x, .inf y => if x = y then .eq else if x then .lt else .gt
  | .inf x, _ => if x then .lt else .gt
  | _, .inf y => if y then .gt else .lt
  | .fin x m e, .fin y n d =>
    let q := min e d
    let c := compare (atExp x m e q) (atExp y n d q)
    if c = .eq ∧ m = 0 ∧ zeros then (if x = y then .eq else if x then .lt else .gt) else c
  | _, _ => .eq

/-- FMIN and FMAX (R51). -/
def fMinMax (t : Ty) (big : Bool) (a b : Nat) : Nat × Flags :=
  let va := decF t a
  let vb := decF t b
  if isNan va || isNan vb then (nanCode t, sigFlag va ||| sigFlag vb)
  else
    let c := cmpV true va vb
    if big then (if c = .lt then b else a, 0) else (if c = .gt then b else a, 0)

/-- A comparison of floating values (R200). -/
def fCmp (t : Ty) (k : Cond) (a b : Nat) : Bool × Flags :=
  let va := decF t a
  let vb := decF t b
  if isNan va || isNan vb then
    (k == .ne, sigFlag va ||| sigFlag vb ||| (if k == .lt || k == .ge then fIV else 0))
  else
    let c := cmpV false va vb
    (match k with
      | .eq => c == .eq
      | .ne => c != .eq
      | .lt => c == .lt
      | .ge => c != .lt
      | .lo => c == .lt
      | .hs => c != .lt, 0)

/-- A conversion between floating formats (R43). -/
def fConv (ta tb : Ty) (r : Rnd) (sat : Bool) (x : Nat) : Nat × Flags :=
  let f := fmtOf ta
  match decF tb x with
  | .nan s =>
    if f.nan then (nanCode ta, sigFlag (.nan s)) else (0, fIV)
  | .inf s =>
    if sat then (signBit f s + maxCode f, fOF ||| fIX)
    else if f.inf then (infCode f s, 0)
    else if f.nan then (nanCode ta, fIV)
    else (signBit f s + maxCode f, fOF ||| fIX)
  | .fin s m e => roundF ta r sat s m e false

/-- An exact value rounded to an integer: its sign, magnitude, and whether it changed (R44, R45). -/
def toInt (r : Rnd) (neg : Bool) (m : Nat) (e : Int) : Nat × Bool :=
  let (n, ix, half) := cutAt m e false 0
  (roundInc r neg n ix half, ix)

/-- A conversion to an integer format, which always saturates (R44). -/
def fToI (ta tb : Ty) (r : Rnd) (x : Nat) : Nat × Flags :=
  let w := tyBits ta
  let sg := tySigned ta
  match decF tb x with
  | .nan _ => (0, fIV)
  | .inf s => (satInt w sg (if s then -(2 ^ 70) else 2 ^ 70), fIV)
  | .fin s m e =>
    let e' := min e 128
    let (n, ix) := toInt r s m e'
    let v : Int := if s then -(n : Int) else n
    let c := satInt w sg v
    let back : Int := if sg then toSigned w c else c
    if back = v then (c, if ix then fIX else 0) else (c, fIV)

/-- The value of an integer code. -/
def intVal (t : Ty) (x : Nat) : Int :=
  if tySigned t then toSigned (tyBits t) x else (x % 2 ^ tyBits t : Nat)

/-- A conversion from an integer format (R45). -/
def iToF (ta tb : Ty) (r : Rnd) (sat : Bool) (x : Nat) : Nat × Flags := roundInt ta r sat (intVal tb x) 0 false

/-- FRINT (R45). -/
def fRint (t : Ty) (r : Rnd) (x : Nat) : Nat × Flags :=
  match decF t x with
  | .nan s => (nanCode t, sigFlag (.nan s))
  | .inf s => (infCode (fmtOf t) s, 0)
  | .fin s m e =>
    if 0 ≤ e then (x, 0)
    else
      let (n, ix) := toInt r s m e
      ((roundF t .rne false s n 0 false).1, if ix then fIX else 0)

/-- FSCALE (R202): the exponent is exact before the single rounding. An exponent beyond ±2^16 acts as ±2^16, which
gives the same result in every format. -/
def fScale (t : Ty) (r : Rnd) (x : Nat) (k : Int) : Nat × Flags :=
  match decF t x with
  | .nan s => (nanCode t, sigFlag (.nan s))
  | .inf s => (infCode (fmtOf t) s, 0)
  | .fin s m e =>
    if m = 0 then (signBit (fmtOf t) s, 0)
    else roundF t r false s m (e + max (-65536) (min 65536 k)) false

/-- FABS and FNEG act on the sign bit alone (R199). -/
def fAbs (t : Ty) (x : Nat) : Nat := x % 2 ^ (tyBits t - 1)
/-- FNEG (R199). -/
def fNeg (t : Ty) (x : Nat) : Nat := x ^^^ 2 ^ (tyBits t - 1)

-- Special functions (R213)

/-- FDIV, correctly rounded (R213). -/
def fDiv (t : Ty) (a b : Nat) : Nat × Flags :=
  let va := decF t a
  let vb := decF t b
  match va, vb with
  | .nan _, _ | _, .nan _ => (nanCode t, sigFlag va ||| sigFlag vb)
  | .inf _, .inf _ => (nanCode t, fIV)
  | .inf x, v => (infCode (fmtOf t) (x != v.neg), 0)
  | v, .inf y => (signBit (fmtOf t) (v.neg != y), 0)
  | .fin x m e, .fin y n d =>
    if n = 0 then (if m = 0 then (nanCode t, fIV) else (infCode (fmtOf t) (x != y), fDZ))
    else if m = 0 then (signBit (fmtOf t) (x != y), 0)
    else
      let k := 128 + bitLen n
      let num := m * 2 ^ k
      roundF t .rne false (x != y) (num / n) (e - d - k) (num % n != 0)

/-- FSQRT, correctly rounded (R213). -/
def fSqrt (t : Ty) (a : Nat) : Nat × Flags :=
  match decF t a with
  | .nan s => (nanCode t, sigFlag (.nan s))
  | .inf s => if s then (nanCode t, fIV) else (infCode (fmtOf t) false, 0)
  | .fin s m e =>
    if m = 0 then (signBit (fmtOf t) s, 0)
    else if s then (nanCode t, fIV)
    else
      let (m, e) := if e % 2 = 0 then (m, e) else (2 * m, e - 1)
      let x := m * 2 ^ 256
      let q := Nat.sqrt x
      roundF t .rne false false q (e / 2 - 128) (q * q != x)

/-- The result of an approximate function: one of the codes inside the bound of `ulps` units in the last place, which are
the result's own (R213, R220), around both m·2^e and m'·2^e, each of them a little more than that and m' the larger,
chosen by the free value (log 12). A code below the value's binade would be too far. -/
def amid (t : Ty) (ulps : Nat) (pick : Nat) (neg : Bool) (m m' : Nat) (e : Int) : Nat × Flags :=
  let f := fmtOf t
  let lead := e + bitLen m - 1
  let q := max (lead - f.mw) (qMin f)
  let (n0, _, _) := cutAt m e true q
  let low := (cutAt m' e true q).1 + 1 - ulps
  let n := max (low + pick % (n0 + ulps + 1 - low)) (if 2 ^ f.mw ≤ n0 then 2 ^ f.mw else 0)
  let (c, g) := roundF t .rne false neg n q false
  if g.getLsbD 2 then (c, g) else (c, fIX ||| (if 0 < c % 2 ^ (f.ew + f.mw) ∧ c % 2 ^ (f.ew + f.mw) < 2 ^ f.mw then fUF else 0))

/-- `amid` around one value. -/
def within (t : Ty) (ulps : Nat) (pick : Nat) (neg : Bool) (m : Nat) (e : Int) : Nat × Flags := amid t ulps pick neg m m e

/-- Working precision of the special functions, in bits after the point. -/
def sfuBits : Nat := 1400

/-- Σ of the arctangent series of 1/k, alternating, scaled by 2^sfuBits. -/
def atanInv (k : Nat) : Nat → Nat → Nat → Int
  | 0, _, _ => 0
  | n + 1, p, i => (p / (2 * i + 1) : Nat) - atanInv k n (p / (k * k)) (i + 1)

/-- 2π·2^sfuBits (Machin's formula: π = 16 atan(1/5) − 4 atan(1/239)). -/
def twoPi : Nat :=
  (32 * atanInv 5 310 (2 ^ sfuBits / 5) 0 - 8 * atanInv 239 100 (2 ^ sfuBits / 239) 0).toNat

/-- Σ x^n/n! with every term scaled by 2^k, from the term `tm` on. -/
def expSeries (k x : Nat) : Nat → Nat → Nat → Nat
  | 0, _, _ => 0
  | n + 1, tm, i => tm + expSeries k x n (tm * x / 2 ^ k / i) (i + 1)

/-- ln 2 scaled by 2^k: Σ 1/(n·2^n). -/
def ln2 (k : Nat) : Nat → Nat
  | 0 => 0
  | n + 1 => 2 ^ k / ((n + 1) * 2 ^ (n + 1)) + ln2 k n

/-- Bits of log₂ of a number in [1, 2) scaled by 2^w: each squaring gives the next bit. -/
def log2Bits (w : Nat) : Nat → Nat → Nat → Nat
  | 0, _, acc => acc
  | n + 1, y, acc =>
    let z := y * y / 2 ^ w
    if z ≥ 2 ^ (w + 1) then log2Bits w n (z / 2) (2 * acc + 1) else log2Bits w n z (2 * acc)

/-- The alternating series of sine (from x, i = 1) or cosine (from 1, i = 0) at x, scaled by 2^sfuBits. -/
def trigSeries (x2 : Nat) : Nat → Nat → Nat → Int
  | 0, _, _ => 0
  | n + 1, tm, i => (tm : Int) - trigSeries x2 n (tm * x2 / 2 ^ sfuBits / ((i + 1) * (i + 2))) (i + 2)

/-- FEXP2F (R213). An .f32 operand from 1/2 up can be a fraction that FSUB rounded by up to 2^-25, and R220 bounds the
program's result around the power of the unrounded one: its result lies inside the bound around the powers of both ends. -/
def fExp2 (t : Ty) (pick : Nat) (a : Nat) : Nat × Flags :=
  match decF t a with
  | .nan s => (nanCode t, sigFlag (.nan s))
  | .inf _ => (nanCode t, fIV)
  | .fin s m e =>
    if m = 0 then ((roundF t .rne false false 1 0 false).1, 0)
    else if s ∨ 0 < e + bitLen m then (nanCode t, fIV)
    else
      let x := (cutAt m e false (-300)).1
      let d := if t = .f32 ∧ 2 ^ 299 ≤ x then 2 ^ 275 else 0
      let power (x : Nat) := expSeries 300 (x * ln2 300 320 / 2 ^ 300) 80 (2 ^ 300) 1
      amid t 2 pick false (power (x - d)) (power (x + d)) (-300)

/-- FLOG2 (R213). -/
def fLog2 (t : Ty) (pick : Nat) (a : Nat) : Nat × Flags :=
  match decF t a with
  | .nan s => (nanCode t, sigFlag (.nan s))
  | .inf s => if s then (nanCode t, fIV) else (infCode (fmtOf t) false, 0)
  | .fin s m e =>
    if m = 0 then (infCode (fmtOf t) true, fDZ)
    else if s then (nanCode t, fIV)
    else
      let l := bitLen m - 1
      let k : Int := e + l
      if m = 2 ^ l then (roundInt t .rne false k 0 false)
      else
        let fr := log2Bits 500 200 (m * 2 ^ 500 / 2 ^ l) 0
        let v : Int := k * 2 ^ 200 + fr
        within t 2 pick (decide (v < 0)) v.natAbs (-200)

/-- FRCP (R213). -/
def fRcp (t : Ty) (pick : Nat) (a : Nat) : Nat × Flags :=
  match decF t a with
  | .nan s => (nanCode t, sigFlag (.nan s))
  | .inf s => (signBit (fmtOf t) s, 0)
  | .fin s m e =>
    if m = 0 then (infCode (fmtOf t) s, fDZ)
    else
      let l := bitLen m - 1
      if m = 2 ^ l then roundF t .rne false s 1 (-(e + l)) false
      else within t 1 pick s (2 ^ (200 + l) / m) (-(e + 200 + l))

/-- FRSQ (R213). -/
def fRsq (t : Ty) (pick : Nat) (a : Nat) : Nat × Flags :=
  match decF t a with
  | .nan s => (nanCode t, sigFlag (.nan s))
  | .inf s => if s then (nanCode t, fIV) else (0, 0)
  | .fin s m e =>
    if m = 0 then (infCode (fmtOf t) s, fDZ)
    else if s then (nanCode t, fIV)
    else
      let l := bitLen m - 1
      if m = 2 ^ l ∧ (e + l) % 2 = 0 then roundF t .rne false false 1 (-((e + l) / 2)) false
      else
        let (m, e) := if e % 2 = 0 then (m, e) else (2 * m, e - 1)
        within t 1 pick false (Nat.sqrt (2 ^ 600 / m)) (-(e / 2) - 300)

/-- FSIN and FCOS with exact argument reduction (R213). Below 2^-130 the series lies a little under its first term. -/
def fTrig (t : Ty) (cosine : Bool) (pick : Nat) (a : Nat) : Nat × Flags :=
  match decF t a with
  | .nan s => (nanCode t, sigFlag (.nan s))
  | .inf _ => (nanCode t, fIV)
  | .fin s m e =>
    if m = 0 then (if cosine then ((roundF t .rne false false 1 0 false).1, 0) else (signBit (fmtOf t) s, 0))
    else if e + bitLen m < -130 then
      if cosine then within t 2 pick false (2 ^ sfuBits - 1) (-(sfuBits : Int))
      else within t 2 pick s (m * 2 ^ 200 - 1) (e - 200)
    else
      let x := (cutAt m e false (-(sfuBits : Int))).1 % twoPi
      let x2 := x * x / 2 ^ sfuBits
      let v := if cosine then trigSeries x2 220 (2 ^ sfuBits) 0 else trigSeries x2 220 x 1
      within t 2 pick (if cosine then decide (v < 0) else (decide (v < 0)) != s) v.natAbs (-(sfuBits : Int))

-- MX blocks (R48, R49)

/-- emax of an MX element format (R48). -/
def emaxOf : Ty → Int
  | .e3m2 => 4
  | .e4m3 => 8
  | .e5m2 => 15
  | _ => 2

/-- The exponent of the leading bit of a nonzero magnitude. -/
def leadExp (m : Nat) (e : Int) : Int := e + bitLen m - 1

/-- The largest of the leading exponents, of the values that are not zero. -/
def maxLead : List FVal → Option Int
  | [] => none
  | .fin _ m e :: t =>
    if m = 0 then maxLead t else match maxLead t with
      | none => some (leadExp m e)
      | some x => some (max x (leadExp m e))
  | _ :: t => maxLead t

/-- One element of a packed block: its code, its flags, and whether it was clamped (R48). -/
def mxElem (t : Ty) (x : Int) : FVal → Nat × Flags × Bool
  | .fin s m e =>
    let (c, f) := roundF t .rne true s m (e - x) false
    if f.getLsbD 2 then (c, fIX, true) else (c, f, false)
  | _ => (0, 0, false)

/-- Pack a block of values of type `src` into format `t`: the scale, the codes, the flags and the number of clamped
elements (R48). -/
def mxPack (src t : Ty) (sat : Bool) (xs : List FVal) : Nat × List Nat × Flags × Nat :=
  let isInf : FVal → Bool := fun v => match v with | .inf _ => true | _ => false
  if xs.any isNan then (255, xs.map fun _ => 0, fIV, 0)
  else if xs.any isInf && !sat then (255, xs.map fun _ => 0, fIV, 0)
  else
    let fs : Flags := if xs.any isInf then fOF ||| fIX else 0
    let ys := xs.map fun v => match v with
      | .inf s => match decF src (maxCode (fmtOf src)) with
        | .fin _ m e => .fin s m e
        | w => w
      | w => w
    match maxLead ys with
    | none => (0, ys.map fun _ => 0, fs, 0)
    | some l =>
      let x := max (l - emaxOf t) (-127)
      let es := ys.map (mxElem t x)
      ((x + 127).toNat, es.map (·.1), es.foldl (fun acc r => acc ||| r.2.1) fs,
        ((xs.zip es).filter fun p => isInf p.1 || p.2.2.2).length)

/-- The value of an MX element under its scale; 0xFF makes it NaN (R32, R33, R49). -/
def mxVal (t : Ty) (scale : Nat) (c : Nat) : FVal :=
  if scale = 255 then .nan false
  else match decF t c with
    | .fin s m e => .fin s m (e + scale - 127)
    | v => v

end Sys2Proof.Machine
end

