-- ==== Sys2Proof/Machine/State.lean ====
section
/-!
DEFINITION. The state of the machine: plain data that holds every piece of state the spec gives the packages joined by
peer links, their cores, memories, networks and host side. Cores, contexts, partitions, routers and packages are kept
as lists by number, with the reset value for a number that is not listed. INVENTORY.md lists each piece with its rule
and reset value. Where the spec gives no reset value the defaults below stand (DESIGN CHOICE, log 2).
-/
namespace Sys2Proof.Machine

/-- Why a step stops with a fault. -/
inductive Fault where
  /-- Raised by Machine/Step.lean when State.agenda names an instruction, not an event, as an event: the agenda stands
  for the world outside and the model's own order, and no machine does this (safe). -/
  | turnNotEvent
  deriving DecidableEq, Repr

/-- Why a step is refused. -/
inductive Refusal where
  /-- Answered by an arm of Machine/Dispatch.lean whose instruction has no meaning yet (safe). -/
  | notModelled (mnemonic : String)
  deriving DecidableEq, Repr

-- Registers of a context

/-- A v register: 1,024 bits and 32 label slots (R192, R193). -/
structure VReg where
  data : BitVec 1024 := 0
  lab : Vector Handle 32 := Vector.replicate 32 0
  deriving DecidableEq, Repr

/-- An m register: 128 bits and 32 label slots (R193). -/
structure MaskReg where
  bits : BitVec 128 := 0
  lab : Vector Handle 32 := Vector.replicate 32 0
  deriving DecidableEq, Repr

/-- A k register: a skip list and the next granule (R260). -/
structure KSkip where
  list : Word := 0
  pos : Nat := 0
  deriving DecidableEq, Repr

/-- The registers of a context (R366). -/
structure Regs where
  g : Vector LWord 64 := Vector.replicate 64 {}
  f : Vector LWord 32 := Vector.replicate 32 {}
  v : Vector VReg 8 := Vector.replicate 8 {}
  m : Vector MaskReg 8 := Vector.replicate 8 {}
  k : Vector KSkip 4 := Vector.replicate 4 {}
  deriving DecidableEq, Repr

-- Partitions, items and messages

/-- Which partition: package, buddy-tree node, tenant and resident set (R361, R362, R363). -/
structure PartKey where
  pkg : Nat := 0
  node : Nat := 0
  ten : Bool := false
  set : Nat := 0
  deriving DecidableEq, Repr

/-- Kinds of work item (R107). -/
inductive ItemKind where
  | launch | callat | spawn | pair
  deriving DecidableEq, Repr

/-- A release that an item carries: the pushing core, context and journal position, and the scope (R122, R303). -/
structure RelPos where
  core : CoreNo
  key : Nat
  jpos : Nat
  scope : Scope
  deriving DecidableEq, Repr

/-- A work item (R107). `a` to `d` are its arguments; for an active pair `a` and `b` are the two nodes. -/
structure Item where
  kind : ItemKind
  pc : Word := 0
  join : Word := 0
  caller : CoreNo := 0
  callerKey : Nat := 0
  tok : GReg := 0
  a : LWord := {}
  b : LWord := {}
  c : LWord := {}
  d : LWord := {}
  set : Nat := 0
  ten : Bool := false
  rel : Option RelPos := none
  /-- The cores that a spawn item was stolen from, the last one first. -/
  victims : List CoreNo := []
  deriving DecidableEq, Repr

/-- What runs in a context: the item's kind, its join address, the victims it was stolen from, and for a call-at item
the caller's token and whether it has been replied to (R113, R125, R330). -/
structure CurItem where
  kind : ItemKind
  join : Word := 0
  /-- The core that pushed the item, whose own window its join address names. -/
  pusher : CoreNo := 0
  victims : List CoreNo := []
  caller : CoreNo := 0
  callerKey : Nat := 0
  tok : GReg := 0
  replied : Bool := false
  ten : Bool := false
  deriving DecidableEq, Repr

-- Accesses

/-- The atomic operations (R225). -/
inductive AtOp where
  | add | and | or | xor | min | max | minu | maxu | swap | cas | fadd
  deriving DecidableEq, Repr

/-- What a home is asked to do. -/
inductive Act where
  /-- A load of n bytes (R177); n may be up to 128 for a part of a VLD (R207). -/
  | load
  /-- A store of the data bytes (R177); `mask` has a bit for each byte that is written (R207). -/
  | store (mask : Nat)
  /-- A transform's store, whose words take the empty label (R290), or MMOVE's, whose words take the tile's (R269). -/
  | xput
  /-- LDS, STS, LDF, STF and FECLR (R179). -/
  | lds | sts | ldf | stf | feclr
  /-- An atomic (R225); `y` is gC of ACAS. -/
  | atomic (op : AtOp) (y : LWord)
  /-- JINIT, JOIN and the decrement of DONE (R123, R124, R125). -/
  | jinit | join | dec
  /-- The barrier instructions (R234). -/
  | barinit | barabort | bararr (k : Nat) | barwait | bartry
  /-- An engine's arrival at a barrier, or its fault (R236): the token code and fault record, and whether it counts. -/
  | engarr (code frec : Nat) (counts : Bool)
  /-- NFREE at the node's home (R307). -/
  | nfree
  /-- LINK on slots of one home (R309): the two port words. -/
  | linkBoth (x y : BitVec 40)
  /-- Phase 1 of LINK: wait until the slot of `x` is full, check its node, leave it empty (R309). -/
  | linkLock (x : BitVec 40)
  /-- Phase 2 of LINK: the slot of `x` takes `y` and is left full; or a locked slot is only filled again (R309). -/
  | linkPut (x y : BitVec 40)
  | linkFill (x : BitVec 40)
  /-- A member read of a group load (R239). -/
  | gldRead
  /-- ACK (R355): the context's number and the action. -/
  | ack (ctx : CtxNo) (action : Nat)
  /-- CALSET at the router of the destination (R375). -/
  | calset (router out : Nat) (arb : Bool) (slot node : Nat)
  deriving DecidableEq, Repr

/-- What an engine has sent to a home (R236, R281): a bound arrival, the read of a piece at a home address, or the write
of a piece with its length. -/
inductive EngAsk where
  | arrive
  | read (ha : Nat)
  | write (ha n : Nat)
  deriving DecidableEq, Repr

/-- Who waits for a reply. -/
inductive Asker where
  /-- A context, by its key 16·set + number. -/
  | ctx (key : Nat)
  /-- A journal entry (R183). -/
  | journal (entry : Nat)
  /-- Nobody: ST.post and .post atomics (R184, R226). -/
  | nobody
  /-- The copy or transform engine, of the tenant whose work it does (R236, R275). -/
  | engine (e : Eng) (tenant : Nat) (what : EngAsk)
  /-- A half of the matrix engine, of the tenant whose work it does, that reads a 64-byte block at a home address (R21,
  R257). -/
  | matrix (tenant h ha : Nat)
  /-- The rewrite unit (R304), for the pair of a set and tenant. -/
  | unit (hk : Nat)
  /-- A stream register that fetches its next element ahead (R212), with the number that the stream keeps. -/
  | stream (key : Nat) (f : Fin 8) (id : Nat)
  /-- Contexts whose BARARR one message carries (R235), each with its own journal position (R188). -/
  | contexts (joins : List (Nat × Nat))
  deriving DecidableEq, Repr

/-- An access as it travels to its home. `ha` is the home's own address (Machine/Ops.lean), `va` the virtual address
that refusals log, `plane` the label plane of the page (none for an unlabelled page) or local store. -/
structure Req where
  act : Act
  src : CoreNo
  who : Asker
  part : PartKey
  path : Path := .th
  va : Word
  ha : Nat
  /-- Address of the handle of the first word; `none` when the word lies in local store or carries no label. -/
  plane : Option Nat := none
  /-- The address is a local store word, whose label and full-empty bit are kept with it. -/
  localStore : Bool := false
  /-- Bytes of the access. -/
  n : Nat
  data : List Byte := []
  /-- Label of the stored data: one handle, or one for each source word of 4 bytes (R207, R281); byte `i` of the data
  belongs to source word (skew + i) div 4. -/
  labs : List Handle := []
  skew : Nat := 0
  acq : Option Scope := none
  rel : Option Scope := none
  jpos : Nat := 0
  limit : Nat := 0x100000
  pc : Word := 0
  /-- The context that it belongs to. -/
  owner : Nat := 0
  /-- The requester belongs to a peer partition of the home's (R364). -/
  peer : Bool := false
  /-- The page of the address maps a label table or heap, so that it is read-only (R139). -/
  fixed : Bool := false
  /-- Counts a posted atomic or store for the post-refusal counter (R184). -/
  post : Bool := false
  /-- The class of the request and its reply (R318, R319): 0 normal, 1 express, 2 bulk. -/
  vcls : Nat := 0
  /-- A part of a VLD or VST, or a piece of an engine, whose data travels in 3 to 7 flits (R317). -/
  wide : Bool := false
  deriving DecidableEq, Repr

/-- A home's answer: the response code (0 on success), the data and its label, flags of an AFADD, and the fault record
index where the refusal was logged. -/
structure Resp where
  code : Nat := 0
  data : List Byte := []
  labs : List Handle := []
  flags : Flags := 0
  frec : Nat := 0
  detail : Nat := 0
  /-- The address that the error log takes, and EADDR of the trap, where they are not the access's own. -/
  logAt : Option Word := none
  eaddr : Option Word := none
  deriving DecidableEq, Repr

/-- The parts of a message (R317): what each kind carries. -/
inductive Body where
  | req (r : Req)
  | resp (who : Asker) (r : Resp) (va : Word)
  | amsg (pc : Word) (a b : LWord) (ctx : Nat) (supervisor : Bool) (ten : Bool)
  | callat (i : Item)
  | reply (key : Nat) (r : GReg) (v : LWord)
  | stealReq (half : Bool) (set : Nat)
  | stealResp (i : Option Item)
  | notice (set : Nat)
  /-- A set to be interned, and how often the partition's labels had been flushed when it was formed (R145). -/
  | intern (key : Nat) (union : Bool) (a b : Handle) (set : List (BitVec 64)) (flush : Nat)
  | nogood (key : Nat) (tok : GReg) (pc : Word) (envs : List (BitVec 64))
  | lflush (key : Nat)
  | rtload (key : Nat) (tok : GReg) (addr : Word) (pc : Word) (image : List (BitVec 64))
  | migrate (key : Nat) (regs : List LWord) (pc : Word) (va : Word) (ha : Nat)
  | migrated (key : Nat) (regs : List LWord) (pc : Word) (trap : Option (Nat × Nat × Word))
  | launch (i : Item)
  /-- A destination's refusal of a message, by its number (R321). -/
  | refused (id : Nat)
  deriving DecidableEq, Repr

/-- Virtual channels (R318). -/
abbrev VC := Fin 4

/-- A message in the network (R317, R320, R321). -/
structure Msg where
  id : Nat
  src : CoreNo
  dst : CoreNo
  path : Path
  seq : Nat
  vc : VC
  part : PartKey
  /-- The cycle in which it was sent. -/
  born : Nat := 0
  /-- Route class (R322). -/
  cls : Nat
  flits : Nat
  /-- Flits that have reached the destination. -/
  here : Nat := 0
  /-- Refusals so far, and the cycle from which it may be sent again; 0 when no backoff runs (R321). A refused message has
  no flit in the network and none at its destination. -/
  refusals : Nat := 0
  retryAt : Nat := 0
  /-- Held at its source by a route swap (R323). -/
  held : Bool := false
  /-- The sending context's key, for the retry-limit trap (R321). -/
  key : Nat := 0
  body : Body
  deriving DecidableEq, Repr

/-- A flit in a buffer of a router, by message and its place in it (R324, R404). `inp` is the input port: 6 and 7 are the
request ports of the channel cores, 8 the source's network interface, and 9 the I/O die before input 5. `io` says that it
came from the I/O die (R322), `bin` that it lies in the save bin of its set, and `due` that it is to be put back from there
(R372). -/
structure Flit where
  msg : Nat
  no : Nat := 0
  io : Bool := false
  router : Nat
  inp : Nat
  vc : VC
  node : Nat
  age : Nat := 0
  promoted : Bool := false
  bin : Bool := false
  due : Bool := false
  deriving DecidableEq, Repr

-- Waiting contexts

/-- Why a context is in WAIT (R101). -/
inductive Why where
  /-- The fetch line at an address (R85, R119). -/
  | line (a : Word)
  /-- A pending token (R103); `dec` says that PARKLIM bounds the wait (R331). -/
  | token (r : GReg)
  /-- Every pending token, before DONE or IDLE (R331). -/
  | tokens
  /-- A combine-cache miss: the operation and the operands (R145). -/
  | combine (union : Bool) (a b : Handle)
  /-- The label home's answer to an intern request (R145). -/
  | intern
  /-- A page walk (R174). -/
  | walk (va : Word)
  /-- A reply (R178). -/
  | reply
  /-- A refused request that will be sent again (R182). -/
  | backoff (at_ : Nat)
  /-- A free journal entry (R183). -/
  | journal
  /-- The earlier accesses of a release, fence, LINK or TLBINV (R187, R189). -/
  | order
  /-- An access to the own core, behind those that reached it in the same cycle (R186). -/
  | turn
  /-- A page fault held in the latch, until ACK (R175): the faulting address. -/
  | fault (va : Word)
  /-- The host's answer (R146, R181): the event's kind, and the DETAIL and EADDR of the trap that a refusal raises. -/
  | host (kind detail : Nat) (eaddr : Word)
  /-- A spill move of the deque (R109). -/
  | move
  /-- A special-function result (R213). -/
  | sfu
  /-- The sequencer is held by a VLOOP (R208, R209). -/
  | sequencer
  /-- Single-step of a VLOOP, until the loop ends (R209). -/
  | loop
  /-- A free entry of a matrix, copy or transform queue (R252, R278). -/
  | matQueue
  | engQueue (e : Eng)
  /-- Accepted matrix work, before MMOVE, MWAIT or MSTAT (R252). -/
  | matWork
  /-- The partition controller, busy with another request of its kind (R365, R374). -/
  | control
  /-- A TLBINV in progress (R373): its operand and scope. -/
  | tlbinv (x : Word) (sc : Scope)
  /-- A CSAVE that waits for results (R369). -/
  | saving
  /-- RDISP, while the rewrite unit is busy (R312). -/
  | unit
  deriving DecidableEq, Repr

/-- Why a context is in PARK (R101). -/
inductive ParkWhy where
  /-- A synchronising access, JOIN or BARWAIT at a home's park table (R180, R124, R234). -/
  | home
  /-- REAP of a mask (R121). -/
  | reap (mask : BitVec 16)
  /-- YIELD, from a cycle on (R126). -/
  | yield (from_ : Nat)
  /-- PPOP: the number of steal rounds that had begun when it parked (R311). -/
  | ppop (begun : Nat)
  /-- LFLUSH (R162). -/
  | lflush
  /-- An enabled flag, until ACK (R217). -/
  | supervisor
  /-- A double trap or a machine check: no wake condition (R344, R360). -/
  | dead
  deriving DecidableEq, Repr

/-- The states of R101. -/
inductive Run where
  | idle | pool | run
  | wait (w : Why)
  | park (p : ParkWhy)
  deriving DecidableEq, Repr

/-- What the reply to an access writes when it retires. -/
inductive Wr where
  /-- Nothing. -/
  | none
  /-- Bytes that an instruction reads from a record, by home address (R288, R313, R237). -/
  | fetch (ha : Nat)
  /-- A g register: `n` bytes, sign-extended or not. -/
  | g (d : GReg) (n : Nat) (signed : Bool)
  /-- An f register (R195). -/
  | f (d : FReg) (n : Nat)
  /-- A VLD: the bytes and word handles of its parts so far, and the parts that are left to send (R207). -/
  | v (got : List Byte) (labs : List Handle) (rest : List Req)
  /-- The parts of a remote VST still to be sent (R207). -/
  | parts (rest : List Req)
  /-- DONE's decrement (R125), and what it leaves when it is performed. -/
  | done
  | doneOk
  /-- BARWAIT: gP takes the status of an aborted barrier (R234). -/
  | barwait (p : GReg)
  /-- A group load (R239): operation, float, destination, size, the members' values and handles so far, the failing
  members with their codes, and the number of replies to come. -/
  | gld (op : Nat) (fl : Bool) (d : Nat) (n : Nat) (got : List (Nat × Nat × List Handle)) (bad : List (Nat × Nat))
      (left : Nat)
  /-- LINK on slots of one home (R309): the port words. -/
  | linkBoth (x y : BitVec 40)
  /-- LINK in phase 1 (R309): the port words, the slots locked, and the one being locked. -/
  | linkLock (x y : BitVec 40) (locked : List (BitVec 40)) (now : BitVec 40)
  /-- LINK in phase 2, or filling locked slots again: the port words, the puts still to be sent, and the refusal that
  follows. -/
  | linkPuts (x y : BitVec 40) (rest : List (BitVec 40 × BitVec 40)) (fill : Option (Nat × Nat × Word))
  /-- LINK with its words written, which has a pair to push or not. -/
  | linkPush (x y : BitVec 40)
  /-- BARTRY's answer (R234). -/
  | bartry (d : GReg)
  /-- A migrant block (R230). -/
  | migrate
  /-- MMOVE's writes (R269): how many are still to be answered, and the first refusal. -/
  | moved (left : Nat) (bad : Option (Nat × Nat × Word))
  /-- A push of a stream (R211): the stores still to be sent, the register, the flags of the instruction, and the streams
  that it has read. -/
  | push (rest : List Req) (n : Fin 8) (fl : Flags) (reads : List (Fin 8))
  /-- RDISP with a pair for the rewrite unit (R312): the nodes in rule order, and the template. -/
  | rdisp (first second : Word) (tmpl : BitVec 256)
  deriving DecidableEq, Repr

/-- An instruction held by a context: one, or a pair (R90, R175). -/
structure Inst where
  pc : Word
  i1 : Instr
  i2 : Option Instr := none
  deriving DecidableEq, Repr

/-- A held asynchronous trap (R343): number, detail and EADDR. -/
structure AsyncTrap where
  trap : Nat
  detail : Nat
  eaddr : Word
  deriving DecidableEq, Repr

/-- A layout record (R288). -/
structure Shape where
  raw : BitVec 512 := 0
  addr : Word := 0
  deriving DecidableEq, Repr

/-- A bound stream register (R210, R211): its record, direction once fixed (true reads), the next element, and elements
fetched ahead with the handles of their words; and the number of the fetch ahead that is under way (R212). -/
structure Stream where
  shape : Shape
  dir : Option Bool := none
  pos : Nat := 0
  ahead : List (Nat × List Handle) := []
  asked : Option Nat := none
  deriving DecidableEq, Repr

/-- How far a pair has come (R90): its second instruction is tried, and waits before it can begin; the first runs, and
after it the second; the second, which reads from a home that has still to answer, runs before the first; or that is
done, and the first runs last. -/
inductive PairStage where
  | trial | forward | second | last
  deriving DecidableEq, Repr

/-- A pair in progress (R90): the address of its first slot; the registers and streams to put back if one of its
instructions traps; how far it has come; and a push of the second, read already, that the first's own access precedes
(R212). -/
structure PairSt where
  first : Word
  undo : Option Regs := none
  streams : Option (Vector (Option Stream) 8) := none
  stage : PairStage := .forward
  held : Wr := .none
  deriving DecidableEq, Repr

/-- Bits of DBG (R376). -/
structure Dbg where
  attach : Bool := false
  step : Bool := false
  /-- A watch match has stopped the context for the debugger, and whether the debugger has resumed it past that match
  (R376). -/
  met : Bool := false
  pass : Bool := false
  deriving DecidableEq, Repr

/-- A thread context (R16, R101, R366). -/
structure Ctx where
  regs : Regs := {}
  pc : Word := 0
  run : Run := .idle
  pooled : Bool := false
  item : Option CurItem := none
  /-- Pending tokens (R103), and which of them are CALLAT tokens (R331). -/
  pend : List GReg := []
  callTok : List GReg := []
  fflags : Flags := 0
  fenable : Flags := 0
  fsup : BitVec 21 := 0
  vcclass : BitVec 4 := 0
  parklim : BitVec 40 := 0x100000
  tvec : Word := 0
  epc : Word := 0
  ecause : Word := 0
  eaddr : Word := 0
  eheld : Bool := false
  watch : Vector Word 4 := Vector.replicate 4 0
  dbg : Dbg := {}
  stopped : Bool := false
  /-- The host has been told of the page fault that the context waits on (R175, R392). -/
  told : Bool := false
  /-- The instruction in flight, and the retry latch (R175). -/
  inst : Option Inst := none
  latch : Option Inst := none
  /-- ERET asked for a replay from the latch (R345), or ACK did (R355). -/
  replay : Bool := false
  pair : Option PairSt := none
  /-- The address of the transferring instruction, until the target check (R87). -/
  enter : Option Word := none
  asyncs : List AsyncTrap := []
  /-- A float-exception trap taken at the next instruction (R217): the raised flags. -/
  fexc : Option Flags := none
  /-- Flags raised by the instruction or pair that runs, committed when it retires (R42, R90). -/
  raised : Flags := 0
  /-- The address of the instruction that first raised an enabled flag among them (R217). -/
  raisedAt : Word := 0
  out : Wr := .none
  /-- The request in flight, kept to be sent again after a refusal (R182). -/
  sent : Option Req := none
  /-- A reply that has arrived and whose label is still being formed (R145), with its address. -/
  resp : Option (Resp × Word) := none
  refusals : Nat := 0
  /-- The cycle the park or bounded wait began (R181, R331). -/
  since : Nat := 0
  streams : Vector (Option Stream) 8 := Vector.replicate 8 none
  /-- Bytes that the instruction has read from records or nodes, with the handles of their words, by home address. -/
  fetched : List (Nat × List Byte × List Handle) := []
  /-- What engines had accepted when the waiting instruction was first tried (R189, R252): copy, transform, halves. -/
  goal : List Nat := []
  /-- The cycle of its last issue (R100). -/
  issued : Option Nat := none
  /-- Label combinations made for the waiting instruction (R145): operation, operands, result. -/
  memo : List (Bool × Handle × Handle × Handle) := []
  deriving DecidableEq, Repr

-- Units of a core

/-- States of a cellar bank (R367). -/
inductive BankSt where
  | empty | resident | sealed
  deriving DecidableEq, Repr

/-- The resident handler's state of one set (R346, R352): RHELD, whether the event is an interrupt (R354), the entry copy
of g1 to g15, and what the event interrupted: the state to return to, an access sequence in progress with its instruction, a target check still to be
made, and the pc. A stop keeps RPC, RCAUSE and RADDR here (R380). -/
structure Resident where
  held : Bool := false
  /-- The tenant of the event that the handler serves (R363). -/
  ten : Bool := false
  irq : Bool := false
  copy : List LWord := []
  prior : Run := .run
  cont : Option (Inst × Wr) := none
  enter : Option Word := none
  at_ : Word := 0
  kept : Option (Word × Word × Word) := none
  deriving DecidableEq, Repr

/-- An event for the root context (R352): trap number, detail and address. -/
structure RootEvent where
  trap : Nat
  detail : Nat
  addr : Word
  set : Nat := 0
  /-- The tenant whose event it is (R363). -/
  ten : Bool := false
  /-- The cycle in which it arrived (R380). -/
  cycle : Nat := 0
  deriving DecidableEq, Repr

/-- States of a journal entry (R183). -/
inductive JSt where
  | free | outstanding | refused
  deriving DecidableEq, Repr

/-- A journal entry (R183), with its number in the order of entries and the home it waits for. -/
structure JEntry where
  st : JSt := .free
  key : Nat := 0
  pc : Word := 0
  data : Word := 0
  code : Nat := 0
  lab : Handle := 0
  size : Nat := 0
  addr : Word := 0
  num : Nat := 0
  home : CoreNo := 0
  /-- The request, for a host that answers retry, and whether the host has been told of its refusal (R183, R392). -/
  req : Option Req := none
  told : Bool := false
  deriving DecidableEq, Repr

/-- A park table entry (R180): the request and the cycle it was taken. -/
structure ParkEntry where
  req : Req
  since : Nat
  deriving DecidableEq, Repr

/-- A release window entry (R188). -/
structure WinEntry where
  ha : Nat
  n : Nat
  core : CoreNo
  key : Nat
  scope : Scope
  jpos : Nat
  /-- A widening exchange is under way: the acquires performed whose answers wait for it, and the releases that come again
  when the entry has left. -/
  widening : Bool := false
  evict : Bool := false
  held : List (Req × Resp) := []
  waiters : List Req := []
  deriving DecidableEq, Repr

/-- The arrival of an access at its home (R186): cycle, CINDEX of its source, path and context. -/
structure Arrival where
  cycle : Nat
  cindex : Nat
  path : Path
  ctx : Nat
  deriving DecidableEq, Repr

/-- A cached fetch line (R83, R119): its bytes and the partition it was fetched for. -/
structure Line where
  part : PartKey := {}
  addr : Word
  bits : BitVec 512
  deriving DecidableEq, Repr

/-- A translation (R172, R174): the page's virtual base, size, physical base, plane and permission bits. -/
structure TlbEntry where
  part : PartKey
  va : Nat
  size : Nat
  pa : Nat
  plane : Option Nat
  x : Bool
  w : Bool
  r : Bool
  deriving DecidableEq, Repr

/-- A deque, or one half of it in paired mode (R107 to R110): its items, top (oldest) first, and how many of its top-most
entries lie in the spill area. The resident sets of a core share it; its items carry their set (R362). -/
structure Deque where
  items : List Item := []
  spilled : Nat := 0
  /-- Local takes (R108). -/
  takes : Nat := 0
  /-- A move towards the spill area is under way (R109); one has ended, and the push that began it is still to come. -/
  moving : Bool := false
  opened : Bool := false
  /-- Spawn items taken by thieves whose notices have not come (R113). -/
  lent : Nat := 0
  deriving DecidableEq, Repr

/-- The steal unit (R111, R112). -/
structure Steal where
  backoff : BitVec 8 := 4
  domain : BitVec 2 := 1
  busy : Bool := false
  /-- The CINDEX after which the next round's victims begin, where a steal succeeded; victims asked in this round. -/
  start : Option Nat := none
  asked : Nat := 0
  /-- Rounds begun, and the number of the last one that ended with no item. -/
  begun : Nat := 0
  empty : Nat := 0
  /-- The cycle until which a backoff lasts; 0 for none. -/
  until_ : Nat := 0
  deriving DecidableEq, Repr

/-- A request of the special-function unit (R213): the instruction, its operands and when service began. -/
structure SfuReq where
  key : Nat
  i : Instr
  a : LWord
  b : LWord
  lab : Handle
  pc : Word
  started : Bool := false
  deriving DecidableEq, Repr

/-- A VLOOP (R209): its context, captured slots, iterations left (none while streams last), and position, which is the
body's length between iterations. -/
structure Loop where
  key : Nat
  body : List (Word × Instr)
  left : Option Nat
  at_ : Nat
  /-- The captured instruction at the position has begun. -/
  running : Bool := false
  /-- Stopped by an enabled flag (R217). -/
  stopped : Bool := false
  deriving DecidableEq, Repr

/-- A tile (R249, R250): value and partial words by element number 64·row + column, tag and label. -/
structure Tile where
  elems : List (Nat × (Word × Word)) := []
  tag : Ty := .f32
  lab : Handle := 0
  deriving DecidableEq, Repr

/-- Memory (R20, R150, R179): bytes by home address, handles and empty bits of local store words by word address, and
the barrier objects, true when an ordinary store has left one undefined (R232). -/
structure Store where
  mem : List Host.Cell := []
  tags : List (Nat × Handle) := []
  empties : List Nat := []
  bars : List (Nat × Bool) := []
  /-- Word addresses whose words are uncorrectable (R359). -/
  bad : List Nat := []
  deriving DecidableEq, Repr

/-- Kinds of queued matrix instruction. -/
inductive MatKind where
  | mmul | msca | mslice | mzero | rtest | kset | mctl
  deriving DecidableEq, Repr

/-- An accepted matrix instruction: its operands as read at acceptance (R252, R253). -/
structure MatOp where
  kind : MatKind
  key : Nat
  tok : GReg := 0
  part : PartKey := {}
  tile : Nat := 0
  t : Ty := .i8
  neg : Bool := false
  nacc : Bool := false
  a : Shape := {}
  b : Shape := {}
  /-- B comes from the stream port (R258). -/
  port : Bool := false
  koff : Nat := 0
  klen : Nat := 0
  /-- The sparse k register (R260). -/
  kreg : Option KReg := none
  s : Nat := 0
  /-- gA, gB, and gK or S, at acceptance, and the instruction's word (R275). -/
  x : Word := 0
  y : Word := 0
  z : Word := 0
  instr : BitVec 96 := 0
  rows : Nat := 0
  cols : Nat := 0
  /-- Its number in the acceptance order of the engine (R258). -/
  num : Nat := 0
  deriving DecidableEq, Repr

/-- How far an instruction's operands have been read: not yet, not again since a stop (R383), or all of them. -/
inductive OpStage where
  | first | again | read
  deriving DecidableEq, Repr

/-- The engine state record of a half (R275): the instruction in progress, the operands that it has read, its position
at the last commit, and the wide area. -/
structure MatRun where
  op : MatOp
  stage : OpStage := .first
  /-- Blocks of other local stores read so far, with the handles of their words, by home address, and the one asked for. -/
  got : List (Nat × List Byte × List Handle) := []
  asked : Option Nat := none
  /-- Elements of A and B in element order, or the scales of MSCA; the handles read; whether B is complete (R258). -/
  a : List Nat := []
  b : List Nat := []
  labs : List Handle := []
  ready : Bool := true
  /-- Stream-port bytes taken for B, with their handles. -/
  fed : List (Byte × Handle) := []
  /-- The copy that fed it has ended within the record or faulted (R254, R283). -/
  cut : Bool := false
  /-- Kept K-steps still to do, and the granule at which the skip list began (R260). -/
  steps : List Nat := []
  granule : Nat := 0
  /-- Promotions or passes committed. -/
  pass : Nat := 0
  wide : List (Nat × Int) := []
  /-- Truncated elements (R266). -/
  floor : List Nat := []
  /-- An execution fault: code and address (R254). -/
  stop : Option (Nat × Word) := none
  /-- Done, with the code, count and fault record index of the status. -/
  done : Bool := false
  code : Nat := 0
  count : Nat := 0
  frec : Nat := 0
  deriving DecidableEq, Repr

/-- A half of the matrix engine (R248 to R255, R272). -/
structure Half where
  tiles : Vector Tile 6 := Vector.replicate 6 {}
  queue : List MatOp := []
  run : Option MatRun := none
  /-- Contexts that wait for an entry, by key, the first to come first. -/
  offers : List Nat := []
  counters : Vector Nat 8 := Vector.replicate 8 0
  /-- The unreported fault: code and fault record index (R255). -/
  fault : Option (Nat × Nat) := none
  iter : BitVec 32 := 0
  tol : Word := 0
  bnorm : Word := 0
  cap : BitVec 32 := 0
  pcode : Nat := 3
  /-- Acceptances and completions counted, for R252's waits. -/
  accepted : Nat := 0
  completed : Nat := 0
  deriving DecidableEq, Repr

/-- The matrix engine of a core. -/
structure Matrix where
  split : Bool := false
  rhalf : Bool := false
  h0 : Half := {}
  h1 : Half := {}
  /-- Bytes that the stream port will discard, by the number of the cancelled instruction, and whether it has taken some of
  the record's bytes (R283). -/
  discards : List (Nat × Nat × Bool) := []
  deriving DecidableEq, Repr

/-- Operations of the copy and transform engines (R278, R290). -/
inductive EngKind where
  | cpy | cpyg | cpys
  | xform (n : Nat)
  deriving DecidableEq, Repr

/-- An accepted copy or transform (R280, R286). -/
structure EngOp where
  kind : EngKind
  key : Nat
  tok : GReg
  part : PartKey := {}
  bar : Option Word := none
  opa : Word := 0
  opb : Word := 0
  bytes : Nat := 0
  /-- The gather list (R282): address, index width in bytes, rows and bytes per row. -/
  list : Word := 0
  iw : Nat := 0
  rows : Nat := 0
  rowb : Nat := 0
  src : Shape := {}
  dst : Shape := {}
  pc : Word := 0
  /-- gN, gX or n, and the instruction's word (R286). -/
  cnt : Word := 0
  instr : BitVec 96 := 0
  deriving DecidableEq, Repr

/-- The engine state record (R286): the operation, what is committed, and how it ends. -/
structure EngRun where
  op : EngOp
  /-- Bytes or elements done, and those committed (R286). -/
  pos : Nat := 0
  mark : Nat := 0
  /-- Pieces of other homes that the work after the last commit has read, with the handles of their words, by home
  address; the piece asked for; and the writes sent and not yet answered (R281). -/
  fetched : List (Nat × List Byte × List Handle) := []
  asked : Option Nat := none
  pending : Nat := 0
  /-- Memory as the operation began, which a read may still find in the place of later stores of others (R284). -/
  seen : Store := {}
  /-- Running value of a delta transform, and the next byte of a compressed destination, from its BASE. -/
  val : Nat := 0
  out : Nat := 0
  sat : Nat := 0
  /-- What has been written: home addresses and lengths (R285). -/
  landed : List (Nat × Nat) := []
  /-- A fault that stops the operation: code and address (R285). -/
  stop : Option (Nat × Word) := none
  done : Bool := false
  code : Nat := 0
  frec : Nat := 0
  /-- The arrival of a bound operation has been sent, and answered (R236). -/
  arrived : Bool := false
  answered : Bool := false
  /-- Held at a page fault (R285), which the host has been told of (R392), and acknowledged. -/
  held : Bool := false
  told : Bool := false
  acked : Bool := false
  faultVa : Word := 0
  deriving DecidableEq, Repr

/-- The copy or the transform engine (R278). -/
structure Engine where
  queue : List EngOp := []
  run : Option EngRun := none
  /-- Contexts that wait for an entry, by key, the first to come first. -/
  offers : List Nat := []
  /-- Writes whose homes hold them back from the other paths (R189). -/
  buf : List Req := []
  accepted : Nat := 0
  completed : Nat := 0
  deriving DecidableEq, Repr

/-- An active pair in the rewrite unit: its nodes, and 2·set + tenant. -/
structure RwPair where
  a : Word
  b : Word
  hk : Nat
  deriving DecidableEq, Repr

/-- The pair that the rewrite unit has taken (R304): what it has read, and once a template runs, the nodes in rule order,
the template, the new nodes, the next link (then the nodes to free), and the port words of that link read so far. -/
structure RwRun where
  pair : RwPair
  got : List (List Byte × List Handle) := []
  first : Word := 0
  second : Word := 0
  tmpl : Option (BitVec 256) := none
  news : List Word := []
  link : Nat := 0
  refs : List (BitVec 40) := []
  /-- The access under way, as a context has it: what it is for, the request, its refusals and the cycle at which it is sent
  again; and the code and address of one that failed. -/
  out : Wr := .none
  sent : Option Req := none
  refusals : Nat := 0
  retryAt : Nat := 0
  err : Option (Nat × Word) := none
  deriving DecidableEq, Repr

/-- The rewrite unit (R303, R304): the routine hold, the pair taken for each set (R316), and the free-list heads by set and
tenant (R308). -/
structure Rewrite where
  hold : List RwPair := []
  taken : List RwRun := []
  heads : List (Nat × Word) := []
  deriving DecidableEq, Repr

/-- A label table entry (R142): the handle it forwards to, or its environments in ascending order, and the heap block
that holds five or more of them. -/
structure LEntry where
  fwd : Option Handle := none
  envs : List (BitVec 64) := []
  block : Option Nat := none
  deriving DecidableEq, Repr

/-- A combine cache entry (R139): the operation, the operands and the result. -/
structure Comb where
  union : Bool
  a : Handle
  b : Handle
  r : Handle
  deriving DecidableEq, Repr

/-- A sweep that a core has been told of and not installed yet (R148): the blight table before it, and the entries it
changed as they were. -/
structure Install where
  blight : List (BitVec 64)
  old : List (Nat × LEntry)
  deriving DecidableEq, Repr

/-- What a core's label unit holds for one partition (R139, R145): the combine cache, and the sweeps it has still to
install, oldest first. -/
structure LabelUnit where
  comb : List Comb := []
  installs : List Install := []
  deriving DecidableEq, Repr

/-- A cached group record (R237). -/
structure GroupRec where
  part : PartKey
  id : Nat
  members : List Nat
  deriving DecidableEq, Repr

/-- Held barrier arrivals (R235): the request of the first, the contexts with their journal positions, and the cycle of
the first. -/
structure BarHold where
  req : Req
  joins : List (Nat × Nat)
  since : Nat
  deriving DecidableEq, Repr

/-- A message in the tap buffer (R325). -/
structure TapMsg where
  set : Nat
  /-- A supervisor message (R217), whose PC is read when its handler starts. -/
  supervisor : Bool := false
  pc : Word
  a : LWord
  b : LWord
  src : CoreNo
  ctx : Nat
  ten : Bool
  deriving DecidableEq, Repr

/-- The state of a core. -/
structure CoreSt where
  ctxs : List (Nat × Ctx) := []
  cur : Nat := 0
  /-- Context that issued last, and the cycle it did (R17, R100). -/
  last : Nat := 15
  issued : Option Nat := none
  banks : Vector BankSt 4 := #v[.resident, .empty, .empty, .empty]
  /-- Partition of each set: node and tenant of the leaf, from the installed records (R353, R362). -/
  nodes : Vector (Option (Nat × Bool)) 4 := Vector.replicate 4 none
  /-- Sets whose leaf is in paired mode (R363). -/
  paired : Vector Bool 4 := Vector.replicate 4 false
  assist : BitVec 7 := 0
  rpc : Word := 0
  rcause : Word := 0
  raddr : Word := 0
  rvec : Word := 0
  resident : Vector Resident 4 := Vector.replicate 4 {}
  events : List RootEvent := []
  counters : Vector Word 11 := Vector.replicate 11 0
  freeze : Bool := false
  halted : Bool := false
  /-- A synchronised stop keeps the current set from issuing (R371). -/
  stopped : Bool := false
  /-- Sets that a synchronised stop has descheduled (R393). -/
  off : BitVec 4 := 0
  /-- The cycle from which a set has not been current, for the limits of R372. -/
  offAt : Vector Nat 4 := Vector.replicate 4 0
  /-- Matrix, copy and transform engine state of tenants that are switched out (R275, R286). -/
  engSaved : List (Nat × (Matrix × Engine × Engine)) := []
  lines : List Line := []
  /-- Failed fetch attempts by line (R85). -/
  attempts : List (Nat × Nat) := []
  tlb : List TlbEntry := []
  journal : Vector JEntry 32 := Vector.replicate 32 {}
  jcount : Nat := 0
  parks : List ParkEntry := []
  window : List WinEntry := []
  /-- Contexts whose stores wait for a journal entry, in the order in which they began (R207). -/
  jwait : List Nat := []
  /-- The last access that arrived here from another core (R186). -/
  arrived : Option Arrival := none
  deques : List (Nat × Deque) := []
  steal : Steal := {}
  rewrite : Rewrite := {}
  matrix : Matrix := {}
  copyEng : Engine := {}
  xformEng : Engine := {}
  sfu : List SfuReq := []
  /-- The loops of the resident sets; the sequencer runs the current set's (R218). -/
  loops : List Loop := []
  labels : List (Nat × LabelUnit) := []
  groups : List GroupRec := []
  barHolds : List BarHold := []
  tap : List TapMsg := []
  /-- The tenant that the tap context of each set serves (R353). -/
  tapTen : BitVec 4 := 0
  deriving DecidableEq, Repr

-- Partitions

/-- A NOGOOD whose installs are under way (R148): the issuer, its token, the count, the cores that have not acknowledged,
and for one that recorded nothing its code and fault record index (R158). -/
structure Nogood where
  core : CoreNo
  key : Nat
  tok : GReg
  count : Nat
  waiting : List CoreNo
  code : Nat := 0
  frec : Nat := 0
  deriving DecidableEq, Repr

/-- A rule table entry (R300). -/
structure Rule where
  lo : BitVec 12
  hi : BitVec 12
  swap : Bool
  template : Bool
  pc : Word
  tmpl : BitVec 256 := 0
  deriving DecidableEq, Repr

/-- A partition: its record and the state held once for it (R139, R362). -/
structure PartSt where
  record : BitVec 512 := 0
  /-- Entries of the label table other than the fixed ones and untouched singletons (R143). -/
  table : List (Nat × LEntry) := []
  blight : List (BitVec 64) := []
  nogoods : List Nogood := []
  /-- LFLUSHes performed (R145, R162). -/
  flushes : Nat := 0
  lwindow : BitVec 24 := 0
  rules : List (Nat × Rule) := []
  seq : BitVec 16 := 0
  /-- Entries overwritten before the host read them, and which of the 64 places the host has read since they were written
  (R358). -/
  overwritten : Nat := 0
  hostRead : BitVec 64 := 0
  deriving DecidableEq, Repr

-- Network

/-- An arbitration record (R324). -/
structure Arb where
  age : Nat := 64
  w : Vector Nat 4 := #v[4, 4, 8, 2]
  deriving DecidableEq, Repr

/-- A cluster router (R322 to R325, R372). Lists hold what differs from reset. -/
structure Router where
  /-- Route entries by 16·destination + class, active and shadow. -/
  routes : List (Nat × Nat) := []
  shadow : List (Nat × Nat) := []
  /-- Calendar entries by 64·output + slot. -/
  cal : List (Nat × BitVec 16) := []
  /-- Arbitration records by 1024·output + node. -/
  arbs : List (Nat × Arb) := []
  /-- Credits and the VC served last, by 1024·output + node. -/
  credit : List (Nat × Vector Nat 4) := []
  last : List (Nat × Nat) := []
  /-- CALSET writes that wait to take effect (R375): output, slot or node, record or entry, value, from which cycle. -/
  pend : List (Nat × Nat × Bool × Nat × Nat) := []
  /-- Failed sends of the flit at an output (R359), and links reported as failed (R360). -/
  fails : List (Nat × Nat) := []
  dead : List Nat := []
  /-- Partitions that sent a flit from an output in this cycle, for the ageing of R325: cycle, output and node. -/
  sentAt : List (Nat × Nat × Nat) := []
  /-- The slot an output last served, counted on from cycle 0 (R324). -/
  slotAt : List (Nat × Nat) := []
  /-- Flits counted into the save bins and dropped from them (R371, R372). -/
  binned : Nat := 0
  dropped : Nat := 0
  deriving DecidableEq, Repr

-- The package and the host side

/-- A request of the partition controller (R365). -/
structure CtrlReq where
  core : CoreNo
  key : Nat
  tok : GReg
  merge : Bool
  node : Nat
  recs : List (BitVec 512) := []
  addr : Word := 0
  pc : Word := 0
  deriving DecidableEq, Repr

/-- A synchronised stop (R370, R371). -/
structure Stop where
  node : Nat
  next : Nat
  discard : Bool
  at_ : Nat
  /-- T′ has come, and the sets that were stopped. -/
  begun : Bool := false
  /-- The core of the SSTOP; none for the controller's own stops. -/
  core : Option CoreNo := none
  /-- The function whose disable or migration asked for it (R394, R395). -/
  fn : Option Nat := none
  deriving DecidableEq, Repr

/-- A route swap (R323, R374). -/
structure Swap where
  core : CoreNo
  key : Nat
  tok : GReg
  classes : BitVec 16
  at_ : Nat
  confirm : Bool
  recorded : Bool := false
  deriving DecidableEq, Repr

/-- An event record before it is written (R391); what its DETAIL holds is left open, but for a resident-handler event
(log 50). -/
structure EvRec where
  kind : Nat
  code : Nat := 0
  core : CoreNo := 0
  ctx : Nat := 0
  addr : Word := 0
  cycle : Nat := 0
  gen : BitVec 16 := 0
  /-- The record's DETAIL, where the model fills it. -/
  detail : Option Word := none
  deriving DecidableEq, Repr

/-- An accepted launch message (R389), or what is left of it for one target: its target (none floods) and item, its
refusals, the cycle it may be sent again, and the number of the flooded message that it is a part of, 0 for none. -/
structure Launch where
  target : Option CoreNo
  item : Item
  tries : Nat := 0
  retryAt : Nat := 0
  flood : Nat := 0
  deriving DecidableEq, Repr

/-- A write to a launch window (R389): its offset, length and data. -/
structure LaunchWrite where
  off : Nat
  len : Nat
  data : BitVec 256
  deriving DecidableEq, Repr

/-- A virtual function (R387, R388, R389). -/
structure VFn where
  evbase : Word := 0
  key : BitVec 32 := 0
  gen : BitVec 16 := 0
  node : Nat := 0
  ten : Bool := false
  mig : Bool := false
  en : Bool := false
  /-- EN was set again while a scrub runs (R395). -/
  enLater : Bool := false
  evhead : Nat := 0
  evtail : Nat := 0
  vfstat : Nat := 0
  evdrop : Nat := 0
  lrefuse : Nat := 0
  launches : List Launch := []
  /-- Writes that wait for the launch window's credit (R389), the first first. -/
  writes : List LaunchWrite := []
  /-- The node and tenant that a reset or disable in progress is about (R395). -/
  ending : Option (Nat × Bool) := none
  events : List EvRec := []
  msix : Nat := 0
  deriving DecidableEq, Repr

/-- What CSAVE leaves that the cellar bank's architected part does not hold (R366): contexts by number, the sequencer's
own under 64 more, the loops, the tap context's message buffer, and the resident handler's state. -/
structure Cellar where
  ctxs : List (Nat × Ctx) := []
  loops : List Loop := []
  tap : List TapMsg := []
  resident : Resident := {}
  deriving DecidableEq, Repr

/-- A package: its counter's origin, configuration, controller and functions. -/
structure Pkg where
  base : Nat := 0
  /-- Second-tier capacity by port, where it differs from 512 GiB (R396). -/
  caps : List (Nat × Nat) := []
  ctrl : List CtrlReq := []
  stops : List Stop := []
  swap : Option Swap := none
  fns : List (Nat × VFn) := []
  recovery : Bool := false
  powerHalt : Bool := false
  /-- Failed sends of the flit at a peer link, and peer links that have failed (R359, R360, R396). -/
  peerFails : List (Nat × Nat) := []
  peerDead : List Nat := []
  /-- Reports of failed links, and the report of an SPDM request (R360, R397). -/
  reports : Nat := 0
  spdm : List Word := []
  /-- Restored images' un-architected parts, by the key kept in the record (R366, log 21). -/
  saved : List (Nat × Cellar) := []
  nextSave : Nat := 1
  deriving DecidableEq, Repr

-- Memory

/-- What an unlisted byte of memory reads as (DESIGN CHOICE, log 1). -/
def unlistedByte : Byte := 0

/-- The canonical form of memory: addresses strictly rising, and no entry that an unlisted byte equals. -/
def Memory.wf : List Host.Cell → Bool
  | [] => true
  | [(_, v)] => v != unlistedByte
  | (a, v) :: (b, w) :: t => v != unlistedByte && decide (a < b) && Memory.wf ((b, w) :: t)

-- Turns

/-- What happens next: an event, a context's issue, nothing, or something of the world outside that is no event. -/
inductive What where
  | event (i : Instr)
  | issue (core : CoreNo) (ctx : CtxNo)
  | pass
  /-- A soft error corrected by a core, a word that becomes uncorrectable (R359), and the host's reading of an error log
  entry (R358): the world outside (log 25). -/
  | soft (core : CoreNo)
  | spoil (word : Nat)
  | logRead (part : PartKey) (entry : Fin 64)
  deriving DecidableEq, Repr

/-- A turn of the machine: the cycles that pass before it, and what it does (log 3, log 4). -/
structure Turn where
  cycles : Nat
  what : What
  deriving DecidableEq, Repr

/-- The whole machine. -/
structure State where
  store : Store := {}
  cores : List (Nat × CoreSt) := []
  parts : List (PartKey × PartSt) := []
  msgs : List Msg := []
  flits : List Flit := []
  /-- Next sequence numbers to give and to deliver, by triple (R320). -/
  seqs : List (Nat × (Nat × Nat)) := []
  /-- Sequence numbers of messages that left the network before their turn, by triple. -/
  gone : List (Nat × Nat) := []
  nextMsg : Nat := 0
  routers : List (Nat × Router) := []
  pkgs : List (Nat × Pkg) := []
  /-- Packages joined by peer links (R13). -/
  packages : Nat := 1
  /-- Cycles since the first reset; a package's CYCLE is this less its origin (R350, log 3). -/
  cycle : Nat := 0
  /-- Cycles a turn takes when the agenda does not say (log 3). -/
  pace : Nat := 1
  agenda : List Turn := []
  /-- The context that an instruction's meaning acts for (log 4). -/
  core : CoreNo := 0
  ctx : CtxNo := 0
  /-- The key of the acting context where it is not `ctx` of the core's current set: a context of another resident set,
  or the sequencer's own (R209), whose key is 64 more than its context's. -/
  asKey : Option Nat := none
  /-- The counter that free values are drawn with. -/
  tick : Nat := 0
  deriving DecidableEq, Repr

/-- The machine right after module reset (R329, R346, R367, R397): every buddy-tree node free, bank 0 of every core
RESIDENT, every context IDLE, memory with nothing listed. -/
def State.reset : State := {}

end Sys2Proof.Machine
end

