-- ==== Sys2Proof/Machine/Ops.lean ====
section
/-!
DEFINITION. The named operations over the state that every family uses: core numbers and scopes, accessors, bytes and
words of memory, partition records, the error log and event records, retiring an instruction, and taking and returning
from an exception.
-/
namespace Sys2Proof.Machine

-- Core numbers (R13 to R15, R187)

/-- The number of a core from its parts (R13). -/
def mkCore (pkg die cluster slot : Nat) : CoreNo := BitVec.ofNat 20 (pkg * 16384 + die * 1024 + cluster * 64 + slot)
/-- PKG (R13). -/
def pkgOf (c : CoreNo) : Nat := c.toNat / 16384
/-- DIE (R13). -/
def dieOf (c : CoreNo) : Nat := c.toNat / 1024 % 16
/-- CLUSTER (R13). -/
def clusterOf (c : CoreNo) : Nat := c.toNat / 64 % 16
/-- SLOT (R13). -/
def slotOf (c : CoreNo) : Nat := c.toNat % 64
/-- A compute core (R12). -/
def isCompute (c : CoreNo) : Bool := decide (dieOf c < 8) && decide (slotOf c < 16)
/-- A channel core (R12). -/
def isChannel (c : CoreNo) : Bool := decide (dieOf c < 8) && (slotOf c == 16 || slotOf c == 17)
/-- A far channel core (R12). -/
def isFar (c : CoreNo) : Bool := dieOf c == 8 && clusterOf c == 0 && decide (slotOf c < 16)
/-- A core number that names a core (R14). -/
def assigned (s : State) (c : CoreNo) : Bool :=
  decide (pkgOf c < s.packages) && (isCompute c || isChannel c || isFar c)
/-- CINDEX (R15). -/
def cindex (c : CoreNo) : Nat :=
  if isCompute c then 256 * dieOf c + 16 * clusterOf c + slotOf c
  else if isChannel c then 2048 + 32 * dieOf c + 2 * clusterOf c + (slotOf c - 16)
  else 2304 + slotOf c
/-- The compute core of a CINDEX below 2,048 (R15). -/
def coreOfIndex (pkg i : Nat) : CoreNo := mkCore pkg (i / 256) (i / 16 % 16) (i % 16)
/-- Whether core `b` lies in the scope of core `a` (R187); the host counts as `none` of these. -/
def inScope (sc : Scope) (a b : CoreNo) : Bool :=
  match sc with
  | .co => a == b
  | .cl => pkgOf a == pkgOf b && dieOf a == dieOf b && clusterOf a == clusterOf b
  | .di => pkgOf a == pkgOf b && dieOf a == dieOf b
  | .pk => pkgOf a == pkgOf b
  | .sy => true
/-- The narrowest scope that holds both cores (R53, R179). -/
def narrowest (a b : CoreNo) : Scope :=
  if a = b then .co
  else if inScope .cl a b then .cl
  else if inScope .di a b then .di
  else if inScope .pk a b then .pk
  else .sy

-- Accessors

/-- A core's state. -/
def State.coreAt (s : State) (c : CoreNo) : CoreSt := (assoc s.cores c.toNat).getD {}
/-- Put a core's state back. -/
def State.setCore (s : State) (c : CoreNo) (v : CoreSt) : State := { s with cores := assocSet s.cores c.toNat v }
/-- Change a core's state. -/
def State.modCore (s : State) (c : CoreNo) (f : CoreSt → CoreSt) : State := s.setCore c (f (s.coreAt c))
/-- The key of a context of the core's current set. -/
def CoreSt.key (c : CoreSt) (n : CtxNo) : Nat := 16 * c.cur + n.val
/-- The number of a context key. -/
def keyNo (k : Nat) : CtxNo := Fin.ofNat 16 k
/-- The set of a context key. -/
def keySet (k : Nat) : Nat := k % 64 / 16
/-- The context that a key belongs to, the sequencer's own taken as its context's (R209). -/
def realKey (k : Nat) : Nat := k % 64
/-- A context by its key. -/
def CoreSt.ctxAt (c : CoreSt) (k : Nat) : Ctx := (assoc c.ctxs k).getD {}
/-- Put a context back. -/
def CoreSt.setCtx (c : CoreSt) (k : Nat) (v : Ctx) : CoreSt := { c with ctxs := assocSet c.ctxs k v }
/-- A core on which contexts and units go on (R360, R371). -/
def CoreSt.live (c : CoreSt) : Bool := !c.halted && !c.stopped

/-- A context by core and key. -/
def State.ctxAt (s : State) (c : CoreNo) (k : Nat) : Ctx := (s.coreAt c).ctxAt k
/-- Put a context back. -/
def State.setCtx (s : State) (c : CoreNo) (k : Nat) (v : Ctx) : State := s.modCore c fun x => x.setCtx k v
/-- Change a context. -/
def State.modCtx (s : State) (c : CoreNo) (k : Nat) (f : Ctx → Ctx) : State := s.setCtx c k (f (s.ctxAt c k))
/-- The key of the acting context. -/
def State.key (s : State) : Nat := s.asKey.getD ((s.coreAt s.core).key s.ctx)
/-- Do something with another context acting. -/
def State.asCtx (s : State) (core : CoreNo) (key : Nat) (f : State → State) : State :=
  { f { s with core := core, asKey := some key } with core := s.core, ctx := s.ctx, asKey := s.asKey }
/-- The acting context. -/
def State.me (s : State) : Ctx := s.ctxAt s.core s.key
/-- Change the acting context. -/
def State.modMe (s : State) (f : Ctx → Ctx) : State := s.modCtx s.core s.key f
/-- The acting core. -/
def State.here (s : State) : CoreSt := s.coreAt s.core
/-- Change the acting core. -/
def State.modHere (s : State) (f : CoreSt → CoreSt) : State := s.modCore s.core f
/-- A package. -/
def State.pkgAt (s : State) (p : Nat) : Pkg := (assoc s.pkgs p).getD {}
/-- Change a package. -/
def State.modPkg (s : State) (p : Nat) (f : Pkg → Pkg) : State :=
  { s with pkgs := assocSet s.pkgs p (f (s.pkgAt p)) }
/-- A virtual function. -/
def State.fnAt (s : State) (p v : Nat) : VFn := (assoc (s.pkgAt p).fns v).getD {}
/-- Change a virtual function. -/
def State.modFn (s : State) (p v : Nat) (f : VFn → VFn) : State :=
  s.modPkg p fun x => { x with fns := assocSet x.fns v (f ((assoc x.fns v).getD {})) }
/-- A router. -/
def State.routerAt (s : State) (r : Nat) : Router := (assoc s.routers r).getD {}
/-- Change a router. -/
def State.modRouter (s : State) (r : Nat) (f : Router → Router) : State :=
  { s with routers := assocSet s.routers r (f (s.routerAt r)) }
/-- CYCLE of a package (R350). -/
def State.cycleOf (s : State) (p : Nat) : Nat := s.cycle - (s.pkgAt p).base
/-- A g register; g0 reads zero with the empty label (R79). -/
def Ctx.g (c : Ctx) (r : GReg) : LWord := if r = 0 then {} else c.regs.g[r]
/-- Write a g register; a write of g0 is discarded (R79). -/
def Ctx.setG (c : Ctx) (r : GReg) (v : LWord) : Ctx :=
  if r = 0 then c else { c with regs := { c.regs with g := c.regs.g.set r v } }
/-- An f register. -/
def Ctx.f (c : Ctx) (r : FReg) : LWord := c.regs.f[r]
/-- Write an f register. -/
def Ctx.setF (c : Ctx) (r : FReg) (v : LWord) : Ctx := { c with regs := { c.regs with f := c.regs.f.set r v } }
/-- A v register. -/
def Ctx.v (c : Ctx) (r : Fin 8) : VReg := c.regs.v[r]
/-- Write a v register. -/
def Ctx.setV (c : Ctx) (r : Fin 8) (v : VReg) : Ctx := { c with regs := { c.regs with v := c.regs.v.set r v } }
/-- An m register. -/
def Ctx.m (c : Ctx) (r : MReg) : MaskReg := c.regs.m[r]
/-- Write an m register. -/
def Ctx.setM (c : Ctx) (r : MReg) (v : MaskReg) : Ctx := { c with regs := { c.regs with m := c.regs.m.set r v } }
/-- Write a k register. -/
def Ctx.setK (c : Ctx) (r : KReg) (v : KSkip) : Ctx := { c with regs := { c.regs with k := c.regs.k.set r v } }
/-- Add one to a counter of R348, by its number less 0x20. -/
def CoreSt.count (c : CoreSt) (i : Fin 11) : CoreSt := { c with counters := c.counters.set i (c.counters[i] + 1) }
/-- Draw a fresh free value's index. -/
def State.draw (s : State) : Nat × State := (s.tick, { s with tick := s.tick + 1 })

-- Partitions (R353, R361 to R364)

/-- A partition's state. -/
def State.partAt (s : State) (k : PartKey) : PartSt :=
  match s.parts.find? (fun p => p.1 == k) with
  | some p => p.2
  | none => {}
/-- Put a partition's state back. -/
def State.setPart (s : State) (k : PartKey) (v : PartSt) : State :=
  { s with parts := if s.parts.any (fun p => p.1 == k) then s.parts.map (fun p => if p.1 == k then (k, v) else p)
    else s.parts ++ [(k, v)] }
/-- Change a partition's state. -/
def State.modPart (s : State) (k : PartKey) (f : PartSt → PartSt) : State := s.setPart k (f (s.partAt k))
/-- A field of a partition record (R362). -/
def PartSt.fld (p : PartSt) (lo n : Nat) : Nat := (p.record.extractLsb' lo n).toNat
/-- V (R362). -/
def PartSt.valid (p : PartSt) : Bool := p.record.getLsbD 63
/-- MGMT (R362). -/
def PartSt.mgmt (p : PartSt) : Bool := p.record.getLsbD 64
/-- SAVE. -/
def PartSt.save (p : PartSt) : Nat := p.fld 455 57
/-- ELOG. -/
def PartSt.elog (p : PartSt) : Nat := p.fld 398 57
/-- GTAB. -/
def PartSt.gtab (p : PartSt) : Nat := p.fld 284 57
/-- RTAB. -/
def PartSt.rtab (p : PartSt) : Nat := p.fld 341 57
/-- LHEAP. -/
def PartSt.lheap (p : PartSt) : Nat := p.fld 227 57
/-- LTAB. -/
def PartSt.ltab (p : PartSt) : Nat := p.fld 170 57
/-- TROOT. -/
def PartSt.troot (p : PartSt) : Nat := p.fld 113 57
/-- LHBLK. -/
def PartSt.lhblk (p : PartSt) : Nat := p.fld 89 24
/-- LHOME. -/
def PartSt.lhome (p : PartSt) : CoreNo := p.record.extractLsb' 69 20
/-- RCLASS. -/
def PartSt.rclass (p : PartSt) : Nat := p.fld 65 4
/-- PEER. -/
def PartSt.peer (p : PartSt) : Nat := p.fld 27 16
/-- LSHI. -/
def PartSt.lshi (p : PartSt) : Nat := p.fld 19 8
/-- LSLO. -/
def PartSt.lslo (p : PartSt) : Nat := p.fld 11 8

/-- The tenant that a context serves (R363): by number in a paired leaf, by event in the resident handler, and by item or
message for the root and tap contexts otherwise. -/
def CoreSt.tenOf (c : CoreSt) (key : Nat) : Bool :=
  if (c.paired[keySet key]?).getD false then
    let r := c.resident[keySet key]?.getD {}
    if key % 16 = 0 ∧ r.held then r.ten
    else if key % 16 = 0 then (match (c.ctxAt key).item with | some i => i.ten | none => false)
    else if key % 16 = 15 then c.tapTen.getLsbD (keySet key)
    else decide (8 ≤ key % 16)
  else false
/-- The resident handler of an interrupt bars a context of the current set from issue until its ERET or a switch (R354). -/
def CoreSt.irqHolds (c : CoreSt) (key : Nat) : Bool :=
  let r := c.resident[c.cur]?.getD {}
  r.held && r.irq && key % 16 != 0
/-- The partition of a context (R353). -/
def State.partKey (s : State) (core : CoreNo) (key : Nat) : PartKey :=
  let c := s.coreAt core
  match (c.nodes[keySet key]?).getD none with
  | some (n, _) => { pkg := pkgOf core, node := n, ten := c.tenOf (realKey key), set := keySet key }
  | none => { pkg := pkgOf core, node := 0, ten := false, set := keySet key }
/-- The partition of the acting context. -/
def State.part (s : State) : PartKey := s.partKey s.core s.key
/-- Whether a node covers the leaf of a CINDEX (R361). -/
def covers (node i : Nat) : Bool :=
  let leaf := 512 + i / 4
  (List.range 10).any fun d => leaf / 2 ^ d == node
/-- The compute cores of a node (R361). -/
def coresOf (pkg node : Nat) : List CoreNo :=
  ((List.range 2048).filter (covers node)).map (coreOfIndex pkg)
/-- A core of a partition (R361, R362). -/
def State.inPart (s : State) (k : PartKey) (c : CoreNo) : Bool :=
  isCompute c && pkgOf c == k.pkg && (match ((s.coreAt c).nodes[k.set]?).getD none with
    | some (n, _) => n == k.node
    | none => false)
/-- Whether a core belongs to a peer partition of another package (R364). -/
def State.inPeer (s : State) (k : PartKey) (c : CoreNo) : Bool :=
  let v := (s.partAt k).peer
  v != 0 && isCompute c && pkgOf c != k.pkg &&
    s.parts.any fun p => p.1.pkg == pkgOf c && p.2.valid && p.2.peer == v && s.inPart p.1 c
/-- The peer partition that a core of another package belongs to. -/
def State.peerPart (s : State) (k : PartKey) (c : CoreNo) : PartKey :=
  match s.parts.find? (fun p => p.1.pkg == pkgOf c && p.2.valid && p.2.peer == (s.partAt k).peer && s.inPart p.1 c) with
  | some p => p.1
  | none => { pkg := pkgOf c }
/-- The reach of a partition (R364). -/
def State.inReach (s : State) (k : PartKey) (c : CoreNo) : Bool := s.inPart k c || s.inPeer k c

-- Memory (R2, R20, R150, R179)

/-- The byte at an address. -/
def Memory.get : List Host.Cell → Nat → Byte
  | [], _ => unlistedByte
  | (b, v) :: t, a => if b = a then v else if a < b then unlistedByte else Memory.get t a
/-- Memory with a byte written, in canonical form. -/
def Memory.set : List Host.Cell → Nat → Byte → List Host.Cell
  | [], a, x => if x = unlistedByte then [] else [(a, x)]
  | (b, v) :: t, a, x =>
    if b = a then (if x = unlistedByte then t else (a, x) :: t)
    else if a < b then (if x = unlistedByte then (b, v) :: t else (a, x) :: (b, v) :: t)
    else (b, v) :: Memory.set t a x
/-- Memory with bytes written from an address on. -/
def Memory.setBytes (m : List Host.Cell) (a : Nat) : List Byte → List Host.Cell
  | [] => m
  | x :: xs => Memory.setBytes (Memory.set m a x) (a + 1) xs
/-- The byte at a home address. -/
def State.byteAt (s : State) (a : Nat) : Byte := Memory.get s.store.mem a
/-- `n` bytes from a home address on. -/
def State.bytesAt (s : State) (a n : Nat) : List Byte := (List.range n).map fun i => s.byteAt (a + i)
/-- The little-endian value of `n` bytes (R2). -/
def State.natAt (s : State) (a n : Nat) : Nat := leNat (s.bytesAt a n)
/-- Write bytes at a home address. -/
def State.putBytes (s : State) (a : Nat) (bs : List Byte) : State :=
  { s with store := { s.store with mem := Memory.setBytes s.store.mem a bs } }
/-- Write a value of `n` bytes (R2). -/
def State.putNat (s : State) (a n x : Nat) : State := s.putBytes a (leBytes n x)
/-- Write the bytes whose mask bit is set. -/
def State.putMasked (s : State) (a mask : Nat) (bs : List Byte) : State :=
  let rec go (i : Nat) (s : State) : List Byte → State
    | [] => s
    | b :: t => go (i + 1) (if mask.testBit i then s.putBytes (a + i) [b] else s) t
  go 0 s bs

/-- The first home address of local stores: the local-store window (R168). -/
def lsBase : Nat := 0x1FF000000000000
/-- The home address of a local offset of a core. -/
def lsAddr (c : CoreNo) (off : Nat) : Nat := lsBase + c.toNat * 1048576 + off % 1048576
/-- A home address that lies in a local store. -/
def isLs (ha : Nat) : Bool := decide (lsBase ≤ ha)
/-- The home core of a home address (R168, R169). -/
def homeOf (ha : Nat) : CoreNo :=
  if isLs ha then BitVec.ofNat 20 (ha / 1048576)
  else if ha / 2 ^ 48 % 8 = 0 then
    mkCore (ha / 2 ^ 51) (ha / 2 ^ 37 % 8) (ha / 256 % 32 / 2) (16 + ha / 256 % 2)
  else mkCore (ha / 2 ^ 51) 8 0 (ha / 4096 % 16)
/-- The handle stored with a local store word (R150). -/
def State.tagAt (s : State) (ha : Nat) : Handle := (assoc s.store.tags (ha / 4)).getD 0
/-- Write the handle of a local store word. -/
def State.putTag (s : State) (ha : Nat) (h : Handle) : State :=
  { s with store := { s.store with
      tags := if h = 0 then assocDel s.store.tags (ha / 4) else assocSet s.store.tags (ha / 4) h } }
/-- The full-empty bit of a local store word: true when full (R179). -/
def State.fullAt (s : State) (ha : Nat) : Bool := !(s.store.empties.contains (ha / 4))
/-- Set the full-empty bit of a local store word. -/
def State.putFull (s : State) (ha : Nat) (full : Bool) : State :=
  { s with store := { s.store with
      empties := if full then s.store.empties.filter (· != ha / 4)
        else if s.store.empties.contains (ha / 4) then s.store.empties
        else (s.store.empties.filter (· < ha / 4)) ++ [ha / 4] ++ (s.store.empties.filter (ha / 4 < ·)) } }
/-- The capacity of a second-tier port (R396; 512 GiB where the host set none, log 28). -/
def Pkg.cap (p : Pkg) (port : Nat) : Nat := (assoc p.caps port).getD (512 * 2 ^ 30)
/-- A physical address that names memory (R169). -/
def State.paOk (s : State) (pa : Nat) : Bool :=
  decide (pa / 2 ^ 51 < s.packages) &&
  (match pa / 2 ^ 48 % 8 with
    | 0 => pa / 2 ^ 40 % 256 == 0 && decide (pa % 2 ^ 37 < 80000000000)
    | 1 => decide (pa % 2 ^ 48 / 65536 * 4096 + pa % 4096 < (s.pkgAt (pa / 2 ^ 51)).cap (pa / 4096 % 16))
    | 2 => true
    | _ => false)

-- The error log and event records (R358, R391)

/-- The function that owns a partition (R387). -/
def State.fnOf (s : State) (k : PartKey) : Option Nat :=
  match (s.pkgAt k.pkg).fns.find? (fun p => p.2.node == k.node && p.2.ten == k.ten) with
  | some p => some p.1
  | none => none
/-- Hold an event record for the function of a partition (R391). A partition that no function owns has nobody to
tell. -/
def State.postEvent (s : State) (k : PartKey) (r : EvRec) : State :=
  match s.fnOf k with
  | some v => s.modFn k.pkg v fun f =>
      { f with events := f.events ++ [{ r with gen := f.gen, cycle := s.cycleOf k.pkg }] }
  | none => s
/-- Write an error log entry and answer its SEQ (R358). The log of a partition without a valid record is nowhere. -/
def State.logError (s : State) (k : PartKey) (code : Nat) (addr : Word) (core : CoreNo) (ctx : Nat) (pc : Word) :
    Nat × State :=
  let p := s.partAt k
  if p.valid then
    let q := p.seq.toNat
    let a := p.elog + 32 * (q % 64)
    let unread := (s.byteAt a).getLsbD 0 && !p.hostRead.getLsbD (q % 64)
    let x := 1 + q * 2 ^ 16 + code * 2 ^ 32 + ctx % 16 * 2 ^ 40 + core.toNat * 2 ^ 44 + addr.toNat * 2 ^ 64
      + pc.toNat * 2 ^ 128 + s.cycleOf k.pkg % 2 ^ 64 * 2 ^ 192
    (q, (s.putNat a 32 x).modPart k fun p =>
      { p with seq := p.seq + 1, overwritten := if unread then p.overwritten + 1 else p.overwritten
               hostRead := p.hostRead &&& ~~~(1#64 <<< (q % 64)) })
  else (0, s)

-- Instruction addresses (R86)

/-- The following instruction in program order. -/
def nextPc (pc : Word) : Word := if pc &&& 7 = 4 then (pc &&& ~~~7#64) + 64 else pc + 1
/-- The line of an instruction address. -/
def lineOf (pc : Word) : Word := pc &&& ~~~63#64
/-- The slot of an instruction address. -/
def slotNo (pc : Word) : Nat := pc.toNat % 8
/-- The target of a displacement, none outside the 57-bit space (R116). -/
def dispTarget (pc : Word) (disp : BitVec 40) : Option Word :=
  let i : Int := (5 * (pc.toNat / 64) + pc.toNat % 8 : Nat) + disp.toInt
  if i < 0 then none
  else
    let n := i.toNat
    let a := n / 5 * 64 + n % 5
    if a < 2 ^ 57 then some (BitVec.ofNat 64 a) else none

-- Contexts leaving and joining the rotation

/-- Put a context in WAIT. -/
def State.waitCtx (s : State) (core : CoreNo) (key : Nat) (w : Why) : State :=
  s.modCtx core key fun c => { c with run := .wait w }
/-- Put a context in PARK, counting from now. -/
def State.parkCtx (s : State) (core : CoreNo) (key : Nat) (p : ParkWhy) : State :=
  s.modCtx core key fun c => { c with run := .park p, since := s.cycleOf (pkgOf core) }
/-- Return a context to the rotation without retiring its instruction, which issues again. -/
def State.rejoin (s : State) (core : CoreNo) (key : Nat) : State :=
  s.modCtx core key fun c => { c with run := .run }
/-- Put the acting context in WAIT; its instruction issues again when it rejoins. -/
def State.wait (s : State) (w : Why) : State := s.waitCtx s.core s.key w

/-- Whether the instruction that runs leaves its pair open when it retires: the first slot, or the second where it runs
before the first (R90). -/
def Ctx.firstOfPair (c : Ctx) : Bool :=
  match c.pair with
  | some p => (p.stage == .forward && p.first == c.pc) || p.stage == .second
  | none => false
/-- Where a context goes on when its instruction has retired to an address. -/
def Ctx.goesTo (c : Ctx) (pc : Word) : Word :=
  match c.pair with
  | some p => match p.stage with
    | .second => p.first
    | .last => nextPc pc
    | _ => pc
  | none => pc
/-- The pair of a context whose instruction has retired. -/
def Ctx.pairOn (c : Ctx) : Option PairSt :=
  if c.firstOfPair then c.pair.map fun p => { p with held := .none, stage := if p.stage = .second then .last else p.stage }
  else none
/-- A push that the second instruction of a pair has held back until the first retires (R212). -/
def Ctx.heldOn (c : Ctx) : Wr := if c.firstOfPair then (match c.pair with | some p => p.held | none => .none) else .none
/-- A context whose instruction has retired: the pc moves on, what the instruction held is let go, and a single step
ends (R377). The first instruction of a pair leaves the pair open. -/
def Ctx.retireTo (c : Ctx) (pc : Word) : Ctx :=
  { c with
    pc := c.goesTo pc
    run := .run
    out := c.heldOn
    sent := none
    resp := none
    refusals := 0
    goal := []
    fetched := []
    memo := if c.firstOfPair then c.memo else []
    fflags := if c.firstOfPair then c.fflags else c.fflags ||| c.raised
    raised := if c.firstOfPair then c.raised else 0
    dbg := { c.dbg with pass := false, met := false }
    inst := if c.firstOfPair then c.inst else none
    pair := c.pairOn
    stopped := c.stopped || (c.dbg.step && !c.firstOfPair) }
/-- Retire to the next instruction. -/
def Ctx.retire (c : Ctx) : Ctx := c.retireTo (nextPc c.pc)

-- Exceptions (R340 to R346, R352, R360)

/-- The address EPC names: the first slot of a pair (R342). -/
def Ctx.epcOf (c : Ctx) : Word := match c.pair with | some p => p.first | none => c.pc
/-- Whether the second instruction of a pair is the one that runs. -/
def Ctx.slot2 (c : Ctx) : Bool := match c.pair with | some p => p.stage == .trial || p.first != c.pc | none => false
/-- A context as it was before its pair began: registers and streams are put back (R90). -/
def Ctx.undone (c : Ctx) : Ctx :=
  match c.pair with
  | some p => { c with regs := p.undo.getD c.regs, streams := p.streams.getD c.streams }
  | none => c
/-- ECAUSE (R340). -/
def ecauseOf (trap : Nat) (async slot2 : Bool) (detail : Nat) : Word :=
  BitVec.ofNat 64 (trap * 2 ^ 24 + (if async then 2 ^ 23 else 0) + (if slot2 then 2 ^ 22 else 0) + detail % 65536)
/-- An event in the order in which they are taken (R352): that of arrival, but that a double trap comes before an interrupt of
its cycle (R380). -/
def placeEvent (e : RootEvent) : List RootEvent → List RootEvent
  | [] => [e]
  | x :: t =>
    if e.trap = 0x22 ∧ x.trap = 0x23 ∧ x.set = e.set ∧ x.cycle = e.cycle then e :: x :: t else x :: placeEvent e t
/-- Tell the root context of a core an event (R352); with RVEC 0 the host gets an event record in its place, with the
context that the event is about and in DETAIL what RCAUSE would have held (log 50). -/
def State.tellRoot (s : State) (core : CoreNo) (set : Nat) (e : RootEvent) : State :=
  let c := s.coreAt core
  if c.rvec = 0 then
    s.postEvent { s.partKey core (16 * set) with ten := e.ten }
      { kind := 7, core := core, ctx := if e.trap = 0x23 then 0 else e.detail, addr := e.addr,
        detail := some (ecauseOf e.trap false false e.detail) }
  else s.modCore core fun c => { c with events := placeEvent { e with set := set, cycle := s.cycle } c.events }
/-- A machine check of the core (R360): it halts and the host is told. -/
def State.haltCore (s : State) (core : CoreNo) : State :=
  (s.postEvent (s.partKey core (16 * (s.coreAt core).cur)) { kind := 8, core := core }).modCore core
    fun c => { c with halted := true }
/-- A double trap (R344): the context parks with no wake condition and keeps its first trap; the root gets event
0x22. A double trap of the root context is a machine check of the core. -/
def State.doubleTrap (s : State) (core : CoreNo) (key : Nat) (pc : Word) : State :=
  let s := s.modCtx core key fun c => { c with run := .park .dead, pair := none, inst := none }
  if key % 16 = 0 then s.haltCore core
  else s.tellRoot core (key / 16) { trap := 0x22, detail := key % 16, addr := pc, ten := (s.coreAt core).tenOf (realKey key) }
/-- Take a trap in a context (R342, R343): EPC, ECAUSE and EADDR are written, EHELD is set and the pc goes to TVEC under
the target check. `next` puts Next(PC) in EPC. With EHELD already 1 the first trap stands and the trap is a double trap;
with TVEC 0 it is a double trap whose own values stand (DEDUCED, log 29). A precise trap inside the resident handler is
a machine check of the core (R344). What a pair has written to registers and streams is put back (R90). -/
def State.trapCtx (s : State) (core : CoreNo) (key : Nat) (trap detail : Nat) (eaddr : Word) (next async : Bool) :
    State :=
  let c := s.ctxAt core key
  let epc := if next then nextPc c.pc else if async then c.pc else c.epcOf
  let base : Ctx := { (if next then c else c.undone) with
    run := .run, out := .none, sent := none, resp := none, memo := [], pair := none, inst := none, enter := none
    refusals := 0, raised := 0, goal := [], fetched := [], replay := false
    dbg := { c.dbg with met := false, pass := false }
    stopped := c.stopped || c.dbg.step }
  if key % 16 = 0 ∧ ((s.coreAt core).resident[key / 16]?.getD {}).held then
    (s.setCtx core key { base with run := .park .dead }).haltCore core
  else if c.eheld then
    (s.setCtx core key base).doubleTrap core key c.pc
  else
    let t : Ctx := { base with epc := epc, ecause := ecauseOf trap async (!async && c.slot2) detail, eaddr := eaddr }
    if c.tvec = 0 then (s.setCtx core key t).doubleTrap core key c.pc
    else s.setCtx core key { t with eheld := true, pc := c.tvec, enter := some c.pc }
/-- Take a precise trap at the acting context's instruction. -/
def State.trap (s : State) (trap detail : Nat) (eaddr : Word) : State :=
  s.trapCtx s.core s.key trap detail eaddr false false
/-- Take a precise trap whose rule does not state EADDR: it takes a free value (R341, log 39). -/
def State.trapOpen (s : State) (trap detail : Nat) : State :=
  let (t, s) := s.draw
  s.trap trap detail (Config.openAddr t)
/-- Take a precise trap after the acting context's instruction (R347): EPC is Next(PC). -/
def State.trapAfter (s : State) (trap detail : Nat) (eaddr : Word) : State :=
  s.trapCtx s.core s.key trap detail eaddr true false
/-- The illegal-instruction trap: EADDR holds the slot's address (R98). -/
def State.illegal (s : State) : State := s.trap 0x01 0 s.me.pc
/-- Hold an asynchronous trap for a context (R343). -/
def State.asyncTo (s : State) (core : CoreNo) (key : Nat) (t : AsyncTrap) : State :=
  s.modCtx core key fun c => { c with asyncs := c.asyncs ++ [t] }
/-- A trap that keeps its instruction in the retry latch (R181, R182, R342). -/
def State.trapLatched (s : State) (core : CoreNo) (key : Nat) (trap detail : Nat) (eaddr : Word) : State :=
  let l := (s.ctxAt core key).inst
  (s.trapCtx core key trap detail eaddr false false).modCtx core key fun c =>
    { c with latch := match l with | some i => some i | none => c.latch }
/-- A machine check of one context (R360): its registers are set, it parks with no wake condition, whatever reply is still to
come, and the root gets event 0x04, also when the context is the root itself. -/
def State.checkCtx (s : State) (core : CoreNo) (key detail : Nat) (eaddr : Word) : State :=
  let c := s.ctxAt core key
  let s := s.setCtx core key { c with
    epc := c.epcOf, ecause := ecauseOf 0x04 false false detail, eaddr := eaddr, run := .park .dead, inst := none,
    pair := none, out := .none, sent := none, resp := none }
  s.tellRoot core (key / 16)
    { trap := 0x04, detail := key % 16, addr := eaddr, ten := (s.coreAt core).tenOf (realKey key) }
/-- Return from an exception (R345): from the resident handler, else from a trap handler, else illegal. A latch at EPC
is replayed, and a changed EPC discards it. A loop that an enabled flag stopped goes on (R217). -/
def State.returnFrom (s : State) : State :=
  let c := s.here
  let set := s.key / 16
  let r := c.resident[set]?.getD {}
  if s.ctx = 0 ∧ r.held then
    -- what the event interrupted goes on, unless the handler chose another address
    let cont := if c.rpc = r.at_ then r.cont else none
    let s := s.modMe fun x => { x with
      regs := { x.regs with g := Vector.ofFn fun i => if 1 ≤ i.val ∧ i.val ≤ 15 then r.copy.getD (i.val - 1) {} else x.regs.g[i] }
      pc := c.rpc, run := r.prior, pair := none, inst := cont.map (·.1)
      out := (cont.map (·.2)).getD .none, sent := none
      enter := if c.rpc = r.at_ then r.enter else none
      stopped := x.stopped || x.dbg.step }
    s.modHere fun x => { x with resident := x.resident.set! set {} }
  else if s.me.eheld then
    let s := s.modMe fun x =>
      let y : Ctx := { x with eheld := false, pc := x.epc, inst := none, pair := none, run := .run,
                              stopped := x.stopped || x.dbg.step }
      match x.latch with
      | some l => if l.pc = x.epc then { y with replay := true } else { y with latch := none }
      | none => y
    s.modHere fun c => { c with loops := c.loops.map fun l => if l.key = s.key then { l with stopped := false } else l }
  else s.illegal
/-- The root context takes an event (R352): g1 to g15 are copied aside, RPC, RCAUSE and RADDR are written, RHELD is set
and the pc goes to RVEC under the target check. -/
def State.takeEvent (s : State) (core : CoreNo) (e : RootEvent) : State :=
  let c := s.coreAt core
  let key := 16 * e.set
  let x := c.ctxAt key
  let prior : Run := match x.run with
    | .idle | .park (.yield _) | .park .supervisor => x.run
    | _ => .run
  let s := s.modCore core fun c => { c with
    rpc := x.pc, rcause := ecauseOf e.trap false false e.detail, raddr := e.addr
    resident := c.resident.set! e.set
      { held := true, ten := e.ten, irq := e.trap == 0x23, copy := (List.range 15).map fun i => x.regs.g[i + 1]!, prior
        enter := x.enter, at_ := x.pc
        cont := if x.out = .none then none else x.inst.map fun i => (i, x.out) } }
  s.modCtx core key fun x => { x with pc := c.rvec, enter := some x.pc, run := .run, inst := none, pair := none,
                                      out := .none, sent := none }

end Sys2Proof.Machine
end

