-- ==== Sys2Proof/Machine/Labels.lean ====
section
/-!
DEFINITION. Assumption labels (08_labels.md, R139 to R149, R154): environment sets, the label table of a partition,
resolving a handle as a core sees it, forming a conjunction or disjunction, interning, the NOGOOD sweep, and the check
of R154. A core's label unit holds the entries that a sweep changed and that it has not installed yet. Its label cache
differs from the table in nothing else, so an entry is read as the table has it, but for an entry that a sweep changed:
until the core installs the sweep, it is read in its old form or its new one, as the cache happens to hold it (R149,
log 9).
-/
namespace Sys2Proof.Machine

/-- An environment: a mask of assumption numbers (R140). -/
abbrev Env := BitVec 64

/-- The empty label (R24). -/
def emptyH : Handle := 0
/-- HIDDEN (R24). -/
def hiddenH : Handle := 0xFFFF

/-- `f` is contained in `x` (R140). -/
def subEnv (f x : Env) : Bool := (x &&& f) == f

/-- Insert into a list of masks in ascending order, without repeats. -/
def insEnv (x : Env) : List Env → List Env
  | [] => [x]
  | y :: t => if x = y then y :: t else if x.toNat < y.toNat then x :: y :: t else y :: insEnv x t

/-- Sort masks by ascending value, without repeats (R142). -/
def sortEnvs (l : List Env) : List Env := l.foldr insEnv []

/-- The members of a set that no blight entry is contained in, without those that strictly contain another member
(R144). -/
def reduceEnvs (blight l : List Env) : List Env :=
  let u := l.filter fun x => !(blight.any fun f => subEnv f x)
  sortEnvs (u.filter fun x => !(u.any fun y => y != x && subEnv y x))

/-- The unions of the environments of two sets (R144). -/
def unionsOf (p q : List Env) : List Env := p.flatMap fun x => q.map fun y => x ||| y

/-- The entry of a handle in the label table (R143): the fixed entries, the singletons, and the entries allocated or
changed. -/
def PartSt.entry (p : PartSt) (h : Handle) : Option LEntry :=
  match assoc p.table h.toNat with
  | some e => some e
  | none =>
    if h = 0 then some { envs := [0] }
    else if h = hiddenH then some {}
    else if h.toNat ≤ 64 then some { envs := [1#64 <<< (h.toNat - 1)] }
    else none

/-- The 64 bytes of a label table entry in HBM, with LHEAP (R142). -/
def LEntry.image (e : LEntry) (heap : Nat) : Nat :=
  let inline := (e.envs.take 4).foldr (fun (x : Env) acc => x.toNat + 2 ^ 64 * acc) 0
  2 ^ 256 + e.envs.length * 2 ^ 259 +
  (match e.fwd with | some f => 2 ^ 257 + f.toNat * 2 ^ 384 | none => 0) +
  (match e.block with | some b => 2 ^ 258 + (heap + 512 * b) * 2 ^ 320 | none => inline)
/-- The 64 bytes of a rule table entry in HBM (R300). -/
def Rule.image (r : Rule) : Nat :=
  r.lo.toNat + r.hi.toNat * 2 ^ 12 + r.template.toNat * 2 ^ 24 + 2 ^ 25 + r.swap.toNat * 2 ^ 26 +
  (if r.template then r.tmpl.toNat * 2 ^ 128 else r.pc.toNat * 2 ^ 64)

/-- A byte of the label table, the label heap or the rule table at its place in HBM (R139, R142, R300): the tables are
held once, in the partition, and memory shows them there. -/
def PartSt.tableByte (p : PartSt) (a : Nat) : Option Byte :=
  if !p.valid then none
  else if p.ltab ≤ a ∧ a < p.ltab + 2 ^ 22 then
    let x := match p.entry (BitVec.ofNat 16 ((a - p.ltab) / 64)) with | some e => e.image p.lheap | none => 0
    some (BitVec.ofNat 8 (x / 2 ^ (8 * ((a - p.ltab) % 64))))
  else if p.lheap ≤ a ∧ a < p.lheap + 512 * p.lhblk then
    let es := match p.table.find? (fun e => e.2.block == some ((a - p.lheap) / 512)) with | some e => e.2.envs | none => []
    some (BitVec.ofNat 8 ((es.getD ((a - p.lheap) % 512 / 8) 0).toNat / 2 ^ (8 * (a % 8))))
  else if p.rtab ≤ a ∧ a < p.rtab + 2 ^ 18 then
    let x := match assoc p.rules ((a - p.rtab) / 64) with | some r => r.image | none => 0
    some (BitVec.ofNat 8 (x / 2 ^ (8 * ((a - p.rtab) % 64))))
  else none
/-- `n` bytes that a program or a unit reads at a home address. -/
def State.readAt (s : State) (ha n : Nat) : List Byte :=
  if isLs ha then s.bytesAt ha n
  else (List.range n).map fun i => (s.parts.findSome? fun p => p.2.tableByte (ha + i)).getD (s.byteAt (ha + i))
/-- Bytes that no program may write: a label table or a label heap (R139, R170). -/
def State.readOnly (s : State) (ha n : Nat) : Bool :=
  !isLs ha && s.parts.any fun p => p.2.valid &&
    ((decide (ha < p.2.ltab + 2 ^ 22) && decide (p.2.ltab < ha + n)) ||
     (decide (ha < p.2.lheap + 512 * p.2.lhblk) && decide (p.2.lheap < ha + n)))

/-- The label unit of a core for one partition. -/
def CoreSt.unit (c : CoreSt) (k : PartKey) : LabelUnit := (assoc c.labels (2 * k.set + k.ten.toNat)).getD {}
/-- Change the label unit of a core for one partition. -/
def CoreSt.modUnit (c : CoreSt) (k : PartKey) (f : LabelUnit → LabelUnit) : CoreSt :=
  { c with labels := assocSet c.labels (2 * k.set + k.ten.toNat) (f (c.unit k)) }

/-- The entry of a handle as it was before the oldest sweep that a core has not installed, from which its label unit
forms sets (R148, R164). -/
def State.entryOld (s : State) (core : CoreNo) (k : PartKey) (h : Handle) : Option LEntry :=
  match ((s.coreAt core).unit k).installs.findSome? (fun i => assoc i.old h.toNat) with
  | some e => some e
  | none => (s.partAt k).entry h
/-- The entries that a core reads for a handle: before it has installed the sweeps that it has been told of, those as some
number of these sweeps have left them, the same for the handle's own entry and for the one it forwards to (R149, log 9). -/
def State.entriesFor (s : State) (core : CoreNo) (k : PartKey) (root : Handle) : Handle → Option LEntry :=
  let rest := match ((s.coreAt core).unit k).installs with
    | [] => []
    | l => l.drop (Config.labelSweeps core.toNat root.toNat s.tick % (l.length + 1))
  fun h => match rest.findSome? (fun i => assoc i.old h.toNat) with
    | some e => some e
    | none => (s.partAt k).entry h
/-- The entry of a handle as a core reads it. -/
def State.entryOf (s : State) (core : CoreNo) (k : PartKey) (h : Handle) : Option LEntry := s.entriesFor core k h h
/-- The blight table as a core has it installed (R148). -/
def State.blightOf (s : State) (core : CoreNo) (k : PartKey) : List Env :=
  match ((s.coreAt core).unit k).installs with
  | i :: _ => i.blight
  | [] => (s.partAt k).blight

/-- A handle resolved in a table (R147, R162): the FWD handle, or HIDDEN when the entry is free or its set is empty. -/
def resolveIn (look : Handle → Option LEntry) (h : Handle) : Handle :=
  if h = 0 then 0
  else match look h with
    | none => hiddenH
    | some e => match e.fwd with
      | some f => match look f with
        | some e2 => if e2.envs.isEmpty then hiddenH else f
        | none => hiddenH
      | none => if e.envs.isEmpty then hiddenH else h

/-- A handle resolved as a core sees it (R147). -/
def State.resolve (s : State) (core : CoreNo) (k : PartKey) (h : Handle) : Handle := resolveIn (s.entriesFor core k h) h
/-- A handle resolved in the partition's table. -/
def State.resolveAt (s : State) (k : PartKey) (h : Handle) : Handle := resolveIn (s.partAt k).entry h
/-- The environments of a resolved handle as a core sees it. -/
def State.envsOf (s : State) (core : CoreNo) (k : PartKey) (h : Handle) : List Env :=
  match s.entriesFor core k h (s.resolve core k h) with
  | some e => e.envs
  | none => []
/-- The environments of a handle in the form from which a core's label unit makes a set (R164). -/
def State.envsOld (s : State) (core : CoreNo) (k : PartKey) (h : Handle) : List Env :=
  match s.entryOld core k (resolveIn (s.entryOld core k) h) with
  | some e => e.envs
  | none => []
/-- The resolved label of a register of the acting context. -/
def State.lab (s : State) (h : Handle) : Handle := s.resolve s.core s.part h
/-- A register's value with its label resolved, as an instruction reads it (R147). -/
def State.val (s : State) (v : LWord) : LWord := ⟨v.val, s.lab v.lab⟩

/-- Entries of a table that hold a set in place (R143). -/
def PartSt.inPlace (p : PartSt) : List (Nat × LEntry) :=
  ((List.range 65).filterMap fun n => match assoc p.table n with
    | some _ => none
    | none => (p.entry (BitVec.ofNat 16 n)).map fun e => (n, e)) ++ p.table.filter fun e => e.2.fwd.isNone

/-- The handle that holds a set (R143). -/
def PartSt.find (p : PartSt) (u : List Env) : Option Handle :=
  match lowest ((p.inPlace.filter fun e => e.2.envs == u).map (·.1)) with
  | some n => some (BitVec.ofNat 16 n)
  | none => none

/-- The lowest free handle from 0x0041 to 0xFFFE (R143). -/
def PartSt.freeHandle (p : PartSt) : Option Nat :=
  (List.range 65470).findSome? fun i => if (assoc p.table (65 + i)).isNone then some (65 + i) else none

/-- Heap blocks in use: entries that hold 5 or more environments in place (R139, R148). -/
def PartSt.heapUsed (p : PartSt) : Nat := (p.table.filter fun e => e.2.fwd.isNone && decide (5 ≤ e.2.envs.length)).length

/-- The lowest heap block that no entry owns; which free block a set takes is left open (DESIGN CHOICE, log 98). -/
def PartSt.freeBlock (p : PartSt) : Nat :=
  let used := p.table.filterMap (·.2.block)
  ((List.range (used.length + 1)).find? fun n => !used.contains n).getD 0

/-- What interning a set gives (R146): a handle and whether a heap block was written, or the failing case. -/
inductive Interned where
  | ok (h : Handle) (p : PartSt) (spill : Bool)
  | fail (case n : Nat)

/-- Intern a set at the label home (R143, R144, R146). With no handle free and no block free either, the case is 2 (DESIGN
CHOICE, log 98). -/
def PartSt.intern (p : PartSt) (u : List Env) : Interned :=
  if u.isEmpty then .ok hiddenH p false
  else if 64 < u.length then .fail 1 u.length
  else match p.find u with
    | some h => .ok h p false
    | none => match p.freeHandle with
      | none => .fail 2 u.length
      | some n =>
        if 5 ≤ u.length ∧ p.lhblk ≤ p.heapUsed then .fail 3 u.length
        else .ok (BitVec.ofNat 16 n)
          { p with table := assocSet p.table n { envs := u, block := if 5 ≤ u.length then some p.freeBlock else none } }
          (decide (5 ≤ u.length))

/-- The set of a conjunction or a disjunction (R144, R157). -/
def combineSet (blight : List Env) (union : Bool) (p q : List Env) : List Env :=
  reduceEnvs blight (if union then p ++ q else unionsOf p q)

/-- A conjunction formed at a home, where the partition's own table is read and the set is interned at once (R407); a
set that takes a heap block is counted in the core's LSPILL (R144). -/
def State.homeConj (s : State) (core : CoreNo) (k : PartKey) (a b : Handle) : Except (Nat × Nat) (Handle × State) :=
  let a := s.resolveAt k a
  let b := s.resolveAt k b
  if a = hiddenH ∨ b = hiddenH then .ok (hiddenH, s)
  else if a = 0 then .ok (b, s)
  else if b = 0 ∨ a = b then .ok (a, s)
  else
    let p := s.partAt k
    let es := fun h => match p.entry h with | some e => e.envs | none => []
    match p.intern (combineSet p.blight false (es a) (es b)) with
    | .ok h q spill => .ok (h, if spill then (s.setPart k q).modCore core (·.count 0) else s.setPart k q)
    | .fail c n => .error (c, n)

/-- Conjunctions at a home in pairs, in order. -/
def State.homeFold (s : State) (core : CoreNo) (k : PartKey) (h : Handle) : List Handle →
    Except (Nat × Nat) (Handle × State)
  | [] => .ok (h, s)
  | x :: t => match s.homeConj core k h x with
    | .ok (r, s) => s.homeFold core k r t
    | .error e => .error e

/-- The conjunction of several handles formed at a home. A HIDDEN one gives HIDDEN whatever the others are (R128). -/
def State.homeConjs (s : State) (core : CoreNo) (k : PartKey) (hs : List Handle) : Except (Nat × Nat) (Handle × State) :=
  if (hs.map (s.resolveAt k)).contains hiddenH then .ok (hiddenH, s) else s.homeFold core k 0 hs

/-- A combination at a core: its handle, or a context sent to wait for it. -/
inductive Labelled where
  | ok (h : Handle) (s : State)
  | stop (s : State)

/-- A combination that the context made while it waited for it (R145, log 10). -/
def Ctx.memoOf (c : Ctx) (union : Bool) (a b : Handle) : Option Handle :=
  (c.memo.find? fun m => m.1 == union && m.2.1 == a && m.2.2.1 == b).map (·.2.2.2)

/-- Look up the combine cache, making the entry found its most recent one; a miss sends the context to WAIT (R145). -/
def State.lookComb (s : State) (union : Bool) (a b : Handle) : Labelled :=
  match s.me.memoOf union a b with
  | some h => .ok h s
  | none =>
    let k := s.part
    match takeFirst (fun e => e.union == union && e.a == a && e.b == b) (s.here.unit k).comb with
    | some (e, rest) => .ok e.r (s.modHere fun c => c.modUnit k fun u => { u with comb := e :: rest })
    | none => .stop (s.wait (.combine union a b))

/-- The conjunction of two labels at the acting core, with the shortcuts of R128. -/
def State.conj2 (s : State) (a b : Handle) : Labelled :=
  let a := s.lab a
  let b := s.lab b
  if a = hiddenH ∨ b = hiddenH then .ok hiddenH s
  else if a = 0 then .ok b s
  else if b = 0 ∨ a = b then .ok a s
  else s.lookComb false a b

/-- Conjunctions in pairs, in order. -/
def State.conjFold (s : State) (h : Handle) : List Handle → Labelled
  | [] => .ok h s
  | x :: t => match s.conj2 h x with
    | .ok r s => s.conjFold r t
    | .stop s => .stop s

/-- The conjunction of the labels of every source, in field order (R128, R144). A HIDDEN operand gives HIDDEN whatever
the others are. -/
def State.conj (s : State) (hs : List Handle) : Labelled :=
  let rs := hs.map s.lab
  if rs.contains hiddenH then .ok hiddenH s
  else match rs.filter (· != 0) with
    | [] => .ok 0 s
    | h :: t => s.conjFold h t

/-- The combine cache with an entry added: 64 entries, the least recently used goes (R139, R145). -/
def LabelUnit.addComb (u : LabelUnit) (e : Comb) : LabelUnit := { u with comb := (e :: u.comb).take 64 }

/-- Whether a context waits for a combination. -/
def Run.combining : Run → Bool
  | .wait (.combine ..) | .wait .intern => true
  | _ => false

/-- Give a waiting context its combination and let its instruction issue again. -/
def State.giveComb (s : State) (core : CoreNo) (key : Nat) (k : PartKey) (union : Bool) (a b r : Handle) : State :=
  (s.modCore core fun c => c.modUnit k fun u => u.addComb ⟨union, a, b, r⟩).modCtx core key fun c =>
    { c with memo := (union, a, b, r) :: c.memo, run := if c.run.combining then .run else c.run }

/-- A set that cannot be interned (R146): the trap, or the host's answer when ASSIST.LOVF is 1. -/
def State.labelOverflow (s : State) (core : CoreNo) (key : Nat) (case n : Nat) : State :=
  if (s.coreAt core).assist.getLsbD 1 then
    (s.waitCtx core key (.host 2 case (BitVec.ofNat 64 n))).postEvent (s.partKey core key)
      { kind := 2, core := core, ctx := key % 16, addr := (s.ctxAt core key).pc }
  else s.trapCtx core key 0x12 case (BitVec.ofNat 64 n) false false

-- The NOGOOD sweep (R148)

/-- The set of an entry after a sweep. -/
def sweepSet (blight : List Env) (e : LEntry) : List Env := reduceEnvs blight e.envs

/-- One entry after a sweep: unchanged; forwarding to HIDDEN, to an unchanged entry, or to the lowest-numbered entry
that reduces to the same set; or holding the reduced set in place, in its heap block while it has five or more. -/
def sweepEntry (blight : List Env) (before : List (Nat × LEntry)) (n : Nat) (e : LEntry) : LEntry :=
  let u := sweepSet blight e
  let kept : LEntry := { envs := u, block := if 5 ≤ u.length then e.block else none }
  if u = e.envs then e
  else if u.isEmpty then { fwd := some hiddenH }
  else
    let same := before.filter fun p => p.2.envs == u && sweepSet blight p.2 == p.2.envs
    match lowest (same.map (·.1)) with
    | some m => { fwd := some (BitVec.ofNat 16 m) }
    | none =>
      match lowest ((before.filter fun p => sweepSet blight p.2 == u).map (·.1)) with
      | some m => if m = n then kept else { fwd := some (BitVec.ofNat 16 m) }
      | none => kept

/-- The label table after a sweep with a new blight table (R148 step 3). No chain is longer than one step. -/
def PartSt.sweep (p : PartSt) (blight : List Env) : PartSt :=
  let before := p.inPlace
  let after := before.map fun e => (e.1, sweepEntry blight before e.1 e.2)
  let final := fun h : Handle => match after.find? (fun e => e.1 == h.toNat) with
    | some e => e.2.fwd.getD h
    | none => h
  let fwds := (p.table.filter fun e => e.2.fwd.isSome).map fun e =>
    (e.1, { e.2 with fwd := e.2.fwd.map final })
  let changed := after.filter fun e => (before.find? (fun b => b.1 == e.1)).map (·.2) != some e.2
  let t1 := changed.foldl (fun t e => assocSet t e.1 e.2) p.table
  { p with blight := blight, table := fwds.foldl (fun t e => assocSet t e.1 e.2) t1 }

/-- The blight table with new environments (R148 steps 1 and 2): those not already above an entry are added, and old
entries above a new one are removed. -/
def addBlight (blight envs : List Env) : List Env × Nat :=
  let new := envs.filter fun x => !(blight.any fun f => subEnv f x)
  ((blight.filter fun f => !(new.any fun x => subEnv x f)) ++ new, new.length)

-- Deciding registers (R154)

/-- The first register of a list whose label meets a test, with the trap's register number. -/
def State.firstLab (s : State) (p : Handle → Bool) : List GReg → Option Nat
  | [] => none
  | r :: t => if p (s.lab (s.me.g r).lab) then some r.val else s.firstLab p t

/-- Check the labels of registers that decide something, in field order; then go on (R118, R154). A HIDDEN register
among them is reported before one that is only labelled. -/
def State.deciding (s : State) (rs : List GReg) (go : State → State) : State :=
  match s.firstLab (· == hiddenH) rs with
  | some r => s.trap 0x05 0 (BitVec.ofNat 64 r)
  | none => match s.firstLab (· != 0) rs with
    | some r => s.trap 0x06 0 (BitVec.ofNat 64 r)
    | none => go s

end Sys2Proof.Machine
end

