-- ==== Sys2Proof/Machine/Net.lean ====
section
/-!
DEFINITION. Messages and flits (18_network.md, R317 to R326, R404): sending a message, its way through the routers'
buffers, the choice of a flit for a calendar slot, and taking the next message of a triple at its destination. Messages
inside a cluster cross the omega network, whose switches order by port alone and whose buffers tell in time alone
(log 17).
-/
namespace Sys2Proof.Machine

/-- The number of a triple of source core, path and destination core (R320). -/
def tripleKey (src : CoreNo) (p : Path) (dst : CoreNo) : Nat :=
  (src.toNat * 8 + (match p with | .th => 0 | .cp => 1 | .xf => 2 | .mx => 3 | .gr => 4)) * 1048576 + dst.toNat

/-- The virtual channel of a message (R318): a class of VCCLASS (3 acts as 0), .xp, the flit count, and whether it is a
reply. -/
def vcPick (cls : Nat) (xp : Bool) (flits : Nat) (reply : Bool) : VC :=
  if (xp || cls == 1) then (if flits ≤ 2 then 2 else if reply then 1 else 0)
  else if cls = 2 then 3
  else if reply then 1 else 0

/-- A router's number: 128·package + 16·die + cluster. -/
def routerOf (c : CoreNo) : Nat := 128 * pkgOf c + 16 * dieOf c + clusterOf c
/-- Mesh column of a router (R11). -/
def colOf (r : Nat) : Nat := 4 * (r / 16 % 8 % 4) + r % 4
/-- Mesh row of a router (R11). -/
def rowOf (r : Nat) : Nat := 4 * (r / 16 % 8 / 4) + r % 16 / 4
/-- The router at a column and row of a package (R11). -/
def routerAtXY (pkg col row : Nat) : Nat := 128 * pkg + 16 * (4 * (row / 4) + col / 4) + 4 * (row % 4) + col % 4
/-- The router beyond an output, if the mesh has one there (R322). -/
def neighbour (r out : Nat) : Option Nat :=
  let p := r / 128
  match out with
  | 1 => if 0 < rowOf r then some (routerAtXY p (colOf r) (rowOf r - 1)) else none
  | 2 => if colOf r < 15 then some (routerAtXY p (colOf r + 1) (rowOf r)) else none
  | 3 => if rowOf r < 7 then some (routerAtXY p (colOf r) (rowOf r + 1)) else none
  | 4 => if 0 < colOf r then some (routerAtXY p (colOf r - 1) (rowOf r)) else none
  | _ => none
/-- The input port by which a flit sent through an output enters the next router. -/
def inPort (out : Nat) : Nat := match out with | 1 => 3 | 2 => 4 | 3 => 1 | 4 => 2 | _ => 0

/-- The reset route: column first, then row; the I/O die below row 7 in the flit's own column (R322). -/
def resetRoute (r dest : Nat) : Nat :=
  if dest = 128 then (if rowOf r = 7 then 5 else 3)
  else
    let d := 128 * (r / 128) + dest
    if colOf d > colOf r then 2 else if colOf d < colOf r then 4
    else if rowOf d < rowOf r then 1 else if rowOf d > rowOf r then 3 else 0

/-- A message by its number. -/
def State.msgById (s : State) (i : Nat) : Option Msg := s.msgs.find? fun m => m.id == i
/-- Change a message. -/
def State.modMsg (s : State) (i : Nat) (f : Msg → Msg) : State :=
  { s with msgs := s.msgs.map fun m => if m.id = i then f m else m }

/-- The output a flit of a message takes at a router (R322): 0 local, 1 to 5 as PORT, 6 and 7 the channel cores, 8 a
refusal at that router. A flit from the I/O die goes along its column and consults no table. -/
def State.outFor (s : State) (r : Nat) (m : Msg) (io : Bool) : Nat :=
  let away := pkgOf m.dst != r / 128 || dieOf m.dst == 8
  let dest := if away then 128 else 16 * dieOf m.dst + clusterOf m.dst
  let p := if io && !away then resetRoute r dest
    else match assoc (s.routerAt r).routes (16 * dest + m.cls) with
      | some p => p
      | none => resetRoute r dest
  if p = 0 ∧ !away ∧ routerOf m.dst = r then
    (if isChannel m.dst then (if slotOf m.dst = 16 then 6 else 7) else 0)
  else if 1 ≤ p ∧ p ≤ 4 then (if (neighbour r p).isSome then p else 8)
  else if p = 5 then (if rowOf r = 7 then 5 else 8)
  else 8

/-- Places taken in a buffer by a virtual channel, and by one partition's part of it (R404). -/
def State.taken (s : State) (r inp : Nat) (v : VC) : Nat :=
  (s.flits.filter fun f => f.router == r && f.inp == inp && f.vc == v && !f.bin).length
/-- Free places in a buffer (R404): 16 flits at a router input, 32 at a request port, 8 of them for one partition. -/
def State.places (s : State) (r inp : Nat) (v : VC) (node : Nat) : Bool :=
  decide (s.taken r inp v < (if inp = 6 ∨ inp = 7 then 32 else 16)) &&
  decide ((s.flits.filter fun f => f.router == r && f.inp == inp && f.vc == v && f.node == node && !f.bin).length < 8)
/-- Room in a buffer for a flit on its way. One that is put back from a save bin comes first (R372; log 113). -/
def State.room (s : State) (r inp : Nat) (v : VC) (node : Nat) : Bool :=
  s.places r inp v node &&
  !s.flits.any fun f => f.router == r && f.inp == inp && f.vc == v && f.node == node && f.bin && f.due

/-- Whether a flit is at the head of its buffer, or of its part of a save bin: no earlier flit of the same port, channel and
partition stands before it. Its message and its place there tell it from every other. -/
def headOf (fs : List Flit) (f : Flit) : Bool :=
  match fs.find? (fun x => x.router == f.router && x.inp == f.inp && x.vc == f.vc && x.node == f.node && x.bin == f.bin &&
      x.due == f.due) with
  | some x => x == f
  | none => false

/-- Remove the first flit equal to `f`. -/
def dropFlit (fs : List Flit) (f : Flit) : List Flit := fs.erase f

/-- A flit of a request that its channel core has begun to take: it follows the first one, and takes no slot (R324). -/
def Flit.follows (f : Flit) (m : Msg) : Bool := (f.inp == 6 || f.inp == 7) && decide (0 < m.here)
/-- Moves that no calendar governs: from a save bin back into its buffer, from a network interface (input 8) into its
router's local port, from the I/O die (input 9) into input 5, into a request port, and out of the local port or after
the first flit of a request (R324, R372, R404). -/
def State.settle1 (s : State) (f : Flit) : Option State :=
  if (f.bin && !f.due) || !headOf s.flits f then none
  else match s.msgById f.msg with
    | none => some { s with flits := dropFlit s.flits f }
    | some m =>
      if f.bin then
        if s.places f.router f.inp f.vc f.node then
          some { s with flits := dropFlit s.flits f ++ [{ f with bin := false, due := false }] }
        else none
      else if f.follows m then some { s with flits := dropFlit s.flits f }
      else if f.inp = 8 ∨ f.inp = 9 then
        let p := if f.inp = 8 then 0 else 5
        if s.room f.router p f.vc f.node then
          some { s with flits := dropFlit s.flits f ++ [{ f with inp := p }] }
        else none
      else if f.inp = 6 ∨ f.inp = 7 then none
      else
        let o := s.outFor f.router m f.io
        if o = 0 then some { s with flits := dropFlit s.flits f }
        else if o = 6 ∨ o = 7 then
          if s.room f.router o f.vc f.node then
            some { s with flits := dropFlit s.flits f ++ [{ f with inp := o, age := 0, promoted := false }] }
          else none
        else none

/-- A flit has left the network at its destination. -/
def State.arrived (s : State) (i : Nat) : State := s.modMsg i fun m => { m with here := m.here + 1 }

/-- Settle the flits of a router, at most `n` moves. -/
def State.settle (s : State) (r : Nat) : Nat → State
  | 0 => s
  | n + 1 =>
    match (s.flits.filter fun f => f.router == r).findSome? (fun f => (s.settle1 f).map fun t => (f, t)) with
    | some (f, t) =>
      let out := !f.bin && (match s.msgById f.msg with
        | some m => f.follows m || (f.inp != 8 && f.inp != 9 && f.inp != 6 && f.inp != 7 && s.outFor r m f.io == 0)
        | none => false)
      (if out then t.arrived f.msg else t).settle r n
    | none => s

/-- Where a message's flits enter the mesh: the source's router, or for the I/O die the row-7 router of the
destination's column (R322). Messages inside a cluster between compute cores, and to the sender itself, cross no
router. -/
def entryRouter (src dst : CoreNo) : Option Nat :=
  if src = dst then none
  else if dieOf src = 8 then
    (if dieOf dst = 8 ∨ pkgOf src ≠ pkgOf dst then none else some (routerAtXY (pkgOf dst) (colOf (routerOf dst)) 7))
  else if routerOf src = routerOf dst ∧ isCompute src ∧ isCompute dst then none
  else some (routerOf src)

/-- The flits of a message enter the network at its source, or the whole of it is at its destination at once where no
router stands between. -/
def State.inject (s : State) (m : Msg) : State :=
  match entryRouter m.src m.dst with
  | none => s.modMsg m.id fun x => { x with here := x.flits }
  | some r =>
    let io := dieOf m.src == 8
    let f := fun n => ({ msg := m.id, no := n, io, router := r, inp := if io then 9 else 8, vc := m.vc, node := m.part.node } : Flit)
    ({ s with flits := s.flits ++ (List.range m.flits).map f } : State).settle r (4 * m.flits)

/-- Send a message that a route swap may hold or not. -/
def State.sendAs (s : State) (hold : Bool) (src dst : CoreNo) (path : Path) (part : PartKey) (vc : VC) (flits key : Nat)
    (body : Body) : State :=
  let t := tripleKey src path dst
  let (nx, dl) := (assoc s.seqs t).getD (0, 0)
  let cls := (s.partAt part).rclass
  let held := match (s.pkgAt (pkgOf src)).swap with
    | some w => hold && w.classes.getLsbD cls
    | none => false
  let m : Msg := { id := s.nextMsg, src, dst, path, seq := nx, vc, part, born := s.cycle, cls, flits, held, key, body }
  let s := { s with msgs := s.msgs ++ [m], nextMsg := s.nextMsg + 1, seqs := assocSet s.seqs t (nx + 1, dl) }
  if held then s else s.inject m
/-- Send a message (R317, R320): it takes its triple's next sequence number, and its flits enter the network unless a
route swap holds its class at the source (R323). -/
def State.send (s : State) (src dst : CoreNo) (path : Path) (part : PartKey) (vc : VC) (flits key : Nat) (body : Body) :
    State := s.sendAs true src dst path part vc flits key body

/-- The next message of a triple in sequence order, when all of it is there (R320). -/
def State.nextOf (s : State) (src dst : CoreNo) (path : Path) : Option Msg :=
  let (_, dl) := (assoc s.seqs (tripleKey src path dst)).getD (0, 0)
  s.msgs.find? fun m => m.src == src && m.dst == dst && m.path == path && m.seq == dl && decide (m.flits ≤ m.here)
    && m.retryAt == 0 && !m.held

/-- The first sequence number from one on whose message has not left the network already. -/
def skipGone (gone : List (Nat × Nat)) (t n : Nat) : Nat → Nat
  | 0 => n
  | f + 1 => if gone.contains (t, n) then skipGone gone t (n + 1) f else n
/-- Take a message out of the network. Its triple moves on past it, once its turn comes. -/
def State.consume (s : State) (m : Msg) : State :=
  let t := tripleKey m.src m.path m.dst
  let (nx, dl) := (assoc s.seqs t).getD (0, 0)
  let gone := if m.seq = dl then s.gone else s.gone ++ [(t, m.seq)]
  let next := if m.seq = dl then skipGone s.gone t (dl + 1) s.gone.length else dl
  { s with msgs := s.msgs.filter fun x => x.id != m.id, seqs := assocSet s.seqs t (nx, next),
           gone := gone.filter fun g => g.1 != t || decide (next ≤ g.2), flits := s.flits.filter fun f => f.msg != m.id }

/-- The backoff after n refusals (R182, R321): 16·n cycles, at most 1,024. -/
def backoffOf (n : Nat) : Nat := min (16 * n) 1024

/-- Refuse a message (R321): its flits are gone, and a refusal returns to its source on VC1. A route swap, which waits
for the refused message (R333), does not hold it. -/
def State.refuseMsg (s : State) (m : Msg) : State :=
  (s.modMsg m.id fun x => { x with refusals := x.refusals + 1, here := 0 }).sendAs false m.dst m.src m.path m.part 1 1
    m.key (.refused m.id)
/-- The message of a triple whose turn it is has been refused and is not back yet, and a later one that R321 names has
come: it is refused too. -/
def State.laterOf (s : State) (src dst : CoreNo) (path : Path) (p : Body → Bool) : Option Msg :=
  let (_, dl) := (assoc s.seqs (tripleKey src path dst)).getD (0, 0)
  let own := s.msgs.filter fun m => m.src == src && m.dst == dst && m.path == path
  if own.any (fun m => m.seq == dl && decide (0 < m.refusals ∧ m.here < m.flits)) then
    own.find? fun m => m.seq != dl && decide (m.flits ≤ m.here) && p m.body
  else none

-- The calendar slot (R324, R325)

/-- A calendar entry of an output (R324): OPEN at reset. -/
def Router.calAt (r : Router) (out slot : Nat) : BitVec 16 := (assoc r.cal (64 * out + slot)).getD 0x8000
/-- An arbitration record (R324). -/
def Router.arbAt (r : Router) (out node : Nat) : Arb := (assoc r.arbs (1024 * out + node)).getD {}
/-- Credits of a partition at an output (R325). -/
def Router.creditAt (r : Router) (out node : Nat) : Vector Nat 4 :=
  (assoc r.credit (1024 * out + node)).getD (Vector.replicate 4 0)

/-- The output a buffered flit asks for: a request port's own, or its route's. -/
def State.wants (s : State) (f : Flit) : Nat :=
  if f.inp = 6 ∨ f.inp = 7 then f.inp
  else match s.msgById f.msg with
    | some m => s.outFor f.router m f.io
    | none => 9

/-- A flit that is ready at an output: at the head of its buffer, with room at the next hop (R325). A channel core always
has room for a request (R324). -/
def State.ready (s : State) (r out : Nat) (f : Flit) : Bool :=
  f.router == r && !f.bin && f.inp != 8 && f.inp != 9 && s.wants f == out && headOf s.flits f &&
    (if out = 5 ∨ out = 6 ∨ out = 7 then true
     else match neighbour r out with
      | some q => s.room q (inPort out) f.vc f.node
      | none => false)

/-- The virtual channels of a list of flits, in ascending order. -/
def vcsOf (fs : List Flit) : List VC := ([0, 1, 2, 3] : List VC).filter fun v => fs.any fun f => f.vc == v

/-- The first channel after `last`, ascending and wrapping, that meets a test (R325). -/
def nextVc (last : Nat) (p : VC → Bool) : Option VC :=
  ([1, 2, 3, 4] : List Nat).findSome? fun d =>
    let v : VC := Fin.ofNat 4 (last + d)
    if p v then some v else none

/-- The choice among one partition's ready flits (R325): the flit, the credits and the channel served last. -/
def chooseFlit (a : Arb) (credit : Vector Nat 4) (last : Nat) (fs : List Flit) :
    Option (Flit × Vector Nat 4 × Nat) :=
  let prom := fs.filter (·.promoted)
  match vcsOf prom with
  | v :: _ => (prom.find? fun f => f.vc == v).map fun f => (f, credit, last)
  | [] =>
    let has := fun v => fs.any fun f => f.vc == v
    match nextVc last (fun v => has v && decide (0 < credit[v])) with
    | some v => (fs.find? fun f => f.vc == v).map fun f => (f, credit.set v (credit[v] - 1), v.val)
    | none =>
      match nextVc last (fun v => has v && decide (0 < a.w[v])) with
      | some v => (fs.find? fun f => f.vc == v).map fun f => (f, a.w.set v (a.w[v] - 1), v.val)
      | none => none

/-- The node that an open slot serves: the one whose head flit has the highest age, ties to the lower number (R324). -/
def bestNode (fs : List Flit) : Option Nat :=
  match fs with
  | [] => none
  | f :: t => some ((t.foldl (fun (b : Nat × Nat) x =>
      if x.age > b.1 ∨ (x.age = b.1 ∧ x.node < b.2) then (x.age, x.node) else b) (f.age, f.node)).2)

/-- A flit goes through an output: into the next router, to the I/O die or the other package, or out of a request port,
where the flits of its request that are there go together and the others follow (R324). -/
def State.moveFlit (s : State) (r out : Nat) (f : Flit) : State :=
  let port := s.flits.filter fun x => x.msg == f.msg && x.router == r && x.inp == f.inp && !x.bin
  let s := { s with flits := dropFlit s.flits f }
  match s.msgById f.msg with
  | none => s
  | some m =>
    let g := { f with age := 0, promoted := false }
    if out = 6 ∨ out = 7 then
      { s with flits := s.flits.filter fun x => !port.contains x }.modMsg f.msg fun x => { x with here := x.here + port.length }
    else if out = 5 then
      if dieOf m.dst = 8 then s.arrived f.msg
      else
        let q := routerAtXY (pkgOf m.dst) (colOf (routerOf m.dst)) 7
        ({ s with flits := s.flits ++ [{ g with router := q, inp := 9, io := true }] }).settle q 4
    else match neighbour r out with
      | some q => ({ s with flits := s.flits ++ [{ g with router := q, inp := inPort out }] }).settle q 4
      | none => s

/-- Ageing at the end of a cycle (R325): the partition sent a flit, so its other ready flits at the output grow older, and
one that reaches AGE is promoted. -/
def State.ageFlits (s : State) (r out node : Nat) : State :=
  let a := (s.routerAt r).arbAt out node
  let age := if a.age = 0 then 64 else a.age
  { s with flits := s.flits.map fun f =>
      if f.node == node && s.ready r out f then
        { f with age := f.age + 1, promoted := f.promoted || decide (age ≤ f.age + 1) }
      else f }

/-- A calendar slot of an output that falls in a cycle, counted on from cycle 0 (R324): two a cycle at a link, one at a
channel core's request port. -/
def slotIn (out slot now : Nat) : Option Nat :=
  if out = 6 ∨ out = 7 then (if slot = now % 64 then some now else none)
  else if slot = 2 * now % 64 then some (2 * now)
  else if slot = (2 * now + 1) % 64 then some (2 * now + 1)
  else none

/-- The choice of an output in one calendar slot (R324, R325). An owned slot serves its owner alone. -/
def State.sendSlot (s : State) (r out slot : Nat) : State :=
  let rt := s.routerAt r
  let e := rt.calAt out slot
  let fs := s.flits.filter (s.ready r out)
  let node := if e.getLsbD 15 then bestNode fs else some (e.toNat % 1024)
  match node with
  | none => s
  | some n =>
    let mine := fs.filter fun f => f.node == n
    let a := rt.arbAt out n
    match chooseFlit a (rt.creditAt out n) ((assoc rt.last (1024 * out + n)).getD 3) mine with
    | none =>
      -- a round with no weight to serve still refills the credits
      if mine.isEmpty then s
      else s.modRouter r fun x => { x with credit := assocSet x.credit (1024 * out + n) a.w }
    | some (f, cr, la) =>
      let c := s.cycleOf (r / 128)
      let s := (s.moveFlit r out f).modRouter r fun x => { x with
        credit := assocSet x.credit (1024 * out + n) cr, last := assocSet x.last (1024 * out + n) la,
        sentAt := (x.sentAt.filter fun t => t.1 == c && t != (c, out, n)) ++ [(c, out, n)] }
      s.settle r 8

/-- One calendar slot of an output (R324, R325), if it falls in this cycle and has not been served. The last slot of a
cycle lets the flits grow older whose partition has sent one. -/
def State.flitSlot (s : State) (r out slot : Nat) : State :=
  let now := s.cycleOf (r / 128)
  match slotIn out slot now with
  | none => s
  | some k =>
    if ((assoc (s.routerAt r).slotAt out).map (decide <| k ≤ ·)).getD false then s
    else
      let t := s.sendSlot r out slot
      let ends := out == 6 || out == 7 || k % 2 == 1
      let sent := ((t.routerAt r).sentAt.filter fun x => x.1 == now && x.2.1 == out).map (·.2.2)
      let u := if ends then sent.foldl (fun t n => t.ageFlits r out n) t else t
      if u.flits = s.flits then t else u.modRouter r fun x => { x with slotAt := assocSet x.slotAt out k }

/-- Messages of a route class still in the network of a package, the held ones apart (R323). -/
def State.inFlight (s : State) (pkg : Nat) (classes : BitVec 16) : Bool :=
  s.msgs.any fun m => classes.getLsbD m.cls && !m.held && (pkgOf m.src == pkg || pkgOf m.dst == pkg)

/-- Release the messages that a route swap held at their sources (R323 step 4). -/
def State.releaseHeld (s : State) (pkg : Nat) : State :=
  let hs := s.msgs.filter fun m => m.held && pkgOf m.src == pkg
  hs.foldl (fun s m => (s.modMsg m.id fun x => { x with held := false }).inject m) s

end Sys2Proof.Machine
end

