-- ==== Sys2Proof/Machine/Flags.lean ====
section
/-!
DEFINITION. Every flag computation beyond the arithmetic itself (Machine/Float.lean): raising flags, committing them at
retirement, the enabled-flag event of R217, and the ways in which an instruction retires (R42, R90, R215 to R217).
-/
namespace Sys2Proof.Machine

/-- Raise flags of a context's instruction; they are committed when it retires (R42). The first one, in program order, that
raises an enabled flag is the raising instruction (R217): the first of a pair that runs last comes before the second. -/
def Ctx.raise (c : Ctx) (fl : Flags) : Ctx :=
  { c with raised := c.raised ||| fl
           raisedAt := if (c.raised &&& c.fenable = 0 ∨ (c.pair.map (·.stage)) = some .last) ∧ fl &&& c.fenable ≠ 0
             then c.pc else c.raisedAt }
/-- Raise flags of the acting context's instruction. -/
def State.raise (s : State) (fl : Flags) : State := s.modMe fun c => c.raise fl

/-- The flags that retiring a context's instruction commits: none from the first slot of a pair (R90). -/
def Ctx.commits (c : Ctx) : Flags := if c.firstOfPair then 0 else c.raised

/-- The double words of a supervisor message (R217). -/
def supDw0 (core : CoreNo) (key : Nat) (fl : Flags) : Word :=
  BitVec.ofNat 64 (core.toNat + key % 16 * 2 ^ 20 + fl.toNat * 2 ^ 24)

/-- An enabled flag was raised (R217): with a supervisor named the context parks and the message is sent; else it takes
the float-exception trap at its next instruction. A supervisor number that names no core of the reach is refused and logged
(R14), and the trap is taken (DESIGN CHOICE, log 30). -/
def State.supervise (s : State) (core : CoreNo) (key : Nat) (pc : Word) (fl : Flags) : State :=
  let c := s.ctxAt core key
  let k := s.partKey core key
  let sup : CoreNo := c.fsup.extractLsb' 0 20
  let trap := fun (s : State) => s.modCtx core key fun c => { c with fexc := some fl }
  if !c.fsup.getLsbD 20 then trap s
  else if !assigned s sup ∨ !isCompute sup ∨ !s.inReach k sup then
    trap (s.logError k (if assigned s sup then 0x02 else 0x01) (sup.setWidth 64) core (key % 16) pc).2
  else
    (s.parkCtx core key .supervisor).send core sup .th k 0 2 key
      (.amsg 0 ⟨supDw0 core key fl, 0⟩ ⟨pc, 0⟩ (key % 16) true k.ten)

/-- A context's instruction has retired into `f`: its flags are committed, and an enabled one raises its event. -/
def State.retiring (s : State) (core : CoreNo) (key : Nat) (f : Ctx → Ctx) : State :=
  let c := s.ctxAt core key
  let s := s.setCtx core key (f c)
  if c.commits &&& c.fenable = 0 then s else s.supervise core key c.raisedAt c.commits

/-- Retire a context's instruction. -/
def State.retireCtx (s : State) (core : CoreNo) (key : Nat) : State := s.retiring core key Ctx.retire
/-- Retire the acting context's instruction. -/
def State.retire (s : State) : State := s.retireCtx s.core s.key
/-- Retire the acting context's instruction with a transfer under the target check (R87). -/
def State.transfer (s : State) (pc : Word) : State :=
  s.retiring s.core s.key fun c => { c.retireTo pc with enter := some c.pc }

end Sys2Proof.Machine
end

