-- ==== Sys2Proof/Machine/Operands.lean ====
section
/-!
DEFINITION. Operand forms (R66, R91 to R93): effective addresses, the registers that an instruction reads and writes,
its pairing category, and the checks that stand before every instruction's own effect: the kind of core (R19), stream
registers (R210), pending tokens (R103) and the sequencer (R208, R209).
-/
namespace Sys2Proof

/-- A register by file and number. -/
inductive RegRef where
  | g (n : GReg)
  | f (n : FReg)
  | v (n : Fin 8)
  | m (n : MReg)
  | k (n : KReg)
  deriving DecidableEq, Repr

/-- What an instruction reads and writes. A token counts as written (R90, R103). -/
structure Use where
  r : List RegRef := []
  w : List RegRef := []
  deriving DecidableEq, Repr

/-- The stream register behind a code 0x18 to 0x1F: f24 to f31 (R93). -/
def streamReg (n : Fin 8) : FReg := ⟨24 + n.val, by omega⟩
/-- A v operand as a register. -/
def VOp.ref : VOp → RegRef
  | .v n => .v n
  | .s n => .f (streamReg n)
/-- The registers of a memory operand. -/
def MemOp.regs : MemOp → List GReg
  | .off b _ => [b]
  | .idx b i _ => [b, i]
/-- The same as references. -/
def MemOp.refs (m : MemOp) : List RegRef := m.regs.map .g
/-- The four argument registers of a CALLAT (R327). -/
def argRegs (a : GReg) : List GReg := [a, a + 1, a + 2, a + 3]

/-- d from a and b. -/
def useDAB (d a b : GReg) : Use := { r := [.g a, .g b], w := [.g d] }
/-- d from a. -/
def useDA (d a : GReg) : Use := { r := [.g a], w := [.g d] }
/-- g registers read. -/
def useR (rs : List GReg) : Use := { r := rs.map .g }
/-- f registers. -/
def useF (d : FReg) (rs : List FReg) : Use := { r := rs.map .f, w := [.f d] }
/-- v operands; a masked form reads its mask and the old vD. -/
def useV (d : VOp) (m : Option MReg) (rs : List VOp) : Use :=
  { r := rs.map VOp.ref ++ (match m with | some x => [.m x, d.ref] | none => []), w := [d.ref] }
/-- The base of a barrier operand. -/
def barRegs : Option BarOp → List GReg
  | some b => [b.reg]
  | none => []

/-- The registers that each instruction reads and writes (R90, R92). -/
def Instr.use : Instr → Use
  | .nop | .br _ | .done | .yield | .lflush | .fence _ | .fenceX _ _ | .mret | .trap _ | .eret | .dbgbrk | .idle
  | .reply _ 0 => {}
  | .brCond _ a b _ => useR [a, b]
  | .call _ => { w := [.g 62] }
  | .callr a => useDA 62 a
  | .jr a | .start a | .startPool a | .reap a | .lwin a | .ackReplay a | .ackResume a | .ackRefuse a | .csave a
  | .crest a | .banksel a | .tlbinv _ a | .sstop a | .nfree a | .mts _ a | .reply _ a => useR [a]
  | .loop c _ => useDA c c
  | .spawnMark j a b _ => useR [j, a, b]
  | .spawnReg p j a b => useR [p, j, a, b]
  | .jinit b _ | .join b _ | .migrate b _ | .barinitAbort b _ | .bararr b _ | .scfg _ b _ => useR [b]
  | .add _ d a b | .sub _ d a b | .and _ d a b | .or _ d a b | .xor _ d a b | .andn _ d a b | .shl _ d a b
  | .shr _ d a b | .sra _ d a b | .rol _ d a b | .ror _ d a b | .mul _ d a b | .mulh _ d a b | .mulhu _ d a b
  | .div _ d a b | .divu _ d a b | .rem _ d a b | .remu _ d a b | .max _ d a b | .min _ d a b | .maxu _ d a b
  | .minu _ d a b | .cmp _ _ d a b => useDAB d a b
  | .addi _ d a _ | .subi _ d a _ | .andi _ d a _ | .ori _ d a _ | .xori _ d a _ | .shli _ d a _ | .shri _ d a _
  | .srai _ d a _ | .roli _ d a _ | .rori _ d a _ | .clz _ d a | .ctz _ d a | .popc _ d a | .brev _ d a
  | .bswap _ d a | .ext _ d a _ _ | .extz _ d a _ _ => useDA d a
  | .funl _ d a b c | .funr _ d a b c => { r := [.g a, .g b, .g c], w := [.g d] }
  | .ins _ d a _ _ => { r := [.g d, .g a], w := [.g d] }
  | .sel _ d c a b => { r := [.g c, .g a, .g b], w := [.g d] }
  | .li d _ | .assume d _ | .lclr d | .mfs d _ | .mwait d | .mstat d => { w := [.g d] }
  | .lih d _ => { r := [.g d], w := [.g d] }
  | .lea d m | .lds _ d m | .ldf _ d m | .gldInt _ _ d m | .ld _ _ _ d m | .ldz _ _ _ d m =>
    { r := m.refs, w := [.g d] }
  | .lunion d a b | .lset d a b | .lenvget d a b => useDAB d a b
  | .nogood t a | .rtload t a | .rtswap t a | .psplit t a | .pmerge t a => useDA t a
  | .lget d a | .ltest d a | .lcount d a | .jrnl d a | .nalloc d a => useDA d a
  | .ppop d a => { w := [.g d, .g a] }
  | .rdisp a b => { r := [.g a, .g b], w := [.g a, .g b] }
  | .st _ _ a m | .sts _ a m | .stf _ a m => { r := .g a :: m.refs }
  | .feclr m => { r := m.refs }
  | .fld _ _ d m | .gldFloat _ _ d m => { r := m.refs, w := [.f d] }
  | .fst _ _ a m => { r := .f a :: m.refs }
  | .aadd _ _ d b _ a | .aand _ _ d b _ a | .aor _ _ d b _ a | .axor _ _ d b _ a | .amin _ _ d b _ a
  | .amax _ _ d b _ a | .aminu _ _ d b _ a | .amaxu _ _ d b _ a | .aswap _ _ d b _ a => useDAB d b a
  | .aaddPost _ b _ a | .aandPost _ b _ a | .aorPost _ b _ a | .axorPost _ b _ a | .aminPost _ b _ a
  | .amaxPost _ b _ a | .aminuPost _ b _ a | .amaxuPost _ b _ a | .aswapPost _ b _ a => useR [b, a]
  | .acas _ _ d b _ a c => { r := [.g b, .g a, .g c], w := [.g d] }
  | .afadd _ _ d b _ a => { r := [.g b, .f a], w := [.f d] }
  | .afaddPost _ b _ a => { r := [.g b, .f a] }
  | .barinit b _ a => useR [b, a]
  | .barwait b _ p => { r := [.g b, .g p], w := [.g p] }
  | .bartry d b _ p => useDAB d b p
  | .fadd _ _ d a b | .fsub _ _ d a b | .fmul _ _ d a b | .fmin _ d a b | .fmax _ d a b | .fdiv _ d a b =>
    useF d [a, b]
  | .fma _ _ d a b c => useF d [a, b, c]
  | .fabs _ d a | .fneg _ d a | .fcvtFf _ _ _ _ d a | .fmovFf d a | .frint _ _ d a | .fexp2f _ d a | .flog2 _ d a
  | .frcp _ d a | .frsq _ d a | .fsqrt _ d a | .fsin _ d a | .fcos _ d a => useF d [a]
  | .fcmp _ _ d a b => { r := [.f a, .f b], w := [.g d] }
  | .fcvtGf _ _ _ _ d a | .fmovGf d a => { r := [.f a], w := [.g d] }
  | .fcvtFg _ _ _ _ d a | .fmovFg d a => { r := [.g a], w := [.f d] }
  | .fscale _ _ d a b => { r := [.f a, .g b], w := [.f d] }
  | .vadd _ _ _ m d a b | .vsub _ _ _ m d a b | .vmul _ _ _ m d a b | .vmin _ _ _ m d a b | .vmax _ _ _ m d a b =>
    useV d m [a, b]
  | .vfma _ _ d a b c => useV d none [a, b, c]
  | .vabs _ m d a | .vneg _ m d a => useV d m [a]
  | .vand _ d a b | .vor _ d a b | .vxor _ d a b | .vshl _ d a b | .vshr _ d a b | .vscale _ _ d a b =>
    useV d none [a, b]
  | .vcmp _ _ d a b => { r := [a.ref, b.ref], w := [.m d] }
  | .vsel d m b c => { r := [.m m, b.ref, c.ref], w := [d.ref] }
  | .vcvt _ _ _ _ d a => useV d none [a]
  | .vred _ t _ d a => { r := [a.ref], w := [if t.isFloat then .f (Fin.ofNat 32 d.val) else .g d] }
  | .vbcastG _ d a => { r := [.g a], w := [d.ref] }
  | .vbcastF _ d a => { r := [.f a], w := [d.ref] }
  | .vmask d a b => { r := [.g a, .g b], w := [.m d] }
  | .vld _ d m => { r := m.refs, w := [d.ref] }
  | .vst _ a k m => { r := a.ref :: .m k :: m.refs }
  | .vloop _ c => useR [c]
  | .mmul _ _ _ t c a b k => { r := [.g c, .g a, .g b, .g k], w := [.g t] }
  | .msca _ t c a b | .msliceImm _ _ _ t c a b _ => { r := [.g c, .g a, .g b], w := [.g t] }
  | .msliceReg _ _ _ t c a b s => { r := [.g c, .g a, .g b, .g s], w := [.g t] }
  | .mzero t c => useDA t c
  | .mmove b _ a => useR [b, a]
  | .mctlSetP a b | .mctlSetSplit a b | .mctlSetRhalf a b | .mctlSetTol a b | .mctlSetBnorm a b | .mctlSetCap a b
  | .mctlSetIter a b | .calsetCalendar a b | .calsetArbitration a b | .link a b | .ppush a b => useR [a, b]
  | .rtest t c a => useDAB t c a
  | .kset k a => { r := [.g a], w := [.k k] }
  | .cpy t x y n b | .cpyg t x y n b | .cpys t x y n b => { r := ([x, y, n] ++ barRegs b).map .g, w := [.g t] }
  | .xformReshape t a b | .xformCompact t a b | .xformExpand t a b | .xformMxPack t a b | .xformMxPackSat t a b
  | .xformMxUnpack t a b | .xformDeltaEncode t a b | .xformDeltaDecode t a b | .xformZeroRun t a b
  | .xformDeltaZeroRun t a b => useDAB t a b
  | .amsgMark _ k a b _ => useR [k, a, b]
  | .amsgReg _ p k a b => useR [p, k, a, b]
  | .callatMark _ t k a _ => { r := (k :: argRegs a).map .g, w := [.g t] }
  | .callatReg _ t k p a => { r := (k :: p :: argRegs a).map .g, w := [.g t] }
  | _ => {}

/-- The major code of an instruction (R96). -/
def Instr.op (i : Instr) : Nat := match encodeFields i with
  | some f => f.op.toNat
  | none => 0

/-- Pairing categories (R89). -/
inductive Cat where
  | I | M | F | V | B
  deriving DecidableEq, Repr

/-- The category of a major code (R89). -/
def catOf (op : Nat) : Option Cat :=
  if 0x10 ≤ op ∧ op ≤ 0x2B then some .I
  else if (0x38 ≤ op ∧ op ≤ 0x3A) ∨ op = 0x40 ∨ op = 0x41 ∨ op = 0x90 ∨ op = 0x91 then some .M
  else if 0x60 ≤ op ∧ op ≤ 0x6B then some .F
  else if 0x80 ≤ op ∧ op ≤ 0x8F then some .V
  else if op = 0x02 then some .B
  else none

/-- The combinations of R89. -/
def pairOk (a b : Option Cat) : Bool :=
  match a, b with
  | some .I, some _ => true
  | some .M, some y => y != .M
  | some .F, some y => y != .F
  | some .V, some y => y != .V
  | _, _ => false

/-- Registers that count as written: a write of g0 is none (R79). -/
def Use.written (u : Use) : List RegRef := u.w.filter (· != .g 0)

/-- The register conflicts of a pair (R90). -/
def conflicts (x y : Use) : Bool :=
  (x.written.any fun r => y.r.contains r || y.written.contains r) || (y.written.any fun r => x.r.contains r)

/-- A pair that R89 and R90 allow. -/
def pairLegal (i j : Instr) : Bool := pairOk (catOf i.op) (catOf j.op) && !conflicts i.use j.use

/-- Instructions of the classes that only compute cores execute (R19): vector, scalar float, special function, matrix,
copy and transform, and the rewrite templates'. -/
def computeOnly (op : Nat) : Bool :=
  (decide (0x60 ≤ op) && decide (op ≤ 0x77)) || (decide (0x80 ≤ op) && decide (op ≤ 0xB3)) ||
  (decide (0xB8 ≤ op) && decide (op ≤ 0xBE))

/-- The numbers of system registers (R348). -/
def sysReg (n : Nat) : Bool := decide (n ≤ 30) || (decide (0x20 ≤ n) && decide (n ≤ 0x2A))
/-- An instruction that names a system register that there is not (R98, R349). -/
def Instr.absentReg : Instr → Bool
  | .mfs _ n | .mts n _ => !sysReg n.toNat
  | _ => false

/-- A scalar instruction, FLD, FST or FMOV that names a bound stream register is illegal (R210). VBCAST and VRED name
their f register in a field that is no v field and count as scalar uses (DEDUCED, log 31). -/
def Instr.scalarF (i : Instr) : List RegRef :=
  match i with
  | .vbcastF _ _ a => [.f a]
  | .vred _ t _ d _ => if t.isFloat then [.f (Fin.ofNat 32 d.val)] else []
  | .scfg _ _ _ => []
  | _ => if decide (0x80 ≤ i.op) && decide (i.op ≤ 0x91) then [] else i.use.r ++ i.use.w

/-- v fields that name a stream register (R210). -/
def Instr.streams (i : Instr) : List RegRef :=
  if decide (0x80 ≤ i.op) && decide (i.op ≤ 0x91) then
    (i.use.r ++ i.use.w).filter fun r => match r with
      | .f n => decide (24 ≤ n.val) && !(i.scalarF.contains r)
      | _ => false
  else []

/-- An integer instruction with d = 0 has no effect, so it reads nothing (R128). -/
def Instr.inert (i : Instr) : Bool := catOf i.op == some .I && i.use.w == [.g 0]

namespace Machine

/-- Whether an f register is bound as a stream (R210). -/
def Ctx.bound (c : Ctx) (r : RegRef) : Bool :=
  match r with
  | .f n => if 24 ≤ n.val then (c.streams[n.val - 24]?.getD none).isSome else false
  | _ => false

/-- The lane widths that an instruction's v sources and its v result have; none where any width is taken (R192, R211;
VSEL, VLD and VST by log 106). -/
def laneWidths : Instr → Option Nat × Option Nat
  | .vadd t _ _ _ _ _ _ | .vsub t _ _ _ _ _ _ | .vmul t _ _ _ _ _ _ | .vmin t _ _ _ _ _ _ | .vmax t _ _ _ _ _ _
  | .vfma t _ _ _ _ _ | .vabs t _ _ _ | .vneg t _ _ _ | .vshl t _ _ _ | .vshr t _ _ _ => (some (tyBits t), some (tyBits t))
  | .vscale t _ _ _ _ => (some (tyBits t.ty), some (tyBits t.ty))
  | .vcmp _ t _ _ _ => (some (tyBits t), none)
  | .vcvt ta tb _ _ _ _ => (some (tyBits tb), some (tyBits ta))
  | .vred _ t _ _ _ => (some (tyBits t), none)
  | .vbcastG t _ _ | .vbcastF t _ _ => (none, some (tyBits t))
  | _ => (none, none)

/-- The element type of a layout record, where FMT names one (R288). -/
def Shape.ty (r : Shape) : Option Ty := (tyOf (r.raw.extractLsb' 64 5)).toOption
/-- The element width of a layout record in bits; 8 where FMT names no type. -/
def Shape.bits (r : Shape) : Nat := match r.ty with | some t => tyBits t | none => 8
/-- The stream bound to a register (R210). -/
def Ctx.strmRef (c : Ctx) (r : RegRef) : Option Stream :=
  match r with
  | .f n => if 24 ≤ n.val then c.streams[n.val - 24]?.getD none else none
  | _ => none
/-- An access to a stream register that is illegal (R211): in the direction that its first access did not fix, at another
width than that of its elements, or in both directions at once. -/
def Ctx.streamBad (c : Ctx) (i : Instr) (r : RegRef) : Bool :=
  let bad := fun (read : Bool) (w : Option Nat) => match c.strmRef r with
    | some x => x.dir == some (!read) || (match w with | some b => b != x.shape.bits | none => false)
    | none => false
  (i.use.r.contains r && bad true (laneWidths i).1) || (i.use.w.contains r && bad false (laneWidths i).2) ||
    (i.use.r.contains r && i.use.w.contains r)

/-- The g registers among references. -/
def gRefs (l : List RegRef) : List GReg := l.filterMap fun r => match r with | .g n => some n | _ => none

/-- Memory, vector and special-function instructions, which wait while the context's own VLOOP runs (R209). -/
def waitsForLoop (op : Nat) : Bool :=
  (decide (0x38 ≤ op) && decide (op ≤ 0x5E)) || (decide (0x70 ≤ op) && decide (op ≤ 0x77)) ||
  (decide (0x80 ≤ op) && decide (op ≤ 0x93)) || op == 0x08 || op == 0x09 || op == 0x0A || op == 0xA4 ||
  [0xB8, 0xB9, 0xBA, 0xBD, 0xBE].contains op

/-- What a captured body reads and writes. -/
def Loop.use (l : Loop) : Use :=
  { r := l.body.flatMap fun p => p.2.use.r, w := l.body.flatMap fun p => p.2.use.w }

/-- The loop that the sequencer runs: that of the current set (R218). -/
def CoreSt.loop (c : CoreSt) : Option Loop := c.loops.find? fun l => keySet l.key == c.cur

/-- The loop of a set that is not current whose captured instruction is still in progress: the sequencer finishes it before
it serves the current set (R218), unless that instruction waits for a resolver. -/
def CoreSt.finishing (c : CoreSt) : Option Loop := c.loops.find? fun l => l.running && keySet l.key != c.cur &&
  (match (c.ctxAt (64 + l.key)).run with
    | .wait (.fault _) | .wait (.host ..) => false
    | _ => true)

/-- Whether the acting context must wait for the sequencer before an instruction (R208, R209): for another context's loop,
its own, an instruction that the sequencer still finishes, or the end of an engine-freeze (R378). -/
def State.seqHeld (s : State) (i : Instr) : Bool :=
  let enters := decide (0x80 ≤ i.op) && decide (i.op ≤ 0x92) && s.me.out == .none
  if 64 ≤ s.key then false
  else if enters && (s.here.freeze || s.here.finishing.isSome) then true
  else match s.here.loop with
  | none => false
  | some l =>
    if l.key = s.key then
      waitsForLoop i.op || i.use.r.any (fun r => l.use.written.contains r) ||
        i.use.written.any (fun r => l.use.r.contains r || l.use.written.contains r)
    else decide (0x80 ≤ i.op) && decide (i.op ≤ 0x92)

/-- Put the acting context in WAIT, its bound (R331) counted from the first time it waits so. -/
def State.waitFrom (s : State) (w : Why) : State :=
  (s.modMe fun c => { c with since := if c.run = .wait w then c.since else s.cycleOf (pkgOf s.core) }).wait w

/-- The illegal-instruction traps that a slot meets before its instruction's own entry: the core's kind (R19), a system
register that there is not (R349), a stream register out of its place or use (R210, R211), a pending token that would be
written (R103). They stand in item 4 of R98. -/
def State.slotIllegal (s : State) (i : Instr) : Bool :=
  let c := s.me
  (computeOnly i.op && !isCompute s.core) || i.absentReg || i.scalarF.any c.bound ||
    i.streams.any (fun r => !c.bound r || c.streamBad i r) || (!i.inert && (gRefs i.use.w).any c.pend.contains)

/-- What stands before every instruction's own effect: the illegal-instruction traps of its slot, a pending token that is
read (WAIT) (R103), and the sequencer. -/
def State.guarded (s : State) (i : Instr) (k : State → State) : State :=
  let c := s.me
  if s.slotIllegal i then s.illegal
  else if i.inert then k s
  else match (gRefs i.use.r).find? (fun r => c.pend.contains r) with
    | some r => s.waitFrom (.token r)
    | none => if s.seqHeld i then s.wait .sequencer else k s

/-- The address of a memory operand (R66). -/
def Ctx.ea (c : Ctx) : MemOp → Word
  | .off b o => (c.g b).val + o.signExtend 64
  | .idx b i scl => (c.g b).val + ((c.g i).val <<< scl.val)
/-- The address [gB±off]. -/
def Ctx.eaOff (c : Ctx) (b : GReg) (o : BitVec 40) : Word := (c.g b).val + o.signExtend 64

end Machine
end Sys2Proof
end

