-- ==== Sys2Proof/Machine/Integer.lean ====
section
/-!
DEFINITION. The integer instructions (R128 to R138), major codes 0x10 to 0x2B. Each is described by an Alu: its
destination, the registers it reads, whose labels the result conjoins, and the value it computes.
-/
namespace Sys2Proof.Machine

/-- An integer operation. -/
structure Alu where
  d : GReg
  srcs : List GReg
  f : (GReg → Word) → Word

/-- Src (R128): bits 31:0 under .w. -/
def src (w : Bool) (x : Word) : Word := if w then (x.setWidth 32).setWidth 64 else x
/-- Out (R128): bits 31:0 sign-extended under .w. -/
def out (w : Bool) (r : Word) : Word := if w then (r.setWidth 32).signExtend 64 else r
/-- The width in bits (R128). -/
def wide (w : Bool) : Nat := if w then 32 else 64
/-- A source as a natural value of its width. -/
def nat (w : Bool) (x : Word) : Nat := (src w x).toNat
/-- A source as a signed value of its width. -/
def int (w : Bool) (x : Word) : Int := toSigned (wide w) (nat w x)
/-- A result from an integer. -/
def ofI (w : Bool) (x : Int) : Word := out w (BitVec.ofNat 64 (wrapInt 64 x))
/-- A result from a natural. -/
def ofN (w : Bool) (x : Nat) : Word := out w (BitVec.ofNat 64 x)
/-- The amount of a shift (R133). -/
def amount (w : Bool) (x : Word) : Nat := x.toNat % wide w
/-- An immediate as a source (R131). -/
def immW (i : BitVec 40) : Word := i.signExtend 64
/-- Cond over w bits (R117, R131). -/
def condHolds (c : Cond) (w : Bool) (x y : Word) : Bool :=
  match c with
  | .eq => nat w x == nat w y
  | .ne => nat w x != nat w y
  | .lt => decide (int w x < int w y)
  | .ge => decide (int w y ≤ int w x)
  | .lo => decide (nat w x < nat w y)
  | .hs => decide (nat w y ≤ nat w x)

-- Values (R131 to R135)

/-- Shift left. -/
def shlV (w : Bool) (x : Word) (n : Nat) : Word := ofN w (nat w x * 2 ^ n)
/-- Natural shift right. -/
def shrV (w : Bool) (x : Word) (n : Nat) : Word := ofN w (nat w x / 2 ^ n)
/-- Arithmetic shift right. -/
def sraV (w : Bool) (x : Word) (n : Nat) : Word := ofI w (int w x / 2 ^ n)
/-- Rotate left within w bits. -/
def rolV (w : Bool) (x : Word) (n : Nat) : Word := ofN w (nat w x * 2 ^ n + nat w x / 2 ^ (wide w - n))
/-- Rotate right within w bits. -/
def rorV (w : Bool) (x : Word) (n : Nat) : Word := ofN w (nat w x / 2 ^ n + nat w x * 2 ^ (wide w - n))
/-- FUNL (R133). -/
def funlV (w : Bool) (x y : Word) (n : Nat) : Word :=
  ofN w ((nat w x * 2 ^ wide w + nat w y) * 2 ^ n / 2 ^ wide w % 2 ^ wide w)
/-- FUNR (R133). -/
def funrV (w : Bool) (x y : Word) (n : Nat) : Word :=
  ofN w ((nat w x * 2 ^ wide w + nat w y) / 2 ^ n % 2 ^ wide w)
/-- DIV (R132). -/
def divV (w : Bool) (x y : Word) : Word := if nat w y = 0 then ofI w (-1) else ofI w (Int.tdiv (int w x) (int w y))
/-- REM (R132). -/
def remV (w : Bool) (x y : Word) : Word := if nat w y = 0 then ofI w (int w x) else ofI w (Int.tmod (int w x) (int w y))
/-- DIVU (R132). -/
def divuV (w : Bool) (x y : Word) : Word := if nat w y = 0 then ofI w (-1) else ofN w (nat w x / nat w y)
/-- REMU (R132). -/
def remuV (w : Bool) (x y : Word) : Word := if nat w y = 0 then ofN w (nat w x) else ofN w (nat w x % nat w y)
/-- The number of trailing zero bits among `n`; n for zero. -/
def ctzN : Nat → Nat → Nat
  | 0, _ => 0
  | n + 1, x => if x % 2 = 1 then 0 else 1 + ctzN n (x / 2)
/-- The low `n` bits reversed. -/
def brevN : Nat → Nat → Nat
  | 0, _ => 0
  | n + 1, x => x % 2 * 2 ^ n + brevN n (x / 2)
/-- The low `n` bytes reversed. -/
def bswapN (n x : Nat) : Nat := leNat (leBytes n x).reverse
/-- INS (R135): the old value with a field replaced. -/
def insV (w : Bool) (old x : Word) (pos len : Nat) : Word :=
  ofN w (old.toNat - bitsAt old.toNat pos len * 2 ^ pos + x.toNat % 2 ^ len * 2 ^ pos)

/-- Perform an integer operation (R128): with d = 0 nothing, else the value with the conjunction of the labels read. -/
def State.alu (s : State) (i : Instr) (u : Alu) : State :=
  s.guarded i fun s =>
    if u.d = 0 then s.retire
    else match s.conj (u.srcs.map fun r => (s.me.g r).lab) with
      | .ok h s => (s.modMe fun c => c.setG u.d ⟨u.f (fun r => (c.g r).val), h⟩).retire
      | .stop s => s

-- The instructions

/-- ADD (R131). -/
def addOp (w : Bool) (d a b : GReg) : Alu := ⟨d, [a, b], fun g => out w (src w (g a) + src w (g b))⟩
/-- The meaning of ADD. -/
def execAdd (w : Bool) (d a b : GReg) (s : State) : Host.Outcome State Fault Refusal :=
  .next (s.alu (.add w d a b) (addOp w d a b))

/-- SUB (R131). -/
def subOp (w : Bool) (d a b : GReg) : Alu := ⟨d, [a, b], fun g => out w (src w (g a) - src w (g b))⟩
/-- The meaning of SUB. -/
def execSub (w : Bool) (d a b : GReg) (s : State) : Host.Outcome State Fault Refusal :=
  .next (s.alu (.sub w d a b) (subOp w d a b))

/-- AND (R131). -/
def andOp (w : Bool) (d a b : GReg) : Alu := ⟨d, [a, b], fun g => out w (g a &&& g b)⟩
/-- The meaning of AND. -/
def execAnd (w : Bool) (d a b : GReg) (s : State) : Host.Outcome State Fault Refusal :=
  .next (s.alu (.and w d a b) (andOp w d a b))

/-- OR (R131). -/
def orOp (w : Bool) (d a b : GReg) : Alu := ⟨d, [a, b], fun g => out w (g a ||| g b)⟩
/-- The meaning of OR. -/
def execOr (w : Bool) (d a b : GReg) (s : State) : Host.Outcome State Fault Refusal :=
  .next (s.alu (.or w d a b) (orOp w d a b))

/-- XOR (R131). -/
def xorOp (w : Bool) (d a b : GReg) : Alu := ⟨d, [a, b], fun g => out w (g a ^^^ g b)⟩
/-- The meaning of XOR. -/
def execXor (w : Bool) (d a b : GReg) (s : State) : Host.Outcome State Fault Refusal :=
  .next (s.alu (.xor w d a b) (xorOp w d a b))

/-- ADDI (R131). -/
def addiOp (w : Bool) (d a : GReg) (i : BitVec 40) : Alu := ⟨d, [a], fun g => out w (src w (g a) + src w (immW i))⟩
/-- The meaning of ADDI. -/
def execAddi (w : Bool) (d a : GReg) (i : BitVec 40) (s : State) : Host.Outcome State Fault Refusal :=
  .next (s.alu (.addi w d a i) (addiOp w d a i))

/-- SUBI (R131). -/
def subiOp (w : Bool) (d a : GReg) (i : BitVec 40) : Alu := ⟨d, [a], fun g => out w (src w (g a) - src w (immW i))⟩
/-- The meaning of SUBI. -/
def execSubi (w : Bool) (d a : GReg) (i : BitVec 40) (s : State) : Host.Outcome State Fault Refusal :=
  .next (s.alu (.subi w d a i) (subiOp w d a i))

/-- ANDI (R131). -/
def andiOp (w : Bool) (d a : GReg) (i : BitVec 40) : Alu := ⟨d, [a], fun g => out w (g a &&& immW i)⟩
/-- The meaning of ANDI. -/
def execAndi (w : Bool) (d a : GReg) (i : BitVec 40) (s : State) : Host.Outcome State Fault Refusal :=
  .next (s.alu (.andi w d a i) (andiOp w d a i))

/-- ORI (R131). -/
def oriOp (w : Bool) (d a : GReg) (i : BitVec 40) : Alu := ⟨d, [a], fun g => out w (g a ||| immW i)⟩
/-- The meaning of ORI. -/
def execOri (w : Bool) (d a : GReg) (i : BitVec 40) (s : State) : Host.Outcome State Fault Refusal :=
  .next (s.alu (.ori w d a i) (oriOp w d a i))

/-- XORI (R131). -/
def xoriOp (w : Bool) (d a : GReg) (i : BitVec 40) : Alu := ⟨d, [a], fun g => out w (g a ^^^ immW i)⟩
/-- The meaning of XORI. -/
def execXori (w : Bool) (d a : GReg) (i : BitVec 40) (s : State) : Host.Outcome State Fault Refusal :=
  .next (s.alu (.xori w d a i) (xoriOp w d a i))

/-- ANDN (R131). -/
def andnOp (w : Bool) (d a b : GReg) : Alu := ⟨d, [a, b], fun g => out w (g a &&& ~~~(g b))⟩
/-- The meaning of ANDN. -/
def execAndn (w : Bool) (d a b : GReg) (s : State) : Host.Outcome State Fault Refusal :=
  .next (s.alu (.andn w d a b) (andnOp w d a b))

/-- SHL (R133). -/
def shlOp (w : Bool) (d a b : GReg) : Alu := ⟨d, [a, b], fun g => shlV w (g a) (amount w (g b))⟩
/-- The meaning of SHL. -/
def execShl (w : Bool) (d a b : GReg) (s : State) : Host.Outcome State Fault Refusal :=
  .next (s.alu (.shl w d a b) (shlOp w d a b))

/-- SHR (R133). -/
def shrOp (w : Bool) (d a b : GReg) : Alu := ⟨d, [a, b], fun g => shrV w (g a) (amount w (g b))⟩
/-- The meaning of SHR. -/
def execShr (w : Bool) (d a b : GReg) (s : State) : Host.Outcome State Fault Refusal :=
  .next (s.alu (.shr w d a b) (shrOp w d a b))

/-- SRA (R133). -/
def sraOp (w : Bool) (d a b : GReg) : Alu := ⟨d, [a, b], fun g => sraV w (g a) (amount w (g b))⟩
/-- The meaning of SRA. -/
def execSra (w : Bool) (d a b : GReg) (s : State) : Host.Outcome State Fault Refusal :=
  .next (s.alu (.sra w d a b) (sraOp w d a b))

/-- ROL (R133). -/
def rolOp (w : Bool) (d a b : GReg) : Alu := ⟨d, [a, b], fun g => rolV w (g a) (amount w (g b))⟩
/-- The meaning of ROL. -/
def execRol (w : Bool) (d a b : GReg) (s : State) : Host.Outcome State Fault Refusal :=
  .next (s.alu (.rol w d a b) (rolOp w d a b))

/-- ROR (R133). -/
def rorOp (w : Bool) (d a b : GReg) : Alu := ⟨d, [a, b], fun g => rorV w (g a) (amount w (g b))⟩
/-- The meaning of ROR. -/
def execRor (w : Bool) (d a b : GReg) (s : State) : Host.Outcome State Fault Refusal :=
  .next (s.alu (.ror w d a b) (rorOp w d a b))

/-- SHLI (R133). -/
def shliOp (w : Bool) (d a : GReg) (n : Fin 64) : Alu := ⟨d, [a], fun g => shlV w (g a) n.val⟩
/-- The meaning of SHLI. -/
def execShli (w : Bool) (d a : GReg) (n : Fin 64) (s : State) : Host.Outcome State Fault Refusal :=
  .next (s.alu (.shli w d a n) (shliOp w d a n))

/-- SHRI (R133). -/
def shriOp (w : Bool) (d a : GReg) (n : Fin 64) : Alu := ⟨d, [a], fun g => shrV w (g a) n.val⟩
/-- The meaning of SHRI. -/
def execShri (w : Bool) (d a : GReg) (n : Fin 64) (s : State) : Host.Outcome State Fault Refusal :=
  .next (s.alu (.shri w d a n) (shriOp w d a n))

/-- SRAI (R133). -/
def sraiOp (w : Bool) (d a : GReg) (n : Fin 64) : Alu := ⟨d, [a], fun g => sraV w (g a) n.val⟩
/-- The meaning of SRAI. -/
def execSrai (w : Bool) (d a : GReg) (n : Fin 64) (s : State) : Host.Outcome State Fault Refusal :=
  .next (s.alu (.srai w d a n) (sraiOp w d a n))

/-- ROLI (R133). -/
def roliOp (w : Bool) (d a : GReg) (n : Fin 64) : Alu := ⟨d, [a], fun g => rolV w (g a) n.val⟩
/-- The meaning of ROLI. -/
def execRoli (w : Bool) (d a : GReg) (n : Fin 64) (s : State) : Host.Outcome State Fault Refusal :=
  .next (s.alu (.roli w d a n) (roliOp w d a n))

/-- RORI (R133). -/
def roriOp (w : Bool) (d a : GReg) (n : Fin 64) : Alu := ⟨d, [a], fun g => rorV w (g a) n.val⟩
/-- The meaning of RORI. -/
def execRori (w : Bool) (d a : GReg) (n : Fin 64) (s : State) : Host.Outcome State Fault Refusal :=
  .next (s.alu (.rori w d a n) (roriOp w d a n))

/-- FUNL (R133). -/
def funlOp (w : Bool) (d a b c : GReg) : Alu := ⟨d, [a, b, c], fun g => funlV w (g a) (g b) (amount w (g c))⟩
/-- The meaning of FUNL. -/
def execFunl (w : Bool) (d a b c : GReg) (s : State) : Host.Outcome State Fault Refusal :=
  .next (s.alu (.funl w d a b c) (funlOp w d a b c))

/-- FUNR (R133). -/
def funrOp (w : Bool) (d a b c : GReg) : Alu := ⟨d, [a, b, c], fun g => funrV w (g a) (g b) (amount w (g c))⟩
/-- The meaning of FUNR. -/
def execFunr (w : Bool) (d a b c : GReg) (s : State) : Host.Outcome State Fault Refusal :=
  .next (s.alu (.funr w d a b c) (funrOp w d a b c))

/-- MUL (R131). -/
def mulOp (w : Bool) (d a b : GReg) : Alu := ⟨d, [a, b], fun g => ofI w (int w (g a) * int w (g b))⟩
/-- The meaning of MUL. -/
def execMul (w : Bool) (d a b : GReg) (s : State) : Host.Outcome State Fault Refusal :=
  .next (s.alu (.mul w d a b) (mulOp w d a b))

/-- MULH (R131). -/
def mulhOp (w : Bool) (d a b : GReg) : Alu := ⟨d, [a, b], fun g => ofI w (int w (g a) * int w (g b) / 2 ^ wide w)⟩
/-- The meaning of MULH. -/
def execMulh (w : Bool) (d a b : GReg) (s : State) : Host.Outcome State Fault Refusal :=
  .next (s.alu (.mulh w d a b) (mulhOp w d a b))

/-- MULHU (R131). -/
def mulhuOp (w : Bool) (d a b : GReg) : Alu := ⟨d, [a, b], fun g => ofN w (nat w (g a) * nat w (g b) / 2 ^ wide w)⟩
/-- The meaning of MULHU. -/
def execMulhu (w : Bool) (d a b : GReg) (s : State) : Host.Outcome State Fault Refusal :=
  .next (s.alu (.mulhu w d a b) (mulhuOp w d a b))

/-- DIV (R132). -/
def divOp (w : Bool) (d a b : GReg) : Alu := ⟨d, [a, b], fun g => divV w (g a) (g b)⟩
/-- The meaning of DIV. -/
def execDiv (w : Bool) (d a b : GReg) (s : State) : Host.Outcome State Fault Refusal :=
  .next (s.alu (.div w d a b) (divOp w d a b))

/-- DIVU (R132). -/
def divuOp (w : Bool) (d a b : GReg) : Alu := ⟨d, [a, b], fun g => divuV w (g a) (g b)⟩
/-- The meaning of DIVU. -/
def execDivu (w : Bool) (d a b : GReg) (s : State) : Host.Outcome State Fault Refusal :=
  .next (s.alu (.divu w d a b) (divuOp w d a b))

/-- REM (R132). -/
def remOp (w : Bool) (d a b : GReg) : Alu := ⟨d, [a, b], fun g => remV w (g a) (g b)⟩
/-- The meaning of REM. -/
def execRem (w : Bool) (d a b : GReg) (s : State) : Host.Outcome State Fault Refusal :=
  .next (s.alu (.rem w d a b) (remOp w d a b))

/-- REMU (R132). -/
def remuOp (w : Bool) (d a b : GReg) : Alu := ⟨d, [a, b], fun g => remuV w (g a) (g b)⟩
/-- The meaning of REMU. -/
def execRemu (w : Bool) (d a b : GReg) (s : State) : Host.Outcome State Fault Refusal :=
  .next (s.alu (.remu w d a b) (remuOp w d a b))

/-- MAX (R131). -/
def maxOp (w : Bool) (d a b : GReg) : Alu := ⟨d, [a, b], fun g => ofI w (max (int w (g a)) (int w (g b)))⟩
/-- The meaning of MAX. -/
def execMax (w : Bool) (d a b : GReg) (s : State) : Host.Outcome State Fault Refusal :=
  .next (s.alu (.max w d a b) (maxOp w d a b))

/-- MIN (R131). -/
def minOp (w : Bool) (d a b : GReg) : Alu := ⟨d, [a, b], fun g => ofI w (min (int w (g a)) (int w (g b)))⟩
/-- The meaning of MIN. -/
def execMin (w : Bool) (d a b : GReg) (s : State) : Host.Outcome State Fault Refusal :=
  .next (s.alu (.min w d a b) (minOp w d a b))

/-- MAXU (R131). -/
def maxuOp (w : Bool) (d a b : GReg) : Alu := ⟨d, [a, b], fun g => ofN w (max (nat w (g a)) (nat w (g b)))⟩
/-- The meaning of MAXU. -/
def execMaxu (w : Bool) (d a b : GReg) (s : State) : Host.Outcome State Fault Refusal :=
  .next (s.alu (.maxu w d a b) (maxuOp w d a b))

/-- MINU (R131). -/
def minuOp (w : Bool) (d a b : GReg) : Alu := ⟨d, [a, b], fun g => ofN w (min (nat w (g a)) (nat w (g b)))⟩
/-- The meaning of MINU. -/
def execMinu (w : Bool) (d a b : GReg) (s : State) : Host.Outcome State Fault Refusal :=
  .next (s.alu (.minu w d a b) (minuOp w d a b))

/-- CLZ (R134). -/
def clzOp (w : Bool) (d a : GReg) : Alu := ⟨d, [a], fun g => ofN w (wide w - bitLen (nat w (g a)))⟩
/-- The meaning of CLZ. -/
def execClz (w : Bool) (d a : GReg) (s : State) : Host.Outcome State Fault Refusal :=
  .next (s.alu (.clz w d a) (clzOp w d a))

/-- CTZ (R134). -/
def ctzOp (w : Bool) (d a : GReg) : Alu := ⟨d, [a], fun g => ofN w (ctzN (wide w) (nat w (g a)))⟩
/-- The meaning of CTZ. -/
def execCtz (w : Bool) (d a : GReg) (s : State) : Host.Outcome State Fault Refusal :=
  .next (s.alu (.ctz w d a) (ctzOp w d a))

/-- POPC (R134). -/
def popcOp (w : Bool) (d a : GReg) : Alu := ⟨d, [a], fun g => ofN w (popCount (wide w) (nat w (g a)))⟩
/-- The meaning of POPC. -/
def execPopc (w : Bool) (d a : GReg) (s : State) : Host.Outcome State Fault Refusal :=
  .next (s.alu (.popc w d a) (popcOp w d a))

/-- BREV (R134). -/
def brevOp (w : Bool) (d a : GReg) : Alu := ⟨d, [a], fun g => ofN w (brevN (wide w) (nat w (g a)))⟩
/-- The meaning of BREV. -/
def execBrev (w : Bool) (d a : GReg) (s : State) : Host.Outcome State Fault Refusal :=
  .next (s.alu (.brev w d a) (brevOp w d a))

/-- BSWAP (R134). -/
def bswapOp (w : Bool) (d a : GReg) : Alu := ⟨d, [a], fun g => ofN w (bswapN (wide w / 8) (nat w (g a)))⟩
/-- The meaning of BSWAP. -/
def execBswap (w : Bool) (d a : GReg) (s : State) : Host.Outcome State Fault Refusal :=
  .next (s.alu (.bswap w d a) (bswapOp w d a))

/-- EXT (R135). -/
def extOp (w : Bool) (d a : GReg) (pos len : Fin 64) : Alu := ⟨d, [a], fun g => out w (sextNat len.val (bitsAt (nat w (g a)) pos.val len.val))⟩
/-- The meaning of EXT. -/
def execExt (w : Bool) (d a : GReg) (pos len : Fin 64) (s : State) : Host.Outcome State Fault Refusal :=
  .next (s.alu (.ext w d a pos len) (extOp w d a pos len))

/-- EXTZ (R135). -/
def extzOp (w : Bool) (d a : GReg) (pos len : Fin 64) : Alu := ⟨d, [a], fun g => ofN w (bitsAt (nat w (g a)) pos.val len.val)⟩
/-- The meaning of EXTZ. -/
def execExtz (w : Bool) (d a : GReg) (pos len : Fin 64) (s : State) : Host.Outcome State Fault Refusal :=
  .next (s.alu (.extz w d a pos len) (extzOp w d a pos len))

/-- INS, which reads gD (R135). -/
def insOp (w : Bool) (d a : GReg) (pos len : Fin 64) : Alu := ⟨d, [d, a], fun g => insV w (g d) (g a) pos.val len.val⟩
/-- The meaning of INS. -/
def execIns (w : Bool) (d a : GReg) (pos len : Fin 64) (s : State) : Host.Outcome State Fault Refusal :=
  .next (s.alu (.ins w d a pos len) (insOp w d a pos len))

/-- CMP (R131). -/
def cmpOp (w : Bool) (c : Cond) (d a b : GReg) : Alu := ⟨d, [a, b], fun g => if condHolds c w (g a) (g b) then 1 else 0⟩
/-- The meaning of CMP. -/
def execCmp (w : Bool) (c : Cond) (d a b : GReg) (s : State) : Host.Outcome State Fault Refusal :=
  .next (s.alu (.cmp w c d a b) (cmpOp w c d a b))

/-- SEL, whose condition is 64 bits wide and may carry a label (R131). -/
def selOp (w : Bool) (d c a b : GReg) : Alu := ⟨d, [c, a, b], fun g => out w (if g c ≠ 0 then src w (g a) else src w (g b))⟩
/-- The meaning of SEL. -/
def execSel (w : Bool) (d c a b : GReg) (s : State) : Host.Outcome State Fault Refusal :=
  .next (s.alu (.sel w d c a b) (selOp w d c a b))

/-- LI (R136). -/
def liOp (d : GReg) (i : BitVec 40) : Alu := ⟨d, [], fun _ => immW i⟩
/-- The meaning of LI. -/
def execLi (d : GReg) (i : BitVec 40) (s : State) : Host.Outcome State Fault Refusal :=
  .next (s.alu (.li d i) (liOp d i))

/-- LIH, which keeps bits 39:0 and the label of gD (R136). -/
def lihOp (d : GReg) (i : BitVec 24) : Alu := ⟨d, [d], fun g => i ++ (g d).extractLsb' 0 40⟩
/-- The meaning of LIH. -/
def execLih (d : GReg) (i : BitVec 24) (s : State) : Host.Outcome State Fault Refusal :=
  .next (s.alu (.lih d i) (lihOp d i))

/-- LEA, which checks nothing of the address (R137). -/
def leaOp (d : GReg) (m : MemOp) : Alu := ⟨d, m.regs, fun g => match m with | .off b o => g b + o.signExtend 64 | .idx b i scl => g b + (g i <<< scl.val)⟩
/-- The meaning of LEA. -/
def execLea (d : GReg) (m : MemOp) (s : State) : Host.Outcome State Fault Refusal :=
  .next (s.alu (.lea d m) (leaOp d m))

/-- The operation of an integer instruction, for a migrant block (R230). -/
def aluOf : Instr → Option Alu
  | .add w d a b => some (addOp w d a b)
  | .sub w d a b => some (subOp w d a b)
  | .and w d a b => some (andOp w d a b)
  | .or w d a b => some (orOp w d a b)
  | .xor w d a b => some (xorOp w d a b)
  | .addi w d a i => some (addiOp w d a i)
  | .subi w d a i => some (subiOp w d a i)
  | .andi w d a i => some (andiOp w d a i)
  | .ori w d a i => some (oriOp w d a i)
  | .xori w d a i => some (xoriOp w d a i)
  | .andn w d a b => some (andnOp w d a b)
  | .shl w d a b => some (shlOp w d a b)
  | .shr w d a b => some (shrOp w d a b)
  | .sra w d a b => some (sraOp w d a b)
  | .rol w d a b => some (rolOp w d a b)
  | .ror w d a b => some (rorOp w d a b)
  | .shli w d a n => some (shliOp w d a n)
  | .shri w d a n => some (shriOp w d a n)
  | .srai w d a n => some (sraiOp w d a n)
  | .roli w d a n => some (roliOp w d a n)
  | .rori w d a n => some (roriOp w d a n)
  | .funl w d a b c => some (funlOp w d a b c)
  | .funr w d a b c => some (funrOp w d a b c)
  | .mul w d a b => some (mulOp w d a b)
  | .mulh w d a b => some (mulhOp w d a b)
  | .mulhu w d a b => some (mulhuOp w d a b)
  | .div w d a b => some (divOp w d a b)
  | .divu w d a b => some (divuOp w d a b)
  | .rem w d a b => some (remOp w d a b)
  | .remu w d a b => some (remuOp w d a b)
  | .max w d a b => some (maxOp w d a b)
  | .min w d a b => some (minOp w d a b)
  | .maxu w d a b => some (maxuOp w d a b)
  | .minu w d a b => some (minuOp w d a b)
  | .clz w d a => some (clzOp w d a)
  | .ctz w d a => some (ctzOp w d a)
  | .popc w d a => some (popcOp w d a)
  | .brev w d a => some (brevOp w d a)
  | .bswap w d a => some (bswapOp w d a)
  | .ext w d a pos len => some (extOp w d a pos len)
  | .extz w d a pos len => some (extzOp w d a pos len)
  | .ins w d a pos len => some (insOp w d a pos len)
  | .cmp w c d a b => some (cmpOp w c d a b)
  | .sel w d c a b => some (selOp w d c a b)
  | .li d i => some (liOp d i)
  | .lih d i => some (lihOp d i)
  | .lea d m => some (leaOp d m)
  | _ => none

end Sys2Proof.Machine
end

