-- ==== Sys2Proof/Machine/Access.lean ====
section
/-!
DEFINITION. Memory accesses (10_memory.md, and the homes' side of 13_atomics.md): where an address lies and the checks
at the issuing core, translation, what a home does with an access, park tables, release windows, the journal, and what
a reply does to the context or unit that waits for it. An access whose home is the issuing core is performed within
its instruction's step; another travels as a message and is performed by an event of its home.
-/
namespace Sys2Proof.Machine

-- Addresses (R168 to R170, R362, R364, R366)

/-- A place that an access may reach. -/
structure Loc where
  ha : Nat
  home : CoreNo
  ls : Bool
  plane : Option Nat := none
  peer : Bool := false
  /-- The page maps a label table or heap (R139). -/
  fixed : Bool := false
  deriving DecidableEq, Repr, Inhabited

/-- What an access does with its address: read it, write it, synchronise on it, act atomically on it, fetch, or only
find where it lies. -/
inductive Use5 where
  | load | store | sync | atomic | fetch | probe
  deriving DecidableEq, Repr

/-- A local store word as a context of a core reaches it: the spill area and the cellar are reserved (0x05), the root
context may reach a bank of its own core that is not resident, and the partition's range bounds the rest (0x02). -/
def State.lsSpot (s : State) (core : CoreNo) (key : Nat) (target : CoreNo) (off : Nat) : Except Nat Loc :=
  let k := s.partKey core key
  let p := s.partAt k
  let l : Loc := { ha := lsAddr target off, home := target, ls := true, peer := target != core && !s.inPart k target }
  if 0xDC000 ≤ off ∧ off < 0xE0000 then .error 0x05
  else if 0xE0000 ≤ off then
    if realKey key % 16 = 0 ∧ core = target ∧ ((s.coreAt core).banks[(off - 0xE0000) / 0x8000]?.getD .resident) ≠ .resident
    then .ok l else .error 0x05
  else if off < p.lslo * 4096 ∨ (p.lshi + 1) * 4096 ≤ off then .error 0x02
  else .ok l

/-- A window address (R168, R170): `none` for the translated region, else the place or the refusal's code. -/
def State.window (s : State) (core : CoreNo) (key : Nat) (a : Nat) : Option (Except Nat Loc) :=
  if 2 ^ 57 ≤ a then some (.error 0x01)
  else if a / 2 ^ 48 = 0x1FD then some (.error 0x05)
  else if a / 2 ^ 48 = 0x1FE then
    if 2 ^ 20 ≤ a % 2 ^ 48 ∨ !isCompute core then some (.error 0x01)
    else some (s.lsSpot core key core (a % 2 ^ 20))
  else if a / 2 ^ 48 = 0x1FF then
    let t : CoreNo := BitVec.ofNat 20 (a / 2 ^ 20)
    if 2 ^ 40 ≤ a % 2 ^ 48 ∨ !assigned s t then some (.error 0x01)
    else if !isCompute t ∨ !(t == core || s.inReach (s.partKey core key) t) then some (.error 0x02)
    else some (s.lsSpot core key t (a % 2 ^ 20))
  else none

/-- Bytes of memory with an uncorrectable word among them (R359). -/
def State.badBytes (s : State) (ha n : Nat) : Bool :=
  s.store.bad.any fun w => decide (4 * w < ha + n) && decide (ha < 4 * w + 4)
/-- An access touches an uncorrectable word (R359). -/
def State.spoilt (s : State) (r : Req) : Bool := s.badBytes r.ha r.n

-- Translation (R171 to R174)

/-- What a walk finds. -/
inductive Walked where
  | entry (e : TlbEntry)
  | fault
  | bad (code : Nat)

/-- One level of a walk (R171, R172, R173): the lowest index bit, the index width, and the page sizes (as PS codes) that
a leaf may have there. A table entry has PS 0, a table beyond the memory of the package is malformed, and a leaf's PLANE
is tested for its alignment alone (DEDUCED, log 32). An uncorrectable entry is refused with code 0x04 (R359). -/
def State.walkLevels (s : State) (k : PartKey) (va table : Nat) : List (Nat × Nat × List Nat) → Walked
  | [] => .bad 0x08
  | (lo, bits, leaves) :: rest =>
    let pa := table + 16 * (va / 2 ^ lo % 2 ^ bits)
    if !s.paOk pa ∨ pa / 2 ^ 51 ≠ k.pkg then .bad 0x08
    else if s.badBytes pa 16 then .bad 0x04
    else
      let e := s.natAt pa 16
      let leaf := bitsAt e 1 1 = 1
      let ps := bitsAt e 2 2
      let addr := bitsAt e 16 41 * 0x10000
      let plane := bitsAt e 64 57
      let size := if ps = 0 then 0x10000 else if ps = 1 then 0x200000 else 0x40000000
      if bitsAt e 0 1 = 0 then .fault
      else if bitsAt e 121 7 ≠ 0 ∨ bitsAt e 57 7 ≠ 0 ∨ bitsAt e 8 8 ≠ 0 ∨ ps = 3 then .bad 0x08
      else if leaf then
        if !leaves.contains ps ∨ addr % size ≠ 0 ∨ plane % (size / 2) ≠ 0 then .bad 0x08
        else .entry { part := k, va := va / size * size, size, pa := addr,
                      plane := if bitsAt e 7 1 = 1 then some plane else none,
                      x := bitsAt e 6 1 = 1, w := bitsAt e 5 1 = 1, r := bitsAt e 4 1 = 1 }
      else if rest.isEmpty ∨ ps ≠ 0 then .bad 0x08
      else s.walkLevels k va addr rest

/-- The walk of a virtual address of a partition (R171). -/
def State.walk (s : State) (k : PartKey) (va : Nat) : Walked :=
  s.walkLevels k va (s.partAt k).troot [(42, 15, []), (30, 12, [2]), (16, 14, [0, 1])]

/-- The cached translation of an address. -/
def CoreSt.lookTlb (c : CoreSt) (k : PartKey) (va : Nat) : Option TlbEntry :=
  c.tlb.find? fun e => e.part == k && decide (e.va ≤ va) && decide (va < e.va + e.size)

/-- What an address of the translated region gives: a place, a refusal, or a walk to wait for. -/
inductive Spot where
  | at_ (l : Loc)
  | bad (code : Nat)
  | walk

/-- A translated address under a page's permissions (R173), beyond-memory check (R170) and the atomics' kinds (R225). The
memory of another package has its home in a core of no peer partition (R364, R396; DEDUCED, log 125). -/
def State.translate (s : State) (core : CoreNo) (key : Nat) (va : Nat) (u : Use5) : Spot :=
  match (s.coreAt core).lookTlb (s.partKey core key) va with
  | none => .walk
  | some e =>
    let ok := match u with
      | .load => e.r
      | .fetch => e.x
      | .probe => true
      | _ => e.w
    let pa := e.pa + (va - e.va)
    if !ok then .bad 0x09
    else if !s.paOk pa then .bad 0x01
    else if pa / 2 ^ 51 ≠ pkgOf core then .bad 0x02
    else if u = .atomic ∧ pa / 2 ^ 48 % 8 = 2 then .bad 0x05
    else .at_ { ha := pa, home := homeOf pa, ls := false, plane := e.plane.map fun p => p + (va - e.va) / 4 * 2
                fixed := s.readOnly e.pa e.size }

-- Refusals (R182, R223, R299, R341)

/-- The trap and DETAIL of a refusal code (R182, R223, R299, R341): `detail` is the case of a label overflow, or 1 for a
HIDDEN word of an ACAS. The model's own codes stand above 0xFF. -/
def trapOf (code detail : Nat) : Nat × Nat :=
  match code with
  | 0x03 => (0x0B, 0x03)
  | 0x04 => (0x0A, 0x04)
  | 0x09 => (0x09, 0x09)
  | 0x0A => (0x19, 0x0A)
  | 0x0B => (0x1A, 0x0B)
  | 0x0C => (if detail = 1 then 0x05 else 0x06, 0x0C)
  | 0x0D => (0x1B, 0x0D)
  | 0x15 => (0x0E, 0)
  | 0x17 => (0x12, detail)
  | 0x32 => (0x1C, 0x32)
  | 0x33 => (0x1C, 0x33)
  | 0x101 => (0x01, 0)
  | 0x105 => (0x05, 0)
  | 0x106 => (0x06, 0)
  | c => if 0x70 ≤ c ∧ c ≤ 0x77 then (0x1E, c) else (0x07, c)

/-- Raise the trap of a refused access in a context (R181, R182, R223). Code 0x100 is a park table's 64th refusal. -/
def State.refusal (s : State) (core : CoreNo) (key : Nat) (code detail : Nat) (va : Word) : State :=
  if code = 0x100 then s.trapLatched core key 0x11 0 va
  else if code = 0x07 then
    -- JOIN's park-limit trap has the join address in EADDR (DESIGN CHOICE, log 100)
    if ((s.ctxAt core key).sent.map (·.act)) = some .join then s.trapLatched core key 0x0F 0 va
    else if (s.coreAt core).assist.getLsbD 3 then
      (s.waitCtx core key (.host 4 0x07 va)).postEvent (s.partKey core key)
        { kind := 4, code := 0x07, core := core, ctx := realKey key % 16, addr := va }
    else s.trapLatched core key 0x10 0x07 va
  else
    let va := if code = 0x101 then (s.ctxAt core key).pc else va
    s.trapCtx core key (trapOf code detail).1 (trapOf code detail).2 va false false

/-- A refusal that the issuing core itself makes: logged, then the trap of its code (R170, R182). -/
def State.refuseHere (s : State) (code : Nat) (va : Word) : State :=
  let (_, s) := s.logError s.part code va s.core (realKey s.key % 16) s.me.pc
  s.refusal s.core s.key code 0 va

-- Watch comparators (R376)

/-- The first comparator that an access of `n` bytes matches, with the first address in its block. A fetch matches by
the instruction address (DEDUCED, log 33). -/
def Ctx.watched (c : Ctx) (va : Word) (n : Nat) (kinds : List Nat) : Option (Nat × Word) :=
  (List.range 4).findSome? fun i =>
    let w := (c.watch[i]?).getD 0
    let len := 2 ^ (w.extractLsb' 57 4).toNat
    let base := (w.extractLsb' 0 57).toNat / len * len
    if w.getLsbD 63 ∧ kinds.contains (w.extractLsb' 61 2).toNat ∧ va.toNat < base + len ∧ base < va.toNat + n then
      some (i, BitVec.ofNat 64 (max va.toNat base))
    else none

/-- Kinds of comparator that an access meets (R376). -/
def Use5.kinds : Use5 → List Nat
  | .load => [1, 3]
  | .store => [2, 3]
  | .sync | .atomic => [1, 2, 3]
  | .fetch => [0, 3]
  | .probe => []

/-- A watch match: the trap before any effect, or a stop for an attached debugger. -/
def State.watchHit (s : State) (n : Nat) (a : Word) : State :=
  if s.me.dbg.attach then s.modMe fun c => { c with stopped := true, dbg := { c.dbg with met := true } }
  else s.trap 0x20 n a

/-- A refusal that the issuing core makes of a .post access (R184): logged and counted, with no trap; the codes of
translation stay precise (R182). -/
def State.refusePost (s : State) (code : Nat) (va : Word) : State :=
  if code = 0x08 ∨ code = 0x09 then s.refuseHere code va
  else
    let (_, s) := s.logError s.part code va s.core (realKey s.key % 16) s.me.pc
    (s.modHere (·.count 6)).retire

/-- The checks of an access at the issuing core (R168, R170, R177, R376): window, alignment, kind, watch, translation.
The error is the state in which the instruction ends or waits. -/
def State.check (s : State) (va : Word) (n align : Nat) (u : Use5) (post : Bool := false) : Except State Loc :=
  let a := va.toNat
  let refuse := fun c => if post then s.refusePost c va else s.refuseHere c va
  let watch := fun (k : Unit → Except State Loc) =>
    if s.me.dbg.pass then k () else match s.me.watched va n u.kinds with
      | some (i, x) => .error (s.watchHit i x)
      | none => k ()
  match s.window s.core s.key a with
  | some (.error c) => .error (refuse c)
  | some (.ok l) => if a % align ≠ 0 then .error (s.trap 0x08 0 va) else watch fun _ => .ok l
  | none =>
    if u = .sync then .error (refuse 0x06)
    else if a % align ≠ 0 then .error (s.trap 0x08 0 va)
    else watch fun _ => match s.translate s.core s.key a u with
      | .at_ l => .ok l
      | .bad c => .error (refuse c)
      | .walk => .error (s.wait (.walk va))

-- Words and their labels at a home (R150 to R152)

/-- The number of 32-bit words that an access touches. -/
def Req.words (r : Req) : Nat := if r.n = 0 then 0 else (r.ha + r.n - 1) / 4 - r.ha / 4 + 1
/-- The handle of the i-th word. -/
def State.wordLab (s : State) (r : Req) (i : Nat) : Handle :=
  if r.localStore then s.tagAt (r.ha / 4 * 4 + 4 * i)
  else match r.plane with
    | some p => BitVec.ofNat 16 (s.natAt (p + 2 * i) 2)
    | none => 0
/-- Write the handle of the i-th word. -/
def State.putWordLab (s : State) (r : Req) (i : Nat) (h : Handle) : State :=
  if r.localStore then s.putTag (r.ha / 4 * 4 + 4 * i) h
  else match r.plane with
    | some p => s.putNat (p + 2 * i) 2 h.toNat
    | none => s
/-- The handles that a load returns; to a core of a peer partition every non-empty one is HIDDEN (R364). -/
def State.loadLabs (s : State) (r : Req) : List Handle :=
  (List.range r.words).map fun i =>
    let h := s.wordLab r i
    if r.peer ∧ h ≠ 0 then hiddenH else h
/-- Every word of the access is full. -/
def State.allFull (s : State) (r : Req) : Bool := (List.range r.words).all fun i => s.fullAt (r.ha / 4 * 4 + 4 * i)
/-- Every word of the access is empty. -/
def State.allEmpty (s : State) (r : Req) : Bool := (List.range r.words).all fun i => !s.fullAt (r.ha / 4 * 4 + 4 * i)
/-- Set the full-empty bit of every word. -/
def State.fillWords (s : State) (r : Req) (full : Bool) : State :=
  (List.range r.words).foldl (fun s i => s.putFull (r.ha / 4 * 4 + 4 * i) full) s

/-- Whether byte `j` of the i-th word is written, and from which source word. -/
def Req.srcOf (r : Req) (mask i j : Nat) : Option Nat :=
  let a := r.ha / 4 * 4 + 4 * i + j
  if r.ha ≤ a ∧ a < r.ha + r.n ∧ mask.testBit (a - r.ha) then some ((r.skew + (a - r.ha)) / 4) else none
/-- The source words that the i-th word takes bytes from, and whether all of it is written. -/
def Req.sources (r : Req) (mask i : Nat) : List Nat × Bool :=
  let l := (List.range 4).filterMap (r.srcOf mask i)
  (l.eraseDups, decide (l.length = 4))
/-- The handle of a source word. -/
def Req.srcLab (r : Req) (k : Nat) : Handle := if r.labs.length ≤ 1 then r.labs.headD 0 else r.labs.getD k 0

/-- The refusal of a conjunction that a home cannot intern (R146, R407): the case, and EADDR with the number of
environments; the error log takes the word's address. -/
def noRoom (case n : Nat) (word : Option Word) : Resp :=
  { code := 0x17, detail := case, logAt := word, eaddr := some (BitVec.ofNat 64 n) }

/-- The new handles of the words from the i-th on (R152, R207, R281, R407): a word written wholly from one source word
takes its handle, and another takes the conjunction of the old one with those that contribute. -/
def State.storeLabs (s : State) (r : Req) (mask : Nat) : Nat → List Nat →
    Except Resp (List (Nat × Handle) × State)
  | _, [] => .ok ([], s)
  | f, i :: t =>
    let (src, whole) := r.sources mask i
    match src with
    | [] => s.storeLabs r mask f t
    | x :: xs =>
      let step : Except (Nat × Nat) (Handle × State) :=
        if whole ∧ xs.isEmpty then .ok (r.srcLab x, s)
        else if r.peer then .ok (s.wordLab r i, s)
        else s.homeConjs (homeOf r.ha) r.part (s.wordLab r i :: (x :: xs).map r.srcLab)
      match step with
      | .error (c, n) => .error (noRoom c n (some (BitVec.ofNat 64 (r.va.toNat / 4 * 4 + 4 * i))))
      | .ok (h, s) => match s.storeLabs r mask f t with
        | .ok (l, s) => .ok ((i, h) :: l, s)
        | .error e => .error e

/-- An ordinary store to a barrier object leaves it undefined (R232). -/
def State.breakBars (s : State) (ha n : Nat) : State :=
  { s with store := { s.store with bars := s.store.bars.map fun b =>
      if b.1 < ha + n ∧ ha < b.1 + 16 then (b.1, true) else b } }

/-- A store at the home (R152, R177, R407): the refusal, or the state after it. -/
def State.storeAt (s : State) (r : Req) (mask : Nat) : Except Resp State :=
  let labelled := r.localStore || r.plane.isSome
  let used := (List.range r.words).flatMap fun i => (r.sources mask i).1
  if (!labelled || r.peer) ∧ used.any (fun k => r.srcLab k != 0) then .error { code := 0x03 }
  else if !labelled then .ok ((s.putMasked r.ha mask r.data).breakBars r.ha r.n)
  else match s.storeLabs r mask 0 (List.range r.words) with
    | .error e => .error e
    | .ok (ls, s) =>
      .ok (ls.foldl (fun s p => s.putWordLab r p.1 p.2) ((s.putMasked r.ha mask r.data).breakBars r.ha r.n))

-- Atomics (R225)

/-- The new value of an integer atomic of `n` bits. -/
def atomNew (op : AtOp) (n old x y : Nat) : Nat :=
  match op with
  | .add => (old + x) % 2 ^ n
  | .and => Nat.land old x
  | .or => Nat.lor old x
  | .xor => Nat.xor old x
  | .min => if toSigned n old ≤ toSigned n x then old else x
  | .max => if toSigned n x ≤ toSigned n old then old else x
  | .minu => min old x
  | .maxu => max old x
  | .swap => x
  | .cas => if old = x then y else old
  | .fadd => x

/-- An atomic at its home: one indivisible step (R225). A conjunction that cannot be interned is refused with code 0x17,
as for a store (DEDUCED, log 34). At a peer partition's core the words keep handles of that partition, and the requester
sees HIDDEN for any that is not empty (R364). -/
def State.atomicAt (s : State) (r : Req) (op : AtOp) (y : LWord) : Except Resp (Resp × State) :=
  let n := 8 * r.n
  let home := homeOf r.ha
  let part := if r.peer then s.peerPart r.part home else r.part
  let old := s.natAt r.ha r.n
  let x := leNat r.data % 2 ^ n
  let labA := r.labs.headD 0
  let labelled := r.localStore || r.plane.isSome
  match s.homeConjs home part ((List.range r.words).map (s.wordLab r)) with
  | .error (c, k) => .error (noRoom c k none)
  | .ok (own, s) =>
    let h := if r.peer ∧ own ≠ 0 then hiddenH else own
    let resp : Resp := { data := leBytes r.n old, labs := [h] }
    let put := fun (s : State) (v : Nat) (l : Handle) =>
      let s := (s.putNat r.ha r.n v).breakBars r.ha r.n
      (List.range r.words).foldl (fun s i => s.putWordLab r i l) s
    if op = .cas ∧ h ≠ 0 then .error { code := 0x0C, detail := if h = hiddenH then 1 else 0 }
    else if r.peer ∧ (labA ≠ 0 ∨ y.lab ≠ 0) then .error { code := 0x03 }
    else if op = .cas then
      if old = x then
        if !labelled ∧ y.lab ≠ 0 then .error { code := 0x03 }
        else .ok (resp, put s (y.val.toNat % 2 ^ n) y.lab)
      else .ok (resp, s)
    else
      let l? : Except (Nat × Nat) (Handle × State) :=
        if op = .swap then .ok (labA, s) else s.homeConj home part own labA
      match l? with
      | .error (c, k) => .error (noRoom c k none)
      | .ok (l, s) =>
        if !labelled ∧ l ≠ 0 then .error { code := 0x03 }
        else if op = .fadd then
          let (v, fl) := fAdd (if r.n = 4 then .f32 else .f64) .rne false old x
          .ok ({ resp with flags := fl }, put s v l)
        else .ok (resp, put s (atomNew op n old x 0) l)

-- Barriers (R232 to R236)

/-- The value of a barrier object; one that an ordinary store left undefined has a free value at every operation until
the next BARINIT (log 14). -/
def State.barAt (s : State) (ha : Nat) : Nat × State :=
  if s.store.bars.any (fun b => b.1 == ha && b.2) then
    let (t, s) := s.draw
    ((Config.barrierWord t).toNat, s)
  else (s.natAt ha 16, s)

/-- BARINIT leaves an object defined (R232). -/
def State.mendBar (s : State) (ha : Nat) : State :=
  { s with store := { s.store with bars := s.store.bars.filter (·.1 != ha) } }

/-- Write a barrier object, its words' labels empty (R232). -/
def State.putBar (s : State) (r : Req) (expected arrived phase state fcode frec : Nat) : State :=
  let x := expected + arrived * 2 ^ 32 + phase * 2 ^ 64 + state * 2 ^ 96 + fcode * 2 ^ 104 + frec * 2 ^ 112
  let s := { s with store := { s.store with
      bars := if s.store.bars.any (·.1 == r.ha) then s.store.bars else (r.ha, false) :: s.store.bars } }
  (List.range 4).foldl (fun s i => s.putWordLab r i 0) (s.putNat r.ha 16 x)

/-- Arrivals at a barrier (R234): the excess is counted. -/
def State.arrive (s : State) (home : CoreNo) (r : Req) (x k : Nat) : State :=
  let exp := bitsAt x 0 32
  let arr := bitsAt x 32 32 + k
  let fcode := bitsAt x 104 8
  let frec := bitsAt x 112 16
  if exp ≤ arr then
    let s := s.putBar r exp 0 (1 - bitsAt x 64 1) 0 fcode frec
    s.modCore home fun c => { c with counters := c.counters.set 5 (c.counters[5] + BitVec.ofNat 64 (arr - exp)) }
  else s.putBar r exp arr (bitsAt x 64 1) (bitsAt x 96 2) fcode frec

-- Nodes of the rewrite unit at their home (R297 to R299, R307, R309)

/-- The local offset of a port's slot, and the width in bytes that a LINK writes there (R298). -/
def slotOff (x : BitVec 40) : Nat := (x.toNat % 2 ^ 20 / 32) * 32 + 8 * (x.toNat % 4)
/-- The core of a port word. -/
def portCore (x : BitVec 40) : CoreNo := BitVec.ofNat 20 (x.toNat / 2 ^ 20)
/-- The home address of the node that a port word names. -/
def nodeHa (x : BitVec 40) : Nat := lsAddr (portCore x) (x.toNat % 2 ^ 20 / 32 * 32)
/-- The home address of a slot. -/
def slotHa (x : BitVec 40) : Nat := lsAddr (portCore x) (slotOff x)
/-- The node address that a port word names (R298). -/
def nodeAddr (x : BitVec 40) : Word := 0x1FF000000000000#64 + BitVec.ofNat 64 (x.toNat / 32 * 32)
/-- The checks of R297 that a port word meets at its node: bits 4:2 zero, not 0, a port that the node has, not free. -/
def State.portOk (s : State) (x : BitVec 40) : Bool :=
  let dw0 := s.natAt (nodeHa x) 8
  x != 0 && bitsAt x.toNat 2 3 == 0 && decide (x.toNat % 4 ≤ bitsAt dw0 50 2) && bitsAt dw0 49 1 == 0
/-- Write a port word into a slot, with the empty label (R309): bits 39:0 of DW0 at port 0, the whole double word at an
auxiliary port. -/
def State.putPort (s : State) (x y : BitVec 40) : State :=
  let a := slotHa x
  let v := if x.toNat % 4 = 0 then s.natAt a 8 / 2 ^ 40 * 2 ^ 40 + y.toNat else y.toNat
  ((s.putNat a 8 v).putTag a 0).putTag (a + 4) 0

-- What a home does

/-- What an attempt at an access comes to: its condition does not hold yet; it is an acquire that is performed and whose
answer is held while window entries are widened; it is a release that finds no room in the window and comes again; or it
is performed. -/
inductive Tried where
  | blocked
  | held (s : State)
  | full (s : State)
  | done (s : State) (r : Resp)

/-- The scope of the acquire that completes an access, if it is one (R179, R188, R124, R234). -/
def Req.acquires (r : Req) (home : CoreNo) : Option Scope :=
  match r.act with
  | .lds | .ldf | .join | .barwait | .linkLock _ => some (narrowest r.src home)
  | _ => r.acq
/-- The scope of the release that an access is, if it is one. -/
def Req.releases (r : Req) (home : CoreNo) : Option Scope :=
  match r.act with
  | .sts | .stf | .bararr _ | .dec => some (narrowest r.src home)
  | _ => r.rel

/-- The resolved handle of the i-th word as the requester sees it: from a peer partition's core, HIDDEN for any that is
not empty (R364). -/
def State.homeLab (s : State) (r : Req) (i : Nat) : Handle :=
  let h := s.wordLab r i
  if r.peer then (if h = 0 then 0 else hiddenH) else s.resolveAt r.part h

/-- The condition that an access waits for (R179, R124, R234, R309). -/
def State.condMet (s : State) (r : Req) : Bool :=
  match r.act with
  | .lds | .ldf | .linkLock _ => s.allFull r
  | .sts => s.allEmpty r
  | .join => s.natAt r.ha 4 == 0 || s.homeLab r 0 != 0
  | .barwait =>
    let x := (s.barAt r.ha).1
    bitsAt x 96 2 == 2 || bitsAt x 64 1 == leNat r.data % 2
  | _ => true

/-- Whether a window entry makes an acquire a scope miss (R188): it records a word that the acquire reads, and one of the
scopes is too narrow. -/
def WinEntry.misses (e : WinEntry) (r : Req) (sc : Scope) : Bool :=
  decide (e.ha < r.ha + r.n) && decide (r.ha < e.ha + e.n) &&
    (!inScope e.scope e.core r.src || !inScope sc r.src e.core)

/-- An acquire takes a scope miss on every entry of its words that has one: each begins to be widened, unless it is
already, and each miss is counted (R188, R191). The acquire has read its words in its turn, so that no later arrival is
ahead of it (R186); its answer is held. -/
def CoreSt.holdAcquire (c : CoreSt) (r : Req) (sc : Scope) (resp : Resp) : CoreSt :=
  { c with
    counters := c.counters.set 4 (c.counters[4] + BitVec.ofNat 64 (c.window.filter fun e => e.misses r sc).length)
    window := c.window.map fun e => if e.misses r sc then { e with widening := true, held := e.held ++ [(r, resp)] } else e }

/-- A full window begins to evict its oldest entry that is not being widened (R188), unless an eviction is under way. -/
def CoreSt.evictOne (c : CoreSt) : CoreSt :=
  if c.window.any (·.evict) then c
  else match c.window.findIdx? (fun e => !e.widening) with
  | some i => { c with window := c.window.modify i fun e => { e with widening := true, evict := true } }
  | none => c

/-- A release that a full window keeps waiting comes again when the entry that makes room has left (R188). -/
def CoreSt.behindEviction (c : CoreSt) (r : Req) : CoreSt :=
  { c with window := c.window.modify ((c.window.findIdx? (·.evict)).getD 0) fun e => { e with waiters := e.waiters ++ [r] } }

/-- Requests that are served or given up leave the park table, and leave no mark in the window. -/
def CoreSt.unpark (c : CoreSt) (gone : Req → Bool) : CoreSt :=
  { c with
    parks := c.parks.filter fun e => !gone e.req
    window := if c.window.any (fun e => e.held.any (fun h => gone h.1) || e.waiters.any gone) then
        c.window.map fun e => { e with waiters := e.waiters.filter fun r => !gone r, held := e.held.filter fun h => !gone h.1 }
      else c.window }

/-- Enter a release into the window, dropping the oldest entry already at .sy when it is full; `none` when an entry
must first be widened (R188). -/
def enterWindow (w : List WinEntry) (e : WinEntry) : Option (List WinEntry) :=
  if w.length < 16 then some (w ++ [e])
  else match w with
    | x :: t => if x.scope = .sy ∧ !x.widening then some (t ++ [e]) else none
    | [] => some [e]

/-- An engine of a core. -/
def CoreSt.eng (c : CoreSt) : Eng → Engine
  | .copy => c.copyEng
  | .xform => c.xformEng
/-- Change an engine of a core. -/
def CoreSt.modEng (c : CoreSt) (e : Eng) (f : Engine → Engine) : CoreSt :=
  match e with
  | .copy => { c with copyEng := f c.copyEng }
  | .xform => { c with xformEng := f c.xformEng }
/-- The tenant of a set of a core, as a number: its node, and whether that is a paired leaf, whose two tenants share the
engines (R363). -/
def CoreSt.tenantNo (c : CoreSt) (set : Nat) : Nat :=
  match (c.nodes[set]?).getD none with
  | some (n, _) => 2 * n + ((c.paired[set]?).getD false).toNat
  | none => 0
/-- An engine of a tenant, switched out or not. -/
def CoreSt.tenantEng (c : CoreSt) (tenant : Nat) (e : Eng) : Engine :=
  if c.tenantNo c.cur = tenant then c.eng e
  else match e, assoc c.engSaved tenant with
    | .copy, some p => p.2.1
    | .xform, some p => p.2.2
    | _, none => {}
/-- Change the matrix engine of a tenant, switched out or not. -/
def CoreSt.modTenantMatrix (c : CoreSt) (tenant : Nat) (f : Matrix → Matrix) : CoreSt :=
  if c.tenantNo c.cur = tenant then { c with matrix := f c.matrix }
  else { c with engSaved := c.engSaved.map fun p => if p.1 = tenant then (p.1, f p.2.1, p.2.2) else p }
/-- Change an engine's state of a tenant, switched out or not. -/
def CoreSt.modTenantEng (c : CoreSt) (tenant : Nat) (e : Eng) (f : Engine → Engine) : CoreSt :=
  if c.tenantNo c.cur = tenant then c.modEng e f
  else { c with engSaved := c.engSaved.map fun p => if p.1 = tenant then (match e with
    | .copy => (p.1, p.2.1, f p.2.2.1, p.2.2.2)
    | .xform => (p.1, p.2.1, p.2.2.1, f p.2.2.2)) else p }

/-- The engine that holds a page fault of a context, the context's set being current or not (R285, R380). -/
def State.heldEng (s : State) (core : CoreNo) (key : Nat) : Option (Eng × EngRun) :=
  let c := s.coreAt core
  [Eng.copy, Eng.xform].findSome? fun e => match (c.tenantEng (c.tenantNo (keySet key)) e).run with
    | some r => if r.held && !r.acked && r.op.key == key then some (e, r) else none
    | none => none
/-- An engine's page fault is answered (R285, R355): it goes on, or the context that issued its operation takes the trap of
a refused page fault, asynchronously, and the engine stays held (DEDUCED, log 52). -/
def State.answerEng (s : State) (core : CoreNo) (key : Nat) (e : Eng) (r : EngRun) (retry : Bool) : State :=
  if retry then s.modCore core fun c => c.modTenantEng (c.tenantNo (keySet key)) e fun g =>
    { g with run := g.run.map fun x => { x with acked := true } }
  else s.asyncTo core key { trap := 0x07, detail := 0x0F, eaddr := r.faultVa }

/-- An access that writes its bytes. -/
def Act.writes : Act → Bool
  | .store _ | .xput | .atomic .. | .barinit | .barabort | .bararr _ | .engarr .. => true
  | _ => false

/-- Perform an access whose condition holds and that no window entry holds. A write to a page that maps a label table or
heap is refused (R139, R170). -/
def State.perform (s : State) (home : CoreNo) (r : Req) : Except Resp (Resp × State) :=
  let old := s.readAt r.ha r.n
  if r.act.writes && (r.fixed || s.readOnly r.ha r.n) then .error { code := 0x05 }
  else match r.act with
  | .load => .ok ({ data := old, labs := s.loadLabs r }, s)
  | .store mask => (s.storeAt r mask).map fun s => ({}, s)
  | .xput => .ok ({}, (List.range r.words).foldl (fun s i => s.putWordLab r i (r.labs.headD 0))
      ((s.putBytes r.ha r.data).breakBars r.ha r.n))
  | .lds => .ok ({ data := old, labs := s.loadLabs r }, s.fillWords r false)
  | .ldf => .ok ({ data := old, labs := s.loadLabs r }, s)
  | .sts | .stf => (s.storeAt r (2 ^ r.n - 1)).map fun s => ({}, s.fillWords r true)
  | .feclr => .ok ({}, s.fillWords r false)
  | .atomic op y => s.atomicAt r op y
  | .jinit => .ok ({}, ((s.putBytes r.ha r.data).breakBars r.ha 4 |>.putWordLab r 0 0).fillWords r true)
  | .join =>
    match s.homeLab r 0 with
    | 0 => .ok ({}, s)
    | h => .error { code := if h = hiddenH then 0x105 else 0x106 }
  | .dec =>
    let v := s.natAt r.ha 4
    if v = 0 then .error { code := 0x15 } else .ok ({}, s.putNat r.ha 4 (v - 1))
  | .barinit =>
    let x := leNat r.data
    if (s.coreAt home).parks.any (fun e => e.req.act == .barwait && e.req.ha == r.ha) then .error { code := 0x32 }
    else if x = 0 ∨ 2 ^ 32 ≤ x then .error { code := 0x101 }
    else .ok ({}, (s.mendBar r.ha).putBar r x 0 0 0 0 0)
  | .barabort =>
    let (x, s) := s.barAt r.ha
    .ok ({}, s.putBar r (bitsAt x 0 32) 0 (bitsAt x 64 1) 2 (bitsAt x 104 8) (bitsAt x 112 16))
  | .bararr k =>
    let (x, s) := s.barAt r.ha
    if bitsAt x 96 2 = 2 then .error { code := 0x33 } else .ok ({}, s.arrive home r x k)
  | .barwait =>
    let (x, s) := s.barAt r.ha
    if bitsAt x 96 2 = 2 then .ok ({ code := 0x31, frec := bitsAt x 112 16 }, s) else .ok ({}, s)
  | .bartry =>
    let (x, s) := s.barAt r.ha
    let v := if bitsAt x 96 2 = 2 then 3 else if bitsAt x 64 1 = leNat r.data % 2 then 1
      else if bitsAt x 96 2 = 1 then 2 else 0
    .ok ({ data := leBytes 8 v, labs := [0] }, s)
  | .engarr code frec counts =>
    let (x, s) := s.barAt r.ha
    let put := fun (s : State) (st : Nat) => if bitsAt x 104 8 = 0 ∧ code ≠ 0
      then s.putBar r (bitsAt x 0 32) (bitsAt x 32 32) (bitsAt x 64 1) st code frec
      else s.putBar r (bitsAt x 0 32) (bitsAt x 32 32) (bitsAt x 64 1) st (bitsAt x 104 8) (bitsAt x 112 16)
    if bitsAt x 96 2 = 2 then .error { code := 0x33 }
    else if counts then
      let s := put s (bitsAt x 96 2)
      .ok ({}, s.arrive home r (s.natAt r.ha 16) 1)
    else .ok ({}, put s 1)
  | .nfree =>
    let dw0 := s.natAt r.ha 8
    if bitsAt dw0 49 1 = 1 then .error { code := 0x71 }
    else
      let k := if r.peer then s.peerPart r.part home else r.part
      let hk := 2 * k.set + k.ten.toNat
      let head := (assoc (s.coreAt home).rewrite.heads hk).getD 0
      let s := s.putBytes r.ha (leBytes 8 (2 ^ 49) ++ leBytes 8 head.toNat ++ leBytes 16 0)
      let s := (List.range 8).foldl (fun s i => s.putTag (r.ha + 4 * i) 0) s
      .ok ({}, s.modCore home fun c => { c with rewrite := { c.rewrite with
        heads := assocSet c.rewrite.heads hk (0x1FF000000000000#64 + BitVec.ofNat 64 (r.ha - lsBase)) } })
  | .linkBoth x y =>
    if !s.portOk x then .error { code := 0x71, logAt := some (nodeAddr x), eaddr := some (nodeAddr x) }
    else if !s.portOk y then .error { code := 0x71, logAt := some (nodeAddr y), eaddr := some (nodeAddr y) }
    else .ok ({}, (s.putPort x y).putPort y x)
  | .linkLock x => if !s.portOk x then .error { code := 0x71 } else .ok ({}, s.fillWords r false)
  | .linkPut x y => .ok ({}, (s.putPort x y).fillWords r true)
  | .linkFill _ => .ok ({}, s.fillWords r true)
  | .gldRead => .ok ({ data := old, labs := s.loadLabs r }, s)
  | .ack ctx action =>
    -- the context of the requester's set, its sequencer or its engine that holds something of the named kind (R355)
    let k := if r.peer then s.peerPart r.part home else r.part
    let real := 16 * k.set + ctx.val
    let ok := fun key =>
      match (s.ctxAt home key).run with
      | .wait (.fault _) => decide (action ≠ 1)
      | .park .supervisor => decide (action = 1)
      | _ => false
    match [real, 64 + real].find? ok, action with
    | some key, 0 => .ok ({}, s.modCtx home key fun c => { c with run := .run, replay := true })
    | some key, 1 => .ok ({}, (s.modCtx home key fun c => { c with run := .run }).modCore home fun c =>
        { c with loops := c.loops.map fun l => if l.key = real then { l with stopped := false } else l })
    | some key, _ =>
      let va := match (s.ctxAt home key).run with | .wait (.fault va) => va | _ => 0
      .ok ({}, (s.trapCtx home key 0x07 0x0F va false false).modCtx home key fun c => { c with latch := none })
    | none, 0 | none, 2 =>
      match s.heldEng home real with
      | some (e, r) => .ok ({}, s.answerEng home real e r (action == 0))
      | none => .error { code := 0x0E }
    | none, _ =>
      -- the root context's park of R217 may lie under its resident handler
      let x := (s.coreAt home).resident[k.set]?.getD {}
      if ctx = 0 ∧ action = 1 ∧ x.held ∧ x.prior = .park .supervisor then
        .ok ({}, s.modCore home fun c => { c with
          resident := c.resident.set! k.set { x with prior := .run }
          loops := c.loops.map fun l => if l.key = real then { l with stopped := false } else l })
      else .error { code := 0x0E }
  | .calset router out arb slot node =>
    .ok ({}, s.modRouter router fun x => { x with
      pend := x.pend ++ [(out, (if arb then node else slot), arb, leNat r.data,
        (s.cycleOf (pkgOf r.src) / (if arb ∨ out < 6 then 32 else 64) + 1) * (if arb ∨ out < 6 then 32 else 64))] })

/-- The window entries of a release: one for each context that it carries, with that context's journal position (R188,
R235). -/
def Req.winEntries (r : Req) (sc : Scope) : List WinEntry :=
  let joins := match r.who with | .ctx k => [(k, r.jpos)] | .contexts ks => ks | _ => [(0, r.jpos)]
  joins.map fun k => { ha := r.ha, n := r.n, core := r.src, key := realKey k.1, scope := sc, jpos := k.2 }

/-- An access performed at its home, or refused there: the state, which no longer parks it, and the answer. -/
def State.performed (s : State) (home : CoreNo) (r : Req) : State × Resp :=
  match s.perform home r with
  | .ok (resp, s) => (s.modCore home fun c => c.unpark (· == r), resp)
  | .error resp => (s.modCore home fun c => c.unpark (· == r), resp)

/-- Try an access at its home: its condition, room in the release window, then the access, and the acquire's scope misses,
which hold its answer (R180, R186, R188). -/
def State.try_ (s : State) (home : CoreNo) (r : Req) : Tried :=
  if !s.condMet r then .blocked
  else
    let (t, resp) := s.performed home r
    match r.releases home with
    | none =>
      match r.acquires home with
      | none => .done t resp
      | some sc =>
        if (s.coreAt home).window.any fun e => e.misses r sc then .held (t.modCore home fun c => c.holdAcquire r sc resp)
        else .done t resp
    | some sc =>
      match (r.winEntries sc).foldl (fun w e => w.bind fun w => enterWindow w e) (some (s.coreAt home).window) with
      | some w => if resp.code = 0 then .done (t.modCore home fun c => ({ c with window := w } : CoreSt).unpark (· == r)) resp
                  else .done t resp
      | none => .full (s.modCore home CoreSt.evictOne)

-- Replies (R178, R182 to R184)

/-- A status word (R103). -/
def statusWord (code engine frec count : Nat) : Word :=
  BitVec.ofNat 64 (code % 256 + engine * 2 ^ 8 + frec % 65536 * 2 ^ 16 + count % 2 ^ 32 * 2 ^ 32)

/-- Write a token: it is no longer pending, and its label is the value's (R103). A token that a discarded set no longer
waits for is dropped. -/
def State.writeToken (s : State) (core : CoreNo) (key : Nat) (r : GReg) (v : LWord) : State :=
  s.modCtx core key fun c => if c.pend.contains r then { c.setG r v with
    pend := c.pend.filter (· != r), callTok := c.callTok.filter (· != r) } else c
/-- Mark a token pending, its label empty (R103). -/
def State.markToken (s : State) (r : GReg) : State :=
  if r = 0 then s else s.modMe fun c => { c.setG r ⟨(c.g r).val, 0⟩ with pend := r :: c.pend }

/-- Write a destination register and retire, once the label of the loaded words is formed (R152). -/
def State.finishLoad (s : State) (resp : Resp) (va : Word) (labs : List Handle) (f : Handle → Ctx → Ctx) : State :=
  match s.conj labs with
  | .ok h s => (s.modMe (f h)).retire
  | .stop s => s.modMe fun c => { c with resp := some (resp, va) }

/-- What a successful reply does to the context that waits for it: it writes the destination and retires the
instruction, or takes an instruction of several accesses on to its next one. -/
def State.succeed (s : State) (resp : Resp) (va : Word) : State :=
  let c := s.me
  match c.out with
  | .none => s.retire
  | .fetch ha => s.modMe fun c => { c with out := .none, run := .run, sent := none, refusals := 0, fetched := (ha, resp.data, resp.labs) :: c.fetched }
  | .g d n signed =>
    if d = 0 then s.retire
    else
      let v := leNat resp.data
      s.finishLoad resp va resp.labs fun h c =>
        c.setG d ⟨if signed then sextNat (8 * n) v else BitVec.ofNat 64 v, h⟩
  | .f d _ =>
    let done := s.finishLoad resp va resp.labs
    if resp.flags = 0 then done fun h c => c.setF d ⟨BitVec.ofNat 64 (leNat resp.data), h⟩
    else done fun h c => (c.setF d ⟨BitVec.ofNat 64 (leNat resp.data), h⟩).raise resp.flags
  | .v got labs rest =>
    -- a part that follows another begins at a 256-byte boundary, so no word is shared
    s.modMe fun c => { c with out := .v (got ++ resp.data) (labs ++ resp.labs) rest, run := .run, sent := none, refusals := 0 }
  | .parts _ => s.modMe fun c => { c with run := .run, sent := none, refusals := 0 }
  | .done => s.modMe fun c => { c with out := .doneOk, run := .run, sent := none, refusals := 0 }
  | .barwait _ => s.retire
  | .bartry d => (s.modMe fun c => c.setG d ⟨BitVec.ofNat 64 (leNat resp.data), 0⟩).retire
  | .linkLock x y locked now =>
    s.modMe fun c => { c with out := .linkLock x y (locked ++ [now]) 0, run := .run, sent := none, refusals := 0 }
  | .linkPuts .. | .linkPush _ _ => s.modMe fun c => { c with run := .run, sent := none, refusals := 0 }
  | .push .. => s.modMe fun c => { c with run := .run, sent := none, refusals := 0 }
  | .gld .. | .doneOk | .migrate | .moved .. | .rdisp .. | .linkBoth .. => s

/-- Phase 1 of a LINK has failed: the slots already emptied are filled again, then the refusal is raised (R309). -/
def Wr.refill (w : Wr) (code detail : Nat) (va : Word) : Option Wr :=
  match w with
  | .linkLock x y (l :: ls) _ => some (.linkPuts x y ((l :: ls).map fun z => (z, z)) (some (code, detail, va)))
  | _ => Option.none

/-- Collect a member's answer to a group load (R239). -/
def Wr.collect (w : Wr) (i : Nat) (resp : Resp) : Wr :=
  match w with
  | .gld op fl d n got bad left =>
    if resp.code = 0 then .gld op fl d n (assocSet got i (leNat resp.data, resp.labs)) bad (left - 1)
    else .gld op fl d n got (assocSet bad i resp.code) (left - 1)
  | w => w

/-- Stream data fetched ahead is discarded (R212). -/
def Ctx.dropAhead (c : Ctx) : Ctx := { c with streams := c.streams.map fun x => x.map fun y => { y with ahead := [], asked := none } }
/-- Whether the access in flight completes as an acquire (R179, R187, R234). -/
def Ctx.acquiring (c : Ctx) : Bool :=
  match c.sent with
  | some r => r.acq.isSome || r.act == .lds || r.act == .ldf || r.act == .join || r.act == .barwait
  | none => false

/-- A reply reaches the context that waits for it (R178, R182): a full park table is tried again after the backoff, an
aborted barrier gives its status, a refusal raises its trap, and success completes the access. -/
def State.complete (s : State) (core : CoreNo) (key : Nat) (src : CoreNo) (resp : Resp) (va : Word) : State :=
  s.asCtx core key fun s =>
    let c := s.me
    if c.run = .park .dead then s
    else match c.out with
    | .gld .. => s.modMe fun c => { c with out := c.out.collect (cindex src) resp }
    | .moved left bad =>
      let bad := if resp.code = 0 then bad else bad.orElse fun _ => some (resp.code, resp.detail, resp.eaddr.getD va)
      if 1 < left then s.modMe fun c => { c with out := .moved (left - 1) bad }
      else match bad with
        | none => s.retire
        | some (code, detail, a) => s.refusal core key code detail a
    | _ =>
      if resp.code = 0 then (s.modMe fun c => if c.acquiring then c.dropAhead else c).succeed resp va
      else if resp.code = 0x100 then
        let s := s.modHere (·.count 10)
        if 64 ≤ c.refusals + 1 then match c.out.refill 0x100 0 va with
          | some w => s.modMe fun c => { c with out := w, run := .run, sent := none, refusals := 0 }
          | none => s.refusal core key 0x100 0 va
        else s.modMe fun c => { c with refusals := c.refusals + 1,
                                       run := .wait (.backoff (s.cycle + backoffOf (c.refusals + 1))) }
      else match c.out, resp.code with
        | .barwait p, 0x31 => (s.modMe fun c => c.setG p ⟨statusWord 0x31 2 resp.frec 0, 0⟩).retire
        | w, _ => match w.refill resp.code resp.detail (resp.eaddr.getD va) with
          | some w => s.modMe fun c => { c with out := w, run := .run, sent := none }
          | none => s.refusal core key resp.code resp.detail (resp.eaddr.getD va)

-- Fetching ahead (R212)

/-- An element fetched ahead arrives, unless it has been discarded since; a refused one is read again by its pop. -/
def Stream.fetched (x : Stream) (id : Nat) (resp : Resp) : Stream :=
  if x.asked ≠ some id then x
  else { x with asked := none, ahead := if resp.code = 0 then x.ahead ++ [(leNat resp.data, resp.labs)] else x.ahead }

-- The rewrite unit's accesses (R304, R316)

/-- The pair that the rewrite unit has taken for a set. -/
def CoreSt.rwRun (c : CoreSt) (set : Nat) : Option RwRun := c.rewrite.taken.find? fun r => r.pair.hk / 2 == set
/-- Change, or with `none` end, what the rewrite unit does for a set. -/
def CoreSt.modRwRun (c : CoreSt) (set : Nat) (f : RwRun → Option RwRun) : CoreSt :=
  { c with rewrite := { c.rewrite with
      taken := c.rewrite.taken.filterMap fun r => if r.pair.hk / 2 = set then f r else some r } }
/-- An access of the rewrite unit is answered. -/
def RwRun.answer (r : RwRun) (resp : Resp) (va : Word) (now : Nat) : RwRun :=
  let fail := fun (code : Nat) => match r.out.refill code resp.detail (resp.eaddr.getD va) with
    | some w => { r with out := w, sent := none, refusals := 0 }
    | none => { r with err := some (code, resp.eaddr.getD va), sent := none, refusals := 0 }
  if resp.code = 0 then
    let r := { r with sent := none, refusals := 0 }
    match r.out with
    | .linkLock x y locked z => { r with out := .linkLock x y (locked ++ [z]) 0 }
    | .fetch _ => { r with out := .none, got := r.got ++ [(resp.data, resp.labs)] }
    | .done => { r with out := .doneOk }
    | _ => r
  else if resp.code = 0x100 ∧ r.refusals + 1 < 64 then
    { r with refusals := r.refusals + 1, retryAt := now + backoffOf (r.refusals + 1) }
  else fail resp.code

/-- A journal entry is answered (R183): freed, or refused with the posted-store trap or an event record. A freed entry
keeps what its other fields held until a store takes it (DESIGN CHOICE, log 101). -/
def State.journalDone (s : State) (core : CoreNo) (e : Nat) (resp : Resp) : State :=
  let c := s.coreAt core
  match c.journal[e]? with
  | none => s
  | some j =>
    let put := fun (s : State) (x : JEntry) => s.modCore core fun c => { c with journal := c.journal.set! e x }
    if resp.code = 0 then put s { j with st := .free }
    else
      let s := put s { j with st := .refused, code := resp.code, told := c.assist.getLsbD 2 }
      if c.assist.getLsbD 2 then
        s.postEvent (s.partKey core j.key)
          { kind := 3, code := resp.code, core := core, ctx := j.key % 16, addr := j.addr }
      else s.asyncTo core j.key { trap := 0x0C, detail := e % 32 + resp.code % 256 * 256, eaddr := j.addr }

/-- An engine's message is answered (R236, R281, R285): a bound arrival, which gives the token its code if it was refused, in
the place of a fault's own (DESIGN CHOICE, log 116); a piece read; or a piece written. A refused piece stops the
operation. -/
def EngRun.answer (r : EngRun) (what : EngAsk) (resp : Resp) (va : Word) : EngRun :=
  let stop := if resp.code = 0 then r.stop else some (r.stop.getD (resp.code, resp.logAt.getD va))
  match what with
  | .arrive => { r with answered := true, code := if resp.code = 0 then r.code else resp.code
                        frec := if resp.code = 0 then r.frec else resp.frec }
  | .read ha => { r with asked := none, stop
                         fetched := if resp.code = 0 then (ha, resp.data, resp.labs) :: r.fetched else r.fetched }
  | .write ha n =>
    let r := { r with pending := r.pending - 1, stop }
    if resp.code = 0 then r
    else { r with landed := r.landed.filter (· != (ha, n))
                  pos := match r.op.kind with | .xform _ => r.pos | _ => r.pos - n }

/-- A block that a matrix instruction reads arrives; a refused one stops it with the refusal's code and the address of the
operand word (R254). -/
def MatRun.answer (r : MatRun) (ha : Nat) (resp : Resp) (va : Word) : MatRun :=
  if r.asked ≠ some ha then r
  else if resp.code = 0 then { r with asked := none, got := (ha, resp.data, resp.labs) :: r.got }
  else { r with asked := none, stop := some (resp.code, va) }

/-- A reply reaches whoever waits for it. -/
def State.deliver (s : State) (core : CoreNo) (src : CoreNo) (who : Asker) (resp : Resp) (va : Word) : State :=
  match who with
  | .ctx key => s.complete core key src resp va
  | .contexts joins => joins.foldl (fun s k => s.complete core k.1 src resp va) s
  | .journal e => s.journalDone core e resp
  | .nobody => if resp.code = 0 then s else s.modCore core (·.count 6)
  | .engine e tenant what => s.modCore core fun c => c.modTenantEng tenant e fun g =>
    { g with run := g.run.map fun r => r.answer what resp va }
  | .matrix tenant h ha => s.modCore core fun c => c.modTenantMatrix tenant fun m =>
    let f := fun (x : Half) => { x with run := x.run.map fun r => r.answer ha resp va }
    if h = 0 then { m with h0 := f m.h0 } else { m with h1 := f m.h1 }
  | .unit hk =>
    (if resp.code = 0x100 then s.modCore core (·.count 10) else s).modCore core fun c =>
      c.modRwRun (hk / 2) fun r => some (r.answer resp va s.cycle)
  | .stream key f id => s.modCtx core key fun c =>
    { c with streams := c.streams.set f (c.streams[f].map (·.fetched id resp)) }

/-- Flits that carry `n` bytes and their labels (R317). -/
def flitsFor (n : Nat) : Nat := if n * 3 / 2 ≤ 24 then 1 else 1 + (n * 3 / 2 - 24 + 31) / 32
/-- Flits of a request's data: a part of a VLD or VST or an engine piece takes 3 to 7 (R317). -/
def Req.flits (r : Req) (n : Nat) : Nat := if r.wide then max 3 (flitsFor n) else flitsFor n

/-- The key of the context that a request belongs to. -/
def Req.key (r : Req) : Nat := match r.who with | .ctx k => k | .contexts (k :: _) => k.1 | _ => r.owner

/-- Whether a code enters the partition's error log (R182, R223): the barrier status 0x31 and the model's own codes
above 0xFF do not. -/
def logged (code : Nat) : Bool := code != 0 && code != 0x31 && decide (code < 0x100)
/-- A piece of an engine: its refusal is logged once, as the operation's fault (R254, R285). -/
def Asker.piece : Asker → Bool
  | .engine _ _ .arrive => false
  | .engine .. | .matrix .. => true
  | _ => false
/-- A block of operands, whose uncorrectable words only a use of them meets (R254). -/
def Asker.marks : Asker → Bool
  | .matrix .. => true
  | _ => false

/-- The home answers a request: a refusal is logged first (R358), then the answer reaches the requester, at once when
it is the home's own core, or as a message. An FE timeout is logged by the home's partition (R181), any other refusal by
the requester's. A refused arrival of several contexts is one entry, with the first one's number and PC (DESIGN CHOICE,
log 115). -/
def State.answer (s : State) (home : CoreNo) (r : Req) (resp : Resp) : State :=
  let key := r.key
  let part := if resp.code = 0x07 ∧ r.peer then s.peerPart r.part home else r.part
  let (q, s) := if logged resp.code && !r.who.piece then
      s.logError part resp.code (resp.logAt.getD r.va) r.src (realKey key % 16) r.pc else (resp.frec, s)
  let resp := { resp with frec := q }
  if r.src = home then s.deliver r.src home r.who resp r.va
  else if r.post ∧ resp.code = 0 then s
  else
    let fl := if resp.code = 0 ∧ !resp.data.isEmpty then r.flits resp.data.length else 1
    s.send home r.src r.path r.part (vcPick r.vcls false fl true) fl key (.resp r.who resp r.va)

/-- Try parked requests in the order taken, up to the first that is performed, whose answer is given or held. One that waits
for room in the window keeps its place, and those behind it on its words wait with it (R180, R188). -/
def State.serveParked (home : CoreNo) : List Req → List ParkEntry → State → State × Bool
  | _, [], s => (s, false)
  | ahead, e :: rest, s =>
    let r := e.req
    if ahead.any fun q => decide (q.ha < r.ha + r.n) && decide (r.ha < q.ha + q.n) then State.serveParked home ahead rest s
    else match s.try_ home r with
      | .blocked => State.serveParked home ahead rest s
      | .full s => State.serveParked home (r :: ahead) rest s
      | .held s => (match r.who, decide (r.src = home) with
        | .ctx key, true => s.waitCtx home key .reply
        | _, _ => s, true)
      | .done s resp => ((s.modCore home fun c => c.unpark (· == r)).answer home r resp, true)

/-- Check the park table again after words of a home changed (R180): entries in the order taken, each served at once
when its condition holds, starting over after each. -/
def State.recheck (s : State) (home : CoreNo) : Nat → State
  | 0 => s
  | n + 1 =>
    match State.serveParked home [] (s.coreAt home).parks s with
    | (s, false) => s
    | (s, true) => s.recheck home n

/-- The home at which a request of a context is parked, if one is. -/
def State.parkedAt (s : State) (core : CoreNo) (key : Nat) : Option CoreNo :=
  (s.cores.find? fun p => p.2.parks.any fun e => e.req.src == core && e.req.who == .ctx key).map fun p =>
    BitVec.ofNat 20 p.1

-- An engine's pieces at their home (R189, R281, R284)

/-- Whether a write forms a conjunction at its home (R281, R407): a word is written in part, or from several source
words. -/
def Req.conjoins (r : Req) : Bool :=
  (List.range r.words).any fun i => let (l, whole) := r.sources (2 ^ r.n - 1) i; !whole || decide (l.length ≠ 1)

/-- Perform writes that homes hold back from the other paths, oldest first: those of an engine that meet a test. None of them
can be refused for its label (R407), since it forms no conjunction. -/
def State.drainIf (s : State) (core : CoreNo) (e : Eng) (p : Req → Bool) : State :=
  let rs := ((s.coreAt core).eng e).buf.filter p
  let s := s.modCore core fun c => c.modEng e fun g => { g with buf := g.buf.filter fun r => !p r }
  rs.foldl (fun s r =>
    let h := homeOf r.ha
    match s.perform h r with
    | .ok (_, s) => s.recheck h ((s.coreAt h).parks.length + 1)
    | .error _ => s) s
/-- Perform all the writes that are held back of an engine's path (R189, log 16). -/
def State.drain (s : State) (core : CoreNo) (e : Eng) : State := s.drainIf core e fun _ => true

/-- A piece that an engine reads: it sees the engine's own writes, those held back too. -/
def State.pieceRead (s : State) (home : CoreNo) (e : Eng) (r : Req) : State :=
  match (s.drain r.src e).perform home r with
  | .ok (resp, _) => s.answer home r resp
  | .error resp => s.answer home r resp
/-- A piece that an engine writes: performed, after those of the same home held back before it, or held back itself by a
free choice (R189, R284, log 16). Writes of different homes keep no order. One that forms a conjunction is performed at
once, so that its refusal reaches the operation before its token and its arrival (R236, R285, R407). -/
def State.pieceWrite (s : State) (home : CoreNo) (e : Eng) (r : Req) : State :=
  let (t, s) := s.draw
  match (s.drainIf r.src e fun q => homeOf q.ha == home).perform home r with
  | .error resp => s.answer home r resp
  | .ok (_, v) =>
    if r.conjoins || Config.seesNew t then (v.answer home r {}).recheck home ((v.coreAt home).parks.length + 1)
    else (s.modCore r.src fun c => c.modEng e fun g => { g with buf := g.buf ++ [r] }).answer home r {}

/-- What an access that reaches its home comes to: it is performed, and the park table is still to be checked again; it is
taken otherwise; or it is a release that the full window keeps waiting, which comes again. -/
inductive Arrived where
  | performed (s : State)
  | taken (s : State)
  | waits (s : State)

/-- An access arrives at its home (R186): it is performed and answered, held, or parked; a full park table refuses it
(R182). A halted core answers 0x04, or 0x0A to a group load (R360), and a stopped one 0x0A to a group load (R223). -/
def State.arrive1 (s : State) (home : CoreNo) (r : Req) (bad : Bool) : Arrived :=
  let c := s.coreAt home
  if r.act = .gldRead ∧ (c.halted ∨ c.stopped) then .taken (s.answer home r { code := 0x0A })
  else if c.halted ∨ bad ∨ (s.spoilt r && !r.who.marks) then .taken (s.answer home r { code := 0x04 })
  else match r.who with
  | .engine e _ (.read _) => .taken (s.pieceRead home e r)
  | .engine e _ (.write ..) => .taken (s.pieceWrite home e r)
  | _ => match s.try_ home r with
    | .done s resp => .performed (s.answer home r resp)
    | .held s => .performed s
    | .full s => .waits s
    | .blocked =>
      if 32 ≤ c.parks.length then .taken (s.answer home r { code := 0x100 })
      else
        let s := s.modCore home fun c => { c with parks := c.parks ++ [{ req := r, since := s.cycleOf (pkgOf home) }] }
        match r.who with
        | .ctx key => .taken (if r.src = home then s.parkCtx home key .home else s)
        | _ => .taken s

/-- The same, with the park table checked again after an access that is performed (R180). -/
def State.arrive2 (s : State) (home : CoreNo) (r : Req) (bad : Bool) : Arrived :=
  match s.arrive1 home r bad with
  | .performed t => .taken (t.recheck home ((s.coreAt home).parks.length + 1))
  | x => x

/-- An access of the issuing core's own, or one that was held at its home: a release of a context that finds the window
full sends its context to WAIT, and its instruction is tried again; any other waits for the entry that leaves. -/
def State.arriveOwn (s : State) (home : CoreNo) (r : Req) (bad : Bool) : State :=
  match s.arrive2 home r bad with
  | .performed s | .taken s => s
  | .waits s =>
    match r.who, decide (r.src = home) with
    | .ctx key, true => s.modCtx home key fun c => { c with out := .none, sent := none, run := .wait .order }
    | _, _ => s.modCore home (·.behindEviction r)

-- The requester's side

/-- Whether an access may reach its home in this cycle: of accesses that arrive in one cycle the lower CINDEX comes first,
then the lower context, each path of a core in its own order (R186). -/
def State.turnOf (s : State) (home src : CoreNo) (p : Path) (ctx : Nat) : Bool :=
  match (s.coreAt home).arrived with
  | none => true
  | some a => a.cycle != s.cycle || decide (a.cindex < cindex src) ||
      (a.cindex == cindex src && (a.path == p || decide (a.ctx ≤ ctx)))
/-- Record an arrival. -/
def State.arrival (s : State) (home src : CoreNo) (p : Path) (ctx : Nat) : State :=
  s.modCore home fun c => { c with arrived := some ⟨s.cycle, cindex src, p, ctx⟩ }
/-- Whether the acting context may access its own core's store in this cycle. -/
def State.inOwnTurn (s : State) : Bool := s.turnOf s.core s.core .th (realKey s.key % 16)

/-- Send a request to its home, or perform it there at once when the home is the issuing core. -/
def State.dispatch (s : State) (home : CoreNo) (r : Req) : State :=
  if home = r.src then (s.arrival home r.src r.path (realKey r.key % 16)).arriveOwn home r false
  else
    let fl := match r.act with
      | .store _ | .xput => r.flits r.n
      | _ => 1
    s.send r.src home r.path r.part (vcPick r.vcls false fl false) fl r.key (.req r)

/-- A request of the acting context that it waits for (R178). One to its own core waits its turn there (R186). -/
def State.ask (s : State) (home : CoreNo) (r : Req) (out : Wr) : State :=
  if home = s.core ∧ !s.inOwnTurn then s.wait .turn
  else (s.modMe fun c => { c with out := out, sent := some r, run := .wait .reply }).dispatch home r

/-- Journal entries of the acting context that a release, fence, LINK or TLBINV at a scope waits for (R187). -/
def State.orderly (s : State) (sc : Scope) : Bool :=
  !(s.here.journal.toList.any fun j =>
    j.st == .outstanding && j.key == realKey s.key && inScope sc s.core j.home)
/-- Every earlier store of the acting context has been performed. -/
def State.allPerformed (s : State) : Bool := s.orderly .sy

/-- The base of a request of the acting context. -/
def State.req (s : State) (act : Act) (l : Loc) (va : Word) (n : Nat) : Req :=
  let c := s.me
  { act, src := s.core, who := .ctx s.key, part := s.part, va, ha := l.ha, plane := l.plane, localStore := l.ls, n,
    jpos := s.here.jcount, limit := max c.parklim.toNat 0x400, pc := c.pc, peer := l.peer, fixed := l.fixed, owner := realKey s.key }

/-- The journal's lowest free entry (R183). -/
def CoreSt.freeEntry (c : CoreSt) : Option Nat := c.journal.toList.findIdx? fun j => j.st == .free

/-- The contexts of the current set that wait for a journal entry, in the order in which they began to (R207). A pair keeps
its place while its first instruction runs. -/
def CoreSt.jqueue (c : CoreSt) : List Nat :=
  c.jwait.filter fun k => keySet k == c.cur && ((c.ctxAt k).run == .wait .journal || (c.ctxAt k).pair.isSome)

/-- Wait for a journal entry behind the contexts that wait already (R207). -/
def State.waitJournal (s : State) : State :=
  (s.modHere fun c => if c.jqueue.contains s.key then c else { c with jwait := c.jqueue ++ [s.key] }).wait .journal

/-- Take a journal entry for a store and send it (R183); `none` when no entry is free, or another context has waited for
one longer (R207). -/
def State.journal (s : State) (home : CoreNo) (r : Req) : Option State :=
  match if s.here.jqueue.headD s.key = s.key then s.here.freeEntry else none with
  | none => none
  | some e =>
    let j : JEntry :=
      { st := .outstanding, key := realKey s.key, pc := r.pc, data := BitVec.ofNat 64 (leNat r.data % 2 ^ 64)
        lab := r.labs.headD 0, size := (match r.n with | 1 => 0 | 2 => 1 | 4 => 2 | _ => 3), addr := r.va
        num := s.here.jcount, home := home, req := some r }
    some ((s.modHere fun c => { c with journal := c.journal.set! e j, jcount := c.jcount + 1
                                       jwait := c.jwait.filter (· != s.key) }).dispatch home
      { r with who := .journal e })

/-- A store of the acting context (R178, R183, R184, R187): a release waits for its earlier accesses; a store to the
own core is performed; a .post store is sent with nobody waiting; another takes a journal entry. -/
def State.doStore (s : State) (home : CoreNo) (r : Req) : State :=
  if (match r.rel with | some sc => !s.orderly sc | none => false) then s.wait .order
  else if r.post then
    if home = s.core ∧ !s.inOwnTurn then s.wait .turn else (s.dispatch home { r with who := .nobody }).retire
  else if home = s.core then s.ask home r .none
  else match s.journal home r with
    | some s => s.retire
    | none => s.waitJournal

/-- Whether the acting context's earlier stores have been performed, but for those that go to one home, whose order its
path keeps: its posted ones are those that have not reached their homes (R212). -/
def State.pushable (s : State) (home : CoreNo) : Bool :=
  !(s.here.journal.toList.any fun j => j.st == .outstanding && j.key == realKey s.key && j.home != home) &&
  !(s.msgs.any fun m => m.src == s.core && m.dst != home && match m.body with
    | .req r => r.post && r.owner == realKey s.key
    | _ => false)

-- Bytes that an instruction reads besides its own access (R210, R211, R237, R288, R313, R365)

/-- `n` bytes at a place, with their handles: those whose home is the core itself at once, those of another home by a
message that the instruction waits for. The error is the state in which the instruction ends or waits. -/
def State.fetchAt (s : State) (l : Loc) (va : Word) (n : Nat) : Except State (List Byte × List Handle) :=
  let r := s.req .load l va n
  if l.home = s.core then
    if s.here.halted ∨ s.spoilt r then .error (s.refuseHere 0x04 va)
    else if !s.inOwnTurn then .error (s.wait .turn)
    else .ok (s.readAt l.ha n, s.loadLabs r)
  else match s.me.fetched.find? (fun p => p.1 == l.ha && p.2.1.length == n) with
    | some p => .ok p.2
    | none => .error (s.ask l.home r (.fetch l.ha))

/-- Bytes by virtual address, in pieces of an aligned 64-byte block, as loads of the thread path: those whose home is the
core itself are read at once, and the instruction waits in turn for each piece of another home, which it asks for by a
message. The error is the state in which the instruction ends or waits. -/
def State.vread (s : State) (u : Use5) (va : Nat) : Nat → Nat → Except State (List Byte)
  | 0, _ => .ok []
  | f + 1, n =>
    if n = 0 then .ok []
    else
      let m := min n (64 - va % 64)
      let w := BitVec.ofNat 64 va
      let spot : Except State Loc := match s.window s.core s.key va with
        | some (.error c) => .error (s.refuseHere c w)
        | some (.ok l) => .ok l
        | none => match s.translate s.core s.key va u with
          | .at_ l => .ok l
          | .bad c => .error (s.refuseHere c w)
          | .walk => .error (s.wait (.walk w))
      match spot with
      | .error t => .error t
      | .ok l => match s.fetchAt l w m with
        | .error t => .error t
        | .ok x => match s.vread u (va + m) f (n - m) with
          | .ok bs => .ok (x.1 ++ bs)
          | .error t => .error t

end Sys2Proof.Machine
end

