-- ==== Sys2Proof/Machine/Fetch.lean ====
section
/-!
DEFINITION. Fetching (R83 to R90, R98, R119): a core's fetch buffer, the parity of a line, the checks before an
instruction's own entry in the order of R98, and the row that a register's value chooses among those that share an
encoding (log 5).
-/
namespace Sys2Proof.Machine

/-- The line word (R84). -/
def lineWord (b : BitVec 512) : Nat := (b.extractLsb' 0 32).toNat
/-- The slot area (R83). -/
def slotArea (b : BitVec 512) : Nat := (b.extractLsb' 32 480).toNat
/-- The 96 bits of a slot (R83). -/
def slotWord (b : BitVec 512) (n : Nat) : BitVec 96 := b.extractLsb' (32 + 96 * n) 96
/-- PAR of a slot area (R85). -/
def parOf (area : Nat) : Nat :=
  (List.range 8).foldl (fun acc j => acc + (if parity 60 (area / 2 ^ (60 * j)) then 2 ^ j else 0)) 0
/-- A line whose parity bits hold (R85). -/
def parityOk (b : BitVec 512) : Bool := bitsAt (lineWord b) 16 8 == parOf (slotArea b)
/-- TGT (R84). -/
def lineTgt (b : BitVec 512) : Nat := bitsAt (lineWord b) 0 5
/-- TMPL (R84). -/
def lineTmpl (b : BitVec 512) : Nat := bitsAt (lineWord b) 5 5
/-- First slots of pairs under a template (R88). -/
def firsts (tmpl : Nat) : List Nat :=
  match tmpl with
  | 1 => [0] | 2 => [1] | 3 => [2] | 4 => [3] | 5 => [0, 2] | 6 => [0, 3] | 7 => [1, 3] | _ => []
/-- Second slots of pairs under a template (R88). -/
def seconds (tmpl : Nat) : List Nat := (firsts tmpl).map (· + 1)

/-- A line of a partition in the fetch buffer (R119). -/
def CoreSt.lookLine (c : CoreSt) (k : PartKey) (a : Word) : Option Line :=
  c.lines.find? fun l => l.part == k && l.addr == a

/-- The row that the registers choose for an encoding that several rows share: MCTL's field (R272), ACK's action (R355),
CALSET's bit 16 (R375). -/
def resolveRow (c : Ctx) (i : Instr) : Instr :=
  match i with
  | .mctlSetP a b | .mctlSetSplit a b | .mctlSetRhalf a b | .mctlSetTol a b | .mctlSetBnorm a b | .mctlSetCap a b
  | .mctlSetIter a b =>
    match (c.g a).val.toNat with
    | 1 => .mctlSetSplit a b
    | 2 => .mctlSetRhalf a b
    | 3 => .mctlSetTol a b
    | 4 => .mctlSetBnorm a b
    | 5 => .mctlSetCap a b
    | 6 => .mctlSetIter a b
    | _ => .mctlSetP a b
  | .ackReplay a | .ackResume a | .ackRefuse a =>
    match ((c.g a).val.extractLsb' 24 2).toNat with
    | 1 => .ackResume a
    | 2 => .ackRefuse a
    | _ => .ackReplay a
  | .calsetCalendar a b | .calsetArbitration a b => if (c.g a).val.getLsbD 16 then .calsetArbitration a b else .calsetCalendar a b
  | i => i

/-- The instruction of a slot, or none where R98 traps. -/
def slotInstr (b : BitVec 512) (n : Nat) (c : Ctx) : Option Instr :=
  match decode (slotWord b n) with
  | .ok i => some (resolveRow c i)
  | .error _ => none

/-- What reaches issue. -/
inductive Fetched where
  /-- One instruction, or a pair. -/
  | run (i : Inst)
  /-- A trap, or a wait for the line. -/
  | stop (s : State)

/-- A fetch watch comparator matches one of the slots that issue (R376). -/
def State.fetchWatch (s : State) (i : Inst) : Fetched :=
  let pcs := i.pc :: (if i.i2.isSome then [nextPc i.pc] else [])
  match if s.me.dbg.pass then none else pcs.findSome? (fun p => s.me.watched p 1 Use5.fetch.kinds) with
  | some (n, a) => .stop (s.watchHit n a)
  | none => .run i

/-- The checks on a line that is there (R86 to R90, R98): bad target, the line word, the instructions with the illegal
traps of their slots, the pairing. An unchecked resumption at a slot number above 4 is taken as a bad target, and one at
the second slot of a pair issues that slot alone (DEDUCED, log 22). -/
def State.lineChecks (s : State) (b : BitVec 512) : Fetched :=
  let c := s.me
  let n := slotNo c.pc
  let badBits := c.pc &&& 0x38 != 0 || decide (4 < n)
  if badBits || (c.enter.isSome && (!(lineTgt b).testBit n || (seconds (lineTmpl b)).contains n)) then
    .stop (s.trap 0x03 0 (c.enter.getD c.pc))
  else
    let s := s.modMe fun c => { c with enter := none }
    let lw := lineWord b
    if bitsAt lw 24 8 ≠ 0 ∨ bitsAt lw 10 6 ≠ 0 ∨ 7 < lineTmpl b then .stop s.illegal
    else match (slotInstr b n c).filter fun i => !s.slotIllegal i with
      | none => .stop s.illegal
      | some i =>
        if (firsts (lineTmpl b)).contains n then
          match (slotInstr b (n + 1) c).filter fun j => !s.slotIllegal j with
          | none =>
            -- the second instruction of the pair raised it: EPC names the first slot, EADDR the second
            .stop ((s.modMe fun x => { x with pc := nextPc c.pc, pair := some { first := c.pc } }).trap 0x01 0 (nextPc c.pc))
          | some j =>
            if pairLegal i j then s.fetchWatch { pc := c.pc, i1 := i, i2 := some j }
            else .stop (s.trapOpen 0x02 0)
        else s.fetchWatch { pc := c.pc, i1 := i }

/-- Fetch for the acting context (R83 to R90, R119, R168 to R173): the address, the line in the fetch buffer or a wait
for it, and the checks. A refused fetch raises its trap at the destination; EADDR holds the transferring instruction's
address when a transfer leads into the group window (R170), else the destination. -/
def State.fetch (s : State) : Fetched :=
  let c := s.me
  let a := (lineOf c.pc).toNat
  let bad := fun code =>
    let ea := match c.enter with | some p => if a / 2 ^ 48 = 0x1FD then p else c.pc | none => c.pc
    let (_, s) := s.logError s.part code c.pc s.core (realKey s.key % 16) c.pc
    Fetched.stop (s.refusal s.core s.key code 0 ea)
  if 2 ^ 57 ≤ a then .stop (s.trap 0x03 0 (c.enter.getD c.pc))
  else match s.here.lookLine s.part (lineOf c.pc) with
    | some l => s.lineChecks l.bits
    | none =>
      match s.window s.core s.key a with
      | some (.error code) => bad code
      | some (.ok _) => .stop (s.wait (.line (lineOf c.pc)))
      | none => match s.translate s.core s.key a .fetch with
        | .bad code => bad code
        | .walk => .stop (s.wait (.walk (lineOf c.pc)))
        | .at_ _ => .stop (s.wait (.line (lineOf c.pc)))

/-- The home address of a fetch line, where its translation is at hand. -/
def State.lineSpot (s : State) (core : CoreNo) (key : Nat) (a : Word) : Option Nat :=
  match s.window core key a.toNat with
  | some (.ok l) => some l.ha
  | some (.error _) => none
  | none => match s.translate core key a.toNat .fetch with
    | .at_ l => some l.ha
    | _ => none

/-- A line put into the fetch buffer: 256 lines, the oldest goes (DESIGN CHOICE, log 19). -/
def CoreSt.addLine (c : CoreSt) (l : Line) : CoreSt :=
  { c with lines := (l :: c.lines.filter fun x => !(x.part == l.part && x.addr == l.addr)).take 256 }

/-- A line that holds one instruction in slot 0, with its parity, every other slot zero and slot 0 a target. -/
def lineWith (w : BitVec 96) : BitVec 512 :=
  BitVec.ofNat 512 (1 + parOf w.toNat * 2 ^ 16 + w.toNat * 2 ^ 32)

end Sys2Proof.Machine
end

