-- ==== Sys2Proof/Machine/Label.lean ====
section
/-!
DEFINITION. The assumption-label instructions (R155 to R162), major codes 0x30 to 0x36, and the events of the label
units and the label home (R145 to R149, R162).
-/
namespace Sys2Proof.Machine

/-- An instruction of the root context alone. -/
def State.rootOnly (s : State) (k : State → State) : State := if realKey s.key % 16 = 0 then k s else s.illegal

/-- ASSUME (R156): a 1 under one assumption. -/
def execAssume (d : GReg) (n : Fin 64) (s : State) : Host.Outcome State Fault Refusal :=
  .next (s.guarded (.assume d n) fun s => (s.modMe fun c => c.setG d ⟨1, BitVec.ofNat 16 (n.val + 1)⟩).retire)

/-- LUNION (R157): the disjunction of two labels of the same data. -/
def execLunion (d a b : GReg) (s : State) : Host.Outcome State Fault Refusal :=
  .next (s.guarded (.lunion d a b) fun s =>
    let x := s.me.g a
    let y := s.me.g b
    let p := s.lab x.lab
    let q := s.lab y.lab
    let put := fun (s : State) (v : Word) (h : Handle) => (s.modMe fun c => c.setG d ⟨v, h⟩).retire
    if p = hiddenH then put s y.val q
    else if q = hiddenH then put s x.val p
    else if x.val ≠ y.val then
      let (_, s) := s.logError s.part 0x16 s.me.pc s.core (realKey s.key % 16) s.me.pc
      s.trap 0x13 0 s.me.pc
    else match s.lookComb true p q with
      | .ok h s => put s x.val h
      | .stop s => s)

/-- NOGOOD (R158): the environments of a label go to the label home as forbidden sets. -/
def execNogood (t a : GReg) (s : State) : Host.Outcome State Fault Refusal :=
  .next (s.guarded (.nogood t a) fun s =>
    if t = 0 then s.illegal
    else
      let k := s.part
      let p := s.envsOf s.core k (s.me.g a).lab
      let hidden := s.lab (s.me.g a).lab = hiddenH
      if hidden then ((s.markToken t).writeToken s.core s.key t ⟨statusWord 0 1 0 0, 0⟩).retire
      else if p = [0] then
        let (q, s) := s.logError k 0x22 s.me.pc s.core (realKey s.key % 16) s.me.pc
        ((s.markToken t).writeToken s.core s.key t ⟨statusWord 0x22 1 q 0, 0⟩).retire
      else ((s.markToken t).send s.core (s.partAt k).lhome .th k 0 2 s.key (.nogood s.key t s.me.pc p)).retire)

/-- LGET (R159): the resolved handle as data. -/
def execLget (d a : GReg) (s : State) : Host.Outcome State Fault Refusal :=
  .next (s.guarded (.lget d a) fun s =>
    (s.modMe fun c => c.setG d ⟨(s.lab (c.g a).lab).setWidth 64, 0⟩).retire)

/-- LSET (R159): a handle from data. -/
def execLset (d a b : GReg) (s : State) : Host.Outcome State Fault Refusal :=
  .next (s.guarded (.lset d a b) fun s => s.deciding [b] fun s =>
    let y := (s.me.g b).val
    let h : Handle := y.setWidth 16
    if 2 ^ 16 ≤ y.toNat ∨ (s.entryOf s.core s.part h).isNone then s.trap 0x14 0 y
    else (s.modMe fun c => c.setG d ⟨(c.g a).val, h⟩).retire)

/-- LCLR (R159): the label becomes empty. -/
def execLclr (d : GReg) (s : State) : Host.Outcome State Fault Refusal :=
  .next (s.guarded (.lclr d) fun s => (s.modMe fun c => c.setG d ⟨(c.g d).val, 0⟩).retire)

/-- LTEST (R159): whether a label is HIDDEN. -/
def execLtest (d a : GReg) (s : State) : Host.Outcome State Fault Refusal :=
  .next (s.guarded (.ltest d a) fun s =>
    (s.modMe fun c => c.setG d ⟨if s.lab (c.g a).lab = hiddenH then 1 else 0, 0⟩).retire)

/-- LCOUNT (R159): the number of environments. -/
def execLcount (d a : GReg) (s : State) : Host.Outcome State Fault Refusal :=
  .next (s.guarded (.lcount d a) fun s =>
    (s.modMe fun c => c.setG d ⟨BitVec.ofNat 64 (s.envsOf s.core s.part (c.g a).lab).length, 0⟩).retire)

/-- LENVGET (R160): an environment by number, 0 beyond the last. -/
def execLenvget (d a b : GReg) (s : State) : Host.Outcome State Fault Refusal :=
  .next (s.guarded (.lenvget d a b) fun s => s.deciding [b] fun s =>
    (s.modMe fun c => c.setG d ⟨(s.envsOf s.core s.part (c.g a).lab).getD (c.g b).val.toNat 0, 0⟩).retire)

/-- LWIN (R161): the label window's base, between searches only. -/
def execLwin (a : GReg) (s : State) : Host.Outcome State Fault Refusal :=
  .next (s.guarded (.lwin a) fun s => s.rootOnly fun s => s.deciding [a] fun s =>
    let x := (s.me.g a).val
    let p := s.partAt s.part
    if 2 ^ 24 ≤ x.toNat ∨ p.table.any (fun e => decide (65 ≤ e.1)) ∨ !p.blight.isEmpty then s.trap 0x15 0 x
    else (s.modPart s.part fun p => { p with lwindow := x.setWidth 24 }).retire)

/-- LFLUSH (R162): the root parks until the label home has ended every search. -/
def execLflush (s : State) : Host.Outcome State Fault Refusal :=
  .next (s.guarded .lflush fun s => s.rootOnly fun s =>
    let k := s.part
    (s.parkCtx s.core s.key .lflush).send s.core (s.partAt k).lhome .th k 0 1 s.key (.lflush s.key))

-- Events

/-- The keys that a context number stands for: its contexts in the four sets, the current one first, and the
sequencer's own. -/
def State.keysOf (s : State) (core : CoreNo) (x : CtxNo) : List Nat :=
  let cur := (s.coreAt core).cur
  let sets := cur :: ([0, 1, 2, 3].filter (· != cur))
  (sets.map fun n => 16 * n + x.val) ++ sets.map fun n => 64 + 16 * n + x.val

/-- A waiting context has its combination: its reply is completed, or its instruction issues again. -/
def State.relabel (s : State) (core : CoreNo) (key : Nat) : State :=
  match (s.ctxAt core key).resp with
  | some (r, va) => s.complete core key core r va
  | none => s

/-- COMBINE_MISS_COMPLETE (R145): the label unit forms the set; a set that no entry holds goes to the label home. -/
def execCombineMissComplete (core : CoreNo) (x : CtxNo) (s : State) : Host.Outcome State Fault Refusal :=
  .next (match (s.keysOf core x).findSome? (fun key => match (s.ctxAt core key).run with
      | .wait (.combine u a b) => some (key, u, a, b)
      | _ => none) with
    | none => s
    | some (key, u, a, b) =>
      let k := s.partKey core key
      let set := combineSet (s.blightOf core k) u (s.envsOld core k a) (s.envsOld core k b)
      if set.isEmpty then (s.giveComb core key k u a b hiddenH).relabel core key
      else if 64 < set.length then s.labelOverflow core key 1 set.length
      else match (s.partAt k).find set with
        | some h => (s.giveComb core key k u a b h).relabel core key
        | none => (s.waitCtx core key .intern).send core (s.partAt k).lhome .th k 0 2 key (.intern key u a b set (s.partAt k).flushes))

/-- LABEL_INTERN_REQUEST (R143, R144, R146): the label home interns a set against its blight table, and the answer
reaches the context that waits. A request made before an LFLUSH names handles that are gone: its context has gone on
since. -/
def execLabelInternRequest (core src : CoreNo) (s : State) : Host.Outcome State Fault Refusal :=
  .next (match s.nextOf src core .th with
    | some m => match m.body with
      | .intern key u a b set flush =>
        let s := s.consume m
        let p := s.partAt m.part
        if flush ≠ p.flushes then s
        else match p.intern (reduceEnvs p.blight set) with
        | .ok h p spill =>
          let s := s.setPart m.part p
          let s := if spill then s.modCore src (·.count 0) else s
          (s.giveComb src key m.part u a b h).relabel src key
        | .fail c n => if (s.ctxAt src key).run.combining then s.labelOverflow src key c n else s
      | _ => s
    | none => s)

/-- NOGOOD_APPLY (R148, R158): the label home records the environments and sweeps the table; every core of the partition
is told. A table that would exceed 256 entries, counted after step 2 has removed old entries (DESIGN CHOICE, log 99),
records nothing; its token waits for those of earlier NOGOODs (R149). -/
def execNogoodApply (core src : CoreNo) (s : State) : Host.Outcome State Fault Refusal :=
  .next (match s.nextOf src core .th with
    | some m => match m.body with
      | .nogood key tok pc envs =>
        let s := s.consume m
        let p := s.partAt m.part
        let (blight, count) := addBlight p.blight envs
        if 256 < blight.length then
          let (q, s) := s.logError m.part 0x21 pc src (realKey key % 16) pc
          s.modPart m.part fun p => { p with nogoods := p.nogoods ++ [⟨src, key, tok, 0, [], 0x21, q⟩] }
        else
          let q := p.sweep blight
          let old := p.inPlace.filter (fun e => q.entry (BitVec.ofNat 16 e.1) != some e.2) ++
            p.table.filter fun e => e.2.fwd.isSome && assoc q.table e.1 != some e.2
          let cores := (coresOf m.part.pkg m.part.node).filter fun c => s.inPart m.part c
          let s := s.setPart m.part { q with nogoods := p.nogoods ++ [⟨src, key, tok, count, cores, 0, 0⟩] }
          cores.foldl (fun s c => s.modCore c fun x => x.modUnit m.part fun u =>
            { u with installs := u.installs ++ [⟨p.blight, old⟩] }) s
      | _ => s
    | none => s)

/-- BLIGHT_INSTALL (R148 step 4): a core installs the oldest sweep it has been told of and empties its combine cache. -/
def execBlightInstall (core : CoreNo) (s : State) : Host.Outcome State Fault Refusal :=
  .next (match (s.coreAt core).labels.find? (fun u => !u.2.installs.isEmpty) with
    | none => s
    | some (n, _) =>
      let key := 16 * (n / 2) + 1 + 7 * (n % 2)
      let k := s.partKey core key
      let s := s.modCore core fun c => c.modUnit k fun u => { u with comb := [], installs := u.installs.tail }
      s.modPart k fun p => { p with
        nogoods := match p.nogoods.findIdx? (fun g => g.waiting.contains core) with
          | some i => p.nogoods.modify i fun g => { g with waiting := g.waiting.filter (· != core) }
          | none => p.nogoods })

/-- NOGOOD_TOKEN_WRITE (R148 step 5, R149): the oldest NOGOOD of a partition writes its token once every core has
acknowledged. -/
def execNogoodTokenWrite (core : CoreNo) (s : State) : Host.Outcome State Fault Refusal :=
  .next (match s.parts.findSome? (fun p => match p.2.nogoods with
      | g :: t => if p.2.lhome = core ∧ g.waiting.isEmpty then some (p.1, g, t) else none
      | [] => none) with
    | none => s
    | some (k, g, t) =>
      (s.modPart k fun p => { p with nogoods := t }).writeToken g.core g.key g.tok ⟨statusWord g.code 1 g.frec g.count, 0⟩)

/-- LFLUSH_APPLY (R162): after every earlier NOGOOD, the label home empties the blight table, the heap and the entries;
every core's caches are emptied, and the root context goes on. A context that waits for a label tries its instruction
again, so that nothing of the old handles enters a combine cache (R145). -/
def execLflushApply (core src : CoreNo) (s : State) : Host.Outcome State Fault Refusal :=
  .next (match s.nextOf src core .th with
    | some m => match m.body with
      | .lflush key =>
        if !(s.partAt m.part).nogoods.isEmpty then s
        else
          let s := (s.consume m).modPart m.part fun p => { p with table := [], blight := [], flushes := p.flushes + 1 }
          let again := fun (n : Nat) (x : Nat × Ctx) =>
            if x.2.run.combining ∧ s.partKey (BitVec.ofNat 20 n) x.1 = m.part
            then (x.1, { x.2 with run := Run.run, memo := [] }) else x
          let flush : Nat × CoreSt → Nat × CoreSt := fun c =>
            if s.inPart m.part (BitVec.ofNat 20 c.1) then
              (c.1, ({ c.2 with ctxs := c.2.ctxs.map (again c.1) } : CoreSt).modUnit m.part fun _ => {})
            else c
          let s : State := { s with cores := s.cores.map flush }
          if (s.ctxAt src key).run = .park .lflush then s.retireCtx src key else s
      | _ => s
    | none => s)

end Sys2Proof.Machine
end

