-- ==== Sys2Proof/Machine/Memory.lean ====
section
/-!
DEFINITION. The memory instructions (R176 to R190), major codes 0x38 to 0x42: loads, stores, synchronising accesses and
fences. Their homes' side stands in Machine/Access.lean.
-/
namespace Sys2Proof.Machine

/-- The class of a load's request and reply (R318, R319). -/
def Ctx.loadClass (c : Ctx) (xp : Bool) : Nat := if xp then 1 else let n := (c.vcclass.extractLsb' 0 2).toNat; if n = 3 then 0 else n

/-- A load of the acting context: labels of the address registers, the address, its checks, then the request (R177). -/
def State.loadOp (s : State) (i : Instr) (m : MemOp) (n : Nat) (acq : Option Scope) (xp : Bool) (out : Wr) : State :=
  s.guarded i fun s => s.deciding m.regs fun s =>
    let va := s.me.ea m
    match s.check va n n .load with
    | .error t => t
    | .ok l => s.ask l.home { s.req .load l va n with acq, vcls := s.me.loadClass xp } out

/-- A store of the acting context (R177). -/
def State.storeOp (s : State) (i : Instr) (m : MemOp) (n : Nat) (v : Ctx → LWord) (rel : Option Scope) (post : Bool) : State :=
  s.guarded i fun s => s.deciding m.regs fun s =>
    let va := s.me.ea m
    match s.check va n n .store post with
    | .error t => t
    | .ok l =>
      let x := s.val (v s.me)
      s.doStore l.home { s.req (.store (2 ^ n - 1)) l va n with
        data := leBytes n x.val.toNat, labs := [x.lab], rel, post }

/-- A synchronising access of the acting context (R179): one that is a release waits for its earlier accesses at the
narrowest scope that holds the core and the home. -/
def State.syncOp (s : State) (i : Instr) (m : MemOp) (n : Nat) (act : Act) (v : Ctx → LWord) (release : Bool) (out : Wr) :
    State :=
  s.guarded i fun s => s.deciding m.regs fun s =>
    let va := s.me.ea m
    match s.check va n n .sync with
    | .error t => t
    | .ok l =>
      if release && !s.orderly (narrowest s.core l.home) then s.wait .order
      else
        let x := s.val (v s.me)
        s.ask l.home { s.req act l va n with data := leBytes n x.val.toNat, labs := [x.lab] } out

/-- LD (R177). -/
def execLd (sz : Size) (acq : Option Scope) (xp : Bool) (d : GReg) (m : MemOp) (s : State) :
    Host.Outcome State Fault Refusal :=
  .next (s.loadOp (.ld sz acq xp d m) m (sizeBytes sz) acq xp (.g d (sizeBytes sz) true))
/-- LDZ (R177). -/
def execLdz (sz : Size) (acq : Option Scope) (xp : Bool) (d : GReg) (m : MemOp) (s : State) :
    Host.Outcome State Fault Refusal :=
  .next (s.loadOp (.ldz sz acq xp d m) m (sizeBytes sz) acq xp (.g d (sizeBytes sz) false))
/-- The scope of a release store. -/
def StOrd.rel? : StOrd → Option Scope
  | .rel sc => some sc
  | _ => none
/-- ST (R177). -/
def execSt (sz : Size) (o : StOrd) (a : GReg) (m : MemOp) (s : State) : Host.Outcome State Fault Refusal :=
  .next (s.storeOp (.st sz o a m) m (sizeBytes sz) (fun c => c.g a) (StOrd.rel? o) (o == .post))
/-- LDS (R179): waits until full, returns the word and leaves it empty. -/
def execLds (sz : SizeWD) (d : GReg) (m : MemOp) (s : State) : Host.Outcome State Fault Refusal :=
  .next (s.syncOp (.lds sz d m) m (wdBytes sz) .lds (fun _ => {}) false (.g d (wdBytes sz) true))
/-- STS (R179): waits until empty, writes and leaves full. -/
def execSts (sz : SizeWD) (a : GReg) (m : MemOp) (s : State) : Host.Outcome State Fault Refusal :=
  .next (s.syncOp (.sts sz a m) m (wdBytes sz) .sts (fun c => c.g a) true .none)
/-- LDF (R179): waits until full and leaves full. -/
def execLdf (sz : SizeWD) (d : GReg) (m : MemOp) (s : State) : Host.Outcome State Fault Refusal :=
  .next (s.syncOp (.ldf sz d m) m (wdBytes sz) .ldf (fun _ => {}) false (.g d (wdBytes sz) true))
/-- STF (R179): writes and leaves full. -/
def execStf (sz : SizeWD) (a : GReg) (m : MemOp) (s : State) : Host.Outcome State Fault Refusal :=
  .next (s.syncOp (.stf sz a m) m (wdBytes sz) .stf (fun c => c.g a) true .none)
/-- FECLR (R179): leaves one word empty. -/
def execFeclr (m : MemOp) (s : State) : Host.Outcome State Fault Refusal :=
  .next (s.syncOp (.feclr m) m 4 .feclr (fun _ => {}) false .none)
/-- FLD (R177): .w clears the upper half. -/
def execFld (sz : SizeWD) (acq : Option Scope) (d : FReg) (m : MemOp) (s : State) : Host.Outcome State Fault Refusal :=
  .next (s.loadOp (.fld sz acq d m) m (wdBytes sz) acq false (.f d (wdBytes sz)))
/-- FST (R177). -/
def execFst (sz : SizeWD) (rel : Option Scope) (a : FReg) (m : MemOp) (s : State) : Host.Outcome State Fault Refusal :=
  .next (s.storeOp (.fst sz rel a m) m (wdBytes sz) (fun c => c.f a) rel false)

/-- FENCE (R187): waits as a release does; .sy also orders fetch (R99). -/
def execFence (sc : Scope) (s : State) : Host.Outcome State Fault Refusal :=
  .next (s.guarded (.fence sc) fun s =>
    if !s.orderly sc then s.wait .order
    else
      let s := s.modMe Ctx.dropAhead
      (if sc = .sy then s.modHere fun c => { c with lines := [] } else s).retire)

-- FENCE.x (R189)

/-- What the core's engines have accepted: copy, transform, half 0, half 1. -/
def CoreSt.acceptedNow (c : CoreSt) : List Nat :=
  [c.copyEng.accepted, c.xformEng.accepted, c.matrix.h0.accepted, c.matrix.h1.accepted]
/-- What they have completed. -/
def CoreSt.completedNow (c : CoreSt) : List Nat :=
  [c.copyEng.completed, c.xformEng.completed, c.matrix.h0.completed, c.matrix.h1.completed]
/-- The counts that a path's operations stand in. -/
def Path.counts : Path → List Nat
  | .cp => [0]
  | .xf => [1]
  | .mx => [2, 3]
  | _ => []
/-- Whether the operations that were accepted up to a goal have completed. -/
def CoreSt.reached (c : CoreSt) (goal : List Nat) (is : List Nat) : Bool :=
  is.all fun i => decide (goal.getD i 0 ≤ c.completedNow.getD i 0)

/-- FENCE.x (R189): the thread's accesses if th is named, the operations that a named engine had accepted, and then the
buffers of both paths; naming gr empties the group record cache (R237). -/
def execFenceX (p q : Path) (s : State) : Host.Outcome State Fault Refusal :=
  .next (s.guarded (.fenceX p q) fun s =>
    let goal := if s.me.goal.isEmpty then s.here.acceptedNow else s.me.goal
    if (p == .th || q == .th) && !s.allPerformed then (s.modMe fun c => { c with goal }).wait .order
    else if !s.here.reached goal (Path.counts p ++ Path.counts q) then (s.modMe fun c => { c with goal }).wait .order
    else
      let s := if p == .cp || q == .cp then s.drain s.core .copy else s
      let s := if p == .xf || q == .xf then s.drain s.core .xform else s
      let s := if p == .gr || q == .gr then s.modHere fun c => { c with groups := [] } else s
      (s.modMe Ctx.dropAhead).retire)

-- Events

/-- The next message of a triple, taken out of the network when it is one of the kind an event is about. -/
def State.take (s : State) (src core : CoreNo) (p : Path) (kind : Body → Bool) : Option (Msg × State) :=
  match s.nextOf src core p with
  | some m => if kind m.body then some (m, s.consume m) else none
  | none => none

/-- Whether a message may reach its home in this cycle (R186). -/
def State.inTurn (s : State) (home : CoreNo) (m : Msg) : Bool := s.turnOf home m.src m.path (m.key % 16)
/-- Record the arrival of a message. -/
def State.noteArrival (s : State) (home : CoreNo) (m : Msg) : State := s.arrival home m.src m.path (m.key % 16)

/-- Two requests that meet in a switch of their cluster and combine (R227): AADDs of one size, ordering and scope to one
word of a local store of the cluster, sent in the same cycle. -/
def State.combines (m x : Msg) : Bool :=
  match m.body, x.body with
  | .req a, .req b =>
    x.id != m.id && x.dst == m.dst && x.born == m.born && a.localStore &&
    inScope .cl m.src m.dst && inScope .cl x.src m.dst &&
    (match a.act, b.act with | .atomic .add _, .atomic .add _ => true | _, _ => false) &&
    a.ha == b.ha && a.n == b.n && a.acq == b.acq && a.rel == b.rel
  | _, _ => false
/-- A message among others in ascending order of its source's CINDEX. -/
def placeMsg (m : Msg) : List Msg → List Msg
  | [] => [m]
  | x :: t => if cindex m.src ≤ cindex x.src then m :: x :: t else x :: placeMsg m t
/-- The requests that combine with one, itself among them, the lower input port first (R227). -/
def State.combined (s : State) (m : Msg) : List Msg :=
  let others := s.msgs.filter fun x => State.combines m x && (match s.nextOf x.src x.dst x.path with
    | some y => y.id == x.id
    | none => false)
  (m :: others).foldr placeMsg []

/-- The next access of a triple reaches its home (R186); true when it has been performed. A release that finds the release
window full stays in the network, so that nothing of its triple overtakes it (R332). -/
def State.landAccess (s : State) (core : CoreNo) (m : Msg) (bad : Bool) : State × Bool :=
  match m.body with
  | .req r => match ((s.consume m).noteArrival core m).arrive1 core r bad with
    | .performed t => (t, true)
    | .taken t => (t, false)
    | .waits _ => (s.modCore core CoreSt.evictOne, false)
  | _ => (s, false)
/-- The turn of a triple at a home. Requests that combine are performed as one atomic, one after another, and the park
table is checked again when all of them have been (R180, R227). -/
def State.homeTurn (s : State) (core src : CoreNo) (p : Path) (kind : Act → Bool) (bad : Bool) : State :=
  match s.nextOf src core p with
  | none => s
  | some m => match m.body with
    | .req r =>
      if !kind r.act || !s.inTurn core m then s
      else
        let (t, any) := (s.combined m).foldl (fun p x => let (t, b) := p.1.landAccess core x bad; (t, p.2 || b)) (s, false)
        if any then t.recheck core ((s.coreAt core).parks.length + 1) else t
    | _ => s

/-- HOME_ACCESS (R186): the next access of a triple is performed at its home; `bad` is an uncorrectable word there
(log 25). -/
def execHomeAccess (core src : CoreNo) (p : Path) (bad : Bool) (s : State) : Host.Outcome State Fault Refusal :=
  .next (s.homeTurn core src p (fun a => match a with | .bararr _ | .engarr .. => false | _ => true) bad)

/-- ACCESS_REPLY (R178, R182): a reply reaches the context that waits for it. -/
def execAccessReply (core src : CoreNo) (p : Path) (s : State) : Host.Outcome State Fault Refusal :=
  .next (match s.take src core p (fun b => match b with
      | .resp (.journal _) _ _ | .resp .nobody _ _ => false
      | .resp _ _ _ => true
      | _ => false) with
    | some (m, s) => match m.body with
      | .resp who r va => s.deliver core src who r va
      | _ => s
    | none => s)

/-- JOURNAL_RESPONSE (R183, R184): an acknowledgement or a refusal reaches the journal or the post-refusal counter. -/
def execJournalResponse (core src : CoreNo) (p : Path) (s : State) : Host.Outcome State Fault Refusal :=
  .next (match s.take src core p (fun b => match b with
      | .resp (.journal _) _ _ | .resp .nobody _ _ => true
      | _ => false) with
    | some (m, s) => match m.body with
      | .resp who r va => s.deliver core src who r va
      | _ => s
    | none => s)

/-- FE_TIMEOUT (R181): an entry of a home's park table reaches its limit, counted while the requester's set is current
(R372). The rewrite unit's parks stand under the root context (R304). One whose condition holds waits for room in the
release window alone, which no limit ends (log 77). It comes after every change of its cycle (R191), so no access arrives
later in this one. -/
def execFeTimeout (core src : CoreNo) (x : CtxNo) (s : State) : Host.Outcome State Fault Refusal :=
  .next (match takeFirst (fun e : ParkEntry => e.req.src == src &&
        (match e.req.who with
          | .ctx k => decide (realKey k % 16 = x.val) && keySet k == (s.coreAt src).cur
          | .unit hk => x == 0 && hk / 2 == (s.coreAt src).cur
          | _ => false) && decide (e.since + e.req.limit ≤ s.cycleOf (pkgOf core)) && !s.condMet e.req) (s.coreAt core).parks with
    | some (e, _) =>
      (s.modCore core fun c => { c.unpark (· == e.req) with arrived := some ⟨s.cycle, 2 ^ 12, .th, 16⟩ }).answer core e.req
        { code := 0x07 }
    | none => s)

/-- REFUSAL_RETRY (R182): a request that a full park table refused is sent again after its backoff. -/
def execRefusalRetry (core : CoreNo) (x : CtxNo) (s : State) : Host.Outcome State Fault Refusal :=
  .next (match (s.keysOf core x).findSome? (fun key =>
      let c := s.ctxAt core key
      match c.run, c.sent with
      | .wait (.backoff t), some r =>
        if t ≤ s.cycle ∧ (homeOf r.ha ≠ core ∨ s.turnOf core core r.path x.val) then some (key, r) else none
      | _, _ => none) with
    | some (key, r) =>
      (s.waitCtx core key .reply).asCtx core key fun s => s.dispatch (homeOf r.ha) r
    | none => s)

/-- SCOPE_MISS (R188): the writer's core answers once every access of the writing context older than the recorded
journal position has been performed; the entry is recorded at .sy, or leaves; the acquires that no other entry holds are answered,
and releases that waited for room go on, the parked ones in the order of the table. -/
def execScopeMiss (core src : CoreNo) (s : State) : Host.Outcome State Fault Refusal :=
  .next (
    let done := fun (e : WinEntry) => e.widening && e.core == core &&
      !(s.coreAt core).journal.toList.any fun j => j.st == .outstanding && j.key == e.key && decide (j.num < e.jpos)
    match (s.coreAt src).window.findIdx? done with
    | none => s
    | some i => match (s.coreAt src).window[i]? with
      | none => s
      | some e =>
        let win := fun (w : List WinEntry) =>
          if e.evict then w.eraseIdx i else listSet w i { e with scope := .sy, widening := false, held := [], waiters := [] }
        let s := s.modCore src fun c => { c with window := win c.window }
        let free := fun (h : Req × Resp) => !(s.coreAt src).window.any fun w => w.held.contains h
        let s := (e.held.filter free).foldl (fun s h => s.answer src h.1 h.2) s
        let s := e.waiters.foldl (fun s r => s.arriveOwn src r false) s
        s.recheck src ((s.coreAt src).parks.length + 1))

/-- A context's instruction, or its pair, goes into the retry latch with no effect (R175). -/
def Ctx.intoLatch (c : Ctx) : Ctx :=
  { c.undone with
    pc := c.epcOf, pair := none, latch := c.inst, inst := none, out := .none, sent := none, resp := none, memo := []
    raised := 0, fetched := [] }
/-- The latched form of a context's page fault (R175), which the host is told of or not. A single step ends there (R377). -/
def Ctx.latchFault (c : Ctx) (va : Word) (told : Bool) : Ctx :=
  { c.intoLatch with run := .wait (.fault va), told, stopped := c.stopped || c.dbg.step }
/-- A context that waits for a label as its set goes: its instruction goes into the retry latch, which replays it when the
set is current again (R164). Where its access has been answered, the answer stays with it, so that the replay does not
make the access twice (DEDUCED, log 112). -/
def Ctx.latchLabel (c : Ctx) : Ctx :=
  if !c.run.combining then c
  else if c.resp.isNone then { c.intoLatch with run := .run, replay := true }
  else { c with latch := c.inst, inst := none, memo := [], run := .run, replay := true }

/-- A page fault of a context has the host as its resolver (R175, R352): with ASSIST.PFLT 1, and for the root context. -/
def State.hostPages (s : State) (core : CoreNo) (key : Nat) : Bool :=
  (s.coreAt core).assist.getLsbD 0 || realKey key % 16 == 0
/-- A page fault of a context goes to its resolver (R175, R352): the root context's handler, or the host, also where RVEC
is 0. One of a captured instruction ends the step of a VLOOP (R247, R377). -/
def State.pageFault (s : State) (core : CoreNo) (key : Nat) (va : Word) : State :=
  let n := realKey key % 16
  let s := (s.modCore core (·.count 1)).modCtx core (realKey key) fun c =>
    if c.run = .wait .loop then { c with stopped := true } else c
  if s.hostPages core key then s.postEvent (s.partKey core key) { kind := 1, core := core, ctx := n, addr := va }
  else s.tellRoot core (keySet key) { trap := 0x24, detail := n, addr := va, ten := (s.coreAt core).tenOf (realKey key) }
/-- A context takes a page fault (R175). -/
def State.ctxFault (s : State) (core : CoreNo) (key : Nat) (va : Word) : State :=
  (s.modCtx core key fun c => c.latchFault va (s.hostPages core key)).pageFault core key va

/-- The translation cache: 256 entries, the oldest goes (DESIGN CHOICE, log 20). -/
def CoreSt.addTlb (c : CoreSt) (e : TlbEntry) : CoreSt := { c with tlb := (e :: c.tlb).take 256 }

/-- TRANSLATION_WALK_COMPLETE (R173, R174, R175): the walk's entry is cached and the instruction issues again; a page
fault holds it in the latch; a malformed entry is refused with 0x08. -/
def execTranslationWalkComplete (core : CoreNo) (x : CtxNo) (s : State) : Host.Outcome State Fault Refusal :=
  .next (match (s.keysOf core x).findSome? (fun key => match (s.ctxAt core key).run with
      | .wait (.walk va) => some (key, va)
      | _ => none) with
    | none => s
    | some (key, va) =>
      match s.walk (s.partKey core key) va.toNat with
      | .entry e => (s.modCore core fun c => c.addTlb e).rejoin core key
      | .fault => s.ctxFault core key va
      | .bad code => s.asCtx core key fun s => s.refuseHere code va)

/-- FETCH_LINE_ARRIVAL (R85): a fetched line arrives, its slot area with the flipped bits of a soft error. One that
passes its parity is used; after three refetches that all fail the contexts that need it take the machine check. A line
with an uncorrectable word is refused with code 0x04 (R359). -/
def execFetchLineArrival (core : CoreNo) (line : Word) (flip : BitVec 480) (s : State) :
    Host.Outcome State Fault Refusal :=
  .next (
    let c := s.coreAt core
    let keys := (c.ctxs.filter fun p => p.2.run == .wait (.line line)).map (·.1)
    match keys with
    | [] => s
    | key :: _ =>
      let k := s.partKey core key
      let mine := keys.filter fun x => s.partKey core x == k
      match s.lineSpot core key line with
      | none => mine.foldl (fun s x => s.rejoin core x) s
      | some ha =>
        let b := BitVec.ofNat 512 (s.natAt ha 64) ^^^ (flip ++ 0#32)
        if s.badBytes ha 64 then
          mine.foldl (fun s x => s.asCtx core x fun s =>
            s.refuseHere 0x04 (if lineOf s.me.pc = line then s.me.pc else line)) s
        else if parityOk b then
          mine.foldl (fun s x => s.rejoin core x) (s.modCore core fun c =>
            { c.addLine ⟨k, line, b⟩ with attempts := assocDel c.attempts line.toNat })
        else
          let n := (assoc c.attempts line.toNat).getD 0 + 1
          let s := s.modCore core fun c => (c.count 3)
          if n < 4 then s.modCore core fun c => { c with attempts := assocSet c.attempts line.toNat n }
          else
            let s := s.modCore core fun c => { c with attempts := assocDel c.attempts line.toNat }
            mine.foldl (fun s x => s.checkCtx core x 1 line) s)

end Sys2Proof.Machine
end

