-- ==== Sys2Proof/Machine/Atomic.lean ====
section
/-!
DEFINITION. Atomics, migrant blocks, barriers and group loads (R223 to R241), major codes 0x50 to 0x5E. Their homes'
side stands in Machine/Access.lean; combining in the omega network gives what the same atomics give at the home one
after another, the lower input port first (R227, log 17).
-/
namespace Sys2Proof.Machine

-- Single atomics (R224 to R226)

/-- The acquire scope of an atomic's ordering. -/
def AtOrd.acq? : AtOrd → Option Scope
  | .acq sc => some sc
  | _ => none
/-- The release scope of an atomic's ordering. -/
def AtOrd.rel? : AtOrd → Option Scope
  | .rel sc => some sc
  | _ => none

/-- An atomic of the acting context (R225, R226): `x` is the data operand and `y` gC of ACAS. A release waits for the
context's earlier accesses; a .post form is sent with nobody waiting (R184). -/
def State.atomOp (s : State) (i : Instr) (op : AtOp) (n : Nat) (o : AtOrd) (post : Bool) (b : GReg) (off : BitVec 40)
    (x y : Ctx → LWord) (out : Wr) : State :=
  s.guarded i fun s => s.deciding [b] fun s =>
    let va := s.me.eaOff b off
    match s.check va n n .atomic post with
    | .error t => t
    | .ok l =>
      let r := { s.req (.atomic op (s.val (y s.me))) l va n with
        data := leBytes n (x s.me).val.toNat, labs := [s.lab (x s.me).lab], acq := AtOrd.acq? o, rel := AtOrd.rel? o, post }
      if (match r.rel with | some sc => !s.orderly sc | none => false) then s.wait .order
      else if post then
        if l.home = s.core ∧ !s.inOwnTurn then s.wait .turn else (s.dispatch l.home { r with who := .nobody }).retire
      else s.ask l.home r out

/-- A non-post integer atomic. -/
def State.atomInt (s : State) (i : Instr) (op : AtOp) (sz : SizeWD) (o : AtOrd) (d b : GReg) (off : BitVec 40)
    (a : GReg) : State :=
  s.atomOp i op (wdBytes sz) o false b off (fun c => c.g a) (fun _ => {}) (.g d (wdBytes sz) true)
/-- A .post integer atomic. -/
def State.atomPost (s : State) (i : Instr) (op : AtOp) (sz : SizeWD) (b : GReg) (off : BitVec 40) (a : GReg) : State :=
  s.atomOp i op (wdBytes sz) .plain true b off (fun c => c.g a) (fun _ => {}) .none

/-- AADD (R225). -/
def execAadd (sz : SizeWD) (o : AtOrd) (d b : GReg) (off : BitVec 40) (a : GReg) (s : State) :
    Host.Outcome State Fault Refusal := .next (s.atomInt (.aadd sz o d b off a) .add sz o d b off a)
/-- AAND (R225). -/
def execAand (sz : SizeWD) (o : AtOrd) (d b : GReg) (off : BitVec 40) (a : GReg) (s : State) :
    Host.Outcome State Fault Refusal := .next (s.atomInt (.aand sz o d b off a) .and sz o d b off a)
/-- AOR (R225). -/
def execAor (sz : SizeWD) (o : AtOrd) (d b : GReg) (off : BitVec 40) (a : GReg) (s : State) :
    Host.Outcome State Fault Refusal := .next (s.atomInt (.aor sz o d b off a) .or sz o d b off a)
/-- AXOR (R225). -/
def execAxor (sz : SizeWD) (o : AtOrd) (d b : GReg) (off : BitVec 40) (a : GReg) (s : State) :
    Host.Outcome State Fault Refusal := .next (s.atomInt (.axor sz o d b off a) .xor sz o d b off a)
/-- AMIN (R225): signed. -/
def execAmin (sz : SizeWD) (o : AtOrd) (d b : GReg) (off : BitVec 40) (a : GReg) (s : State) :
    Host.Outcome State Fault Refusal := .next (s.atomInt (.amin sz o d b off a) .min sz o d b off a)
/-- AMAX (R225): signed. -/
def execAmax (sz : SizeWD) (o : AtOrd) (d b : GReg) (off : BitVec 40) (a : GReg) (s : State) :
    Host.Outcome State Fault Refusal := .next (s.atomInt (.amax sz o d b off a) .max sz o d b off a)
/-- AMINU (R225): natural. -/
def execAminu (sz : SizeWD) (o : AtOrd) (d b : GReg) (off : BitVec 40) (a : GReg) (s : State) :
    Host.Outcome State Fault Refusal := .next (s.atomInt (.aminu sz o d b off a) .minu sz o d b off a)
/-- AMAXU (R225): natural. -/
def execAmaxu (sz : SizeWD) (o : AtOrd) (d b : GReg) (off : BitVec 40) (a : GReg) (s : State) :
    Host.Outcome State Fault Refusal := .next (s.atomInt (.amaxu sz o d b off a) .maxu sz o d b off a)
/-- ASWAP (R225). -/
def execAswap (sz : SizeWD) (o : AtOrd) (d b : GReg) (off : BitVec 40) (a : GReg) (s : State) :
    Host.Outcome State Fault Refusal := .next (s.atomInt (.aswap sz o d b off a) .swap sz o d b off a)
/-- AADD.post (R226). -/
def execAaddPost (sz : SizeWD) (b : GReg) (off : BitVec 40) (a : GReg) (s : State) : Host.Outcome State Fault Refusal :=
  .next (s.atomPost (.aaddPost sz b off a) .add sz b off a)
/-- AAND.post (R226). -/
def execAandPost (sz : SizeWD) (b : GReg) (off : BitVec 40) (a : GReg) (s : State) : Host.Outcome State Fault Refusal :=
  .next (s.atomPost (.aandPost sz b off a) .and sz b off a)
/-- AOR.post (R226). -/
def execAorPost (sz : SizeWD) (b : GReg) (off : BitVec 40) (a : GReg) (s : State) : Host.Outcome State Fault Refusal :=
  .next (s.atomPost (.aorPost sz b off a) .or sz b off a)
/-- AXOR.post (R226). -/
def execAxorPost (sz : SizeWD) (b : GReg) (off : BitVec 40) (a : GReg) (s : State) : Host.Outcome State Fault Refusal :=
  .next (s.atomPost (.axorPost sz b off a) .xor sz b off a)
/-- AMIN.post (R226). -/
def execAminPost (sz : SizeWD) (b : GReg) (off : BitVec 40) (a : GReg) (s : State) : Host.Outcome State Fault Refusal :=
  .next (s.atomPost (.aminPost sz b off a) .min sz b off a)
/-- AMAX.post (R226). -/
def execAmaxPost (sz : SizeWD) (b : GReg) (off : BitVec 40) (a : GReg) (s : State) : Host.Outcome State Fault Refusal :=
  .next (s.atomPost (.amaxPost sz b off a) .max sz b off a)
/-- AMINU.post (R226). -/
def execAminuPost (sz : SizeWD) (b : GReg) (off : BitVec 40) (a : GReg) (s : State) :
    Host.Outcome State Fault Refusal := .next (s.atomPost (.aminuPost sz b off a) .minu sz b off a)
/-- AMAXU.post (R226). -/
def execAmaxuPost (sz : SizeWD) (b : GReg) (off : BitVec 40) (a : GReg) (s : State) :
    Host.Outcome State Fault Refusal := .next (s.atomPost (.amaxuPost sz b off a) .maxu sz b off a)
/-- ASWAP.post (R226). -/
def execAswapPost (sz : SizeWD) (b : GReg) (off : BitVec 40) (a : GReg) (s : State) :
    Host.Outcome State Fault Refusal := .next (s.atomPost (.aswapPost sz b off a) .swap sz b off a)
/-- ACAS (R225): refused on a labelled word. -/
def execAcas (sz : SizeWD) (o : AtOrd) (d b : GReg) (off : BitVec 40) (a c : GReg) (s : State) :
    Host.Outcome State Fault Refusal :=
  .next (s.atomOp (.acas sz o d b off a c) .cas (wdBytes sz) o false b off (fun x => x.g a) (fun x => x.g c)
    (.g d (wdBytes sz) true))
/-- AFADD (R225): the old value goes to fD and the sum's flags are committed at retirement. -/
def execAfadd (sz : SizeWD) (o : AtOrd) (d : FReg) (b : GReg) (off : BitVec 40) (a : FReg) (s : State) :
    Host.Outcome State Fault Refusal :=
  .next (s.atomOp (.afadd sz o d b off a) .fadd (wdBytes sz) o false b off (fun x => x.f a) (fun _ => {})
    (.f d (wdBytes sz)))
/-- AFADD.post (R226): reports no flag. -/
def execAfaddPost (sz : SizeWD) (b : GReg) (off : BitVec 40) (a : FReg) (s : State) : Host.Outcome State Fault Refusal :=
  .next (s.atomOp (.afaddPost sz b off a) .fadd (wdBytes sz) .plain true b off (fun x => x.f a) (fun _ => {}) .none)

-- Migrant blocks (R229 to R231)

/-- How a block ends early: a page fault, a trap with its DETAIL and EADDR and, for a refusal, the code and address that
the error log takes, a set that cannot be interned, or a machine check of a code line. -/
inductive Abort where
  | fault (va : Word)
  | trap (n detail : Nat) (ea : Word) (log : Option (Nat × Word))
  | overflow (case : Nat) (ea : Word)
  | check (line : Word)

/-- The end of a block at a refused access (R182, R223): every code is logged with its address. -/
def Abort.refused (code detail : Nat) (ea at_ : Word) : Abort :=
  .trap (trapOf code detail).1 (trapOf code detail).2 ea (some (code, at_))

/-- A block under way: g1 to g15, the stores and atomics it has made, and the state as it sees it, its own stores
among them. -/
structure Blk where
  regs : List LWord
  buf : List (Word × Req)
  view : State

/-- A register of a block. -/
def Blk.g (b : Blk) (r : GReg) : LWord := if r = 0 then {} else b.regs.getD (r.val - 1) {}
/-- Write a register of a block. -/
def Blk.setG (b : Blk) (r : GReg) (v : LWord) : Blk :=
  if r = 0 then b else { b with regs := listSet b.regs (r.val - 1) v }

/-- Where an address of a block lies (R168, R171): the walk is made for the block's partition. -/
def State.blockSpot (s : State) (src : CoreNo) (key : Nat) (k : PartKey) (va : Word) (u : Use5) (pc : Word) :
    Except Abort Loc :=
  match s.window src key va.toNat with
  | some (.error c) => .error (.refused c 0 pc va)
  | some (.ok l) => .ok l
  | none => match s.walk k va.toNat with
    | .fault => .error (.fault va)
    | .bad c => .error (.refused c 0 pc va)
    | .entry e =>
      let ok := match u with | .load => e.r | .fetch => e.x | _ => e.w
      let pa := e.pa + (va.toNat - e.va)
      if !ok then .error (.refused 0x09 0 pc va)
      else if !s.paOk pa then .error (.refused 0x01 0 pc va)
      else if pa / 2 ^ 51 ≠ k.pkg then .error (.refused 0x02 0 pc va)
      else .ok { ha := pa, home := homeOf pa, ls := false, fixed := s.readOnly e.pa e.size,
                 plane := e.plane.map fun p => p + (va.toNat - e.va) / 4 * 2 }

/-- The instructions at an address of a block: one, or a legal pair (R84 to R90). -/
def State.blockCode (s : State) (src : CoreNo) (key : Nat) (k : PartKey) (pc : Word) : Except Abort (List (Word × Instr)) :=
  match s.blockSpot src key k (lineOf pc) .fetch pc with
  | .error e => .error e
  | .ok l =>
    let b := BitVec.ofNat 512 (s.natAt l.ha 64)
    let n := slotNo pc
    let lw := lineWord b
    let ill := fun (p : Word) => Except.error (Abort.trap 0x01 0 p none)
    if s.badBytes l.ha 64 then .error (.refused 0x04 0 pc pc)
    else if !parityOk b then .error (.check (lineOf pc))
    else if bitsAt lw 24 8 ≠ 0 ∨ bitsAt lw 10 6 ≠ 0 ∨ 7 < lineTmpl b then ill pc
    else match slotInstr b n {} with
      | none => ill pc
      | some i =>
        if (firsts (lineTmpl b)).contains n then
          match slotInstr b (n + 1) {} with
          | none => ill (nextPc pc)
          | some j => if pairLegal i j then .ok [(pc, i), (nextPc pc, j)] else .error (.trap 0x02 0 pc none)
        else .ok [(pc, i)]

/-- A block's violation (R230). -/
def violation (pc : Word) : Abort := .refused 0x0D 0 pc pc

/-- A conjunction formed at the block's home. -/
def Blk.conj (b : Blk) (home : CoreNo) (k : PartKey) (pc : Word) (hs : List Handle) : Except Abort (Handle × Blk) :=
  match b.view.homeConjs home k hs with
  | .ok (h, v) => .ok (h, { b with view := v })
  | .error (c, _) => .error (.overflow c pc)

/-- R154 in a block: its registers that decide something. -/
def Blk.deciding (b : Blk) (k : PartKey) (pc : Word) (rs : List GReg) : Option Abort :=
  if rs.any fun r => b.view.resolveAt k (b.g r).lab == hiddenH then some (.trap 0x05 0 pc none)
  else if rs.any fun r => b.view.resolveAt k (b.g r).lab != 0 then some (.trap 0x06 0 pc none)
  else none

/-- An access of a block: its address registers, address and alignment, and the channel it must stay in. An address of a
window, or of a host window, lies outside every channel, whatever else would refuse it. An uncorrectable word is refused
with code 0x04 (R359), a store's already as it enters the buffer. -/
def Blk.reach (b : Blk) (src : CoreNo) (key : Nat) (k : PartKey) (home : CoreNo) (pc : Word) (rs : List GReg) (va : Word)
    (n : Nat) (u : Use5) : Except Abort Loc :=
  match b.deciding k pc rs with
  | some e => .error e
  | none =>
    if (b.view.window src key va.toNat).isSome then .error (violation pc)
    else if va.toNat % n ≠ 0 then .error (.trap 0x08 0 pc none)
    else match b.view.blockSpot src key k va u pc with
      | .error e => .error e
      | .ok l =>
        if l.home ≠ home ∨ l.ha / 2 ^ 48 % 8 = 2 then .error (violation pc)
        else if b.view.badBytes l.ha n then .error (.refused 0x04 0 pc va)
        else .ok l

/-- The address of a memory operand in a block. -/
def Blk.ea (b : Blk) : MemOp → Word
  | .off r o => (b.g r).val + o.signExtend 64
  | .idx r i scl => (b.g r).val + ((b.g i).val <<< scl.val)

/-- The request of a block's access. -/
def blockReq (act : Act) (src : CoreNo) (key : Nat) (k : PartKey) (l : Loc) (va : Word) (n : Nat) (pc : Word)
    (data : List Byte) (labs : List Handle) : Req :=
  { act, src, who := .ctx key, part := k, va, ha := l.ha, plane := l.plane, localStore := l.ls, fixed := l.fixed, n, data
    labs, pc }

/-- A load of a block. -/
def Blk.load (b : Blk) (src : CoreNo) (key : Nat) (k : PartKey) (home : CoreNo) (pc : Word) (d : GReg) (m : MemOp)
    (n : Nat) (signed : Bool) : Except Abort Blk :=
  match b.reach src key k home pc m.regs (b.ea m) n .load with
  | .error e => .error e
  | .ok l =>
    let r := blockReq .load src key k l (b.ea m) n pc [] []
    let x := leNat (b.view.readAt l.ha n)
    match b.conj home k pc (b.view.loadLabs r) with
    | .error e => .error e
    | .ok (h, b) => .ok (b.setG d ⟨if signed then sextNat (8 * n) x else BitVec.ofNat 64 x, h⟩)

/-- A store of a block goes to its buffer. Its own later loads see it, though the home may refuse it at MRET. -/
def Blk.store (b : Blk) (src : CoreNo) (key : Nat) (k : PartKey) (home : CoreNo) (pc : Word) (a : GReg) (m : MemOp)
    (n : Nat) : Except Abort Blk :=
  match b.reach src key k home pc m.regs (b.ea m) n .store with
  | .error e => .error e
  | .ok l =>
    let r := blockReq (.store (2 ^ n - 1)) src key k l (b.ea m) n pc (leBytes n (b.g a).val.toNat)
      [b.view.resolveAt k (b.g a).lab]
    let view := match b.view.storeAt r (2 ^ n - 1) with
      | .ok v => v
      | .error _ => b.view.putBytes l.ha r.data
    .ok { b with buf := b.buf ++ [(pc, r)], view }

/-- An atomic of a block. -/
def Blk.atomic (b : Blk) (src : CoreNo) (key : Nat) (k : PartKey) (home : CoreNo) (pc : Word) (op : AtOp) (n : Nat)
    (d : GReg) (base : GReg) (off : BitVec 40) (a : GReg) (y : LWord) : Except Abort Blk :=
  let va := (b.g base).val + off.signExtend 64
  match b.reach src key k home pc [base] va n .atomic with
  | .error e => .error e
  | .ok l =>
    let y := { y with lab := b.view.resolveAt k y.lab }
    let r := blockReq (.atomic op y) src key k l va n pc (leBytes n (b.g a).val.toNat) [b.view.resolveAt k (b.g a).lab]
    if r.fixed then .error (.refused 0x05 0 pc va)
    else match b.view.atomicAt r op y with
    | .error x => .error (.refused x.code x.detail pc (x.logAt.getD va))
    | .ok (resp, v) =>
      .ok (({ b with buf := b.buf ++ [(pc, r)], view := v } : Blk).setG d
        ⟨sextNat (8 * n) (leNat resp.data), resp.labs.headD 0⟩)

/-- A register that a block may name. -/
def blockReg (r : RegRef) : Bool := match r with | .g n => decide (n.val ≤ 15) | _ => false

/-- One instruction of a block (R230). -/
def Blk.exec (b : Blk) (src : CoreNo) (key : Nat) (k : PartKey) (home : CoreNo) (pc : Word) (i : Instr) : Except Abort Blk :=
  if !((i.use.r ++ i.use.w).all blockReg) then .error (violation pc)
  else match aluOf i with
    | some u =>
      if u.d = 0 then .ok b
      else match b.conj home k pc (u.srcs.map fun r => (b.g r).lab) with
        | .error e => .error e
        | .ok (h, b) => .ok (b.setG u.d ⟨u.f fun r => (b.g r).val, h⟩)
    | none => match i with
      | .nop => .ok b
      | .ld sz none false d m => b.load src key k home pc d m (sizeBytes sz) true
      | .ldz sz none false d m => b.load src key k home pc d m (sizeBytes sz) false
      | .st sz .plain a m => b.store src key k home pc a m (sizeBytes sz)
      | .aadd sz .plain d x off a => b.atomic src key k home pc .add (wdBytes sz) d x off a {}
      | .aand sz .plain d x off a => b.atomic src key k home pc .and (wdBytes sz) d x off a {}
      | .aor sz .plain d x off a => b.atomic src key k home pc .or (wdBytes sz) d x off a {}
      | .axor sz .plain d x off a => b.atomic src key k home pc .xor (wdBytes sz) d x off a {}
      | .amin sz .plain d x off a => b.atomic src key k home pc .min (wdBytes sz) d x off a {}
      | .amax sz .plain d x off a => b.atomic src key k home pc .max (wdBytes sz) d x off a {}
      | .aminu sz .plain d x off a => b.atomic src key k home pc .minu (wdBytes sz) d x off a {}
      | .amaxu sz .plain d x off a => b.atomic src key k home pc .maxu (wdBytes sz) d x off a {}
      | .aswap sz .plain d x off a => b.atomic src key k home pc .swap (wdBytes sz) d x off a {}
      | .acas sz .plain d x off a c => b.atomic src key k home pc .cas (wdBytes sz) d x off a (b.g c)
      | _ => .error (violation pc)

/-- The instructions of one slot or pair of a block; true when MRET was among them. -/
def Blk.run (b : Blk) (src : CoreNo) (key : Nat) (k : PartKey) (home : CoreNo) (n : Nat) :
    List (Word × Instr) → Except Abort (Blk × Nat × Bool)
  | [] => .ok (b, n, false)
  | (pc, i) :: t =>
    if i = .mret then .ok (b, n, true)
    else if 16 ≤ n then .error (violation pc)
    else match b.exec src key k home pc i with
      | .error e => .error e
      | .ok b => b.run src key k home (n + 1) t

/-- A block from an address on, `n` instructions of it done: at MRET, the address after it. -/
def Blk.loop (b : Blk) (src : CoreNo) (key : Nat) (k : PartKey) (home : CoreNo) (pc : Word) (n : Nat) :
    Nat → Except Abort (Blk × Word)
  | 0 => .error (violation pc)
  | f + 1 =>
    match b.view.blockCode src key k pc with
    | .error e => .error e
    | .ok l => match b.run src key k home n l with
      | .error e => .error e
      | .ok (b, _, true) => .ok (b, nextPc pc)
      | .ok (b, n, false) => b.loop src key k home (if l.length = 2 then nextPc (nextPc pc) else nextPc pc) n f

/-- The buffered stores and atomics of a block, performed in order (R230); one that is refused ends them, and what was
performed before it stays (R342). -/
def State.blockCommit (s : State) (k : PartKey) : List (Word × Req) → State × Option Abort
  | [] => (s, none)
  | (pc, r) :: t =>
    match s.perform (homeOf r.ha) r with
    | .ok (_, s) => s.blockCommit k t
    | .error x => (s, some (.refused x.code x.detail pc (x.logAt.getD r.va)))

/-- Run a block at its home (R230): the state after it, and g1 to g15 with the address after MRET or how it ended. Every
refusal is logged (R182, R223). -/
def State.blockRun (s : State) (src : CoreNo) (key : Nat) (k : PartKey) (home : CoreNo) (regs : List LWord) (pc : Word) :
    State × Except Abort (List LWord × Word) :=
  let log := fun (s : State) (e : Abort) => match e with
    | .trap _ _ ea (some (code, at_)) => (s.logError k code at_ src (realKey key % 16) ea).2
    | _ => s
  match ({ regs, buf := [], view := s } : Blk).loop src key k home pc 0 18 with
  | .error e => (log s e, .error e)
  | .ok (b, next) =>
    -- labels that the block interned stay
    let s := (s.setPart k (b.view.partAt k)).modCore home fun c => { c with counters := (b.view.coreAt home).counters }
    match s.blockCommit k b.buf with
    | (s, some e) => (log s e, .error e)
    | (s, none) => (s.recheck home ((s.coreAt home).parks.length + 1), .ok (b.regs, next))

/-- The end of a MIGRATE (R230): g1 to g15 and the pc, or the page fault or trap. A label overflow of the block goes to
the host when ASSIST.LOVF is 1 (R146), and a retry executes the MIGRATE again (DEDUCED, log 102). -/
def State.blockEnd (s : State) (core : CoreNo) (key : Nat) (r : Except Abort (List LWord × Word)) : State :=
  match r with
  | .ok (regs, pc) => s.retiring core key fun c =>
      ({ c with regs := { c.regs with g := Vector.ofFn fun i =>
          if 1 ≤ i.val ∧ i.val ≤ 15 then regs.getD (i.val - 1) {} else c.regs.g[i] } } : Ctx).retireTo pc
  | .error (.fault va) => s.ctxFault core key va
  | .error (.trap n d ea _) => s.trapCtx core key n d ea false false
  | .error (.overflow case ea) =>
    if (s.coreAt core).assist.getLsbD 1 then
      ((s.waitCtx core key (.host 2 case ea)).modCtx core key fun c => { c with out := .none }).postEvent (s.partKey core key)
        { kind := 2, core := core, ctx := key % 16, addr := (s.ctxAt core key).pc }
    else s.trapCtx core key 0x12 case ea false false
  | .error (.check line) => s.checkCtx core key 1 line

/-- How a block's end travels: trap 0x24 stands for a page fault, 0x04 for a machine check and 0x100 for a label
overflow. -/
def Abort.code : Abort → Nat × Nat × Word
  | .fault va => (0x24, 0, va)
  | .trap n d ea _ => (n, d, ea)
  | .overflow c ea => (0x100, c, ea)
  | .check line => (0x04, 0, line)
/-- The same read back. -/
def abortOf (t : Nat × Nat × Word) : Abort :=
  if t.1 = 0x24 then .fault t.2.2 else if t.1 = 0x04 then .check t.2.2
  else if t.1 = 0x100 then .overflow t.2.1 t.2.2 else .trap t.1 t.2.1 t.2.2 none

/-- MIGRATE (R230): the block runs at the home of an HBM or second-tier address. Sending g1 to g15 reads them, so a
pending token among them is waited for. -/
def execMigrate (b : GReg) (off : BitVec 40) (s : State) : Host.Outcome State Fault Refusal :=
  .next (s.guarded (.migrate b off) fun s => s.deciding [b] fun s =>
    let va := s.me.eaOff b off
    match s.me.pend.find? (fun r => decide (1 ≤ r.val) && decide (r.val ≤ 15)) with
    | some r => s.waitFrom (.token r)
    | none => match s.check va 1 1 .probe with
      | .error t => t
      | .ok l =>
        if l.ls ∨ homeOf l.ha ≠ l.home ∨ l.ha / 2 ^ 48 % 8 = 2 then s.refuseHere 0x0D va
        else
          let regs := (List.range 15).map fun i => s.val (s.me.regs.g.toList.getD (i + 1) {})
          let pc := nextPc s.me.pc
          if l.home = s.core ∧ !s.inOwnTurn then s.wait .turn
          else if l.home = s.core then
            let s := s.arrival s.core s.core .th (realKey s.key % 16)
            let (t, r) := s.blockRun s.core s.key s.part l.home regs pc
            t.blockEnd s.core s.key r
          else (s.modMe fun c => { c with out := .migrate, run := .wait .reply }).send s.core l.home .th s.part
            (vcPick 0 false 5 false) 5 s.key (.migrate s.key regs pc va l.ha))

/-- MRET outside a block is illegal (R230). -/
def execMret (s : State) : Host.Outcome State Fault Refusal := .next (s.guarded .mret fun s => s.illegal)

-- Barriers (R232 to R236)

/-- The object of a barrier instruction (R233): labels, address and alignment, then what it does there. -/
def State.barGo (s : State) (rs : List GReg) (b : GReg) (off : BitVec 40) (k : State → Loc → Word → State) : State :=
  s.deciding rs fun s =>
    let va := s.me.eaOff b off
    match s.check va 16 16 .sync with
    | .error t => t
    | .ok l => k s l va
/-- A barrier instruction (R233). -/
def State.barOp (s : State) (i : Instr) (rs : List GReg) (b : GReg) (off : BitVec 40) (k : State → Loc → Word → State) :
    State :=
  s.guarded i fun s => s.barGo rs b off k

/-- BARINIT (R234). -/
def execBarinit (b : GReg) (off : BitVec 40) (a : GReg) (s : State) : Host.Outcome State Fault Refusal :=
  .next (s.barOp (.barinit b off a) [b, a] b off fun s l va =>
    s.ask l.home { s.req .barinit l va 16 with data := leBytes 8 (s.me.g a).val.toNat } .none)

/-- BARINIT.abort (R234): the root context only. -/
def execBarinitAbort (b : GReg) (off : BitVec 40) (s : State) : Host.Outcome State Fault Refusal :=
  .next (s.guarded (.barinitAbort b off) fun s => s.rootOnly fun s =>
    s.barGo [b] b off fun s l va => s.ask l.home (s.req .barabort l va 16) .none)

/-- An arrival joins the one held for its object, or begins to be held (R235). Each keeps its own journal position. -/
def holdArrival (hs : List BarHold) (r : Req) (key now : Nat) : List BarHold :=
  let same := fun (h : BarHold) => h.req.ha == r.ha && h.req.part == r.part
  let join := fun (h : BarHold) => if same h then { h with joins := h.joins ++ [(key, r.jpos)] } else h
  if hs.any same then hs.map join else hs ++ [{ req := r, joins := [(key, r.jpos)], since := now }]

/-- BARARR (R234, R235): a release; an arrival at another core's barrier is held for those of its siblings. -/
def execBararr (b : GReg) (off : BitVec 40) (s : State) : Host.Outcome State Fault Refusal :=
  .next (s.barOp (.bararr b off) [b] b off fun s l va =>
    if !s.orderly (narrowest s.core l.home) then s.wait .order
    else
      let r := s.req (.bararr 1) l va 16
      if l.home = s.core then s.ask l.home r .none
      else
        (s.modMe fun c => { c with out := .none, sent := some r, run := .wait .reply }).modHere fun c =>
          { c with barHolds := holdArrival c.barHolds r s.key (s.cycleOf (pkgOf s.core)) })

/-- BARWAIT (R234): parks until the phase is gP<0>. -/
def execBarwait (b : GReg) (off : BitVec 40) (p : GReg) (s : State) : Host.Outcome State Fault Refusal :=
  .next (s.barOp (.barwait b off p) [b, p] b off fun s l va =>
    s.ask l.home { s.req .barwait l va 16 with data := leBytes 8 (s.me.g p).val.toNat } (.barwait p))

/-- BARTRY (R234): the barrier's state, without waiting. -/
def execBartry (d b : GReg) (off : BitVec 40) (p : GReg) (s : State) : Host.Outcome State Fault Refusal :=
  .next (s.barOp (.bartry d b off p) [b, p] b off fun s l va =>
    s.ask l.home { s.req .bartry l va 16 with data := leBytes 8 (s.me.g p).val.toNat } (.bartry d))

-- Group loads (R237 to R240)

/-- The operation code of a group load (R238). -/
def GldOp.code : GldOp → Nat
  | .add => 0 | .max => 2 | .min => 3 | .maxn => 4 | .and => 5 | .or => 6
/-- The operation code of a float group load (R238). -/
def GldFOp.code : GldFOp → Nat
  | .fadd => 1 | .max => 2 | .min => 3

/-- The combination at a node of the tree (R238); the lower-numbered side stands left. -/
def gldNode (op : Nat) (fl : Bool) (n : Nat) (x y : Nat) : Nat × Flags :=
  if fl then
    let t : Ty := if n = 4 then .f32 else .f64
    match op with
    | 1 => fAdd t .rne false x y
    | 2 => fMinMax t true x y
    | _ => fMinMax t false x y
  else match op with
    | 0 => ((x + y) % 2 ^ (8 * n), 0)
    | 2 => (if toSigned (8 * n) y ≤ toSigned (8 * n) x then x else y, 0)
    | 3 => (if toSigned (8 * n) x ≤ toSigned (8 * n) y then x else y, 0)
    | 4 => (Nat.max x y, 0)
    | 5 => (Nat.land x y, 0)
    | _ => (Nat.lor x y, 0)

/-- One level of the tree: members 2k and 2k + 1 are paired, and a lone one passes unchanged. -/
def gldLevel (op : Nat) (fl : Bool) (n : Nat) : List (Nat × Nat) → List (Nat × Nat) × Flags
  | (i, x) :: (j, y) :: t =>
    if i / 2 = j / 2 then
      let (v, f) := gldNode op fl n x y
      let (r, g) := gldLevel op fl n t
      ((i / 2, v) :: r, f ||| g)
    else
      let (r, g) := gldLevel op fl n ((j, y) :: t)
      ((i / 2, x) :: r, g)
  | [(i, x)] => ([(i / 2, x)], 0)
  | [] => ([], 0)

/-- The tree (R239): four levels of slots, four of clusters, three of dies. -/
def gldTree (op : Nat) (fl : Bool) (n : Nat) : Nat → List (Nat × Nat) → Nat × Flags
  | 0, l => ((l.map (·.2)).headD 0, 0)
  | k + 1, l =>
    let (r, f) := gldLevel op fl n l
    let (v, g) := gldTree op fl n k r
    (v, f ||| g)

/-- The group record of an id (R237): its members' CINDEX numbers, at most 2,048 in 65 pieces of 64 bytes. The record used
longest ago makes room for a new one, and the address of the GLD stands for a malformed record (DESIGN CHOICE,
log 114). -/
def State.groupRecord (s : State) (va : Word) (id : Nat) : Except State (List Nat × State) :=
  let k := s.part
  match takeFirst (fun g : GroupRec => g.part == k && g.id == id) s.here.groups with
  | some (g, rest) => .ok (g.members, s.modHere fun c => { c with groups := g :: rest })
  | none =>
    let bad := Except.error (s.refuseHere 0x0B va)
    match s.vread .load ((s.partAt k).gtab + 8 * id) 2 8 with
    | .error t => .error t
    | .ok e =>
      let p := leNat e
      if p = 0 ∨ p % 8 ≠ 0 then bad
      else match s.vread .load p 2 64 with
        | .error t => .error t
        | .ok h =>
          let x := leNat h
          let n := bitsAt x 32 12
          if x / 2 ^ 44 ≠ 0 ∨ bitsAt x 12 20 ≠ 0 ∨ bitsAt x 0 12 ≠ id ∨ n = 0 ∨ 2048 < n then bad
          else match s.vread .load (p + 64) 65 (2 * n) with
            | .error t => .error t
            | .ok bs =>
              let ms := (List.range n).map fun j => leNat ((bs.drop (2 * j)).take 2)
              if ms.any (fun c => decide (2048 ≤ c)) ∨ !((ms.zip ms.tail).all fun q => decide (q.1 < q.2)) then bad
              else .ok (ms, s.modHere fun c => { c with groups := (⟨k, id, ms⟩ :: c.groups).take 8 })

/-- The flat address of a member's word (R168). -/
def gldAddr (pkg c off : Nat) : Word := BitVec.ofNat 64 (lsAddr (coreOfIndex pkg c) off)

/-- Every member has answered (R239): the trap of the lowest failing one, or the tree's result with the conjunction of
the members' labels. -/
def State.gldFinish (s : State) (off : Nat) : State :=
  match s.me.out with
  | .gld op fl d n got bad 0 =>
    match bad with
    | (c, code) :: _ => s.refusal s.core s.key code 0 (gldAddr (pkgOf s.core) c off)
    | [] =>
      let (v, f) := gldTree op fl n 11 (got.map fun g => (g.1, g.2.1))
      match s.conj (got.flatMap fun g => g.2.2) with
      | .stop s => s
      | .ok h s =>
        let w : Word := if !fl ∧ (op = 0 ∨ op = 2 ∨ op = 3) then sextNat (8 * n) v else BitVec.ofNat 64 v
        ((s.raise f).modMe fun c => if fl then c.setF (Fin.ofNat 32 d) ⟨w, h⟩ else c.setG (Fin.ofNat 64 d) ⟨w, h⟩).retire
  | _ => s

/-- Read every member's word (R239). A member that the issuing core can refuse is logged here. -/
def State.gldSend (s : State) (op : Nat) (fl : Bool) (d n : Nat) (va : Word) (ms : List Nat) : State :=
  let k := s.part
  let off := va.toNat % 2 ^ 20
  let code := fun c => let t := coreOfIndex (pkgOf s.core) c
    if !s.inPart k t then 0x02
    else match s.lsSpot s.core s.key t off with
      | .error e => e
      | .ok _ => 0
  let bad := (ms.map fun c => (c, code c)).filter fun p => p.2 != 0
  let good := ms.filter fun c => code c == 0
  let s := bad.foldl (fun s p =>
    (s.logError k p.2 (gldAddr (pkgOf s.core) p.1 off) s.core (realKey s.key % 16) s.me.pc).2) s
  let s := s.modMe fun c => { c with out := .gld op fl d n [] bad good.length, sent := none, run := .wait .reply }
  let s := good.foldl (fun s c =>
    let t := coreOfIndex (pkgOf s.core) c
    s.dispatch t { act := .gldRead, src := s.core, who := .ctx s.key, part := k, path := .gr,
                   va := gldAddr (pkgOf s.core) c off, ha := lsAddr t off, localStore := true, n, pc := s.me.pc,
                   vcls := s.me.loadClass false }) s
  s.gldFinish off

/-- A group load (R239). An address outside the group window takes the first of R406's codes that it meets. -/
def State.gldOp (s : State) (i : Instr) (op : Nat) (fl : Bool) (d n : Nat) (m : MemOp) : State :=
  s.guarded i fun s => s.deciding m.regs fun s =>
    let va := s.me.ea m
    let a := va.toNat
    match s.me.out with
    | .gld .. => s.gldFinish (a % 2 ^ 20)
    | _ =>
      if a / 2 ^ 48 ≠ 0x1FD then
        match s.window s.core s.key a with
        | some (.error c) => s.refuseHere c va
        | _ => s.refuseHere 0x06 va
      else if a / 2 ^ 32 % 2 ^ 16 ≠ 0 then s.refuseHere 0x01 va
      else if a % n ≠ 0 then s.trap 0x08 0 va
      else match if s.me.dbg.pass then none else s.me.watched va n Use5.load.kinds with
        | some (j, x) => s.watchHit j x
        | none => match s.groupRecord va (a / 2 ^ 20 % 2 ^ 12) with
          | .error t => t
          | .ok (ms, s) =>
            if (ms.any fun c => coreOfIndex (pkgOf s.core) c == s.core) && !s.inOwnTurn then s.wait .turn
            else s.gldSend op fl d n va ms

/-- GLD to a g register (R238, R239). -/
def execGldInt (op : GldOp) (sz : SizeWD) (d : GReg) (m : MemOp) (s : State) : Host.Outcome State Fault Refusal :=
  .next (s.gldOp (.gldInt op sz d m) (GldOp.code op) false d.val (wdBytes sz) m)
/-- GLD to an f register (R238, R239). -/
def execGldFloat (op : GldFOp) (sz : SizeWD) (d : FReg) (m : MemOp) (s : State) : Host.Outcome State Fault Refusal :=
  .next (s.gldOp (.gldFloat op sz d m) (GldFOp.code op) true d.val (wdBytes sz) m)

-- Events

/-- MIGRANT_BLOCK_AT_HOME (R230): the block runs as one indivisible step, in its turn among the accesses that reach the home
(R186), and its end goes back. -/
def execMigrantBlockAtHome (core src : CoreNo) (s : State) : Host.Outcome State Fault Refusal :=
  .next (match s.nextOf src core .th with
    | some m => match m.body with
      | .migrate key regs pc va _ =>
        if !s.inTurn core m then s else
        let s := (s.consume m).noteArrival core m
        let back := fun (s : State) (rs : List LWord) (next : Word) (t : Option (Nat × Nat × Word)) =>
          s.send core src .th m.part (vcPick 0 false 5 true) 5 key (.migrated key rs next t)
        if (s.coreAt core).halted then
          back (s.logError m.part 0x04 va src (realKey key % 16) pc).2 [] 0 (some (0x0A, 0x04, va))
        else match s.blockRun src key m.part core regs pc with
          | (s, .ok (rs, next)) => back s rs next none
          | (s, .error e) => back s [] 0 (some e.code)
      | _ => s
    | none => s)

/-- MIGRANT_RETURN (R230): the issuing context takes the block's end. -/
def execMigrantReturn (core src : CoreNo) (s : State) : Host.Outcome State Fault Refusal :=
  .next (match s.take src core .th (fun b => match b with | .migrated .. => true | _ => false) with
    | some (m, s) => match m.body with
      | .migrated key rs next t => s.blockEnd core key (match t with | none => .ok (rs, next) | some t => .error (abortOf t))
      | _ => s
    | none => s)

/-- GLD_RESULT (R239): the tree's result reaches the loader. -/
def execGldResult (core : CoreNo) (x : CtxNo) (s : State) : Host.Outcome State Fault Refusal :=
  .next (match (s.keysOf core x).find? (fun key =>
      match (s.ctxAt core key).run, (s.ctxAt core key).out, (s.ctxAt core key).inst with
      | .wait .reply, .gld _ _ _ _ _ _ 0, some _ => true
      | _, _, _ => false) with
    | none => s
    | some key => s.asCtx core key fun s =>
      match s.me.inst with
      | some h => match h.i1 with
        | .gldInt _ _ _ m | .gldFloat _ _ _ m => s.gldFinish ((s.me.ea m).toNat % 2 ^ 20)
        | _ => s
      | none => s)

/-- Whether a held arrival can grow no more, or has been held for 16 cycles (R235). A context whose request is parked at
another home is in PARK. -/
def State.barReady (s : State) (core : CoreNo) (h : BarHold) : Bool :=
  decide (h.since + 16 ≤ s.cycleOf (pkgOf core)) ||
  (List.range 16).all fun n =>
    let key := 16 * (s.coreAt core).cur + n
    let out := match (s.ctxAt core key).run with
      | .park _ | .pool | .idle => true
      | .wait .reply => (s.parkedAt core key).isSome
      | _ => false
    (h.joins.map (·.1)).contains key || out

/-- BARRIER_ARRIVAL_SEND (R235): the oldest arrival that is ready leaves with its count. -/
def execBarrierArrivalSend (core : CoreNo) (s : State) : Host.Outcome State Fault Refusal :=
  .next (match takeFirst (s.barReady core) (s.coreAt core).barHolds with
    | some (h, rest) =>
      (s.modCore core fun c => { c with barHolds := rest }).dispatch (homeOf h.req.ha)
        { h.req with act := .bararr h.joins.length, who := .contexts h.joins }
    | none => s)

/-- BARRIER_ARRIVAL_AT_HOME (R234): k arrivals in one step. -/
def execBarrierArrivalAtHome (core src : CoreNo) (s : State) : Host.Outcome State Fault Refusal :=
  .next (s.homeTurn core src .th (fun a => match a with | .bararr _ => true | _ => false) false)

/-- ENGINE_BARRIER_ARRIVAL (R236): a bound engine operation arrives, or reports its fault. -/
def execEngineBarrierArrival (core src : CoreNo) (p : Path) (s : State) : Host.Outcome State Fault Refusal :=
  .next (s.homeTurn core src p (fun a => match a with | .engarr .. => true | _ => false) false)

end Sys2Proof.Machine
end

