-- ==== Sys2Proof/Machine/Deque.lean ====
section
/-!
DEFINITION. The deque and steal units (R104 to R114): pushing and taking items, starting an item in a context, the spill
moves, stealing, and launch items that arrive.
-/
namespace Sys2Proof.Machine

-- Deques (R107 to R110)

/-- The deque that serves a set and tenant of a core: 0 the whole one, 1 and 2 the halves of paired mode (R110). -/
def CoreSt.half (c : CoreSt) (set : Nat) (ten : Bool) : Nat :=
  if (c.paired[set]?).getD false then 1 + ten.toNat else 0
/-- A deque of a core. -/
def CoreSt.dq (c : CoreSt) (h : Nat) : Deque := (assoc c.deques h).getD {}
/-- Change a deque of a core. -/
def CoreSt.modDq (c : CoreSt) (h : Nat) (f : Deque → Deque) : CoreSt := { c with deques := assocSet c.deques h (f (c.dq h)) }
/-- Deque entries of an item: a call-at item has two (R107). -/
def Item.weight (i : Item) : Nat := if i.kind = .callat then 2 else 1
/-- Entries of a list of items. -/
def entries (l : List Item) : Nat := (l.map Item.weight).foldl (· + ·) 0
/-- Hardware entries of a deque. -/
def hwPlaces (h : Nat) : Nat := if h = 0 then 64 else 32
/-- Places of the spill area: none on a core without local store (R109). -/
def spillPlaces (core : CoreNo) (h : Nat) : Nat := if !isCompute core then 0 else if h = 0 then 512 else 256
/-- Entries of a deque that lie in the hardware. -/
def Deque.held (d : Deque) : Nat := entries d.items - d.spilled
/-- How many of the top-most hardware entries a move takes to the spill area: 32, or as many as it has places for. A
call-at item's two entries may part (R109). -/
def Deque.movable (d : Deque) (core : CoreNo) (h : Nat) : Nat := min 32 (spillPlaces core h - d.spilled)
/-- Pushes and takes wait during a move, in either direction (R109). Entries do not come back before the push for which the
move has made room. -/
def Deque.busy (d : Deque) : Bool := d.moving || (d.held == 0 && d.spilled != 0 && !d.opened)
/-- Take out the first item from the top that meets a test: those of its entries that were spilled leave the spill
area. -/
def Deque.takeTop (p : Item → Bool) (d : Deque) : Option (Item × Deque) :=
  (d.items.findIdx? p).bind fun n => (d.items[n]?).map fun i =>
    (i, { d with items := d.items.eraseIdx n, spilled := d.spilled - min i.weight (d.spilled - entries (d.items.take n)) })
/-- Of the first `n` entries of a list of items, those that belong to items that meet a test. -/
def keptEntries (p : Item → Bool) : Nat → List Item → Nat
  | _, [] => 0
  | n, i :: t => (if p i then min i.weight n else 0) + keptEntries p (n - i.weight) t
/-- Keep the items that meet a test. -/
def Deque.keep (p : Item → Bool) (d : Deque) : Deque :=
  { d with items := d.items.filter p, spilled := keptEntries p d.spilled d.items }
/-- Take out the first item from the bottom that meets a test. -/
def Deque.takeBottom (p : Item → Bool) (d : Deque) : Option (Item × Deque) :=
  (d.items.reverse.findIdx? p).bind fun m =>
    let n := d.items.length - 1 - m
    (d.items[n]?).map fun i =>
      (i, { d with items := d.items.eraseIdx n, spilled := d.spilled - min i.weight (d.spilled - entries (d.items.take n)) })

/-- An item arrives in a core's deque: contexts in YIELD go on (R126). -/
def CoreSt.wakeYields (c : CoreSt) : CoreSt :=
  { c with ctxs := c.ctxs.map fun p => match p.2.run with
      | .park (.yield _) => (p.1, { p.2 with run := .run })
      | _ => p }

/-- What a push comes to: it is done, it waits for a move, or the deque and its spill area are full. -/
inductive Pushed where
  | ok (s : State)
  | move (s : State)
  | full

/-- Push an item at the bottom of a core's deque (R109, R110). DW0 of an item has 57 bits of PC (R107). -/
def State.pushItem (s : State) (core : CoreNo) (it : Item) : Pushed :=
  let c := s.coreAt core
  let h := c.half it.set it.ten
  let d := c.dq h
  if d.busy then .move s
  else if d.held + it.weight ≤ hwPlaces h then
    .ok (s.modCore core fun c => (c.modDq h fun d =>
      { d with items := d.items ++ [{ it with pc := it.pc &&& 0x1FFFFFFFFFFFFFF#64 }], opened := false }).wakeYields)
  else if d.movable core h = 0 then .full
  else .move (s.modCore core fun c => c.modDq h fun d => { d with moving := true })

/-- Whether the accesses that a push's release covers have been performed (R122, R187), at its scope or, widened, all. -/
def State.relDone (s : State) (r : RelPos) (all : Bool) : Bool :=
  !((s.coreAt r.core).journal.toList.any fun j =>
    j.st == .outstanding && j.key == realKey r.key && decide (j.num < r.jpos) && (all || inScope r.scope r.core j.home))
/-- Whether an item may be handed over. -/
def State.itemReady (s : State) (it : Item) : Bool := match it.rel with | some r => s.relDone r false | none => true

/-- The scope of a push: that of the core's DOMAIN (R122); a core that does not steal has DOMAIN 0 (R111). -/
def State.pushScope (s : State) (core : CoreNo) : Scope :=
  if !isCompute core then .co else match (s.coreAt core).steal.domain.toNat with | 0 => .co | 1 => .cl | 2 => .di | _ => .pk
/-- The release of a push by the acting context. -/
def State.pushRel (s : State) : RelPos := ⟨s.core, s.key, s.here.jcount, s.pushScope s.core⟩

/-- Finish an instruction that pushes an item: the deque-overflow trap (R110), a wait for the move (R109), or go on. -/
def State.pushThen (s : State) (it : Item) (k : State → State) : State :=
  match s.pushItem s.core it with
  | .ok s => k s
  | .move s => s.wait .move
  | .full => s.trapOpen 0x0D 0

-- Starting items (R106)

/-- An item as what runs in a context. -/
def Item.current (i : Item) : CurItem :=
  { kind := i.kind, join := i.join, pusher := (match i.rel with | some r => r.core | none => 0), victims := i.victims,
    caller := i.caller, callerKey := i.callerKey, tok := i.tok, ten := i.ten }

/-- The own local store address at an offset (R168). -/
def ownLs (off : Nat) : Word := BitVec.ofNat 64 (0x1FE * 2 ^ 48 + off)

/-- The registers that an item writes (R106): for a launch in the root context, every other register is zero. -/
def Item.load (i : Item) (root : Bool) (r : Regs) : Regs :=
  let base : Regs := if i.kind = .launch ∧ root then { g := (Vector.replicate 64 {}).set 63 ⟨ownLs 0xDBFF0, 0⟩ } else r
  let put := fun (r : Regs) (n : Fin 64) (v : LWord) => { r with g := r.g.set n v }
  match i.kind with
  | .launch => put (put base 1 i.a) 2 i.b
  | .callat => put (put (put (put base 1 i.a) 2 i.b) 3 i.c) 4 i.d
  | .spawn => put (put (put base 1 ⟨i.join, 0⟩) 2 i.a) 3 i.b
  | .pair => base

/-- Start an item in a context (R106): its PC is checked at the first instruction, a bad target leaving zero in EADDR;
the start is an acquire (R122). -/
def State.startItem (s : State) (core : CoreNo) (key : Nat) (i : Item) : State :=
  s.modCtx core key fun c =>
    ({ c with regs := i.load (key % 16 == 0) c.regs, pc := i.pc, enter := some 0, run := .run, item := some i.current,
              inst := none, pair := none, out := .none, sent := none } : Ctx).dropAhead

-- Takes (R108)

/-- Items that a context of a set may take: of its set, ready, and no active pair. -/
def State.takeable (s : State) (set : Nat) (i : Item) : Bool := i.kind != .pair && i.set == set && s.itemReady i

/-- The item that a take gets from the whole deque, spill area included, with what is left (R108). -/
def State.chooseItem (s : State) (set : Nat) (d : Deque) : Option (Item × Deque) :=
  let ok := s.takeable set
  let rule := [ItemKind.launch, .callat, .spawn].findSome? fun k => d.takeBottom fun i => i.kind == k && ok i
  if (d.takes + 1) % 64 = 0 then match d.takeTop fun i => i.kind == .spawn && ok i with
    | some x => some x
    | none => rule
  else rule

/-- Contexts in POOL of the core's current set, lowest number first; the root and tap contexts are never there. -/
def CoreSt.poolKeys (c : CoreSt) : List Nat :=
  ((List.range 14).map fun n => 16 * c.cur + n + 1).filter fun k => (c.ctxAt k).run == .pool

/-- The first context in POOL that can take an item takes it. -/
def State.take1 (s : State) (core : CoreNo) : Option State :=
  let c := s.coreAt core
  if !c.live then none
  else c.poolKeys.findSome? fun key =>
    let h := c.half c.cur (c.tenOf key)
    let d := c.dq h
    if d.busy then none
    else (s.chooseItem c.cur d).map fun p =>
      (s.modCore core fun c => c.modDq h fun d => { p.2 with takes := d.takes + 1 }).startItem core key p.1

-- Stealing (R111 to R113)

/-- The scope of a DOMAIN (R111). -/
def domainScope (d : BitVec 2) : Scope := match d.toNat with | 0 => .co | 1 => .cl | 2 => .di | _ => .pk
/-- The victims of a round in order (R112): cores of the domain and the partition, after the place it starts at. -/
def State.victims (s : State) (core : CoreNo) (set : Nat) : List CoreNo :=
  let c := s.coreAt core
  match (c.nodes[set]?).getD none with
  | none => []
  | some (n, _) =>
    let k : PartKey := { pkg := pkgOf core, node := n, set }
    let all := (coresOf (pkgOf core) n).filter fun v =>
      v != core && inScope (domainScope c.steal.domain) core v && s.inPart k v
    let from_ := c.steal.start.getD (cindex core)
    (all.filter fun v => decide (from_ < cindex v)) ++ all.filter fun v => decide (cindex v ≤ from_)

/-- A context in POOL that finds nothing to take, or one parked in PPOP while basket and hold are empty (R112, R303),
with its tenant. -/
def State.wanting (s : State) (core : CoreNo) : Option Bool :=
  let c := s.coreAt core
  let basket := fun (ten : Bool) => (c.dq (c.half c.cur ten)).items.any (fun i => i.kind == .pair && i.set == c.cur)
  (List.range 16).findSome? fun n =>
    let key := 16 * c.cur + n
    let ten := c.tenOf key
    let d := c.dq (c.half c.cur ten)
    match (c.ctxAt key).run with
    | .pool => if !d.busy && (s.chooseItem c.cur d).isNone then some ten else none
    | .park (.ppop _) =>
      if !basket ten && !c.rewrite.hold.any (fun p => p.hk == 2 * c.cur + ten.toNat) then some ten else none
    | _ => none

/-- A round has ended with no item (R112): the backoff begins. -/
def Steal.emptyRound (t : Steal) (now : Nat) : Steal :=
  { t with busy := false, start := none, asked := 0, empty := t.begun
           until_ := if t.backoff = 0 then 0 else now + 16 * t.backoff.toNat }

/-- The steal unit may send a request (R111, R112). -/
def State.maySteal (s : State) (core : CoreNo) : Bool :=
  let t := (s.coreAt core).steal
  isCompute core && (s.coreAt core).live && t.domain != 0 && !t.busy && t.until_ == 0 && (s.wanting core).isSome

/-- An item that a steal may get (R113): a spawn or active-pair item, once stolen or not (log 35). -/
def State.stealable (s : State) (set : Nat) (i : Item) : Bool :=
  (i.kind == .spawn || i.kind == .pair) && i.set == set && s.itemReady i

/-- Take the stolen item, the top-most, out of a deque; it may lie in the spill area (R113). -/
def State.stealFrom (s : State) (set : Nat) (d : Deque) : Option (Item × Deque) := d.takeTop (s.stealable set)

/-- Room in the routine hold: 4 entries, or 2 for each tenant of a paired leaf (R296, R303). -/
def CoreSt.holdRoom (c : CoreSt) (hk : Nat) : Bool :=
  if (c.paired[hk / 2]?).getD false then decide ((c.rewrite.hold.filter fun p => p.hk == hk).length < 2)
  else decide (c.rewrite.hold.length < 4)

/-- A local take, or the rewrite unit, claims the item in this cycle (R113, R303). -/
def State.claimed (s : State) (core : CoreNo) (set : Nat) (h : Nat) (i : Item) : Bool :=
  let c := s.coreAt core
  let d := c.dq h
  if set ≠ c.cur ∨ !c.live ∨ d.busy then false
  else if i.kind = .pair then
    (c.rwRun set).isNone && c.holdRoom (2 * set + i.ten.toNat) &&
      (d.takeBottom fun x => x.kind == .pair && x.set == set && s.itemReady x).map (·.1) == some i
  else c.poolKeys.any (fun key => c.half c.cur (c.tenOf key) == h) && (s.chooseItem set d).map (·.1) == some i &&
    (d.items.filter (s.takeable set)).length == 1

-- Launch items (R104, R105, R389)

/-- The resident set of a core that serves a function's partition, the current one first. -/
def State.fnSet (s : State) (core : CoreNo) (f : VFn) : Option Nat :=
  let c := s.coreAt core
  (c.cur :: [0, 1, 2, 3]).find? fun n => match (c.nodes[n]?).getD none with
    | some (x, _) => x == f.node
    | none => false

/-- What becomes of a launch item at its core: delivered, which ends its siblings' YIELD (R126), waiting for a spill move, or
refused (R104, R109, R110). -/
def State.landItem (s : State) (core : CoreNo) (it : Item) : Pushed :=
  let c := s.coreAt core
  if it.kind = .launch ∧ it.set = c.cur ∧ c.live ∧ (c.ctxAt (16 * c.cur)).run = .idle then
    .ok ((s.modCore core (·.wakeYields)).startItem core (16 * c.cur) it)
  else s.pushItem core it

-- Events

/-- YIELD_WAKE (R126): 64 cycles have passed. -/
def execYieldWake (core : CoreNo) (x : CtxNo) (s : State) : Host.Outcome State Fault Refusal :=
  .next (match (s.keysOf core x).find? (fun key => match (s.ctxAt core key).run with
      | .park (.yield t) => decide (t + 64 ≤ s.cycleOf (pkgOf core))
      | _ => false) with
    | some key => s.rejoin core key
    | none => s)

/-- DEQUE_SPILL_MOVE (R109): the top-most entries go to the spill area, or the bottom-most spilled ones come back. -/
def execDequeSpillMove (core : CoreNo) (s : State) : Host.Outcome State Fault Refusal :=
  .next (match [0, 1, 2].find? (fun h => ((s.coreAt core).dq h).busy) with
    | none => s
    | some h => s.modCore core fun c => c.modDq h fun d =>
      if d.moving then { d with spilled := d.spilled + d.movable core h, moving := false, opened := true }
      else { d with spilled := d.spilled - 32 })

/-- STEAL_REQUEST (R112): the next victim is asked. A round without victims ends at once. -/
def execStealRequest (core : CoreNo) (s : State) : Host.Outcome State Fault Refusal :=
  .next (if !s.maySteal core then s
    else match s.wanting core with
    | none => s
    | some ten =>
      let c := s.coreAt core
      let mod := fun (s : State) (f : Steal → Steal) => s.modCore core fun c => { c with steal := f c.steal }
      let s := if c.steal.asked = 0 then mod s fun t => { t with begun := t.begun + 1 } else s
      match (s.victims core c.cur)[c.steal.asked]? with
      | none => mod s fun t => t.emptyRound s.cycle
      | some v =>
        (mod s fun t => { t with busy := true, asked := t.asked + 1 }).send core v .th
          { pkg := pkgOf core, node := (((c.nodes[c.cur]?).getD none).map (·.1)).getD 0, ten, set := c.cur } 0 1
          (16 * c.cur) (.stealReq ten c.cur))

/-- STEAL_BACKOFF (R111): the backoff after an empty round is over. -/
def execStealBackoff (core : CoreNo) (s : State) : Host.Outcome State Fault Refusal :=
  .next (
    let t := (s.coreAt core).steal
    if t.until_ ≠ 0 ∧ t.until_ ≤ s.cycle then s.modCore core fun c => { c with steal := { c.steal with until_ := 0 } }
    else s)

/-- STEAL_SERVE (R113, R122): the victim answers; an item that leaves its push's scope waits until every access that the
push follows has been performed, and travels as a release at .pk. -/
def execStealServe (core src : CoreNo) (s : State) : Host.Outcome State Fault Refusal :=
  .next (match s.nextOf src core .th with
    | none => s
    | some m => match m.body with
      | .stealReq ten set =>
        let c := s.coreAt core
        let h := c.half set ten
        let back := fun (s : State) (i : Option Item) =>
          (s.consume m).send core src .th m.part 1 (if i.isSome then 3 else 1) m.key (.stealResp i)
        match if c.live then s.stealFrom set (c.dq h) else none with
        | none => back s none
        | some (i, d) =>
          if s.claimed core set h i then back s none
          else
            let outside := match i.rel with | some r => !inScope r.scope r.core src | none => false
            if outside && !(match i.rel with | some r => s.relDone r true | none => true) then s
            else
              let s := if outside then s.modCore core fun c => c.count 4 else s
              let d := if i.kind = .spawn then { d with lent := d.lent + 1 } else d
              let rel := if outside then i.rel.map fun r => { r with scope := Scope.pk } else i.rel
              back (s.modCore core fun c => c.modDq h fun _ => d)
                (some { i with rel := rel, victims := if i.kind = .spawn then core :: i.victims else [] })
      | _ => s)

/-- STEAL_REPLY (R112, R113): a stolen item goes to a context in POOL, or to the deque; an empty answer to the round's
last victim ends it. -/
def execStealReply (core src : CoreNo) (s : State) : Host.Outcome State Fault Refusal :=
  .next (match s.nextOf src core .th with
    | none => s
    | some m => match m.body with
      | .stealResp none =>
        let c := s.coreAt core
        let last := decide ((s.victims core m.part.set).length ≤ c.steal.asked)
        let next := fun (t : Steal) => if last then t.emptyRound s.cycle else { t with busy := false }
        (s.consume m).modCore core fun c => { c with steal := next c.steal }
      | .stealResp (some i) =>
        let c := s.coreAt core
        let win := fun (s : State) => (s.consume m).modCore core fun c =>
          { c with steal := { c.steal with busy := false, start := some (cindex src), asked := 0 } }
        let h := c.half i.set i.ten
        match if i.kind = .spawn ∧ i.set = c.cur ∧ c.live then
            c.poolKeys.find? (fun key => c.half c.cur (c.tenOf key) == h) else none with
        | some key => (win s).startItem core key i
        | none => match s.pushItem core i with
          | .ok s => win s
          | .move s => s
          | .full => s
      | _ => s)

/-- COMPLETION_NOTICE (R113): the victim counts one lent item less. -/
def execCompletionNotice (core src : CoreNo) (s : State) : Host.Outcome State Fault Refusal :=
  .next (match s.take src core .th (fun b => match b with | .notice _ => true | _ => false) with
    | some (m, s) => match m.body with
      | .notice set => s.modCore core fun c => c.modDq (c.half set m.part.ten) fun d => { d with lent := d.lent - 1 }
      | _ => s
    | none => s)

end Sys2Proof.Machine
end

