-- ==== Sys2Proof/Machine/Control.lean ====
section
/-!
DEFINITION. The control and work instructions (R115 to R127, R379), major codes 0x01 to 0x0D and IDLE, and the park-limit
event. A transfer enters its destination under the check of R87, which Machine/Fetch.lean makes.
-/
namespace Sys2Proof.Machine

-- Transfers (R116 to R119)

/-- Transfer by a displacement; one that leaves the address space raises the bad-target trap (R116). It has no
destination for EPC to name: EPC and EADDR both hold the transferring instruction's own address (DESIGN CHOICE,
log 95). -/
def State.goDisp (s : State) (disp : BitVec 40) (k : State → State) : State :=
  match dispTarget s.me.pc disp with
  | some t => (k s).transfer t
  | none => s.trap 0x03 0 s.me.pc

/-- NOP (R119). -/
def execNop (s : State) : Host.Outcome State Fault Refusal := .next (s.guarded .nop fun s => s.retire)
/-- BR (R117). -/
def execBr (disp : BitVec 40) (s : State) : Host.Outcome State Fault Refusal :=
  .next (s.guarded (.br disp) fun s => s.goDisp disp id)
/-- BR.cond (R117, R118). -/
def execBrCond (c : Cond) (a b : GReg) (disp : BitVec 40) (s : State) : Host.Outcome State Fault Refusal :=
  .next (s.guarded (.brCond c a b disp) fun s => s.deciding [a, b] fun s =>
    if condHolds c false (s.me.g a).val (s.me.g b).val then s.goDisp disp id else s.retire)
/-- Write the return address (R117). -/
def State.linkReg (s : State) : State := s.modMe fun c => c.setG 62 ⟨nextPc c.pc, 0⟩
/-- CALL (R117). -/
def execCall (disp : BitVec 40) (s : State) : Host.Outcome State Fault Refusal :=
  .next (s.guarded (.call disp) fun s => s.goDisp disp State.linkReg)
/-- CALLR (R117): gA is read before g62 is written. -/
def execCallr (a : GReg) (s : State) : Host.Outcome State Fault Refusal :=
  .next (s.guarded (.callr a) fun s => s.deciding [a] fun s => s.linkReg.transfer (s.me.g a).val)
/-- JR (R117). -/
def execJr (a : GReg) (s : State) : Host.Outcome State Fault Refusal :=
  .next (s.guarded (.jr a) fun s => s.deciding [a] fun s => s.transfer (s.me.g a).val)
/-- LOOP (R117): counts down and goes on while the counter is not zero. -/
def execLoop (c : GReg) (disp : BitVec 40) (s : State) : Host.Outcome State Fault Refusal :=
  .next (s.guarded (.loop c disp) fun s => s.deciding [c] fun s =>
    let dec := fun (s : State) => s.modMe fun x => x.setG c ⟨(x.g c).val - 1, (x.g c).lab⟩
    if ((dec s).me.g c).val ≠ 0 then s.goDisp disp dec else (dec s).retire)

-- Join words (R122 to R125)

/-- A join word's place (R122, R123, R406): a local store address of the reach, aligned to 4 bytes. -/
def State.joinSpot (s : State) (va : Word) (watch : List Nat) : Except State Loc :=
  match s.window s.core s.key va.toNat with
  | some (.error c) => .error (s.refuseHere c va)
  | none => .error (s.refuseHere 0x06 va)
  | some (.ok l) =>
    if va.toNat % 4 ≠ 0 then .error (s.trap 0x07 0 va)
    else match if s.me.dbg.pass then none else s.me.watched va 4 watch with
      | some (i, x) => .error (s.watchHit i x)
      | none => .ok l

/-- Push a spawn item (R122): gJ is checked before the target. -/
def State.spawnOp (s : State) (pc : Option Word) (j a b : GReg) : State :=
  let c := s.me
  let join := (c.g j).val
  match if join = 0 then none else match s.joinSpot join [] with | .error t => some t | .ok _ => none, pc with
  | some t, _ => t
  | none, none => s.trap 0x03 0 s.me.pc
  | none, some pc =>
    let it : Item := { kind := .spawn, pc, join, a := s.val (c.g a), b := s.val (c.g b), set := keySet s.key,
                       ten := s.here.tenOf (realKey s.key), rel := some s.pushRel }
    s.pushThen it fun s => s.retire

/-- SPAWN with a displacement (R122). -/
def execSpawnMark (j a b : GReg) (disp : BitVec 40) (s : State) : Host.Outcome State Fault Refusal :=
  .next (s.guarded (.spawnMark j a b disp) fun s => s.deciding [j] fun s =>
    s.spawnOp (dispTarget s.me.pc disp) j a b)
/-- SPAWN with a register (R122). -/
def execSpawnReg (p j a b : GReg) (s : State) : Host.Outcome State Fault Refusal :=
  .next (s.guarded (.spawnReg p j a b) fun s => s.deciding [j, p] fun s => s.spawnOp (some (s.me.g p).val) j a b)

/-- JINIT (R123). -/
def execJinit (b : GReg) (n : BitVec 40) (s : State) : Host.Outcome State Fault Refusal :=
  .next (s.guarded (.jinit b n) fun s => s.deciding [b] fun s =>
    let va := (s.me.g b).val
    match s.joinSpot va Use5.store.kinds with
    | .error t => t
    | .ok l => s.ask l.home { s.req .jinit l va 4 with data := leBytes 4 n.toNat } .none)
/-- JOIN (R124): parks until the word is 0. -/
def execJoin (b : GReg) (off : BitVec 40) (s : State) : Host.Outcome State Fault Refusal :=
  .next (s.guarded (.join b off) fun s => s.deciding [b] fun s =>
    let va := s.me.eaOff b off
    match s.joinSpot va Use5.load.kinds with
    | .error t => t
    | .ok l => s.ask l.home (s.req .join l va 4) .none)

/-- The end of an item (R125): the notice to each core it was stolen from (log 35), then message service, the pool, or
IDLE. -/
def State.endItem (s : State) : State :=
  let c := s.me
  let key := s.key
  let s := match c.item with
    | some i => i.victims.foldl (fun (s : State) v => s.send s.core v .th s.part 0 1 key (.notice (keySet key))) s
    | none => s
  let idle : Run := if realKey key % 16 ≠ 15 ∧ c.pooled then .pool else .idle
  s.retiring s.core key fun c => { c.retire with run := idle, item := none }

/-- DONE (R125, R331). Every store of the item is performed before the decrement, so that it is visible after the JOIN
(R53, R401), and before a pooled or a stolen item ends, so that a REAP that follows sees it (R121). -/
def execDone (s : State) : Host.Outcome State Fault Refusal :=
  .next (s.guarded .done fun s =>
    let c := s.me
    if realKey s.key % 16 = 0 then s.illegal
    else if !c.pend.isEmpty then s.waitFrom .tokens
    else
      let finish := fun (s : State) =>
        if (c.pooled || (match c.item with | some i => !i.victims.isEmpty | none => false)) && !s.allPerformed
        then s.wait .order else s.endItem
      match c.item with
      | some i =>
        if i.kind ≠ .spawn ∨ i.join = 0 ∨ c.out = .doneOk then finish s
        else
          -- an own-window address names the local store of the core that pushed the item
          let va := if i.join.toNat / 2 ^ 48 = 0x1FE then BitVec.ofNat 64 (lsAddr i.pusher (i.join.toNat % 2 ^ 48)) else i.join
          match s.joinSpot va Use5.store.kinds with
          | .error t => t
          | .ok l =>
            if !s.allPerformed then s.wait .order
            else match s.ask l.home (s.req .dec l i.join 4) .done with
              | t => if t.me.out = .doneOk ∧ t.me.run = .run then t.endItem else t
      | none => finish s)

-- START, REAP, YIELD and IDLE (R52, R120, R121, R126, R379)

/-- The contexts of a mask (R52); none where a bit is set that must be zero. -/
def maskOf (x : Word) : Option (List Nat) :=
  if x.toNat / 2 ^ 16 ≠ 0 ∨ x.getLsbD 0 ∨ x.getLsbD 15 then none
  else some ((List.range 16).filter fun n => x.getLsbD n)

/-- A context as START leaves it (R120). A token that is pending in the root context is copied as the value it holds, and is
not pending in the started context (DESIGN CHOICE, log 97). -/
def Ctx.started (c root : Ctx) (n : Nat) (pc : Word) (pool : Bool) : Ctx :=
  { c with
    regs := { g := root.regs.g.set 63 ⟨root.regs.g[63].val - BitVec.ofNat 64 (0x1000 * n), root.regs.g[63].lab⟩ }
    pc := pc
    run := if pool then .pool else .run
    pooled := pool
    item := none
    pend := []
    callTok := []
    fflags := 0
    fenable := 0
    fsup := root.fsup
    vcclass := 0
    parklim := root.parklim
    tvec := root.tvec
    eheld := false
    watch := c.watch.map fun w => w &&& ~~~(1#64 <<< 63)
    inst := none
    latch := none
    replay := false
    pair := none
    enter := none
    out := .none
    sent := none
    raised := 0 }

/-- START and START.pool. -/
def State.startOp (s : State) (a : GReg) (pool : Bool) : State :=
  s.rootOnly fun s =>
    let root := s.me
    let base := s.key
    match maskOf (root.g a).val with
    | none => s.illegal
    | some ns =>
      if s.lab (root.g a).lab ≠ 0 ∨ ns.any (fun n => (s.ctxAt s.core (base + n)).run != .idle) then s.illegal
      else (ns.foldl (fun s n => s.modCtx s.core (base + n) fun c => c.started root n (nextPc root.pc) pool) s).retire

/-- START (R120). -/
def execStart (a : GReg) (s : State) : Host.Outcome State Fault Refusal :=
  .next (s.guarded (.start a) fun s => s.startOp a false)
/-- START.pool (R120). -/
def execStartPool (a : GReg) (s : State) : Host.Outcome State Fault Refusal :=
  .next (s.guarded (.startPool a) fun s => s.startOp a true)

/-- REAP's condition (R52): the contexts are in POOL, the core's deque is empty, and no spawn item taken from it runs
elsewhere. -/
def State.reapReady (s : State) (core : CoreNo) (key : Nat) (mask : BitVec 16) : Bool :=
  let c := s.coreAt core
  ((List.range 16).all fun n => !mask.getLsbD n || (c.ctxAt (16 * keySet key + n)).run == .pool) &&
  c.deques.all fun p => p.2.lent == 0 && p.2.items.isEmpty

/-- REAP (R52, R121). -/
def execReap (a : GReg) (s : State) : Host.Outcome State Fault Refusal :=
  .next (s.guarded (.reap a) fun s => s.rootOnly fun s => s.deciding [a] fun s =>
    match maskOf (s.me.g a).val with
    | none => s.illegal
    | some ns =>
      if ns.any fun n => !(s.ctxAt s.core (s.key + n)).pooled then s.illegal
      else
        let mask := (s.me.g a).val.setWidth 16
        if s.reapReady s.core s.key mask then
          ((ns.foldl (fun s n => s.modCtx s.core (s.key + n) fun c => { c with run := .idle, pooled := false }) s).modMe
            Ctx.dropAhead).retire
        else if s.me.run = .park (.reap mask) then s
        else s.parkCtx s.core s.key (.reap mask))

/-- YIELD (R126). -/
def execYield (s : State) : Host.Outcome State Fault Refusal :=
  .next (s.guarded .yield fun s =>
    if realKey s.key % 16 = 15 then s.illegal
    else s.retire.modMe fun c => { c with run := .park (.yield (s.cycleOf (pkgOf s.core))) })

/-- A launch item that waits for the root context (R104), with its deque's number and what is left there. Of several the
bottom-most is taken, as by a pooled context under R108 (DESIGN CHOICE, log 96). -/
def State.waitingLaunch (s : State) (core : CoreNo) : Option (Nat × Item × Deque) :=
  let c := s.coreAt core
  [0, 1, 2].findSome? fun h =>
    if (c.dq h).busy then none
    else ((c.dq h).takeBottom fun i => i.kind == .launch && i.set == c.cur).map fun p => (h, p.1, p.2)

/-- Start a waiting launch item in an idle root context: a local take (R108). -/
def State.takeLaunch (s : State) (core : CoreNo) : State :=
  let c := s.coreAt core
  if (c.ctxAt (16 * c.cur)).run ≠ .idle ∨ !c.live then s
  else match s.waitingLaunch core with
    | some (h, i, rest) => (s.modCore core fun c => c.modDq h fun d => { rest with takes := d.takes + 1 }).startItem core (16 * c.cur) i
    | none => s

/-- IDLE (R379, R331): the root context ends and takes a waiting launch item at once. -/
def execIdle (s : State) : Host.Outcome State Fault Refusal :=
  .next (s.guarded .idle fun s => s.rootOnly fun s =>
    if (s.here.resident[keySet s.key]?.getD {}).held then s.illegal
    else if !s.me.pend.isEmpty then s.waitFrom .tokens
    else (s.retiring s.core s.key fun c => { c.retire with run := .idle, item := none }).takeLaunch s.core)

-- Events

/-- POOL_TAKE (R104, R108): an idle root context takes a waiting launch item, else a context in POOL takes an item. -/
def execPoolTake (core : CoreNo) (s : State) : Host.Outcome State Fault Refusal :=
  .next (
    let c := s.coreAt core
    if (c.ctxAt (16 * c.cur)).run = .idle ∧ c.live ∧ (s.waitingLaunch core).isSome then s.takeLaunch core
    else (s.take1 core).getD s)

/-- Whether PARKLIM bounds a context's wait (R121, R311, R331): REAP, PPOP, a CALLAT token, or the tokens before an end. -/
def Ctx.bounded (c : Ctx) : Bool :=
  match c.run with
  | .park (.reap _) | .park (.ppop _) | .wait .tokens => true
  | .wait (.token r) => c.callTok.contains r
  | _ => false

/-- PARK_LIMIT (R121, R124, R311, R331): a bounded wait of the current set (R372) has passed PARKLIM; the trap keeps the instruction, which ERET
executes again. A JOIN parked at its own core is answered as at any home (R181). -/
def execParkLimit (core : CoreNo) (x : CtxNo) (s : State) : Host.Outcome State Fault Refusal :=
  .next (
    let past := fun (c : Ctx) => decide (c.since + max c.parklim.toNat 0x400 ≤ s.cycleOf (pkgOf core))
    match (s.keysOf core x).find? (fun key =>
      let c := s.ctxAt core key
      keySet key == (s.coreAt core).cur && (c.bounded || (c.run == .park .home && (c.sent.map (·.act)) == some .join)) && past c) with
    | none => s
    | some key =>
      let c := s.ctxAt core key
      if c.bounded then
        let (t, s) := s.draw
        s.trapLatched core key 0x0F 0 (Config.openAddr t)
      else match takeFirst (fun e : ParkEntry => e.req.src == core && e.req.who == .ctx key) (s.coreAt core).parks with
        | some (e, _) => (s.modCore core fun k => k.unpark (· == e.req)).answer core e.req { code := 0x07 }
        | none => s)

end Sys2Proof.Machine
end

