-- ==== Sys2Proof/Machine/Shape.lean ====
section
/-!
DEFINITION. Layout records (R288, R289): their fields, the checks with their field codes in the order of R288, the
addresses of their elements, and reading a record; and the stream registers bound to one (R210 to R212).
-/
namespace Sys2Proof.Machine

-- Fields (R288)

/-- A field of a record. -/
def Shape.fld (r : Shape) (lo n : Nat) : Nat := (r.raw.extractLsb' lo n).toNat
/-- BASE. -/
def Shape.base (r : Shape) : Nat := r.fld 0 57
/-- BCAST. -/
def Shape.bcast (r : Shape) : Bool := r.raw.getLsbD 72
/-- COMP. -/
def Shape.comp (r : Shape) : Bool := r.raw.getLsbD 73
/-- LAB. -/
def Shape.carries (r : Shape) : Bool := r.raw.getLsbD 74
/-- LAYER. -/
def Shape.layer (r : Shape) : Bool := r.raw.getLsbD 75
/-- The number of dimensions. -/
def Shape.dims (r : Shape) : Nat := r.fld 76 2 + 1
/-- SHIFT, signed (R47). -/
def Shape.shift (r : Shape) : Int := toSigned 8 (r.fld 80 8)
/-- EXTd. -/
def Shape.ext (r : Shape) (d : Nat) : Nat := r.fld (96 + 32 * d) 32
/-- STRIDEd. -/
def Shape.stride (r : Shape) (d : Nat) : Nat := r.fld (224 + 40 * d) 40
/-- TILEd. -/
def Shape.tile (r : Shape) (d : Nat) : Nat := r.fld (384 + 16 * d) 16
/-- SCBASE. -/
def Shape.scbase (r : Shape) : Nat := r.fld 448 57
/-- A format narrower than a byte (R27, R31). -/
def Shape.sub (r : Shape) : Bool := decide (r.bits < 8)
/-- The element size in bytes, 1 for a format narrower than a byte. -/
def Shape.size (r : Shape) : Nat := max (r.bits / 8) 1
/-- The number of elements. -/
def Shape.count (r : Shape) : Nat := (List.range r.dims).foldl (fun n d => n * r.ext d) 1
/-- The span of a dimension (R288). -/
def Shape.span (r : Shape) (d : Nat) : Nat :=
  if d = 0 ∧ r.sub then r.ext 0 * r.bits / 8 else r.ext d * r.stride d
/-- The stride of a dimension that leaves no gap. -/
def Shape.dense (r : Shape) (d : Nat) : Nat := if d = 0 then (if r.sub then 0 else r.size) else r.span (d - 1)
/-- The MX element formats (R288 code 0x09). -/
def mxTy : Ty → Bool
  | .e4m3 | .e5m2 | .e3m2 | .e2m3 | .e2m1 => true
  | _ => false

/-- What an operation asks of a record besides the rules of R288: the record is written; a test for code 0x07; scales
are needed; LAB is refused. -/
structure Want where
  written : Bool := false
  takes : Shape → Bool := fun _ => true
  scales : Bool := false
  noLab : Bool := false

/-- The reserved bits of a record are zero. -/
def Shape.rsvOk (r : Shape) : Bool :=
  r.fld 505 7 == 0 && r.fld 88 8 == 0 && r.fld 78 2 == 0 && r.fld 69 3 == 0 && r.fld 57 7 == 0

/-- The first field code of R288 that applies, 0 for none. A BCAST stride of 0 is taken to be allowed in dimension 0
too, as R210 has it (DEDUCED, log 36). -/
def Shape.check (r : Shape) (w : Want) : Nat :=
  let ds := List.range r.dims
  let above := (List.range 4).drop r.dims
  if ds.any fun d => r.ext d == 0 then 0x01
  else if r.base % (if r.comp then 64 else r.size) ≠ 0 then 0x02
  else if ds.any fun d => decide (r.stride d < r.dense d) && !(r.bcast && r.stride d == 0) then 0x03
  else if ds.any (fun d => decide (r.ext d < r.tile d)) ||
      (w.written && ds.any fun d => r.stride d == 0 && !(d == 0 && r.sub)) then 0x04
  else if !r.rsvOk || r.ty.isNone || above.any (fun d => r.ext d != 0 || r.stride d != 0 || r.tile d != 0) then 0x05
  else if r.comp && (r.bcast || ds.any fun d => r.stride d != r.dense d) then 0x06
  else if !w.takes r then 0x07
  else if r.sub && (r.stride 0 != 0 || r.ext 0 * r.bits % 8 != 0) then 0x08
  else if (r.scbase != 0 && (!(match r.ty with | some t => mxTy t | none => false) || r.ext 0 % 32 != 0)) ||
      (w.scales && r.scbase == 0) then 0x09
  else if w.noLab && r.carries then 0x0A
  else 0

-- Elements (R289)

/-- The coordinate of element `e` in dimension `d`. -/
def Shape.coord (r : Shape) (e d : Nat) : Nat := e / (List.range d).foldl (fun n k => n * r.ext k) 1 % r.ext d
/-- The bit address of element `e`. -/
def Shape.bitAddr (r : Shape) (e : Nat) : Nat :=
  8 * r.base + (List.range r.dims).foldl (fun n d =>
    n + (if d = 0 ∧ r.sub then r.coord e 0 * r.bits else 8 * (r.coord e d * r.stride d))) 0
/-- The address of element `e`, of a whole number of bytes. -/
def Shape.elem (r : Shape) (e : Nat) : Nat := r.bitAddr e / 8
/-- The address of the scale of element `e` (R289). -/
def Shape.scale (r : Shape) (e : Nat) : Nat :=
  r.scbase + e / r.ext 0 * (r.ext 0 / 32) + e % r.ext 0 / 32

-- Lanes and label slots (R192, R193)

/-- The lane width of a type, where a vector instruction takes it (R192). -/
def laneTy : Ty → Bool
  | .i16 | .n16 | .f16 | .bf16 | .i32 | .n32 | .f32 | .i64 | .n64 | .f64 => true
  | _ => false
/-- The lanes of a register. -/
def lanesOf (w : Nat) (x : BitVec 1024) : List Nat := (List.range (1024 / w)).map fun i => bitsAt x.toNat (w * i) w
/-- The value of a list of lanes, lowest first. -/
def packNat (w : Nat) : List Nat → Nat
  | [] => 0
  | x :: t => x % 2 ^ w + 2 ^ w * packNat w t
/-- A register of a list of lanes. -/
def packLanes (w : Nat) (l : List Nat) : BitVec 1024 := BitVec.ofNat 1024 (packNat w l)
/-- The slots that a lane reads. -/
def laneSlots (w i : Nat) : List Nat := if w = 64 then [2 * i, 2 * i + 1] else if w = 16 then [i / 2] else [i]
/-- The lanes that lie in a slot. -/
def slotLanes (w j : Nat) : List Nat := if w = 64 then [j / 2] else if w = 16 then [2 * j, 2 * j + 1] else [j]
/-- A label vector from a list. -/
def labVec (l : List Handle) : Vector Handle 32 := Vector.ofFn fun i => l.getD i.val 0

/-- A v operand as an instruction reads it: its bits, the handles of each slot, and how many bytes of it a partial pop
supplied. -/
structure VSrc where
  data : BitVec 1024
  lab : List (List Handle)
  live : Nat := 128

/-- The labels that a lane reads. -/
def VSrc.laneLab (v : VSrc) (w i : Nat) : List Handle := (laneSlots w i).flatMap fun j => v.lab.getD j []

-- Streams (R210 to R212)

/-- A bound stream register. -/
def Ctx.strm (c : Ctx) (n : Fin 8) : Option Stream := c.streams[n]
/-- Change a stream register. -/
def Ctx.setStrm (c : Ctx) (n : Fin 8) (x : Option Stream) : Ctx := { c with streams := c.streams.set n x }
/-- Lanes that one register holds of a stream's elements. -/
def Stream.lanes (x : Stream) : Nat := 1024 / x.shape.bits
/-- Elements that the next pop or push takes. -/
def Stream.next (x : Stream) : Nat := min x.lanes (x.shape.count - x.pos)

/-- Bytes of a stream element that lie in one aligned 256-byte block, read as an access of the thread path: their value
and the handles of the words they overlap. -/
def State.streamPart (s : State) (va n : Nat) : Except State (Nat × List Handle) :=
  let a := BitVec.ofNat 64 va
  match s.check a n 1 .load with
  | .error t => .error t
  | .ok l => (s.fetchAt l a n).map fun x => (leNat x.1, x.2)

/-- An element of a stream read from memory at any byte address: its bits and the handles of the words it overlaps. -/
def State.streamElem (s : State) (x : Stream) (e : Nat) : Except State (Nat × List Handle) :=
  let va := x.shape.elem e
  let m := 256 - va % 256
  if x.shape.size ≤ m then s.streamPart va x.shape.size
  else match s.streamPart va m with
    | .error t => .error t
    | .ok (lo, ls) => match s.streamPart (va + m) (x.shape.size - m) with
      | .error t => .error t
      | .ok (hi, hs) => .ok (lo + hi * 2 ^ (8 * m), ls ++ hs)

/-- The elements of a pop, those fetched ahead first. -/
def State.popElems (s : State) (x : Stream) : List Nat → Except State (List (Nat × List Handle))
  | [] => .ok []
  | i :: t =>
    let one : Except State (Nat × List Handle) := match x.ahead[i]? with
      | some p => .ok p
      | none => s.streamElem x (x.pos + i)
    match one with
    | .error u => .error u
    | .ok p => match s.popElems x t with
      | .error u => .error u
      | .ok l => .ok (p :: l)

/-- What a pop supplies (R211): lanes beyond the end are zero with empty labels. -/
def State.popStream (s : State) (x : Stream) : Except State VSrc :=
  match s.popElems x (List.range x.next) with
  | .error t => .error t
  | .ok es =>
    let w := x.shape.bits
    .ok { data := packLanes w (es.map (·.1))
          lab := (List.range 32).map fun j => (slotLanes w j).flatMap fun i => (es.map (·.2)).getD i []
          live := x.next * (w / 8) }

/-- The position after a pop. -/
def Stream.popped (x : Stream) : Stream :=
  { x with dir := some true, pos := x.pos + x.next, ahead := x.ahead.drop x.next
           asked := if x.ahead.length < x.next then none else x.asked }
/-- The position after a push. -/
def Stream.pushed (x : Stream) : Stream := { x with dir := some false, pos := x.pos + x.next, ahead := [], asked := none }

/-- A piece of a push: its address, the first byte of the register it takes, and its length. -/
structure Piece where
  va : Nat
  from_ : Nat
  n : Nat
  deriving DecidableEq, Repr

/-- Pieces cut where they leave an aligned 256-byte block. -/
def cutPieces : Nat → Piece → List Piece
  | 0, p => [p]
  | f + 1, p =>
    let m := 256 - p.va % 256
    if p.n ≤ m then [p] else ⟨p.va, p.from_, m⟩ :: cutPieces f ⟨p.va + m, p.from_ + m, p.n - m⟩

/-- Join a piece to the one before it where they are adjacent. -/
def joinPiece (acc : List Piece) (p : Piece) : List Piece :=
  match acc with
  | q :: t => if q.va + q.n = p.va ∧ q.from_ + q.n = p.from_ then { q with n := q.n + p.n } :: t else p :: acc
  | [] => [p]

/-- The pieces of a push, in element order. -/
def Stream.pieces (x : Stream) : List Piece :=
  let size := x.shape.size
  let ps := (List.range x.next).map fun i => (⟨x.shape.elem (x.pos + i), i * size, size⟩ : Piece)
  (ps.foldl joinPiece []).reverse.flatMap (cutPieces 1)

/-- The store of a piece of a register's bytes: its words' labels are those of the slots they come from. -/
def State.pieceReq (s : State) (l : Loc) (p : Piece) (bytes : List Byte) (slots : List Handle) (mask : Nat) : Req :=
  { s.req (.store mask) l (BitVec.ofNat 64 p.va) p.n with
    data := (bytes.drop p.from_).take p.n, labs := slots, skew := p.from_ }

/-- The checks of every piece of a push, before any is stored. -/
def State.checkPieces (s : State) (bytes : List Byte) (slots : List Handle) : List Piece → Except State (List Req)
  | [] => .ok []
  | p :: t => match s.check (BitVec.ofNat 64 p.va) p.n 1 .store with
    | .error u => .error u
    | .ok l => match s.checkPieces bytes slots t with
      | .error u => .error u
      | .ok rs => .ok (s.pieceReq l p bytes slots (2 ^ p.n - 1) :: rs)

/-- The stream registers among v operands, each once. -/
def streamsOf (l : List VOp) : List (Fin 8) := (l.filterMap fun x => match x with | .s n => some n | .v _ => none).eraseDups

/-- Whether the acting context is the sequencer running a loop that its streams end (R209). -/
def State.inStreamLoop (s : State) : Bool :=
  decide (64 ≤ s.key) && (match s.here.loops.find? fun l => l.key == realKey s.key with
    | some l => l.left.isNone
    | none => false)

/-- What stands before an instruction's stream operands (R211): the end of a stream traps. -/
def State.streamStop (s : State) (ops : List VOp) : Option State :=
  let spent := fun (n : Fin 8) => match s.me.strm n with | some x => x.next == 0 | none => false
  if (streamsOf ops).any spent && !s.inStreamLoop then some (s.trapOpen 0x16 0) else none

/-- Move the streams that an instruction has read on. -/
def State.popAll (s : State) (srcs : List VOp) : State :=
  (streamsOf srcs).foldl (fun s n => s.modMe fun c => c.setStrm n ((c.strm n).map Stream.popped)) s

/-- Send the stores of a push in their order, each behind the context's earlier accesses: one for the own core is performed
before the next, and a remote one takes a journal entry (R183, R211, R212). Then the streams move on. -/
def State.pushGo : Nat → State → State
  | 0, s => s
  | f + 1, s => match s.me.out with
    | .push [] n fl reads =>
      let s := reads.foldl (fun s r => s.modMe fun c => c.setStrm r ((c.strm r).map Stream.popped)) (s.raise fl)
      (s.modMe fun c => c.setStrm n ((c.strm n).map Stream.pushed)).retire
    | .push (r :: rest) n fl reads =>
      let home := homeOf r.ha
      if !s.pushable home then s.wait .order
      else if home = s.core then
        let t := s.ask home r (.push rest n fl reads)
        if t.me.run = .run ∧ t.me.out = .push rest n fl reads then State.pushGo f t else t
      else match s.journal home r with
        | some t => State.pushGo f (t.modMe fun c => { c with out := .push rest n fl reads, run := .run })
        | none => s.waitJournal
    | _ => s

/-- A push is ready to be sent. The second instruction of a pair that runs before the first holds it back until the first's
own access has been made, behind which it stands (R90, R212). -/
def Ctx.holdPush (c : Ctx) (w : Wr) : Option Ctx :=
  match c.pair with
  | some p => match p.stage with
    | .second => some { c with pc := p.first, run := .run, out := .none, sent := none, fetched := []
                               pair := some { p with stage := .forward, held := w } }
    | _ => none
  | none => none

/-- Push a register's bytes with its slots' labels (R211) and retire: lanes beyond the end are discarded. -/
def State.pushStream (s : State) (n : Fin 8) (reads : List (Fin 8)) (bytes : List Byte) (slots : List Handle) (fl : Flags) :
    State :=
  match s.me.strm n with
  | none => s.illegal
  | some x => match s.checkPieces bytes slots x.pieces with
    | .error t => t
    | .ok rs => match s.me.holdPush (.push rs n fl reads) with
      | some c => s.modMe fun _ => c
      | none => State.pushGo (rs.length + 1) (s.modMe fun c => { c with out := .push rs n fl reads })
/-- Go on with a push in progress, or begin an instruction. -/
def State.orPush (s : State) (k : State → State) : State :=
  match s.me.out with
  | .push rs _ _ _ => State.pushGo (rs.length + 1) s
  | _ => k s

/-- A v operand's value. -/
def State.readV (s : State) (x : VOp) : Except State VSrc :=
  match x with
  | .v n => .ok { data := (s.me.v n).data, lab := (s.me.v n).lab.toList.map fun h => [h] }
  | .s n => match s.me.strm n with
    | some st => s.popStream st
    | none => .error s.illegal

/-- The values of several operands. -/
def State.readVs (s : State) : List VOp → Except State (List VSrc)
  | [] => .ok []
  | x :: t => match s.readV x with
    | .error u => .error u
    | .ok v => match s.readVs t with
      | .error u => .error u
      | .ok l => .ok (v :: l)

-- SCFG (R210)

/-- What SCFG asks of a record: a type of R192, not compressed, no layer attribute. -/
def scfgWant : Want := { takes := fun r => (match r.ty with | some t => laneTy t | none => false) && !r.comp && !r.layer }

/-- SCFG (R210). A push has been sent when its instruction retires; SCFG waits until it has been performed. A record address
that is not 64-byte aligned is a bad address, with DETAIL 0 (DESIGN CHOICE, log 105). -/
def execScfg (d : FReg) (b : GReg) (off : BitVec 40) (s : State) : Host.Outcome State Fault Refusal :=
  .next (s.guarded (.scfg d b off) fun s =>
    if d.val < 24 then s.illegal
    else
      let n : Fin 8 := Fin.ofNat 8 (d.val - 24)
      if b = 0 ∧ off = 0 then (s.modMe fun c => c.setStrm n none).retire
      else s.deciding [b] fun s =>
        let va := s.me.eaOff b off
        let inside := match s.window s.core s.key va.toNat with | some (.error _) => false | _ => true
        if inside && va.toNat % 64 != 0 then s.trap 0x07 0 va
        else if !s.allPerformed then s.wait .order
        else match s.check va 64 1 .load with
          | .error t => t
          | .ok l => match s.fetchAt l va 64 with
            | .error t => t
            | .ok x =>
              let r : Shape := { raw := BitVec.ofNat 512 (leNat x.1), addr := va }
              match r.check scfgWant with
              | 0 => ((s.modMe Ctx.dropAhead).modMe fun c => c.setStrm n (some { shape := r })).retire
              | code => s.trapOpen 0x17 code)

-- Events

/-- STREAM_PREFETCH (R212): a read stream fetches its next element ahead, unless a captured instruction is in flight: at
once where the core itself is its home, else by a message. An element that two 256-byte blocks share is read by its pop
alone (DESIGN CHOICE, log 16). -/
def execStreamPrefetch (core : CoreNo) (x : CtxNo) (f : Fin 8) (s : State) : Host.Outcome State Fault Refusal :=
  .next (match (s.keysOf core x).find? (fun key => decide (key < 64) && match (s.ctxAt core key).strm f with
      | some st => st.dir != some false && st.asked.isNone && decide (st.pos + st.ahead.length < st.shape.count) &&
          !((s.coreAt core).loops.any fun l => l.key == key && l.running)
      | none => false) with
    | none => s
    | some key => s.asCtx core key fun s => match s.me.strm f with
      | none => s
      | some st =>
        let va := st.shape.elem (st.pos + st.ahead.length)
        let n := st.shape.size
        if 256 < va % 256 + n then s
        else match s.check (BitVec.ofNat 64 va) n 1 .load with
          | .error _ => s
          | .ok l => if l.home = core ∧ !s.inOwnTurn then s else
            (s.modMe fun c => c.setStrm f (some { st with asked := some s.nextMsg })).dispatch l.home
              { s.req .load l (BitVec.ofNat 64 va) n with who := .stream key f s.nextMsg })

end Sys2Proof.Machine
end

