-- ==== Sys2Proof/Machine/Codec.lean ====
section
/-!
DEFINITION. Compressed tiles (R291 to R294): the offset table, the codecs and their decoded lengths, and compaction; and
the entry of narrow formats as integers (R28, R46, R47).
-/
namespace Sys2Proof.Machine

/-- Logical bytes of a record (R291). -/
def Shape.bytes (r : Shape) : Nat := (r.count * r.bits + 7) / 8
/-- Logical tiles (R291). -/
def Shape.tiles (r : Shape) : Nat := (r.bytes + 4095) / 4096
/-- The declared length of a tile in bytes (R291). -/
def Shape.tileLen (r : Shape) (t : Nat) : Nat := min 4096 (r.bytes - 4096 * t)
/-- The first element that begins in a tile. -/
def Shape.tileFirst (r : Shape) (t : Nat) : Nat := (32768 * t + r.bits - 1) / r.bits
/-- The declared element count of a tile (R293): the elements that begin in it (log 107). -/
def Shape.tileElems (r : Shape) (t : Nat) : Nat := min (r.tileFirst (t + 1)) r.count - r.tileFirst t
/-- Bits of a tile that belong to an element that begins in the tile before it. -/
def Shape.tileLead (r : Shape) (t : Nat) : Nat := r.tileFirst t * r.bits - 32768 * t

/-- An offset table entry (R291): codec, compressed bytes, and the tile's distance from BASE. -/
structure TileEntry where
  codec : Nat
  size : Nat
  off : Nat
  deriving DecidableEq, Repr

/-- The fields of an offset table entry. -/
def tileEntry (x : Nat) : TileEntry := ⟨bitsAt x 28 4, 8 * bitsAt x 18 10, 8 * bitsAt x 0 18⟩

/-- Words of a list of bytes; a rest of fewer than four is dropped. -/
def wordsOf : List Byte → List Nat
  | a :: b :: c :: d :: t => leNat [a, b, c, d] :: wordsOf t
  | _ => []
/-- The bytes of words. -/
def bytesOf (ws : List Nat) : List Byte := ws.flatMap (leBytes 4)

/-- Decode zero-run groups (R292): a header of 0 or the end of the bytes ends the tile. -/
def zeroRuns : Nat → List Nat → List Nat
  | 0, _ => []
  | _, [] => []
  | n + 1, h :: t =>
    if h = 0 then []
    else List.replicate (h % 2 ^ 16) 0 ++ t.take (h / 2 ^ 16) ++ zeroRuns n (t.drop (h / 2 ^ 16))

/-- Delta decode from a running value (R290). -/
def deltaDecode (y : Nat) : List Nat → List Nat
  | [] => []
  | x :: t => let z := (y + x) % 2 ^ 32; z :: deltaDecode z t
/-- Delta encode from a previous value (R290). -/
def deltaEncode (x : Nat) : List Nat → List Nat
  | [] => []
  | y :: t => (y + 2 ^ 32 - x) % 2 ^ 32 :: deltaEncode y t

/-- An exact value rounded into any format, an integer one saturated (R44, R49). -/
def intoTy (t : Ty) (v : FVal) : Nat :=
  -- the range of .t2 begins at -1 (R27)
  let sat := fun (x : Int) => satInt (tyBits t) (tySigned t) (if t = .t2 then max x (-1) else x)
  if t.isFloat then (roundV t .rne false v).1
  else match v with
    | .nan _ => 0
    | .inf s => sat (if s then -(2 ^ 70) else 2 ^ 70)
    | .fin s m e =>
      let n := (toInt .rne s m (min e 128)).1
      sat (if s then -(n : Int) else n)

/-- The elements of a sign bitmap tile (R292). -/
def bitmapElems (t : Ty) (n : Nat) (bs : List Byte) : List Nat :=
  (List.range n).map fun e => if (bs.getD (e / 8) 0).getLsbD (e % 8) then intoTy t (.fin false 1 0) else 0
/-- The elements of an FP4 block tile (R292); an element whose byte is missing is zero. -/
def fp4Elems (t : Ty) (n : Nat) (bs : List Byte) : List Nat :=
  (List.range n).map fun e =>
    let b := 17 * (e / 32)
    match bs[b]?, bs[b + 1 + e % 32 / 2]? with
    | some sc, some x => intoTy t (mxVal .e2m1 sc.toNat (bitsAt x.toNat (4 * (e % 2)) 4))
    | _, _ => 0

/-- Cut or zero-fill to a declared length, with the code 0x61 or 0x62 (R293). -/
def fitLen (len : Nat) (bs : List Byte) : List Byte × Nat :=
  if bs.length < len then (bs ++ List.replicate (len - bs.length) 0, 0x61)
  else (bs.take len, if len < bs.length then 0x62 else 0)

/-- Elements of a tile that saturate as it is decoded (R49): those of an FP4 block with scale 0xFF in an integer format. -/
def tileSat (t : Ty) (codec n : Nat) (bs : List Byte) : List Bool :=
  (List.range n).map fun e => codec == 4 && !t.isFloat && bs[17 * (e / 32)]? == some 255

/-- A decoded tile: its bytes, its code of R293, and the bits of its last element that lie in the next tile. -/
structure Decoded where
  bytes : List Byte
  code : Nat
  spare : Nat := 0
  deriving DecidableEq, Repr

/-- Elements packed where they lie in the record (R31): after the `lead` bits `low` of the tile before, and over the
tile's end. -/
def packTile (bits len lead low : Nat) (xs : List Nat) : List Byte × Nat :=
  let v := low + packNat bits xs * 2 ^ lead
  (leBytes len v, v / 2 ^ (8 * len))

/-- Decode a tile of a declared length in bytes and in elements (R292, R293). Codecs 3 and 4 give elements, which lie where
the record has them: `lead` bits of the tile, which are `low`, belong to an element of the tile before (R31, log 107). -/
def decodeTile (t : Ty) (codec len n lead low : Nat) (bs : List Byte) : Decoded :=
  let fit := fun (l : List Byte) => let (b, c) := fitLen len l; ({ bytes := b, code := c } : Decoded)
  match codec with
  | 0 => fit bs
  | 1 => fit (bytesOf (zeroRuns bs.length (wordsOf bs)))
  | 2 => fit (bytesOf (deltaDecode 0 (zeroRuns bs.length (wordsOf bs))))
  | 3 =>
    let k := 8 * bs.length
    let (b, spare) := packTile (tyBits t) len lead low (bitmapElems t n bs)
    { bytes := b, code := if k < n then 0x61 else if n + 64 ≤ k then 0x62 else 0, spare }
  | _ =>
    let k := 17 * ((n + 31) / 32)
    let (b, spare) := packTile (tyBits t) len lead low (fp4Elems t n bs)
    { bytes := b, code := if bs.length < k then 0x61 else if k + 8 ≤ bs.length then 0x62 else 0, spare }

-- Compaction (R291, R294)

/-- Pad to a multiple of 8 bytes with zeros. -/
def pad8 (bs : List Byte) : List Byte := bs ++ List.replicate (roundUp bs.length 8 - bs.length) 0

/-- The groups of a zero-run encoding: how many leading zero words each skips, and its literals. A zero word joins a run
where the free choice says so (log 38). -/
def runGroups (tick : Nat) : Nat → List Nat → List (Nat × List Nat)
  | _, [] => []
  | i, w :: t =>
    let rest := runGroups tick (i + 1) t
    if w = 0 ∧ Config.zeroRun tick i then
      match rest with
      | (z, ls) :: r => (z + 1, ls) :: r
      | [] => [(1, [])]
    else match rest with
      | (0, ls) :: r => (0, w :: ls) :: r
      | r => (0, [w]) :: r

/-- The bytes of a zero-run encoding. -/
def encodeRuns (tick : Nat) (ws : List Nat) : List Byte :=
  (runGroups tick 0 ws).flatMap fun g => leBytes 4 (g.1 + g.2.length * 2 ^ 16) ++ bytesOf g.2

/-- The sign bitmap of a tile's elements (R294). -/
def signBits (t : Ty) (es : List Nat) : List Byte :=
  (List.range ((es.length + 7) / 8)).map fun k => BitVec.ofNat 8 ((List.range 8).foldl (fun acc j =>
    let up : Bool := match es[8 * k + j]? with
      | some x => (match decF t x with | .inf s => !s | .fin s m _ => !s && m != 0 | .nan _ => false)
      | none => false
    acc + up.toNat * 2 ^ j) 0)

/-- Lists of at most 32 elements. -/
def blocks32 : Nat → List Nat → List (List Nat)
  | 0, _ => []
  | _, [] => []
  | n + 1, l => l.take 32 :: blocks32 n (l.drop 32)

/-- One FP4 block (R294): the scale and 16 bytes; a last block is filled up with +0. -/
def fp4Block (t : Ty) (es : List Nat) : List Byte :=
  let xs := (es ++ List.replicate (32 - es.length) 0).map (decF t)
  let (sc, cs, _, _) := mxPack t .e2m1 true xs
  BitVec.ofNat 8 sc :: (List.range 16).map fun j => BitVec.ofNat 8 (cs.getD (2 * j) 0 + 16 * cs.getD (2 * j + 1) 0)

/-- A tile as it is written: its codec and its bytes, padded (R291, R294). -/
def encodeTile (tick : Nat) (t : Ty) (codec : Nat) (bs : List Byte) : Nat × List Byte :=
  let size := max (tyBits t / 8) 1
  let es := (List.range (bs.length / size)).map fun e => leNat ((bs.drop (size * e)).take size)
  match codec with
  | 3 => (3, pad8 (signBits t es))
  | 4 => (4, pad8 ((blocks32 es.length es).flatMap (fp4Block t)))
  | _ =>
    let ws := wordsOf (bs ++ List.replicate (roundUp bs.length 4 - bs.length) 0)
    let out := encodeRuns tick (if codec = 2 then deltaEncode 0 ws else ws)
    if 4096 < out.length then (0, pad8 bs) else (codec, pad8 out)

-- Narrow formats as integers (R28, R46, R47)

/-- An element as it enters the INT8 array (R28, R46, R47). -/
def entryOf (t : Ty) (shift : Int) (x : Nat) : Int :=
  match t with
  | .t2 => if x = 1 then 1 else if x = 3 then -1 else 0
  | .e2m1 => match decF .e2m1 x with | .fin s m e => (if s then -1 else 1) * (m * 2 ^ (e + 1).toNat : Nat) | _ => 0
  | .e2m3 => match decF .e2m3 x with | .fin s m e => (if s then -1 else 1) * (m * 2 ^ (e + 3).toNat : Nat) | _ => 0
  | .e3m2 => match decF .e3m2 x with
    | .fin s m e =>
      let n := (toInt .rne s m (e + shift)).1
      max (-128) (min 127 (if s then -(n : Int) else n))
    | _ => 0
  | t => intVal t x

end Sys2Proof.Machine
end

