-- ==== Sys2Proof/Machine/Matrix.lean ====
section
/-!
DEFINITION. The matrix instructions (R248 to R277), major codes 0xA0 to 0xA9: acceptance with its checks, the queue of a
half, and the engine's commits, completions and faults.
-/
namespace Sys2Proof.Machine

-- Halves (R248)

/-- Split mode: set by MCTL, or always on a paired leaf. -/
def CoreSt.split (c : CoreSt) (key : Nat) : Bool := c.matrix.split || (c.paired[keySet key]?).getD false
/-- The rows of a half. -/
def CoreSt.rows (c : CoreSt) (key : Nat) : Nat := if c.split key then 16 else 32
/-- The half that a context's instructions go to: on a paired leaf its tenant's, in split mode the one that its number
or RHALF names, else the whole array. -/
def CoreSt.halfNo (c : CoreSt) (key : Nat) : Nat :=
  let n := realKey key % 16
  if (c.paired[keySet key]?).getD false then (c.tenOf (realKey key)).toNat
  else if !c.matrix.split then 0
  else if n = 0 ∨ n = 15 then c.matrix.rhalf.toNat
  else if n < 8 then 0 else 1
/-- A half. -/
def Matrix.half (m : Matrix) (h : Nat) : Half := if h = 0 then m.h0 else m.h1
/-- Change a half. -/
def Matrix.modHalf (m : Matrix) (h : Nat) (f : Half → Half) : Matrix :=
  if h = 0 then { m with h0 := f m.h0 } else { m with h1 := f m.h1 }
/-- A half of a core. -/
def State.half (s : State) (core : CoreNo) (h : Nat) : Half := (s.coreAt core).matrix.half h
/-- Change a half of a core. -/
def State.modHalf (s : State) (core : CoreNo) (h : Nat) (f : Half → Half) : State :=
  s.modCore core fun c => { c with matrix := c.matrix.modHalf h f }
/-- A tile of a half. -/
def Half.tile (x : Half) (n : Nat) : Tile := x.tiles[n]?.getD {}
/-- Change a tile. -/
def Half.modTile (x : Half) (n : Nat) (f : Tile → Tile) : Half := { x with tiles := x.tiles.set! n (f (x.tile n)) }
/-- Value and partial word of an element. -/
def Tile.at_ (t : Tile) (i j : Nat) : Word × Word := (assoc t.elems (64 * i + j)).getD (0, 0)
/-- Write an element. -/
def Tile.put (t : Tile) (i j : Nat) (x : Word × Word) : Tile :=
  { t with elems := if x = (0, 0) then assocDel t.elems (64 * i + j) else assocSet t.elems (64 * i + j) x }
/-- Count events of a half, up to 255 (R270): IX, UF, OF, IV, FLOOR, TERN, PSAT, INOVF by number. -/
def Half.bump (x : Half) (i : Fin 8) (n : Nat) : Half := { x with counters := x.counters.set i (min 255 (x.counters[i] + n)) }
/-- Count the flags of a rounding (R264). -/
def Half.flags (x : Half) (f : Flags) : Half :=
  (((x.bump 0 (f.getLsbD 0).toNat).bump 1 (f.getLsbD 1).toNat).bump 2 (f.getLsbD 2).toNat).bump 3 (f.getLsbD 4).toNat
/-- MCTL as MFS reads it (R251). -/
def CoreSt.mctl (c : CoreSt) (key : Nat) : Word :=
  let h := c.halfNo key
  let x := c.matrix.half h
  BitVec.ofNat 64 (x.pcode + (if x.fault.isSome then 8 else 0) + 16 * h + 32 * (c.split key).toNat +
    64 * c.matrix.rhalf.toNat + 128 * ((c.paired[keySet key]?).getD false).toNat + 2 ^ 32 * x.iter.toNat)

-- Addresses of operands (R253, R406)

/-- An operand address: a local store address of a compute core of the issuing core's cluster and partition, aligned. -/
def State.clusterSpot (s : State) (va : Word) (align : Nat) : Except State Loc :=
  match s.window s.core s.key va.toNat with
  | some (.error c) => .error (s.refuseHere c va)
  | none => .error (s.refuseHere 0x06 va)
  | some (.ok l) =>
    if !inScope .cl s.core l.home then .error (s.refuseHere 0x06 va)
    else if va.toNat % align ≠ 0 then .error (s.trap 0x07 0 va)
    else .ok l

/-- A record or descriptor of `n` bytes, read as the instruction is accepted: of another core's store by a message that the
instruction waits for (R21, log 79). -/
def State.record (s : State) (va : Word) (align n : Nat) : Except State Nat :=
  match s.clusterSpot va align with
  | .error t => .error t
  | .ok l => (s.fetchAt l va n).map fun x => leNat x.1

/-- Addresses that must lie in one local store of the cluster. -/
def State.oneStore (s : State) (home : CoreNo) : List Nat → Except State Unit
  | [] => .ok ()
  | a :: t => match s.clusterSpot (BitVec.ofNat 64 a) 1 with
    | .error u => .error u
    | .ok l => if l.home = home then s.oneStore home t else .error (s.refuseHere 0x06 (BitVec.ofNat 64 a))

/-- The highest address that a record describes (R253): of its elements, or of the offset table of a compressed one. -/
def Shape.last (r : Shape) : Nat :=
  if r.comp then r.base + (4 * r.tiles - 1)
  else (List.range r.dims).foldl (fun n d =>
    n + (if d = 0 ∧ r.sub then (r.ext 0 - 1) * r.bits / 8 else (r.ext d - 1) * r.stride d)) r.base
/-- The lowest and highest addresses of the tiles of a compressed record, by the bytes of its offset table (R291). -/
def Shape.tileEnds (r : Shape) (table : List Byte) : List Nat :=
  (List.range r.tiles).flatMap fun t =>
    let e := tileEntry (leNat ((table.drop (4 * t)).take 4))
    if e.size = 0 then [] else [r.base + e.off, r.base + e.off + e.size - 1]

/-- Read a matrix operand record and check its addresses (R253, R257); `port` leaves the elements out (R258). -/
def State.matRecord (s : State) (va : Word) (port : Bool) : Except State Shape :=
  match s.record va 64 64 with
  | .error t => .error t
  | .ok x =>
    let r : Shape := { raw := BitVec.ofNat 512 x, addr := va }
    if port then .ok r
    else match s.clusterSpot (BitVec.ofNat 64 r.base) 1 with
      | .error t => .error t
      | .ok b => match s.oneStore b.home [r.last] with
        | .error t => .error t
        | .ok _ =>
          if !r.comp then .ok r
          else match s.vread .load r.base (4 * r.tiles / 64 + 2) (4 * r.tiles) with
            | .error t => .error t
            | .ok table => match s.oneStore b.home (r.tileEnds table) with
              | .error t => .error t
              | .ok _ => .ok r

-- Acceptance (R252, R253)

/-- Accept an instruction into its half's queue: its token becomes pending and its context's instruction retires. -/
def State.matAccept (s : State) (core : CoreNo) (h : Nat) (op : MatOp) : State :=
  let m := (s.coreAt core).matrix
  let s := s.modHalf core h fun x =>
    { x with queue := x.queue ++ [{ op with num := m.h0.accepted + m.h1.accepted }], accepted := x.accepted + 1 }
  s.asCtx core op.key fun s => (s.markToken op.tok).retire

/-- The contexts of a list that still wait for what they came for, or read their records again for it. -/
def State.stillWait (s : State) (core : CoreNo) (w : Why) (l : List Nat) : List Nat :=
  l.filter fun k =>
    let c := s.ctxAt core k
    c.run == .wait w || !c.fetched.isEmpty || (match c.out with | .fetch _ => true | _ => false)
/-- The first of them whose set is current and that no stop holds. -/
def State.headOffer (s : State) (core : CoreNo) (w : Why) (l : List Nat) : Option Nat :=
  (s.stillWait core w l).find? fun k => keySet k == (s.coreAt core).cur && !(s.ctxAt core k).stopped
/-- The context whose instruction is executed again, if the first of them waits. -/
def State.firstOffer (s : State) (core : CoreNo) (w : Why) (l : List Nat) : Option Nat :=
  if !(s.coreAt core).live then none
  else match s.headOffer core w l with
    | some k => if (s.ctxAt core k).run = .wait w then some k else none
    | none => none
/-- The list with the acting context in its place. -/
def State.inLine (s : State) (w : Why) (l : List Nat) : List Nat :=
  let l := s.stillWait s.core w l
  if l.contains s.key then l else l ++ [s.key]
/-- Whether the acting context is the first of a list to go on. -/
def State.leads (s : State) (l : List Nat) : Bool :=
  (l.find? fun k => keySet k == s.here.cur && (k == s.key || !(s.ctxAt s.core k).stopped)) == some s.key
/-- Wait for an entry; records that have been read are read again when one is free (R253, R280). -/
def State.waitEntry (s : State) (w : Why) : State := (s.modMe fun c => { c with fetched := [] }).wait w

/-- Offer an instruction to its half (R252): it is accepted when an entry is free and no other context came first, else
its context waits, and the instruction is executed again when an entry frees. -/
def State.matOffer (s : State) (op : MatOp) : State :=
  let h := s.here.halfNo s.key
  let x := s.half s.core h
  let op := { op with key := s.key, part := s.part }
  let line := s.inLine .matQueue x.offers
  if s.leads line ∧ x.queue.length < 2 then
    (s.modHalf s.core h fun x => { x with offers := line.filter (· != s.key) }).matAccept s.core h op
  else (s.modHalf s.core h fun x => { x with offers := line }).waitEntry .matQueue

/-- The first field code of R253 whose condition holds. -/
def firstCode : List (Nat × Bool) → Nat
  | [] => 0
  | (c, b) :: t => if b then c else firstCode t

/-- The extents of A and B: rows, columns, and the two K extents. -/
def Shape.ext1 (r : Shape) : Nat := if r.dims < 2 then 1 else r.ext 1

/-- The conditions of A and B that MMUL and MSLICE share. -/
def State.abCodes (s : State) (a b : Shape) : List (Nat × Bool) :=
  [(0x41, decide (s.here.rows s.key < a.ext1) || decide (64 < b.ext 0)),
   (0x42, a.ext 0 != b.ext1 || decide (65536 < a.ext 0))]

/-- The tile number of a register, and whether it is bad (R253 code 0x45). -/
def badTile (x : Word) : Bool := decide (5 < x.toNat)

/-- The records A and B of an instruction, and the field code of the first rule that rejects one. -/
def State.matPair (s : State) (ga gb : Word) (go : State → Shape → Shape → Bool → State) : State :=
  let port := gb.getLsbD 63
  match s.matRecord ga false with
  | .error t => t
  | .ok a => match s.matRecord (if port then gb &&& ~~~(1#64 <<< 63) else gb) port with
    | .error t => t
    | .ok b =>
      match a.check {}, b.check {} with
      | 0, 0 => go s a b port
      | 0, c | c, _ => s.trapOpen 0x17 c

/-- The word of an instruction. -/
def instrWord (i : Instr) : BitVec 96 := (encode i).getD 0

/-- Offer an instruction unless a field code refuses it. -/
def State.matCheck (s : State) (codes : List (Nat × Bool)) (op : MatOp) : State :=
  match firstCode codes with
  | 0 => s.matOffer op
  | c => s.trapOpen 0x17 c

/-- The formats that MMUL takes for A and B (R253 code 0x40, R262): E3M2 records under .i8 alone. -/
def mmulFmt (t : Ty) (isB : Bool) (f : Option Ty) : Bool :=
  match f with
  | none => false
  | some f =>
    f == (if isB && (t == .i4 || t == .t2) then Ty.i8 else t) || (t == .i8 && f == .e3m2)

/-- A k register that belongs to the other half (R248). -/
def State.kOther (s : State) (k : KReg) : Bool := s.here.split s.key && decide (k.val / 2 ≠ s.here.halfNo s.key)

/-- MMUL (R262): its acceptance. -/
def execMmul (t : Ty) (neg nacc : Bool) (tok c a b k : GReg) (s : State) : Host.Outcome State Fault Refusal :=
  .next (s.guarded (.mmul t neg nacc tok c a b k) fun s => s.deciding [c, a, b, k] fun s =>
    let x := s.me
    let tile := (x.g c).val
    let gk := (x.g k).val.toNat
    let sel := bitsAt gk 48 3
    let off := bitsAt gk 0 32
    let len := if bitsAt gk 32 16 = 0 then 32 else bitsAt gk 32 16
    let kreg : Option KReg := if 4 ≤ sel then some (Fin.ofNat 4 (sel - 4)) else none
    s.matPair (x.g a).val (x.g b).val fun s ra rb port =>
      s.matCheck ([(0x40, !mmulFmt t false ra.ty || !mmulFmt t true rb.ty)] ++ s.abCodes ra rb ++
        [(0x42, decide (ra.ext 0 < off + len)),
         (0x44, match kreg with | some r => s.kOther r || len % 8 != 0 | none => false),
         (0x45, badTile tile || gk / 2 ^ 51 != 0 || (sel != 0 && decide (sel < 4))),
         (0x48, decide (2 < ra.dims) || decide (2 < rb.dims))])
        { kind := .mmul, key := s.key, tok, tile := tile.toNat, t, neg, nacc, a := ra, b := rb, port, koff := off,
          klen := len, kreg, x := (x.g a).val, y := (x.g b).val, z := (x.g k).val
          instr := instrWord (.mmul t neg nacc tok c a b k) })

/-- MSCA (R264): its acceptance. -/
def execMsca (t : Ty) (tok c a b : GReg) (s : State) : Host.Outcome State Fault Refusal :=
  .next (s.guarded (.msca t tok c a b) fun s => s.deciding [c, a, b] fun s =>
    let x := s.me
    let ga := (x.g a).val
    let gb := (x.g b).val
    match s.clusterSpot ga 2 with
    | .error t => t
    | .ok _ => match s.clusterSpot gb 2 with
      | .error t => t
      | .ok _ => s.matCheck [(0x45, badTile (x.g c).val)]
          { kind := .msca, key := s.key, tok, tile := (x.g c).val.toNat, t, x := ga, y := gb
            instr := instrWord (.msca t tok c a b) })

/-- The largest S of a type (R261). -/
def maxS : Ty → Nat
  | .f64 => 8
  | .f32 => 4
  | _ => 2

/-- MSLICE's acceptance. -/
def State.sliceOp (s : State) (i : Instr) (t : Ty) (neg nacc : Bool) (tok c a b : GReg) (sv : Nat) : State :=
  let x := s.me
  let tile := (x.g c).val
  s.matPair (x.g a).val (x.g b).val fun s ra rb port =>
    s.matCheck ([(0x40, ra.ty != some t || rb.ty != some t)] ++ s.abCodes ra rb ++
      [(0x43, sv == 0 || decide (maxS t < sv)), (0x45, badTile tile), (0x48, decide (2 < ra.dims) || decide (2 < rb.dims))])
      { kind := .mslice, key := s.key, tok, tile := tile.toNat, t, neg, nacc, a := ra, b := rb, port, klen := ra.ext 0,
        s := sv, x := (x.g a).val, y := (x.g b).val, z := BitVec.ofNat 64 sv, instr := instrWord i }

/-- MSLICE with S in a register (R265). -/
def execMsliceReg (t : Ty) (neg nacc : Bool) (tok c a b r : GReg) (s : State) : Host.Outcome State Fault Refusal :=
  .next (s.guarded (.msliceReg t neg nacc tok c a b r) fun s => s.deciding [c, a, b, r] fun s =>
    s.sliceOp (.msliceReg t neg nacc tok c a b r) t neg nacc tok c a b (s.me.g r).val.toNat)
/-- MSLICE with an immediate S (R265). -/
def execMsliceImm (t : Ty) (neg nacc : Bool) (tok c a b : GReg) (sv : BitVec 40) (s : State) :
    Host.Outcome State Fault Refusal :=
  .next (s.guarded (.msliceImm t neg nacc tok c a b sv) fun s => s.deciding [c, a, b] fun s =>
    s.sliceOp (.msliceImm t neg nacc tok c a b sv) t neg nacc tok c a b sv.toNat)
/-- MZERO (R271): its acceptance. -/
def execMzero (tok c : GReg) (s : State) : Host.Outcome State Fault Refusal :=
  .next (s.guarded (.mzero tok c) fun s => s.deciding [c] fun s =>
    s.matCheck [(0x45, badTile (s.me.g c).val)]
      { kind := .mzero, key := s.key, tok, tile := (s.me.g c).val.toNat, instr := instrWord (.mzero tok c) })
/-- RTEST (R273): its acceptance. -/
def execRtest (tok c a : GReg) (s : State) : Host.Outcome State Fault Refusal :=
  .next (s.guarded (.rtest tok c a) fun s => s.deciding [c, a] fun s =>
    let x := (s.me.g a).val.toNat
    let rows := x % 256
    let cols := x / 256 % 256
    s.matCheck [(0x45, badTile (s.me.g c).val),
        (0x46, x / 65536 != 0 || rows == 0 || cols == 0 || decide (s.here.rows s.key < rows) || decide (64 < cols))]
      { kind := .rtest, key := s.key, tok, tile := (s.me.g c).val.toNat, rows, cols, x := (s.me.g a).val
        instr := instrWord (.rtest tok c a) })
/-- KSET (R260): its acceptance. -/
def execKset (k : KReg) (a : GReg) (s : State) : Host.Outcome State Fault Refusal :=
  .next (s.guarded (.kset k a) fun s => s.deciding [a] fun s =>
    match s.clusterSpot (s.me.g a).val 2 with
    | .error t => t
    | .ok _ => s.matCheck [(0x44, s.kOther k)]
        { kind := .kset, key := s.key, kreg := some k, x := (s.me.g a).val, instr := instrWord (.kset k a) })

-- MCTL (R272)

/-- A finite FP64 value that is not below zero. -/
def okTol (x : Word) : Bool := match decF .f64 x.toNat with | .fin neg m _ => !neg || m == 0 | _ => false
/-- The PCODE of a promotion interval (R251). -/
def pcodeOf (x : Word) : Option Nat :=
  match x.toNat with
  | 32 => some 0 | 64 => some 1 | 128 => some 2 | 256 => some 3 | 512 => some 4 | 1024 => some 5
  | _ => none

/-- MCTL's acceptance for a field: a root-only field from another context is illegal, and a value outside its column is
refused with 0x47. -/
def State.mctlOp (s : State) (i : Instr) (a b : GReg) (root : Bool) (ok : State → Word → Bool) : State :=
  s.guarded i fun s => s.deciding [a, b] fun s =>
    let f := (s.me.g a).val
    let v := (s.me.g b).val
    if root && realKey s.key % 16 != 0 then s.illegal
    else s.matCheck [(0x47, decide (6 < f.toNat) || !ok s v)]
      { kind := .mctl, key := s.key, x := f, y := v, instr := instrWord i }

/-- MCTL P; an undefined field number is refused here (R272, log 5). -/
def execMctlSetP (a b : GReg) (s : State) : Host.Outcome State Fault Refusal :=
  .next (s.mctlOp (.mctlSetP a b) a b false fun s v => (s.me.g a).val == 0 && (pcodeOf v).isSome)
/-- MCTL split mode (R272): the root context alone, and refused on a paired leaf. -/
def execMctlSetSplit (a b : GReg) (s : State) : Host.Outcome State Fault Refusal :=
  .next (s.mctlOp (.mctlSetSplit a b) a b true fun s v =>
    decide (v.toNat ≤ 1) && !(s.here.paired[keySet s.key]?).getD false)
/-- MCTL RHALF (R272): the root context alone, in split mode, and refused on a paired leaf. -/
def execMctlSetRhalf (a b : GReg) (s : State) : Host.Outcome State Fault Refusal :=
  .next (s.mctlOp (.mctlSetRhalf a b) a b true fun s v =>
    decide (v.toNat ≤ 1) && s.here.matrix.split && !(s.here.paired[keySet s.key]?).getD false)
/-- MCTL TOL (R272). -/
def execMctlSetTol (a b : GReg) (s : State) : Host.Outcome State Fault Refusal :=
  .next (s.mctlOp (.mctlSetTol a b) a b false fun _ v => okTol v)
/-- MCTL BNORM (R272). -/
def execMctlSetBnorm (a b : GReg) (s : State) : Host.Outcome State Fault Refusal :=
  .next (s.mctlOp (.mctlSetBnorm a b) a b false fun _ v => okTol v)
/-- MCTL CAP (R272). -/
def execMctlSetCap (a b : GReg) (s : State) : Host.Outcome State Fault Refusal :=
  .next (s.mctlOp (.mctlSetCap a b) a b false fun _ v => decide (v.toNat < 2 ^ 32))
/-- MCTL ITER (R272). -/
def execMctlSetIter (a b : GReg) (s : State) : Host.Outcome State Fault Refusal :=
  .next (s.mctlOp (.mctlSetIter a b) a b false fun _ v => decide (v.toNat < 2 ^ 32))

-- MMOVE, MWAIT and MSTAT (R252, R269, R270)

/-- Wait until everything that the half had accepted when the instruction was issued has completed (R252). The half is
the one bound at issue, whatever a change of mode or of RHALF binds later. -/
def State.matWait (s : State) (go : State → Nat → State) : State :=
  let (n, h) := match s.me.goal with
    | n :: h :: _ => (n, h)
    | _ => ((s.half s.core (s.here.halfNo s.key)).accepted, s.here.halfNo s.key)
  if n ≤ (s.half s.core h).completed then go s h
  else (s.modMe fun c => { c with goal := [n, h] }).wait .matWork

/-- The bytes of one element of a tag's format, or of a partial. -/
def elemBytes (tag : Ty) (partials : Bool) : Nat := if partials then 8 else tyBits tag / 8

/-- Bytes in pieces of an aligned 64-byte block, by their offset. -/
def blocks64 : Nat → Nat → Nat → List Byte → List (Nat × List Byte)
  | 0, _, _, _ => []
  | f + 1, ha, off, bs =>
    if bs.isEmpty then []
    else
      let m := 64 - (ha + off) % 64
      (off, bs.take m) :: blocks64 f ha (off + m) (bs.drop m)
/-- Write a region, each word's label the tile's (R269): to the own store at once, in its turn, and to another by messages
on the matrix path; MMOVE retires when all of them are performed. -/
def State.moveElems (s : State) (l : Loc) (va : Word) (lab : Handle) (bs : List Byte) : State :=
  let ps := blocks64 (bs.length / 64 + 2) l.ha 0 bs
  if l.home = s.core ∧ !s.inOwnTurn then s.wait .turn
  else
    ps.foldl (fun s p => s.dispatch l.home { s.req .xput { l with ha := l.ha + p.1 } (va + BitVec.ofNat 64 p.1) p.2.length with
      path := .mx, data := p.2, labs := [lab], wide := true })
      (s.modMe fun c => { c with out := .moved ps.length none, sent := none, run := .wait .reply })

/-- MMOVE (R269): after its wait it reports a fault, or writes the region. -/
def execMmove (b : GReg) (off : BitVec 40) (a : GReg) (s : State) : Host.Outcome State Fault Refusal :=
  .next (s.guarded (.mmove b off a) fun s => s.deciding [b, a] fun s =>
    let sel := (s.me.g a).val.toNat
    let tn := sel % 8
    let partials := sel.testBit 4
    let rows := if bitsAt sel 8 8 = 0 then s.here.rows s.key else bitsAt sel 8 8
    let cols := if bitsAt sel 16 8 = 0 then 64 else bitsAt sel 16 8
    match firstCode [(0x45, decide (5 < tn)), (0x46, sel / 2 ^ 24 != 0 || sel.testBit 3 || bitsAt sel 5 3 != 0 ||
        decide (s.here.rows s.key < rows) || decide (64 < cols))] with
    | 0 => s.matWait fun s h =>
        let x := s.half s.core h
        match x.fault with
        | some (code, q) => (s.modHalf s.core h fun x => { x with fault := none }).trap 0x1D code (BitVec.ofNat 64 q)
        | none =>
          let t := x.tile tn
          let size := elemBytes t.tag partials
          let va := s.me.eaOff b off
          match s.clusterSpot va size with
          | .error t => t
          | .ok l => match s.oneStore l.home [va.toNat + (rows * cols - 1) * size] with
            | .error t => t
            | .ok _ => s.moveElems l va t.lab ((List.range (rows * cols)).flatMap fun k =>
                let e := t.at_ (k / cols) (k % cols)
                leBytes size (if partials then e.2 else e.1).toNat)
    | c => s.trapOpen 0x17 c)

/-- The engine code of a half (R252). -/
def engineOf (h : Nat) : Nat := if h = 0 then 0x10 else 0x11

/-- MWAIT (R270): the half's unreported fault as a status. -/
def execMwait (d : GReg) (s : State) : Host.Outcome State Fault Refusal :=
  .next (s.guarded (.mwait d) fun s => s.matWait fun s h =>
    let (code, q) := (s.half s.core h).fault.getD (0, 0)
    ((s.modHalf s.core h fun x => { x with fault := none }).modMe fun c =>
      c.setG d ⟨statusWord code (engineOf h) q 0, 0⟩).retire)
/-- MSTAT (R270): the counters, which it clears. -/
def execMstat (d : GReg) (s : State) : Host.Outcome State Fault Refusal :=
  .next (s.guarded (.mstat d) fun s => s.matWait fun s h =>
    let v := (s.half s.core h).counters.toList.foldl (fun n x => n * 256 + x) 0
    ((s.modHalf s.core h fun x => { x with counters := Vector.replicate 8 0 }).modMe fun c =>
      c.setG d ⟨BitVec.ofNat 64 v, 0⟩).retire)

-- Operands as the engine reads them (R254, R257)

/-- What stops the reading of operands: a fault's code and the word's address (R254), or a block of another local store
that has to be read first, by a message (R21). -/
inductive MatStop where
  | fault (code : Nat) (va : Word)
  | need (home : CoreNo) (q : Req)

/-- The request for the 64-byte block that holds an operand word; `va` is the word's address. -/
def State.matReq (s : State) (core : CoreNo) (h : Nat) (r : MatRun) (l : Loc) (va : Nat) : Req :=
  let c := s.coreAt core
  let ha := l.ha / 64 * 64
  { act := .load, src := core, who := .matrix (c.tenantNo c.cur) h ha, part := s.partKey core r.op.key, path := .mx
    va := BitVec.ofNat 64 (va / 4 * 4), ha, localStore := true, n := 64, wide := true, owner := realKey r.op.key }

/-- Operand bytes that lie in one 64-byte block of a local store, with the handles of their words. -/
def State.blockBytes (s : State) (core : CoreNo) (h : Nat) (r : MatRun) (a n : Nat) : Except MatStop (List Byte × List Handle) :=
  match s.window core r.op.key a with
  | some (.error c) => .error (.fault c (BitVec.ofNat 64 (a / 4 * 4)))
  | none => .error (.fault 0x06 (BitVec.ofNat 64 (a / 4 * 4)))
  | some (.ok l) =>
    let words := (l.ha + n + 3) / 4 - l.ha / 4
    match (List.range words).find? fun i => s.store.bad.contains (l.ha / 4 + i) with
    | some i => .error (.fault 0x04 (BitVec.ofNat 64 (4 * (a / 4 + i))))
    | none =>
      if l.home = core then .ok (s.bytesAt l.ha n, (List.range words).map fun i => s.tagAt (4 * (l.ha / 4 + i)))
      else match r.got.find? fun p => p.1 == l.ha / 64 * 64 with
        | some p => .ok ((p.2.1.drop (l.ha % 64)).take n, (p.2.2.drop (l.ha % 64 / 4)).take words)
        | none => .error (.need l.home (s.matReq core h r l a))

/-- Operand bytes and the handles of their words, block by block. -/
def State.opBytes (s : State) (core : CoreNo) (h : Nat) (r : MatRun) : Nat → Nat → Nat → Except MatStop (List Byte × List Handle)
  | 0, _, _ => .ok ([], [])
  | f + 1, a, n =>
    if n = 0 then .ok ([], [])
    else
      let m := min n (64 - a % 64)
      match s.blockBytes core h r a m with
      | .error u => .error u
      | .ok (bs, hs) => match s.opBytes core h r f (a + m) (n - m) with
        | .error u => .error u
        | .ok (cs, gs) => .ok (bs ++ cs, hs ++ gs)

/-- The elements of an operand in element order with the handles read, and the code of the first compressed tile whose
length does not match, with its table entry's address (R293). -/
structure Elems where
  xs : List Nat := []
  labs : List Handle := []
  code : Nat := 0
  addr : Word := 0

/-- The elements that lie in a list of bytes, packed. -/
def elemsOf (bits n : Nat) (bs : List Byte) : List Nat :=
  (List.range n).map fun e =>
    bitsAt (leNat ((bs.drop (e * bits / 8)).take ((e * bits % 8 + bits + 7) / 8))) (e * bits % 8) bits

/-- Read the elements of a record one by one; one that takes part in nothing is not read. -/
def State.plainElems (s : State) (core : CoreNo) (h : Nat) (r : MatRun) (d : Shape) (used : Nat → Bool) : List Nat → Elems →
    Except MatStop Elems
  | [], acc => .ok { acc with xs := acc.xs.reverse }
  | e :: t, acc =>
    let b := d.bitAddr e
    if !used e then s.plainElems core h r d used t { acc with xs := 0 :: acc.xs }
    else match s.opBytes core h r 2 (b / 8) ((b % 8 + d.bits + 7) / 8) with
    | .error u => .error u
    | .ok (bs, hs) => s.plainElems core h r d used t
        { acc with xs := bitsAt (leNat bs) (b % 8) d.bits :: acc.xs, labs := (hs ++ acc.labs).eraseDups }

/-- Expand a compressed record tile by tile (R291, R292), `low` the bits that the tile before left over; an entry of a
reserved codec, or whose bytes leave the local store, is code 0x65. A tile with no element that takes part is not read. An
element of an integer format from an FP4 block with scale 0xFF is 0 and counts nowhere (DESIGN CHOICE, log 121). -/
def State.tileBytes (s : State) (core : CoreNo) (h : Nat) (r : MatRun) (d : Shape) (t : Ty) (used : Nat → Bool) : List Nat →
    Nat → List Byte → Elems → Except MatStop (List Byte × Elems)
  | [], _, bs, acc => .ok (bs, acc)
  | i :: rest, low, bs, acc =>
    let ea := d.base + 4 * i
    if !((List.range (32768 / d.bits + 2)).any fun j => used (32768 * i / d.bits + j)) then
      s.tileBytes core h r d t used rest 0 (bs ++ List.replicate (d.tileLen i) 0) acc
    else match s.opBytes core h r 2 ea 4 with
    | .error u => .error u
    | .ok (w, hs) =>
      let e := tileEntry (leNat w)
      if 5 ≤ e.codec ∨ (e.size ≠ 0 ∧ (d.base + e.off + e.size - 1) / 2 ^ 20 ≠ d.base / 2 ^ 20) then
        .error (.fault 0x65 (BitVec.ofNat 64 ea))
      else match s.opBytes core h r (e.size / 64 + 2) (d.base + e.off) e.size with
        | .error u => .error u
        | .ok (cs, gs) =>
          let x := decodeTile t e.codec (d.tileLen i) (d.tileElems i) (d.tileLead i) low cs
          let acc := { acc with labs := (hs ++ gs ++ acc.labs).eraseDups }
          s.tileBytes core h r d t used rest x.spare (bs ++ x.bytes)
            (if acc.code = 0 ∧ x.code ≠ 0 then { acc with code := x.code, addr := BitVec.ofNat 64 ea } else acc)

/-- The elements of an operand record that take part. -/
def State.readElems (s : State) (core : CoreNo) (h : Nat) (r : MatRun) (d : Shape) (used : Nat → Bool) : Except MatStop Elems :=
  let used := fun e => decide (e < d.count) && used e
  if d.comp then
    match s.tileBytes core h r d (d.ty.getD .i8) used (List.range d.tiles) 0 [] {} with
    | .error u => .error u
    | .ok (bs, e) => .ok { e with xs := elemsOf d.bits d.count bs }
  else s.plainElems core h r d used (List.range d.count) {}

/-- The granules from a skip list (R260): whether granule `g` is kept, as the list's entries give it from granule
`done` on, with the handles read. Every MMUL walks the list from its first entry (DESIGN CHOICE, log 118). -/
def State.skipKeeps (s : State) (core : CoreNo) (h : Nat) (r : MatRun) : Nat → Nat → Nat → Nat → Except MatStop (Bool × List Handle)
  | 0, _, _, _ => .ok (true, [])
  | f + 1, a, done, g =>
    match s.opBytes core h r 2 a 2 with
    | .error u => .error u
    | .ok (w, hs) =>
      let e := leNat w
      if e = 0 then .ok (true, hs)
      else if g < done + e % 256 then .ok (false, hs)
      else if g < done + e % 256 + e / 256 then .ok (true, hs)
      else match s.skipKeeps core h r f (a + 2) (done + e % 256 + e / 256) g with
        | .error u => .error u
        | .ok (k, gs) => .ok (k, hs ++ gs)

/-- The kept K-steps of an MMUL (R260, R262) with the handles of the skip list. -/
def State.keptSteps (s : State) (core : CoreNo) (h : Nat) (r : MatRun) (k : KSkip) : List Nat → Except MatStop (List Nat × List Handle)
  | [] => .ok ([], [])
  | g :: t =>
    match s.skipKeeps core h r (k.pos + g + 1) k.list.toNat 0 (k.pos + g), s.keptSteps core h r k t with
    | .ok (keep, hs), .ok (ks, gs) =>
      .ok ((if keep then (List.range 8).map fun i => r.op.koff + 8 * g + i else []) ++ ks, (hs ++ gs).eraseDups)
    | .error u, _ | _, .error u => .error u

/-- The cores whose local stores hold an instruction's operands. -/
def State.opHomes (s : State) (core : CoreNo) (op : MatOp) : List CoreNo :=
  let at_ := fun (a : Nat) => match s.window core op.key a with | some (.ok l) => [l.home] | _ => []
  match op.kind with
  | .mmul | .mslice => at_ op.a.base ++ (if op.port then [] else at_ op.b.base)
  | .msca => at_ op.x.toNat ++ at_ op.y.toNat
  | _ => []

/-- A byte of the stream port that B still needs. -/
def MatRun.need (r : MatRun) : Nat := if r.op.port then r.op.b.bytes - r.fed.length else 0

/-- The K-steps of an instruction that take part (R250): those that are left where it reads its operands again. -/
def State.runSteps (s : State) (core : CoreNo) (h : Nat) (r : MatRun) : Except MatStop (List Nat × List Handle) :=
  let op := r.op
  if r.stage = .again then .ok (r.steps, [])
  else match op.kreg with
    | some k => s.keptSteps core h r ((s.ctxAt core op.key).regs.k[k]) (List.range (op.klen / 8))
    | none => .ok ((List.range op.klen).map (op.koff + ·), [])

/-- An instruction with its operands read (R254, R257, R259), of A and B the K-steps that take part. A B record from the
stream port is the record's count of elements, dense and uncompressed, and keeps its own record's checks (DESIGN CHOICE,
log 119). -/
def State.matPrep (s : State) (core : CoreNo) (h : Nat) (r : MatRun) : Except MatStop MatRun :=
  let op := r.op
  let done := fun (r : MatRun) => { r with stage := .read, got := [] }
  match op.kind with
  | .mmul | .mslice =>
    match s.runSteps core h r with
    | .error u => .error u
    | .ok (ks, hs) =>
      match s.readElems core h r op.a fun e => ks.contains (e % op.a.ext 0) with
      | .error u => .error u
      | .ok a =>
        match if op.port then .ok { xs := r.b } else s.readElems core h r op.b fun e => ks.contains (e / op.b.ext 0) with
        | .error u => .error u
        | .ok b =>
          let bad := if a.code ≠ 0 then (a.code, a.addr.toNat) else (b.code, b.addr.toNat)
          .ok (done { r with
            a := a.xs, b := b.xs, labs := (a.labs ++ b.labs ++ hs ++ r.labs).eraseDups, steps := ks
            ready := if r.stage = .first then !op.port else r.ready
            granule := match r.stage, op.kreg with
              | .first, some k => (s.ctxAt core op.key).regs.k[k].pos
              | _, _ => r.granule
            code := if r.code = 0 then bad.1 else r.code
            frec := if r.code = 0 then bad.2 else r.frec })
  | .msca =>
    let n := (s.coreAt core).rows op.key
    match s.opBytes core h r (n / 64 + 2) op.x.toNat n, s.opBytes core h r 3 op.y.toNat 64 with
    | .ok (a, hs), .ok (b, gs) =>
      .ok (done { r with a := a.map (·.toNat), b := b.map (·.toNat), labs := (hs ++ gs ++ r.labs).eraseDups })
    | .error u, _ | _, .error u => .error u
  | _ => .ok (done r)

-- MMUL (R262, R263)

/-- One inner sum with its saturation in raw integer mode (R263). R50 gives the sum any order of K-steps: saturated, it
depends on the order, and the model adds them in ascending order and saturates after each (DESIGN CHOICE, log 109). -/
def innerSum (raw nat_ : Bool) (xs : List (Int × Int)) : Int × Bool :=
  let lo : Int := if nat_ then 0 else -(2 ^ 23)
  let hi : Int := if nat_ then 2 ^ 24 - 1 else 2 ^ 23 - 1
  xs.foldl (fun acc p =>
    let v := acc.1 + p.1 * p.2
    if raw ∧ (v < lo ∨ hi < v) then (max lo (min hi v), true) else (v, acc.2)) (0, false)

/-- A promoted partial and whether it saturated (R262). -/
def promote (old : Word) (fresh : Bool) (inner : Int) : Word × Bool :=
  let v : Int := if fresh then inner else old.toInt + inner
  let lim : Int := 2 ^ 47 - 1
  (BitVec.ofInt 64 (max (-lim) (min lim v)), decide (lim < v) || decide (v < -lim))

/-- One promotion of an MMUL. -/
def Half.mmulCommit (x : Half) (r : MatRun) : Half :=
  let op := r.op
  let p := 32 * 2 ^ x.pcode
  let ks := r.steps.take p
  let raw := decide (512 ≤ p) && (op.t == .i8 || op.t == .n8)
  let ka := op.a.ext 0
  let cb := op.b.ext 0
  let ta := op.a.ty.getD .i8
  let tb := op.b.ty.getD .i8
  let neg : Int := if op.neg then -1 else 1
  let av := fun i k => neg * entryOf ta op.a.shift (r.a.getD (i * ka + k) 0)
  let bv := fun k j => entryOf tb op.b.shift (r.b.getD (k * cb + j) 0)
  let tern := if ta = .t2 then
    ((List.range op.a.ext1).map fun i => (ks.filter fun k => r.a.getD (i * ka + k) 0 == 2).length).foldl (· + ·) 0 else 0
  let cells := (List.range op.a.ext1).flatMap fun i => (List.range cb).map fun j => (i, j)
  cells.foldl (fun x ij =>
    let (inner, ov) := innerSum raw (op.t == .n8) (ks.map fun k => (av ij.1 k, bv k ij.2))
    let e := (x.tile op.tile).at_ ij.1 ij.2
    let (q, sat) := promote e.2 (op.nacc && r.pass == 0) inner
    ((x.modTile op.tile fun t => t.put ij.1 ij.2 (e.1, q)).bump 6 sat.toNat).bump 7 ov.toNat) (x.bump 5 tern)

-- MSCA (R264)

/-- The exponent of an entry (R264). -/
def entryExp : Ty → Int
  | .e2m1 => 2
  | .e2m3 => 6
  | _ => 0

/-- MSCA on every element of the half. -/
def Half.mscaRun (x : Half) (r : MatRun) (rows : Nat) : Half :=
  let cells := (List.range rows).flatMap fun i => (List.range 64).map fun j => (i, j)
  let x := cells.foldl (fun x ij =>
    let e := (x.tile r.op.tile).at_ ij.1 ij.2
    let rs := r.a.getD ij.1 0
    let cs := r.b.getD ij.2 0
    let p := e.2.toInt
    let (v, f) : Nat × Flags :=
      if rs = 255 ∨ cs = 255 then (nanCode .f32, fIV)
      else if p = 0 then (e.1.toNat, 0)
      else addV .f32 .rne false (decF .f32 (e.1.toNat % 2 ^ 32))
        (.fin (decide (p < 0)) p.natAbs ((rs : Int) + cs - 254 - entryExp r.op.t))
    (x.modTile r.op.tile fun t => t.put ij.1 ij.2 (BitVec.ofNat 64 v, 0)).flags f) x
  x.modTile r.op.tile fun t => { t with tag := .f32 }

-- MSLICE (R265, R266)

/-- A value times 2^k cut toward zero. -/
def cutInt (v : FVal) (k : Int) : Int :=
  match v with
  | .fin s m e => let n : Int := ((cutAt m (e + k) false 0).1 : Nat); if s then -n else n
  | _ => 0

/-- The scale exponent of a K-block, none when every element is zero. -/
def blockExp (xs : List FVal) : Option Int := (maxLead xs).map (· + 1)

/-- The digits d_s of a block (R265). -/
def digits (s : Nat) (l : Int) (xs : List FVal) : List Int :=
  xs.map fun v => cutInt v (7 * s - l) - 2 ^ 7 * cutInt v (7 * (s - 1 : Nat) - l)

/-- The elements of a row of A, or a column of B, in K-block b. -/
def blockOf (b : Nat) (xs : List FVal) : List FVal := (xs.drop (256 * b)).take 256

/-- A row or column that holds a NaN or an infinity. -/
def poisoned (xs : List FVal) : Bool := xs.any fun v => match v with | .fin .. => false | _ => true

/-- The passes in ascending s then t (R265). -/
def passesOf (n : Nat) : List (Nat × Nat) :=
  (List.range n).flatMap fun s => (List.range (n - s)).map fun t => (s + 1, t + 1)

/-- The lane's width (R266). -/
def laneWidth : Ty → Int
  | .f64 => 192
  | .f32 => 96
  | _ => 64

/-- The bottom of an element's lane (R266): 18 − W above the largest block scale; none when no block counts. -/
def laneBottom (t : Ty) (nb : Nat) (ra cb : List FVal) : Option Int :=
  let es := (List.range nb).filterMap fun b => match blockExp (blockOf b ra), blockExp (blockOf b cb) with
    | some x, some y => some (x + y)
    | _, _ => none
  match es with
  | [] => none
  | e :: t' => some (t'.foldl max e + 18 - laneWidth t)

/-- The rows of A and the columns of B as values. -/
def MatRun.rowA (r : MatRun) (i : Nat) : List FVal :=
  (List.range (r.op.a.ext 0)).map fun k => decF r.op.t (r.a.getD (i * r.op.a.ext 0 + k) 0)
/-- A column of B. -/
def MatRun.colB (r : MatRun) (j : Nat) : List FVal :=
  (List.range (r.op.a.ext 0)).map fun k => decF r.op.t (r.b.getD (k * r.op.b.ext 0 + j) 0)

/-- K-blocks of an MSLICE. -/
def MatRun.blocks (r : MatRun) : Nat := (r.op.a.ext 0 + 255) / 256

/-- One pass of one K-block (R265, R266). -/
def MatRun.slicePass (r : MatRun) : MatRun :=
  let ps := passesOf r.op.s
  let b := r.pass / ps.length
  let (s, t) := ps.getD (r.pass % ps.length) (1, 1)
  let cells := (List.range r.op.a.ext1).flatMap fun i => (List.range (r.op.b.ext 0)).map fun j => (i, j)
  let r' := cells.foldl (fun (r' : MatRun) ij =>
    let ra := r.rowA ij.1
    let cb := r.colB ij.2
    if poisoned ra || poisoned cb then r'
    else match laneBottom r.op.t r.blocks ra cb, blockExp (blockOf b ra), blockExp (blockOf b cb) with
      | some bottom, some x, some y =>
        let d := (((digits s x (blockOf b ra)).zip (digits t y (blockOf b cb))).map fun p => p.1 * p.2).foldl (· + ·) 0
        let e := x + y - 7 * (s + t)
        let n := 64 * ij.1 + ij.2
        let old := (assoc r'.wide n).getD 0
        let term : Int := if bottom ≤ e then d * 2 ^ (e - bottom).toNat else Int.tdiv d (2 ^ (bottom - e).toNat)
        let cut := decide (e < bottom) && decide (term * 2 ^ (bottom - e).toNat ≠ d)
        { r' with wide := assocSet r'.wide n (old + term), floor := if cut && !r'.floor.contains n then n :: r'.floor else r'.floor }
      | _, _, _ => r') r
  { r' with pass := r.pass + 1 }

/-- The single rounding of an MSLICE (R265). -/
def Half.sliceRound (x : Half) (r : MatRun) : Half :=
  let op := r.op
  let cells := (List.range op.a.ext1).flatMap fun i => (List.range (op.b.ext 0)).map fun j => (i, j)
  let x := cells.foldl (fun x ij =>
    let ra := r.rowA ij.1
    let cb := r.colB ij.2
    let e := (x.tile op.tile).at_ ij.1 ij.2
    let w := (assoc r.wide (64 * ij.1 + ij.2)).getD 0
    let tv : Int := if op.neg then -w else w
    let q := (laneBottom op.t r.blocks ra cb).getD 0
    let (v, f) : Nat × Flags :=
      if poisoned ra || poisoned cb then (nanCode op.t, fIV)
      else if op.nacc then roundInt op.t .rne false tv q false
      else addV op.t .rne false (decF op.t (e.1.toNat % 2 ^ tyBits op.t)) (.fin (decide (tv < 0)) tv.natAbs q)
    (x.modTile op.tile fun t => t.put ij.1 ij.2 (BitVec.ofNat 64 v, e.2)).flags f) x
  (x.bump 4 r.floor.length).modTile op.tile fun t => { t with tag := op.t }

-- RTEST (R273)

/-- The larger of two exact magnitudes. -/
def maxMag (a b : Nat × Int) : Nat × Int := if cmpV false (.fin false a.1 a.2) (.fin false b.1 b.2) = .lt then b else a

/-- RTEST's code: 1 converged, 2 cap reached, 0 continue. -/
def Half.rtestCode (x : Half) (r : MatRun) : Nat :=
  let t := x.tile r.op.tile
  let vs := (List.range (r.op.rows * r.op.cols)).map fun k =>
    decF t.tag ((t.at_ (k / r.op.cols) (k % r.op.cols)).1.toNat % 2 ^ tyBits t.tag)
  let norm := vs.foldl (fun acc v => match v with | .fin _ m e => maxMag acc (m, e) | _ => acc) (0, 0)
  let bound := (mulV (decF .f64 x.tol.toNat) (decF .f64 x.bnorm.toNat)).1
  if !poisoned vs && cmpV false (.fin false norm.1 norm.2) bound != .gt then 1
  else if x.cap ≠ 0 ∧ x.cap ≤ x.iter then 2
  else 0

-- Commits, completion and faults (R252, R254, R255, R274)

/-- Put an instruction in progress back. -/
def State.putRun (s : State) (core : CoreNo) (h : Nat) (r : MatRun) : State := s.modHalf core h fun x => { x with run := some r }

/-- The k register of a half (R248), which every context bound to it holds as its own (R366): those that agree with the acting
instruction's take a new value, or all of them (DEDUCED, log 11). -/
def CoreSt.bindK (c : CoreSt) (key : Nat) (k : KReg) (all : Bool) (v : KSkip) : CoreSt :=
  let old := (c.ctxAt key).regs.k[k]
  (List.range 64).foldl (fun c' n =>
    let x := c.ctxAt n
    if c.tenantNo (keySet n) = c.tenantNo (keySet key) ∧ c.halfNo n = c.halfNo key ∧ (all ∨ x.regs.k[k] = old) ∧ x.regs.k[k] ≠ v
    then c'.setCtx n (x.setK k v) else c') c

/-- Fold the tile's label (R250): the conjunction of the previous one, unless .nacc, and every handle read. A set that
cannot be interned is the fault 0x50. -/
def State.foldTile (s : State) (core : CoreNo) (h : Nat) (r : MatRun) : State :=
  let old := ((s.half core h).tile r.op.tile).lab
  match s.homeConjs core r.op.part ((if r.op.nacc then 0 else old) :: r.labs) with
  | .error _ => s.putRun core h { r with stop := some (0x50, BitVec.ofNat 64 r.op.tile) }
  | .ok (l, s) => (s.modHalf core h fun x => x.modTile r.op.tile fun t => { t with lab := l }).putRun core h
      { r with done := true }

/-- A compressed operand whose tile had another length than declared: its address is logged and the token tells
(R293). -/
def State.logLength (s : State) (core : CoreNo) (r : MatRun) : State × MatRun :=
  if r.code = 0 then (s, { r with frec := 0 })
  else
    let (q, s) := s.logError r.op.part r.code (BitVec.ofNat 64 r.frec) core (realKey r.op.key % 16) 0
    (s, { r with frec := q })

/-- A half has completed what it had accepted before a change of split mode, but for another such change that waits in
turn (R272). -/
def Half.idleFor (x : Half) (num : Nat) : Bool :=
  x.run.isNone && (match x.queue with
    | [] => true
    | op :: _ => op.kind == .mctl && op.x == 1 && decide (num < op.num))

/-- One commit of the instruction in progress. The count of an MMUL is its K length, skipped K-steps among them (DESIGN
CHOICE, log 117). A change of split mode waits until the other half has completed its accepted work (R272). -/
def State.matCommit1 (s : State) (core : CoreNo) (h : Nat) (r : MatRun) : State :=
  let x := s.half core h
  match r.op.kind with
  | .mmul =>
    let p := 32 * 2 ^ x.pcode
    let s := s.modHalf core h fun x => x.mmulCommit r
    let rest := r.steps.drop p
    let s := match r.op.kreg with
      | some k => s.modCore core fun c => c.bindK r.op.key k false { (c.ctxAt r.op.key).regs.k[k] with
          pos := r.granule + (match rest with | g :: _ => (g - r.op.koff) / 8 | [] => r.op.klen / 8) }
      | none => s
    let r := { r with steps := rest, pass := r.pass + 1, count := r.op.klen }
    if rest.isEmpty then (let (s, r) := s.logLength core r; s.foldTile core h r) else s.putRun core h r
  | .mslice =>
    let r := { r.slicePass with count := r.op.klen }
    if r.pass < r.blocks * (passesOf r.op.s).length then s.putRun core h r
    else
      let (s, r) := s.logLength core r
      (s.modHalf core h fun x => x.sliceRound r).foldTile core h r
  | .msca => (s.modHalf core h fun x => x.mscaRun r ((s.coreAt core).rows r.op.key)).foldTile core h r
  | .mzero => (s.modHalf core h fun x => x.modTile r.op.tile fun _ => {}).putRun core h { r with done := true }
  | .rtest =>
    let x := { x with iter := x.iter + 1 }
    let s := s.modHalf core h fun _ => x
    let lab := s.resolveAt r.op.part (x.tile r.op.tile).lab
    let code := if lab = hiddenH then 0x55 else if lab ≠ 0 then 0x54 else x.rtestCode r
    let (q, s) := if 0x54 ≤ code then
        s.logError r.op.part code (BitVec.ofNat 64 r.op.tile) core (realKey r.op.key % 16) 0 else (0, s)
    s.putRun core h { r with done := true, code := code, count := x.iter.toNat, frec := q }
  | .kset => (s.modCore core fun c => match r.op.kreg with
      | some k => c.bindK r.op.key k true { list := r.op.x, pos := 0 }
      | none => c).putRun core h { r with done := true }
  | .mctl =>
    let v := r.op.y
    if r.op.x = 1 ∧ !(s.half core (1 - h)).idleFor r.op.num then s
    else
    let s := match r.op.x.toNat with
      | 0 => s.modHalf core h fun x => { x with pcode := (pcodeOf v).getD x.pcode }
      | 1 => s.modCore core fun c =>
          let clear := fun (x : Half) => { x with tiles := Vector.replicate 6 {}, counters := Vector.replicate 8 0 }
          { c with matrix := { c.matrix with split := v == 1, h0 := clear c.matrix.h0, h1 := clear c.matrix.h1 } }
      | 2 => s.modCore core fun c => { c with matrix := { c.matrix with rhalf := v == 1 } }
      | 3 => s.modHalf core h fun x => { x with tol := v }
      | 4 => s.modHalf core h fun x => { x with bnorm := v }
      | 5 => s.modHalf core h fun x => { x with cap := v.setWidth 32 }
      | _ => s.modHalf core h fun x => { x with iter := v.setWidth 32 }
    s.putRun core h { r with done := true }

/-- The bytes of a cancelled instruction's B record that the stream port will discard (R283). -/
def State.discardB (s : State) (core : CoreNo) (r : MatRun) : State :=
  if r.need = 0 ∨ r.cut then s
  else s.modCore core fun c => { c with matrix := { c.matrix with
    discards := c.matrix.discards ++ [(r.op.num, r.need, !r.fed.isEmpty)] } }

/-- Free values for every element of a tile that a fault left undefined (R254, log 13). -/
def wildTile (tick rows : Nat) : Tile :=
  { elems := (List.range (64 * rows)).map fun n =>
      (n, (Config.tileWord tick (n / 64) (n % 64), Config.tileWord tick (n / 64) (64 + n % 64)))
    tag := match (Config.tileWord tick rows 0).toNat % 4 with | 0 => .f64 | 1 => .f32 | 2 => .f16 | _ => .bf16
    lab := (Config.tileWord tick rows 1).setWidth 16 }

/-- The kinds that write a tile. -/
def MatKind.writes : MatKind → Bool
  | .mmul | .msca | .mslice => true
  | _ => false

/-- An instruction of a half is over: its token takes the status (R252). -/
def State.matEnd (s : State) (core : CoreNo) (h : Nat) (r : MatRun) (code frec count : Nat) : State :=
  let s := s.modHalf core h fun x => { x with run := none, completed := x.completed + 1 }
  if r.op.tok = 0 then s
  else s.writeToken core (realKey r.op.key) r.op.tok ⟨statusWord code (engineOf h) frec count, 0⟩

/-- An execution fault (R254, R255): logged with PC 0, the tile undefined, the half faulted. The count of its status is
free (log 13). What a copy has still to deliver of its B record is discarded (R283). -/
def State.matFault1 (s : State) (core : CoreNo) (h : Nat) (r : MatRun) (code : Nat) (addr : Word) : State :=
  let (q, s) := s.logError r.op.part code addr core (realKey r.op.key % 16) 0
  let (tick, s) := s.draw
  let rows := (s.coreAt core).rows r.op.key
  let s := s.modHalf core h fun x =>
    let x := if r.op.kind.writes then x.modTile r.op.tile fun _ => wildTile tick rows else x
    { x with fault := some (code, q) }
  (s.discardB core r).matEnd core h r code q (Config.faultCount tick).toNat

/-- An MMOVE of the half whose wait is over, which reads its tile before a later instruction starts (R252, R277). -/
def State.moveFirst (s : State) (core : CoreNo) (h : Nat) : Bool :=
  let c := s.coreAt core
  c.ctxs.any fun p => (p.2.run == .wait .matWork || p.2.run == .wait .turn) && keySet p.1 == c.cur && decide (p.1 < 64) && !p.2.stopped &&
    (match p.2.goal with | n :: k :: _ => k == h && decide (n ≤ (c.matrix.half h).completed) | _ => false) &&
    (match p.2.inst with | some i => (match i.i1 with | .mmove .. => true | _ => false) | none => false)

/-- Engines of the core run on: no stop and no engine-freeze (R275, R378). -/
def CoreSt.enginesRun (c : CoreSt) : Bool := c.live && !c.freeze

-- Events

/-- The queued matrix instructions, executed again by a context that has waited for an entry. -/
def matAgain (i : Instr) (s : State) : Host.Outcome State Fault Refusal :=
  match i with
  | .mmul t neg nacc tok c a b k => execMmul t neg nacc tok c a b k s
  | .msca t tok c a b => execMsca t tok c a b s
  | .msliceReg t neg nacc tok c a b r => execMsliceReg t neg nacc tok c a b r s
  | .msliceImm t neg nacc tok c a b v => execMsliceImm t neg nacc tok c a b v s
  | .mzero tok c => execMzero tok c s
  | .rtest tok c a => execRtest tok c a s
  | .kset k a => execKset k a s
  | .mctlSetP a b => execMctlSetP a b s
  | .mctlSetSplit a b => execMctlSetSplit a b s
  | .mctlSetRhalf a b => execMctlSetRhalf a b s
  | .mctlSetTol a b => execMctlSetTol a b s
  | .mctlSetBnorm a b => execMctlSetBnorm a b s
  | .mctlSetCap a b => execMctlSetCap a b s
  | .mctlSetIter a b => execMctlSetIter a b s
  | _ => .next s
/-- A context executes again, as itself, the instruction that it is held at. -/
def State.again (s : State) (core : CoreNo) (key : Nat) (f : Instr → State → Host.Outcome State Fault Refusal) : State :=
  match (s.ctxAt core key).inst with
  | some i => s.asCtx core key fun t => match f i.i1 t with | .next u => u | _ => t
  | none => s

/-- MATRIX_QUEUE_ACCEPT (R252, R253): when an entry frees, the first waiting context's instruction is checked in full
and accepted, its records read now. -/
def execMatrixQueueAccept (core : CoreNo) (h : Fin 2) (s : State) : Host.Outcome State Fault Refusal :=
  .next (
    let x := s.half core h.val
    match s.firstOffer core .matQueue x.offers with
    | some key => if x.queue.length < 2 then s.again core key matAgain else s
    | none => s)

/-- Read the operands of the instruction in progress, as far as they are to be had: what another local store holds is asked
for, and a core that a stop has halted is code 0x53 (R254). -/
def State.matFetch (s : State) (core : CoreNo) (h : Nat) (r : MatRun) : State :=
  match (s.opHomes core r.op).find? fun t => t != core && (s.coreAt t).stopped with
  | some t => s.putRun core h { r with stop := some (0x53, t.setWidth 64) }
  | none => match s.matPrep core h r with
    | .ok r => s.putRun core h r
    | .error (.fault c a) => s.putRun core h { r with stop := some (c, a) }
    | .error (.need home q) => (s.putRun core h { r with asked := some q.ha }).dispatch home q

/-- MATRIX_INSTR_START (R252): the half starts the next accepted instruction; in the faulted state it cancels it with
code 0x5F (R255). A change of split mode waits for the other half (R272). -/
def execMatrixInstrStart (core : CoreNo) (h : Fin 2) (s : State) : Host.Outcome State Fault Refusal :=
  .next (
    let c := s.coreAt core
    let x := s.half core h.val
    let other := s.half core (1 - h.val)
    match x.run, x.queue with
    | none, op :: rest =>
      if !c.enginesRun || s.moveFirst core h.val then s
      else if op.kind = .mctl ∧ op.x = 1 ∧ x.fault.isNone ∧ !other.idleFor op.num then s
      else
        let s := s.modHalf core h.val fun x => { x with queue := rest }
        if x.fault.isSome then
          let r : MatRun := { op }
          (s.discardB core r).putRun core h.val { r with done := true, code := 0x5F }
        else s.matFetch core h.val { op }
    | _, _ => s)

/-- MATRIX_COMMIT (R274): a promotion, a pass, or a short instruction as a whole; before it, what is left of its operands is
read, and after a stop they are read again (R383; for an MMUL DEDUCED, log 123). -/
def execMatrixCommit (core : CoreNo) (h : Fin 2) (s : State) : Host.Outcome State Fault Refusal :=
  .next (match (s.half core h.val).run with
    | some r => if !(s.coreAt core).enginesRun || r.done || r.stop.isSome || r.asked.isSome then s
      else if r.stage ≠ .read then s.matFetch core h.val r
      else if !r.ready then s
      else s.matCommit1 core h.val r
    | none => s)

/-- MATRIX_COMPLETE (R252): a finished instruction writes its token, unless a stop or engine-freeze holds the half at
its commit point (R275). -/
def execMatrixComplete (core : CoreNo) (h : Fin 2) (s : State) : Host.Outcome State Fault Refusal :=
  .next (match (s.half core h.val).run with
    | some r => if r.done && (s.coreAt core).enginesRun then s.matEnd core h.val r r.code r.frec r.count else s
    | none => s)

/-- MATRIX_FAULT (R254): the fault that the instruction has met, or an uncorrectable operand word (log 25). -/
def execMatrixFault (core : CoreNo) (h : Fin 2) (code : Byte) (addr : Word) (s : State) : Host.Outcome State Fault Refusal :=
  .next (if !(s.coreAt core).enginesRun then s else match (s.half core h.val).run with
    | some r => if r.asked.isSome then s else match r.done, r.stop with
      | false, some (c, a) => s.matFault1 core h.val r c a
      | false, none => if code = 0x04 ∧ r.op.kind.writes then s.matFault1 core h.val r 0x04 addr else s
      | true, _ => s
    | none => s)

end Sys2Proof.Machine
end

