-- ==== Sys2Proof/Machine/Engines.lean ====
section
/-!
DEFINITION. The copy and transform engines (R278 to R295), major codes 0xB0 to 0xB3: acceptance with its checks, the
copies and the transforms commit by commit, their faults and their ends. An engine reads and writes its own core's local
store itself, and other homes by messages, a piece of 64 bytes at a time (R281, R317). A write that an engine has made may
be held back from the other paths until a fence drains it (R189, R284, log 16).
-/
namespace Sys2Proof.Machine

-- Acceptance (R278, R280)

/-- The engine code of a token (R278). -/
def engCode : Eng → Nat
  | .copy => 0x20
  | .xform => 0x21
/-- The path of an engine (R189). -/
def engPath : Eng → Path
  | .copy => .cp
  | .xform => .xf
/-- An engine of a core. -/
def State.eng (s : State) (core : CoreNo) (e : Eng) : Engine := (s.coreAt core).eng e
/-- Change an engine. -/
def State.modEng (s : State) (core : CoreNo) (e : Eng) (f : Engine → Engine) : State :=
  s.modCore core fun c => c.modEng e f

/-- Accept an operation into its engine's queue: its token becomes pending and its context's instruction retires. -/
def State.engAccept (s : State) (core : CoreNo) (e : Eng) (op : EngOp) : State :=
  let s := s.modEng core e fun g => { g with queue := g.queue ++ [op], accepted := g.accepted + 1 }
  s.asCtx core op.key fun s => (s.markToken op.tok).retire
/-- Offer an operation to its engine: it is accepted when an entry is free and no other context came first, else its
context waits, and the instruction is executed again when an entry frees. -/
def State.engOffer (s : State) (e : Eng) (op : EngOp) : State :=
  let g := s.eng s.core e
  let op := { op with key := s.key, part := s.part, pc := s.me.pc }
  let line := s.inLine (.engQueue e) g.offers
  if s.leads line ∧ g.queue.length < 2 then
    (s.modEng s.core e fun g => { g with offers := line.filter (· != s.key) }).engAccept s.core e op
  else (s.modEng s.core e fun g => { g with offers := line }).waitEntry (.engQueue e)

/-- A local store address of the partition, which may lie in any compute core of its reach (R168, R364), aligned (R280,
R406). -/
def State.localSpot (s : State) (va : Word) (align : Nat) : Except State Loc :=
  match s.window s.core s.key va.toNat with
  | some (.error c) => .error (s.refuseHere c va)
  | none => .error (s.refuseHere 0x06 va)
  | some (.ok l) => if va.toNat % align ≠ 0 then .error (s.trap 0x07 0 va) else .ok l

/-- The barrier operand of a .bar form, checked; none for a form without one. -/
def State.barSpot (s : State) (b : Option BarOp) : Except State (Option Word) :=
  match b with
  | none => .ok none
  | some b =>
    let va := s.me.eaOff b.reg (b.off.signExtend 40)
    (s.localSpot va 16).map fun _ => some va

/-- CPYG's and CPYS's descriptor (R282), or the trap that rejects it. -/
def State.gather (s : State) (va : Word) : Except State EngOp :=
  match s.record va 16 16 with
  | .error t => .error t
  | .ok d =>
    let iw := bitsAt d 112 2
    let rows := bitsAt d 88 24
    let rowb := bitsAt d 64 24
    let list := bitsAt d 0 57
    if d / 2 ^ 114 ≠ 0 ∨ bitsAt d 57 7 ≠ 0 ∨ 1 < iw ∨ rows = 0 ∨ rowb = 0 ∨ list % (2 + 2 * iw) ≠ 0 ∨ 2 ^ 32 ≤ rows * rowb
    then .error (s.trapOpen 0x17 0x0C)
    else .ok { kind := .cpyg, key := 0, tok := 0, list := BitVec.ofNat 64 list, iw := 2 + 2 * iw, rows, rowb,
               bytes := rows * rowb }

/-- The acceptance of a copy (R280). -/
def State.copyOp (s : State) (i : Instr) (kind : EngKind) (tok d a n : GReg) (b : Option BarOp) : State :=
  s.guarded i fun s => s.deciding ([d, a, n] ++ barRegs b) fun s =>
    match s.barSpot b with
    | .error t => t
    | .ok bar =>
      let x := s.me
      let op : Except State EngOp :=
        if kind = .cpy then
          (if 2 ^ 32 ≤ (x.g n).val.toNat then .error (s.trapOpen 0x17 0x0C)
           else .ok { kind, key := 0, tok, rows := 1, rowb := (x.g n).val.toNat, bytes := (x.g n).val.toNat })
        else s.gather (x.g n).val
      match op with
      | .error t => t
      | .ok op => s.engOffer .copy
          { op with kind, tok, bar, opa := (x.g d).val, opb := (x.g a).val, cnt := (x.g n).val, instr := instrWord i }

/-- CPY (R281): its acceptance. -/
def execCpy (tok d a n : GReg) (b : Option BarOp) (s : State) : Host.Outcome State Fault Refusal :=
  .next (s.copyOp (.cpy tok d a n b) .cpy tok d a n b)
/-- CPYG (R282): its acceptance. -/
def execCpyg (tok d a x : GReg) (b : Option BarOp) (s : State) : Host.Outcome State Fault Refusal :=
  .next (s.copyOp (.cpyg tok d a x b) .cpyg tok d a x b)
/-- CPYS (R282): its acceptance. -/
def execCpys (tok d a x : GReg) (b : Option BarOp) (s : State) : Host.Outcome State Fault Refusal :=
  .next (s.copyOp (.cpys tok d a x b) .cpys tok d a x b)

/-- A type of a record meets a test. -/
def Shape.tyIs (r : Shape) (p : Ty → Bool) : Bool := match r.ty with | some t => p t | none => false
/-- The source formats of transforms 1, 3 and 4 (R290). -/
def packTy : Ty → Bool
  | .f32 | .f16 | .bf16 => true
  | _ => false
/-- The formats of the delta transforms (R290). -/
def deltaTy : Ty → Bool
  | .i32 | .n32 => true
  | _ => false
/-- What transform n asks of its source record (R290); the span of transform 8 is that of the highest dimension (DEDUCED,
log 122). -/
def xfSource (n : Nat) (r : Shape) : Bool :=
  match n with
  | 0 => true
  | 2 => r.comp
  | 1 | 3 | 4 => r.tyIs packTy && !r.comp
  | 5 => r.tyIs mxTy && !r.comp
  | 8 => !r.comp && r.span (r.dims - 1) % 4 == 0
  | _ => r.tyIs deltaTy && !r.comp
/-- What transform n asks of its destination record (R290). -/
def xfDest (n : Nat) (r : Shape) : Bool :=
  match n with
  | 0 | 2 => !r.comp
  | 1 => r.tyIs packTy && r.comp
  | 3 | 4 => r.tyIs mxTy && !r.comp
  | 5 => r.tyIs (fun t => t == .f32 || t == .f16 || t == .i8) && !r.comp
  | 8 => r.comp
  | 9 => r.tyIs deltaTy && r.comp
  | _ => r.tyIs deltaTy && !r.comp
/-- The formats of a pair (R290): the same, but for packing and unpacking, where INT8 comes from E3M2 alone. -/
def xfPair (n : Nat) (a b : Shape) : Bool :=
  match n with
  | 3 | 4 => true
  | 5 => b.ty != some .i8 || a.ty == some .e3m2
  | _ => a.ty == b.ty
/-- The field code that refuses a transform's records, 0 for none (R280, R288, R290). -/
def xfCode (n : Nat) (a b : Shape) : Nat :=
  match a.check { takes := xfSource n, noLab := true } with
  | 0 => match b.check { written := true, takes := xfDest n, scales := n == 3 || n == 4, noLab := true } with
    | 0 => if !xfPair n a b then 0x07 else if a.count ≠ b.count then 0x0B else 0
    | c => c
  | c => c

/-- The addresses of a record that must be local store addresses of the partition (R280). -/
def State.recordSpots (s : State) (r : Shape) : Except State Unit :=
  match s.localSpot (BitVec.ofNat 64 r.base) 1 with
  | .error t => .error t
  | .ok _ => if r.scbase = 0 then .ok () else (s.localSpot (BitVec.ofNat 64 r.scbase) 1).map fun _ => ()

/-- The acceptance of a transform (R280). -/
def State.xformOp (s : State) (i : Instr) (n : Nat) (tok l r : GReg) : State :=
  s.guarded i fun s => s.deciding [l, r] fun s =>
    let x := s.me
    let gl := (x.g l).val
    let bar : Except State (Option Word) :=
      if r = 0 then .ok none else (s.localSpot (x.g r).val 16).map fun _ => some (x.g r).val
    match bar with
    | .error t => t
    | .ok bar => match s.record gl 64 64, s.record (gl + 64) 64 64 with
      | .error t, _ | _, .error t => t
      | .ok d, .ok e =>
        let a : Shape := { raw := BitVec.ofNat 512 d, addr := gl }
        let b : Shape := { raw := BitVec.ofNat 512 e, addr := gl + 64 }
        match s.recordSpots a with
        | .error t => t
        | .ok _ => match s.recordSpots b with
          | .error t => t
          | .ok _ => match xfCode n a b with
            | 0 => s.engOffer .xform { kind := .xform n, key := 0, tok, bar, opa := gl, src := a, dst := b
                                       cnt := BitVec.ofNat 64 n, instr := instrWord i }
            | c => s.trapOpen 0x17 c

/-- XFORM 0 (R290): its acceptance. -/
def execXformReshape (tok l r : GReg) (s : State) : Host.Outcome State Fault Refusal :=
  .next (s.xformOp (.xformReshape tok l r) 0 tok l r)
/-- XFORM 1 (R290, R294): its acceptance. -/
def execXformCompact (tok l r : GReg) (s : State) : Host.Outcome State Fault Refusal :=
  .next (s.xformOp (.xformCompact tok l r) 1 tok l r)
/-- XFORM 2 (R290, R292): its acceptance. -/
def execXformExpand (tok l r : GReg) (s : State) : Host.Outcome State Fault Refusal :=
  .next (s.xformOp (.xformExpand tok l r) 2 tok l r)
/-- XFORM 3 (R48, R290): its acceptance. -/
def execXformMxPack (tok l r : GReg) (s : State) : Host.Outcome State Fault Refusal :=
  .next (s.xformOp (.xformMxPack tok l r) 3 tok l r)
/-- XFORM 4 (R48, R290): its acceptance. -/
def execXformMxPackSat (tok l r : GReg) (s : State) : Host.Outcome State Fault Refusal :=
  .next (s.xformOp (.xformMxPackSat tok l r) 4 tok l r)
/-- XFORM 5 (R290): its acceptance. -/
def execXformMxUnpack (tok l r : GReg) (s : State) : Host.Outcome State Fault Refusal :=
  .next (s.xformOp (.xformMxUnpack tok l r) 5 tok l r)
/-- XFORM 6 (R290): its acceptance. -/
def execXformDeltaEncode (tok l r : GReg) (s : State) : Host.Outcome State Fault Refusal :=
  .next (s.xformOp (.xformDeltaEncode tok l r) 6 tok l r)
/-- XFORM 7 (R290): its acceptance. -/
def execXformDeltaDecode (tok l r : GReg) (s : State) : Host.Outcome State Fault Refusal :=
  .next (s.xformOp (.xformDeltaDecode tok l r) 7 tok l r)
/-- XFORM 8 (R290, R291): its acceptance. -/
def execXformZeroRun (tok l r : GReg) (s : State) : Host.Outcome State Fault Refusal :=
  .next (s.xformOp (.xformZeroRun tok l r) 8 tok l r)
/-- XFORM 9 (R290, R291): its acceptance. -/
def execXformDeltaZeroRun (tok l r : GReg) (s : State) : Host.Outcome State Fault Refusal :=
  .next (s.xformOp (.xformDeltaZeroRun tok l r) 9 tok l r)

-- Accesses of an engine (R281, R284, R285)

/-- Why an engine stops in the middle: a fault's code and address, a page fault, or a piece that another home has to send
it first. -/
inductive EngStop where
  | fault (code : Nat) (va : Word)
  | page (va : Word)
  | need (home : CoreNo) (r : Req)

/-- Where an engine's access lies; a translation that is not cached is walked and cached at once. -/
def State.engSpot (s : State) (core : CoreNo) (key va : Nat) (u : Use5) : Except EngStop (Loc × State) :=
  let w := BitVec.ofNat 64 va
  let look := fun (s : State) => match s.translate core key va u with
    | .at_ l => Except.ok (l, s)
    | .bad c => .error (EngStop.fault c w)
    | .walk => .error (EngStop.page w)
  match s.window core key va with
  | some (.error c) => .error (.fault c w)
  | some (.ok l) => .ok (l, s)
  | none => match (s.coreAt core).lookTlb (s.partKey core key) va with
    | some _ => look s
    | none => match s.walk (s.partKey core key) va with
      | .entry e => look (s.modCore core fun c => c.addTlb e)
      | .fault => .error (.page w)
      | .bad c => .error (.fault c w)

/-- A request of an engine, with the bulk class of its data (R318). -/
def State.engReq (s : State) (core : CoreNo) (key : Nat) (e : Eng) (what : EngAsk) (act : Act) (l : Loc) (va n : Nat) : Req :=
  let c := s.coreAt core
  { act, src := core, who := .engine e (c.tenantNo c.cur) what, part := s.partKey core key, path := engPath e
    va := BitVec.ofNat 64 va, ha := l.ha, plane := l.plane, localStore := l.ls, n, peer := l.peer, fixed := l.fixed, vcls := 2
    wide := true, owner := realKey key }

/-- Bytes and handles, of the words they lie in, of a piece that another home has sent. -/
def EngRun.piece (r : EngRun) (ha n : Nat) : Option (List Byte × List Handle) :=
  (r.fetched.find? fun p => decide (p.1 ≤ ha) && decide (ha + n ≤ p.1 + p.2.1.length)).map fun p =>
    ((p.2.1.drop (ha - p.1)).take n, (p.2.2.drop (ha / 4 - p.1 / 4)).take ((ha % 4 + n + 3) / 4))
/-- A write of the operation reaches what it has read of the same bytes. -/
def EngRun.overwrite (r : EngRun) (ha : Nat) (bs : List Byte) : EngRun :=
  { r with fetched := r.fetched.map fun p => (p.1, (List.range p.2.1.length).map fun i =>
      let a := p.1 + i
      if ha ≤ a ∧ a < ha + bs.length then bs.getD (a - ha) 0 else p.2.1.getD i 0, p.2.2) }

/-- Bytes of the own store and the handles of their words, as an operation reads them: its own writes and those before it
began; another access since then is seen or not, word by word, by a free choice (R284, R402, log 16). -/
def State.ownRead (s : State) (core : CoreNo) (e : Eng) (r : EngRun) (q : Req) : (List Byte × List Handle) × State :=
  let now := s.drain core e
  let old := { now with store := r.seen }
  let near := r.landed.filter fun p => decide (p.1 < q.ha + q.n + 4) && decide (q.ha < p.1 + p.2 + 4)
  let mine := fun (a n : Nat) => near.any fun p => decide (p.1 < a + n) && decide (a < p.1 + p.2)
  let new := fun (i : Nat) => Config.seesNew (s.tick + i)
  (((List.range q.n).map fun j =>
      let a := q.ha + j
      if mine a 1 || new (a / 4 - q.ha / 4) then now.byteAt a else old.byteAt a,
    (List.range q.words).map fun i => if mine (q.ha / 4 * 4 + 4 * i) 4 || new i then now.wordLab q i else old.wordLab q i),
   { s with tick := s.tick + q.words })

/-- Read bytes and the resolved handles of the words they lie in (R147, R281), in pieces of an aligned 64-byte block; of a
transform's the whole block. The engine sees its own writes, those held back too. -/
def State.engRead (core : CoreNo) (e : Eng) (r : EngRun) : Nat → Nat → Nat → State →
    Except EngStop ((List Byte × List Handle) × State)
  | 0, _, _, s => .ok (([], []), s)
  | f + 1, va, n, s =>
    if n = 0 then .ok (([], []), s)
    else
      let key := r.op.key
      let va := va % 2 ^ 64
      let m := min n (64 - va % 64)
      match s.engSpot core key va .load with
      | .error x => .error x
      | .ok (l, s) =>
        let q := s.engReq core key e (.read l.ha) .load l va m
        let got : Except EngStop ((List Byte × List Handle) × State) :=
          if l.home = core then
            if (s.coreAt core).halted || s.spoilt q then .error (.fault 0x04 (BitVec.ofNat 64 va))
            else .ok (s.ownRead core e r q)
          else match r.piece l.ha m with
            | some x => .ok (x, s)
            | none => .error (.need l.home (match e with
              | .copy => q
              | .xform => s.engReq core key e (.read (l.ha - va % 64))
                  .load { l with ha := l.ha - va % 64, plane := l.plane.map fun p => p - 2 * (va % 64 / 4) } (va - va % 64) 64))
        match got with
        | .error x => .error x
        | .ok ((bs, hs), s) => match State.engRead core e r f (va + m) (n - m) s with
          | .error x => .error x
          | .ok ((cs, gs), s) => .ok ((bs ++ cs, hs.map (s.resolve core (s.partKey core key)) ++ gs), s)

/-- Put an operation in progress back. -/
def State.putEng (s : State) (core : CoreNo) (e : Eng) (r : EngRun) : State :=
  s.modEng core e fun g => { g with run := some r }

/-- Write bytes, in pieces of an aligned 64-byte block, each sent to its home, which the core's own store answers at
once. -/
def State.engWrite (core : CoreNo) (e : Eng) (labs : Option (List Handle)) : Nat → Nat → Nat → List Byte →
    State → EngRun → Except EngStop (State × EngRun)
  | 0, _, _, _, s, r => .ok (s, r)
  | f + 1, va, skew, bs, s, r =>
    if bs.isEmpty then .ok (s, r)
    else
      let va := va % 2 ^ 64
      let m := min bs.length (64 - va % 64)
      match s.engSpot core r.op.key va .store with
      | .error x => .error x
      | .ok (l, s) =>
        let q := s.engReq core r.op.key e (.write l.ha m) (match labs with | some _ => .store (2 ^ m - 1) | none => .xput) l va m
        let q := { q with data := bs.take m, labs := labs.getD [], skew }
        let r := { r.overwrite l.ha (bs.take m) with pending := r.pending + 1, landed := (l.ha, m) :: r.landed }
        let s := (s.putEng core e r).dispatch l.home q
        State.engWrite core e labs f (va + m) (skew + m) (bs.drop m) s ((s.eng core e).run.getD r)

-- The stream port (R258, R283)

/-- Who takes the next bytes of the stream port: the oldest consumer by acceptance, if it is a running instruction of a
half or a record to discard. -/
inductive Consumer where
  | half (h : Nat)
  | discard (num : Nat)
  deriving DecidableEq, Repr

/-- Instructions that take from the port, by number; none for one that has not started, or that has met a fault and has
still to end with it, when its record is discarded (R283). -/
def Matrix.consumers (m : Matrix) : List (Nat × Option Consumer) :=
  let run := fun h => match (m.half h).run with
    | some r => if r.op.port && !r.ready && !r.done then [(r.op.num, if r.stop.isNone then some (Consumer.half h) else none)] else []
    | none => []
  let wait := fun h => ((m.half h).queue.filter (·.port)).map fun o => (o.num, none)
  run 0 ++ run 1 ++ wait 0 ++ wait 1 ++ m.discards.map fun d => (d.1, some (.discard d.1))
/-- The consumer whose turn it is. -/
def Matrix.consumer (m : Matrix) : Option Consumer :=
  let l := m.consumers
  match lowest (l.map (·.1)) with
  | some n => (l.find? fun x => x.1 == n).bind (·.2)
  | none => none
/-- Bytes that the consumer still takes. -/
def Matrix.wants (m : Matrix) : Consumer → Nat
  | .half h => match (m.half h).run with | some r => r.need | none => 0
  | .discard n => ((assoc m.discards n).getD (0, false)).1
/-- Deliver bytes with their handles to the consumer; a full record sets its instruction going. -/
def Matrix.feed (m : Matrix) (c : Consumer) (bs : List (Byte × Handle)) : Matrix :=
  match c with
  | .discard n =>
    let left := ((assoc m.discards n).getD (0, false)).1 - bs.length
    { m with discards := if left = 0 then assocDel m.discards n else assocSet m.discards n (left, true) }
  | .half h => m.modHalf h fun x => { x with run := x.run.map fun r =>
      let r := { r with fed := r.fed ++ bs, labs := (bs.map (·.2) ++ r.labs).eraseDups }
      if r.need = 0 then { r with b := elemsOf r.op.b.bits r.op.b.count (r.fed.map (·.1)), ready := true } else r }
/-- A feed that faults, or ends within a record, stops the instruction it feeds with code 0x52 (R254). Of a record that is
being discarded nothing more comes, so that the next copy's bytes belong to the next record (R283). -/
def Matrix.cutFeed (m : Matrix) (fault : Bool) : Matrix :=
  let cut := fun (n : Nat) (x : Half) => { x with run := x.run.map fun r =>
    if r.op.num = n ∧ r.op.port ∧ !r.ready ∧ (fault || !r.fed.isEmpty) then
      { r with cut := true, stop := some (r.stop.getD (0x52, r.op.b.addr)) } else r }
  match lowest (m.consumers.map (·.1)) with
  | none => m
  | some n => match assoc m.discards n with
    | some (_, begun) => if fault || begun then { m with discards := assocDel m.discards n } else m
    | none => { m with h0 := cut n m.h0, h1 := cut n m.h1 }

-- Copies (R281, R282, R286)

/-- gD of a copy to the stream port (R283). -/
def portAddr : Word := 0x8000000000000000
/-- A copy to the stream port. -/
def EngOp.toPort (o : EngOp) : Bool := (o.kind == .cpy || o.kind == .cpyg) && o.opa == portAddr

/-- Bytes to the next commit point of a copy whose rows are at least 4 KiB long (R286): to the end of the destination word
that completes 4 KiB, since a word takes its label as a whole (R281; DEDUCED, log 122). -/
def EngRun.toCommit (r : EngRun) (dst : Nat) : Nat :=
  if r.op.rowb < 4096 then r.op.rowb
  else
    let n := 4096 - r.pos % 4096
    n + (4 - (dst + n) % 4) % 4

/-- One piece of a copy. Saturations of a record that the matrix engine expands as it takes it from the stream port are not
the copy's, whose count stays 0 (DESIGN CHOICE, log 121). -/
def State.copyPiece (s : State) (core : CoreNo) (r : EngRun) : Except EngStop (State × EngRun) :=
  let o := r.op
  let row := r.pos / o.rowb
  let off := r.pos % o.rowb
  let idx : Except EngStop (Nat × State) :=
    if o.kind = .cpy then .ok (0, s)
    else match s.engRead core .copy r 2 (o.list.toNat + row * o.iw) o.iw with
      | .error x => .error x
      | .ok ((bs, _), s) => .ok (leNat bs, s)
  match idx with
  | .error x => .error x
  | .ok (i, s) =>
    let src := (o.opb.toNat + (if o.kind = .cpyg then i else row) * o.rowb + off) % 2 ^ 64
    let dst := (o.opa.toNat + (if o.kind = .cpys then i else row) * o.rowb + off) % 2 ^ 64
    let on := fun (r : EngRun) (n : Nat) => { r with pos := r.pos + n, fetched := [] }
    if o.toPort then
      match (s.coreAt core).matrix.consumer with
      | none => .ok (s, r)
      | some c =>
        let n := min (min (64 - r.pos % 64) (o.rowb - off)) ((s.coreAt core).matrix.wants c)
        match s.engRead core .copy r 3 src n with
        | .error x => .error x
        | .ok ((bs, hs), s) =>
          let fed := (List.range bs.length).map fun j => (bs.getD j 0, hs.getD ((src % 4 + j) / 4) 0)
          .ok (s.modCore core fun x => { x with matrix := x.matrix.feed c fed }, on r n)
    else
      let n := min (min (64 - dst % 64) (o.rowb - off)) (r.toCommit dst)
      match s.engRead core .copy r 3 src n with
      | .error x => .error x
      | .ok ((bs, hs), s) => match s.engWrite core .copy (some hs) 2 dst (src % 4) bs r with
        | .error x => .error x
        | .ok (s, q) => .ok (s, on q n)

/-- Pieces up to the next commit point (R286): 4 KiB of destination, or a row below 4 KiB. -/
def State.copyChunk (core : CoreNo) : Nat → State → EngRun → State × EngRun × Option EngStop
  | 0, s, r => (s, r, none)
  | f + 1, s, r =>
    if r.stop.isSome then (s, r, none)
    else if r.op.bytes ≤ r.pos then (s, { r with done := true, mark := r.pos }, none)
    else match s.copyPiece core r with
      | .error x => (s, r, some x)
      | .ok (t, q) =>
        if r.op.bytes ≤ q.pos then (t, { q with done := true, mark := q.pos }, none)
        else if (if r.op.rowb < 4096 then q.pos % r.op.rowb = 0 ∧ q.pos ≠ r.pos else q.pos / 4096 ≠ r.pos / 4096) then
          (t, { q with mark := q.pos }, none)
        else if q.pos = r.pos then (t, q, none)
        else State.copyChunk core f t q

-- Transforms (R290 to R294)

/-- The last element, in element order, of a block of TILE extents. -/
def Shape.endsBlock (d : Shape) (e : Nat) : Bool :=
  (List.range d.dims).all fun i =>
    d.coord e i + 1 == d.ext i || (d.tile i != 0 && (d.coord e i + 1) % d.tile i == 0)
/-- Elements that a commit takes from a position on (R286), in element order: those that begin in a logical tile of a
compressed destination, those up to the one that completes a block of TILE extents, or 4 KiB of elements; whole blocks
of 32 where scales go with them (DEDUCED, log 40). -/
def EngRun.step (r : EngRun) : Nat :=
  let d := r.op.dst
  let n := if d.comp then d.tileFirst (r.pos * d.bits / 32768 + 1) - r.pos
    else if (List.range d.dims).any (fun i => d.tile i != 0) then
      match (List.range (d.count - r.pos)).find? fun j => d.endsBlock (r.pos + j) with
      | some j => j + 1
      | none => d.count - r.pos
    else 8 * 4096 / d.bits
  if r.op.kind = .xform 3 ∨ r.op.kind = .xform 4 then roundUp n 32 else n

/-- Read bytes of a transform's source; a word whose handle is not empty stops it with code 0x63. -/
def State.xfRead (s : State) (core : CoreNo) (r : EngRun) (va n : Nat) : Except EngStop (List Byte × State) :=
  match s.engRead core .xform r 140 va n with
  | .error x => .error x
  | .ok ((bs, hs), s) => match hs.findIdx? (· != 0) with
    | some i => .error (.fault 0x63 (BitVec.ofNat 64 (va / 4 * 4 + 4 * i)))
    | none => .ok (bs, s)

/-- Elements of an uncompressed source. -/
def State.xfPlain (core : CoreNo) (r : EngRun) : List Nat → State → Except EngStop (List Nat × State)
  | [], s => .ok ([], s)
  | e :: t, s =>
    let o := r.op
    let b := o.src.bitAddr e
    match s.xfRead core r (b / 8) ((b % 8 + o.src.bits + 7) / 8) with
    | .error x => .error x
    | .ok (bs, s) => match State.xfPlain core r t s with
      | .error x => .error x
      | .ok (l, s) => .ok (bitsAt (leNat bs) (b % 8) o.src.bits :: l, s)

/-- A tile of a compressed source: its bytes, its code of R293, the address of its table entry, and which of its elements
saturate as they are decoded (R49). An entry that is malformed, or whose bytes leave the local store that holds the
record, is code 0x65 (R285). -/
structure XfTile where
  bytes : List Byte := []
  code : Nat := 0
  addr : Word := 0
  spare : Nat := 0
  sat : List Bool := []

/-- Read a tile of a compressed source, `low` the bits that the tile before left over. -/
def State.xfTile (s : State) (core : CoreNo) (r : EngRun) (i low : Nat) : Except EngStop (XfTile × State) :=
  let d := r.op.src
  let ty := d.ty.getD .i8
  let ea := d.base + 4 * i
  match s.xfRead core r ea 4 with
  | .error x => .error x
  | .ok (w, s) =>
    let e := tileEntry (leNat w)
    let bad : Except EngStop (XfTile × State) := .error (.fault 0x65 (BitVec.ofNat 64 ea))
    if 5 ≤ e.codec ∨ (e.size ≠ 0 ∧ (d.base + e.off + e.size - 1) / 2 ^ 20 ≠ d.base / 2 ^ 20) then bad
    else match if e.size = 0 then .ok ([], s) else s.xfRead core r (d.base + e.off) e.size with
      | .error (.fault 0x63 a) => .error (.fault 0x63 a)
      | .error (.fault 0x04 a) => .error (.fault 0x04 a)
      | .error (.fault _ _) => bad
      | .error x => .error x
      | .ok (cs, s) =>
        let x := decodeTile ty e.codec (d.tileLen i) (d.tileElems i) (d.tileLead i) low cs
        .ok ({ bytes := x.bytes, code := x.code, spare := x.spare, addr := BitVec.ofNat 64 ea,
               sat := tileSat ty e.codec (d.tileElems i) cs }, s)

/-- Tiles of a compressed source one after another, with the first code of a mismatched one. -/
def State.xfTiles (core : CoreNo) (r : EngRun) : List Nat → Nat → State → Except EngStop (XfTile × State)
  | [], _, s => .ok ({}, s)
  | i :: t, low, s => match s.xfTile core r i low with
    | .error x => .error x
    | .ok (x, s) => match State.xfTiles core r t x.spare s with
      | .error x => .error x
      | .ok (y, s) =>
        let z := if x.code = 0 then y else x
        .ok ({ bytes := x.bytes ++ y.bytes, sat := x.sat ++ y.sat, code := z.code, addr := z.addr }, s)

/-- Elements that lie packed in bytes from a bit on. -/
def elemsFrom (bits off n : Nat) (bs : List Byte) : List Nat :=
  let v := leNat bs / 2 ^ off
  (List.range n).map fun e => bitsAt v (e * bits) bits

/-- Elements of a source, what the first mismatched tile gives, and how many elements saturated as they were decoded. -/
structure XfElems where
  xs : List Nat := []
  code : Nat := 0
  addr : Word := 0
  sat : Nat := 0

/-- `n` elements of the source from element `p` on. -/
def State.xfSourceElems (s : State) (core : CoreNo) (r : EngRun) (p n : Nat) : Except EngStop (XfElems × State) :=
  let d := r.op.src
  if n = 0 then .ok ({}, s)
  else if d.comp then
    let first := p * d.bits / 32768
    let last := ((p + n) * d.bits - 1) / 32768
    match State.xfTiles core r ((List.range (last + 1 - first)).map (first + ·)) 0 s with
    | .error x => .error x
    | .ok (x, s) =>
      let sat := ((x.sat.drop (p - d.tileFirst first)).take n).filter id
      .ok ({ xs := elemsFrom d.bits (p * d.bits - first * 32768) n x.bytes, code := x.code, addr := x.addr, sat := sat.length }, s)
  else match State.xfPlain core r ((List.range n).map (p + ·)) s with
    | .error x => .error x
    | .ok (l, s) => .ok ({ xs := l }, s)

/-- The scales of elements of an MX source. -/
def State.xfScales (core : CoreNo) (r : EngRun) : List Nat → State → Except EngStop (List Nat × State)
  | [], s => .ok ([], s)
  | e :: t, s => match s.xfRead core r (r.op.src.scale e) 1 with
    | .error x => .error x
    | .ok (bs, s) => match State.xfScales core r t s with
      | .error x => .error x
      | .ok (l, s) => .ok (leNat bs :: l, s)

/-- An MX element unpacked (R47, R49, R290), and whether it saturated. -/
def unpackElem (src dst : Ty) (shift : Int) (scale x : Nat) : Nat × Bool :=
  match dst with
  | .f32 => ((roundV .f32 .rne false (mxVal src scale x)).1, false)
  | .f16 => ((roundV .f16 .rne false (decF src x)).1, false)
  | _ =>
    if scale = 255 then (0, true)
    else match decF src x with
      | .fin s m e =>
        let n := (toInt .rne s m (e + shift)).1
        let v : Int := if s then -(n : Int) else n
        (satInt 8 true v, decide (v < -128) || decide (127 < v))
      | _ => (0, true)

/-- Write elements one after another. A format narrower than a byte shares its bytes with its neighbours. -/
def State.xfPut (core : CoreNo) : List (Nat × Nat) → State → EngRun → Except EngStop (State × EngRun)
  | [], s, r => .ok (s, r)
  | (e, v) :: t, s, r =>
    if r.stop.isSome then .ok (s, r)
    else
    let d := r.op.dst
    let b := d.bitAddr e
    let n := (b % 8 + d.bits + 7) / 8
    let old : Except EngStop (Nat × State) :=
      if d.bits % 8 = 0 then .ok (0, s)
      else match s.engRead core .xform r 2 (b / 8) n with
        | .error x => .error x
        | .ok ((bs, _), s) => .ok (leNat bs, s)
    match old with
    | .error x => .error x
    | .ok (o, s) =>
      let w := o % 2 ^ (b % 8) + (v % 2 ^ d.bits) * 2 ^ (b % 8) + o / 2 ^ (b % 8 + d.bits) * 2 ^ (b % 8 + d.bits)
      match s.engWrite core .xform none 2 (b / 8) 0 (leBytes n w) r with
      | .error x => .error x
      | .ok (s, r) => State.xfPut core t s r

/-- Pack blocks of 32 elements: the codes and the scale byte of each. -/
def packBlocks (src dst : Ty) (sat : Bool) : List (List Nat) → List (List Nat × Nat) × Nat
  | [] => ([], 0)
  | b :: t =>
    let (sc, cs, _, n) := mxPack src dst sat (b.map (decF src))
    let (rest, m) := packBlocks src dst sat t
    ((cs, sc) :: rest, n + m)

/-- Write the scales of blocks that begin at element `p`. -/
def State.xfPutScales (core : CoreNo) : List (Nat × Nat) → State → EngRun → Except EngStop (State × EngRun)
  | [], s, r => .ok (s, r)
  | (e, sc) :: t, s, r => match s.engWrite core .xform none 2 (r.op.dst.scale e) 0 [BitVec.ofNat 8 sc] r with
    | .error x => .error x
    | .ok (s, r) => State.xfPutScales core t s r

/-- Write the compressed tile at the position: its bytes where the last one ended, and its entry (R291). `xs` are the
elements that lie in the tile, from the one that begins at `p0`, at or before the tile's first bit. -/
def State.xfPutTile (s : State) (core : CoreNo) (r : EngRun) (codec p0 : Nat) (xs : List Nat) : Except EngStop (State × EngRun) :=
  let d := r.op.dst
  let i := r.pos * d.bits / 32768
  let out := if r.out = 0 then roundUp (4 * d.tiles) 8 else r.out
  let (t, s) := s.draw
  let raw := leBytes (d.tileLen i) (packNat d.bits xs / 2 ^ (32768 * i - p0 * d.bits))
  let (codec, bs) := encodeTile t (d.ty.getD .i8) codec raw
  match s.engWrite core .xform none 80 (d.base + out) 0 bs r with
  | .error x => .error x
  | .ok (s, r) =>
    let w := codec * 2 ^ 28 + bs.length / 8 % 1024 * 2 ^ 18 + out / 8 % 2 ^ 18
    match s.engWrite core .xform none 2 (d.base + 4 * i) 0 (leBytes 4 w) r with
    | .error x => .error x
    | .ok (s, r) => .ok (s, { r with out := out + bs.length })

/-- One commit of a transform. -/
def State.xfStep (s : State) (core : CoreNo) (r : EngRun) : Except EngStop (State × EngRun × Nat × Word) :=
  let o := r.op
  let n := min r.step (o.dst.count - r.pos)
  let p := r.pos
  let src := o.src.ty.getD .i8
  let dst := o.dst.ty.getD .i8
  -- of a compressed destination, from the element that holds the tile's first bit
  let p0 := if o.dst.comp then p * o.dst.bits / 32768 * 32768 / o.dst.bits else p
  match s.xfSourceElems core r p0 (n + (p - p0)) with
  | .error x => .error x
  | .ok (got, s) =>
    let xs := got.xs
    let fin := fun (z : Except EngStop (State × EngRun)) => match z with
      | .error x => .error x
      | .ok (s, q) =>
        if q.stop.isSome then .ok (s, q, got.code, got.addr)
        else .ok (s, { q with pos := p + n, mark := p + n, fetched := [], done := decide (o.dst.count ≤ p + n) }, got.code, got.addr)
    let at_ := fun (vs : List Nat) => (List.range vs.length).map fun i => (p + i, vs.getD i 0)
    match o.kind with
    | .xform 1 => fin (s.xfPutTile core r (if o.dst.layer then 4 else 3) p0 xs)
    | .xform 8 => fin (s.xfPutTile core r 1 p0 xs)
    | .xform 9 => fin (s.xfPutTile core r 2 p0 xs)
    | .xform 6 => fin (State.xfPut core (at_ (deltaEncode r.val xs)) s { r with val := xs.getLastD r.val })
    | .xform 7 =>
      let ys := deltaDecode r.val xs
      fin (State.xfPut core (at_ ys) s { r with val := ys.getLastD r.val })
    | .xform 5 =>
      let scs : Except EngStop (List Nat × State) :=
        if o.src.scbase = 0 ∨ dst = .f16 then .ok (List.replicate n 127, s)
        else State.xfScales core r ((List.range n).map (p + ·)) s
      match scs with
      | .error x => .error x
      | .ok (ks, s) =>
        let vs := (xs.zip ks).map fun y => unpackElem src dst o.dst.shift y.2 y.1
        fin (State.xfPut core (at_ (vs.map (·.1))) s { r with sat := r.sat + (vs.filter (·.2)).length })
    | .xform 0 | .xform 2 => fin (State.xfPut core (at_ xs) s { r with sat := r.sat + got.sat })
    | .xform k =>
      let (bl, m) := packBlocks src dst (k == 4) (blocks32 n xs)
      match State.xfPut core (at_ (bl.flatMap (·.1))) s { r with sat := r.sat + m } with
      | .error x => .error x
      | .ok (s, q) => fin (State.xfPutScales core ((List.range bl.length).map fun i => (p + 32 * i, (bl.map (·.2)).getD i 0)) s q)
    | _ => .ok (s, { r with done := true }, 0, 0)

-- Commits, faults and ends (R285, R286)

/-- What a stop in the middle leaves: a page fault holds the engine at its piece (R285), another fault stops it, and a
piece of another home is asked for. -/
def State.engStopped (s : State) (core : CoreNo) (e : Eng) (r : EngRun) (x : EngStop) : State :=
  match x with
  | .fault code va => s.putEng core e { r with stop := some (code, va) }
  | .page va => (s.putEng core e { r with held := true, told := s.hostPages core r.op.key, acked := false, faultVa := va }).pageFault core (realKey r.op.key) va
  | .need home q => (s.putEng core e { r with asked := some q.ha }).dispatch home q

/-- The first mismatched tile of a transform (R293, R285): logged, its code kept for the token and the barrier. -/
def State.engFlag (s : State) (core : CoreNo) (r : EngRun) (code : Nat) (addr : Word) : State × EngRun :=
  if code = 0 ∨ r.code ≠ 0 then (s, r)
  else
    let (q, s) := s.logError r.op.part code addr core (realKey r.op.key % 16) 0
    (s, { r with code, frec := q })

/-- One commit of the operation in progress. -/
def State.engCommit1 (s : State) (core : CoreNo) (e : Eng) (r : EngRun) : State :=
  match e with
  | .copy => match s.copyChunk core 256 r with
    | (s, r, none) => s.putEng core e r
    | (s, r, some x) => s.engStopped core e r x
  | .xform => match s.xfStep core r with
    | .error x => s.engStopped core e r x
    | .ok (s, r, code, addr) =>
      let (s, r) := s.engFlag core r code addr
      s.putEng core e r

/-- Every byte that a faulted operation delivered is free (R285, log 15). -/
def State.wildBytes (s : State) (r : EngRun) : State :=
  let (t, s) := s.draw
  r.landed.foldl (fun s p => s.putBytes p.1 ((List.range p.2).map fun i => Config.faultByte t (p.1 + i))) s

/-- Where a transform has still to write from its last commit on: in its next commit, or in all that are left. Its
elements, or its tiles and their entries, and its scales. -/
def EngRun.underWay (r : EngRun) (all : Bool) : List (Nat × Nat) :=
  let d := r.op.dst
  let n := if all then d.count - r.mark else min r.step (d.count - r.mark)
  let es := (List.range n).map (r.mark + ·)
  if d.comp then
    let i := r.mark * d.bits / 32768
    let out := d.base + (if r.out = 0 then roundUp (4 * d.tiles) 8 else r.out)
    (List.range (if all then d.tiles - i else 1)).flatMap fun k => [(out + 4096 * k, 4096), (d.base + 4 * (i + k), 4)]
  else (es.map fun e => (d.elem e, (d.bits + 7) / 8)) ++ (if d.scbase = 0 then [] else es.map fun e => (d.scale e, 1))

/-- Bits of a byte that belong to elements committed before the one at the last commit: those below it (R295). -/
def EngRun.keptBits (r : EngRun) (va : Nat) : Nat :=
  let b := r.op.dst.bitAddr r.mark
  if !r.op.dst.comp ∧ va = b / 8 then b % 8 else 0
/-- What a transform's fault leaves undefined is free (R285, R295, log 15): the commit under way, and for a labelled word
that stops it everything after the last commit. Bits of a byte that an earlier commit wrote stand. -/
def State.wildStep (s : State) (core : CoreNo) (r : EngRun) (all : Bool) : State :=
  let (t, s) := s.draw
  (r.underWay all).foldl (fun s p => match s.engSpot core r.op.key p.1 .store with
    | .ok (l, s) => s.putBytes l.ha ((List.range p.2).map fun i =>
        let k := 2 ^ r.keptBits (p.1 + i)
        BitVec.ofNat 8 ((s.byteAt (l.ha + i)).toNat % k + (Config.faultByte t (l.ha + i)).toNat / k * k))
    | .error _ => s) s

/-- A fault of the operation in progress (R285): logged, what it delivered free, the operation over. -/
def State.engFault1 (s : State) (core : CoreNo) (e : Eng) (r : EngRun) (code : Nat) (addr : Word) : State :=
  let (q, s) := s.logError r.op.part code addr core (realKey r.op.key % 16) 0
  let s := s.drain core e
  let s := if code = 0x63 then s else s.wildBytes r
  let s := match e with | .xform => s.wildStep core r (code == 0x63) | .copy => s
  let s := if r.op.toPort then s.modCore core fun c => { c with matrix := c.matrix.cutFeed true } else s
  s.putEng core e { r with done := true, stop := none, held := false, code, frec := q, landed := [], fetched := [] }

/-- The count of a token: bytes of a copy, elements of a transform (R278). -/
def EngRun.status (r : EngRun) (e : Eng) : Word :=
  statusWord r.code (engCode e) (if r.code = 0 then min r.sat 65535 else r.frec) r.pos

-- Events

/-- The engines' instructions, executed again by a context that has waited for an entry. -/
def engAgain (i : Instr) (s : State) : Host.Outcome State Fault Refusal :=
  match i with
  | .cpy tok d a n b => execCpy tok d a n b s
  | .cpyg tok d a x b => execCpyg tok d a x b s
  | .cpys tok d a x b => execCpys tok d a x b s
  | .xformReshape tok l r => execXformReshape tok l r s
  | .xformCompact tok l r => execXformCompact tok l r s
  | .xformExpand tok l r => execXformExpand tok l r s
  | .xformMxPack tok l r => execXformMxPack tok l r s
  | .xformMxPackSat tok l r => execXformMxPackSat tok l r s
  | .xformMxUnpack tok l r => execXformMxUnpack tok l r s
  | .xformDeltaEncode tok l r => execXformDeltaEncode tok l r s
  | .xformDeltaDecode tok l r => execXformDeltaDecode tok l r s
  | .xformZeroRun tok l r => execXformZeroRun tok l r s
  | .xformDeltaZeroRun tok l r => execXformDeltaZeroRun tok l r s
  | _ => .next s

/-- ENGINE_QUEUE_ACCEPT (R278, R280): when an entry frees, the first waiting context's instruction is checked in full and
accepted, its descriptor or records read now. -/
def execEngineQueueAccept (core : CoreNo) (e : Eng) (s : State) : Host.Outcome State Fault Refusal :=
  .next (
    let g := s.eng core e
    match s.firstOffer core (.engQueue e) g.offers with
    | some key => if g.queue.length < 2 then s.again core key engAgain else s
    | none => s)

/-- The engine is between commit points and will go on to the next one, a stop or engine-freeze notwithstanding (R286). A
feed of the stream port may stand still at any piece. -/
def EngRun.mid (r : EngRun) : Bool :=
  r.pos != r.mark && !r.done && !r.held && r.stop.isNone && !r.op.toPort

/-- Whether an engine may access its own core's store in this cycle (R186). -/
def State.engTurn (s : State) (core : CoreNo) (e : Eng) (r : EngRun) : Bool :=
  s.turnOf core core (engPath e) (realKey r.op.key % 16)

/-- ENGINE_COMMIT (R286): the engine takes the next accepted operation when it is free, which frees its entry (DESIGN
CHOICE, log 120); and works up to the next commit point, or to a piece that another home has to send it. -/
def execEngineCommit (core : CoreNo) (e : Eng) (s : State) : Host.Outcome State Fault Refusal :=
  .next (
    match (s.eng core e).run, (s.eng core e).queue with
    | some r, _ =>
      if r.done || r.stop.isSome || r.held || r.asked.isSome || !((s.coreAt core).enginesRun || ((s.coreAt core).halted == false && r.mid))
        || !s.engTurn core e r
      then s else (s.arrival core core (engPath e) (realKey r.op.key % 16)).engCommit1 core e r
    | none, op :: rest =>
      if !(s.coreAt core).enginesRun then s
      else (s.modEng core e fun g => { g with queue := rest }).putEng core e { op, seen := s.store }
    | none, [] => s)

/-- ENGINE_COMPLETE (R236, R278): a finished operation, all of whose writes are answered, arrives at its barrier, and once
it is answered, or at once where it has none, writes its token, unless a stop or engine-freeze holds the engine (R286).
An idle engine's writes reach the other paths. -/
def execEngineComplete (core : CoreNo) (e : Eng) (s : State) : Host.Outcome State Fault Refusal :=
  .next (match (s.eng core e).run with
    | none => s.drain core e
    | some r =>
      if !r.done || r.pending != 0 || r.stop.isSome || !(s.coreAt core).enginesRun || !s.engTurn core e r then s
      else match r.op.bar, r.arrived, r.answered with
        | some b, false, _ =>
          let s := (s.drain core e).putEng core e { r with arrived := true }
          match s.window core r.op.key b.toNat with
          | some (.ok l) =>
            let counts := r.code == 0 || r.code == 0x61 || r.code == 0x62
            s.dispatch l.home (s.engReq core r.op.key e .arrive (.engarr r.code r.frec counts) l b.toNat 16)
          | _ => s.modEng core e fun g => { g with run := g.run.map (·.answer .arrive { code := 0x02 } b) }
        | some _, true, false => s
        | _, _, _ =>
          let s := if r.op.toPort && r.code == 0 then s.modCore core fun c => { c with matrix := c.matrix.cutFeed false } else s
          let s := s.modEng core e fun g => { g with run := none, completed := g.completed + 1 }
          if r.op.tok = 0 then s else s.writeToken core (realKey r.op.key) r.op.tok ⟨r.status e, 0⟩)

/-- ENGINE_FAULT (R285): the fault that the operation has met, once the pieces under way are answered, or an
uncorrectable word under it (log 25). -/
def execEngineFault (core : CoreNo) (e : Eng) (addr : Word) (s : State) : Host.Outcome State Fault Refusal :=
  .next (match (s.eng core e).run with
    | some r =>
      if r.pending != 0 || r.asked.isSome || !((s.coreAt core).enginesRun || r.pos != r.mark) then s
      else match r.done, r.stop with
        | _, some (c, a) => s.engFault1 core e r c a
        | false, none => s.engFault1 core e r 0x04 addr
        | true, none => s
    | none => s)

/-- ENGINE_PAGE_FAULT_RESUME (R285): the engine goes on at the piece it was held at, once acknowledged. -/
def execEnginePageFaultResume (core : CoreNo) (e : Eng) (s : State) : Host.Outcome State Fault Refusal :=
  .next (match (s.eng core e).run with
    | some r => if r.held && r.acked then s.putEng core e { r with held := false, acked := false } else s
    | none => s)

-- The save area (R249, R275, R286, R362)

/-- A state record in the layout that R275 and R286 share: the instruction's word, four operands, the rest, the token's
context and register, and 2 for an engine halted at a commit point. -/
def stateRecord (instr : BitVec 96) (rest key : Nat) (tok : GReg) : Nat :=
  instr.toNat * 2 ^ 416 + rest + realKey key % 16 * 2 ^ 36 + tok.val * 2 ^ 30 + 2
/-- The engine state record of a half (R275). -/
def State.halfRecord (s : State) (core : CoreNo) (h : Nat) : Nat :=
  let x := s.half core h
  match x.run with
  | none => 0
  | some r =>
    let o := r.op
    let n := max (passesOf o.s).length 1
    let blk := if o.kind = .mslice then r.pass / n * 2 ^ 192 + r.pass % n * 2 ^ 152 else 0
    let pos := if o.kind = .mmul then (match r.steps with | g :: _ => g - o.koff | [] => o.klen) * 2 ^ 160 else 0
    let skip := match o.kreg with | some k => ((s.ctxAt core o.key).regs.k[k].pos % 2 ^ 64) * 2 ^ 64 | none => 0
    stateRecord o.instr (o.x.toNat * 2 ^ 352 + o.y.toNat * 2 ^ 288 + o.z.toNat * 2 ^ 224 + (x.tile o.tile).lab.toNat * 2 ^ 208 +
      blk + pos + skip) o.key o.tok
/-- The engine state record of the copy or transform engine (R286). -/
def Engine.record (g : Engine) : Nat :=
  match g.run with
  | none => 0
  | some r =>
    let o := r.op
    stateRecord o.instr ((o.bar.getD 0).toNat % 2 ^ 57 * 2 ^ 359 + o.opa.toNat * 2 ^ 288 + o.opb.toNat * 2 ^ 224 +
      o.cnt.toNat * 2 ^ 160 + r.mark % 2 ^ 32 * 2 ^ 128 + r.val % 2 ^ 32 * 2 ^ 96 + min r.sat 65535 * 2 ^ 80) o.key o.tok

/-- Bytes in place of those from an address on, memory in its canonical form again. -/
def Memory.splice (m : List Host.Cell) (a : Nat) (bs : List Byte) : List Host.Cell :=
  m.filter (fun c => decide (c.1 < a)) ++
    (((List.range bs.length).zip bs).filter fun p => p.2 != unlistedByte).map (fun p => (a + p.1, p.2)) ++
    m.filter fun c => decide (a + bs.length ≤ c.1)

/-- The accumulator memory of a half of a number of rows (R249): the tiles, then the wide area and the reserved area,
free but for the engine state record, which the model puts first in the reserved area (DESIGN CHOICE, log 49). -/
def State.halfImage (s : State) (core : CoreNo) (h rows tick : Nat) : List Byte :=
  let x := s.half core h
  let free := fun (n : Nat) => (List.range n).map fun i => Config.faultByte tick (0x80000 * h + i)
  ((List.range 6).flatMap fun t => (List.range (64 * rows)).flatMap fun n =>
    let w := (x.tile t).at_ (n / 64) (n % 64)
    leBytes 8 w.1.toNat ++ leBytes 8 w.2.toNat) ++
  free (rows * 0x600) ++ leBytes 64 (s.halfRecord core h) ++ free (rows * 0x200 - 64)

/-- A half's place in a core's share of the save area, its rows and the partition whose share it is: both halves in the
share of an unpaired leaf, and each tenant's own in that of a paired one (R248, R362). -/
def State.shareHalves (s : State) (core : CoreNo) (set : Nat) : List (Nat × Nat × PartKey) :=
  let c := s.coreAt core
  let k := s.partKey core (16 * set)
  if (c.paired[set]?).getD false then [(0, 16, { k with ten := false }), (1, 16, { k with ten := true })]
  else if c.matrix.split then [(0, 16, k), (1, 16, k)] else [(0, 32, k)]
/-- The address of a core's share of a partition's save area (R362); none without a valid record. -/
def State.shareAt (s : State) (core : CoreNo) (k : PartKey) : Option Nat :=
  let p := s.partAt k
  if p.valid then some (p.save + 0x80000 * (coresOf k.pkg k.node).idxOf core) else none
/-- The state record of an engine, in the share of the tenant whose operation it is. -/
def Engine.recordOf (g : Engine) (ten : Bool) : Nat :=
  match g.run with
  | some r => if r.op.part.ten = ten then g.record else 0
  | none => 0

/-- What a core's shares of the save area take when its set gives way to another tenant's (R275, R362): accumulator
memory, each half at its own place, then 4 KiB for queues and engine state records, free but for the records of the copy
and the transform engine, which the model puts first (DESIGN CHOICE, log 49). -/
def State.saveShare (s : State) (core : CoreNo) : State :=
  let c := s.coreAt core
  let (t, s) := s.draw
  let put := fun (s : State) (a : Nat) (bs : List Byte) =>
    ({ s with store := { s.store with mem := Memory.splice s.store.mem a bs } } : State)
  let hs := s.shareHalves core c.cur
  let s := hs.foldl (fun s x => match s.shareAt core x.2.2 with
    | some a => put s (a + 0x20000 * x.1) (s.halfImage core x.1 x.2.1 t)
    | none => s) s
  ((hs.map (·.2.2)).eraseDups).foldl (fun s k => match s.shareAt core k with
    | some a => put s (a + 0x40000) (leBytes 64 (c.copyEng.recordOf k.ten) ++ leBytes 64 (c.xformEng.recordOf k.ten) ++
        (List.range (0x1000 - 128)).map fun i => Config.faultByte t (0x100000 + i))
    | none => s) s

/-- `n` bytes of memory from an address on, in one pass. -/
def Memory.slice (m : List Host.Cell) (a n : Nat) : List (Nat × Byte) :=
  (m.filter fun c => decide (a ≤ c.1) && decide (c.1 < a + n)).map fun c => (c.1 - a, c.2)
/-- The tiles of a half of a number of rows, as an accumulator image in memory has them (R249). -/
def Half.loadTiles (x : Half) (rows : Nat) (cells : List (Nat × Byte)) : Half :=
  -- the image is rising, so a word's bytes are neighbours in the list
  let words := cells.foldl (fun (l : List (Nat × Nat)) c =>
    let v := c.2.toNat * 2 ^ (8 * (c.1 % 8))
    match l with
    | (w, y) :: t => if w = c.1 / 8 then (w, y + v) :: t else (c.1 / 8, v) :: l
    | [] => [(c.1 / 8, v)]) []
  let word := fun (i : Nat) => BitVec.ofNat 64 ((assoc words i).getD 0)
  let elems := fun (t : Nat) =>
    (((words.filter fun w => w.1 / (128 * rows) == t).map fun w => w.1 % (128 * rows) / 2).eraseDups.reverse).map fun n =>
      (n, (word (128 * rows * t + 2 * n), word (128 * rows * t + 2 * n + 1)))
  { x with tiles := Vector.ofFn fun (i : Fin 6) => { x.tiles[i] with elems := elems i.val } }
/-- The tiles of the tenant whose set comes back are those that the save area holds (R275). The state records are
read-only, and what else the share holds has no stated layout: both come back as they were (log 49). -/
def State.loadShare (s : State) (core : CoreNo) (set : Nat) : State :=
  (s.shareHalves core set).foldl (fun s x => match s.shareAt core x.2.2 with
    | some a => s.modHalf core x.1 fun h =>
        h.loadTiles x.2.1 (Memory.slice s.store.mem (a + 0x20000 * x.1) (0x1800 * x.2.1))
    | none => s) s

end Sys2Proof.Machine
end

