-- ==== Sys2Proof/Machine/Message.lean ====
section
/-!
DEFINITION. The message instructions (R317 to R333), major codes 0xC0 to 0xC2, the tap context's handlers, refused
messages and their retries, and the events of links and calendars (R322 to R325, R359, R360).
-/
namespace Sys2Proof.Machine

/-- The class of AMSG, CALLAT and REPLY (R318, R319). -/
def Ctx.msgClass (c : Ctx) (xp : Bool) : Nat :=
  if xp then 1 else let n := (c.vcclass.extractLsb' 2 2).toNat; if n = 3 then 0 else n

/-- The set and tenant under which a core serves a partition (R362, R363, R364). -/
def State.setAt (s : State) (k : PartKey) (core : CoreNo) : Nat × Bool :=
  if pkgOf core = k.pkg then (k.set, k.ten) else let p := s.peerPart k core; (p.set, p.ten)

/-- The destination of a message instruction (R327): gK's upper bits, then an assigned core of the reach; and the labels
of what is sent, which must be empty for a core of a peer partition (R364). -/
def State.msgDest (s : State) (k : GReg) (vs : List LWord) (go : State → CoreNo → State) : State :=
  let x := (s.me.g k).val
  let dst : CoreNo := x.setWidth 20
  if x.toNat / 2 ^ 20 ≠ 0 then s.illegal
  else if !assigned s dst then s.refuseHere 0x01 x
  else if !s.inReach s.part dst then s.refuseHere 0x02 x
  else if pkgOf dst ≠ pkgOf s.core ∧ vs.any (fun v => v.lab != 0) then s.trapOpen 0x0B 0x03
  else go s dst

-- AMSG (R328)

/-- Send an active message. -/
def State.amsgOp (s : State) (xp : Bool) (k : GReg) (a b : GReg) (pc : Word) : State :=
  let va := s.val (s.me.g a)
  let vb := s.val (s.me.g b)
  s.msgDest k [va, vb] fun s dst =>
    let ten := (s.setAt s.part dst).2
    (s.send s.core dst .th s.part (vcPick (s.me.msgClass xp) xp 2 false) 2 s.key
      (.amsg pc va vb (realKey s.key % 16) false ten)).retire

/-- AMSG with a displacement (R328). -/
def execAmsgMark (xp : Bool) (k a b : GReg) (disp : BitVec 40) (s : State) : Host.Outcome State Fault Refusal :=
  .next (s.guarded (.amsgMark xp k a b disp) fun s => s.deciding [k] fun s =>
    match dispTarget s.me.pc disp with
    | some t => s.amsgOp xp k a b t
    | none => s.trap 0x03 0 s.me.pc)
/-- AMSG with a register (R328). The deciding registers stand in fields a and d (R154). -/
def execAmsgReg (xp : Bool) (p k a b : GReg) (s : State) : Host.Outcome State Fault Refusal :=
  .next (s.guarded (.amsgReg xp p k a b) fun s => s.deciding [k, p] fun s => s.amsgOp xp k a b (s.me.g p).val)

-- CALLAT and REPLY (R330)

/-- Send a call-at item. -/
def State.callatOp (s : State) (xp : Bool) (tok k a : GReg) (pc : Word) : State :=
  let vs := (argRegs a).map fun r => s.val (s.me.g r)
  s.msgDest k vs fun s dst =>
    let (set, ten) := s.setAt s.part dst
    let it : Item := { kind := .callat, pc, caller := s.core, callerKey := s.key, tok, a := vs.getD 0 {}, b := vs.getD 1 {},
                       c := vs.getD 2 {}, d := vs.getD 3 {}, set, ten }
    let s := (s.markToken tok).modMe fun c => { c with callTok := tok :: c.callTok }
    (s.send s.core dst .th s.part (vcPick (s.me.msgClass xp) xp 2 false) 2 s.key (.callat it)).retire

/-- CALLAT with a displacement (R330). -/
def execCallatMark (xp : Bool) (tok k a : GReg) (disp : BitVec 40) (s : State) : Host.Outcome State Fault Refusal :=
  .next (s.guarded (.callatMark xp tok k a disp) fun s =>
    if tok = 0 then s.illegal
    else s.deciding [k] fun s => match dispTarget s.me.pc disp with
      | some t => s.callatOp xp tok k a t
      | none => s.trap 0x03 0 s.me.pc)
/-- CALLAT with a register (R330). -/
def execCallatReg (xp : Bool) (tok k p a : GReg) (s : State) : Host.Outcome State Fault Refusal :=
  .next (s.guarded (.callatReg xp tok k p a) fun s =>
    if tok = 0 then s.illegal
    else s.deciding [k, p] fun s => s.callatOp xp tok k a (s.me.g p).val)

/-- REPLY (R330): the value goes to the token of the item's caller, once. -/
def execReply (xp : Bool) (a : GReg) (s : State) : Host.Outcome State Fault Refusal :=
  .next (s.guarded (.reply xp a) fun s =>
    match s.me.item with
    | some i =>
      if i.kind ≠ .callat ∨ i.replied then s.illegal
      else
        let v := s.val (s.me.g a)
        if pkgOf i.caller ≠ pkgOf s.core ∧ v.lab ≠ 0 then s.trapOpen 0x0B 0x03
        else ((s.modMe fun c => { c with item := some { i with replied := true } }).send s.core i.caller .th s.part
          (vcPick (s.me.msgClass xp) xp 1 true) 1 s.key (.reply i.callerKey i.tok v)).retire
    | none => s.illegal)

-- Refused messages (R321)

/-- The DETAIL of a message's retry-limit trap. -/
def msgKind : Body → Nat
  | .amsg .. => 1
  | .callat _ => 2
  | _ => 3

/-- A destination refuses a message: it will be sent again, or at its 64th refusal it is discarded, logged, and its sender
trapped. A discarded call-at's token takes 0 and HIDDEN (R330). -/
def State.refuseOrDrop (s : State) (m : Msg) : State :=
  if m.refusals + 1 < 64 then s.refuseMsg m
  else
    let s := s.consume m
    let (_, s) := s.logError m.part 0x14 (m.dst.setWidth 64) m.src (realKey m.key % 16) (s.ctxAt m.src m.key).pc
    let s := match m.body with
      | .callat i => s.writeToken m.src (realKey m.key) i.tok ⟨0, hiddenH⟩
      | _ => s
    s.asyncTo m.src m.key { trap := 0x11, detail := msgKind m.body, eaddr := m.dst.setWidth 64 }

-- The tap context (R217, R328, R329)

/-- The tap context of the current set may start a handler. -/
def CoreSt.tapFree (c : CoreSt) : Bool :=
  c.live && (c.ctxAt (16 * c.cur + 15)).run == .idle && !c.irqHolds (16 * c.cur + 15)

/-- Start a handler: g1 to g4 and g63 are written, and the PC is checked at the first instruction, a bad target leaving
zero in EADDR. A supervisor message runs at the PC held at offset 0xD_BFF8. -/
def State.tapStart (s : State) (core : CoreNo) (t : TapMsg) : State :=
  let pc := if t.supervisor then BitVec.ofNat 64 (s.natAt (lsAddr core 0xDBFF8) 8) else t.pc
  let s := s.modCore core fun c => { c with
    tapTen := if t.ten then c.tapTen ||| (1#4 <<< t.set) else c.tapTen &&& ~~~(1#4 <<< t.set) }
  s.modCtx core (16 * t.set + 15) fun c =>
    let c := ((c.setG 1 t.a).setG 2 t.b).setG 3 ⟨t.src.setWidth 64, 0⟩
    { (c.setG 4 ⟨BitVec.ofNat 64 t.ctx, 0⟩).setG 63 ⟨ownLs 0xCCFF0, 0⟩ with
      pc, enter := some 0, run := .run, item := none, inst := none, pair := none, out := .none, sent := none }

/-- Start the oldest buffered message of the current set, if it is of the kind asked for. -/
def State.tapNext (s : State) (core : CoreNo) (supervisor : Bool) : Option State :=
  let c := s.coreAt core
  match takeFirst (fun t : TapMsg => t.set == c.cur) c.tap with
  | some (t, rest) =>
    if c.tapFree ∧ t.supervisor = supervisor then some ((s.modCore core fun c => { c with tap := rest }).tapStart core t)
    else none
  | none => none

/-- A message reaches the tap context of its set: its handler starts, or it waits in the 16-entry buffer, or it is refused.
A halted core discards it (DEDUCED, log 43). -/
def State.tapArrive (s : State) (core : CoreNo) (m : Msg) (t : TapMsg) : State :=
  let c := s.coreAt core
  let mine := c.tap.filter fun x => x.set == t.set
  if c.halted then
    ((s.consume m).logError m.part 0x04 (core.setWidth 64) m.src (realKey m.key % 16) (s.ctxAt m.src m.key).pc).2
  else if t.set = c.cur ∧ c.tapFree ∧ mine.isEmpty then (s.consume m).tapStart core t
  else if mine.length < 16 then (s.consume m).modCore core fun c => { c with tap := c.tap ++ [t] }
  else s.refuseOrDrop m

/-- An arriving message of R321: the next of its triple is taken as its kind is; one behind a refused message is refused
too. -/
def State.msgEvent (s : State) (core src : CoreNo) (p : Body → Bool) (go : Msg → State) : State :=
  match s.nextOf src core .th with
  | some m => if p m.body then go m else s
  | none => match s.laterOf src core .th p with
    | some m => s.refuseOrDrop m
    | none => s

/-- The next message of a triple to a tap context, if it is of the kind asked for. -/
def State.tapEvent (s : State) (core src : CoreNo) (sup : Bool) : State :=
  match s.tapNext core sup with
  | some s => s
  | none => s.msgEvent core src (fun b => match b with | .amsg _ _ _ _ supervisor _ => supervisor == sup | _ => false)
      fun m => match m.body with
        | .amsg pc a b ctx _ ten => s.tapArrive core m ⟨(s.setAt m.part core).1, sup, pc, a, b, src, ctx, ten⟩
        | _ => s

-- Messages that no link or route carries (R322, R360)

/-- A refusal reaches the source of the refused message, which will be sent again after its backoff (R321). -/
def State.backOff (s : State) (id : Nat) : State :=
  s.modMsg id fun x => { x with retryAt := s.cycle + backoffOf x.refusals }

/-- A message that a router refuses is answered with a code and logged: a request's asker gets it as its reply, a token its
status, a context its trap; what has no asker is logged alone. The token of a call-at takes the status word of the code
(DESIGN CHOICE, log 104). -/
def State.bounce (s : State) (m : Msg) (code : Nat) : State :=
  let s := s.consume m
  let log := fun (s : State) => s.logError m.part code (m.dst.setWidth 64) m.src (realKey m.key % 16) (s.ctxAt m.src m.key).pc
  match m.body with
  | .req q => s.answer m.dst q { code }
  | .resp who _ va => ((log s).2).deliver m.dst m.src who { code } va
  | .nogood key tok _ _ | .rtload key tok _ _ _ =>
    let (q, s) := log s
    s.writeToken m.src key tok ⟨statusWord code 1 q 0, 0⟩
  | .intern key .. | .lflush key => ((log s).2).refusal m.src key code 0 (m.dst.setWidth 64)
  | .migrate key _ _ va _ => ((log s).2).send m.dst m.src .th m.part 1 1 key (.migrated key [] 0 (some ((trapOf code 0).1, code, va)))
  | .stealReq .. => ((log s).2).send m.dst m.src .th m.part 1 1 m.key (.stealResp none)
  | .stealResp _ => ((log s).2).modCore m.dst fun c => { c with steal := { c.steal with busy := false } }
  | .callat i =>
    let (q, s) := log s
    s.writeToken m.src (realKey m.key) i.tok ⟨statusWord code 0 q 0, 0⟩
  | .refused id => ((log s).2).backOff id
  | _ => (log s).2

/-- The messages with a flit at a router that asks for an output. -/
def State.msgsAt (s : State) (r out : Nat) : List Msg :=
  s.msgs.filter fun m => s.flits.any fun f => f.router == r && f.msg == m.id && !f.bin && f.inp != 8 && f.inp != 9 && s.wants f == out

/-- The peer link by which a message leaves a package, if it goes to another (R396). -/
def Msg.peerLink (m : Msg) (pkg : Nat) : Option (Fin 12) :=
  if pkgOf m.dst = pkg then none else some (Config.peerLink pkg (pkgOf m.dst))
/-- The messages with a flit at the I/O die output of a package's routers that a peer link takes. -/
def State.msgsAtPeer (s : State) (pkg link : Nat) : List Msg :=
  (List.range 128).flatMap fun n => (s.msgsAt (128 * pkg + n) 5).filter fun m => (m.peerLink pkg).map Fin.val == some link

-- Events

/-- AMSG_DELIVERY (R328): a buffered message starts when the tap context is free, or the next of a triple arrives. -/
def execAmsgDelivery (core src : CoreNo) (s : State) : Host.Outcome State Fault Refusal := .next (s.tapEvent core src false)
/-- SUPERVISOR_HANDLER_START (R217). -/
def execSupervisorHandlerStart (core src : CoreNo) (s : State) : Host.Outcome State Fault Refusal :=
  .next (s.tapEvent core src true)

/-- CALLAT_ARRIVAL (R330, R321): the item joins the deque, waits for a move, or is refused. -/
def execCallatArrival (core src : CoreNo) (s : State) : Host.Outcome State Fault Refusal :=
  .next (s.msgEvent core src (fun b => match b with | .callat _ => true | _ => false) fun m => match m.body with
    | .callat i =>
      if (s.coreAt core).halted then
        ((s.consume m).logError m.part 0x04 (core.setWidth 64) m.src (realKey m.key % 16) (s.ctxAt m.src m.key).pc).2
      else match s.pushItem core i with
        | .ok t => t.consume m
        | .move t => t
        | .full => s.refuseOrDrop m
    | _ => s)

/-- REPLY_DELIVERY (R330): the value is written into the caller's token. -/
def execReplyDelivery (core src : CoreNo) (s : State) : Host.Outcome State Fault Refusal :=
  .next (s.msgEvent core src (fun b => match b with | .reply .. => true | _ => false) fun m => match m.body with
    | .reply key r v => (s.consume m).writeToken core (realKey key) r v
    | _ => s)

/-- A refusal that has come back to a core from a destination, after the messages before it of its triple have arrived
(R320), and the message it refuses. A predecessor that the core itself has refused has arrived; one that a route swap
holds at its source is not waited for, for the swap waits for the refused message (R333; log 113). -/
def State.refusalOf (s : State) (core dst : CoreNo) : Option (Msg × Nat) :=
  s.msgs.findSome? fun m => match m.body with
    | .refused id =>
      let before := fun (x : Msg) => x.src == m.src && x.dst == m.dst && x.path == m.path && decide (x.seq < m.seq)
      if m.src == dst && m.dst == core && decide (m.flits ≤ m.here) &&
          !(s.msgs.any fun x => before x && x.refusals == 0 && !x.held) then some (m, id) else none
    | _ => none

/-- MESSAGE_RETRY (R321): a refusal comes back to the sender, or a refused message is sent again after its backoff. -/
def execMessageRetry (core dst : CoreNo) (s : State) : Host.Outcome State Fault Refusal :=
  .next (match s.refusalOf core dst with
    | some (m, id) => (s.consume m).backOff id
    | none =>
      match s.msgs.find? (fun m => m.src == core && m.dst == dst && m.retryAt != 0 && decide (m.retryAt ≤ s.cycle)) with
      | some m => (s.modMsg m.id fun x => { x with retryAt := 0 }).inject m
      | none => s)

/-- FLIT_SLOT (R322, R324, R325): one slot of an output's calendar. A message whose route is no route is refused with code
0x01, and one routed over a failed link is answered with 0x04 (R360); a peer link stands behind an I/O die output (R396). -/
def execFlitSlot (router : BitVec 13) (out : Fin 8) (slot : Fin 64) (s : State) : Host.Outcome State Fault Refusal :=
  .next (
    let r := router.toNat
    if (slotIn out.val slot.val (s.cycleOf (r / 128))).isNone then s else
    let s := (s.msgsAt r 8).foldl (fun s m => s.bounce m 0x01) s
    let dead := (s.pkgAt (r / 128)).peerDead
    let s := if out.val = 5 ∧ dead ≠ [] then
        ((s.msgsAt r 5).filter fun m => match m.peerLink (r / 128) with | some l => dead.contains l.val | none => false).foldl
          (fun s m => s.bounce m 0x04) s
      else s
    if (s.routerAt r).dead.contains out.val then (s.msgsAt r out.val).foldl (fun s m => s.bounce m 0x04) s
    else
      let t := s.flitSlot r out.val slot.val
      if t.flits = s.flits then t else
        let t := t.modRouter r fun x => { x with fails := assocDel x.fails out.val }
        if out.val ≠ 5 ∨ (s.pkgAt (r / 128)).peerFails = [] then t
        else
          let left := fun (t : State) (m : Msg) => (t.flits.filter fun f => f.router == r && f.msg == m.id).length
          match (s.msgsAt r 5).find? fun m => decide (left t m < left s m) with
          | some m => t.modPkg (r / 128) fun p => { p with peerFails := p.peerFails.filter fun e => some e.1 != (m.peerLink (r / 128)).map Fin.val }
          | none => t)

/-- A flit failed the check of a peer link of a package (R359, R360, R396). -/
def State.peerRetry (s : State) (pkg link : Nat) : State :=
  let n := (assoc (s.pkgAt pkg).peerFails link).getD 0
  if (s.pkgAt pkg).peerDead.contains link then s
  else if n < 16 then
    let s := s.modPkg pkg fun p => { p with peerFails := assocSet p.peerFails link (n + 1) }
    match s.msgsAtPeer pkg link with
    | m :: _ => s.modCore m.src (·.count 3)
    | [] => s
  else
    let s := s.modPkg pkg fun p =>
      { p with peerDead := link :: p.peerDead, peerFails := assocDel p.peerFails link, reports := p.reports + 1 }
    (s.msgsAtPeer pkg link).foldl (fun s m => s.bounce m 0x04) s

/-- LINK_FLIT_RETRY (R359, R360): a flit failed its link check and is sent again, which the core that sent its message
counts (DESIGN CHOICE, log 103); after 16 retries the link has failed. The links are a router's outputs and, from 8 on, the
peer links of its package. -/
def execLinkFlitRetry (router : BitVec 13) (out : Fin 20) (s : State) : Host.Outcome State Fault Refusal :=
  .next (if 8 ≤ out.val then s.peerRetry (router.toNat / 128) (out.val - 8) else
    let r := router.toNat
    let n := (assoc (s.routerAt r).fails out.val).getD 0
    if (s.routerAt r).dead.contains out.val then s
    else if n < 16 then
      let s := s.modRouter r fun x => { x with fails := assocSet x.fails out.val (n + 1) }
      match s.msgsAt r out.val with
      | m :: _ => s.modCore m.src (·.count 3)
      | [] => s
    else
      let s := (s.modRouter r fun x => { x with dead := out.val :: x.dead, fails := assocDel x.fails out.val }).modPkg
        (r / 128) fun p => { p with reports := p.reports + 1 }
      (s.msgsAt r out.val).foldl (fun s m => s.bounce m 0x04) s)

/-- CALENDAR_UPDATE_EFFECT (R375): CALSET's writes at an output whose cycle has come take effect. -/
def execCalendarUpdateEffect (router : BitVec 13) (out : Fin 8) (s : State) : Host.Outcome State Fault Refusal :=
  .next (
    let r := router.toNat
    let now := s.cycleOf (r / 128)
    let due := (s.routerAt r).pend.filter fun p => p.1 == out.val && decide (p.2.2.2.2 ≤ now)
    due.foldl (fun s p =>
      let (o, n, arb, v, _) := p
      let a : Arb := { age := bitsAt v 24 8, w := #v[bitsAt v 0 4, bitsAt v 4 4, bitsAt v 8 4, bitsAt v 12 4] }
      s.modRouter r fun x =>
        if arb then { x with arbs := assocSet x.arbs (1024 * o + n) a }
        else { x with cal := assocSet x.cal (64 * o + n) (BitVec.ofNat 16 v) })
      (s.modRouter r fun x => { x with pend := x.pend.filter fun p => !(p.1 == out.val && decide (p.2.2.2.2 ≤ now)) }))

end Sys2Proof.Machine
end

