-- ==== Sys2Proof/Machine/Rewrite.lean ====
section
/-!
DEFINITION. The rewrite instructions (R296 to R316), major codes 0xB8 to 0xBE: nodes and the free list, LINK, pairs and
the routine hold, the rule table, and the rewrite unit. The unit's node reads and template links are its own steps.
-/
namespace Sys2Proof.Machine

-- Nodes (R297, R298)

/-- A node address: a 32-byte-aligned address of the local-store window in a compute core of the partition. -/
def State.nodeSpot (s : State) (core : CoreNo) (key : Nat) (a : Word) : Option Loc :=
  if a.toNat / 2 ^ 48 ≠ 0x1FF ∨ a.toNat % 32 ≠ 0 then none
  else match s.window core key a.toNat with
    | some (.ok l) => if l.peer then none else some l
    | _ => none
/-- A port word's node lies in the partition. -/
def State.portSpot (s : State) (core : CoreNo) (key : Nat) (x : BitVec 40) : Bool := (s.nodeSpot core key (nodeAddr x)).isSome
/-- The port word of a port of a node. -/
def portOf (a : Word) (p : Nat) : BitVec 40 := a.setWidth 40 ||| BitVec.ofNat 40 p
/-- 2·set + tenant of a context. -/
def State.hkOf (s : State) (core : CoreNo) (key : Nat) : Nat := 2 * keySet key + ((s.coreAt core).tenOf (realKey key)).toNat
/-- A context key that stands for a set and tenant. -/
def hkKey (hk : Nat) : Nat := 16 * (hk / 2) + 1 + 7 * (hk % 2)
/-- TYPE of a node. -/
def nodeType (x : Nat) : Nat := bitsAt x 52 12
/-- ARITY of a node. -/
def nodeArity (x : Nat) : Nat := bitsAt x 50 2

-- The free list (R306, R308)

/-- The head of a free list of a core. -/
def CoreSt.flhead (c : CoreSt) (hk : Nat) : Word := (assoc c.rewrite.heads hk).getD 0
/-- The home address of a node of the core's own list. -/
def ownNode (core : CoreNo) (a : Word) : Nat := lsAddr core (a.toNat % 2 ^ 20 / 32 * 32)
/-- Up to n nodes from the head of a free list. -/
def State.freeNodes (s : State) (core : CoreNo) : Nat → Word → List Word
  | 0, _ => []
  | n + 1, a => if a = 0 then [] else a :: s.freeNodes core n (BitVec.ofNat 64 (s.natAt (ownNode core a + 8) 8))
/-- Pop the head node and write its header: every label empty, every word full. -/
def State.popNode (s : State) (core : CoreNo) (hk type arity : Nat) : State :=
  let a := (s.coreAt core).flhead hk
  let ha := ownNode core a
  let next := BitVec.ofNat 64 (s.natAt (ha + 8) 8)
  let s := (s.putBytes ha (leBytes 32 (type * 2 ^ 52 + arity * 2 ^ 50))).breakBars ha 32
  let s := (List.range 8).foldl (fun s i => (s.putTag (ha + 4 * i) 0).putFull (ha + 4 * i) true) s
  let s := s.modCore core fun c => { c with rewrite := { c.rewrite with heads := assocSet c.rewrite.heads hk next } }
  s.recheck core ((s.coreAt core).parks.length + 1)

/-- Log a refusal of the rewrite instructions that names no node and raise its trap; its address is free (log 39). -/
def State.refuseOpen (s : State) (code : Nat) : State :=
  let (t, s) := s.draw
  s.refuseHere code (Config.openAddr t)

/-- NALLOC (R306). -/
def execNalloc (d a : GReg) (s : State) : Host.Outcome State Fault Refusal :=
  .next (s.guarded (.nalloc d a) fun s =>
    if !isCompute s.core then s.illegal
    else s.deciding [a] fun s =>
      let x := (s.me.g a).val.toNat
      if x / 2 ^ 14 ≠ 0 then s.illegal
      else
        let hk := s.hkOf s.core s.key
        let n := s.here.flhead hk
        if n = 0 then s.refuseOpen 0x72
        else ((s.popNode s.core hk (x % 2 ^ 12) (bitsAt x 12 2)).modMe fun c => c.setG d ⟨n, 0⟩).retire)

/-- NFREE (R307). -/
def execNfree (a : GReg) (s : State) : Host.Outcome State Fault Refusal :=
  .next (s.guarded (.nfree a) fun s =>
    if !isCompute s.core then s.illegal
    else s.deciding [a] fun s =>
      let va := (s.me.g a).val
      match s.nodeSpot s.core s.key va with
      | none => s.refuseHere 0x71 va
      | some l => s.ask l.home (s.req .nfree l va 32) .none)

-- LINK (R309)

/-- A request of LINK about the node of a port word; `n` bytes from its slot, or the whole node. -/
def State.linkReq (s : State) (act : Act) (x : BitVec 40) (slot : Bool) : Req :=
  let l : Loc := { ha := if slot then slotHa x else nodeHa x, home := portCore x, ls := true }
  s.req act l (nodeAddr x) (if slot then 8 else 32)
/-- Push the pair that a LINK has formed, if it has formed one. -/
def State.linkEnd (s : State) (x y : BitVec 40) : State :=
  if x.toNat % 4 = 0 ∧ y.toNat % 4 = 0 then
    s.pushThen { kind := .pair, a := ⟨nodeAddr x, 0⟩, b := ⟨nodeAddr y, 0⟩, set := keySet s.key,
                 ten := s.here.tenOf (realKey s.key), rel := some s.pushRel } fun s => s.retire
  else s.retire
/-- An access of a LINK: what it does, at which port, whether about its slot alone, and what the asker then waits for. -/
structure LinkAsk where
  act : Act
  port : BitVec 40
  slot : Bool
  out : Wr
/-- How a LINK goes on: an access, its refusal, or its end. -/
inductive LinkNext where
  | ask (a : LinkAsk)
  | refuse (code detail : Nat) (va : Word)
  | linked (x y : BitVec 40)
  | none
/-- How a LINK begins (R309): at one home in one step, or in two phases. -/
def linkStart (x y : BitVec 40) : Wr := if portCore x = portCore y then .linkBoth x y else .linkLock x y [] 0
/-- How a LINK in progress goes on (R309). -/
def Wr.linkNext : Wr → LinkNext
  | .linkBoth x y => .ask ⟨.linkBoth x y, x, false, .linkPush x y⟩
  | .linkLock x y locked _ =>
    let (lo, hi) := if slotHa x < slotHa y then (x, y) else (y, x)
    if !locked.contains lo then .ask ⟨.linkLock lo, lo, true, .linkLock x y locked lo⟩
    else if !locked.contains hi then .ask ⟨.linkLock hi, hi, true, .linkLock x y locked hi⟩
    else .ask ⟨.linkPut x y, x, true, .linkPuts x y [(y, x)] Option.none⟩
  | .linkPuts _ _ [] (some (code, detail, va)) => .refuse code detail va
  | .linkPuts x y [] Option.none => .linked x y
  | .linkPuts x y ((z, w) :: rest) fill =>
    .ask ⟨if fill.isSome then .linkFill z else .linkPut z w, z, true, .linkPuts x y rest fill⟩
  | .linkPush x y => .linked x y
  | _ => .none
/-- LINK's next accesses: those whose home is the issuing core follow one another in one issue. -/
def State.linkGo : Nat → State → State
  | 0, s => s
  | f + 1, s =>
    let send := fun (a : LinkAsk) =>
      let t := s.ask (portCore a.port) (s.linkReq a.act a.port a.slot) a.out
      if t.me.run = .run ∧ t.me.out ≠ .none then State.linkGo f t else t
    match s.me.out.linkNext with
    | .ask a => send a
    | .refuse code detail va => (s.modMe fun c => { c with out := .none, sent := none }).refusal s.core s.key code detail va
    | .linked x y => s.linkEnd x y
    | .none => s

/-- LINK (R309). A pair whose push would find the deque full traps before the slots are written (log 42). -/
def execLink (a b : GReg) (s : State) : Host.Outcome State Fault Refusal :=
  .next (s.guarded (.link a b) fun s =>
    if !isCompute s.core then s.illegal
    else s.deciding [a, b] fun s =>
      let x := (s.me.g a).val.setWidth 40
      let y := (s.me.g b).val.setWidth 40
      if s.me.out ≠ .none then State.linkGo 8 s
      else if !s.orderly .pk then s.wait .order
      else if x = y then s.refuseHere 0x76 (nodeAddr x)
      else if !s.portSpot s.core s.key x then s.refuseHere 0x71 (nodeAddr x)
      else if !s.portSpot s.core s.key y then s.refuseHere 0x71 (nodeAddr y)
      else
        let full := x.toNat % 4 == 0 && y.toNat % 4 == 0 &&
          (match s.pushItem s.core { kind := .pair, set := keySet s.key, ten := s.here.tenOf (realKey s.key) } with
            | .full => true
            | _ => false)
        if full then s.trapOpen 0x0D 0 else State.linkGo 8 (s.modMe fun c => { c with out := linkStart x y }))

-- Pairs (R310, R311)

/-- PPUSH (R310). -/
def execPpush (a b : GReg) (s : State) : Host.Outcome State Fault Refusal :=
  .next (s.guarded (.ppush a b) fun s =>
    if !isCompute s.core then s.illegal
    else s.deciding [a, b] fun s =>
      let x := (s.me.g a).val
      let y := (s.me.g b).val
      if (s.nodeSpot s.core s.key x).isNone then s.refuseHere 0x71 x
      else if (s.nodeSpot s.core s.key y).isNone ∨ x = y then s.refuseHere 0x71 y
      else s.pushThen { kind := .pair, a := ⟨x, 0⟩, b := ⟨y, 0⟩, set := keySet s.key,
                        ten := s.here.tenOf (realKey s.key), rel := some s.pushRel } fun s => s.retire)

/-- Whether the basket holds an active pair of a set and tenant. -/
def CoreSt.basket (c : CoreSt) (hk : Nat) : Bool :=
  c.deques.any fun p => p.2.items.any fun i => i.kind == .pair && 2 * i.set + i.ten.toNat == hk
/-- PPOP's answer when there is no pair to come (R311). -/
def CoreSt.ppopEnd (c : CoreSt) (hk begun : Nat) : Bool :=
  !c.basket hk && (c.rwRun (hk / 2)).isNone && (c.steal.domain == 0 || decide (begun < c.steal.empty))
/-- Whether a PPOP may complete. -/
def State.ppopReady (s : State) (core : CoreNo) (key begun : Nat) : Bool :=
  let hk := s.hkOf core key
  (s.coreAt core).rewrite.hold.any (fun p => p.hk == hk) || (s.coreAt core).ppopEnd hk begun
/-- Two registers that PPOP or RDISP cannot name: equal, g0 or g62. -/
def pairRegs (a b : GReg) : Bool := a == b || a == 0 || b == 0 || a == 62 || b == 62

/-- PPOP (R311): the oldest pair of the routine hold, or zeros when there is none to come, or a park. -/
def execPpop (d a : GReg) (s : State) : Host.Outcome State Fault Refusal :=
  .next (s.guarded (.ppop d a) fun s =>
    if !isCompute s.core ∨ pairRegs d a ∨ realKey s.key % 16 = 15 then s.illegal
    else
      let hk := s.hkOf s.core s.key
      let begun := match s.me.run with | .park (.ppop n) => n | _ => s.here.steal.begun
      let give := fun (s : State) (x y : Word) =>
        (s.modMe fun c => ((c.setG d ⟨x, 0⟩).setG a ⟨y, 0⟩).dropAhead).retire
      match takeFirst (fun p => p.hk == hk) s.here.rewrite.hold with
      | some (p, rest) =>
        give (s.modHere fun c => { c with rewrite := { c.rewrite with hold := rest } }) p.a p.b
      | none =>
        if (s.me.run == .park (.ppop begun) || s.here.steal.domain == 0) && s.here.ppopEnd hk begun then give s 0 0
        else if s.me.run = .park (.ppop begun) then s
        else s.parkCtx s.core s.key (.ppop begun))

-- Rules (R300 to R302)

/-- The home slot of a key in the rule table (R300). -/
def ruleHome (lo hi : BitVec 12) : Nat := (lo.toNat + 7 * hi.toNat) % 4096
/-- The slot that holds a key, or the empty slot that ends its probe, from a slot on (R300). -/
def probeRules (t : List (Nat × Rule)) (lo hi : BitVec 12) : Nat → Nat → Nat
  | 0, n => n
  | f + 1, n => match assoc t n with
    | none => n
    | some r => if r.lo = lo ∧ r.hi = hi then n else probeRules t lo hi f ((n + 1) % 4096)
/-- A rule inserted into the table (R300). -/
def insertRule (t : List (Nat × Rule)) (r : Rule) : List (Nat × Rule) :=
  assocSet t (probeRules t r.lo r.hi 4096 (ruleHome r.lo r.hi)) r
/-- The rule for two types. -/
def PartSt.rule (p : PartSt) (x y : Nat) : Option Rule :=
  let lo := BitVec.ofNat 12 (min x y)
  let hi := BitVec.ofNat 12 (max x y)
  (assoc p.rules (probeRules p.rules lo hi 4096 (ruleHome lo hi))).filter fun r => r.lo == lo && r.hi == hi
/-- The nodes in rule order: the first is the one of the rule's first type, or as the pair names them. -/
def Rule.order (r : Rule) (x y : Nat) (a b : Word) : Word × Word :=
  if x = y ∨ x = (if r.swap then r.hi else r.lo).toNat then (a, b) else (b, a)

/-- A field of a template. -/
def tmplAt (t : BitVec 256) (lo n : Nat) : Nat := (t.extractLsb' lo n).toNat
/-- A reference of a template: side 0 for X, 1 for Y. -/
def tmplRef (t : BitVec 256) (l side : Nat) : Nat := tmplAt t (128 + 16 * l + 8 * side) 8
/-- The ARITY of new node i. -/
def tmplArity (t : BitVec 256) (i : Nat) : Nat := tmplAt t (16 + 16 * i + 12) 2
/-- NEW. -/
def tmplNew (t : BitVec 256) : Nat := tmplAt t 0 3
/-- LINKS. -/
def tmplLinks (t : BitVec 256) : Nat := tmplAt t 4 4
/-- ARA. -/
def tmplAra (t : BitVec 256) : Nat := tmplAt t 8 2
/-- ARB. -/
def tmplArb (t : BitVec 256) : Nat := tmplAt t 10 2
/-- The references that a template must hold, each once (R302). -/
def tmplPorts (t : BitVec 256) : List Nat :=
  ((List.range (tmplAra t)).map fun p => p + 1) ++ ((List.range (tmplArb t)).map fun p => 0x20 + p + 1) ++
  (List.range (tmplNew t)).flatMap fun i => (List.range (tmplArity t i + 1)).map fun p => 32 * (2 + i) + p
/-- A well-formed template (R302). -/
def tmplOk (t : BitVec 256) : Bool :=
  let refs := (List.range (tmplLinks t)).flatMap fun l => [tmplRef t l 0, tmplRef t l 1]
  decide (tmplNew t ≤ 4) && tmplAt t 3 1 == 0 && decide (tmplLinks t ≤ 8) && tmplAt t 12 4 == 0 && tmplAt t 80 48 == 0 &&
  (List.range 4).all (fun i => if i < tmplNew t then tmplAt t (16 + 16 * i + 14) 2 == 0 && decide (tmplAt t (16 + 16 * i) 12 < 0xF00)
    else tmplAt t (16 + 16 * i) 16 == 0) &&
  (List.range 8).all (fun l => decide (l < tmplLinks t) || tmplAt t (128 + 16 * l) 16 == 0) &&
  refs.length == (tmplPorts t).length && (tmplPorts t).all fun p => refs.contains p

-- Reading a pair (R304, R312)

/-- What the two nodes of a pair come to: a HIDDEN word, a refusal with its address, or the two nodes. -/
inductive NodeRead where
  | drop
  | bad (code : Nat) (a : Word)
  | ok (x y : Nat)

/-- The two nodes of a pair as they were read, by a core for a partition, in the order of R304 and R312. -/
def State.pairNodes (s : State) (core : CoreNo) (k : PartKey) (a b : Word) (p q : List Byte × List Handle) : NodeRead :=
  let labs := fun (n : List Byte × List Handle) => n.2.map (s.resolve core k)
  let x := leNat p.1
  let y := leNat q.1
  if (labs p ++ labs q).contains hiddenH then .drop
  else if bitsAt x 49 1 = 1 then .bad 0x71 a
  else if bitsAt y 49 1 = 1 then .bad 0x71 b
  else if (labs p).any (· != 0) then .bad 0x74 a
  else if (labs q).any (· != 0) then .bad 0x74 b
  else .ok x y

-- The unit (R303, R304)

/-- Change the rewrite unit of a core. -/
def State.modRw (s : State) (core : CoreNo) (f : Rewrite → Rewrite) : State :=
  s.modCore core fun c => { c with rewrite := f c.rewrite }
/-- What the unit does for a pair is over. -/
def State.endRun (s : State) (core : CoreNo) (p : RwPair) : State :=
  s.modCore core fun c => c.modRwRun (p.hk / 2) fun _ => none
/-- The unit goes on with a pair in a new state. -/
def State.putUnitRun (s : State) (core : CoreNo) (r : RwRun) : State :=
  s.modCore core fun c => c.modRwRun (r.pair.hk / 2) fun _ => some r
/-- The pair moves unchanged into the routine hold, when that has room (R304). -/
def State.toHold (s : State) (core : CoreNo) (p : RwPair) : State :=
  if !(s.coreAt core).holdRoom p.hk then s
  else ((s.endRun core p).modRw core fun r => { r with hold := r.hold ++ [p] }).modCore core (·.count 9)
/-- The unit sets a template going: new nodes from the own free list. -/
def State.startTemplate (s : State) (core : CoreNo) (p : RwPair) (first second : Word) (t : BitVec 256) : State :=
  let news := s.freeNodes core (tmplNew t) ((s.coreAt core).flhead p.hk)
  let s := (List.range (tmplNew t)).foldl (fun s i =>
    s.popNode core p.hk (tmplAt t (16 + 16 * i) 12) (tmplArity t i)) s
  (s.endRun core p).modRw core fun r =>
    { r with taken := r.taken ++ [{ pair := p, first, second, tmpl := some t, news }] }
/-- Whether a template fits its pair and the free list: the code of what fails (R312), 0 for none. -/
def State.tmplFits (s : State) (core : CoreNo) (hk : Nat) (t : BitVec 256) (x y : Nat) : Nat :=
  if nodeArity x ≠ tmplAra t ∨ nodeArity y ≠ tmplArb t then 0x73
  else if (s.freeNodes core (tmplNew t) ((s.coreAt core).flhead hk)).length < tmplNew t then 0x72
  else 0

/-- The unit has read its pair: it drops it, holds it, or runs its template. -/
def State.unitDecide (s : State) (core : CoreNo) (p : RwPair) (n m : List Byte × List Handle) : State :=
  let k := s.partKey core (hkKey p.hk)
  match s.pairNodes core k p.a p.b n m with
  | .drop => (s.endRun core p).modCore core (·.count 8)
  | .bad _ _ => s.toHold core p
  | .ok x y => match (s.partAt k).rule (nodeType x) (nodeType y) with
    | some r =>
      let (first, second) := r.order (nodeType x) (nodeType y) p.a p.b
      let (fx, sy) := if first = p.a then (x, y) else (y, x)
      if r.template && s.tmplFits core p.hk r.tmpl fx sy == 0 then s.startTemplate core p first second r.tmpl
      else s.toHold core p
    | none => s.toHold core p

/-- An access of the unit: it stands for no context, waits under the PARKLIM of the root context, and refusals log it with
PC 0 (R304). One to its own core waits its turn there (R186). -/
def State.unitAsk (s : State) (core : CoreNo) (r : RwRun) (act : Act) (ha : Nat) (va : Word) (n : Nat) (out : Wr) : State :=
  let key := hkKey r.pair.hk
  let q : Req := { act, src := core, who := .unit r.pair.hk, part := s.partKey core key, va, ha, localStore := true, n,
                   jpos := (s.coreAt core).jcount,
                   limit := max ((s.coreAt core).ctxAt (16 * keySet key)).parklim.toNat 0x400 }
  if homeOf ha = core ∧ !s.turnOf core core .th 0 then s
  else (s.putUnitRun core { r with out, sent := some q, retryAt := 0 }).dispatch (homeOf ha) q

/-- The unit reads its pair as LDF reads: the first node, then the second. A pair whose addresses fail R297, or whose read
fails, goes to the hold. -/
def State.unitRead (s : State) (core : CoreNo) (r : RwRun) : State :=
  let key := hkKey r.pair.hk
  let read := fun (a : Word) (l : Loc) => s.unitAsk core r .ldf l.ha a 32 (.fetch l.ha)
  if r.err.isSome then s.toHold core r.pair
  else match s.nodeSpot core key r.pair.a, s.nodeSpot core key r.pair.b, r.got with
    | some p, some _, [] => read r.pair.a p
    | some _, some q, [_] => read r.pair.b q
    | some _, some _, n :: m :: _ => s.unitDecide core r.pair n m
    | _, _, _ => s.toHold core r.pair

/-- A template stops on an error, which enters the log with PC 0 (R304), unless its home has logged it. -/
def State.unitStop (s : State) (core : CoreNo) (r : RwRun) (code : Nat) (a : Word) : State :=
  ((s.logError (s.partKey core (hkKey r.pair.hk)) code a core 0 0).2).endRun core r.pair

/-- The wire or port that a reference of a template names (R302, R304): a port word, or the slot that holds it. -/
inductive RefAt where
  | port (x : BitVec 40)
  | slot (x : BitVec 40)
/-- What a reference names. -/
def RwRun.ref (r : RwRun) (n : Nat) : RefAt :=
  let p := n % 4
  match n / 32 with
  | 0 => .slot (portOf r.first p)
  | 1 => .slot (portOf r.second p)
  | i => .port (portOf (r.news.getD (i - 2) 0) p)

/-- The unit goes on to the next link, or to a node to free. -/
def RwRun.next (r : RwRun) : RwRun := { r with link := r.link + 1, refs := [], got := [], out := .none }

/-- A link of a template is made: an active pair that it forms is pushed (R304). -/
def State.unitPush (s : State) (core : CoreNo) (r : RwRun) (x y : BitVec 40) : State :=
  let key := hkKey r.pair.hk
  if x.toNat % 4 = 0 ∧ y.toNat % 4 = 0 then
    match s.pushItem core { kind := .pair, a := ⟨nodeAddr x, 0⟩, b := ⟨nodeAddr y, 0⟩, set := keySet key,
                            ten := (s.coreAt core).tenOf key,
                            rel := some ⟨core, key, (s.coreAt core).jcount, s.pushScope core⟩ } with
    | .ok s => s.putUnitRun core r.next
    | .move s => s
    | .full => s.unitStop core r 0x77 (nodeAddr x)
  else s.putUnitRun core r.next

/-- A link of a template, with the effect of LINK (R304, R309): its two port words, then LINK's accesses and the push. A
reference's slot is read full, as a node is, so that a LINK of two homes is one step for the unit (R61). -/
def State.unitLink (s : State) (core : CoreNo) (r : RwRun) (t : BitVec 256) : State :=
  let key := hkKey r.pair.hk
  match r.out.linkNext with
  | .ask a => s.unitAsk core r a.act (if a.slot then slotHa a.port else nodeHa a.port) (nodeAddr a.port)
      (if a.slot then 8 else 32) a.out
  | .refuse code _ a => if code = 0x100 then s.unitStop core r 0x07 a else s.endRun core r.pair
  | .linked x y => s.unitPush core r x y
  | .none => match r.refs, r.got with
    | [x, y], _ =>
      if x = y then s.unitStop core r 0x76 (nodeAddr x)
      else if !s.portSpot core key x then s.unitStop core r 0x71 (nodeAddr x)
      else if !s.portSpot core key y then s.unitStop core r 0x71 (nodeAddr y)
      else s.putUnitRun core { r with out := linkStart x y }
    | _, w :: _ => s.putUnitRun core { r with refs := r.refs ++ [BitVec.ofNat 40 (leNat w.1)], got := [] }
    | _, [] => match r.ref (tmplRef t r.link r.refs.length) with
      | .port x => s.putUnitRun core { r with refs := r.refs ++ [x] }
      | .slot x => s.unitAsk core r .ldf (slotHa x) (nodeAddr x + BitVec.ofNat 64 (slotOff x % 32)) 8 (.fetch (slotHa x))

/-- The unit's next step in a template: a link, or at its end freeing the first node, then the second (R304, R307). -/
def State.unitTemplate (s : State) (core : CoreNo) (r : RwRun) (t : BitVec 256) : State :=
  match r.err with
  | some (0x100, a) => s.unitStop core r 0x07 a
  | some _ => s.endRun core r.pair
  | none =>
    if r.link < tmplLinks t then s.unitLink core r t
    else if r.link < tmplLinks t + 2 then
      let a := if r.link = tmplLinks t then r.first else r.second
      if r.out = .doneOk then s.putUnitRun core r.next
      else s.unitAsk core r .nfree (nodeHa (a.setWidth 40)) a 32 .done
    else (s.endRun core r.pair).modCore core (·.count 7)

/-- The unit's next step with the pair that it has taken. It waits for its access in flight, and sends one that a full park
table refused again after its backoff (R182). -/
def State.unitStep (s : State) (core : CoreNo) (r : RwRun) : State :=
  match r.sent with
  | some q =>
    if r.retryAt ≠ 0 ∧ r.retryAt ≤ s.cycle ∧ (homeOf q.ha ≠ core ∨ s.turnOf core core .th 0) then (s.putUnitRun core { r with retryAt := 0 }).dispatch (homeOf q.ha) q else s
  | none => match r.tmpl with
    | none => s.unitRead core r
    | some t => s.unitTemplate core r t

/-- The unit takes the bottom-most active pair of the current set, where its hold has room (R303). -/
def State.unitTake (s : State) (core : CoreNo) : State :=
  let c := s.coreAt core
  match [false, true].findSome? (fun ten =>
      let h := c.half c.cur ten
      let hk := 2 * c.cur + ten.toNat
      if (c.dq h).busy || !c.holdRoom hk then none
      else ((c.dq h).takeBottom fun i => i.kind == .pair && i.set == c.cur && i.ten == ten && s.itemReady i).map
        fun p => (h, hk, p.1, p.2)) with
  | none => s
  | some (h, hk, i, d) =>
    (s.modCore core fun c => c.modDq h fun old => { d with takes := old.takes + 1 }).modRw core fun u =>
      { u with taken := u.taken ++ [{ pair := ⟨i.a.val, i.b.val, hk⟩ }] }

/-- A node of RDISP's pair, read as LDF reads: its bytes and handles, or the state in which the instruction waits. -/
def State.fetchNode (s : State) (l : Loc) (va : Word) : Except State ((List Byte × List Handle) × State) :=
  let got := fun (s : State) => (s.me.fetched.find? fun p => p.1 == l.ha && p.2.1.length == 32).map (·.2)
  match got s with
  | some n => .ok (n, s)
  | none =>
    let t := s.ask l.home (s.req .ldf l va 32) (.fetch l.ha)
    match t.me.run, got t with
    | .run, some n => .ok (n, t)
    | _, _ => .error t

/-- RDISP's pair is handed to the unit, which checks it again once it is idle: it runs the template, or puts the pair in the
hold (R312). -/
def State.handOff (s : State) (x y p q : Word) (t : BitVec 256) : State :=
  let hk := s.hkOf s.core s.key
  let node := fun (a : Word) => s.natAt (nodeHa (a.setWidth 40)) 8
  if (s.here.rwRun (hk / 2)).isSome then (s.modMe fun c => { c with out := .rdisp p q t }).wait .unit
  else if s.tmplFits s.core hk t (node p) (node q) = 0 then (s.startTemplate s.core ⟨x, y, hk⟩ p q t).retire
  else if s.here.holdRoom hk then (s.toHold s.core ⟨x, y, hk⟩).retire
  else (s.modMe fun c => { c with out := .rdisp p q t }).wait .unit

/-- RDISP (R312): a pair is dropped, refused, sent to its routine, or handed to the unit. A routine writes g62, which may
not be a pending token (R103). -/
def execRdisp (a b : GReg) (s : State) : Host.Outcome State Fault Refusal :=
  .next (s.guarded (.rdisp a b) fun s =>
    if !isCompute s.core ∨ pairRegs a b then s.illegal
    else s.deciding [a, b] fun s =>
      let x := (s.me.g a).val
      let y := (s.me.g b).val
      let hk := s.hkOf s.core s.key
      let put := fun (s : State) (p q : Word) => s.modMe fun c => (c.setG a ⟨p, 0⟩).setG b ⟨q, 0⟩
      match s.me.out, s.nodeSpot s.core s.key x, s.nodeSpot s.core s.key y with
      | .rdisp p q t, _, _ => s.handOff x y p q t
      | _, none, _ => s.refuseHere 0x71 x
      | _, _, none => s.refuseHere 0x71 y
      | _, some l, some m => match s.fetchNode l x with
        | .error t => t
        | .ok (n, s) => match s.fetchNode m y with
          | .error t => t
          | .ok (o, s) => match s.pairNodes s.core s.part x y n o with
            | .drop => ((put s 0 0).modHere (·.count 8)).retire
            | .bad code n => s.refuseHere code n
            | .ok m n => match (s.partAt s.part).rule (nodeType m) (nodeType n) with
              | none => s.refuseHere 0x70 x
              | some r =>
                let (p, q) := r.order (nodeType m) (nodeType n) x y
                let (fx, sy) := if p = x then (m, n) else (n, m)
                if !r.template then
                  if s.me.pend.contains 62 then s.illegal
                  else ((put s p q).modMe fun c => c.setG 62 ⟨nextPc c.pc, 0⟩).transfer r.pc
                else match s.tmplFits s.core hk r.tmpl fx sy with
                  | 0 => (put s p q).handOff x y p q r.tmpl
                  | code => s.refuseHere code (if code = 0x73 ∧ nodeArity fx = tmplAra r.tmpl then q else p))

-- RTLOAD (R313)

/-- The image of RTLOAD as loads of the thread path, which the watch comparators meet (R313, R376). -/
def State.imageRead (s : State) (va : Word) (n : Nat) : Except State (List Byte) :=
  match if s.me.dbg.pass then none else s.me.watched va n Use5.load.kinds with
  | some (i, x) => .error (s.watchHit i x)
  | none => s.vread .load va.toNat (n / 64 + 2) n

/-- RTLOAD (R313): the core reads the image and sends it to the label home. -/
def execRtload (t a : GReg) (s : State) : Host.Outcome State Fault Refusal :=
  .next (s.guarded (.rtload t a) fun s => s.rootOnly fun s =>
    if t = 0 ∨ !isCompute s.core then s.illegal
    else s.deciding [a] fun s =>
      let va := (s.me.g a).val
      let inside := match s.window s.core s.key va.toNat with | some (.error _) => false | _ => true
      if inside && va.toNat % 8 != 0 then s.trap 0x08 0 va
      else match s.imageRead va 8 with
        | .error u => u
        | .ok h =>
          let n := bitsAt (leNat h) 0 13
          let len := if n = 0 ∨ 4096 < n then 8 else 8 + 16 * n
          match s.imageRead va len with
          | .error u => u
          | .ok bs =>
            let image := (List.range (len / 8)).map fun i => BitVec.ofNat 64 (leNat ((bs.drop (8 * i)).take 8))
            ((s.markToken t).send s.core (s.partAt s.part).lhome .th s.part 0 (flitsFor len) s.key
              (.rtload s.key t va s.me.pc image)).retire)

/-- A template at an address of the partition. The label home walks the address itself. -/
def State.tmplAtAddr (s : State) (core : CoreNo) (key : Nat) (a : Word) : Option (BitVec 256) :=
  if a.toNat % 32 ≠ 0 then none
  else
    let at_ := fun (home : CoreNo) (ha : Nat) =>
      if (s.coreAt home).halted then none else some (BitVec.ofNat 256 (s.natAt ha 32))
    match s.window core key a.toNat with
    | some (.ok l) => at_ l.home l.ha
    | some (.error _) => none
    | none => match s.walk (s.partKey core key) a.toNat with
      | .entry e =>
        let pa := e.pa + (a.toNat - e.va)
        if e.r && s.paOk pa && pa / 2 ^ 51 == pkgOf core then at_ (homeOf pa) pa else none
      | _ => none

/-- The table that an image gives, its rules inserted in image order into an empty one; none where R301 or R302 rejects the
image or a key stands twice (R313). -/
def State.rulesOf (s : State) (core : CoreNo) (key : Nat) : List (BitVec 64) → List (Nat × Rule) → Option (List (Nat × Rule))
  | [], acc => some acc
  | [_], _ => none
  | d :: p :: rest, acc =>
    let a := d.extractLsb' 0 12
    let b := d.extractLsb' 12 12
    let lo := if a.toNat ≤ b.toNat then a else b
    let hi := if a.toNat ≤ b.toNat then b else a
    let r : Rule := { lo, hi, swap := decide (b.toNat < a.toNat), template := d.getLsbD 24, pc := p }
    if d.toNat / 2 ^ 25 ≠ 0 ∨ acc.any (fun x => x.2.lo == lo && x.2.hi == hi) then none
    else if !r.template then s.rulesOf core key rest (insertRule acc r)
    else match s.tmplAtAddr core key p with
      | some t => if tmplOk t ∧ hi.toNat < 0xF00 then s.rulesOf core key rest (insertRule acc { r with tmpl := t, pc := 0 })
        else none
      | none => none

-- Events

/-- RTLOAD_APPLY (R313): the label home validates the image and replaces the rule table. -/
def execRtloadApply (core src : CoreNo) (s : State) : Host.Outcome State Fault Refusal :=
  .next (match s.take src core .th (fun b => match b with | .rtload .. => true | _ => false) with
    | some (m, s) => match m.body with
      | .rtload key tok addr pc image =>
        let n := (image.headD 0).toNat
        let rules := if 1 ≤ n ∧ n ≤ 4096 then s.rulesOf src key image.tail [] else none
        match rules with
        | some rs => (s.modPart m.part fun p => { p with rules := rs }).writeToken src key tok ⟨statusWord 0 1 0 n, 0⟩
        | none =>
          let (q, s) := s.logError m.part 0x75 addr src (realKey key % 16) pc
          s.writeToken src key tok ⟨statusWord 0x75 1 q 0, 0⟩
      | _ => s
    | none => s)

/-- A pre-empted context, or one held by the interrupt handler (R354), whose LINK has more to do: the access unit goes on
with it (R316). -/
def CoreSt.linkKey (c : CoreSt) : Option Nat :=
  (c.ctxs.find? fun p => (keySet p.1 != c.cur || c.irqHolds p.1) && (p.2.run == .run || p.2.run == .wait .move) &&
    (match p.2.out.linkNext with | .none => false | _ => true)).map (·.1)

/-- REWRITE_UNIT_TAKE (R303, R304, R316): the unit's next step, which is to take a pair, to read it, or a step of its
template; or, first, the next accesses of a pre-empted context's LINK. -/
def execRewriteUnitTake (core : CoreNo) (s : State) : Host.Outcome State Fault Refusal :=
  .next (
    let c := s.coreAt core
    if !c.live ∨ !isCompute core then s
    else match c.linkKey with
    | some key => s.asCtx core key (State.linkGo 8)
    | none => match c.rwRun c.cur with
      | none => s.unitTake core
      | some r => s.unitStep core r)

end Sys2Proof.Machine
end

