-- ==== Sys2Proof/Machine/Scalar.lean ====
section
/-!
DEFINITION. The scalar float instructions (R195 to R202), major codes 0x60 to 0x6B, and the special-function unit with
its requests and events (R213, R214), major codes 0x70 to 0x77.
-/
namespace Sys2Proof.Machine

/-- The low bits of a register as an operand of a type (R195). -/
def opnd (t : Ty) (x : LWord) : Nat := x.val.toNat % 2 ^ tyBits t

/-- A scalar float instruction (R195, R198): the labels of its sources are conjoined, its flags are raised, and its
result is written with the upper bits zero. -/
def State.scalarOp (s : State) (i : Instr) (labs : Ctx → List Handle) (f : Ctx → Word × Flags)
    (put : LWord → Ctx → Ctx) : State :=
  s.guarded i fun s => match s.conj (labs s.me) with
    | .stop s => s
    | .ok h s =>
      let (v, fl) := f s.me
      ((s.raise fl).modMe (put ⟨v, h⟩)).retire

/-- A result of an f register. -/
def fres (r : Nat × Flags) : Word × Flags := (BitVec.ofNat 64 r.1, r.2)

/-- Two f sources. -/
def State.f2 (s : State) (i : Instr) (t : Ty) (d a b : FReg) (op : Nat → Nat → Nat × Flags) : State :=
  s.scalarOp i (fun c => [(c.f a).lab, (c.f b).lab]) (fun c => fres (op (opnd t (c.f a)) (opnd t (c.f b))))
    (fun v c => c.setF d v)
/-- One f source. -/
def State.f1 (s : State) (i : Instr) (t : Ty) (d a : FReg) (op : Nat → Nat × Flags) : State :=
  s.scalarOp i (fun c => [(c.f a).lab]) (fun c => fres (op (opnd t (c.f a)))) (fun v c => c.setF d v)

/-- FADD (R199). -/
def execFadd (t : FTy) (r : Rnd) (d a b : FReg) (s : State) : Host.Outcome State Fault Refusal :=
  .next (s.f2 (.fadd t r d a b) t.ty d a b (fAdd t.ty r false))
/-- FSUB (R199). -/
def execFsub (t : FTy) (r : Rnd) (d a b : FReg) (s : State) : Host.Outcome State Fault Refusal :=
  .next (s.f2 (.fsub t r d a b) t.ty d a b (fSub t.ty r false))
/-- FMUL (R199). -/
def execFmul (t : FTy) (r : Rnd) (d a b : FReg) (s : State) : Host.Outcome State Fault Refusal :=
  .next (s.f2 (.fmul t r d a b) t.ty d a b (fMul t.ty r false))
/-- FMA (R199): one rounding. -/
def execFma (t : FTy) (r : Rnd) (d a b c : FReg) (s : State) : Host.Outcome State Fault Refusal :=
  .next (s.scalarOp (.fma t r d a b c) (fun x => [(x.f a).lab, (x.f b).lab, (x.f c).lab])
    (fun x => fres (fFma t.ty r (opnd t.ty (x.f a)) (opnd t.ty (x.f b)) (opnd t.ty (x.f c)))) (fun v x => x.setF d v))
/-- FMIN (R51). -/
def execFmin (t : FTy) (d a b : FReg) (s : State) : Host.Outcome State Fault Refusal :=
  .next (s.f2 (.fmin t d a b) t.ty d a b (fMinMax t.ty false))
/-- FMAX (R51). -/
def execFmax (t : FTy) (d a b : FReg) (s : State) : Host.Outcome State Fault Refusal :=
  .next (s.f2 (.fmax t d a b) t.ty d a b (fMinMax t.ty true))
/-- FABS (R199): only the sign bit changes. -/
def execFabs (t : FTy) (d a : FReg) (s : State) : Host.Outcome State Fault Refusal :=
  .next (s.f1 (.fabs t d a) t.ty d a fun x => (fAbs t.ty x, 0))
/-- FNEG (R199): only the sign bit changes. -/
def execFneg (t : FTy) (d a : FReg) (s : State) : Host.Outcome State Fault Refusal :=
  .next (s.f1 (.fneg t d a) t.ty d a fun x => (fNeg t.ty x, 0))

/-- A condition of FCMP as one of R117. -/
def condOf : FCond → Cond
  | .eq => .eq | .ne => .ne | .lt => .lt | .ge => .ge

/-- FCMP (R200). -/
def execFcmp (c : FCond) (t : FTy) (d : GReg) (a b : FReg) (s : State) : Host.Outcome State Fault Refusal :=
  .next (s.scalarOp (.fcmp c t d a b) (fun x => [(x.f a).lab, (x.f b).lab])
    (fun x => let r := fCmp t.ty (condOf c) (opnd t.ty (x.f a)) (opnd t.ty (x.f b))
      (if r.1 then 1 else 0, r.2)) (fun v x => x.setG d v))

/-- FCVT between float formats (R201). -/
def execFcvtFf (ta tb : Ty) (r : Rnd) (sat : Bool) (d a : FReg) (s : State) : Host.Outcome State Fault Refusal :=
  .next (s.f1 (.fcvtFf ta tb r sat d a) tb d a (fConv ta tb r sat))
/-- An integer result in a g register (R201): sign-extended for .i types, zero-extended for .n types. -/
def intRes (t : Ty) (x : Nat) : Word := if tySigned t then sextNat (tyBits t) x else BitVec.ofNat 64 (x % 2 ^ tyBits t)
/-- FCVT to an integer (R44, R201). -/
def execFcvtGf (ta : Ty) (tb : FTy) (r : Rnd) (sat : Bool) (d : GReg) (a : FReg) (s : State) :
    Host.Outcome State Fault Refusal :=
  .next (s.scalarOp (.fcvtGf ta tb r sat d a) (fun x => [(x.f a).lab])
    (fun x => let q := fToI ta tb.ty r (opnd tb.ty (x.f a)); (intRes ta q.1, q.2)) (fun v x => x.setG d v))
/-- FCVT from an integer (R45, R201). -/
def execFcvtFg (ta : FTy) (tb : Ty) (r : Rnd) (sat : Bool) (d : FReg) (a : GReg) (s : State) :
    Host.Outcome State Fault Refusal :=
  .next (s.scalarOp (.fcvtFg ta tb r sat d a) (fun x => [(x.g a).lab])
    (fun x => fres (iToF ta.ty tb r sat (opnd tb (x.g a)))) (fun v x => x.setF d v))
/-- FMOV from a g register (R201): all 64 bits and the label, resolved (R147). -/
def execFmovFg (d : FReg) (a : GReg) (s : State) : Host.Outcome State Fault Refusal :=
  .next (s.guarded (.fmovFg d a) fun s => (s.modMe fun c => c.setF d (s.val (c.g a))).retire)
/-- FMOV to a g register (R201). -/
def execFmovGf (d : GReg) (a : FReg) (s : State) : Host.Outcome State Fault Refusal :=
  .next (s.guarded (.fmovGf d a) fun s => (s.modMe fun c => c.setG d (s.val (c.f a))).retire)
/-- FMOV between f registers (R201). -/
def execFmovFf (d a : FReg) (s : State) : Host.Outcome State Fault Refusal :=
  .next (s.guarded (.fmovFf d a) fun s => (s.modMe fun c => c.setF d (s.val (c.f a))).retire)
/-- FRINT (R202). -/
def execFrint (t : FTy) (r : Rnd) (d a : FReg) (s : State) : Host.Outcome State Fault Refusal :=
  .next (s.f1 (.frint t r d a) t.ty d a (fRint t.ty r))
/-- FSCALE (R202). -/
def execFscale (t : FTy) (r : Rnd) (d a : FReg) (b : GReg) (s : State) : Host.Outcome State Fault Refusal :=
  .next (s.scalarOp (.fscale t r d a b) (fun x => [(x.f a).lab, (x.g b).lab])
    (fun x => fres (fScale t.ty r (opnd t.ty (x.f a)) (x.g b).val.toInt)) (fun v x => x.setF d v))

-- The special-function unit (R213, R214)

/-- Issue a request (R213): the context waits until its result is written. The first eight requests of the list are the
unit's queue; the later ones wait for a free entry in issue order. -/
def State.sfuOp (s : State) (i : Instr) (a b : FReg) (two : Bool) : State :=
  s.guarded i fun s =>
    match s.conj ((s.me.f a).lab :: (if two then [(s.me.f b).lab] else [])) with
    | .stop s => s
    | .ok h s =>
      let c := s.me
      let q : SfuReq := { key := s.key, i, a := c.f a, b := c.f b, lab := h, pc := c.pc }
      (s.modHere fun k => { k with sfu := k.sfu ++ [q] }).wait .sfu

/-- FDIV (R213). -/
def execFdiv (t : FTy) (d a b : FReg) (s : State) : Host.Outcome State Fault Refusal :=
  .next (s.sfuOp (.fdiv t d a b) a b true)
/-- FEXP2F (R213). -/
def execFexp2f (t : FTy) (d a : FReg) (s : State) : Host.Outcome State Fault Refusal :=
  .next (s.sfuOp (.fexp2f t d a) a a false)
/-- FLOG2 (R213). -/
def execFlog2 (t : FTy) (d a : FReg) (s : State) : Host.Outcome State Fault Refusal :=
  .next (s.sfuOp (.flog2 t d a) a a false)
/-- FRCP (R213). -/
def execFrcp (t : FTy) (d a : FReg) (s : State) : Host.Outcome State Fault Refusal :=
  .next (s.sfuOp (.frcp t d a) a a false)
/-- FRSQ (R213). -/
def execFrsq (t : FTy) (d a : FReg) (s : State) : Host.Outcome State Fault Refusal :=
  .next (s.sfuOp (.frsq t d a) a a false)
/-- FSQRT (R213). -/
def execFsqrt (t : FTy) (d a : FReg) (s : State) : Host.Outcome State Fault Refusal :=
  .next (s.sfuOp (.fsqrt t d a) a a false)
/-- FSIN (R213). -/
def execFsin (t : FTy) (d a : FReg) (s : State) : Host.Outcome State Fault Refusal :=
  .next (s.sfuOp (.fsin t d a) a a false)
/-- FCOS (R213). -/
def execFcos (t : FTy) (d a : FReg) (s : State) : Host.Outcome State Fault Refusal :=
  .next (s.sfuOp (.fcos t d a) a a false)

/-- The free value that chooses an approximate result inside its bound, by function, format and operand (log 12). -/
def sfuChoice (i : Instr) (t : FTy) (a : LWord) : Nat :=
  Config.sfuPick i.op (t == .f64) (BitVec.ofNat 64 (opnd t.ty a))

/-- A request's destination, result and flags. -/
def SfuReq.result (q : SfuReq) : FReg × Nat × Flags :=
  let x := fun (t : FTy) => opnd t.ty q.a
  let pick := fun (t : FTy) => sfuChoice q.i t q.a
  match q.i with
  | .fdiv t d _ _ => (d, fDiv t.ty (x t) (opnd t.ty q.b))
  | .fexp2f t d _ => (d, fExp2 t.ty (pick t) (x t))
  | .flog2 t d _ => (d, fLog2 t.ty (pick t) (x t))
  | .frcp t d _ => (d, fRcp t.ty (pick t) (x t))
  | .frsq t d _ => (d, fRsq t.ty (pick t) (x t))
  | .fsqrt t d _ => (d, fSqrt t.ty (x t))
  | .fsin t d _ => (d, fTrig t.ty false (pick t) (x t))
  | .fcos t d _ => (d, fTrig t.ty true (pick t) (x t))
  | _ => (0, 0, 0)

/-- A request's result is written (R213, R214, R217): the context that waits for it retires its instruction; one that
has trapped or been stopped since gets the result and the flags, whose event is raised at once. -/
def State.sfuWrite (s : State) (core : CoreNo) (q : SfuReq) : State :=
  let (d, v, fl) := q.result
  let s := s.modCtx core q.key fun c => c.setF d ⟨BitVec.ofNat 64 v, q.lab⟩
  let c := s.ctxAt core q.key
  if c.run = .wait .sfu then (s.modCtx core q.key fun c => c.raise fl).retireCtx core q.key
  else
    let s := s.modCtx core q.key fun c => { c with fflags := c.fflags ||| fl }
    if fl &&& c.fenable = 0 then s else s.supervise core q.key q.pc fl

-- Events

/-- SFU_SERVICE_START (R213): service of the oldest request begins when none is served. -/
def execSfuServiceStart (core : CoreNo) (s : State) : Host.Outcome State Fault Refusal :=
  .next (match (s.coreAt core).sfu with
    | q :: rest => if q.started then s else s.modCore core fun c => { c with sfu := { q with started := true } :: rest }
    | [] => s)
/-- SFU_RESULT (R213): the request that is served is complete. -/
def execSfuResult (core : CoreNo) (s : State) : Host.Outcome State Fault Refusal :=
  .next (match (s.coreAt core).sfu with
    | q :: rest => if q.started then (s.modCore core fun c => { c with sfu := rest }).sfuWrite core q else s
    | [] => s)

end Sys2Proof.Machine
end

