-- ==== Sys2Proof/Machine/Vector.lean ====
section
/-!
DEFINITION. The vector instructions (R192 to R207), major codes 0x80 to 0x91: lane operations with their masks and label
slots, compares, selects, conversions and reductions, and the vector loads and stores in parts.
-/
namespace Sys2Proof.Machine

-- The result of a vector instruction

/-- Form the label slots of a result one by one. -/
def State.slotConjs (s : State) : List (List Handle) → List Handle → Except State (List Handle × State)
  | [], acc => .ok (acc.reverse, s)
  | hs :: t, acc => match s.conj hs with
    | .ok h s => s.slotConjs t (h :: acc)
    | .stop s => .error s

/-- Write a v operand and retire: a stream takes a push (R211), whose faults leave the instruction with no effect. -/
def State.putV (s : State) (srcs : List VOp) (d : VOp) (x : BitVec 1024) (labs : List (List Handle)) (fl : Flags) :
    State :=
  match s.slotConjs labs [] with
  | .error t => t
  | .ok (ls, s) => match d with
    | .v n => (((s.raise fl).popAll srcs).modMe fun c => c.setV n ⟨x, labVec ls⟩).retire
    | .s n => s.pushStream n (streamsOf srcs) (leBytes 128 x.toNat) ls fl

/-- A vector instruction with a v result: the checks of its streams, its sources, and what `f` makes of them. -/
def State.vecOp (s : State) (i : Instr) (srcs : List VOp) (d : VOp)
    (f : List VSrc → BitVec 1024 × List (List Handle) × Flags) : State :=
  s.guarded i fun s => s.orPush fun s => match s.streamStop (srcs ++ [d]) with
    | some t => t
    | none => match s.readVs srcs with
      | .error t => t
      | .ok vs => let (x, ls, fl) := f vs; s.putV srcs d x ls fl

-- Lanes (R192 to R194, R203)

/-- The lanes of an operand. -/
def VSrc.lanes (v : VSrc) (w : Nat) : List Nat := lanesOf w v.data
/-- An operation on every lane: its results and its flags. -/
def mapLanes (w : Nat) (vs : List VSrc) (f : List Nat → Nat × Flags) : List (Nat × Flags) :=
  let cols := vs.map fun v => v.lanes w
  (List.range (1024 / w)).map fun i => f (cols.map fun c => c.getD i 0)
/-- The flags of all lanes. -/
def orFlags (l : List (Nat × Flags)) : Flags := l.foldl (fun a r => a ||| r.2) 0
/-- The labels of the slots of a result from the labels that each lane reads (R193). -/
def slotsOf (w : Nat) (f : Nat → List Handle) : List (List Handle) :=
  (List.range 32).map fun j => (slotLanes w j).flatMap f

/-- An unmasked lane operation (R193, R198). -/
def laneOp (w : Nat) (f : List Nat → Nat × Flags) (vs : List VSrc) : BitVec 1024 × List (List Handle) × Flags :=
  let rs := mapLanes w vs f
  (packLanes w (rs.map (·.1)), slotsOf w (fun i => vs.flatMap fun v => v.laneLab w i), orFlags rs)

/-- A lane that is active under a mask (R194). -/
def MaskReg.active (m : MaskReg) (w i : Nat) : Bool := bitsAt m.bits.toNat (i * (w / 8)) (w / 8) == 2 ^ (w / 8) - 1
/-- The mask's slots as a source. -/
def MaskReg.labs (m : MaskReg) : List (List Handle) := m.lab.toList.map fun h => [h]

/-- A masked lane operation (R194): the last source is the old vD. -/
def maskedOp (w : Nat) (m : MaskReg) (f : List Nat → Nat × Flags) (vs : List VSrc) :
    BitVec 1024 × List (List Handle) × Flags :=
  let old : VSrc := vs.getLastD { data := 0, lab := [] }
  let srcs := vs.dropLast
  let rs := mapLanes w srcs f
  let on := fun i => m.active w i
  let data := (List.range (1024 / w)).map fun i => if on i then (rs.getD i (0, 0)).1 else (old.lanes w).getD i 0
  let fl := orFlags ((List.range (1024 / w)).filterMap fun i => if on i then rs[i]? else none)
  let mv : VSrc := { data := 0, lab := m.labs }
  let labs := (List.range 32).map fun j => (slotLanes w j).flatMap fun i =>
    if on i then (srcs ++ [mv]).flatMap fun v => v.laneLab w i else old.lab.getD j [] ++ m.labs.getD j []
  (packLanes w data, labs, fl)

/-- A lane operation with an optional mask. -/
def State.laneForm (s : State) (i : Instr) (t : Ty) (m : Option MReg) (srcs : List VOp) (d : VOp)
    (f : List Nat → Nat × Flags) : State :=
  let w := tyBits t
  match m with
  | none => s.vecOp i srcs d (laneOp w f)
  | some k => s.vecOp i (srcs ++ [d]) d (maskedOp w (s.me.m k) f)

/-- The five arithmetic operations of masked form. -/
inductive VArith where
  | add | sub | mul | min | max
  deriving DecidableEq, Repr

/-- A float result under .sat: an infinite one becomes the largest finite (R203). -/
def satInf (t : Ty) (sat : Bool) (r : Nat × Flags) : Nat × Flags :=
  match sat, decF t r.1 with
  | true, .inf neg => infResult t true neg
  | _, _ => r

/-- A lane of VADD, VSUB, VMUL, VMIN or VMAX (R203). -/
def arithLane (op : VArith) (t : Ty) (r : Rnd) (sat : Bool) (x y : Nat) : Nat × Flags :=
  if t.isFloat then
    match op with
    | .add => fAdd t r sat x y
    | .sub => fSub t r sat x y
    | .mul => fMul t r sat x y
    | .min => satInf t sat (fMinMax t false x y)
    | .max => satInf t sat (fMinMax t true x y)
  else
    let a := intVal t x
    let b := intVal t y
    let z : Int := match op with
      | .add => a + b
      | .sub => a - b
      | .mul => a * b
      | .min => min a b
      | .max => max a b
    (if sat then satInt (tyBits t) (tySigned t) z else wrapInt (tyBits t) z, 0)

/-- A two-operand arithmetic instruction. -/
def State.vArith (s : State) (i : Instr) (op : VArith) (t : Ty) (r : Rnd) (sat : Bool) (m : Option MReg) (d a b : VOp) :
    State :=
  s.laneForm i t m [a, b] d fun l => arithLane op t r sat (l.getD 0 0) (l.getD 1 0)

/-- VADD (R203). -/
def execVadd (t : Ty) (r : Rnd) (sat : Bool) (m : Option MReg) (d a b : VOp) (s : State) :
    Host.Outcome State Fault Refusal := .next (s.vArith (.vadd t r sat m d a b) .add t r sat m d a b)
/-- VSUB (R203). -/
def execVsub (t : Ty) (r : Rnd) (sat : Bool) (m : Option MReg) (d a b : VOp) (s : State) :
    Host.Outcome State Fault Refusal := .next (s.vArith (.vsub t r sat m d a b) .sub t r sat m d a b)
/-- VMUL (R203). -/
def execVmul (t : Ty) (r : Rnd) (sat : Bool) (m : Option MReg) (d a b : VOp) (s : State) :
    Host.Outcome State Fault Refusal := .next (s.vArith (.vmul t r sat m d a b) .mul t r sat m d a b)
/-- VMIN (R203). -/
def execVmin (t : Ty) (r : Rnd) (sat : Bool) (m : Option MReg) (d a b : VOp) (s : State) :
    Host.Outcome State Fault Refusal := .next (s.vArith (.vmin t r sat m d a b) .min t r sat m d a b)
/-- VMAX (R203). -/
def execVmax (t : Ty) (r : Rnd) (sat : Bool) (m : Option MReg) (d a b : VOp) (s : State) :
    Host.Outcome State Fault Refusal := .next (s.vArith (.vmax t r sat m d a b) .max t r sat m d a b)

/-- A lane of VFMA (R203). -/
def fmaLane (t : Ty) (r : Rnd) (x y z : Nat) : Nat × Flags :=
  if t.isFloat then fFma t r x y z else (wrapInt (tyBits t) (intVal t x * intVal t y + intVal t z), 0)
/-- VFMA (R203). -/
def execVfma (t : Ty) (r : Rnd) (d a b c : VOp) (s : State) : Host.Outcome State Fault Refusal :=
  .next (s.laneForm (.vfma t r d a b c) t none [a, b, c] d fun l => fmaLane t r (l.getD 0 0) (l.getD 1 0) (l.getD 2 0))
/-- VABS (R203): an integer of a natural type is its own absolute value. -/
def execVabs (t : Ty) (m : Option MReg) (d a : VOp) (s : State) : Host.Outcome State Fault Refusal :=
  .next (s.laneForm (.vabs t m d a) t m [a] d fun l =>
    (if t.isFloat then fAbs t (l.getD 0 0) else wrapInt (tyBits t) ((intVal t (l.getD 0 0)).natAbs : Int), 0))
/-- VNEG (R203). -/
def execVneg (t : Ty) (m : Option MReg) (d a : VOp) (s : State) : Host.Outcome State Fault Refusal :=
  .next (s.laneForm (.vneg t m d a) t m [a] d fun l =>
    (if t.isFloat then fNeg t (l.getD 0 0) else wrapInt (tyBits t) (-(intVal t (l.getD 0 0))), 0))

/-- A bitwise instruction (R203): over all bits, whatever the width of a stream is (R211). -/
def State.vBits (s : State) (i : Instr) (t : Ty) (d a b : VOp) (f : BitVec 1024 → BitVec 1024 → BitVec 1024) : State :=
  let w := tyBits t
  s.vecOp i [a, b] d fun vs =>
    let x := fun (k : Nat) => (vs.map (·.data)).getD k 0
    (f (x 0) (x 1), slotsOf w (fun i => vs.flatMap fun v => v.laneLab w i), 0)
/-- VAND (R203). -/
def execVand (t : Ty) (d a b : VOp) (s : State) : Host.Outcome State Fault Refusal :=
  .next (s.vBits (.vand t d a b) t d a b (· &&& ·))
/-- VOR (R203). -/
def execVor (t : Ty) (d a b : VOp) (s : State) : Host.Outcome State Fault Refusal :=
  .next (s.vBits (.vor t d a b) t d a b (· ||| ·))
/-- VXOR (R203). -/
def execVxor (t : Ty) (d a b : VOp) (s : State) : Host.Outcome State Fault Refusal :=
  .next (s.vBits (.vxor t d a b) t d a b (· ^^^ ·))
/-- VSHL (R203). -/
def execVshl (t : Ty) (d a b : VOp) (s : State) : Host.Outcome State Fault Refusal :=
  .next (s.laneForm (.vshl t d a b) t none [a, b] d fun l =>
    (l.getD 0 0 * 2 ^ (l.getD 1 0 % tyBits t) % 2 ^ tyBits t, 0))
/-- VSHR (R203): natural for .n types, arithmetic for .i types. -/
def execVshr (t : Ty) (d a b : VOp) (s : State) : Host.Outcome State Fault Refusal :=
  .next (s.laneForm (.vshr t d a b) t none [a, b] d fun l =>
    (wrapInt (tyBits t) (intVal t (l.getD 0 0) / (2 ^ (l.getD 1 0 % tyBits t) : Nat)), 0))
/-- VSCALE (R205). -/
def execVscale (t : FTy) (r : Rnd) (d a b : VOp) (s : State) : Host.Outcome State Fault Refusal :=
  .next (s.laneForm (.vscale t r d a b) t.ty none [a, b] d fun l =>
    fScale t.ty r (l.getD 0 0) (toSigned (tyBits t.ty) (l.getD 1 0)))

-- Compare, select, convert, broadcast and mask (R204, R205)

/-- A lane of VCMP (R200, R204). -/
def cmpLane (c : Cond) (t : Ty) (x y : Nat) : Bool × Flags :=
  if t.isFloat then fCmp t c x y
  else
    let n := tyBits t
    (match c with
      | .eq => x == y
      | .ne => x != y
      | .lt => decide (toSigned n x < toSigned n y)
      | .ge => decide (toSigned n y ≤ toSigned n x)
      | .lo => decide (x < y)
      | .hs => decide (y ≤ x), 0)

/-- A vector instruction that reads v operands and writes something else. -/
def State.vecRead (s : State) (i : Instr) (srcs : List VOp) (k : State → List VSrc → State) : State :=
  s.guarded i fun s => match s.streamStop srcs with
    | some t => t
    | none => match s.readVs srcs with
      | .error t => t
      | .ok vs => k s vs

/-- VCMP (R204). -/
def execVcmp (c : Cond) (t : Ty) (d : MReg) (a b : VOp) (s : State) : Host.Outcome State Fault Refusal :=
  .next (
    let w := tyBits t
    s.vecRead (.vcmp c t d a b) [a, b] fun s vs =>
      let rs := mapLanes w vs fun l =>
        let r := cmpLane c t (l.getD 0 0) (l.getD 1 0)
        (if r.1 then 2 ^ (w / 8) - 1 else 0, r.2)
      match s.slotConjs (slotsOf w fun i => vs.flatMap fun v => v.laneLab w i) [] with
      | .error t => t
      | .ok (ls, s) => (((s.raise (orFlags rs)).popAll [a, b]).modMe fun c =>
          c.setM d ⟨BitVec.ofNat 128 (packNat (w / 8) (rs.map (·.1))), labVec ls⟩).retire)

/-- The bits of a register whose byte has its mask bit set. -/
def byteMask (m : BitVec 128) : BitVec 1024 :=
  BitVec.ofNat 1024 (packNat 8 ((List.range 128).map fun k => if m.getLsbD k then 255 else 0))

/-- VSEL (R204), whose streams may have any element width, for no type names one (DESIGN CHOICE, log 106). -/
def execVsel (d : VOp) (m : MReg) (b c : VOp) (s : State) : Host.Outcome State Fault Refusal :=
  .next (
    let k := s.me.m m
    s.vecOp (.vsel d m b c) [b, c] d fun vs =>
      let x := fun (j : Nat) => (vs.map (·.data)).getD j 0
      ((x 0 &&& byteMask k.bits) ||| (x 1 &&& ~~~(byteMask k.bits)),
        (List.range 32).map fun j => k.labs.getD j [] ++ vs.flatMap fun v => v.lab.getD j [], 0))

/-- A conversion between any two types of R205 (R29, R43 to R45). -/
def cvtLane (ta tb : Ty) (r : Rnd) (sat : Bool) (x : Nat) : Nat × Flags :=
  match ta.isFloat, tb.isFloat with
  | true, true => fConv ta tb r sat x
  | false, true => fToI ta tb r x
  | true, false => iToF ta tb r sat x
  | false, false =>
    (if sat then satInt (tyBits ta) (tySigned ta) (intVal tb x) else wrapInt (tyBits ta) (intVal tb x), 0)

/-- VCVT (R205): the lanes that both widths have; the rest is zero with empty labels. -/
def execVcvt (ta tb : Ty) (r : Rnd) (sat : Bool) (d a : VOp) (s : State) : Host.Outcome State Fault Refusal :=
  .next (
    let wa := tyBits ta
    let wb := tyBits tb
    let n := 1024 / max wa wb
    s.vecOp (.vcvt ta tb r sat d a) [a] d fun vs =>
      let rs := (mapLanes wb vs fun l => cvtLane ta tb r sat (l.getD 0 0)).take n
      (packLanes wa (rs.map (·.1)),
        slotsOf wa fun i => if i < n then vs.flatMap fun v => v.laneLab wb i else [], orFlags rs))

/-- A register whose lanes and slots all take one value. -/
def spread (w : Nat) (x : LWord) : BitVec 1024 × List (List Handle) × Flags :=
  (packLanes w (List.replicate (1024 / w) (x.val.toNat % 2 ^ w)), List.replicate 32 [x.lab], 0)

/-- VBCAST from a g register (R204). -/
def execVbcastG (t : Ty) (d : VOp) (a : GReg) (s : State) : Host.Outcome State Fault Refusal :=
  .next (
    let x := s.me.g a
    s.vecOp (.vbcastG t d a) [] d fun _ => spread (tyBits t) x)
/-- VBCAST from an f register (R204). -/
def execVbcastF (t : Ty) (d : VOp) (a : FReg) (s : State) : Host.Outcome State Fault Refusal :=
  .next (
    let x := s.me.f a
    s.vecOp (.vbcastF t d a) [] d fun _ => spread (tyBits t) x)

/-- VMASK (R204). -/
def execVmask (d : MReg) (a b : GReg) (s : State) : Host.Outcome State Fault Refusal :=
  .next (s.guarded (.vmask d a b) fun s =>
    let x := s.me.g a
    let y := s.me.g b
    match s.conj [x.lab, y.lab] with
    | .stop s => s
    | .ok h s =>
      let lo := min x.val.toNat 128
      let hi := min (x.val.toNat + y.val.toNat) 128
      (s.modMe fun c => c.setM d ⟨BitVec.ofNat 128 (2 ^ hi - 2 ^ lo), Vector.replicate 32 h⟩).retire)

-- Reductions (R50, R206)

/-- One level of the tree of R50; a lane outside the mask passes the other operand. -/
def redLevel (op : Nat → Nat → Nat × Flags) : List (Option Nat) → List (Option Nat) × Flags
  | x :: y :: t =>
    let (r, f) := redLevel op t
    match x, y with
    | some a, some b => (some (op a b).1 :: r, (op a b).2 ||| f)
    | some a, none => (some a :: r, f)
    | none, y => (y :: r, f)
  | l => (l, 0)
/-- The tree of R50. -/
def redTree (op : Nat → Nat → Nat × Flags) : Nat → List (Option Nat) → Option Nat × Flags
  | 0, l => (l.headD none, 0)
  | n + 1, l =>
    let (r, f) := redLevel op l
    let (x, g) := redTree op n r
    (x, f ||| g)

/-- One node of a float reduction. -/
def redNode (op : RedOp) (t : Ty) (r : Rnd) (x y : Nat) : Nat × Flags :=
  match op with
  | .add => fAdd t r false x y
  | .max => fMinMax t true x y
  | .min => fMinMax t false x y

/-- The value of an integer reduction (R206), none where it is over no lane and has none. -/
def redInt (op : RedOp) (t : Ty) (xs : List Nat) : Option Int :=
  let vs := xs.map (intVal t)
  match op, vs with
  | .add, _ => some (vs.foldl (· + ·) 0)
  | .max, v :: vs => some (vs.foldl max v)
  | .min, v :: vs => some (vs.foldl min v)
  | _, [] => none

/-- VRED (R206). The lanes beyond a partial pop lie outside the mask; a reduction over no lane that has no value takes a
free one (log 37). -/
def execVred (op : RedOp) (t : Ty) (r : Rnd) (d : GReg) (a : VOp) (s : State) : Host.Outcome State Fault Refusal :=
  .next (
    let w := tyBits t
    s.vecRead (.vred op t r d a) [a] fun s vs =>
      let v : VSrc := vs.headD { data := 0, lab := [] }
      let xs := (v.lanes w).take (v.live / (w / 8))
      match s.conj v.lab.flatten with
      | .stop s => s
      | .ok h s =>
        let (tick, s) := s.draw
        if t.isFloat then
          let (x, fl) := redTree (redNode op t r) 6 ((xs.map some) ++ List.replicate (1024 / w - xs.length) none)
          let y : Nat := x.getD ((Config.emptyReduction tick).toNat % 2 ^ w)
          (((s.raise fl).popAll [a]).modMe fun c => c.setF (Fin.ofNat 32 d.val) ⟨BitVec.ofNat 64 y, h⟩).retire
        else
          let y : Word := match redInt op t xs with
            | some z => BitVec.ofNat 64 (wrapInt 64 z)
            | none => Config.emptyReduction tick
          ((s.popAll [a]).modMe fun c => c.setG d ⟨y, h⟩).retire)

-- VLD and VST (R207)

/-- The parts of a 128-byte access: an address and a length for each aligned 256-byte block. -/
def vparts (va : Word) : List (Word × Nat × Nat) :=
  let m := 256 - va.toNat % 256
  if 128 ≤ m then [(va, 0, 128)] else [(va, 0, m), (va + BitVec.ofNat 64 m, m, 128 - m)]

/-- The checks of every part at the issuing core. -/
def State.checkParts (s : State) (u : Use5) (f : Loc → Word → Nat → Nat → Req) : List (Word × Nat × Nat) →
    Except State (List Req)
  | [] => .ok []
  | (va, o, n) :: t => match s.check va n 1 u with
    | .error e => .error e
    | .ok l => match s.checkParts u f t with
      | .error e => .error e
      | .ok rs => .ok (f l va o n :: rs)

/-- The handles of the words that a slot's 4 bytes overlap, for a v register loaded from a byte address (R207). -/
def overlapLabs (a : Nat) (labs : List Handle) (j : Nat) : List Handle :=
  let lo := (a + 4 * j) / 4 - a / 4
  let hi := (a + 4 * j + 3) / 4 - a / 4
  if lo = hi then [labs.getD lo 0] else [labs.getD lo 0, labs.getD hi 0]

/-- Go on with a VLD: send its next part, or write its destination when every part has answered. -/
def State.vldGo (s : State) (d : VOp) (va : Word) : Nat → State
  | 0 => s
  | n + 1 => match s.me.out with
    | .v got labs (r :: rest) =>
      let t := s.ask (homeOf r.ha) r (.v got labs rest)
      if t.me.run = .run then t.vldGo d va n else t
    | .v got labs [] =>
      s.putV [] d (BitVec.ofNat 1024 (leNat got)) ((List.range 32).map (overlapLabs va.toNat labs)) 0
    | _ => s

/-- VLD (R207): the second part is sent once the first has been answered. A stream destination may have any element width,
for no type names one (DESIGN CHOICE, log 106). -/
def execVld (acq : Option Scope) (d : VOp) (m : MemOp) (s : State) : Host.Outcome State Fault Refusal :=
  .next (s.guarded (.vld acq d m) fun s => s.orPush fun s => match s.streamStop [d] with
    | some t => t
    | none => s.deciding m.regs fun s =>
      let va := s.me.ea m
      match s.me.out with
      | .v .. => s.vldGo d va 3
      | _ => match s.checkParts .load (fun l a _ n => { s.req .load l a n with acq, wide := true, vcls := s.me.loadClass false })
            (vparts va) with
        | .error t => t
        | .ok rs => (s.modMe fun c => { c with out := .v [] [] rs }).vldGo d va 3)

/-- The first mask slot under a set bit whose label meets a test, with R154's trap: EADDR holds the mask's number. -/
def State.maskDeciding (s : State) (k : MReg) (go : State → State) : State :=
  let m := s.me.m k
  let hs := (List.range 32).filterMap fun j =>
    if bitsAt m.bits.toNat (4 * j) 4 ≠ 0 then some (s.lab (m.lab.toList.getD j 0)) else none
  if hs.contains hiddenH then s.trap 0x05 0 (BitVec.ofNat 64 k.val)
  else if hs.any (· != 0) then s.trap 0x06 0 (BitVec.ofNat 64 k.val)
  else go s

/-- Send the parts of a VST in order: one for the own core is performed before the next, and a remote one takes a
journal entry (R183, R207). -/
def State.vstGo (s : State) (src : List VOp) : Nat → State
  | 0 => s
  | n + 1 => match s.me.out with
    | .parts [] => (s.popAll src).retire
    | .parts (r :: rest) =>
      let home := homeOf r.ha
      if home = s.core then
        let t := s.ask home r (.parts rest)
        if t.me.run = .run ∧ t.me.out = .parts rest then t.vstGo src n else t
      else match s.journal home r with
        | some t => (t.modMe fun c => { c with out := .parts rest, run := .run }).vstGo src n
        | none => s.waitJournal
    | _ => s

/-- VST (R207): the bytes whose mask bit is set; a part with none is not sent. A stream source may have any element width
(DESIGN CHOICE, log 106). -/
def execVst (rel : Option Scope) (a : VOp) (k : MReg) (m : MemOp) (s : State) : Host.Outcome State Fault Refusal :=
  .next (s.guarded (.vst rel a k m) fun s =>
    match s.me.out with
    | .parts _ => s.vstGo [a] 4
    | _ => match s.streamStop [a] with
      | some t => t
      | none => s.deciding m.regs fun s => s.maskDeciding k fun s =>
        match s.readV a with
        | .error t => t
        | .ok v => match s.slotConjs v.lab [] with
          | .error t => t
          | .ok (slots, s) =>
            let va := s.me.ea m
            let mk := (s.me.m k).bits.toNat
            let bytes := leBytes 128 v.data.toNat
            let ps := (vparts va).filter fun p => bitsAt mk p.2.1 p.2.2 != 0
            match s.checkParts .store (fun l b o n =>
                { s.pieceReq l ⟨b.toNat, o, n⟩ bytes slots (bitsAt mk o n) with rel, wide := true }) ps with
            | .error t => t
            | .ok rs =>
              if (match rel with | some sc => !s.orderly sc | none => false) then s.wait .order
              else (s.modMe fun c => { c with out := .parts rs }).vstGo [a] 4)

end Sys2Proof.Machine
end

