-- ==== Sys2Proof/Machine/Sequencer.lean ====
section
/-!
DEFINITION. VLOOP and the vector sequencer (R208, R209, R217, R218), major code 0x92. The sequencer runs a captured
instruction in a context of its own, whose key is 64 more than that of the loop's context: its registers are read from
that context when the instruction begins, and what it writes goes there when it is complete.
-/
namespace Sys2Proof.Machine

/-- The state an outcome leads to. -/
def outState (r : Host.Outcome State Fault Refusal) (s : State) : State := match r with | .next t => t | _ => s

/-- A captured instruction: major codes 0x80 to 0x91 (R209). -/
def captured (i : Instr) (s : State) : State :=
  match i with
  | .vadd t r sat m d a b => outState (execVadd t r sat m d a b s) s
  | .vsub t r sat m d a b => outState (execVsub t r sat m d a b s) s
  | .vmul t r sat m d a b => outState (execVmul t r sat m d a b s) s
  | .vmin t r sat m d a b => outState (execVmin t r sat m d a b s) s
  | .vmax t r sat m d a b => outState (execVmax t r sat m d a b s) s
  | .vfma t r d a b c => outState (execVfma t r d a b c s) s
  | .vabs t m d a => outState (execVabs t m d a s) s
  | .vneg t m d a => outState (execVneg t m d a s) s
  | .vand t d a b => outState (execVand t d a b s) s
  | .vor t d a b => outState (execVor t d a b s) s
  | .vxor t d a b => outState (execVxor t d a b s) s
  | .vshl t d a b => outState (execVshl t d a b s) s
  | .vshr t d a b => outState (execVshr t d a b s) s
  | .vcmp c t d a b => outState (execVcmp c t d a b s) s
  | .vsel d m b c => outState (execVsel d m b c s) s
  | .vcvt ta tb r sat d a => outState (execVcvt ta tb r sat d a s) s
  | .vscale t r d a b => outState (execVscale t r d a b s) s
  | .vred op t r d a => outState (execVred op t r d a s) s
  | .vbcastG t d a => outState (execVbcastG t d a s) s
  | .vbcastF t d a => outState (execVbcastF t d a s) s
  | .vmask d a b => outState (execVmask d a b s) s
  | .vld acq d m => outState (execVld acq d m s) s
  | .vst rel a k m => outState (execVst rel a k m s) s
  | _ => s

-- Capture (R209)

/-- The n slots from an address on, in program order. -/
def slotsFrom : Nat → Word → List Word
  | 0, _ => []
  | n + 1, p => p :: slotsFrom n (nextPc p)

/-- A line of the acting context's partition for a capture: from the fetch buffer, or a wait for it, or the trap of its
refused fetch. -/
def State.captureLine (s : State) (p : Word) : Except State (BitVec 512) :=
  match s.here.lookLine s.part (lineOf p) with
  | some l => .ok l.bits
  | none => match s.window s.core s.key (lineOf p).toNat with
    | some (.error code) => .error (s.refuseHere code p)
    | some (.ok _) => .error (s.wait (.line (lineOf p)))
    | none => match s.translate s.core s.key (lineOf p).toNat .fetch with
      | .bad code => .error (s.refuseHere code p)
      | .walk => .error (s.wait (.walk (lineOf p)))
      | .at_ _ => .error (s.wait (.line (lineOf p)))

/-- Capture the slots at the addresses: each an unpaired instruction of major code 0x80 to 0x91. -/
def State.capture (s : State) : List Word → Except State (List (Word × Instr))
  | [] => .ok []
  | p :: t => match s.captureLine p with
    | .error u => .error u
    | .ok b =>
      let n := slotNo p
      let lw := lineWord b
      let paired := (firsts (lineTmpl b)).contains n || (seconds (lineTmpl b)).contains n
      let wordOk := bitsAt lw 24 8 == 0 && bitsAt lw 10 6 == 0 && decide (lineTmpl b ≤ 7)
      match slotInstr b n s.me with
      | none => .error (s.trap 0x01 0 p)
      | some i =>
        if paired || !wordOk || !(decide (0x80 ≤ i.op) && decide (i.op ≤ 0x91)) then .error (s.trap 0x01 0 p)
        else match s.capture t with
          | .error u => .error u
          | .ok l => .ok ((p, i) :: l)

/-- Go on after a captured body, while the sequencer iterates. Under single-step the context waits for the loop's end. -/
def State.runAhead (s : State) (next : Word) (looping : Bool) : State :=
  let step := s.me.dbg.step
  let s := s.retiring s.core s.key fun c => c.retireTo next
  if looping && step then s.modMe fun c => { c with run := .wait .loop, stopped := false } else s

/-- VLOOP (R209). -/
def execVloop (n : BitVec 40) (c : GReg) (s : State) : Host.Outcome State Fault Refusal :=
  .next (s.guarded (.vloop n c) fun s => s.deciding [c] fun s =>
    let first := nextPc s.me.pc
    match s.capture (slotsFrom n.toNat first) with
    | .error t => t
    | .ok body =>
      let next := (slotsFrom (n.toNat + 1) first).getLastD first
      if c = 0 then
        if body.any fun p => !p.2.streams.isEmpty then
          (s.modHere fun k => { k with loops := k.loops ++ [⟨s.key, body, none, body.length, false, false⟩] }).runAhead
            next true
        else s.illegal
      else
        let count := (s.me.g c).val.toNat
        if count = 0 then s.runAhead next false
        else (s.modHere fun k => { k with loops := k.loops ++ [⟨s.key, body, some count, body.length, false, false⟩] }).runAhead
          next true)

-- The sequencer's own context

/-- The sequencer's context as a captured instruction begins: the registers, streams and pending tokens of the loop's
context. -/
def Ctx.shadow (c : Ctx) (pc : Word) (i : Instr) : Ctx :=
  { regs := c.regs, pc := pc, run := .run, item := c.item, pend := c.pend, callTok := c.callTok, vcclass := c.vcclass
    parklim := c.parklim, tvec := 1, watch := c.watch, dbg := { c.dbg with step := false }
    inst := some { pc := pc, i1 := i }, streams := c.streams.map fun x => x.map fun y => { y with asked := none } }

/-- Registers that a captured instruction wrote, copied to the loop's context. -/
def Regs.take (r x : Regs) : RegRef → Regs
  | .g n => { r with g := r.g.set n x.g[n] }
  | .f n => { r with f := r.f.set n x.f[n] }
  | .v n => { r with v := r.v.set n x.v[n] }
  | .m n => { r with m := r.m.set n x.m[n] }
  | .k n => { r with k := r.k.set n x.k[n] }

/-- Change the loop of a context. -/
def CoreSt.modLoop (c : CoreSt) (key : Nat) (f : Loop → Loop) : CoreSt :=
  { c with loops := c.loops.map fun l => if l.key = key then f l else l }

/-- A loop ends (R209): the sequencer is free, and a single step that waited for it is over. -/
def State.endLoop (s : State) (core : CoreNo) (key : Nat) : State :=
  let s := s.modCore core fun c => { c with loops := c.loops.filter fun l => l.key != key,
                                            ctxs := c.ctxs.filter fun p => p.1 != 64 + key }
  s.modCtx core key fun c => if c.run = .wait .loop then { c with run := .run, stopped := c.stopped || c.dbg.step } else c

/-- A captured instruction is complete (R209, R217): its results go to the loop's context, and an enabled flag stops the
sequencer after it. -/
def State.sealCaptured (s : State) (core : CoreNo) (l : Loop) (i : Instr) : State :=
  let x := s.ctxAt core (64 + l.key)
  let s := s.modCtx core l.key fun c => { c with
    regs := (i.use.written.filter fun r => !(i.streams.contains r)).foldl (fun r n => r.take x.regs n) c.regs
    streams := x.streams, fflags := c.fflags ||| x.fflags }
  let s := s.modCore core fun c => c.modLoop l.key fun l => { l with at_ := l.at_ + 1, running := false }
  let c := s.ctxAt core l.key
  if x.fflags &&& c.fenable = 0 ∨ c.run = .idle ∨ c.run = .pool then s
  else (s.modCore core fun c => c.modLoop l.key fun l => { l with stopped := true }).supervise core l.key
    (l.body.getD l.at_ (0, .nop)).1 x.fflags

/-- What has become of the captured instruction in flight: it is complete, or it has trapped, which ends the loop and
leaves the trap for the context's next instruction (R209, R343); or it waits. -/
def State.settleLoop (s : State) (core : CoreNo) (l : Loop) : State :=
  let x := s.ctxAt core (64 + l.key)
  match l.body[l.at_]? with
  | none => s
  | some (pc, i) =>
    if x.eheld then
      let t : AsyncTrap := { trap := bitsAt x.ecause.toNat 24 8, detail := bitsAt x.ecause.toNat 0 16, eaddr := x.eaddr }
      let c := s.ctxAt core l.key
      let held := c.eheld || (l.key % 16 == 0 && ((s.coreAt core).resident[keySet l.key]?.getD {}).held)
      -- the trap of a stepped loop is taken before the context stops (R377)
      if c.run = .wait .loop ∧ !held then
        ((s.endLoop core l.key).modCtx core l.key fun x => { x with stopped := c.stopped }).trapCtx core l.key t.trap
          t.detail t.eaddr false true
      else (s.endLoop core l.key).asyncTo core l.key t
    else if x.pc ≠ pc then s.sealCaptured core l i
    else s

/-- Whether a captured instruction that waits may be tried again. -/
def Run.again : Run → Bool
  | .run => true
  | .wait w => (match w with | .token _ | .journal | .order | .turn => true | _ => false)
  | _ => false

/-- Run the captured instruction at a loop's position, or go on with it. -/
def State.seqRun (s : State) (core : CoreNo) (l : Loop) : State :=
  match l.body[l.at_]? with
  | none => s
  | some (pc, i) =>
    let real := s.ctxAt core l.key
    let x := s.ctxAt core (64 + l.key)
    if l.running && (x.eheld || x.pc != pc) then s.settleLoop core l
    else if l.running && (!x.run.again || x.stopped || (real.run == .wait .loop && real.stopped)) then s
    else
      let fresh : Ctx := real.shadow pc i
      let y : Ctx := if !l.running then fresh
        else if x.out = .none then { x with regs := fresh.regs, pend := fresh.pend, callTok := fresh.callTok }
        else x
      let y : Ctx := if y.replay then { y with replay := false, latch := none } else y
      let s := (s.setCtx core (64 + l.key) { y with run := if l.running then y.run else .run, inst := fresh.inst }).modCore
        core fun c => c.modLoop l.key fun l => { l with running := true }
      let s := s.asCtx core (64 + l.key) (captured i)
      s.settleLoop core { l with running := true }

/-- Whether a stream of a body ends the loop at the start of an iteration (R209): a stream that is read with no element
left, or one that is written with no room. -/
def Ctx.streamsOver (c : Ctx) (body : List (Word × Instr)) : Bool :=
  body.any fun p => p.2.streams.any fun r => match r with
    | .f n => if 24 ≤ n.val then (match c.strm (Fin.ofNat 8 (n.val - 24)) with
        | some x => x.next == 0
        | none => false) else false
    | _ => false

-- Events

/-- SEQUENCER_DISPATCH (R208, R209): the sequencer starts or goes on with the captured instruction at its position. It
finishes the one in progress as its set is stopped or switched out (R218); under engine-freeze it starts none (R378). -/
def execSequencerDispatch (core : CoreNo) (s : State) : Host.Outcome State Fault Refusal :=
  .next (
    let c := s.coreAt core
    match c.finishing.orElse fun _ => c.loop with
    | some l => if !c.halted && !l.stopped && decide (l.at_ < l.body.length) && (l.running || (!c.stopped && !c.freeze)) then
        s.seqRun core l
      else s
    | none => s)

/-- VLOOP_ITERATION (R209): between iterations, the next one begins or the loop ends. -/
def execVloopIteration (core : CoreNo) (s : State) : Host.Outcome State Fault Refusal :=
  .next (match (s.coreAt core).loop with
    | some l =>
      if l.stopped || decide (l.at_ < l.body.length) || !(s.coreAt core).live then s
      else match l.left with
        | some 0 => s.endLoop core l.key
        | some (n + 1) => s.modCore core fun c => c.modLoop l.key fun l => { l with left := some n, at_ := 0 }
        | none => if (s.ctxAt core l.key).streamsOver l.body then s.endLoop core l.key
          else s.modCore core fun c => c.modLoop l.key fun l => { l with at_ := 0 }
    | none => s)

end Sys2Proof.Machine
end

