-- ==== Sys2Proof/Machine/System.lean ====
section
/-!
DEFINITION. The system instructions of every core (R340 to R360, R366 to R369, R373, R376 to R378), major codes 0xE0 to
0xE8 and 0xED to 0xEF: traps and returns, system registers, resident-handler events, ACK, JRNL, the cellar banks,
TLBINV and debug. The partition controller's instructions stand in Machine/Partition.lean.
-/
namespace Sys2Proof.Machine

-- Traps, returns and debug breaks (R345, R347)

/-- Take a precise trap after the acting context's instruction whose rule does not state EADDR (R341, log 39). -/
def State.trapAfterOpen (s : State) (trap detail : Nat) : State :=
  let (t, s) := s.draw
  s.trapAfter trap detail (Config.openAddr t)

/-- TRAP (R347). -/
def execTrap (n : BitVec 40) (s : State) : Host.Outcome State Fault Refusal :=
  .next (s.guarded (.trap n) fun s => s.trapAfterOpen 0x1F n.toNat)
/-- DBGBRK (R347): the debug-break trap, or a stop for an attached debugger after it. -/
def execDbgbrk (s : State) : Host.Outcome State Fault Refusal :=
  .next (s.guarded .dbgbrk fun s =>
    if s.me.dbg.attach then s.retire.modMe fun c => { c with stopped := true } else s.trapAfterOpen 0x21 0)
/-- ERET (R345). -/
def execEret (s : State) : Host.Outcome State Fault Refusal := .next (s.guarded .eret State.returnFrom)

-- System registers (R348 to R350, R93)

/-- The two-bit states of BANK (R367). -/
def BankSt.code : BankSt → Nat
  | .empty => 0
  | .resident => 1
  | .sealed => 2

/-- BANK (R367). -/
def CoreSt.bankWord (c : CoreSt) : Nat :=
  c.cur + (List.range 4).foldl (fun n i => n + (c.banks[i]?.getD .empty).code * 4 ^ (i + 1)) 0

/-- A free value as a register of a unit that the core does not have reads it (log 44). -/
def State.absent (s : State) : Word × State :=
  let (t, s) := s.draw
  (Config.openAddr t, s)

/-- What MFS reads; none for a number that names no register (R348). -/
def State.readSys (s : State) (n : Nat) : Option (Word × State) :=
  let c := s.here
  let x := s.me
  let w := fun (v : Nat) => some (BitVec.ofNat 64 v, s)
  match n with
  | 0 => w s.core.toNat
  | 1 => w (cindex s.core)
  | 2 => w (realKey s.key % 16 + 16 * x.pooled.toNat)
  | 3 => w (s.cycleOf (pkgOf s.core))
  | 4 => w x.fflags.toNat
  | 5 => w x.fenable.toNat
  | 6 => w (x.fsup.toNat % 2 ^ 20 + x.fsup.toNat / 2 ^ 20 * 2 ^ 63)
  | 7 => w ((if isCompute s.core then c.steal.domain.toNat else 0) + 4 * c.steal.busy.toNat + 256 * c.steal.backoff.toNat)
  | 8 => w x.vcclass.toNat
  | 9 => w c.assist.toNat
  | 10 => some (x.epc, s)
  | 11 => some (x.ecause, s)
  | 12 => some (x.eaddr, s)
  | 13 => w x.parklim.toNat
  | 14 => if isCompute s.core then some (c.mctl s.key, s) else some s.absent
  | 15 => w (s.partAt s.part).lwindow.toNat
  | 16 => if isCompute s.core then w (s.part.node + 2 ^ 10 * s.part.ten.toNat + 2 ^ 11 * c.cur) else w 0
  | 17 => some (c.rpc, s)
  | 18 => some (c.rcause, s)
  | 19 => some (c.raddr, s)
  | 20 => w c.bankWord
  | 21 => some (x.tvec, s)
  | 22 => some (c.rvec, s)
  | 23 => w (x.dbg.step.toNat + 2 * x.dbg.attach.toNat)
  | 24 => w c.freeze.toNat
  | 25 => some (x.watch[0], s)
  | 26 => some (x.watch[1], s)
  | 27 => some (x.watch[2], s)
  | 28 => some (x.watch[3], s)
  | 29 => w (x.eheld.toNat +
      2 * (realKey s.key % 16 == 0 && (c.resident[keySet s.key]?.getD {}).held).toNat)
  | 30 => if isCompute s.core then some (c.flhead (s.hkOf s.core s.key), s) else some s.absent
  | n => if 0x20 ≤ n ∧ n ≤ 0x2A then some (c.counters.toList.getD (n - 0x20) 0, s) else none

/-- Bits of ECAUSE and RCAUSE that are no reserved field (R340). -/
def causeMask : Word := 0xFFC0FFFF

/-- What MTS writes (R349): a register's fields; reserved bits and read-only registers ignore it (R5). -/
def State.writeSys (s : State) (n : Nat) (v : Word) : State :=
  match n with
  | 4 => s.modMe fun c => { c with fflags := v.setWidth 5 }
  | 5 => s.modMe fun c => { c with fenable := v.setWidth 5 }
  | 6 => s.modMe fun c => { c with fsup := BitVec.ofBool (v.getLsbD 63) ++ (v.setWidth 20 : BitVec 20) }
  | 7 => s.modHere fun c => { c with steal := { c.steal with
      backoff := v.extractLsb' 8 8, domain := if isCompute s.core then v.setWidth 2 else c.steal.domain } }
  | 8 => s.modMe fun c => { c with vcclass := v.setWidth 4 }
  | 9 => s.modHere fun c => { c with assist := v.setWidth 7 }
  | 10 => s.modMe fun c => { c with epc := v }
  | 11 => s.modMe fun c => { c with ecause := v &&& causeMask }
  | 12 => s.modMe fun c => { c with eaddr := v }
  | 13 => s.modMe fun c => { c with parklim := v.setWidth 40 }
  | 17 => s.modHere fun c => { c with rpc := v }
  | 18 => s.modHere fun c => { c with rcause := v &&& causeMask }
  | 19 => s.modHere fun c => { c with raddr := v }
  | 21 => s.modMe fun c => { c with tvec := v }
  | 22 => s.modHere fun c => { c with rvec := v }
  | 25 => s.modMe fun c => { c with watch := c.watch.set 0 v }
  | 26 => s.modMe fun c => { c with watch := c.watch.set 1 v }
  | 27 => s.modMe fun c => { c with watch := c.watch.set 2 v }
  | 28 => s.modMe fun c => { c with watch := c.watch.set 3 v }
  | _ => s

/-- Registers that MTS may name in the root context alone: RPC, RCAUSE, RADDR, RVEC (R348), and ASSIST, which the root
context alone writes (R357; DEDUCED, log 45). -/
def rootReg (n : Nat) : Bool := n == 9 || n == 17 || n == 18 || n == 19 || n == 22

/-- MFS (R349). -/
def execMfs (d : GReg) (n : BitVec 12) (s : State) : Host.Outcome State Fault Refusal :=
  .next (s.guarded (.mfs d n) fun s => match s.readSys n.toNat with
    | some (v, s) => (s.modMe fun c => c.setG d ⟨v, 0⟩).retire
    | none => s.illegal)

/-- MTS (R349): the data of EPC and EADDR may carry any label. -/
def execMts (n : BitVec 12) (a : GReg) (s : State) : Host.Outcome State Fault Refusal :=
  .next (s.guarded (.mts n a) fun s =>
    if (s.readSys n.toNat).isNone || (rootReg n.toNat && realKey s.key % 16 != 0) then s.illegal
    else
      let go := fun (s : State) => (s.writeSys n.toNat (s.me.g a).val).retire
      if n = 10 ∨ n = 12 then go s else s.deciding [a] go)

-- ACK (R355) and JRNL (R356)

/-- ACK of any action; an action of 3 is none (DEDUCED, log 52). Its home's answer is waited for, so that a refusal is
precise. -/
def State.ackOp (s : State) (i : Instr) (a : GReg) : State :=
  s.guarded i fun s => s.deciding [a] fun s =>
    let x := (s.me.g a).val
    let dst : CoreNo := x.setWidth 20
    let n : Word := dst.setWidth 64
    if x.toNat / 2 ^ 26 ≠ 0 ∨ bitsAt x.toNat 24 2 = 3 then s.illegal
    else if !assigned s dst then s.refuseHere 0x01 n
    else if !s.inReach s.part dst then s.refuseHere 0x02 n
    else
      let l : Loc := { ha := lsAddr dst 0, home := dst, ls := true, peer := pkgOf dst != pkgOf s.core }
      s.ask dst (s.req (.ack (Fin.ofNat 16 (bitsAt x.toNat 20 4)) (bitsAt x.toNat 24 2)) l n 0) .none

/-- ACK with action 0 (R355): replay. -/
def execAckReplay (a : GReg) (s : State) : Host.Outcome State Fault Refusal := .next (s.ackOp (.ackReplay a) a)
/-- ACK with action 1 (R355): resume. -/
def execAckResume (a : GReg) (s : State) : Host.Outcome State Fault Refusal := .next (s.ackOp (.ackResume a) a)
/-- ACK with action 2 (R355): refuse. -/
def execAckRefuse (a : GReg) (s : State) : Host.Outcome State Fault Refusal := .next (s.ackOp (.ackRefuse a) a)

/-- A double word of a journal entry (R183). -/
def JEntry.dword (j : JEntry) (i : Nat) : Word :=
  let st := match j.st with | .free => 0 | .outstanding => 1 | .refused => 2
  match i with
  | 0 => j.addr
  | 1 => BitVec.ofNat 64 (j.key % 16 + 16 * st + 64 * j.size + 2 ^ 32 * j.lab.toNat + 2 ^ 48 * (j.code % 256))
  | 2 => j.data
  | _ => j.pc

/-- JRNL (R356): a double word of an entry, which is freed then if it is refused and gA asks for it. -/
def execJrnl (d a : GReg) (s : State) : Host.Outcome State Fault Refusal :=
  .next (s.guarded (.jrnl d a) fun s => s.deciding [a] fun s =>
    let x := (s.me.g a).val
    if x.toNat / 2 ^ 9 ≠ 0 ∨ x.getLsbD 5 then s.illegal
    else
      let e := x.toNat % 32
      let j := s.here.journal[e]?.getD {}
      let s := if x.getLsbD 8 ∧ j.st = .refused then s.modHere fun c => { c with journal := c.journal.set! e {} } else s
      (s.modMe fun c => c.setG d ⟨j.dword (bitsAt x.toNat 6 2), 0⟩).retire)

-- Parked requests of a context (R191, R352)

/-- A multi-access instruction as it begins again after a cancelled access: LINK keeps the slots it has locked (R309). -/
def Wr.again : Wr → Wr
  | .linkBoth x y => .linkBoth x y
  | .linkLock x y locked _ => .linkLock x y locked 0
  | .linkPuts x y rest fill => .linkPuts x y rest fill
  | .linkPush x y => .linkPush x y
  | .doneOk => .doneOk
  | .rdisp p q t => .rdisp p q t
  | .push rest n fl reads => .push rest n fl reads
  | _ => .none

/-- Cancel a context's parked request, so that its instruction is executed again: at a park table, or that of LFLUSH at the
label home (R352). -/
def State.cancelPark (s : State) (core : CoreNo) (key : Nat) : State :=
  match s.parkedAt core key with
  | none =>
    match if (s.ctxAt core key).run = .park .lflush then s.msgs.find? (fun m => m.src == core && m.body == .lflush key)
      else none with
    | some m => s.consume m
    | none => s
  | some home =>
    (s.modCore home fun c => c.unpark fun r => r.src == core && r.who == .ctx key).modCtx
      core key fun c => { c with run := .run, out := c.out.again, sent := none }

/-- Cancel a context's request that is parked at another home as its set goes: its instruction replays from the latch when
the set is current again (R191). -/
def State.latchPark (s : State) (core : CoreNo) (key : Nat) : State :=
  match s.parkedAt core key with
  | some home =>
    if home = core then s
    else (s.cancelPark core key).modCtx core key fun c => { c with latch := c.inst, inst := none, replay := true }
  | none => s
/-- Cancel the requests of a core's current set that are parked at other homes. -/
def State.latchParks (s : State) (core : CoreNo) : State :=
  (((s.coreAt core).ctxs.filter fun p => keySet p.1 == (s.coreAt core).cur).map (·.1)).foldl
    (fun s key => s.latchPark core key) s

-- Resident-handler events (R352, R354)

/-- Waits that end by a condition on the state alone, at which the instruction is tried again. -/
def Why.retries : Why → Bool
  | .token _ | .tokens | .journal | .order | .turn | .move | .sequencer | .matWork | .saving | .control | .unit => true
  | _ => false

/-- Whether a context may issue (R17, R101, R354, R371, R376): in RUN, or waiting on a condition that retries and may
hold now, on a core that runs. -/
def State.mayIssue (s : State) (core : CoreNo) (key : Nat) : Bool :=
  let c := s.coreAt core
  let x := c.ctxAt key
  assigned s core && !c.halted && !c.stopped && !x.stopped && keySet key == c.cur &&
  (match x.run with
    | .run => true
    | .wait w => w.retries
    | .park (.reap mask) => s.reapReady core key mask
    | .park (.ppop n) => s.ppopReady core key n
    | _ => false) &&
  !c.irqHolds key

/-- A pair between its instructions, or an instruction between its accesses, which go on first. -/
def Ctx.midway (c : Ctx) : Bool :=
  (match c.pair with
    | some p => match p.stage with
      | .trial => false
      | .forward => p.first != c.pc
      | .second | .last => true
    | none => false) || c.out != .none

/-- Waits at whose end an access is sent before anything else (R183, R186, R191). -/
def Run.sends : Run → Bool
  | .wait .order | .wait .journal | .wait .turn => true
  | _ => false
/-- An asynchronous trap is taken before the context's next issue (R343): held while EHELD is 1, in the root context
while the resident handler runs (DEDUCED, log 53), and while an access waits to be sent, which is sent first (R191). -/
def State.asyncDue (s : State) (core : CoreNo) (key : Nat) : Option (AsyncTrap × List AsyncTrap) :=
  let c := s.coreAt core
  let x := c.ctxAt key
  if x.midway || x.eheld || x.run.sends || (key % 16 == 0 && (c.resident[keySet key]?.getD {}).held) then none
  else match x.asyncs with
    | t :: rest => some (t, rest)
    | [] => none

/-- The root context is at an instruction boundary where it takes an event (R352): not between the parts of an
instruction, with no trap or replay about to be taken, and not in WAIT. A root parked on LFLUSH leaves PARK at once, and
executes it again after ERET (log 51). -/
def State.atBoundary (s : State) (core : CoreNo) (key : Nat) : Bool :=
  let x := s.ctxAt core key
  (s.asyncDue core key).isNone && x.fexc.isNone && !x.replay && !x.stopped &&
  (match x.run with
    | .run => !x.midway
    | .idle | .pool => true
    | .wait .reply => (s.parkedAt core key).isSome
    | .wait _ => false
    | .park .dead => false
    | .park _ => true)

/-- The root context of the current set takes its oldest event, if it may. -/
def State.enterEvent (s : State) (core : CoreNo) : State :=
  let c := s.coreAt core
  let key := 16 * c.cur
  if !c.live || (c.resident[c.cur]?.getD {}).held || !s.atBoundary core key then s
  else match takeFirst (fun e : RootEvent => e.set == c.cur) c.events with
    | none => s
    | some (e, rest) =>
      let s := s.modCore core fun c => { c with events := rest }
      if c.rvec = 0 then s.tellRoot core c.cur e else (s.cancelPark core key).takeEvent core e

/-- RESIDENT_EVENT_ENTRY (R352). -/
def execResidentEventEntry (core : CoreNo) (s : State) : Host.Outcome State Fault Refusal := .next (s.enterEvent core)
/-- INTERRUPT (R352): from the host, or from the partition controller. -/
def execInterrupt (core : CoreNo) (controller : Bool) (s : State) : Host.Outcome State Fault Refusal :=
  .next (
    let c := s.coreAt core
    s.tellRoot core c.cur { trap := 0x23, detail := controller.toNat, addr := 0, ten := c.tenOf (16 * c.cur) })
/-- ASYNC_TRAP (R343): the oldest asynchronous trap of a context of the current set in the rotation is taken. One in WAIT
takes it as it resumes, in its issue. -/
def execAsyncTrap (core : CoreNo) (x : CtxNo) (s : State) : Host.Outcome State Fault Refusal :=
  .next (
    let key := (s.coreAt core).key x
    match s.asyncDue core key with
    | some (t, rest) =>
      if s.mayIssue core key ∧ (s.ctxAt core key).run = .run then
        (s.modCtx core key fun c => { c with asyncs := rest }).trapCtx core key t.trap t.detail t.eaddr false true
      else s
    | none => s)
/-- MACHINE_CHECK (R360): an uncorrectable word of a context's own record, or of the core's or the root's state. -/
def execMachineCheck (core : CoreNo) (x : CtxNo) (whole : Bool) (s : State) : Host.Outcome State Fault Refusal :=
  .next (if whole ∨ x = 0 then s.haltCore core
    else
      let (t, s) := s.draw
      s.checkCtx core ((s.coreAt core).key x) 2 (Config.openAddr t))

-- Sets that come and go (R275, R308, R368, R371, R372)

/-- A set stops being current: what R346 and R380 keep with it is put aside, its limits stop counting, a context that waits
for a label goes into its latch (R164), and stream data fetched ahead is discarded (R218). -/
def CoreSt.leave (c : CoreSt) (now : Nat) : CoreSt :=
  { c with
    resident := c.resident.set! c.cur { c.resident[c.cur]?.getD {} with kept := some (c.rpc, c.rcause, c.raddr) }
    offAt := c.offAt.set! c.cur now
    ctxs := c.ctxs.map fun p => if keySet p.1 = c.cur then (p.1, p.2.dropAhead.latchLabel) else p }

/-- An instruction that a stop has halted reads its operands again as it goes on (R383). -/
def Matrix.again (m : Matrix) : Matrix :=
  let f := fun (x : Half) => { x with run := x.run.map fun r =>
    if r.stage = .read ∧ !r.done then { r with stage := .again } else r }
  { m with h0 := f m.h0, h1 := f m.h1 }
/-- Engine state is exchanged when the next set belongs to another tenant (R275). -/
def CoreSt.swapEngines (c : CoreSt) (next : Nat) : CoreSt :=
  let (m, x, y) := (assoc c.engSaved (c.tenantNo next)).getD ({}, {}, {})
  { c with engSaved := assocSet (assocDel c.engSaved (c.tenantNo next)) (c.tenantNo c.cur) (c.matrix, c.copyEng, c.xformEng)
           matrix := m.again, copyEng := x, xformEng := y }
/-- The core's engines go over to the tenant of the next set, if it is another (R275, R286): what the paths hold back
reaches memory, the save area takes the image, and the next tenant's state comes back. -/
def State.swapEngines (s : State) (core : CoreNo) (next : Nat) : State :=
  let c := s.coreAt core
  if c.tenantNo c.cur = c.tenantNo next then s
  else
    let known := (assoc c.engSaved (c.tenantNo next)).isSome
    let s := (((s.drain core .copy).drain core .xform).saveShare core).modCore core fun c => c.swapEngines next
    if known then s.loadShare core next else s

/-- A set becomes current: the limits of its parked and waiting contexts go on, those of JOIN and REAP from the start
(R127, R372). -/
def State.join1 (s : State) (core : CoreNo) (set : Nat) : State :=
  let off := (s.coreAt core).offAt[set]?.getD 0
  let now := s.cycleOf (pkgOf core)
  let mine := fun (e : ParkEntry) => e.req.src == core &&
    (match e.req.who with | .ctx k => keySet k == set | .unit hk => hk / 2 == set | _ => false)
  let entry := fun (e : ParkEntry) =>
    if mine e then { e with since := if e.req.act = .join then now else e.since + (now - off) } else e
  let ctx := fun (c : Ctx) => { c with since := match c.run with | .park (.reap _) => now | _ => c.since + (now - off) }
  let s : State := { s with cores := s.cores.map fun (p : Nat × CoreSt) =>
    (p.1, ({ p.2 with parks := p.2.parks.map entry } : CoreSt)) }
  s.modCore core fun (c : CoreSt) => { c with
    cur := set
    off := c.off &&& ~~~(1#4 <<< set)
    ctxs := c.ctxs.map fun (p : Nat × Ctx) => if keySet p.1 = set then (p.1, ctx p.2) else p }

/-- BANKSEL (R368): the core goes on in the root context of another resident set, RHELD clear; that context keeps its
own state otherwise (DEDUCED, log 46). -/
def execBanksel (a : GReg) (s : State) : Host.Outcome State Fault Refusal :=
  .next (s.guarded (.banksel a) fun s => s.rootOnly fun s =>
    if !(s.here.resident[keySet s.key]?.getD {}).held then s.illegal
    else s.deciding [a] fun s =>
      let x := (s.me.g a).val
      let n := x.toNat % 4
      if x.toNat / 4 ≠ 0 then s.illegal
      else if s.here.banks[n]?.getD .empty ≠ .resident ∨ n = s.here.cur then s.trapOpen 0x25 0x85
      else
        let s := s.retire.latchParks s.core
        let s := (s.modHere fun c => c.leave (s.cycleOf (pkgOf s.core))).swapEngines s.core n
        (s.join1 s.core n).modHere fun c => { c with resident := c.resident.set! n {} })

-- CSAVE and CREST (R366, R369)

/-- Local offset of a context's record in a bank (R366). -/
def recOff (bank n : Nat) : Nat := 0xE0000 + 0x8000 * bank + 0x800 * n
/-- Write a labelled double word of a core's local store. -/
def State.putDw (s : State) (ha : Nat) (v : LWord) : State :=
  ((s.putNat ha 8 v.val.toNat).putTag ha v.lab).putTag (ha + 4) v.lab
/-- The handles of an m or v register as bytes (R366). -/
def labBytes (l : List Handle) : List Byte := l.flatMap fun h => leBytes 2 h.toNat
/-- The architected part of a context's record, written to the bank. -/
def State.putRecord (s : State) (ha : Nat) (r : Regs) : State :=
  let s := (List.range 64).foldl (fun s i => s.putDw (ha + 8 * i) (r.g.toList.getD i {})) s
  let s := (List.range 32).foldl (fun s i => s.putDw (ha + 0x200 + 8 * i) (r.f.toList.getD i {})) s
  let s := (List.range 8).foldl (fun s i =>
    let m := r.m.toList.getD i {}
    (s.putBytes (ha + 0x300 + 16 * i) (leBytes 16 m.bits.toNat)).putBytes (ha + 0x3A0 + 64 * i) (labBytes m.lab.toList)) s
  let s := (List.range 4).foldl (fun s i => s.putNat (ha + 0x380 + 8 * i) 8 (r.k.toList.getD i {}).list.toNat) s
  (List.range ((0x5A0 - 0x300) / 4)).foldl (fun s i => s.putTag (ha + 0x300 + 4 * i) 0) s
/-- The registers that a record holds; a double word's label is that of its lower word (log 21). -/
def State.getRecord (s : State) (ha : Nat) (old : Regs) : Regs :=
  let dw := fun a => (⟨BitVec.ofNat 64 (s.natAt a 8), s.tagAt a⟩ : LWord)
  { old with
    g := Vector.ofFn fun i => dw (ha + 8 * i.val)
    f := Vector.ofFn fun i => dw (ha + 0x200 + 8 * i.val)
    m := Vector.ofFn fun i =>
      { bits := BitVec.ofNat 128 (s.natAt (ha + 0x300 + 16 * i.val) 16)
        lab := Vector.ofFn fun j => BitVec.ofNat 16 (s.natAt (ha + 0x3A0 + 64 * i.val + 2 * j.val) 2) }
    k := Vector.ofFn fun i => { list := BitVec.ofNat 64 (s.natAt (ha + 0x380 + 8 * i.val) 8), pos := old.k[i].pos } }
/-- The un-architected part of a record: free, but for the key at offset 0x5A0 (log 21). -/
def State.putHidden (s : State) (ha key : Nat) : State :=
  let (t, s) := s.draw
  let s := (List.range ((0x800 - 0x5A8) / 8)).foldl (fun s i =>
    s.putDw (ha + 0x5A8 + 8 * i) ⟨Config.cellarWord t (ha + 0x5A8 + 8 * i), 0⟩) s
  s.putDw (ha + 0x5A0) ⟨BitVec.ofNat 64 key, 0⟩

/-- Vector bank bytes of a context: its v registers, then their handles (log 21). -/
def Regs.vBytes (r : Regs) : List Byte :=
  (r.v.toList.flatMap fun x => leBytes 128 x.data.toNat) ++ r.v.toList.flatMap fun x => labBytes x.lab.toList
/-- The v registers that an image area holds for a context. -/
def State.vImage (s : State) (ha : Nat) : Vector VReg 8 :=
  Vector.ofFn fun i =>
    { data := BitVec.ofNat 1024 (s.natAt (ha + 128 * i.val) 128)
      lab := Vector.ofFn fun j => BitVec.ofNat 16 (s.natAt (ha + 1024 + 64 * i.val + 2 * j.val) 2) }

/-- Contexts of a set by key, the sequencer's own among them. -/
def CoreSt.setCtxs (c : CoreSt) (set : Nat) : List (Nat × Ctx) := c.ctxs.filter fun p => keySet p.1 == set

/-- A reply, a token or a result is still bound for a set (R369, R214). -/
def State.bound (s : State) (core : CoreNo) (set : Nat) : Bool :=
  let c := s.coreAt core
  ((c.setCtxs set).any fun p => !p.2.pend.isEmpty || (match p.2.run with
    | .wait .reply => (s.parkedAt core p.1).isNone
    | .wait (.backoff _) | .wait .intern | .wait (.combine ..) | .wait (.walk _) | .wait (.line _) | .wait .sfu
    | .wait (.tlbinv ..) | .park .lflush => true
    | _ => false)) ||
  c.finishing.any (fun l => keySet l.key == set) ||
  c.journal.toList.any (fun j => j.st == .outstanding && keySet j.key == set) ||
  c.sfu.any fun q => keySet q.key == set

/-- A context as it leaves its bank: an instruction that waits for a queue entry is offered again later. -/
def Ctx.settled (c : Ctx) : Ctx :=
  match c.run with
  | .wait .matQueue | .wait (.engQueue _) => { c with run := .run }
  | _ => c

/-- What CSAVE and CREST check (R369): the operand, the bank, and the image area in the core's own local store. -/
def State.bankOp (s : State) (i : Instr) (a : GReg) (ok : CoreSt → Nat → Bool) (go : State → Nat → Nat → State) : State :=
  s.guarded i fun s => s.rootOnly fun s => s.deciding [a] fun s =>
    let x := (s.me.g a).val
    let n := x.toNat % 4
    let va : Word := BitVec.ofNat 64 (x.toNat / 0x8000 * 0x8000)
    if x.toNat / 4 % 0x2000 ≠ 0 ∨ x.toNat / 2 ^ 57 ≠ 0 then s.illegal
    else if !ok s.here n then s.trapOpen 0x25 0x85
    else match s.localSpot va 0x8000, s.localSpot (va + 0x7FFF) 1 with
      | .error t, _ => t
      | _, .error t => t
      | .ok l, .ok _ => if l.home = s.core then go s n l.ha else s.refuseHere 0x06 va

/-- The vector bank written to an image area: 24 KiB, then zeros, every word with the empty label (R369). -/
def State.putImage (s : State) (ha : Nat) (regs : List Regs) : State :=
  let s := s.putBytes ha (regs.flatMap Regs.vBytes ++ List.replicate 0x2000 0)
  ((List.range 0x2000).foldl (fun s i => s.putTag (ha + 4 * i) 0) s).breakBars ha 0x8000

/-- CSAVE (R369): waits for what is bound for the set, and seals its bank. Parked requests of the set are cancelled and
executed again (R191). -/
def execCsave (a : GReg) (s : State) : Host.Outcome State Fault Refusal :=
  .next (s.bankOp (.csave a) a (fun c n => (c.banks[n]?.getD .empty) == .resident && n != c.cur) fun s n ha =>
    if s.bound s.core n then s.wait .saving
    else
      let core := s.core
      let s := (s.here.setCtxs n).foldl (fun s p => s.cancelPark core p.1) s
      let c := s.here
      let p := pkgOf core
      let key := (s.pkgAt p).nextSave
      let cellar : Cellar :=
        { ctxs := (c.setCtxs n).map fun q => (q.1 - 16 * n, q.2.settled)
          loops := (c.loops.filter fun l => keySet l.key == n).map fun l => { l with key := l.key % 16 }
          tap := c.tap.filter fun t => t.set == n
          resident := c.resident[n]?.getD {} }
      let s := s.putImage ha ((List.range 16).map fun i => (c.ctxAt (16 * n + i)).regs)
      let s := (List.range 16).foldl (fun s i =>
        (s.putRecord (lsAddr core (recOff n i)) (c.ctxAt (16 * n + i)).regs).putHidden (lsAddr core (recOff n i)) key) s
      let s := s.modPkg p fun k => { k with saved := assocSet k.saved key cellar, nextSave := key + 1 }
      let offers := fun (e : Engine) => { e with offers := e.offers.filter fun o => keySet o != n }
      let mat := fun (h : Half) => { h with offers := h.offers.filter fun o => keySet o != n }
      let s := s.modHere fun c => { c with
        ctxs := c.ctxs.filter fun q => keySet q.1 != n
        loops := c.loops.filter fun l => keySet l.key != n
        tap := c.tap.filter fun t => t.set != n
        resident := c.resident.set! n {}
        copyEng := offers c.copyEng, xformEng := offers c.xformEng
        matrix := { c.matrix with h0 := mat c.matrix.h0, h1 := mat c.matrix.h1 }
        banks := c.banks.set! n .sealed }
      s.retire)

/-- A context's registers as CREST reads them from its record and its part of the image area (R366, R369). -/
def State.restored (s : State) (core : CoreNo) (n ha : Nat) (cellar : Cellar) (i : Nat) : Ctx :=
  let c := (assoc cellar.ctxs i).getD {}
  { c with regs := { s.getRecord (lsAddr core (recOff n i)) c.regs with v := s.vImage (ha + 1536 * i) } }

/-- The tap context of a set that is installed (R329): its registers hold zero, and so do FFLAGS, FENABLE, VCCLASS, EHELD
and TVEC. -/
def Ctx.tapReset (c : Ctx) : Ctx :=
  { c with regs := {}, fflags := 0, fenable := 0, vcclass := 0, eheld := false, tvec := 0 }

/-- CREST (R369): the contexts are read back, and the bank becomes RESIDENT. A record image that no CSAVE wrote leaves the
un-architected part at its reset state (log 21). -/
def execCrest (a : GReg) (s : State) : Host.Outcome State Fault Refusal :=
  .next (s.bankOp (.crest a) a (fun c n => (c.banks[n]?.getD .empty) != .resident) fun s n ha =>
    let core := s.core
    let cellar := (assoc (s.pkgAt (pkgOf core)).saved (s.natAt (lsAddr core (recOff n 0) + 0x5A0) 8)).getD {}
    let ctxs := (List.range 16).map fun i =>
      (16 * n + i, let c := s.restored core n ha cellar i; if i = 15 then c.tapReset else c)
    let shadows := (cellar.ctxs.filter fun p => decide (64 ≤ p.1)).map fun p => (p.1 + 16 * n, p.2)
    let s := (ctxs ++ shadows).foldl (fun s p => s.setCtx core p.1 p.2) s
    let s := s.modHere fun c => { c with
      loops := c.loops ++ cellar.loops.map fun l => { l with key := l.key + 16 * n }
      tap := c.tap ++ cellar.tap.map fun t => { t with set := n }
      resident := c.resident.set! n cellar.resident
      offAt := c.offAt.set! n (s.cycleOf (pkgOf core))
      banks := c.banks.set! n .resident }
    s.retire)

-- TLBINV (R373)

/-- TLBINV: waits as a FENCE, then for every core in scope. -/
def execTlbinv (sc : Scope) (a : GReg) (s : State) : Host.Outcome State Fault Refusal :=
  .next (s.guarded (.tlbinv sc a) fun s => s.deciding [a] fun s =>
    let x := (s.me.g a).val
    if x.toNat / 2 % 2 ^ 15 ≠ 0 ∨ x.toNat / 2 ^ 57 ≠ 0 then s.illegal
    else if !s.orderly sc then s.wait .order
    else s.wait (.tlbinv x sc))

/-- TLBINV_COMPLETE (R373, R380): no walk of the partition is in flight in a core of the scope, whatever its current set,
and all of them drop the entries. -/
def execTlbinvComplete (core : CoreNo) (x : CtxNo) (s : State) : Host.Outcome State Fault Refusal :=
  .next (match (s.keysOf core x).findSome? (fun key => match (s.ctxAt core key).run with
      | .wait (.tlbinv v sc) => some (key, v, sc)
      | _ => none) with
    | none => s
    | some (key, v, sc) =>
      let k := s.partKey core key
      let inside := fun (c : Nat) => inScope sc core (BitVec.ofNat 20 c) && (s.inPart k (BitVec.ofNat 20 c) || c == core.toNat)
      let walking := s.cores.any fun p => inside p.1 && p.2.ctxs.any fun q =>
        (match q.2.run with | .wait (.walk _) => true | _ => false) && s.partKey (BitVec.ofNat 20 p.1) q.1 == k
      if walking then s
      else
        let page := v.toNat / 2 ^ 16 * 2 ^ 16
        let keep := fun (e : TlbEntry) =>
          !(e.part == k && (v.getLsbD 0 || (decide (e.va ≤ page) && decide (page < e.va + e.size))))
        let drop := fun (p : Nat × CoreSt) => if inside p.1 then (p.1, { p.2 with tlb := p.2.tlb.filter keep }) else p
        ({ s with cores := s.cores.map drop } : State).retireCtx core key)

-- Debug (R376 to R378)

/-- DEBUG_SET_DBG (R376): the debug path writes DBG of a context of the current set. -/
def execDebugSetDbg (core : CoreNo) (x : CtxNo) (attach step : Bool) (s : State) : Host.Outcome State Fault Refusal :=
  .next (s.modCtx core ((s.coreAt core).key x) fun c => { c with dbg := { c.dbg with attach, step } })
/-- DEBUG_FREEZE_SET (R378). -/
def execDebugFreezeSet (core : CoreNo) (s : State) : Host.Outcome State Fault Refusal :=
  .next (s.modCore core fun c => { c with freeze := true })
/-- DEBUG_FREEZE_CLEAR (R378). -/
def execDebugFreezeClear (core : CoreNo) (s : State) : Host.Outcome State Fault Refusal :=
  .next (s.modCore core fun c => { c with freeze := false })
/-- DEBUG_RESUME (R377): a stopped context goes on, past the watch match if one has stopped it. -/
def execDebugResume (core : CoreNo) (x : CtxNo) (s : State) : Host.Outcome State Fault Refusal :=
  .next (s.modCtx core ((s.coreAt core).key x) fun c =>
    if c.stopped then { c with stopped := false, dbg := { c.dbg with pass := c.dbg.met, met := false } } else c)

end Sys2Proof.Machine
end

