-- ==== Sys2Proof/Machine/Partition.lean ====
section
/-!
DEFINITION. The partition controller and the synchronised stop (R361 to R375), major codes 0xE9 to 0xEC: RTSWAP, CALSET,
PSPLIT, PMERGE and SSTOP, with the events that carry them out. Machine/Host.lean uses its stops and its discard.
-/
namespace Sys2Proof.Machine

-- Who may ask (R362, R365)

/-- A root-context instruction of an MGMT partition (R365): the labels are checked before the partition's right. -/
def State.manager (s : State) (i : Instr) (a : GReg) (go : State → Word → State) : State :=
  s.guarded i fun s => s.rootOnly fun s => s.deciding [a] fun s =>
    if (s.partAt s.part).mgmt then go s (s.me.g a).val else s.trapOpen 0x25 0x84

/-- A request in the issuing core's own local store, aligned (R365, R370, R406). -/
def State.ownRequest (s : State) (va : Word) (align n : Nat) (go : State → Nat → State) : State :=
  match s.window s.core s.key va.toNat with
  | some (.error c) => s.refuseHere c va
  | none => s.refuseHere 0x06 va
  | some (.ok l) =>
    if l.home ≠ s.core then s.refuseHere 0x06 va
    else if va.toNat % align ≠ 0 then s.trap 0x07 0 va
    else match s.window s.core s.key (va.toNat + n - 1) with
      | some (.ok _) => go s l.ha
      | some (.error c) => s.refuseHere c va
      | none => s.refuseHere 0x06 va

/-- Round up to a multiple of 64. -/
def up64 (n : Nat) : Nat := (n + 63) / 64 * 64

-- RTSWAP (R374, R323)

/-- RTSWAP: one swap of a package at a time; another waits (DEDUCED, log 54). -/
def execRtswap (t a : GReg) (s : State) : Host.Outcome State Fault Refusal :=
  .next (s.manager (.rtswap t a) a fun s x =>
    if x.toNat / 2 ^ 48 ≠ 0 then s.illegal
    else if (s.pkgAt (pkgOf s.core)).swap.isSome then s.wait .control
    else
      let at_ := up64 (s.cycleOf (pkgOf s.core) + max (bitsAt x.toNat 16 32) 1024)
      let w : Swap := { core := s.core, key := s.key, tok := t, classes := x.setWidth 16, at_, confirm := s.here.assist.getLsbD 5 }
      ((s.markToken t).modPkg (pkgOf s.core) fun p => { p with swap := some w }).retire)

/-- Exchange the active and the shadow entries of some classes in every router of a package (R323). -/
def Router.flip (r : Router) (classes : BitVec 16) : Router :=
  let named := fun (e : Nat × Nat) => classes.getLsbD (e.1 % 16)
  { r with
    routes := r.routes.filter (fun e => !named e) ++ r.shadow.filter named
    shadow := r.shadow.filter (fun e => !named e) ++ r.routes.filter named }

/-- ROUTE_BANK_FLIP (R323, R374): once the classes' messages are delivered, the host is told if the swap asks for its
confirmation; at the swap cycle, or a whole number of 64 cycles later, the banks are flipped, the token is written and the
held messages go on. -/
def execRouteBankFlip (pkg : Fin 64) (s : State) : Host.Outcome State Fault Refusal :=
  .next (
    let p := pkg.val
    match (s.pkgAt p).swap with
    | none => s
    | some w =>
      if s.inFlight p w.classes then s
      else if w.confirm then
        if w.recorded then s
        else (s.modPkg p fun k => { k with swap := some { w with recorded := true } }).postEvent
          (s.partKey w.core w.key) { kind := 6, core := w.core, ctx := 0 }
      else if s.cycleOf p < w.at_ ∨ (s.cycleOf p - w.at_) % 64 ≠ 0 then s
      else
        let flip := fun (r : Nat × Router) => if r.1 / 128 = p then (r.1, r.2.flip w.classes) else r
        let s := ({ s with routers := s.routers.map flip } : State).modPkg p fun k => { k with swap := none }
        (s.writeToken w.core (realKey w.key) w.tok ⟨statusWord 0 3 0 w.at_, 0⟩).releaseHeld p)

-- CALSET (R375)

/-- An output that a router has (R375): a mesh neighbour, the I/O die on row 7, or a channel core's request port. -/
def hasOutput (r out : Nat) : Bool :=
  if out = 5 then rowOf r == 7 else out == 6 || out == 7 || (neighbour r out).isSome

/-- CALSET of either kind, by gA<16>. -/
def State.calsetOp (s : State) (i : Instr) (a b : GReg) : State :=
  s.guarded i fun s => s.deciding [a, b] fun s =>
    let x := (s.me.g a).val.toNat
    let y := (s.me.g b).val.toNat
    let pkg := pkgOf s.core
    let r := 128 * pkg + 16 * bitsAt x 4 3 + bitsAt x 0 4
    let out := bitsAt x 7 3
    let arb := decide (bitsAt x 16 1 = 1)
    let bad := if arb then bitsAt y 16 8 ≠ 0 else bitsAt y 10 5 ≠ 0
    if x / 2 ^ 27 ≠ 0 ∨ !hasOutput r out ∨ bad then s.illegal
    else
      let may := if arb then realKey s.key % 16 == 0 && bitsAt x 17 10 == s.part.node else (s.partAt s.part).mgmt
      if !may then s.trapOpen 0x25 0x84
      else
        let dst := mkCore pkg (bitsAt x 4 3) (bitsAt x 0 4) 16
        let l : Loc := { ha := 0, home := dst, ls := false }
        s.ask dst { s.req (.calset r out arb (bitsAt x 10 6) (bitsAt x 17 10)) l 0 0 with
          data := leBytes 4 (if arb then y % 2 ^ 32 else y % 2 ^ 16) } .none

/-- CALSET of a calendar entry (R375). -/
def execCalsetCalendar (a b : GReg) (s : State) : Host.Outcome State Fault Refusal :=
  .next (s.calsetOp (.calsetCalendar a b) a b)
/-- CALSET of an arbitration record (R375). -/
def execCalsetArbitration (a b : GReg) (s : State) : Host.Outcome State Fault Refusal :=
  .next (s.calsetOp (.calsetArbitration a b) a b)

-- PSPLIT and PMERGE (R361 to R365)

/-- PSPLIT: the two records of the request go to the controller. -/
def execPsplit (t a : GReg) (s : State) : Host.Outcome State Fault Refusal :=
  .next (s.manager (.psplit t a) a fun s x => s.ownRequest x 64 128 fun s ha =>
    let recs := [BitVec.ofNat 512 (s.natAt ha 64), BitVec.ofNat 512 (s.natAt (ha + 64) 64)]
    let q : CtrlReq := { core := s.core, key := s.key, tok := t, merge := false, node := 0, recs, addr := x, pc := s.me.pc }
    ((s.markToken t).modPkg (pkgOf s.core) fun p => { p with ctrl := p.ctrl ++ [q] }).retire)
/-- PMERGE: a nonzero bit above the node number is illegal. -/
def execPmerge (t a : GReg) (s : State) : Host.Outcome State Fault Refusal :=
  .next (s.manager (.pmerge t a) a fun s x =>
    if x.toNat / 2 ^ 10 ≠ 0 then s.illegal
    else
      let q : CtrlReq :=
        { core := s.core, key := s.key, tok := t, merge := true, node := x.toNat, addr := x, pc := s.me.pc }
      ((s.markToken t).modPkg (pkgOf s.core) fun p => { p with ctrl := p.ctrl ++ [q] }).retire)

/-- A record of R362, by field. -/
def recOf (r : BitVec 512) : PartSt := { record := r }
/-- NODE of a record. -/
def PartSt.node (p : PartSt) : Nat := p.fld 0 10
/-- TEN of a record. -/
def PartSt.tenant (p : PartSt) : Bool := p.record.getLsbD 10
/-- A record that R365's code 0x81 does not reject. -/
def recordOk (r : BitVec 512) : Bool :=
  let p := recOf r
  p.elog % 2048 == 0 && p.fld 341 57 % 65536 == 0 && p.gtab % 8 == 0 && p.fld 227 57 % 512 == 0 &&
  p.fld 170 57 % 65536 == 0 && p.troot % 65536 == 0 && decide (p.lslo ≤ p.lshi) && decide (p.lshi ≤ 0xDB) &&
  isChannel p.lhome && p.fld 43 20 == 0

/-- Whether one node of the tree lies in another (R361). -/
def under (a b : Nat) : Bool := b != 0 && (List.range 10).any fun d => a / 2 ^ d == b
/-- A node is free when neither it nor a node above or below it holds a valid record (R361, R365; DEDUCED, log 47). -/
def State.freeNode (s : State) (pkg node : Nat) : Bool :=
  !(s.parts.any fun p => p.1.pkg == pkg && p.2.valid && (under p.1.node node || under node p.1.node))
/-- A node is idle (R365): its contexts are IDLE in every bank, its deques are empty of items, its engine queues are
empty. -/
def State.idleNode (s : State) (pkg node : Nat) (ten : Option Bool) : Bool :=
  (coresOf pkg node).all fun core =>
    let c := s.coreAt core
    let mine := fun (key : Nat) => match ten with
      | none => true
      | some t => key % 16 == 0 || key % 16 == 15 || c.tenOf (realKey key) == t
    c.ctxs.all (fun p => !mine p.1 || p.2.run == .idle) &&
    c.deques.all (fun d => d.2.items.all fun i => match ten with | none => false | some t => i.ten != t) &&
    [c.copyEng, c.xformEng].all (fun e => (e.queue.map (·.key) ++ (e.run.map (·.op.key)).toList).all fun k => !mine k) &&
    [c.matrix.h0, c.matrix.h1].all fun h => (h.queue.map (·.key) ++ (h.run.map (·.op.key)).toList).all fun k => !mine k

/-- The nodes that a request is about: two children, or one leaf twice (R365). -/
def CtrlReq.children (q : CtrlReq) : Option (Nat × Bool × Nat × Bool) :=
  if q.merge then
    if q.node = 0 then none
    else if q.node < 512 then some (2 * q.node, false, 2 * q.node + 1, false)
    else some (q.node, false, q.node, true)
  else
    let x := recOf (q.recs.getD 0 0)
    let y := recOf (q.recs.getD 1 0)
    let (x, y) := if y.node < x.node ∨ (x.node = y.node ∧ x.tenant) then (y, x) else (x, y)
    if x.node = y.node then
      if 512 ≤ x.node ∧ !x.tenant ∧ y.tenant then some (x.node, false, y.node, true) else none
    else if 2 ≤ x.node ∧ x.node % 2 = 0 ∧ y.node = x.node + 1 then some (x.node, false, y.node, false)
    else none

/-- The code of a request (R365), its checks in the order 0x81, 0x82, 0x80, 0x83 (DEDUCED, log 47). -/
def State.ctrlCode (s : State) (pkg : Nat) (q : CtrlReq) : Nat :=
  if !q.merge && q.recs.any (fun r => !recordOk r || pkgOf (recOf r).lhome != pkg) then 0x81
  else match q.children with
    | none => 0x82
    | some (a, ta, b, tb) =>
      let leaf := a == b
      let free := if q.merge then
          s.idleNode pkg a (if leaf then some ta else none) && s.idleNode pkg b (if leaf then some tb else none)
        else s.freeNode pkg (if leaf then a else a / 2)
      if !free then 0x80
      else if covers a (cindex q.core) || covers b (cindex q.core) then 0x83
      else 0

/-- Calendar slots that some nodes own become OPEN in every router of a package (R365). -/
def State.openSlots (s : State) (pkg : Nat) (nodes : List Nat) : State :=
  let slot := fun (e : Nat × BitVec 16) =>
    if !e.2.getLsbD 15 && nodes.contains (e.2.toNat % 1024) then (e.1, 0x8000#16) else e
  { s with routers := s.routers.map fun r => if r.1 / 128 = pkg then (r.1, { r.2 with cal := r.2.cal.map slot }) else r }

/-- Free-list heads of a set are set to 0 (R308). -/
def CoreSt.clearHeads (c : CoreSt) (set : Nat) : CoreSt :=
  { c with rewrite := { c.rewrite with heads := c.rewrite.heads.filter fun h => h.1 / 2 != set } }
/-- The tap context of a set is installed (R329). -/
def CoreSt.installTap (c : CoreSt) (set : Nat) : CoreSt := c.setCtx (16 * set + 15) (c.ctxAt (16 * set + 15)).tapReset

/-- Install a partition record in a set of the cores of its node (R362, R363, R365, R369): the partition's tables begin at
their reset state (log 48). PSPLIT installs the set too, with an empty free list and the tap context of R329; the host
leaves a RESIDENT bank as it is and any other EMPTY. -/
def State.installRec (s : State) (pkg set : Nat) (paired split : Bool) (r : BitVec 512) : State :=
  let p := recOf r
  let s := s.setPart { pkg, node := p.node, ten := p.tenant, set } { record := r }
  (coresOf pkg p.node).foldl (fun s core => s.modCore core fun c =>
    let c : CoreSt := { c with nodes := c.nodes.set! set (some (p.node, p.tenant)), paired := c.paired.set! set paired }
    if split then (({ c with banks := c.banks.set! set .resident } : CoreSt).clearHeads set).installTap set
    else if (c.banks[set]?.getD .empty) == BankSt.resident then c
    else { c with banks := c.banks.set! set .empty }) s

/-- Remove the records of a node, and of one tenant where it is named (R365). -/
def State.removeRec (s : State) (pkg node : Nat) : State :=
  let s := { s with parts := s.parts.filter fun p => !(p.1.pkg == pkg && p.1.node == node) }
  (coresOf pkg node).foldl (fun s core => s.modCore core fun c =>
    let gone := fun (i : Nat) => match (c.nodes[i]?).getD none with | some (n, _) => n == node | none => false
    [0, 1, 2, 3].foldl (fun (c : CoreSt) i =>
      if gone i then { c with nodes := c.nodes.set! i none, paired := c.paired.set! i false }.clearHeads i else c) c) s

/-- PARTITION_OP_COMPLETE (R365): the controller's oldest request is performed and its token written. -/
def execPartitionOpComplete (pkg : Fin 64) (s : State) : Host.Outcome State Fault Refusal :=
  .next (
    let p := pkg.val
    match (s.pkgAt p).ctrl with
    | [] => s
    | q :: rest =>
      let s := s.modPkg p fun k => { k with ctrl := rest }
      let code := s.ctrlCode p q
      let done := fun (s : State) (frec : Nat) => s.writeToken q.core (realKey q.key) q.tok ⟨statusWord code 3 frec 0, 0⟩
      if code ≠ 0 then
        let (n, s) := s.logError (s.partKey q.core q.key) code q.addr q.core 0 q.pc
        done s n
      else match q.children with
        | none => s
        | some (a, _, b, _) =>
          let up := if a = b then a else a / 2
          if q.merge then done (((s.removeRec p a).removeRec p b).openSlots p [a, b]) 0
          else done ((q.recs.foldl (fun s r => s.installRec p 0 (a == b) true r) s).openSlots p [up]) 0)

-- SSTOP (R370) and the controller's own stops

/-- Ask the controller for a stop: T′ is the requested cycle or 1,024 cycles from now, rounded up to a multiple of 64. -/
def State.askStop (s : State) (pkg : Nat) (x : Stop) (t : Nat) : Nat × State :=
  let at_ := up64 (max t (s.cycleOf pkg + 1024))
  (at_, s.modPkg pkg fun p => { p with stops := p.stops ++ [{ x with at_ }] })

/-- A set that may run after a stop: RESIDENT or EMPTY on every core of the node (R370). -/
def State.nextOk (s : State) (pkg node next : Nat) : Bool :=
  (coresOf pkg node).all fun c => ((s.coreAt c).banks[next]?.getD .empty) != .sealed

/-- SSTOP: it follows the controller's earlier requests (R380), and writes T′ into the request. -/
def execSstop (a : GReg) (s : State) : Host.Outcome State Fault Refusal :=
  .next (s.manager (.sstop a) a fun s x => s.ownRequest x 16 16 fun s ha =>
    let p := pkgOf s.core
    let d := s.natAt ha 8
    let node := bitsAt d 0 10
    let next := bitsAt d 10 2
    if !(s.pkgAt p).ctrl.isEmpty then s.wait .control
    else if d / 2 ^ 13 ≠ 0 ∨ node = 0 then s.trapOpen 0x25 0x81
    else if !s.nextOk p node next then s.trapOpen 0x25 0x85
    else
      let (t, s) := s.askStop p { node, next, discard := decide (bitsAt d 12 1 = 1), at_ := 0, core := some s.core } (s.natAt (ha + 8) 8)
      ((s.putDw (ha + 8) ⟨BitVec.ofNat 64 t, 0⟩).breakBars (ha + 8) 8).retire)

-- The stop (R371, R372)

/-- A message of a set that a stop holds: it comes from or goes to a stopped core of the node whose current set it is of. -/
def State.ofStop (s : State) (pkg : Nat) (x : Stop) (m : Msg) : Bool :=
  m.part.pkg == pkg && [m.src, m.dst].any fun c =>
    isCompute c && pkgOf c == pkg && covers x.node (cindex c) && (s.coreAt c).stopped && m.part.set == (s.coreAt c).cur

/-- Flits of a set in a save bin of a router. -/
def State.binLoad (s : State) (router set : Nat) : Nat :=
  (s.flits.filter fun f => f.bin && f.router == router &&
    (match s.msgById f.msg with | some m => m.part.set == set | none => false)).length

/-- Flits of the stopped sets in the routers' buffers go into the save bins, each counted (R371, R372). A bin that this
takes over 128 flits is reported where the SSTOP's core asks for it (R357). -/
def State.sweep (s : State) (pkg : Nat) (x : Stop) : State :=
  let hit := fun (f : Flit) => !f.bin && f.inp != 8 && f.router / 128 == pkg &&
    (match s.msgById f.msg with | some m => s.ofStop pkg x m | none => false)
  let bins := ((s.flits.filter hit).flatMap fun f => [0, 1, 2, 3].map fun n => (f.router, n)).eraseDups
  let t := (s.flits.filter hit).foldl (fun (s : State) f => s.modRouter f.router fun r => { r with binned := r.binned + 1 }) s
  let t : State := { t with flits := s.flits.map fun f => if hit f then { f with bin := true } else f }
  match x.core with
  | none => t
  | some c =>
    if (s.coreAt c).assist.getLsbD 4 then
      (bins.filter fun b => decide (s.binLoad b.1 b.2 ≤ 128) && decide (128 < t.binLoad b.1 b.2)).foldl
        (fun t b => t.postEvent (s.partKey c (16 * (s.coreAt c).cur))
          { kind := 5, core := c, addr := (mkCore (b.1 / 128) (b.1 / 16 % 8) (b.1 % 16) 0).setWidth 64 }) t
    else t

/-- Stop the current set of a core: nothing issues, and requests parked at another home are cancelled (R191, R371). -/
def State.stopCore (s : State) (core : CoreNo) : State :=
  (s.modCore core fun c => { c with stopped := true, off := c.off ||| 1#4 <<< c.cur
                                    offAt := c.offAt.set! c.cur (s.cycleOf (pkgOf core)) }).latchParks core

/-- The cores that a stop stops: those of its node, and for a function's stop those whose current set is of the
function's partition (R394, R395). -/
def State.stopCores (s : State) (pkg : Nat) (x : Stop) : List CoreNo :=
  (coresOf pkg x.node).filter fun core =>
    x.fn.isNone || (let c := s.coreAt core; match (c.nodes[c.cur]?).getD none with | some (n, _) => n == x.node | none => false)

/-- A stop whose cycle has come and whose cores have not stopped yet. -/
def Stop.due (x : Stop) (now : Nat) : Bool := !x.begun && decide (x.at_ ≤ now)
/-- The cores of a package's stops stop as T′ comes (R371): nothing issues from T′ on. -/
def State.beginStops (s : State) (pkg : Nat) : State :=
  let now := s.cycleOf pkg
  let due := (s.pkgAt pkg).stops.filter fun x => x.due now
  if due.isEmpty then s
  else (due.foldl (fun s x => (s.stopCores pkg x).foldl State.stopCore s) s).modPkg pkg fun k =>
    { k with stops := k.stops.map fun x => if x.due now then { x with begun := true } else x }

/-- STOP_AT_T_PRIME (R371): the cores of the node stop, and the flits of their sets go into the bins, those that arrived
since among them. -/
def execStopAtTPrime (pkg : Fin 64) (s : State) : Host.Outcome State Fault Refusal :=
  .next (
    let s := s.beginStops pkg.val
    ((s.pkgAt pkg.val).stops.filter (·.begun)).foldl (fun s x => s.sweep pkg.val x) s)

/-- Completion (R371): no channel core and no label home holds work of the sets, no buffer a flit of them, and no engine
is still on its way to its next commit point (R286), unless it waits for a piece that the stop has put into a bin. -/
def State.stopDone (s : State) (pkg : Nat) (x : Stop) : Bool :=
  !((s.stopCores pkg x).any fun core => [Eng.copy, Eng.xform].any fun e =>
    match (s.eng core e).run with | some r => r.mid && r.asked.isNone | none => false) &&
  !(s.msgs.any fun m => s.ofStop pkg x m &&
    ((!isCompute m.dst && decide (m.flits ≤ m.here)) || s.flits.any fun f => f.msg == m.id && !f.bin && f.inp != 8))

/-- Remove a message from its triple, so that later ones take its place in the order. -/
def State.dropMsg (s : State) (m : Msg) : State :=
  let t := tripleKey m.src m.path m.dst
  let (nx, dl) := (assoc s.seqs t).getD (0, 0)
  { s with
    msgs := (s.msgs.filter fun x => x.id != m.id).map fun x =>
      if x.src == m.src && x.dst == m.dst && x.path == m.path && decide (m.seq < x.seq) then { x with seq := x.seq - 1 } else x
    flits := s.flits.filter fun f => f.msg != m.id
    seqs := assocSet s.seqs t (nx - 1, dl)
    gone := s.gone.map fun g => if g.1 = t ∧ m.seq < g.2 then (t, g.2 - 1) else g }

/-- Discard a set of a core (R371): its bank becomes EMPTY, its contexts, items, buffered messages, pairs and engine work
go, and its free lists end (R308). -/
def CoreSt.discard (c : CoreSt) (set : Nat) : CoreSt :=
  let other := fun (k : Nat) => keySet k != set
  let eng := fun (e : Engine) => { e with
    queue := e.queue.filter fun o => other o.key, offers := e.offers.filter other
    run := e.run.filter fun r => other r.op.key
    completed := e.accepted - ((e.queue.filter fun o => other o.key).length + (e.run.filter fun r => other r.op.key).toList.length) }
  let half := fun (h : Half) => { h with
    queue := h.queue.filter fun o => other o.key, offers := h.offers.filter other
    run := h.run.filter fun r => other r.op.key
    completed := h.accepted - ((h.queue.filter fun o => other o.key).length + (h.run.filter fun r => other r.op.key).toList.length) }
  ({ c with
    ctxs := c.ctxs.filter fun p => other p.1
    loops := c.loops.filter fun l => other l.key
    tap := c.tap.filter fun t => t.set != set
    events := c.events.filter fun e => e.set != set
    resident := c.resident.set! set {}
    banks := c.banks.set! set .empty
    sfu := c.sfu.filter fun q => other q.key
    off := c.off &&& ~~~(1#4 <<< set)
    barHolds := (c.barHolds.map fun h => { h with joins := h.joins.filter fun j => other j.1 }).filter fun h => !h.joins.isEmpty
    journal := c.journal.map fun j => if j.st = .refused ∧ keySet j.key = set then {} else j
    deques := c.deques.map fun d => (d.1, d.2.keep fun i => i.set != set)
    rewrite := { c.rewrite with hold := c.rewrite.hold.filter fun p => p.hk / 2 != set
                                taken := c.rewrite.taken.filter fun t => t.pair.hk / 2 != set }
    copyEng := eng c.copyEng, xformEng := eng c.xformEng
    matrix := { c.matrix with h0 := half c.matrix.h0, h1 := half c.matrix.h1, discards := [] }
    engSaved := c.engSaved.map fun p => (p.1,
      ({ p.2.1 with h0 := half p.2.1.h0, h1 := half p.2.1.h1, discards := [] }, eng p.2.2.1, eng p.2.2.2)) } : CoreSt).clearHeads set

/-- The tokens of the engine operations of a set, switched out or not, with the engines' numbers in a status. -/
def CoreSt.engTokens (c : CoreSt) (set : Nat) : List (Nat × GReg × Nat) :=
  let eng := fun (g : Engine) (e : Eng) => ((g.run.map (·.op)).toList ++ g.queue).map fun o => (o.key, o.tok, engCode e)
  let half := fun (h : Half) (n : Nat) => ((h.run.map (·.op)).toList ++ h.queue).map fun o => (o.key, o.tok, engineOf n)
  let all := fun (p : Matrix × Engine × Engine) => half p.1.h0 0 ++ half p.1.h1 1 ++ eng p.2.1 .copy ++ eng p.2.2 .xform
  ((c.matrix, c.copyEng, c.xformEng) :: c.engSaved.map (·.2)).flatMap all |>.filter fun t => keySet t.1 == set && t.2.1 != 0
/-- The engine work of a set is cancelled with code 0x5F (R371). It has no effect beside its token (DEDUCED, log 124). -/
def State.cancelEngines (s : State) (core : CoreNo) (set : Nat) : State :=
  ((s.coreAt core).engTokens set).foldl (fun s t => s.writeToken core (realKey t.1) t.2.1 ⟨statusWord 0x5F t.2.2 0 0, 0⟩) s

/-- Discard a set of a core with what it has under way elsewhere: messages of the set from or to it, each binned flit
counted as dropped, requests held or parked at homes, and NOGOODs in progress. -/
def State.discardSet (s : State) (core : CoreNo) (set : Nat) : State :=
  let k := s.partKey core (16 * set)
  let mine := fun (m : Msg) => m.part.pkg == k.pkg && m.part.node == k.node && m.part.set == set && (m.src == core || m.dst == core)
  let req := fun (r : Req) => r.src == core && (match r.who with
    | .ctx x => keySet x == set
    | .contexts l => l.any fun x => keySet x.1 == set
    | _ => false)
  let s := s.cancelEngines core set
  let ms := s.msgs.filter mine
  let s := (s.flits.filter fun f => f.bin && ms.any fun m => m.id == f.msg).foldl
    (fun (s : State) f => s.modRouter f.router fun r => { r with dropped := r.dropped + 1 }) s
  let s := ms.foldl State.dropMsg s
  let clean := fun (p : Nat × CoreSt) => (p.1, p.2.unpark req)
  let s := { s with cores := s.cores.map clean }
  let s := s.modPart k fun p => { p with nogoods := p.nogoods.filter fun n => !(n.core == core && keySet n.key == set) }
  s.modCore core fun c => c.discard set

/-- The binned flits of a set are put back as their buffers have room, before any new flit of it enters them (R372, R404;
log 113). -/
def State.reinject (s : State) (core : CoreNo) : State :=
  let set := (s.coreAt core).cur
  let k := s.partKey core (16 * set)
  let back := fun (f : Flit) => f.bin && (match s.msgById f.msg with
    | some m => m.part.pkg == k.pkg && m.part.node == k.node && m.part.set == set && (m.src == core || m.dst == core)
    | none => false)
  let rs := ((s.flits.filter back).map (·.router)).eraseDups
  let n := (s.flits.filter back).length
  let s : State := { s with flits := ((s.flits.filter back).map fun f => { f with due := true }) ++ s.flits.filter fun f => !back f }
  rs.foldl (fun s r => s.settle r (2 * n)) s

/-- A core goes over to a set after a stop (R329, R371, R380): an EMPTY bank takes a new set, RPC and its kin are those
kept with it, and its contexts resume. -/
def State.switchCore (s : State) (core : CoreNo) (next : Nat) : State :=
  let now := s.cycleOf (pkgOf core)
  let s := (s.modCore core fun c => ({ c.leave now with offAt := c.offAt } : CoreSt)).swapEngines core next
  let s := s.modCore core fun c => if c.banks[next]?.getD .empty = .empty then
      ({ c with ctxs := c.ctxs.filter fun p => keySet p.1 != next, banks := c.banks.set! next .resident
                offAt := c.offAt.set! next now } : CoreSt).installTap next
    else c
  let s := s.join1 core next
  s.modCore core fun c =>
    let r := c.resident[next]?.getD {}
    match r.kept with
    | some (rpc, rcause, raddr) =>
      { c with rpc := if r.held then rpc else c.rpc, rcause := if r.held then rcause else c.rcause
               raddr := if r.held then raddr else c.raddr, resident := c.resident.set! next { r with kept := none } }
    | none => c

/-- A core runs again, unless another stop that has begun still holds it. -/
def State.runCore (s : State) (core : CoreNo) : State :=
  let held := (s.pkgAt (pkgOf core)).stops.any fun x =>
    x.begun && covers x.node (cindex core) && (s.stopCores (pkgOf core) x).contains core
  (s.modCore core fun c => { c with stopped := held, matrix := if c.stopped then c.matrix.again else c.matrix }).reinject core

/-- The switch of a stop (R371): the cores of the node go over to the next set. -/
def State.endStop (s : State) (pkg i : Nat) (x : Stop) : State :=
  let s := s.modPkg pkg fun k => { k with stops := k.stops.eraseIdx i }
  (coresOf pkg x.node).foldl (fun s core =>
    let s := if x.discard then s.discardSet core (s.coreAt core).cur else s
    (s.switchCore core x.next).runCore core) s

end Sys2Proof.Machine
end

