-- ==== Sys2Proof/Machine/Host.lean ====
section
/-!
DEFINITION. The host side (R385 to R398): the configuration path, launches, CXL.mem writes, events and their answers,
virtual functions, migration, module reset, power and identity; and the switch of a stop, which a function may have
asked for. Each is an event of the world outside.
-/
namespace Sys2Proof.Machine

-- The configuration path (R322, R362, R396)

/-- A partition record from the host (R362): a leaf with a tenant B is in paired mode; a record that is not valid takes
its node out of the set. -/
def State.hostRecord (s : State) (pkg set : Nat) (r : BitVec 512) : State :=
  let p := recOf r
  let paired := p.tenant || s.parts.any fun q =>
    q.1.pkg == pkg && q.1.node == p.node && q.1.ten && q.1.set == set && q.2.valid
  if p.valid then s.installRec pkg set paired false r
  else
    (coresOf pkg p.node).foldl (fun s core => s.modCore core fun c =>
      match (c.nodes[set]?).getD none with
      | some (n, _) => if n = p.node then { c with nodes := c.nodes.set! set none, paired := c.paired.set! set false } else c
      | none => c) (s.setPart { pkg, node := p.node, ten := p.tenant, set } { record := r })

/-- CONFIG_PATH_WRITE: a record, an entry of a shadow route table (R323), the number of packages or a port's capacity. -/
def execConfigPathWrite (pkg : Fin 64) (w : ConfigWrite) (s : State) : Host.Outcome State Fault Refusal :=
  .next (match w with
    | .record set rec => s.hostRecord pkg.val set.val rec
    | .route router dest cls port =>
      if router.toNat < 128 then s.modRouter (128 * pkg.val + router.toNat) fun r =>
        { r with shadow := assocSet r.shadow (16 * dest.val + cls.val) port.val }
      else s
    | .packages n => if n.val = 0 then s else { s with packages := n.val }
    | .capacity port bytes => s.modPkg pkg.val fun p => { p with caps := assocSet p.caps port.val bytes.toNat })

-- Launches (R389)

/-- A launch message that R389 accepts: its target (none floods) and item. -/
def VFn.launch (f : VFn) (pkg : Nat) (off len : Nat) (data : BitVec 256) : Option (Option CoreNo × Item) :=
  let d := data.toNat
  let t : CoreNo := BitVec.ofNat 20 (bitsAt d 0 20)
  let flood := bitsAt d 20 1 = 1
  if off % 32 ≠ 0 ∨ len ≠ 32 ∨ !f.en ∨ bitsAt d 32 32 ≠ f.key.toNat ∨ bitsAt d 21 11 ≠ 0 ∨ bitsAt d 121 7 ≠ 0 then none
  else
    let it : Item :=
      { kind := .launch, pc := BitVec.ofNat 64 (bitsAt d 64 57), a := ⟨BitVec.ofNat 64 (bitsAt d 128 64), 0⟩
        b := ⟨BitVec.ofNat 64 (bitsAt d 192 64), 0⟩, ten := f.ten }
    if flood then (if t = 0 then some (none, it) else none)
    else if isCompute t ∧ pkgOf t = pkg ∧ covers f.node (cindex t) then some (some t, it)
    else none

/-- Hold an event record of a function (R391). -/
def State.fnEvent (s : State) (pkg fn : Nat) (r : EvRec) : State :=
  s.modFn pkg fn fun f => { f with events := f.events ++ [{ r with gen := f.gen, cycle := s.cycleOf pkg }] }

/-- A launch that R389 would accept but for its target, a core number that names no core (R14). -/
def State.launchNowhere (s : State) (f : VFn) (off len : Nat) (data : BitVec 256) : Option CoreNo :=
  let d := data.toNat
  let t : CoreNo := BitVec.ofNat 20 (bitsAt d 0 20)
  if off % 32 = 0 ∧ len = 32 ∧ f.en ∧ bitsAt d 32 32 = f.key.toNat ∧ bitsAt d 20 12 = 0 ∧ bitsAt d 121 7 = 0 ∧ !assigned s t
  then some t else none

/-- A write to a launch window is taken (R389): it becomes an accepted launch, or is refused. A launch for an unassigned
core is refused and logged (R14, R25). -/
def State.takeWrite (s : State) (pkg fn : Nat) (w : LaunchWrite) : State :=
  let f := s.fnAt pkg fn
  match f.launch pkg w.off w.len w.data with
  | some (t, it) => s.modFn pkg fn fun f => { f with launches := f.launches ++ [{ target := t, item := it }] }
  | none =>
    let s := s.modFn pkg fn fun f => { f with lrefuse := f.lrefuse + 1 }
    let t : CoreNo := BitVec.ofNat 20 (bitsAt w.data.toNat 0 20)
    let s := match s.launchNowhere f w.off w.len w.data with
      | some t =>
        let low := ((coresOf pkg f.node).head?).getD 0
        (s.logError { pkg, node := f.node, ten := f.ten, set := (s.fnSet low f).getD 0 } 0x01 (t.setWidth 64) 0 0 0).2
      | none => s
    if f.en then s.fnEvent pkg fn { kind := 9, core := t, addr := t.setWidth 64 } else s

/-- The places that a function's accepted launches take in the I/O die (R389): what a flooded message has left takes one. -/
def VFn.places (f : VFn) : Nat :=
  (f.launches.filter fun l => l.flood == 0).length + (((f.launches.map (·.flood)).filter (· != 0)).eraseDups).length
/-- Writes that waited for credit are taken in order while places are free (R389). -/
def State.admitWrites (s : State) (pkg fn : Nat) : List LaunchWrite → State
  | [] => s.modFn pkg fn fun f => { f with writes := [] }
  | w :: rest =>
    if 64 ≤ (s.fnAt pkg fn).places then s.modFn pkg fn fun f => { f with writes := w :: rest }
    else (s.takeWrite pkg fn w).admitWrites pkg fn rest
/-- Accepted launches have gone: writes that waited are taken. -/
def State.freed (s : State) (pkg fn : Nat) : State :=
  if (s.fnAt pkg fn).writes = [] then s else s.admitWrites pkg fn (s.fnAt pkg fn).writes

/-- LAUNCH_MESSAGE: with all 64 places full the write waits, and so does every later one. -/
def execLaunchMessage (pkg : Fin 64) (fn : BitVec 8) (off : BitVec 12) (len : BitVec 6) (data : BitVec 256) (s : State) :
    Host.Outcome State Fault Refusal :=
  .next (
    let f := s.fnAt pkg.val fn.toNat
    let w : LaunchWrite := ⟨off.toNat, len.toNat, data⟩
    if f.writes ≠ [] ∨ 64 ≤ f.places then s.modFn pkg.val fn.toNat fun f => { f with writes := f.writes ++ [w] }
    else s.takeWrite pkg.val fn.toNat w)

/-- Try to deliver the launch at a place of a function's queue to a core. -/
def State.tryLaunch (s : State) (pkg fn i : Nat) (core : CoreNo) (l : Launch) : State :=
  let again : Launch := { l with tries := l.tries + 1, retryAt := s.cycle + backoffOf (l.tries + 1) }
  let refuse := s.modFn pkg fn fun f => { f with launches := listSet f.launches i again }
  match s.fnSet core (s.fnAt pkg fn) with
  | none => refuse
  | some set => match s.landItem core { l.item with set := set } with
    | .ok s => (s.modFn pkg fn fun f => { f with launches := f.launches.eraseIdx i }).freed pkg fn
    | .move s => s
    | .full => refuse

/-- The place of the oldest launch of a function for a core, when no flooded launch stands before it (R389). -/
def VFn.launchFor (f : VFn) (core : CoreNo) : Option Nat :=
  match f.launches.findIdx? (fun l => l.target == some core || l.target == none) with
  | some i => match f.launches[i]? with
    | some l => if l.target.isSome then some i else none
    | none => none
  | none => none

/-- LAUNCH_ITEM_ARRIVAL (R104): a function's oldest launch for a core reaches it. -/
def execLaunchItemArrival (core : CoreNo) (fn : BitVec 8) (s : State) : Host.Outcome State Fault Refusal :=
  .next (
    let p := pkgOf core
    match (s.fnAt p fn.toNat).launchFor core with
    | none => s
    | some i => match (s.fnAt p fn.toNat).launches[i]? with
      | some l => if l.retryAt = 0 then s.tryLaunch p fn.toNat i core l else s
      | none => s)

/-- LAUNCH_RETRY (R389): a launch that its target refused is tried again after its backoff. -/
def execLaunchRetry (pkg : Fin 64) (fn : BitVec 8) (s : State) : Host.Outcome State Fault Refusal :=
  .next (
    let f := s.fnAt pkg.val fn.toNat
    match f.launches.findIdx? (fun l => l.retryAt != 0 && decide (l.retryAt ≤ s.cycle)) with
    | none => s
    | some i => match f.launches[i]? with
      | some l => match l.target with
        | some core => s.tryLaunch pkg.val fn.toNat i core l
        | none => s
      | none => s)

/-- FLOODED_LAUNCH (R105): the wake message places one launch item in every compute core of the partition. A core that has
an earlier launch to come, or whose deque refuses the item, is tried as for a launch to that core. -/
def execFloodedLaunch (pkg : Fin 64) (fn : BitVec 8) (s : State) : Host.Outcome State Fault Refusal :=
  .next (
    let f := s.fnAt pkg.val fn.toNat
    match f.launches.span (fun l => l.target.isSome) with
    | (before, l :: rest) =>
      let no := (f.launches.map (·.flood)).foldl max 0 + 1
      let part := fun (core : CoreNo) (n at_ : Nat) => ({ target := some core, item := l.item, tries := n, retryAt := at_, flood := no } : Launch)
      let put := fun (acc : State × List Launch) (core : CoreNo) =>
        let (s, left) := acc
        if before.any fun x => x.target == some core then (s, left ++ [part core 0 0])
        else match s.fnSet core f with
          | none => (s, left)
          | some set => match s.landItem core { l.item with set := set } with
            | .ok s => (s, left)
            | .move s => (s, left ++ [part core 0 0])
            | .full => (s, left ++ [part core 1 (s.cycle + backoffOf 1)])
      let (s, left) := (coresOf pkg.val f.node).foldl put (s, [])
      (s.modFn pkg.val fn.toNat fun f => { f with launches := before ++ left ++ rest }).freed pkg.val fn.toNat
    | _ => s)

-- CXL.mem (R386)

/-- CXL_MEM_WRITE: a write of up to 64 bytes to device memory, performed at its home as a release at .sy from far channel
core 0. One that names no memory is answered with an error alone, and one that finds the home's release window full waits:
an entry leaves, and the write comes again. -/
def execCxlMemWrite (pa : BitVec 57) (len : Fin 65) (data : BitVec 512) (s : State) : Host.Outcome State Fault Refusal :=
  .next (
    let a := pa.toNat
    if len.val = 0 ∨ !s.paOk a ∨ !s.paOk (a + len.val - 1) ∨ 2 ≤ a / 2 ^ 48 % 8 then s
    else
      let src := mkCore (a / 2 ^ 51) 8 0 0
      let r : Req :=
        { act := .store (2 ^ len.val - 1), src, who := .nobody, part := {}, va := BitVec.ofNat 64 a, ha := a, n := len.val
          data := leBytes len.val data.toNat, labs := [0], rel := some .sy, post := true }
      match s.arrive2 (homeOf a) r false with
      | .taken s | .waits s | .performed s => s)

-- Events (R391, R393)

/-- The core whose ASSIST and set decide about a record: the event's own, or the partition's lowest (R357). -/
def VFn.lowest (f : VFn) (pkg : Nat) : CoreNo := ((coresOf pkg f.node).head?).getD 0
/-- The function's set is descheduled at a core by a synchronised stop (R393). -/
def State.off (s : State) (f : VFn) (core : CoreNo) : Bool :=
  let c := s.coreAt core
  match s.fnSet core f with
  | some n => c.off.getLsbD n || (n == c.cur && c.stopped)
  | none => false
/-- A host address as a physical address of the package's host window (R169, R386; log 24). -/
def hostPa (pkg : Nat) (a : Nat) : Nat := pkg * 2 ^ 51 + 2 * 2 ^ 48 + a % 2 ^ 48

/-- Write a record into the host's queue, advance EVTAIL and raise MSI-X; its DETAIL is open where the model gives none
(log 50). -/
def State.writeRecord (s : State) (pkg fn : Nat) (e : EvRec) : State :=
  let (t, s) := s.draw
  let f := s.fnAt pkg fn
  let x := e.kind % 256 + e.code % 256 * 2 ^ 8 + e.gen.toNat * 2 ^ 16 + e.core.toNat * 2 ^ 32 + e.ctx % 16 * 2 ^ 52 +
    e.addr.toNat * 2 ^ 64 + e.cycle % 2 ^ 64 * 2 ^ 128 + (e.detail.getD (Config.openAddr t)).toNat * 2 ^ 192
  (s.putNat (hostPa pkg (f.evbase.toNat + 32 * f.evtail)) 32 x).modFn pkg fn fun f =>
    { f with evtail := (f.evtail + 1) % 128, msix := f.msix + 1 }

/-- What R393 says of an event with VFEV 0: its generation is past, or it is held for a function that is paused or a set
that is descheduled. -/
def EvRec.past (e : EvRec) (f : VFn) : Bool := e.gen != f.gen
def State.heldBack (s : State) (pkg : Nat) (f : VFn) (e : EvRec) : Bool :=
  let core := if isCompute e.core ∧ covers f.node (cindex e.core) ∧ pkgOf e.core = pkg then e.core else f.lowest pkg
  f.mig || (e.kind != 10 && !(s.coreAt core).halted && s.off f core)

/-- EVENT_RECORD_WRITE: a function's oldest event that nothing holds back is written, or dropped when its generation is
past. -/
def execEventRecordWrite (pkg : Fin 64) (fn : BitVec 8) (s : State) : Host.Outcome State Fault Refusal :=
  .next (
    let p := pkg.val
    let v := fn.toNat
    let f := s.fnAt p v
    let vfev := (s.coreAt (f.lowest p)).assist.getLsbD 6
    match takeFirst (fun e => vfev || e.past f || !s.heldBack p f e) f.events with
    | none => s
    | some (e, rest) =>
      let pop := s.modFn p v fun f => { f with events := rest }
      if !vfev && e.past f then pop.modFn p v fun f => { f with evdrop := f.evdrop + 1 }
      else if 127 ≤ (f.evtail + 128 - f.evhead % 128) % 128 then s
      else pop.writeRecord p v e)

-- Answers (R392)

/-- An answer is ignored and counted. -/
def State.badReply (s : State) (pkg fn : Nat) : State := s.modFn pkg fn fun f => { f with lrefuse := f.lrefuse + 1 }

/-- An answer's core and context, if it names a core of the function's partition and no bit is set that must be zero. -/
def State.replyTo (s : State) (pkg fn : Nat) (v : Word) (action : Nat) : Option (CoreNo × Nat) :=
  let f := s.fnAt pkg fn
  let core : CoreNo := v.setWidth 20
  if v.toNat / 2 ^ 26 ≠ 0 ∨ bitsAt v.toNat 24 2 ≠ action ∨ !isCompute core ∨ pkgOf core ≠ pkg ∨ !covers f.node (cindex core)
  then none
  else match s.fnSet core f with
    | some n =>
      let key := 16 * n + bitsAt v.toNat 20 4
      if (s.coreAt core).tenOf key = f.ten then some (core, key) else none
    | none => none

/-- What a context, its sequencer, its engines or its journal have to answer. -/
inductive Owed where
  | fault (key : Nat)
  | assisted (key kind detail : Nat) (eaddr : Word)
  | engine (e : Eng) (r : EngRun)
  | store (entry : Nat)

/-- The oldest thing that waits for the host's answer on behalf of a context: the host has been told of it. -/
def State.owed (s : State) (core : CoreNo) (key : Nat) : Option Owed :=
  let run := fun k => match (s.ctxAt core k).run with
    | .wait (.fault _) => if (s.ctxAt core k).told then some (Owed.fault k) else none
    | .wait (.host kind d a) => some (Owed.assisted k kind d a)
    | _ => none
  match [key, 64 + key].findSome? run with
  | some o => some o
  | none => match (s.heldEng core key).filter fun p => p.2.told with
    | some (e, r) => some (.engine e r)
    | none => ((s.coreAt core).journal.toList.findIdx? fun j => j.st == .refused && j.told && j.key == key).map .store

/-- EVREPLY with action 0 (R392): the latched instruction is replayed, the instruction executed again, the engine goes
on, or the store is sent again. -/
def execEvreplyRetry (pkg : Fin 64) (fn : BitVec 8) (v : Word) (s : State) : Host.Outcome State Fault Refusal :=
  .next (match s.replyTo pkg.val fn.toNat v 0 with
    | none => s.badReply pkg.val fn.toNat
    | some (core, key) => match s.owed core key with
      | none => s.badReply pkg.val fn.toNat
      | some (.fault k) => s.modCtx core k fun c => { c with run := .run, replay := true }
      | some (.assisted k ..) => s.modCtx core k fun c => { c with run := .run, out := c.out.again, sent := none, fetched := [] }
      | some (.engine e r) => s.answerEng core key e r true
      | some (.store i) => match (s.coreAt core).journal[i]? with
        | some j => match j.req with
          | some r => (s.modCore core fun c => { c with journal := c.journal.set! i { j with st := .outstanding, code := 0, told := false } }).dispatch
              j.home { r with who := .journal i }
          | none => s
        | none => s)

/-- EVREPLY with action 2 (R392, R146, R181, R183): the context takes the trap that it would have taken without the
host. -/
def execEvreplyRefuse (pkg : Fin 64) (fn : BitVec 8) (v : Word) (s : State) : Host.Outcome State Fault Refusal :=
  .next (match s.replyTo pkg.val fn.toNat v 2 with
    | none => s.badReply pkg.val fn.toNat
    | some (core, key) => match s.owed core key with
      | none => s.badReply pkg.val fn.toNat
      | some (.engine e r) => s.answerEng core key e r false
      | some (.fault k) =>
        let va := match (s.ctxAt core k).run with | .wait (.fault va) => va | _ => 0
        (s.trapCtx core k 0x07 0x0F va false false).modCtx core k fun c => { c with latch := none }
      | some (.assisted k kind d a) =>
        if kind = 2 then s.trapCtx core k 0x12 d a false false else s.trapLatched core k 0x10 d a
      | some (.store i) => match (s.coreAt core).journal[i]? with
        | some j => (s.modCore core fun c => { c with journal := c.journal.set! i { j with told := false } }).asyncTo core j.key
            { trap := 0x0C, detail := i % 32 + j.code % 256 * 256, eaddr := j.addr }
        | none => s)

/-- EVREPLY to a kind-6 event (R374, R392): the flip is confirmed. -/
def execEvreplyConfirmFlip (pkg : Fin 64) (fn : BitVec 8) (v : Word) (s : State) : Host.Outcome State Fault Refusal :=
  .next (match s.replyTo pkg.val fn.toNat v 0, (s.pkgAt pkg.val).swap with
    | some (core, key), some w =>
      if w.recorded ∧ w.confirm ∧ w.core = core ∧ realKey w.key % 16 = key % 16 then
        s.modPkg pkg.val fun p => { p with swap := some { w with confirm := false } }
      else s.badReply pkg.val fn.toNat
    | _, _ => s.badReply pkg.val fn.toNat)

-- Functions (R387, R394, R395, R397)

/-- FUNCTION_ENABLE: EN is set, or takes effect after the scrub in progress. A module in recovery has no function. -/
def execFunctionEnable (pkg : Fin 64) (fn : BitVec 8) (s : State) : Host.Outcome State Fault Refusal :=
  .next (
    if (s.pkgAt pkg.val).recovery then s
    else s.modFn pkg.val fn.toNat fun f =>
      if f.vfstat = 0 then { f with en := true, vfstat := 1 }
      else if f.en then f else { f with enLater := true })

/-- The steps of R395 begin: the function no longer runs, and a stop with DISCARD is asked for at the earliest T′. The
stop of a paused function becomes that one. -/
def State.endFn (s : State) (pkg fn : Nat) : State :=
  let f := s.fnAt pkg fn
  let s := s.modFn pkg fn fun f => { f with en := false, enLater := false, vfstat := 2, ending := some (f.node, f.ten) }
  let paused := (s.pkgAt pkg).stops.find? fun x => x.fn == some fn && !x.discard
  let (t, u) := s.askStop pkg { node := f.node, next := 0, discard := true, at_ := 0, fn := some fn } 0
  match paused with
  | none => u
  | some p => s.modPkg pkg fun k =>
    { k with stops := k.stops.map fun x => if x = p then { x with discard := true, at_ := t } else x }

/-- FUNCTION_DISABLE (R395): EN is cleared. -/
def execFunctionDisable (pkg : Fin 64) (fn : BitVec 8) (s : State) : Host.Outcome State Fault Refusal :=
  .next (
    let f := s.fnAt pkg.val fn.toNat
    if f.en then s.endFn pkg.val fn.toNat else s.modFn pkg.val fn.toNat fun f => { f with enLater := false })
/-- FUNCTION_RESET (R395): RST is written; a reset in progress is not begun again. -/
def execFunctionReset (pkg : Fin 64) (fn : BitVec 8) (s : State) : Host.Outcome State Fault Refusal :=
  .next (
    let f := s.fnAt pkg.val fn.toNat
    if (f.vfstat = 2 ∧ !f.en) ∨ f.vfstat = 3 then s else s.endFn pkg.val fn.toNat)

/-- Memory from one address to another reads as nothing written there, which is zero (log 1). -/
def Memory.clear (m : List Host.Cell) (lo hi : Nat) : List Host.Cell := m.filter fun c => !(decide (lo ≤ c.1) && decide (c.1 < hi))

/-- Zero with the empty label over a range of a local store (R395). -/
def State.scrubRange (s : State) (core : CoreNo) (lo hi : Nat) : State :=
  let a := lsAddr core lo
  let b := a + (hi - lo)
  ({ s with store := { s.store with
      mem := Memory.clear s.store.mem a b
      tags := s.store.tags.filter fun t => !(decide (a ≤ 4 * t.1) && decide (4 * t.1 < b)) } } : State).breakBars a (hi - lo)

/-- FUNCTION_SCRUB_COMPLETE (R395): the local-store units of the partition in every core of the node, and its cellar banks,
hold zero; VFSTAT reads 0, the kind-10 event is held, and an EN set since takes effect. -/
def execFunctionScrubComplete (pkg : Fin 64) (fn : BitVec 8) (s : State) : Host.Outcome State Fault Refusal :=
  .next (
    let p := pkg.val
    let f := s.fnAt p fn.toNat
    if f.vfstat ≠ 3 then s
    else
      let (node, ten) := f.ending.getD (f.node, f.ten)
      let sets := fun (core : CoreNo) => [0, 1, 2, 3].filter fun n => match ((s.coreAt core).nodes[n]?).getD none with
        | some (x, _) => x == node
        | none => false
      let s := (coresOf p node).foldl (fun s core => (sets core).foldl (fun s n =>
        let q := s.partAt { pkg := p, node, ten, set := n }
        (s.scrubRange core (q.lslo * 4096) ((q.lshi + 1) * 4096)).scrubRange core (0xE0000 + 0x8000 * n) (0xE8000 + 0x8000 * n)) s) s
      let s := s.fnEvent p fn.toNat { kind := 10 }
      s.modFn p fn.toNat fun f =>
        if f.enLater then { f with vfstat := 1, en := true, enLater := false, ending := none }
        else { f with vfstat := 0, ending := none })

/-- MIGRATION_PAUSE (R394): MIG is set, and a running function's partition is stopped without DISCARD. -/
def execMigrationPause (pkg : Fin 64) (fn : BitVec 8) (s : State) : Host.Outcome State Fault Refusal :=
  .next (
    let f := s.fnAt pkg.val fn.toNat
    let s := s.modFn pkg.val fn.toNat fun f => { f with mig := true }
    if f.vfstat ≠ 1 ∨ f.mig then s
    else
      let s := s.modFn pkg.val fn.toNat fun f => { f with vfstat := 2 }
      (s.askStop pkg.val { node := f.node, next := 0, discard := false, at_ := 0, fn := some fn.toNat } 0).2)

/-- A paused function's cores run again. -/
def State.unpause (s : State) (pkg fn : Nat) : State :=
  match (s.pkgAt pkg).stops.findIdx? (fun x => x.fn == some fn && !x.discard) with
  | none => s
  | some i => match (s.pkgAt pkg).stops[i]? with
    | none => s
    | some x =>
      let s := s.modPkg pkg fun p => { p with stops := p.stops.eraseIdx i }
      let s := if x.begun then (s.stopCores pkg x).foldl (fun s core => (s.switchCore core (s.coreAt core).cur).runCore core) s else s
      s.modFn pkg fn fun f => { f with vfstat := if f.en then 1 else f.vfstat }

/-- MIGRATION_RESUME (R394): MIG is cleared; a function that is paused resumes, and one whose stop is not complete does so
when it is. -/
def execMigrationResume (pkg : Fin 64) (fn : BitVec 8) (s : State) : Host.Outcome State Fault Refusal :=
  .next (
    let s := s.modFn pkg.val fn.toNat fun f => { f with mig := false }
    if (s.fnAt pkg.val fn.toNat).vfstat = 4 then s.unpause pkg.val fn.toNat else s)

/-- HOST_REGISTER_WRITE (R387, R388): EVBASE, NODE, TEN and KEY of the function table, or EVHEAD. EN, RST and MIG have
events of their own, and every other register ignores the write. -/
def execHostRegisterWrite (pkg : Fin 64) (fn : BitVec 8) (table : Bool) (off : BitVec 16) (v : Word) (s : State) :
    Host.Outcome State Fault Refusal :=
  .next (s.modFn pkg.val fn.toNat fun f =>
    match table, off.toNat with
    | true, 0 => if f.en then f
      else { f with key := v.extractLsb' 32 32, node := bitsAt v.toNat 6 10, ten := v.getLsbD 5 }
    | true, 8 => { f with evbase := v }
    | false, 0x1000 => { f with evhead := v.toNat % 128 }
    | _, _ => f)

-- The switch of a stop (R371)

/-- The outstanding writes of a set of a core to the host complete, or are answered with their refusals (R395). -/
def State.finishWrites (s : State) (core : CoreNo) (set : Nat) : State :=
  let k := s.partKey core (16 * set)
  let mine := fun (r : Req) => r.src == core && r.part.pkg == k.pkg && r.part.node == k.node && r.part.set == set &&
    r.act.writes && !r.localStore && r.ha / 2 ^ 48 % 8 == 2
  let sent := s.msgs.filterMap fun m => match m.body with | .req r => if mine r then some r else none | _ => none
  let parked := s.cores.flatMap fun p => p.2.window.flatMap fun e => e.waiters.filter mine
  (parked ++ sent).foldl (fun s r => match s.perform (homeOf r.ha) r with
    | .ok (resp, s) => s.deliver (homeOf r.ha) core r.who resp r.va
    | .error resp => s.deliver (homeOf r.ha) core r.who resp r.va) s

/-- A disabled function's sets go from a core (R395): its current set gives way to the lowest RESIDENT one that is left. -/
def State.dropFnSets (s : State) (node : Nat) (core : CoreNo) : State :=
  let sets := [0, 1, 2, 3].filter fun n => match ((s.coreAt core).nodes[n]?).getD none with
    | some (x, _) => x == node
    | none => false
  let s := sets.foldl (fun s n => (s.finishWrites core n).discardSet core n) s
  let c := s.coreAt core
  if (c.banks[c.cur]?.getD .empty) == BankSt.resident then s
  else match [0, 1, 2, 3].find? (fun n => (c.banks[n]?.getD .empty) == BankSt.resident) with
    | some n => s.switchCore core n
    | none => s

/-- A stop that is complete and not held for migration, with its place: its switch takes place 2,048 cycles after T′, or a
whole number of 64 cycles later (R371). -/
def State.stopDue (s : State) (pkg : Nat) : Option (Nat × Stop) :=
  let l := (s.pkgAt pkg).stops
  (List.range l.length).findSome? fun i => match l[i]? with
    | some x =>
      let paused := match x.fn with | some v => !x.discard && (s.fnAt pkg v).vfstat == 4 | none => false
      let now := s.cycleOf pkg
      if x.begun && !paused && decide (x.at_ + 2048 ≤ now) && (now - x.at_) % 64 == 0 && s.stopDone pkg x then some (i, x)
      else none
    | none => none

/-- STOP_SWITCH (R371, R394, R395): the switch of a complete stop. A function being disabled loses its sets and goes on to
its scrub under the next generation; one being migrated stays stopped, unless MIG has been cleared since. -/
def execStopSwitch (pkg : Fin 64) (s : State) : Host.Outcome State Fault Refusal :=
  .next (
    let p := pkg.val
    match s.stopDue p with
    | none => s
    | some (i, x) => match x.fn with
      | none => s.endStop p i x
      | some v =>
        if x.discard then
          let cores := coresOf p x.node
          let stopped := s.stopCores p x
          let s := s.modPkg p fun k => { k with stops := k.stops.eraseIdx i }
          let s := cores.foldl (fun s core => s.dropFnSets x.node core) s
          let s := stopped.foldl State.runCore s
          s.modFn p v fun f => { f with gen := f.gen + 1, vfstat := 3 }
        else if (s.fnAt p v).mig then s.modFn p v fun f => { f with vfstat := 4 }
        else s.unpause p v)

/-- SCHEDULED_STOP_REQUEST (R370): the host sets a stop in the controller's own schedule; a bad one is not taken. -/
def execScheduledStopRequest (pkg : Fin 64) (node : BitVec 10) (next : Fin 4) (discard : Bool) (t : Word) (s : State) :
    Host.Outcome State Fault Refusal :=
  .next (
    if node = 0 ∨ !s.nextOk pkg.val node.toNat next.val then s
    else (s.askStop pkg.val { node := node.toNat, next := next.val, discard, at_ := 0 } t.toNat).2)

-- Reset, power and identity (R397, R398)

/-- The cores of a package (R12). -/
def allCores (pkg : Nat) : List CoreNo :=
  (List.range 2048).map (coreOfIndex pkg) ++
  ((List.range 128).flatMap fun r => [mkCore pkg (r / 16) (r % 16) 16, mkCore pkg (r / 16) (r % 16) 17]) ++
  (List.range 16).map fun n => mkCore pkg 8 0 n

/-- A home address that lies in a package's own memory or local stores, the host's memory apart. -/
def inPackage (pkg ha : Nat) : Bool :=
  if isLs ha then decide ((ha - lsBase) / 1048576 / 16384 = pkg)
  else decide (ha / 2 ^ 51 = pkg) && ha / 2 ^ 48 % 8 != 2

/-- MODULE_RESET (R397): the package is as after reset, its counter at 0; unless both signatures of the firmware verify it
stays in recovery. What its memories hold then is what unwritten bytes read as (log 1). -/
def execModuleReset (pkg : Fin 64) (ecdsa lms : Bool) (s : State) : Host.Outcome State Fault Refusal :=
  .next (
    let p := pkg.val
    let far := fun (c : CoreNo) => pkgOf c != p
    let ids := (s.msgs.filter fun m => !(far m.src && far m.dst)).map (·.id)
    { s with
      store := {
        mem := s.store.mem.filter fun c => !inPackage p c.1
        tags := s.store.tags.filter fun t => !inPackage p (4 * t.1)
        empties := s.store.empties.filter fun w => !inPackage p (4 * w)
        bars := s.store.bars.filter fun b => !inPackage p b.1
        bad := s.store.bad.filter fun w => !inPackage p (4 * w) }
      cores := s.cores.filter fun c => c.1 / 16384 != p
      parts := s.parts.filter fun k => k.1.pkg != p
      msgs := s.msgs.filter fun m => far m.src && far m.dst
      flits := s.flits.filter fun f => !ids.contains f.msg
      seqs := s.seqs.filter fun t => t.1 / 2 ^ 23 / 16384 != p && t.1 % 2 ^ 20 / 16384 != p
      gone := s.gone.filter fun t => t.1 / 2 ^ 23 / 16384 != p && t.1 % 2 ^ 20 / 16384 != p
      routers := s.routers.filter fun r => r.1 / 128 != p
      pkgs := assocSet s.pkgs p { base := s.cycle, recovery := !(ecdsa && lms) } })

/-- POWER_LIMIT_HALT (R398): every core halts until reset, and every enabled function gets a kind-8 event. -/
def execPowerLimitHalt (pkg : Fin 64) (s : State) : Host.Outcome State Fault Refusal :=
  .next (
    let p := pkg.val
    let s := (allCores p).foldl (fun s core => s.modCore core fun c => { c with halted := true }) s
    let s := s.modPkg p fun k => { k with powerHalt := true }
    ((s.pkgAt p).fns.filter fun f => f.2.en).foldl (fun s f => s.fnEvent p f.1 { kind := 8 }) s)

/-- SPDM_DOE_REQUEST (R397): the report's part number, and words whose measurements and signatures the spec does not give
(log 26). -/
def execSpdmDoeRequest (pkg : Fin 64) (req : BitVec 64) (s : State) : Host.Outcome State Fault Refusal :=
  .next (
    let (t, s) := s.draw
    -- "MLD-PX2048-A" in ASCII
    let part : List Word := [0x303258502D444C4D, 0x412D3834]
    s.modPkg pkg.val fun p => { p with spdm := part ++ (List.range 64).map fun i => Config.spdmWord (t + req.toNat) i })

end Sys2Proof.Machine
end

