-- ==== Sys2Proof/Machine/Dispatch.lean ====
section
/-!
DEFINITION. The meaning of each instruction: one arm per constructor of Instr, each one direct call.
-/
namespace Sys2Proof.Machine

def exec (i : Instr) (s : State) : Host.Outcome State Fault Refusal :=
  match i with
  | .nop => Sys2Proof.Machine.execNop s
  | .br x1 => Sys2Proof.Machine.execBr x1 s
  | .brCond x1 x2 x3 x4 => Sys2Proof.Machine.execBrCond x1 x2 x3 x4 s
  | .call x1 => Sys2Proof.Machine.execCall x1 s
  | .callr x1 => Sys2Proof.Machine.execCallr x1 s
  | .jr x1 => Sys2Proof.Machine.execJr x1 s
  | .loop x1 x2 => Sys2Proof.Machine.execLoop x1 x2 s
  | .spawnMark x1 x2 x3 x4 => Sys2Proof.Machine.execSpawnMark x1 x2 x3 x4 s
  | .spawnReg x1 x2 x3 x4 => Sys2Proof.Machine.execSpawnReg x1 x2 x3 x4 s
  | .jinit x1 x2 => Sys2Proof.Machine.execJinit x1 x2 s
  | .join x1 x2 => Sys2Proof.Machine.execJoin x1 x2 s
  | .done => Sys2Proof.Machine.execDone s
  | .start x1 => Sys2Proof.Machine.execStart x1 s
  | .startPool x1 => Sys2Proof.Machine.execStartPool x1 s
  | .reap x1 => Sys2Proof.Machine.execReap x1 s
  | .yield => Sys2Proof.Machine.execYield s
  | .add x1 x2 x3 x4 => Sys2Proof.Machine.execAdd x1 x2 x3 x4 s
  | .sub x1 x2 x3 x4 => Sys2Proof.Machine.execSub x1 x2 x3 x4 s
  | .and x1 x2 x3 x4 => Sys2Proof.Machine.execAnd x1 x2 x3 x4 s
  | .or x1 x2 x3 x4 => Sys2Proof.Machine.execOr x1 x2 x3 x4 s
  | .xor x1 x2 x3 x4 => Sys2Proof.Machine.execXor x1 x2 x3 x4 s
  | .addi x1 x2 x3 x4 => Sys2Proof.Machine.execAddi x1 x2 x3 x4 s
  | .subi x1 x2 x3 x4 => Sys2Proof.Machine.execSubi x1 x2 x3 x4 s
  | .andi x1 x2 x3 x4 => Sys2Proof.Machine.execAndi x1 x2 x3 x4 s
  | .ori x1 x2 x3 x4 => Sys2Proof.Machine.execOri x1 x2 x3 x4 s
  | .xori x1 x2 x3 x4 => Sys2Proof.Machine.execXori x1 x2 x3 x4 s
  | .andn x1 x2 x3 x4 => Sys2Proof.Machine.execAndn x1 x2 x3 x4 s
  | .shl x1 x2 x3 x4 => Sys2Proof.Machine.execShl x1 x2 x3 x4 s
  | .shr x1 x2 x3 x4 => Sys2Proof.Machine.execShr x1 x2 x3 x4 s
  | .sra x1 x2 x3 x4 => Sys2Proof.Machine.execSra x1 x2 x3 x4 s
  | .rol x1 x2 x3 x4 => Sys2Proof.Machine.execRol x1 x2 x3 x4 s
  | .ror x1 x2 x3 x4 => Sys2Proof.Machine.execRor x1 x2 x3 x4 s
  | .shli x1 x2 x3 x4 => Sys2Proof.Machine.execShli x1 x2 x3 x4 s
  | .shri x1 x2 x3 x4 => Sys2Proof.Machine.execShri x1 x2 x3 x4 s
  | .srai x1 x2 x3 x4 => Sys2Proof.Machine.execSrai x1 x2 x3 x4 s
  | .roli x1 x2 x3 x4 => Sys2Proof.Machine.execRoli x1 x2 x3 x4 s
  | .rori x1 x2 x3 x4 => Sys2Proof.Machine.execRori x1 x2 x3 x4 s
  | .funl x1 x2 x3 x4 x5 => Sys2Proof.Machine.execFunl x1 x2 x3 x4 x5 s
  | .funr x1 x2 x3 x4 x5 => Sys2Proof.Machine.execFunr x1 x2 x3 x4 x5 s
  | .mul x1 x2 x3 x4 => Sys2Proof.Machine.execMul x1 x2 x3 x4 s
  | .mulh x1 x2 x3 x4 => Sys2Proof.Machine.execMulh x1 x2 x3 x4 s
  | .mulhu x1 x2 x3 x4 => Sys2Proof.Machine.execMulhu x1 x2 x3 x4 s
  | .div x1 x2 x3 x4 => Sys2Proof.Machine.execDiv x1 x2 x3 x4 s
  | .divu x1 x2 x3 x4 => Sys2Proof.Machine.execDivu x1 x2 x3 x4 s
  | .rem x1 x2 x3 x4 => Sys2Proof.Machine.execRem x1 x2 x3 x4 s
  | .remu x1 x2 x3 x4 => Sys2Proof.Machine.execRemu x1 x2 x3 x4 s
  | .max x1 x2 x3 x4 => Sys2Proof.Machine.execMax x1 x2 x3 x4 s
  | .min x1 x2 x3 x4 => Sys2Proof.Machine.execMin x1 x2 x3 x4 s
  | .maxu x1 x2 x3 x4 => Sys2Proof.Machine.execMaxu x1 x2 x3 x4 s
  | .minu x1 x2 x3 x4 => Sys2Proof.Machine.execMinu x1 x2 x3 x4 s
  | .clz x1 x2 x3 => Sys2Proof.Machine.execClz x1 x2 x3 s
  | .ctz x1 x2 x3 => Sys2Proof.Machine.execCtz x1 x2 x3 s
  | .popc x1 x2 x3 => Sys2Proof.Machine.execPopc x1 x2 x3 s
  | .brev x1 x2 x3 => Sys2Proof.Machine.execBrev x1 x2 x3 s
  | .bswap x1 x2 x3 => Sys2Proof.Machine.execBswap x1 x2 x3 s
  | .ext x1 x2 x3 x4 x5 => Sys2Proof.Machine.execExt x1 x2 x3 x4 x5 s
  | .extz x1 x2 x3 x4 x5 => Sys2Proof.Machine.execExtz x1 x2 x3 x4 x5 s
  | .ins x1 x2 x3 x4 x5 => Sys2Proof.Machine.execIns x1 x2 x3 x4 x5 s
  | .cmp x1 x2 x3 x4 x5 => Sys2Proof.Machine.execCmp x1 x2 x3 x4 x5 s
  | .sel x1 x2 x3 x4 x5 => Sys2Proof.Machine.execSel x1 x2 x3 x4 x5 s
  | .li x1 x2 => Sys2Proof.Machine.execLi x1 x2 s
  | .lih x1 x2 => Sys2Proof.Machine.execLih x1 x2 s
  | .lea x1 x2 => Sys2Proof.Machine.execLea x1 x2 s
  | .assume x1 x2 => Sys2Proof.Machine.execAssume x1 x2 s
  | .lunion x1 x2 x3 => Sys2Proof.Machine.execLunion x1 x2 x3 s
  | .nogood x1 x2 => Sys2Proof.Machine.execNogood x1 x2 s
  | .lget x1 x2 => Sys2Proof.Machine.execLget x1 x2 s
  | .lset x1 x2 x3 => Sys2Proof.Machine.execLset x1 x2 x3 s
  | .lclr x1 => Sys2Proof.Machine.execLclr x1 s
  | .ltest x1 x2 => Sys2Proof.Machine.execLtest x1 x2 s
  | .lcount x1 x2 => Sys2Proof.Machine.execLcount x1 x2 s
  | .lenvget x1 x2 x3 => Sys2Proof.Machine.execLenvget x1 x2 x3 s
  | .lwin x1 => Sys2Proof.Machine.execLwin x1 s
  | .lflush => Sys2Proof.Machine.execLflush s
  | .ld x1 x2 x3 x4 x5 => Sys2Proof.Machine.execLd x1 x2 x3 x4 x5 s
  | .ldz x1 x2 x3 x4 x5 => Sys2Proof.Machine.execLdz x1 x2 x3 x4 x5 s
  | .st x1 x2 x3 x4 => Sys2Proof.Machine.execSt x1 x2 x3 x4 s
  | .lds x1 x2 x3 => Sys2Proof.Machine.execLds x1 x2 x3 s
  | .sts x1 x2 x3 => Sys2Proof.Machine.execSts x1 x2 x3 s
  | .ldf x1 x2 x3 => Sys2Proof.Machine.execLdf x1 x2 x3 s
  | .stf x1 x2 x3 => Sys2Proof.Machine.execStf x1 x2 x3 s
  | .feclr x1 => Sys2Proof.Machine.execFeclr x1 s
  | .fld x1 x2 x3 x4 => Sys2Proof.Machine.execFld x1 x2 x3 x4 s
  | .fst x1 x2 x3 x4 => Sys2Proof.Machine.execFst x1 x2 x3 x4 s
  | .fence x1 => Sys2Proof.Machine.execFence x1 s
  | .fenceX x1 x2 => Sys2Proof.Machine.execFenceX x1 x2 s
  | .aadd x1 x2 x3 x4 x5 x6 => Sys2Proof.Machine.execAadd x1 x2 x3 x4 x5 x6 s
  | .aand x1 x2 x3 x4 x5 x6 => Sys2Proof.Machine.execAand x1 x2 x3 x4 x5 x6 s
  | .aor x1 x2 x3 x4 x5 x6 => Sys2Proof.Machine.execAor x1 x2 x3 x4 x5 x6 s
  | .axor x1 x2 x3 x4 x5 x6 => Sys2Proof.Machine.execAxor x1 x2 x3 x4 x5 x6 s
  | .amin x1 x2 x3 x4 x5 x6 => Sys2Proof.Machine.execAmin x1 x2 x3 x4 x5 x6 s
  | .amax x1 x2 x3 x4 x5 x6 => Sys2Proof.Machine.execAmax x1 x2 x3 x4 x5 x6 s
  | .aminu x1 x2 x3 x4 x5 x6 => Sys2Proof.Machine.execAminu x1 x2 x3 x4 x5 x6 s
  | .amaxu x1 x2 x3 x4 x5 x6 => Sys2Proof.Machine.execAmaxu x1 x2 x3 x4 x5 x6 s
  | .aswap x1 x2 x3 x4 x5 x6 => Sys2Proof.Machine.execAswap x1 x2 x3 x4 x5 x6 s
  | .aaddPost x1 x2 x3 x4 => Sys2Proof.Machine.execAaddPost x1 x2 x3 x4 s
  | .aandPost x1 x2 x3 x4 => Sys2Proof.Machine.execAandPost x1 x2 x3 x4 s
  | .aorPost x1 x2 x3 x4 => Sys2Proof.Machine.execAorPost x1 x2 x3 x4 s
  | .axorPost x1 x2 x3 x4 => Sys2Proof.Machine.execAxorPost x1 x2 x3 x4 s
  | .aminPost x1 x2 x3 x4 => Sys2Proof.Machine.execAminPost x1 x2 x3 x4 s
  | .amaxPost x1 x2 x3 x4 => Sys2Proof.Machine.execAmaxPost x1 x2 x3 x4 s
  | .aminuPost x1 x2 x3 x4 => Sys2Proof.Machine.execAminuPost x1 x2 x3 x4 s
  | .amaxuPost x1 x2 x3 x4 => Sys2Proof.Machine.execAmaxuPost x1 x2 x3 x4 s
  | .aswapPost x1 x2 x3 x4 => Sys2Proof.Machine.execAswapPost x1 x2 x3 x4 s
  | .acas x1 x2 x3 x4 x5 x6 x7 => Sys2Proof.Machine.execAcas x1 x2 x3 x4 x5 x6 x7 s
  | .afadd x1 x2 x3 x4 x5 x6 => Sys2Proof.Machine.execAfadd x1 x2 x3 x4 x5 x6 s
  | .afaddPost x1 x2 x3 x4 => Sys2Proof.Machine.execAfaddPost x1 x2 x3 x4 s
  | .migrate x1 x2 => Sys2Proof.Machine.execMigrate x1 x2 s
  | .mret => Sys2Proof.Machine.execMret s
  | .gldInt x1 x2 x3 x4 => Sys2Proof.Machine.execGldInt x1 x2 x3 x4 s
  | .gldFloat x1 x2 x3 x4 => Sys2Proof.Machine.execGldFloat x1 x2 x3 x4 s
  | .barinit x1 x2 x3 => Sys2Proof.Machine.execBarinit x1 x2 x3 s
  | .barinitAbort x1 x2 => Sys2Proof.Machine.execBarinitAbort x1 x2 s
  | .bararr x1 x2 => Sys2Proof.Machine.execBararr x1 x2 s
  | .barwait x1 x2 x3 => Sys2Proof.Machine.execBarwait x1 x2 x3 s
  | .bartry x1 x2 x3 x4 => Sys2Proof.Machine.execBartry x1 x2 x3 x4 s
  | .fadd x1 x2 x3 x4 x5 => Sys2Proof.Machine.execFadd x1 x2 x3 x4 x5 s
  | .fsub x1 x2 x3 x4 x5 => Sys2Proof.Machine.execFsub x1 x2 x3 x4 x5 s
  | .fmul x1 x2 x3 x4 x5 => Sys2Proof.Machine.execFmul x1 x2 x3 x4 x5 s
  | .fma x1 x2 x3 x4 x5 x6 => Sys2Proof.Machine.execFma x1 x2 x3 x4 x5 x6 s
  | .fmin x1 x2 x3 x4 => Sys2Proof.Machine.execFmin x1 x2 x3 x4 s
  | .fmax x1 x2 x3 x4 => Sys2Proof.Machine.execFmax x1 x2 x3 x4 s
  | .fabs x1 x2 x3 => Sys2Proof.Machine.execFabs x1 x2 x3 s
  | .fneg x1 x2 x3 => Sys2Proof.Machine.execFneg x1 x2 x3 s
  | .fcmp x1 x2 x3 x4 x5 => Sys2Proof.Machine.execFcmp x1 x2 x3 x4 x5 s
  | .fcvtFf x1 x2 x3 x4 x5 x6 => Sys2Proof.Machine.execFcvtFf x1 x2 x3 x4 x5 x6 s
  | .fcvtGf x1 x2 x3 x4 x5 x6 => Sys2Proof.Machine.execFcvtGf x1 x2 x3 x4 x5 x6 s
  | .fcvtFg x1 x2 x3 x4 x5 x6 => Sys2Proof.Machine.execFcvtFg x1 x2 x3 x4 x5 x6 s
  | .fmovFg x1 x2 => Sys2Proof.Machine.execFmovFg x1 x2 s
  | .fmovGf x1 x2 => Sys2Proof.Machine.execFmovGf x1 x2 s
  | .fmovFf x1 x2 => Sys2Proof.Machine.execFmovFf x1 x2 s
  | .frint x1 x2 x3 x4 => Sys2Proof.Machine.execFrint x1 x2 x3 x4 s
  | .fscale x1 x2 x3 x4 x5 => Sys2Proof.Machine.execFscale x1 x2 x3 x4 x5 s
  | .fdiv x1 x2 x3 x4 => Sys2Proof.Machine.execFdiv x1 x2 x3 x4 s
  | .fexp2f x1 x2 x3 => Sys2Proof.Machine.execFexp2f x1 x2 x3 s
  | .flog2 x1 x2 x3 => Sys2Proof.Machine.execFlog2 x1 x2 x3 s
  | .frcp x1 x2 x3 => Sys2Proof.Machine.execFrcp x1 x2 x3 s
  | .frsq x1 x2 x3 => Sys2Proof.Machine.execFrsq x1 x2 x3 s
  | .fsqrt x1 x2 x3 => Sys2Proof.Machine.execFsqrt x1 x2 x3 s
  | .fsin x1 x2 x3 => Sys2Proof.Machine.execFsin x1 x2 x3 s
  | .fcos x1 x2 x3 => Sys2Proof.Machine.execFcos x1 x2 x3 s
  | .vadd x1 x2 x3 x4 x5 x6 x7 => Sys2Proof.Machine.execVadd x1 x2 x3 x4 x5 x6 x7 s
  | .vsub x1 x2 x3 x4 x5 x6 x7 => Sys2Proof.Machine.execVsub x1 x2 x3 x4 x5 x6 x7 s
  | .vmul x1 x2 x3 x4 x5 x6 x7 => Sys2Proof.Machine.execVmul x1 x2 x3 x4 x5 x6 x7 s
  | .vmin x1 x2 x3 x4 x5 x6 x7 => Sys2Proof.Machine.execVmin x1 x2 x3 x4 x5 x6 x7 s
  | .vmax x1 x2 x3 x4 x5 x6 x7 => Sys2Proof.Machine.execVmax x1 x2 x3 x4 x5 x6 x7 s
  | .vfma x1 x2 x3 x4 x5 x6 => Sys2Proof.Machine.execVfma x1 x2 x3 x4 x5 x6 s
  | .vabs x1 x2 x3 x4 => Sys2Proof.Machine.execVabs x1 x2 x3 x4 s
  | .vneg x1 x2 x3 x4 => Sys2Proof.Machine.execVneg x1 x2 x3 x4 s
  | .vand x1 x2 x3 x4 => Sys2Proof.Machine.execVand x1 x2 x3 x4 s
  | .vor x1 x2 x3 x4 => Sys2Proof.Machine.execVor x1 x2 x3 x4 s
  | .vxor x1 x2 x3 x4 => Sys2Proof.Machine.execVxor x1 x2 x3 x4 s
  | .vshl x1 x2 x3 x4 => Sys2Proof.Machine.execVshl x1 x2 x3 x4 s
  | .vshr x1 x2 x3 x4 => Sys2Proof.Machine.execVshr x1 x2 x3 x4 s
  | .vcmp x1 x2 x3 x4 x5 => Sys2Proof.Machine.execVcmp x1 x2 x3 x4 x5 s
  | .vsel x1 x2 x3 x4 => Sys2Proof.Machine.execVsel x1 x2 x3 x4 s
  | .vcvt x1 x2 x3 x4 x5 x6 => Sys2Proof.Machine.execVcvt x1 x2 x3 x4 x5 x6 s
  | .vscale x1 x2 x3 x4 x5 => Sys2Proof.Machine.execVscale x1 x2 x3 x4 x5 s
  | .vred x1 x2 x3 x4 x5 => Sys2Proof.Machine.execVred x1 x2 x3 x4 x5 s
  | .vbcastG x1 x2 x3 => Sys2Proof.Machine.execVbcastG x1 x2 x3 s
  | .vbcastF x1 x2 x3 => Sys2Proof.Machine.execVbcastF x1 x2 x3 s
  | .vmask x1 x2 x3 => Sys2Proof.Machine.execVmask x1 x2 x3 s
  | .vld x1 x2 x3 => Sys2Proof.Machine.execVld x1 x2 x3 s
  | .vst x1 x2 x3 x4 => Sys2Proof.Machine.execVst x1 x2 x3 x4 s
  | .vloop x1 x2 => Sys2Proof.Machine.execVloop x1 x2 s
  | .scfg x1 x2 x3 => Sys2Proof.Machine.execScfg x1 x2 x3 s
  | .mmul x1 x2 x3 x4 x5 x6 x7 x8 => Sys2Proof.Machine.execMmul x1 x2 x3 x4 x5 x6 x7 x8 s
  | .msca x1 x2 x3 x4 x5 => Sys2Proof.Machine.execMsca x1 x2 x3 x4 x5 s
  | .msliceReg x1 x2 x3 x4 x5 x6 x7 x8 => Sys2Proof.Machine.execMsliceReg x1 x2 x3 x4 x5 x6 x7 x8 s
  | .msliceImm x1 x2 x3 x4 x5 x6 x7 x8 => Sys2Proof.Machine.execMsliceImm x1 x2 x3 x4 x5 x6 x7 x8 s
  | .mzero x1 x2 => Sys2Proof.Machine.execMzero x1 x2 s
  | .mmove x1 x2 x3 => Sys2Proof.Machine.execMmove x1 x2 x3 s
  | .mctlSetP x1 x2 => Sys2Proof.Machine.execMctlSetP x1 x2 s
  | .mctlSetSplit x1 x2 => Sys2Proof.Machine.execMctlSetSplit x1 x2 s
  | .mctlSetRhalf x1 x2 => Sys2Proof.Machine.execMctlSetRhalf x1 x2 s
  | .mctlSetTol x1 x2 => Sys2Proof.Machine.execMctlSetTol x1 x2 s
  | .mctlSetBnorm x1 x2 => Sys2Proof.Machine.execMctlSetBnorm x1 x2 s
  | .mctlSetCap x1 x2 => Sys2Proof.Machine.execMctlSetCap x1 x2 s
  | .mctlSetIter x1 x2 => Sys2Proof.Machine.execMctlSetIter x1 x2 s
  | .mwait x1 => Sys2Proof.Machine.execMwait x1 s
  | .mstat x1 => Sys2Proof.Machine.execMstat x1 s
  | .rtest x1 x2 x3 => Sys2Proof.Machine.execRtest x1 x2 x3 s
  | .kset x1 x2 => Sys2Proof.Machine.execKset x1 x2 s
  | .cpy x1 x2 x3 x4 x5 => Sys2Proof.Machine.execCpy x1 x2 x3 x4 x5 s
  | .cpyg x1 x2 x3 x4 x5 => Sys2Proof.Machine.execCpyg x1 x2 x3 x4 x5 s
  | .cpys x1 x2 x3 x4 x5 => Sys2Proof.Machine.execCpys x1 x2 x3 x4 x5 s
  | .xformReshape x1 x2 x3 => Sys2Proof.Machine.execXformReshape x1 x2 x3 s
  | .xformCompact x1 x2 x3 => Sys2Proof.Machine.execXformCompact x1 x2 x3 s
  | .xformExpand x1 x2 x3 => Sys2Proof.Machine.execXformExpand x1 x2 x3 s
  | .xformMxPack x1 x2 x3 => Sys2Proof.Machine.execXformMxPack x1 x2 x3 s
  | .xformMxPackSat x1 x2 x3 => Sys2Proof.Machine.execXformMxPackSat x1 x2 x3 s
  | .xformMxUnpack x1 x2 x3 => Sys2Proof.Machine.execXformMxUnpack x1 x2 x3 s
  | .xformDeltaEncode x1 x2 x3 => Sys2Proof.Machine.execXformDeltaEncode x1 x2 x3 s
  | .xformDeltaDecode x1 x2 x3 => Sys2Proof.Machine.execXformDeltaDecode x1 x2 x3 s
  | .xformZeroRun x1 x2 x3 => Sys2Proof.Machine.execXformZeroRun x1 x2 x3 s
  | .xformDeltaZeroRun x1 x2 x3 => Sys2Proof.Machine.execXformDeltaZeroRun x1 x2 x3 s
  | .nalloc x1 x2 => Sys2Proof.Machine.execNalloc x1 x2 s
  | .nfree x1 => Sys2Proof.Machine.execNfree x1 s
  | .link x1 x2 => Sys2Proof.Machine.execLink x1 x2 s
  | .ppush x1 x2 => Sys2Proof.Machine.execPpush x1 x2 s
  | .ppop x1 x2 => Sys2Proof.Machine.execPpop x1 x2 s
  | .rdisp x1 x2 => Sys2Proof.Machine.execRdisp x1 x2 s
  | .rtload x1 x2 => Sys2Proof.Machine.execRtload x1 x2 s
  | .amsgMark x1 x2 x3 x4 x5 => Sys2Proof.Machine.execAmsgMark x1 x2 x3 x4 x5 s
  | .amsgReg x1 x2 x3 x4 x5 => Sys2Proof.Machine.execAmsgReg x1 x2 x3 x4 x5 s
  | .callatMark x1 x2 x3 x4 x5 => Sys2Proof.Machine.execCallatMark x1 x2 x3 x4 x5 s
  | .callatReg x1 x2 x3 x4 x5 => Sys2Proof.Machine.execCallatReg x1 x2 x3 x4 x5 s
  | .reply x1 x2 => Sys2Proof.Machine.execReply x1 x2 s
  | .trap x1 => Sys2Proof.Machine.execTrap x1 s
  | .eret => Sys2Proof.Machine.execEret s
  | .mfs x1 x2 => Sys2Proof.Machine.execMfs x1 x2 s
  | .mts x1 x2 => Sys2Proof.Machine.execMts x1 x2 s
  | .ackReplay x1 => Sys2Proof.Machine.execAckReplay x1 s
  | .ackResume x1 => Sys2Proof.Machine.execAckResume x1 s
  | .ackRefuse x1 => Sys2Proof.Machine.execAckRefuse x1 s
  | .csave x1 => Sys2Proof.Machine.execCsave x1 s
  | .crest x1 => Sys2Proof.Machine.execCrest x1 s
  | .banksel x1 => Sys2Proof.Machine.execBanksel x1 s
  | .tlbinv x1 x2 => Sys2Proof.Machine.execTlbinv x1 x2 s
  | .rtswap x1 x2 => Sys2Proof.Machine.execRtswap x1 x2 s
  | .calsetCalendar x1 x2 => Sys2Proof.Machine.execCalsetCalendar x1 x2 s
  | .calsetArbitration x1 x2 => Sys2Proof.Machine.execCalsetArbitration x1 x2 s
  | .psplit x1 x2 => Sys2Proof.Machine.execPsplit x1 x2 s
  | .pmerge x1 x2 => Sys2Proof.Machine.execPmerge x1 x2 s
  | .sstop x1 => Sys2Proof.Machine.execSstop x1 s
  | .dbgbrk => Sys2Proof.Machine.execDbgbrk s
  | .idle => Sys2Proof.Machine.execIdle s
  | .jrnl x1 x2 => Sys2Proof.Machine.execJrnl x1 x2 s
  | .fetchLineArrival x1 x2 x3 => Sys2Proof.Machine.execFetchLineArrival x1 x2 x3 s
  | .machineCheck x1 x2 x3 => Sys2Proof.Machine.execMachineCheck x1 x2 x3 s
  | .homeAccess x1 x2 x3 x4 => Sys2Proof.Machine.execHomeAccess x1 x2 x3 x4 s
  | .accessReply x1 x2 x3 => Sys2Proof.Machine.execAccessReply x1 x2 x3 s
  | .feTimeout x1 x2 x3 => Sys2Proof.Machine.execFeTimeout x1 x2 x3 s
  | .parkLimit x1 x2 => Sys2Proof.Machine.execParkLimit x1 x2 s
  | .refusalRetry x1 x2 => Sys2Proof.Machine.execRefusalRetry x1 x2 s
  | .journalResponse x1 x2 x3 => Sys2Proof.Machine.execJournalResponse x1 x2 x3 s
  | .asyncTrap x1 x2 => Sys2Proof.Machine.execAsyncTrap x1 x2 s
  | .yieldWake x1 x2 => Sys2Proof.Machine.execYieldWake x1 x2 s
  | .dequeSpillMove x1 => Sys2Proof.Machine.execDequeSpillMove x1 s
  | .launchItemArrival x1 x2 => Sys2Proof.Machine.execLaunchItemArrival x1 x2 s
  | .floodedLaunch x1 x2 => Sys2Proof.Machine.execFloodedLaunch x1 x2 s
  | .poolTake x1 => Sys2Proof.Machine.execPoolTake x1 s
  | .stealRequest x1 => Sys2Proof.Machine.execStealRequest x1 s
  | .stealBackoff x1 => Sys2Proof.Machine.execStealBackoff x1 s
  | .stealServe x1 x2 => Sys2Proof.Machine.execStealServe x1 x2 s
  | .stealReply x1 x2 => Sys2Proof.Machine.execStealReply x1 x2 s
  | .completionNotice x1 x2 => Sys2Proof.Machine.execCompletionNotice x1 x2 s
  | .combineMissComplete x1 x2 => Sys2Proof.Machine.execCombineMissComplete x1 x2 s
  | .labelInternRequest x1 x2 => Sys2Proof.Machine.execLabelInternRequest x1 x2 s
  | .nogoodApply x1 x2 => Sys2Proof.Machine.execNogoodApply x1 x2 s
  | .blightInstall x1 => Sys2Proof.Machine.execBlightInstall x1 s
  | .nogoodTokenWrite x1 => Sys2Proof.Machine.execNogoodTokenWrite x1 s
  | .lflushApply x1 x2 => Sys2Proof.Machine.execLflushApply x1 x2 s
  | .rtloadApply x1 x2 => Sys2Proof.Machine.execRtloadApply x1 x2 s
  | .translationWalkComplete x1 x2 => Sys2Proof.Machine.execTranslationWalkComplete x1 x2 s
  | .scopeMiss x1 x2 => Sys2Proof.Machine.execScopeMiss x1 x2 s
  | .barrierArrivalSend x1 => Sys2Proof.Machine.execBarrierArrivalSend x1 s
  | .barrierArrivalAtHome x1 x2 => Sys2Proof.Machine.execBarrierArrivalAtHome x1 x2 s
  | .engineBarrierArrival x1 x2 x3 => Sys2Proof.Machine.execEngineBarrierArrival x1 x2 x3 s
  | .gldResult x1 x2 => Sys2Proof.Machine.execGldResult x1 x2 s
  | .migrantBlockAtHome x1 x2 => Sys2Proof.Machine.execMigrantBlockAtHome x1 x2 s
  | .migrantReturn x1 x2 => Sys2Proof.Machine.execMigrantReturn x1 x2 s
  | .sfuServiceStart x1 => Sys2Proof.Machine.execSfuServiceStart x1 s
  | .sfuResult x1 => Sys2Proof.Machine.execSfuResult x1 s
  | .sequencerDispatch x1 => Sys2Proof.Machine.execSequencerDispatch x1 s
  | .vloopIteration x1 => Sys2Proof.Machine.execVloopIteration x1 s
  | .streamPrefetch x1 x2 x3 => Sys2Proof.Machine.execStreamPrefetch x1 x2 x3 s
  | .supervisorHandlerStart x1 x2 => Sys2Proof.Machine.execSupervisorHandlerStart x1 x2 s
  | .amsgDelivery x1 x2 => Sys2Proof.Machine.execAmsgDelivery x1 x2 s
  | .callatArrival x1 x2 => Sys2Proof.Machine.execCallatArrival x1 x2 s
  | .replyDelivery x1 x2 => Sys2Proof.Machine.execReplyDelivery x1 x2 s
  | .messageRetry x1 x2 => Sys2Proof.Machine.execMessageRetry x1 x2 s
  | .flitSlot x1 x2 x3 => Sys2Proof.Machine.execFlitSlot x1 x2 x3 s
  | .linkFlitRetry x1 x2 => Sys2Proof.Machine.execLinkFlitRetry x1 x2 s
  | .routeBankFlip x1 => Sys2Proof.Machine.execRouteBankFlip x1 s
  | .calendarUpdateEffect x1 x2 => Sys2Proof.Machine.execCalendarUpdateEffect x1 x2 s
  | .matrixQueueAccept x1 x2 => Sys2Proof.Machine.execMatrixQueueAccept x1 x2 s
  | .matrixInstrStart x1 x2 => Sys2Proof.Machine.execMatrixInstrStart x1 x2 s
  | .matrixCommit x1 x2 => Sys2Proof.Machine.execMatrixCommit x1 x2 s
  | .matrixComplete x1 x2 => Sys2Proof.Machine.execMatrixComplete x1 x2 s
  | .matrixFault x1 x2 x3 x4 => Sys2Proof.Machine.execMatrixFault x1 x2 x3 x4 s
  | .engineQueueAccept x1 x2 => Sys2Proof.Machine.execEngineQueueAccept x1 x2 s
  | .engineCommit x1 x2 => Sys2Proof.Machine.execEngineCommit x1 x2 s
  | .engineComplete x1 x2 => Sys2Proof.Machine.execEngineComplete x1 x2 s
  | .engineFault x1 x2 x3 => Sys2Proof.Machine.execEngineFault x1 x2 x3 s
  | .enginePageFaultResume x1 x2 => Sys2Proof.Machine.execEnginePageFaultResume x1 x2 s
  | .rewriteUnitTake x1 => Sys2Proof.Machine.execRewriteUnitTake x1 s
  | .residentEventEntry x1 => Sys2Proof.Machine.execResidentEventEntry x1 s
  | .interrupt x1 x2 => Sys2Proof.Machine.execInterrupt x1 x2 s
  | .partitionOpComplete x1 => Sys2Proof.Machine.execPartitionOpComplete x1 s
  | .stopAtTPrime x1 => Sys2Proof.Machine.execStopAtTPrime x1 s
  | .stopSwitch x1 => Sys2Proof.Machine.execStopSwitch x1 s
  | .tlbinvComplete x1 x2 => Sys2Proof.Machine.execTlbinvComplete x1 x2 s
  | .debugSetDbg x1 x2 x3 x4 => Sys2Proof.Machine.execDebugSetDbg x1 x2 x3 x4 s
  | .debugFreezeSet x1 => Sys2Proof.Machine.execDebugFreezeSet x1 s
  | .debugFreezeClear x1 => Sys2Proof.Machine.execDebugFreezeClear x1 s
  | .configPathWrite x1 x2 => Sys2Proof.Machine.execConfigPathWrite x1 x2 s
  | .launchMessage x1 x2 x3 x4 x5 => Sys2Proof.Machine.execLaunchMessage x1 x2 x3 x4 x5 s
  | .launchRetry x1 x2 => Sys2Proof.Machine.execLaunchRetry x1 x2 s
  | .cxlMemWrite x1 x2 x3 => Sys2Proof.Machine.execCxlMemWrite x1 x2 x3 s
  | .eventRecordWrite x1 x2 => Sys2Proof.Machine.execEventRecordWrite x1 x2 s
  | .evreplyRetry x1 x2 x3 => Sys2Proof.Machine.execEvreplyRetry x1 x2 x3 s
  | .evreplyRefuse x1 x2 x3 => Sys2Proof.Machine.execEvreplyRefuse x1 x2 x3 s
  | .evreplyConfirmFlip x1 x2 x3 => Sys2Proof.Machine.execEvreplyConfirmFlip x1 x2 x3 s
  | .functionEnable x1 x2 => Sys2Proof.Machine.execFunctionEnable x1 x2 s
  | .functionDisable x1 x2 => Sys2Proof.Machine.execFunctionDisable x1 x2 s
  | .functionReset x1 x2 => Sys2Proof.Machine.execFunctionReset x1 x2 s
  | .functionScrubComplete x1 x2 => Sys2Proof.Machine.execFunctionScrubComplete x1 x2 s
  | .migrationPause x1 x2 => Sys2Proof.Machine.execMigrationPause x1 x2 s
  | .migrationResume x1 x2 => Sys2Proof.Machine.execMigrationResume x1 x2 s
  | .hostRegisterWrite x1 x2 x3 x4 x5 => Sys2Proof.Machine.execHostRegisterWrite x1 x2 x3 x4 x5 s
  | .moduleReset x1 x2 x3 => Sys2Proof.Machine.execModuleReset x1 x2 x3 s
  | .powerLimitHalt x1 => Sys2Proof.Machine.execPowerLimitHalt x1 s
  | .scheduledStopRequest x1 x2 x3 x4 x5 => Sys2Proof.Machine.execScheduledStopRequest x1 x2 x3 x4 x5 s
  | .debugResume x1 x2 => Sys2Proof.Machine.execDebugResume x1 x2 s
  | .spdmDoeRequest x1 x2 => Sys2Proof.Machine.execSpdmDoeRequest x1 x2 s

end Sys2Proof.Machine
end

