-- ==== Sys2Proof/Machine/Schedule.lean ====
section
/-!
DEFINITION. Turns of the machine: one context's issue with what stands around an instruction's meaning (asynchronous
traps R343, the float-exception trap R217, the retry latch R175, pairs R90), and the model's own order of turns where
the agenda gives none (log 4).
-/
namespace Sys2Proof.Machine

/-- An outcome's next state, for what may be built on it. -/
abbrev Result := Host.Outcome State Fault Refusal

/-- Whether a precise trap was taken in the acting context between two states. -/
def trapped (s t : State) : Bool := (!s.me.eheld && t.me.eheld) || (t.me.run == .park .dead)

/-- Run the first instruction of a pair, and the second when the first has retired. -/
def runFirst (i j : Instr) (s : State) : Result :=
  match exec i s with
  | .next t => if t.me.run = .run ∧ t.me.pair.isSome ∧ t.me.slot2 then exec j t else .next t
  | r => r
/-- Run the second instruction of a pair, and the first when the second has retired or holds a push back. -/
def runSecond (i j : Instr) (s : State) : Result :=
  match exec j s with
  | .next t => if t.me.run = .run ∧ t.me.pair.isSome ∧ !t.me.slot2 then runFirst i j t else .next t
  | r => r

/-- What an instruction waits for is data that it reads (R178, R211). -/
def Wr.reads : Wr → Bool
  | .fetch _ | .g .. | .f .. | .v .. => true
  | _ => false
/-- A push by an instruction stores to bytes that the access of a context reads. -/
def Ctx.pushMeets (c x : Ctx) (i : Instr) : Bool :=
  let rest := match x.out with | .v _ _ rs => rs | _ => []
  i.streams.any fun r => i.use.w.contains r && match c.strmRef r with
    | some st => st.pieces.any fun p => (x.sent.toList ++ rest).any fun q =>
        decide (p.va < q.va.toNat + q.n) && decide (q.va.toNat < p.va + p.n)
    | none => false
/-- An instruction has to wait before it can begin. -/
def Ctx.waits (c : Ctx) : Bool := match c.run with | .wait _ => c.out == .none | _ => false

/-- Run a pair (R90). The second instruction is tried first on the same registers: if it traps, the pair ends in the
first's trap if it has one, else in the second's; if it has to wait before it can begin, or a debugger stops it, so does
the pair. Else both run, the first before the second. A second that still waits for data, which its home may refuse, runs
before the first, for neither may have an effect when one traps; not where the first pushes to what it reads, which it
then reads from the push (DEDUCED, log 112). What one of them has written to registers and streams is put back when the
other traps. -/
def runPair (i j : Instr) (pc : Word) (s : State) : Result :=
  let fresh := s.me.pair.isNone
  let s := if fresh then s.modHere fun c => { c with jwait := c.jwait.filter (· != s.key) } else s
  let s := s.modMe fun c => { c with pair := some { first := pc, undo := some c.regs, streams := some c.streams } }
  match exec j (s.modMe fun c => { c with pc := nextPc pc }) with
  | .next t =>
    if trapped s t then
      match exec i s with
      | .next u => .next (if trapped s u then u else t)
      | r => r
    else if t.me.stopped ∧ t.me.pair.isSome then .next (t.modMe fun c => { c with pc := pc, pair := none })
    else if t.me.waits then
      .next (t.modMe fun c => { c with pc := pc, pair := c.pair.map fun p => { p with stage := .trial } })
    else if t.me.out.reads && !s.me.pushMeets t.me i then
      match exec i s with
      | .next u =>
        if trapped s u ∨ u.me.waits ∨ u.me.stopped then .next u
        else .next (t.modMe fun c => { c with pair := c.pair.map fun p => { p with stage := .second } })
      | r => r
    else runFirst i j s
  | r => r

/-- Run what the acting context holds: an instruction, or a pair as far as it has come. -/
def runInst (h : Inst) (s : State) : Result :=
  match h.i2, s.me.pair with
  | none, _ => exec h.i1 s
  | some j, none => runPair h.i1 j h.pc s
  | some j, some p => match p.stage with
    | .second => runSecond h.i1 j s
    | .last => exec h.i1 s
    | .trial => runPair h.i1 j h.pc s
    | .forward =>
      if s.me.slot2 then exec j s
      else if p.held ≠ .none ∨ s.me.out ≠ .none ∨ !s.me.fetched.isEmpty then runFirst h.i1 j s
      else runPair h.i1 j h.pc s

/-- The instruction that a context holds, its row chosen again by the registers as they are when it runs: the wait for one
of them may be over (R272, R355, R375). -/
def Inst.resolved (h : Inst) (c : Ctx) : Inst := if h.i2.isNone then { h with i1 := resolveRow c h.i1 } else h

/-- A context goes on with the instruction it holds, a replay, or the next instruction of its program (R90, R175). One whose
access has been answered goes on with the answer, whose label is still to be formed. -/
def goOn (core : CoreNo) (s : State) : Result :=
  let c := s.me
  match c.resp, c.inst, c.replay, c.latch with
  | some (r, va), some _, false, _ => .next (s.complete core s.key core r va)
  | some (r, va), _, true, some h =>
    .next (((s.modMe fun c => { c with replay := false, latch := none, inst := some h }).modHere (·.count 2)).complete
      core s.key core r va)
  | _, some h, false, _ =>
    if h.resolved c = h then runInst h s
    else runInst (h.resolved c) (s.modMe fun c => { c with inst := some (h.resolved c) })
  | _, _, true, some h =>
    let h := h.resolved c
    runInst h ((s.modMe fun c => { c with replay := false, latch := none, inst := some h, pc := h.pc,
                                          enter := none }).modHere (·.count 2))
  | _, _, _, _ =>
    match s.fetch with
    | .stop t => .next t
    | .run h => runInst h (s.modMe fun c => { c with replay := false, enter := none, inst := some h })

/-- What a context's issue does (R175, R217, R343): a trap that is due, or the context goes on. A trap that has come to a
context in WAIT is taken when the wait is over. -/
def tryIssue (core : CoreNo) (s : State) : Result :=
  let c := s.me
  match c.midway, s.asyncDue core s.key, c.fexc with
  | false, some (t, rest), _ =>
    match c.run, goOn core s with
    | .wait w, .next u => if u.me.run = .wait w then .next u else
      .next ((s.modMe fun c => { c with asyncs := rest }).trapCtx core s.key t.trap t.detail t.eaddr false true)
    | _, _ => .next ((s.modMe fun c => { c with asyncs := rest }).trapCtx core s.key t.trap t.detail t.eaddr false true)
  | false, none, some fl =>
    .next ((s.modMe fun c => { c with fexc := none }).trapOpen 0x18 fl.toNat)
  | _, _, _ => goOn core s

/-- A context in WAIT whose instruction would still wait has not rejoined the rotation, unless its try begins the spill
move or the eviction that it waits for (R109, R188). -/
def State.rejoins (s : State) (core : CoreNo) (x : CtxNo) : Bool :=
  let t := { s with core := core, ctx := x, asKey := none }
  match t.me.run with
  | .wait w => match tryIssue core t with
    | .next u => u.me.run != .wait w || u.me.out != t.me.out ||
        u.here.window != t.here.window || u.here.deques != t.here.deques
    | _ => true
  | _ => true

/-- A context that takes an issue slot (R17, R100): its last issue was at least 8 cycles earlier, and its core has not
issued in this cycle. One that goes on between the accesses of its instruction takes none. -/
def State.eligible (s : State) (core : CoreNo) (x : CtxNo) : Bool :=
  let key := (s.coreAt core).key x
  s.mayIssue core key && ((s.ctxAt core key).midway ||
    ((match (s.ctxAt core key).issued with | some t => decide (t + 8 ≤ s.cycle) | none => true) &&
     (s.coreAt core).issued != some s.cycle)) && s.rejoins core x

/-- The context whose turn it is: one that goes on with its instruction, else the first eligible one in ascending number
after the context that issued last (R100). -/
def CoreSt.nextCtx (s : State) (core : CoreNo) : Option CtxNo :=
  let c := s.coreAt core
  let find := fun (p : CtxNo → Bool) => (List.range 16).findSome? fun d =>
    let x : CtxNo := Fin.ofNat 16 (c.last + 1 + d)
    if p x then some x else none
  (find fun x => (s.ctxAt core (c.key x)).midway && s.eligible core x).orElse fun _ => find (s.eligible core)

/-- The issue of a context takes its core's slot of this cycle, unless the context goes on with its instruction. -/
def State.takeSlot (s : State) (core : CoreNo) (x : CtxNo) : State :=
  let key := (s.coreAt core).key x
  if (s.ctxAt core key).midway then s
  else (s.modCore core fun c => { c with last := x.val, issued := some s.cycle }).modCtx core key fun c =>
    { c with issued := some s.cycle }

/-- One context's issue. A context whose turn it is not leaves the state as it is. -/
def issue (core : CoreNo) (x : CtxNo) (s : State) : Result :=
  let s := { s with core := core, ctx := x, asKey := none }
  if CoreSt.nextCtx s core ≠ some x then .next s else tryIssue core (s.takeSlot core x)

/-- An event of the machine or of the world outside: a constructor of Instr without an encoding. -/
def isEvent (i : Instr) : Bool := (encodeFields i).isNone

/-- Time passes, and stops begin whose cycle comes (R371). -/
def State.advance (s : State) (n : Nat) : State :=
  s.pkgs.foldl (fun s p => s.beginStops p.1) { s with cycle := s.cycle + n }

/-- Carry out a turn. -/
def runTurn (t : Turn) (s : State) : Result :=
  let s := s.advance t.cycles
  match t.what with
  | .pass => .next s
  | .issue core x => issue core x s
  | .soft core => .next (s.modCore core (·.count 3))
  | .spoil w => .next { s with store := { s.store with bad := if s.store.bad.contains w then s.store.bad else w :: s.store.bad } }
  | .logRead k e => .next (s.modPart k fun p => { p with hostRead := p.hostRead ||| (1#64 <<< e.val) })
  | .event i => if isEvent i then exec i { s with asKey := none } else .fault .turnNotEvent

-- The model's own order (log 4)

/-- An event with its parameters, as what it does. -/
abbrev Chore := State → Result

/-- Events that a context's state asks for. -/
def Ctx.chores (core : CoreNo) (x : CtxNo) (c : Ctx) : List Chore :=
  match c.run with
  | .wait (.line a) => [execFetchLineArrival core a 0]
  | .wait (.walk _) => [execTranslationWalkComplete core x]
  | .wait (.combine ..) => [execCombineMissComplete core x]
  | .wait (.backoff _) => [execRefusalRetry core x]
  | .wait (.tlbinv ..) => [execTlbinvComplete core x]
  | .wait .reply => [execGldResult core x]
  | .park (.yield _) => [execYieldWake core x]
  | .wait (.token _) | .wait .tokens | .park .home | .park (.reap _) | .park (.ppop _) => [execParkLimit core x]
  | _ => []

/-- Events that a core's units ask for. -/
def CoreSt.chores (core : CoreNo) (c : CoreSt) : List Chore :=
  let eng := fun (e : Eng) => [execEngineQueueAccept core e, execEngineCommit core e, execEngineComplete core e,
    execEnginePageFaultResume core e] ++
    (match (c.eng e).run with | some r => if r.stop.isSome then [execEngineFault core e 0] else [] | none => [])
  let half := fun (h : Fin 2) => [execMatrixQueueAccept core h, execMatrixInstrStart core h, execMatrixCommit core h,
    execMatrixComplete core h, execMatrixFault core h 0 0]
  (c.ctxs.flatMap fun p => p.2.chores core (keyNo p.1)) ++
  [execResidentEventEntry core, execPoolTake core, execDequeSpillMove core, execSfuResult core, execSfuServiceStart core,
   execSequencerDispatch core, execVloopIteration core, execRewriteUnitTake core, execBlightInstall core,
   execBarrierArrivalSend core, execStealBackoff core, execStealRequest core] ++
  half 0 ++ half 1 ++ eng .copy ++ eng .xform ++
  (c.parks.map fun e => execFeTimeout core e.req.src (match e.req.who with | .ctx k => keyNo k | _ => 0)) ++
  (c.window.filterMap fun w => if w.widening then some (execScopeMiss w.core core) else none)

/-- The event that a message waits for. -/
def Msg.chore (m : Msg) : Chore :=
  if m.retryAt ≠ 0 then execMessageRetry m.src m.dst
  else match m.body with
    | .req r => match r.act with
      | .bararr _ => execBarrierArrivalAtHome m.dst m.src
      | .engarr .. => execEngineBarrierArrival m.dst m.src m.path
      | _ => execHomeAccess m.dst m.src m.path false
    | .resp (.journal _) .. | .resp .nobody .. => execJournalResponse m.dst m.src m.path
    | .resp .. => execAccessReply m.dst m.src m.path
    | .amsg _ _ _ _ sup _ => if sup then execSupervisorHandlerStart m.dst m.src else execAmsgDelivery m.dst m.src
    | .callat _ => execCallatArrival m.dst m.src
    | .reply .. => execReplyDelivery m.dst m.src
    | .stealReq .. => execStealServe m.dst m.src
    | .stealResp _ => execStealReply m.dst m.src
    | .notice _ => execCompletionNotice m.dst m.src
    | .intern .. => execLabelInternRequest m.dst m.src
    | .nogood .. => execNogoodApply m.dst m.src
    | .lflush _ => execLflushApply m.dst m.src
    | .rtload .. => execRtloadApply m.dst m.src
    | .migrate .. => execMigrantBlockAtHome m.dst m.src
    | .migrated .. => execMigrantReturn m.dst m.src
    | .launch _ => execLaunchItemArrival m.dst 0
    | .refused _ => execMessageRetry m.dst m.src

/-- Events that a package and its functions ask for. -/
def Pkg.chores (p : Fin 64) (k : Pkg) : List Chore :=
  [execRouteBankFlip p, execPartitionOpComplete p, execStopAtTPrime p, execStopSwitch p] ++
  k.fns.flatMap fun f =>
    let v : BitVec 8 := BitVec.ofNat 8 f.1
    [execEventRecordWrite p v, execFunctionScrubComplete p v, execFloodedLaunch p v, execLaunchRetry p v] ++
    f.2.launches.filterMap fun l => l.target.map fun core => execLaunchItemArrival core v

/-- Every event that the state may ask for: those of the cores' contexts and units, of messages, flits and calendars, of
label homes, and of the packages. -/
def State.chores (s : State) : List Chore :=
  (s.msgs.map Msg.chore) ++ (s.cores.flatMap fun p => p.2.chores (BitVec.ofNat 20 p.1)) ++
  ((s.flits.filter fun f => !f.bin).flatMap fun f =>
    let out := s.wants f
    let now := s.cycleOf (f.router / 128) + s.pace
    let serve := fun (k : Nat) => execFlitSlot (BitVec.ofNat 13 f.router) (Fin.ofNat 8 out) (Fin.ofNat 64 k)
    if out = 6 ∨ out = 7 then [serve now] else [serve (2 * now), serve (2 * now + 1)]) ++
  (s.routers.flatMap fun r => r.2.pend.map fun q => execCalendarUpdateEffect (BitVec.ofNat 13 r.1) (Fin.ofNat 8 q.1)) ++
  (s.cores.flatMap fun p => (p.2.tap.map fun t =>
    if t.supervisor then execSupervisorHandlerStart (BitVec.ofNat 20 p.1) t.src else execAmsgDelivery (BitVec.ofNat 20 p.1) t.src)) ++
  (s.parts.filterMap fun p => if p.2.nogoods.isEmpty then none else some (execNogoodTokenWrite p.2.lhome)) ++
  s.pkgs.flatMap fun p => p.2.chores (Fin.ofNat 64 p.1)

/-- The first of the state's events, from a place that moves with time, that does something now: the state after it. -/
def State.dueEvent (s : State) (n : Nat) : Option Result :=
  let l := s.chores
  let t := { s.advance s.pace with asKey := none }
  ((l.drop (n % l.length)) ++ l.take (n % l.length)).findSome? fun e => match e t with
    | .next u => if u = t then none else some (.next u)
    | _ => none

/-- A context that may issue, from a core that moves with time. -/
def State.dueCtx (s : State) (n : Nat) : Option (CoreNo × CtxNo) :=
  let l := s.cores
  ((l.drop (n % l.length)) ++ l.take (n % l.length)).findSome? fun p =>
    (CoreSt.nextCtx s (BitVec.ofNat 20 p.1)).map fun x => (BitVec.ofNat 20 p.1, x)

/-- The turn that the model takes when the agenda gives none: contexts and events by turns, and the other kind where one
has nothing to do (DESIGN CHOICE, log 4). -/
def State.ownTurn (s : State) : Result :=
  let n := s.cycle / s.pace
  let t := { s.advance s.pace with asKey := none }
  -- a bank flip and the switch of a stop have their own cycles (R323, R371)
  let flip := (s.pkgs.flatMap fun p => [execRouteBankFlip (Fin.ofNat 64 p.1), execStopSwitch (Fin.ofNat 64 p.1)]).findSome?
    fun e => match e t with
      | .next u => if u = t then none else some (.next u)
      | _ => none
  let ctx := (s.dueCtx n).map fun c => issue c.1 c.2 (s.advance s.pace)
  let both := if (n + n / 64) % 2 = 0 then ctx.orElse fun _ => s.dueEvent n else (s.dueEvent n).orElse fun _ => ctx
  (flip.orElse fun _ => both).getD (.next (s.advance s.pace))

/-- One step: the agenda's next turn, or the model's own. -/
def State.turn (s : State) : Result :=
  match s.agenda with
  | t :: rest => runTurn t { s with agenda := rest }
  | [] => s.ownTurn

/-- `s` with a word in slot 0 of the line at the root context's pc of core 0, present in its fetch buffer, the root
context in RUN, and its issue the next turn (log 7). -/
def State.placeWord (s : State) (w : BitVec 96) : State :=
  let k := s.partKey 0 (16 * (s.coreAt 0).cur)
  let key := 16 * (s.coreAt 0).cur
  let pc := lineOf (s.ctxAt 0 key).pc
  let s := s.modCore 0 fun c => { c.addLine ⟨k, pc, lineWith w⟩ with last := 15, issued := none }
  let s := s.modCtx 0 key fun c => { c with pc := pc, run := .run, inst := none, pair := none, replay := false,
                                            enter := none, asyncs := [], fexc := none, stopped := false,
                                            issued := none, out := .none }
  { s with agenda := { cycles := s.pace, what := .issue 0 0 } :: s.agenda }

end Sys2Proof.Machine
end

