-- ==== Sys2Proof/Safety.lean ====
section
/-!
DEFINITION. What counts as a safe run, and the terms that statements use: the invariant that every step keeps, when
nothing stands before an instruction's own effect, and what a step leaves as it was.
-/
namespace Sys2Proof.Machine

/-- The invariant of a state: its memory is in canonical form. -/
def State.Inv (s : State) : Prop := Memory.wf s.store.mem = true

/-- A step that is neither a fault nor a refusal. -/
def StepsTo (s t : State) : Prop := step s = .next t

/-- Nothing stands before the instruction's own effect: this kind of core executes it (R19), it names no system register
that there is not (R349), its stream registers are bound and used as their streams allow and its scalar ones are not bound
(R210, R211), no token that it reads or writes is pending (R103), the sequencer does not hold it (R208, R209), and no
enabled flag of the pair's first instruction waits to be raised (R90, R217). -/
def State.clear (s : State) (i : Instr) : Bool :=
  (!computeOnly i.op || isCompute s.core) && !i.absentReg && !i.scalarF.any s.me.bound &&
  i.streams.all (fun r => s.me.bound r && !s.me.streamBad i r) &&
  !(gRefs i.use.w).any s.me.pend.contains && !(gRefs i.use.r).any s.me.pend.contains && !s.seqHeld i &&
  (s.me.raised &&& s.me.fenable == 0)

/-- The labels of registers that decide something resolve to the empty label (R154). -/
def State.unlabelled (s : State) (rs : List GReg) : Bool := rs.all fun r => s.lab (s.me.g r).lab == 0

/-- The registers of a context other than those named are as they were, and so is every special register and the
exception registers; its flags too, where none waited to be committed. -/
def Ctx.keeps (c d : Ctx) (w : List RegRef) : Prop :=
  (∀ r, .g r ∉ w → d.g r = c.g r) ∧ (∀ r, .f r ∉ w → d.f r = c.f r) ∧ (∀ r, .v r ∉ w → d.v r = c.v r) ∧
  (∀ r, .m r ∉ w → d.m r = c.m r) ∧ (∀ r : KReg, .k r ∉ w → d.regs.k[r] = c.regs.k[r]) ∧
  d.fenable = c.fenable ∧ d.fsup = c.fsup ∧ d.vcclass = c.vcclass ∧ d.parklim = c.parklim ∧ d.tvec = c.tvec ∧
  d.epc = c.epc ∧ d.ecause = c.ecause ∧ d.eaddr = c.eaddr ∧ d.eheld = c.eheld ∧ d.watch = c.watch ∧
  d.asyncs = c.asyncs ∧ d.fexc = c.fexc ∧ d.latch = c.latch ∧ d.item = c.item ∧ d.pooled = c.pooled ∧
  (c.raised = 0 → d.fflags = c.fflags)

/-- Only the acting context changed: every other context, unit, core, partition, package, router, message and byte of
memory is as it was. -/
def State.onlyMe (s t : State) : Prop := t = s.setCtx s.core s.key t.me

/-- Every byte of memory, every stored label and every full-empty bit reads as it did. -/
def State.sameMemory (s t : State) : Prop :=
  (∀ a, t.byteAt a = s.byteAt a) ∧ (∀ a, t.tagAt a = s.tagAt a) ∧ (∀ a, t.fullAt a = s.fullAt a)

/-- Other cores, the core's other contexts, the partitions, packages, routers and messages are as they were. -/
def State.othersKept (s t : State) : Prop :=
  (∀ c, c ≠ s.core → t.coreAt c = s.coreAt c) ∧ (∀ k, k ≠ s.key → t.ctxAt s.core k = s.ctxAt s.core k) ∧
  t.parts = s.parts ∧ t.pkgs = s.pkgs ∧ t.routers = s.routers ∧ t.msgs = s.msgs

/-- The instruction has retired: its context runs on at the next instruction in program order, or within a pair as the
pair's own order has it (R90). -/
def State.movedOn (s t : State) : Prop := t.me.pc = s.me.goesTo (nextPc s.me.pc) ∧ t.me.run = .run

end Sys2Proof.Machine
end

