-- ==== Sys2Proof/Certificates/Slice0/Obligations.lean ====
section
/-!
DEFINITION. The statements for the provers, one def Obligations.<Name> each: what the instructions and the machine do,
from the numbered rules of the spec, with the terms of Sys2Proof/Safety.lean. A statement says that an instruction
completes by giving the next state that exec answers.
-/

open Sys2Proof Sys2Proof.Machine

-- The integer instructions (07_integer.md)

namespace Sys2Proof.Claims

/-- Bits 31:0 sign-extended under .w, all bits otherwise (R128). -/
def keep (w : Bool) (x : Word) : Word := if w then (x.setWidth 32).signExtend 64 else x
/-- A source as a natural number of its width. -/
def natural (w : Bool) (x : Word) : Nat := if w then (x.setWidth 32).toNat else x.toNat
/-- A source as a signed number of its width. -/
def signed (w : Bool) (x : Word) : Int := if w then (x.setWidth 32).toInt else x.toInt
/-- The width. -/
def width (w : Bool) : Nat := if w then 32 else 64

/-- An integer instruction writes a value with the conjunction of the labels of the registers it reads, once that is at
hand, and retires. -/
def Writes (i : Instr) (d : GReg) (reads : List GReg) (v : (GReg → Word) → Word) : Prop :=
  ∀ (s t : State) (h : Handle), s.clear i = true → d ≠ 0 → s.conj (reads.map fun r => (s.me.g r).lab) = .ok h t →
    exec i s = .next (t.modMe fun c => (c.setG d ⟨v fun r => (s.me.g r).val, h⟩).retire)

end Sys2Proof.Claims
open Sys2Proof.Claims

/-- R131: ADD to SEL and the immediate forms: the low bits of the exact result, under .w bits 31:0 of it sign-extended;
exact products; signed and natural comparisons over the width, and a condition of SEL over 64 bits. The label of gD is
the conjunction of those of the registers read. -/
def Obligations.IntegerArithmetic : Prop :=
  (∀ w d a b, Writes (.add w d a b) d [a, b] fun g => keep w (g a + g b)) ∧
  (∀ w d a b, Writes (.sub w d a b) d [a, b] fun g => keep w (g a - g b)) ∧
  (∀ w d a b, Writes (.and w d a b) d [a, b] fun g => keep w (g a &&& g b)) ∧
  (∀ w d a b, Writes (.or w d a b) d [a, b] fun g => keep w (g a ||| g b)) ∧
  (∀ w d a b, Writes (.xor w d a b) d [a, b] fun g => keep w (g a ^^^ g b)) ∧
  (∀ w d a b, Writes (.andn w d a b) d [a, b] fun g => keep w (g a &&& ~~~(g b))) ∧
  (∀ w d a i, Writes (.addi w d a i) d [a] fun g => keep w (g a + i.signExtend 64)) ∧
  (∀ w d a i, Writes (.subi w d a i) d [a] fun g => keep w (g a - i.signExtend 64)) ∧
  (∀ w d a i, Writes (.andi w d a i) d [a] fun g => keep w (g a &&& i.signExtend 64)) ∧
  (∀ w d a i, Writes (.ori w d a i) d [a] fun g => keep w (g a ||| i.signExtend 64)) ∧
  (∀ w d a i, Writes (.xori w d a i) d [a] fun g => keep w (g a ^^^ i.signExtend 64)) ∧
  (∀ w d a b, Writes (.mul w d a b) d [a, b] fun g => keep w (g a * g b)) ∧
  (∀ w d a b, Writes (.mulh w d a b) d [a, b] fun g =>
    keep w (BitVec.ofInt 64 (signed w (g a) * signed w (g b) / 2 ^ width w))) ∧
  (∀ w d a b, Writes (.mulhu w d a b) d [a, b] fun g =>
    keep w (BitVec.ofNat 64 (natural w (g a) * natural w (g b) / 2 ^ width w))) ∧
  (∀ w d a b, Writes (.max w d a b) d [a, b] fun g => keep w (if signed w (g a) < signed w (g b) then g b else g a)) ∧
  (∀ w d a b, Writes (.min w d a b) d [a, b] fun g => keep w (if signed w (g b) < signed w (g a) then g b else g a)) ∧
  (∀ w d a b, Writes (.maxu w d a b) d [a, b] fun g =>
    keep w (if natural w (g a) < natural w (g b) then g b else g a)) ∧
  (∀ w d a b, Writes (.minu w d a b) d [a, b] fun g =>
    keep w (if natural w (g b) < natural w (g a) then g b else g a)) ∧
  (∀ w d a b, Writes (.cmp w .eq d a b) d [a, b] fun g => if natural w (g a) = natural w (g b) then 1 else 0) ∧
  (∀ w d a b, Writes (.cmp w .ne d a b) d [a, b] fun g => if natural w (g a) ≠ natural w (g b) then 1 else 0) ∧
  (∀ w d a b, Writes (.cmp w .lt d a b) d [a, b] fun g => if signed w (g a) < signed w (g b) then 1 else 0) ∧
  (∀ w d a b, Writes (.cmp w .ge d a b) d [a, b] fun g => if signed w (g a) < signed w (g b) then 0 else 1) ∧
  (∀ w d a b, Writes (.cmp w .lo d a b) d [a, b] fun g => if natural w (g a) < natural w (g b) then 1 else 0) ∧
  (∀ w d a b, Writes (.cmp w .hs d a b) d [a, b] fun g => if natural w (g a) < natural w (g b) then 0 else 1) ∧
  (∀ w d c a b, Writes (.sel w d c a b) d [c, a, b] fun g => keep w (if g c = 0 then g b else g a))

/-- R132: DIV, REM, DIVU and REMU, with their edge cases. -/
def Obligations.IntegerDivide : Prop :=
  (∀ w d a b, Writes (.div w d a b) d [a, b] fun g =>
    if natural w (g b) = 0 then -1 else keep w (BitVec.ofInt 64 ((signed w (g a)).tdiv (signed w (g b))))) ∧
  (∀ w d a b, Writes (.rem w d a b) d [a, b] fun g =>
    if natural w (g b) = 0 then keep w (g a) else keep w (BitVec.ofInt 64 ((signed w (g a)).tmod (signed w (g b))))) ∧
  (∀ w d a b, Writes (.divu w d a b) d [a, b] fun g =>
    if natural w (g b) = 0 then -1 else keep w (BitVec.ofNat 64 (natural w (g a) / natural w (g b)))) ∧
  (∀ w d a b, Writes (.remu w d a b) d [a, b] fun g =>
    if natural w (g b) = 0 then keep w (g a) else keep w (BitVec.ofNat 64 (natural w (g a) % natural w (g b))))

namespace Sys2Proof.Claims

/-- A shift or rotate of a source by an amount: under .w it works on bits 31:0 and its result is sign-extended. -/
def shifted (w : Bool) (f : {n : Nat} → BitVec n → Nat → BitVec n) (x : Word) (n : Nat) : Word :=
  if w then (f (x.setWidth 32) n).signExtend 64 else f x n
/-- The amount in a register: its low six bits, or five under .w (R133). -/
def amt (w : Bool) (x : Word) : Nat := x.toNat % width w

end Sys2Proof.Claims

/-- R133: the shifts, rotates and funnel shifts, by a register and by an immediate. -/
def Obligations.IntegerShifts : Prop :=
  (∀ w d a b, Writes (.shl w d a b) d [a, b] fun g => shifted w (· <<< ·) (g a) (amt w (g b))) ∧
  (∀ w d a b, Writes (.shr w d a b) d [a, b] fun g => shifted w (· >>> ·) (g a) (amt w (g b))) ∧
  (∀ w d a b, Writes (.sra w d a b) d [a, b] fun g => shifted w BitVec.sshiftRight (g a) (amt w (g b))) ∧
  (∀ w d a b, Writes (.rol w d a b) d [a, b] fun g => shifted w BitVec.rotateLeft (g a) (amt w (g b))) ∧
  (∀ w d a b, Writes (.ror w d a b) d [a, b] fun g => shifted w BitVec.rotateRight (g a) (amt w (g b))) ∧
  (∀ w d a n, (Instr.shli w d a n).wellFormed = true →
    Writes (.shli w d a n) d [a] fun g => shifted w (· <<< ·) (g a) n.val) ∧
  (∀ w d a n, (Instr.shri w d a n).wellFormed = true →
    Writes (.shri w d a n) d [a] fun g => shifted w (· >>> ·) (g a) n.val) ∧
  (∀ w d a n, (Instr.srai w d a n).wellFormed = true →
    Writes (.srai w d a n) d [a] fun g => shifted w BitVec.sshiftRight (g a) n.val) ∧
  (∀ w d a n, (Instr.roli w d a n).wellFormed = true →
    Writes (.roli w d a n) d [a] fun g => shifted w BitVec.rotateLeft (g a) n.val) ∧
  (∀ w d a n, (Instr.rori w d a n).wellFormed = true →
    Writes (.rori w d a n) d [a] fun g => shifted w BitVec.rotateRight (g a) n.val) ∧
  (∀ d a b c, Writes (.funl false d a b c) d [a, b, c] fun g =>
    ((g a ++ g b) <<< amt false (g c)).extractLsb' 64 64) ∧
  (∀ d a b c, Writes (.funl true d a b c) d [a, b, c] fun g =>
    ((((g a).setWidth 32 ++ (g b).setWidth 32) <<< amt true (g c)).extractLsb' 32 32).signExtend 64) ∧
  (∀ d a b c, Writes (.funr false d a b c) d [a, b, c] fun g =>
    ((g a ++ g b) >>> amt false (g c)).extractLsb' 0 64) ∧
  (∀ d a b c, Writes (.funr true d a b c) d [a, b, c] fun g =>
    ((((g a).setWidth 32 ++ (g b).setWidth 32) >>> amt true (g c)).extractLsb' 0 32).signExtend 64)

namespace Sys2Proof.Claims

/-- The bits of a source over its width, from bit 0. -/
def bitsOf (w : Bool) (x : Word) : List Bool := (List.range (width w)).map x.getLsbD
/-- How many bits stand before the first one. -/
def zerosBefore (l : List Bool) : Nat := (l.takeWhile fun b => !b).length
/-- The number with these bits, from bit 0. -/
def ofBits : List Bool → Nat
  | [] => 0
  | b :: t => b.toNat + 2 * ofBits t

end Sys2Proof.Claims

/-- R134: CLZ, CTZ, POPC, BREV and BSWAP over the bits of the width. -/
def Obligations.IntegerBitCounts : Prop :=
  (∀ w d a, Writes (.clz w d a) d [a] fun g => BitVec.ofNat 64 (zerosBefore (bitsOf w (g a)).reverse)) ∧
  (∀ w d a, Writes (.ctz w d a) d [a] fun g => BitVec.ofNat 64 (zerosBefore (bitsOf w (g a)))) ∧
  (∀ w d a, Writes (.popc w d a) d [a] fun g => BitVec.ofNat 64 ((bitsOf w (g a)).count true)) ∧
  (∀ w d a, Writes (.brev w d a) d [a] fun g => keep w (BitVec.ofNat 64 (ofBits (bitsOf w (g a)).reverse))) ∧
  (∀ d a, Writes (.bswap true d a) d [a] fun g =>
    ((g a).extractLsb' 0 8 ++ (g a).extractLsb' 8 8 ++ (g a).extractLsb' 16 8 ++ (g a).extractLsb' 24 8).signExtend 64) ∧
  (∀ d a, Writes (.bswap false d a) d [a] fun g =>
    (g a).extractLsb' 0 8 ++ (g a).extractLsb' 8 8 ++ (g a).extractLsb' 16 8 ++ (g a).extractLsb' 24 8 ++
    (g a).extractLsb' 32 8 ++ (g a).extractLsb' 40 8 ++ (g a).extractLsb' 48 8 ++ (g a).extractLsb' 56 8)

/-- R135 to R137: EXT, EXTZ and INS within the limits of R130, LI, LIH and LEA. -/
def Obligations.IntegerFieldsAndConstants : Prop :=
  (∀ w d a p l, (Instr.ext w d a p l).wellFormed = true → Writes (.ext w d a p l) d [a] fun g =>
    keep w (((g a).extractLsb' p.val l.val).signExtend 64)) ∧
  (∀ w d a p l, (Instr.extz w d a p l).wellFormed = true → Writes (.extz w d a p l) d [a] fun g =>
    keep w (((g a).extractLsb' p.val l.val).setWidth 64)) ∧
  (∀ w d a p l, (Instr.ins w d a p l).wellFormed = true → Writes (.ins w d a p l) d [d, a] fun g =>
    keep w (((g d) &&& ~~~(BitVec.ofNat 64 ((2 ^ l.val - 1) * 2 ^ p.val))) |||
      ((g a) <<< p.val &&& BitVec.ofNat 64 ((2 ^ l.val - 1) * 2 ^ p.val)))) ∧
  (∀ d i, Writes (.li d i) d [] fun _ => i.signExtend 64) ∧
  (∀ d i, Writes (.lih d i) d [d] fun g => i ++ (g d).extractLsb' 0 40) ∧
  (∀ d b o, Writes (.lea d (.off b o)) d [b] fun g => g b + o.signExtend 64) ∧
  (∀ d b x k, Writes (.lea d (.idx b x k)) d [b, x] fun g => g b + g x * BitVec.ofNat 64 (2 ^ k.val))

/-- What every integer instruction leaves as it was, whether its label is at hand or has to be formed first: every
register but its destination, every special register, the flags, memory, and all that is not its own context. For a
destination g0, whatever the operands are, labelled, HIDDEN or pending, it has no effect but to retire (R128). -/
def Obligations.IntegerFrame : Prop :=
  (∀ (i : Instr) (u : Alu) (s t : State), aluOf i = some u → s.clear i = true → exec i s = .next t →
    s.me.keeps t.me [.g u.d] ∧ s.sameMemory t ∧ s.othersKept t) ∧
  ∀ (i : Instr) (u : Alu) (s : State), aluOf i = some u → u.d = 0 → s.me.raised = 0 →
    exec i s = .next (s.modMe Ctx.retire)

-- Assumption labels (08_labels.md)

/-- R155 to R160: ASSUME, LGET, LSET, LCLR, LTEST, LCOUNT, LENVGET and LUNION. A handle is resolved as the core sees the
label table; an environment beyond the last is 0; LUNION needs equal data unless one of the two is HIDDEN. -/
def Obligations.LabelInstructions : Prop :=
  (∀ (s : State) d n, s.clear (.assume d n) = true →
    exec (.assume d n) s = .next (s.modMe fun c => (c.setG d ⟨1, BitVec.ofNat 16 (n.val + 1)⟩).retire)) ∧
  (∀ (s : State) d a, s.clear (.lget d a) = true →
    exec (.lget d a) s = .next (s.modMe fun c => (c.setG d ⟨(s.lab (s.me.g a).lab).setWidth 64, 0⟩).retire)) ∧
  (∀ (s : State) d a b (h : Handle), s.clear (.lset d a b) = true → s.unlabelled [b] = true →
    (s.me.g b).val = h.setWidth 64 → (s.entryOf s.core s.part h).isSome = true →
    exec (.lset d a b) s = .next (s.modMe fun c => (c.setG d ⟨(s.me.g a).val, h⟩).retire)) ∧
  (∀ (s : State) d, s.clear (.lclr d) = true →
    exec (.lclr d) s = .next (s.modMe fun c => (c.setG d ⟨(s.me.g d).val, 0⟩).retire)) ∧
  (∀ (s : State) d a, s.clear (.ltest d a) = true →
    exec (.ltest d a) s =
      .next (s.modMe fun c => (c.setG d ⟨if s.lab (s.me.g a).lab = 0xFFFF then 1 else 0, 0⟩).retire)) ∧
  (∀ (s : State) d a, s.clear (.lcount d a) = true →
    exec (.lcount d a) s =
      .next (s.modMe fun c => (c.setG d ⟨BitVec.ofNat 64 (s.envsOf s.core s.part (s.me.g a).lab).length, 0⟩).retire)) ∧
  (∀ (s : State) d a b, s.clear (.lenvget d a b) = true → s.unlabelled [b] = true →
    exec (.lenvget d a b) s = .next (s.modMe fun c =>
      (c.setG d ⟨((s.envsOf s.core s.part (s.me.g a).lab)[(s.me.g b).val.toNat]?).getD 0, 0⟩).retire)) ∧
  (∀ (s : State) d a b, s.clear (.lunion d a b) = true → s.lab (s.me.g a).lab = 0xFFFF →
    exec (.lunion d a b) s = .next (s.modMe fun c => (c.setG d ⟨(s.me.g b).val, s.lab (s.me.g b).lab⟩).retire)) ∧
  (∀ (s : State) d a b, s.clear (.lunion d a b) = true → s.lab (s.me.g a).lab ≠ 0xFFFF → s.lab (s.me.g b).lab = 0xFFFF →
    exec (.lunion d a b) s = .next (s.modMe fun c => (c.setG d ⟨(s.me.g a).val, s.lab (s.me.g a).lab⟩).retire)) ∧
  (∀ (s t : State) d a b h, s.clear (.lunion d a b) = true → s.lab (s.me.g a).lab ≠ 0xFFFF →
    s.lab (s.me.g b).lab ≠ 0xFFFF → (s.me.g a).val = (s.me.g b).val →
    s.lookComb true (s.lab (s.me.g a).lab) (s.lab (s.me.g b).lab) = .ok h t →
    exec (.lunion d a b) s = .next (t.modMe fun c => (c.setG d ⟨(s.me.g a).val, h⟩).retire))

namespace Sys2Proof.Claims

/-- A message to a core that was not in the network before is in it now. -/
def Sends (s t : State) (dst : CoreNo) (p : Path) (b : Body) : Prop :=
  ∃ m ∈ t.msgs, m.id = s.nextMsg ∧ m.src = s.core ∧ m.dst = dst ∧ m.path = p ∧ m.body = b

/-- The acting context is a root context. -/
def Root (s : State) : Prop := realKey s.key % 16 = 0

end Sys2Proof.Claims

/-- R158, R161 and R162: NOGOOD sends its environments to the label home, or writes its token at once where the label is
HIDDEN; LWIN sets the window between searches; LFLUSH parks the root context until the label home has answered. -/
def Obligations.LabelHomeInstructions : Prop :=
  (∀ (s : State) t a, s.clear (.nogood t a) = true → t ≠ 0 → s.lab (s.me.g a).lab = 0xFFFF →
    ∃ u, exec (.nogood t a) s = .next u ∧ u.me.g t = ⟨0x100, 0⟩ ∧ u.me.pend = s.me.pend ∧ s.movedOn u ∧ s.sameMemory u) ∧
  (∀ (s : State) t a, s.clear (.nogood t a) = true → t ≠ 0 → s.lab (s.me.g a).lab ≠ 0xFFFF →
    s.envsOf s.core s.part (s.me.g a).lab ≠ [0] →
    ∃ u, exec (.nogood t a) s = .next u ∧ t ∈ u.me.pend ∧ u.me.g t = ⟨(s.me.g t).val, 0⟩ ∧ s.movedOn u ∧
      Sends s u (s.partAt s.part).lhome .th (.nogood s.key t s.me.pc (s.envsOf s.core s.part (s.me.g a).lab))) ∧
  (∀ (s : State) a, s.clear (.lwin a) = true → Root s → s.unlabelled [a] = true → (s.me.g a).val.toNat < 2 ^ 24 →
    (s.partAt s.part).table.all (fun e => decide (e.1 < 65)) = true → (s.partAt s.part).blight = [] →
    exec (.lwin a) s = .next ((s.modPart s.part fun p => { p with lwindow := (s.me.g a).val.setWidth 24 }).modMe Ctx.retire)) ∧
  (∀ (s : State), s.clear .lflush = true → Root s →
    ∃ u, exec .lflush s = .next u ∧ u.me.run = .park .lflush ∧ Sends s u (s.partAt s.part).lhome .th (.lflush s.key))

-- Control transfers and work (06_control.md)

namespace Sys2Proof.Claims

/-- The address of the i-th instruction slot of memory: five slots a line, 64 bytes a line (R86). -/
def slotAddr (i : Nat) : Word := BitVec.ofNat 64 (i / 5 * 64 + i % 5)
/-- A slot inside the 57-bit address space. -/
def SlotOk (i : Nat) : Prop := i / 5 * 64 + i % 5 < 2 ^ 57
/-- A context that has transferred to an address, with the target check of R87 to come. -/
def jumpTo (c : Ctx) (pc : Word) : Ctx := { c.retireTo pc with enter := some c.pc }
/-- The conditions over 64 bits (R117). -/
def taken : Cond → Word → Word → Bool
  | .eq, x, y => x == y
  | .ne, x, y => x != y
  | .lt, x, y => x.slt y
  | .ge, x, y => !x.slt y
  | .lo, x, y => x.ult y
  | .hs, x, y => !x.ult y

end Sys2Proof.Claims

/-- R116, R117 and R119: NOP, BR, BR.cond, CALL, CALLR, JR and LOOP. A displacement counts instructions in program order,
from slot i to slot j. -/
def Obligations.ControlTransfers : Prop :=
  (∀ (s : State), s.clear .nop = true → exec .nop s = .next (s.modMe Ctx.retire)) ∧
  (∀ (s : State) (i j : Nat) (disp : BitVec 40), s.clear (.br disp) = true → s.me.pc = slotAddr i → SlotOk i → SlotOk j →
    (j : Int) = i + disp.toInt → exec (.br disp) s = .next (s.modMe fun c => jumpTo c (slotAddr j))) ∧
  (∀ (s : State) (i j : Nat) c a b (disp : BitVec 40), s.clear (.brCond c a b disp) = true → s.unlabelled [a, b] = true →
    s.me.pc = slotAddr i → SlotOk i → SlotOk j → (j : Int) = i + disp.toInt →
    taken c (s.me.g a).val (s.me.g b).val = true →
    exec (.brCond c a b disp) s = .next (s.modMe fun c => jumpTo c (slotAddr j))) ∧
  (∀ (s : State) c a b (disp : BitVec 40), s.clear (.brCond c a b disp) = true → s.unlabelled [a, b] = true →
    taken c (s.me.g a).val (s.me.g b).val = false →
    exec (.brCond c a b disp) s = .next (s.modMe Ctx.retire)) ∧
  (∀ (s : State) (i j : Nat) (disp : BitVec 40), s.clear (.call disp) = true → s.me.pc = slotAddr i → SlotOk i → SlotOk j →
    (j : Int) = i + disp.toInt →
    exec (.call disp) s = .next (s.modMe fun c => jumpTo (c.setG 62 ⟨nextPc s.me.pc, 0⟩) (slotAddr j))) ∧
  (∀ (s : State) a, s.clear (.callr a) = true → s.unlabelled [a] = true →
    exec (.callr a) s = .next (s.modMe fun c => jumpTo (c.setG 62 ⟨nextPc s.me.pc, 0⟩) (s.me.g a).val)) ∧
  (∀ (s : State) a, s.clear (.jr a) = true → s.unlabelled [a] = true →
    exec (.jr a) s = .next (s.modMe fun c => jumpTo c (s.me.g a).val)) ∧
  (∀ (s : State) (i j : Nat) c (disp : BitVec 40), s.clear (.loop c disp) = true → s.unlabelled [c] = true → c ≠ 0 →
    (s.me.g c).val ≠ 1 → s.me.pc = slotAddr i → SlotOk i → SlotOk j → (j : Int) = i + disp.toInt →
    exec (.loop c disp) s = .next (s.modMe fun x =>
      jumpTo (x.setG c ⟨(s.me.g c).val - 1, (s.me.g c).lab⟩) (slotAddr j))) ∧
  (∀ (s : State) c (disp : BitVec 40), s.clear (.loop c disp) = true → s.unlabelled [c] = true → c ≠ 0 →
    (s.me.g c).val = 1 →
    exec (.loop c disp) s = .next (s.modMe fun x => (x.setG c ⟨0, (s.me.g c).lab⟩).retire)) ∧
  (∀ (s : State) (disp : BitVec 40), s.clear (.loop 0 disp) = true →
    exec (.loop 0 disp) s = .next (s.modMe Ctx.retire))

namespace Sys2Proof.Claims

/-- A displacement that leads from the pc out of the instruction address space (R116). -/
def LeavesSpace (s : State) (disp : BitVec 40) : Prop :=
  ∃ i, s.me.pc = slotAddr i ∧ SlotOk i ∧
    ((i : Int) + disp.toInt < 0 ∨ ∃ j : Nat, (j : Int) = i + disp.toInt ∧ ¬ SlotOk j)
/-- An instruction that decides by registers traps on the first HIDDEN one among them, its number the address operand. -/
def HiddenTraps (i : Instr) (rs : List GReg) : Prop :=
  ∀ (s : State) pre r post, s.clear i = true → rs = pre ++ r :: post →
    (∀ q ∈ pre, s.lab (s.me.g q).lab ≠ 0xFFFF) → s.lab (s.me.g r).lab = 0xFFFF →
    exec i s = .next (s.trap 0x05 0 (BitVec.ofNat 64 r.val))
/-- Where none of them is HIDDEN it traps on the first labelled one (log 75). -/
def LabelledTraps (i : Instr) (rs : List GReg) : Prop :=
  ∀ (s : State) pre r post, s.clear i = true → rs = pre ++ r :: post → (∀ q ∈ rs, s.lab (s.me.g q).lab ≠ 0xFFFF) →
    (∀ q ∈ pre, s.lab (s.me.g q).lab = 0) → s.lab (s.me.g r).lab ≠ 0 →
    exec i s = .next (s.trap 0x06 0 (BitVec.ofNat 64 r.val))

end Sys2Proof.Claims

/-- R116 and R118: BR, BR.cond when taken, CALL, LOOP when it goes on, and SPAWN, with a displacement that leaves the
address space, raise the bad-target trap, with nothing written before; EPC and EADDR both hold the instruction's own
address (the model's choice, log 95). BR.cond, JR, CALLR, LOOP and SPAWN raise the deciding-hidden trap on a HIDDEN register
and the deciding-labelled trap on a labelled one, with the number of the register in EADDR, a HIDDEN one before a labelled one
(the model's reading, log 75). -/
def Obligations.ControlTransferTraps : Prop :=
  (∀ (s : State) (disp : BitVec 40), s.clear (.br disp) = true → LeavesSpace s disp →
    exec (.br disp) s = .next (s.trap 0x03 0 s.me.pc)) ∧
  (∀ (s : State) c a b (disp : BitVec 40), s.clear (.brCond c a b disp) = true → s.unlabelled [a, b] = true →
    taken c (s.me.g a).val (s.me.g b).val = true → LeavesSpace s disp →
    exec (.brCond c a b disp) s = .next (s.trap 0x03 0 s.me.pc)) ∧
  (∀ (s : State) (disp : BitVec 40), s.clear (.call disp) = true → LeavesSpace s disp →
    exec (.call disp) s = .next (s.trap 0x03 0 s.me.pc)) ∧
  (∀ (s : State) c (disp : BitVec 40), s.clear (.loop c disp) = true → s.unlabelled [c] = true → c ≠ 0 →
    (s.me.g c).val ≠ 1 → LeavesSpace s disp → exec (.loop c disp) s = .next (s.trap 0x03 0 s.me.pc)) ∧
  (∀ (s : State) k a b (disp : BitVec 40), s.clear (.spawnMark k a b disp) = true → s.unlabelled [k] = true →
    ((s.me.g k).val = 0 ∨ ∃ l, s.joinSpot (s.me.g k).val [] = .ok l) → LeavesSpace s disp →
    exec (.spawnMark k a b disp) s = .next (s.trap 0x03 0 s.me.pc)) ∧
  (∀ c a b disp, HiddenTraps (.brCond c a b disp) [a, b]) ∧ (∀ c a b disp, LabelledTraps (.brCond c a b disp) [a, b]) ∧
  (∀ a, HiddenTraps (.jr a) [a]) ∧ (∀ a, LabelledTraps (.jr a) [a]) ∧
  (∀ a, HiddenTraps (.callr a) [a]) ∧ (∀ a, LabelledTraps (.callr a) [a]) ∧
  (∀ c disp, HiddenTraps (.loop c disp) [c]) ∧ (∀ c disp, LabelledTraps (.loop c disp) [c]) ∧
  (∀ k a b disp, HiddenTraps (.spawnMark k a b disp) [k]) ∧ (∀ k a b disp, LabelledTraps (.spawnMark k a b disp) [k]) ∧
  (∀ p k a b, HiddenTraps (.spawnReg p k a b) [k, p]) ∧ (∀ p k a b, LabelledTraps (.spawnReg p k a b) [k, p])

namespace Sys2Proof.Claims

/-- The acting context's deque, and its items from the top. -/
def itemsOf (s : State) : List Item :=
  ((s.coreAt s.core).dq ((s.coreAt s.core).half (keySet s.key) ((s.coreAt s.core).tenOf (realKey s.key)))).items
/-- The acting context's deque can take one more entry: no move is under way and an entry is free (R109). -/
def DequeRoom (s : State) : Prop :=
  let h := s.here.half (keySet s.key) (s.here.tenOf (realKey s.key))
  (s.here.dq h).busy = false ∧ entries (s.here.dq h).items + 1 ≤ hwPlaces h
/-- A spawn item with these contents stands at the bottom of the deque, and everything else stands where it stood: the
labels of its arguments are resolved (R147), and its PC has 57 bits (R107). -/
def Pushes (s t : State) (pc join : Word) (a b : LWord) : Prop :=
  ∃ it : Item, itemsOf t = itemsOf s ++ [it] ∧ it.kind = .spawn ∧ it.pc.toNat = pc.toNat % 2 ^ 57 ∧ it.join = join ∧
    it.a = ⟨a.val, s.lab a.lab⟩ ∧ it.b = ⟨b.val, s.lab b.lab⟩ ∧ it.set = keySet s.key
/-- A word of the own local store that a join instruction may name: its place, no word of memory is uncorrectable, and no
request waits at this home. -/
def JoinWord (s : State) (va : Word) (u : Use5) (l : Loc) : Prop :=
  s.joinSpot va u.kinds = .ok l ∧ l.home = s.core ∧ s.here.halted = false ∧ s.store.bad = [] ∧ s.here.parks = []

end Sys2Proof.Claims

/-- R122 to R125: SPAWN pushes a spawn item with the target, the join address and the two labelled arguments; JINIT sets
a join word with the empty label and full; JOIN goes on when the word is 0; DONE of a spawn item takes one off its join
word, and ends the item, in a pool context back to the pool and else to IDLE. -/
def Obligations.WorkItems : Prop :=
  (∀ (s : State) (i j : Nat) k a b disp, s.clear (.spawnMark k a b disp) = true → s.unlabelled [k] = true →
    s.me.pc = slotAddr i → SlotOk i → SlotOk j → (j : Int) = i + disp.toInt →
    ((s.me.g k).val = 0 ∨ ∃ l, s.joinSpot (s.me.g k).val [] = .ok l) → DequeRoom s →
    ∃ t, exec (.spawnMark k a b disp) s = .next t ∧ Pushes s t (slotAddr j) (s.me.g k).val (s.me.g a) (s.me.g b) ∧
      s.movedOn t ∧ s.me.keeps t.me [] ∧ s.sameMemory t) ∧
  (∀ (s : State) p k a b, s.clear (.spawnReg p k a b) = true → s.unlabelled [k, p] = true →
    ((s.me.g k).val = 0 ∨ ∃ l, s.joinSpot (s.me.g k).val [] = .ok l) → DequeRoom s →
    ∃ t, exec (.spawnReg p k a b) s = .next t ∧ Pushes s t (s.me.g p).val (s.me.g k).val (s.me.g a) (s.me.g b) ∧
      s.movedOn t ∧ s.me.keeps t.me [] ∧ s.sameMemory t) ∧
  (∀ (s : State) b n l, s.clear (.jinit b n) = true → s.unlabelled [b] = true → s.Inv →
    (Instr.jinit b n).wellFormed = true → JoinWord s (s.me.g b).val .store l →
    ∃ t, exec (.jinit b n) s = .next t ∧ s.movedOn t ∧ s.me.keeps t.me [] ∧ t.natAt l.ha 4 = n.toNat ∧
      t.tagAt l.ha = 0 ∧ t.fullAt l.ha = true ∧
      (∀ a, (a < l.ha ∨ l.ha + 4 ≤ a) → t.byteAt a = s.byteAt a)) ∧
  (∀ (s : State) b off l, s.clear (.join b off) = true → s.unlabelled [b] = true →
    JoinWord s (s.me.eaOff b off) .load l → s.here.window = [] → s.natAt l.ha 4 = 0 → s.tagAt l.ha = 0 →
    ∃ t, exec (.join b off) s = .next t ∧ s.movedOn t ∧ s.me.keeps t.me [] ∧ s.sameMemory t) ∧
  (∀ (s : State) (it : CurItem) l, s.clear .done = true → ¬ Root s → s.me.pend = [] → s.Inv → s.me.item = some it →
    it.kind = .spawn → it.join ≠ 0 → it.join.toNat / 2 ^ 48 ≠ 0x1FE → s.me.out ≠ .doneOk →
    JoinWord s it.join .store l → s.here.window = [] → s.allPerformed = true → 0 < s.natAt l.ha 4 →
    ∃ t, exec .done s = .next t ∧ t.me.item = none ∧ t.natAt l.ha 4 = s.natAt l.ha 4 - 1 ∧
      t.me.run = (if realKey s.key % 16 ≠ 15 ∧ s.me.pooled then .pool else .idle) ∧ t.me.pc = s.me.goesTo (nextPc s.me.pc) ∧
      (∀ a, (a < l.ha ∨ l.ha + 4 ≤ a) → t.byteAt a = s.byteAt a)) ∧
  (∀ (s : State), s.clear .done = true → ¬ Root s → s.me.pend = [] → s.allPerformed = true →
    (∀ it, s.me.item = some it → it.kind ≠ .spawn ∨ it.join = 0) →
    ∃ t, exec .done s = .next t ∧ t.me.item = none ∧
      t.me.run = (if realKey s.key % 16 ≠ 15 ∧ s.me.pooled then .pool else .idle) ∧ t.me.pc = s.me.goesTo (nextPc s.me.pc) ∧
      s.sameMemory t)

namespace Sys2Proof.Claims

/-- A mask of contexts 1 to 14 (R52). -/
def MaskOk (x : Word) : Prop := x.toNat < 2 ^ 16 ∧ x.getLsbD 0 = false ∧ x.getLsbD 15 = false

end Sys2Proof.Claims

/-- R120, R121, R126 and R379: START puts the masked IDLE contexts into RUN, or with .pool into POOL, at the next
instruction, with the root's g registers and stack pointers 0x1000 apart; REAP takes the masked pool contexts back once
they are in POOL with no item left; YIELD parks; IDLE ends the root context's work. -/
def Obligations.ContextControl : Prop :=
  (∀ (s : State) a (pool : Bool), s.clear (if pool then .startPool a else .start a) = true → Root s →
    MaskOk (s.me.g a).val → s.lab (s.me.g a).lab = 0 →
    (∀ n, n < 16 → (s.me.g a).val.getLsbD n = true → (s.ctxAt s.core (s.key + n)).run = .idle) →
    ∃ t, exec (if pool then .startPool a else .start a) s = .next t ∧ s.movedOn t ∧ s.me.keeps t.me [] ∧ s.sameMemory t ∧
      ∀ n, n < 16 → (s.me.g a).val.getLsbD n = true →
        (t.ctxAt s.core (s.key + n)).run = (if pool then .pool else .run) ∧
        (t.ctxAt s.core (s.key + n)).pooled = pool ∧
        (t.ctxAt s.core (s.key + n)).pc = nextPc s.me.pc ∧
        (∀ r : GReg, r ≠ 63 → (t.ctxAt s.core (s.key + n)).g r = s.me.g r) ∧
        ((t.ctxAt s.core (s.key + n)).g 63).val = (s.me.g 63).val - BitVec.ofNat 64 (0x1000 * n)) ∧
  (∀ (s : State) a, s.clear (.reap a) = true → Root s → s.unlabelled [a] = true → MaskOk (s.me.g a).val →
    (∀ n, n < 16 → (s.me.g a).val.getLsbD n = true → (s.ctxAt s.core (s.key + n)).pooled = true) →
    s.reapReady s.core s.key ((s.me.g a).val.setWidth 16) = true →
    ∃ t, exec (.reap a) s = .next t ∧ s.movedOn t ∧ s.me.keeps t.me [] ∧ s.sameMemory t ∧
      ∀ n, n < 16 → (s.me.g a).val.getLsbD n = true →
        (t.ctxAt s.core (s.key + n)).run = .idle ∧ (t.ctxAt s.core (s.key + n)).pooled = false) ∧
  (∀ (s : State), s.clear .yield = true → realKey s.key % 16 ≠ 15 →
    ∃ t, exec .yield s = .next t ∧ t.me.run = .park (.yield (s.cycleOf (pkgOf s.core))) ∧ t.me.pc = s.me.goesTo (nextPc s.me.pc) ∧
      s.me.keeps t.me [] ∧ s.onlyMe t) ∧
  (∀ (s : State), s.clear .idle = true → Root s → (s.here.resident[keySet s.key]?.getD {}).held = false →
    s.me.pend = [] → s.waitingLaunch s.core = none →
    ∃ t, exec .idle s = .next t ∧ t.me.run = .idle ∧ t.me.item = none ∧ t.me.pc = s.me.goesTo (nextPc s.me.pc) ∧ s.sameMemory t)

-- Traps and returns (20_system.md)

namespace Sys2Proof.Claims

/-- A trap can be taken: none is held, there is a handler, and it is not the resident handler that runs (R342, R344). -/
def CanTrap (s : State) : Prop :=
  s.me.eheld = false ∧ s.me.tvec ≠ 0 ∧
  (s.key % 16 = 0 → (s.here.resident[s.key / 16]?.getD {}).held = false)
/-- ECAUSE of a precise trap (R340): number in bits 31:24, bit 22 for the second instruction of a pair, detail below. -/
def cause (trap detail : Nat) (slot2 : Bool) : Word :=
  (BitVec.ofNat 64 trap <<< 24) ||| (if slot2 then 0x400000 else 0) ||| BitVec.ofNat 64 (detail % 65536)
/-- The next entry of a partition's error log says this (R358), and the log's number moves on. -/
def Logs (s t : State) (k : PartKey) (code : Nat) (addr : Word) (core : CoreNo) (ctx : Nat) (pc : Word) : Prop :=
  (t.partAt k).seq = (s.partAt k).seq + 1 ∧
  t.natAt ((s.partAt k).elog + 32 * ((s.partAt k).seq.toNat % 64)) 32 =
    1 + (s.partAt k).seq.toNat * 2 ^ 16 + code * 2 ^ 32 + ctx % 16 * 2 ^ 40 + core.toNat * 2 ^ 44 + addr.toNat * 2 ^ 64 +
      pc.toNat * 2 ^ 128 + s.cycleOf k.pkg % 2 ^ 64 * 2 ^ 192

end Sys2Proof.Claims

/-- R342: a precise trap saves the address of the instruction (of a pair, its first), the cause and the address operand,
sets EHELD, and goes on at TVEC, where the target check names the trapping instruction; the registers that a pair's
first instruction wrote are put back; nothing else changes. -/
def Obligations.TrapEntry : Prop :=
  ∀ (s : State) (trap detail : Nat) (ea : Word), CanTrap s → trap < 256 →
    (s.trap trap detail ea).me.epc = (match s.me.pair with | some p => p.first | none => s.me.pc) ∧
    (s.trap trap detail ea).me.ecause = cause trap detail s.me.slot2 ∧
    (s.trap trap detail ea).me.eaddr = ea ∧ (s.trap trap detail ea).me.eheld = true ∧
    (s.trap trap detail ea).me.pc = s.me.tvec ∧ (s.trap trap detail ea).me.run = .run ∧
    (s.trap trap detail ea).me.enter = some s.me.pc ∧
    (s.trap trap detail ea).me.regs = ((s.me.pair.bind (·.undo)).getD s.me.regs) ∧
    (s.trap trap detail ea).me.fflags = s.me.fflags ∧ s.onlyMe (s.trap trap detail ea)

/-- R347: TRAP n takes the software trap with DETAIL n, and DBGBRK the debug break, with EPC at the next instruction in
program order; with a debugger attached DBGBRK stops the context after it instead. -/
def Obligations.TrapAndDebugBreak : Prop :=
  (∀ (s : State) (n : BitVec 40), s.clear (.trap n) = true → CanTrap s → (Instr.trap n).wellFormed = true →
    ∃ t, exec (.trap n) s = .next t ∧ t.me.epc = nextPc s.me.pc ∧ t.me.ecause = cause 0x1F n.toNat s.me.slot2 ∧
      t.me.eheld = true ∧ t.me.pc = s.me.tvec ∧ t.me.run = .run ∧ t.me.regs = s.me.regs ∧ s.sameMemory t) ∧
  (∀ (s : State), s.clear .dbgbrk = true → CanTrap s → s.me.dbg.attach = false →
    ∃ t, exec .dbgbrk s = .next t ∧ t.me.epc = nextPc s.me.pc ∧ t.me.ecause = cause 0x21 0 s.me.slot2 ∧
      t.me.eheld = true ∧ t.me.pc = s.me.tvec ∧ t.me.run = .run ∧ t.me.regs = s.me.regs ∧ s.sameMemory t) ∧
  (∀ (s : State), s.clear .dbgbrk = true → s.me.dbg.attach = true →
    exec .dbgbrk s = .next (s.modMe fun c => { c.retire with stopped := true }))

/-- R345: ERET from a trap handler clears EHELD and goes on at EPC without a target check, replaying the retry latch where
EPC still names its instruction and discarding it where it does not; with neither handler running it is illegal. -/
def Obligations.ReturnFromTrap : Prop :=
  (∀ (s : State), s.clear .eret = true → s.me.eheld = true → (Root s → (s.here.resident[s.key / 16]?.getD {}).held = false) →
    s.ctx.val = s.key % 16 →
    ∃ t, exec .eret s = .next t ∧ t.me.eheld = false ∧ t.me.pc = s.me.epc ∧ t.me.run = .run ∧ t.me.regs = s.me.regs ∧
      t.me.enter = s.me.enter ∧ t.me.epc = s.me.epc ∧ s.sameMemory t ∧
      (∀ l, s.me.latch = some l → l.pc = s.me.epc → t.me.replay = true ∧ t.me.latch = some l) ∧
      (∀ l, s.me.latch = some l → l.pc ≠ s.me.epc → t.me.latch = none)) ∧
  (∀ (s : State), s.clear .eret = true → s.me.eheld = false → (Root s → (s.here.resident[s.key / 16]?.getD {}).held = false) →
    s.ctx.val = s.key % 16 → exec .eret s = .next (s.trap 0x01 0 s.me.pc))

/-- R343 and R344: with EHELD already 1 a second precise trap does not overwrite EPC, ECAUSE or EADDR: the context parks
with no wake condition, and its root context is told event 0x22; one of the root context halts the core. -/
def Obligations.DoubleTrap : Prop :=
  ∀ (s : State) (trap detail : Nat) (ea : Word), s.me.eheld = true →
    (s.key % 16 = 0 → (s.here.resident[s.key / 16]?.getD {}).held = false) →
    (s.trap trap detail ea).me.run = .park .dead ∧ (s.trap trap detail ea).me.epc = s.me.epc ∧
    (s.trap trap detail ea).me.ecause = s.me.ecause ∧ (s.trap trap detail ea).me.eaddr = s.me.eaddr ∧
    (s.key % 16 = 0 → ((s.trap trap detail ea).coreAt s.core).halted = true) ∧
    (s.key % 16 ≠ 0 → s.here.rvec ≠ 0 → ∃ e ∈ ((s.trap trap detail ea).coreAt s.core).events,
      e.trap = 0x22 ∧ e.detail = s.key % 16)

/-- R103: every instruction that reads a pending token waits for it, with nothing written, and every one that would write
a pending token is illegal, by the registers of Instr.use; one that does both is illegal at once (the model's reading,
log 76). An integer instruction to g0 has no effect and reads nothing (R128). -/
def Obligations.PendingTokens : Prop :=
  (∀ (s : State) i w, encode i = some w → i.inert = false → (∃ r ∈ gRefs i.use.w, r ∈ s.me.pend) →
    exec i s = .next (s.trap 0x01 0 s.me.pc)) ∧
  (∀ (s : State) i w, encode i = some w → i.inert = false → s.slotIllegal i = false →
    (∃ r ∈ gRefs i.use.r, r ∈ s.me.pend) →
    ∃ t r, exec i s = .next t ∧ r ∈ gRefs i.use.r ∧ r ∈ s.me.pend ∧ t.me.run = .wait (.token r) ∧ t.me.pc = s.me.pc ∧
      s.me.keeps t.me [] ∧ s.sameMemory t ∧ s.othersKept t) ∧
  (∀ (s : State) w d a b, d ∈ s.me.pend → d ≠ 0 → exec (.add w d a b) s = .next (s.trap 0x01 0 s.me.pc)) ∧
  (∀ (s : State) a, a ∈ s.me.pend → s.slotIllegal (.jr a) = false →
    ∃ t, exec (.jr a) s = .next t ∧ t.me.run = .wait (.token a) ∧ t.me.pc = s.me.pc ∧ s.me.keeps t.me [])

-- Memory (10_memory.md)

namespace Sys2Proof.Claims

/-- An access whose home is the acting core itself, which answers and where no other request waits; it is the acting
context's turn there (R186), and no word of memory is uncorrectable. -/
def OwnHome (s : State) (l : Loc) : Prop :=
  l.home = s.core ∧ l.peer = false ∧ s.here.halted = false ∧ s.store.bad = [] ∧ s.here.parks = [] ∧ s.inOwnTurn = true
/-- The state once an access of the acting context has reached its own core's store, whose arrival the core notes
(R186). -/
def arrives (s : State) : State := s.arrival s.core s.core .th (realKey s.key % 16)
/-- The little-endian value of n bytes as a program reads them: a label or rule table shows at its place in HBM. -/
def readNat (s : State) (ha n : Nat) : Nat := leNat (s.readAt ha n)
/-- What an access that is a release waits for has happened, and its home holds no earlier release. -/
def Ordered (s : State) (sc : Option Scope) : Prop := ∀ x, sc = some x → s.orderly x = true ∧ s.here.window = []
/-- The label that n bytes of a place load: their words' labels resolve to the empty label, or one of them to h (R152). -/
def Loads (s : State) (l : Loc) (n : Nat) (h : Handle) : Prop :=
  ((s.loadLabs (s.req .load l 0 n)).map s.lab).filter (· != 0) = if h = 0 then [] else [h]
/-- n bytes from an address on hold a value, and every other byte is as it was. -/
def Stored (s t : State) (ha n v : Nat) : Prop :=
  t.natAt ha n = v % 2 ^ (8 * n) ∧ ∀ a, (a < ha ∨ ha + n ≤ a) → t.byteAt a = s.byteAt a
/-- The labels of the local store words of n bytes are h, and every other word's is as it was. -/
def Tagged (s t : State) (ha n : Nat) (h : Handle) : Prop :=
  (∀ i, 4 * i < n → t.tagAt (ha + 4 * i) = h) ∧ ∀ a, (a / 4 * 4 + 4 ≤ ha ∨ ha + n ≤ a / 4 * 4) → t.tagAt a = s.tagAt a
/-- Every byte and every stored label is as it was. -/
def SameContents (s t : State) : Prop := (∀ a, t.byteAt a = s.byteAt a) ∧ ∀ a, t.tagAt a = s.tagAt a
/-- The full-empty bits of the words of n bytes are set or cleared, and every other word's is as it was. -/
def Filled (s t : State) (ha n : Nat) (full : Bool) : Prop :=
  (∀ i, 4 * i < n → t.fullAt (ha + 4 * i) = full) ∧
  ∀ a, (a / 4 * 4 + 4 ≤ ha ∨ ha + n ≤ a / 4 * 4) → t.fullAt a = s.fullAt a
/-- A context whose stream data fetched ahead an acquire discards (R212). -/
def acquired (acq : Bool) (c : Ctx) : Ctx := if acq then c.dropAhead else c

end Sys2Proof.Claims

/-- R177 for LD, LDZ and FLD at the own core's memory: the little-endian value, sign-extended by LD and zero-extended by
LDZ and FLD, with the label of its words; nothing else changes. -/
def Obligations.LoadInstructions : Prop :=
  (∀ (s : State) sz acq xp d m l h, s.clear (.ld sz acq xp d m) = true → s.unlabelled m.regs = true →
    s.check (s.me.ea m) (sizeBytes sz) (sizeBytes sz) .load = .ok l → OwnHome s l →
    (acq.isSome = true → s.here.window = []) → Loads s l (sizeBytes sz) h →
    exec (.ld sz acq xp d m) s = .next ((arrives s).modMe fun c => ((acquired acq.isSome c).setG d
      ⟨(BitVec.ofNat (8 * sizeBytes sz) (readNat s l.ha (sizeBytes sz))).signExtend 64, h⟩).retire)) ∧
  (∀ (s : State) sz acq xp d m l h, s.clear (.ldz sz acq xp d m) = true → s.unlabelled m.regs = true →
    s.check (s.me.ea m) (sizeBytes sz) (sizeBytes sz) .load = .ok l → OwnHome s l →
    (acq.isSome = true → s.here.window = []) → Loads s l (sizeBytes sz) h →
    exec (.ldz sz acq xp d m) s = .next ((arrives s).modMe fun c => ((acquired acq.isSome c).setG d
      ⟨BitVec.ofNat 64 (readNat s l.ha (sizeBytes sz)), h⟩).retire)) ∧
  (∀ (s : State) sz acq d m l h, s.clear (.fld sz acq d m) = true → s.unlabelled m.regs = true →
    s.check (s.me.ea m) (wdBytes sz) (wdBytes sz) .load = .ok l → OwnHome s l →
    (acq.isSome = true → s.here.window = []) → Loads s l (wdBytes sz) h →
    exec (.fld sz acq d m) s = .next ((arrives s).modMe fun c => ((acquired acq.isSome c).setF d
      ⟨BitVec.ofNat 64 (readNat s l.ha (wdBytes sz)), h⟩).retire))

namespace Sys2Proof.Claims

/-- What a store of n bytes of a labelled value does at a place of the own core. In local store each word takes the
value's label, resolved (R147); in a page without a label plane only an unlabelled value is stored; with a plane each
word's handle there is written (R150, R152). -/
def StoresTo (s t : State) (l : Loc) (n : Nat) (v : LWord) : Prop :=
  s.movedOn t ∧ s.me.keeps t.me [] ∧ s.othersKept t ∧ (∀ a, t.fullAt a = s.fullAt a) ∧
  (l.ls = true → (4 ≤ n ∨ (s.tagAt l.ha = 0 ∧ v.lab = 0)) →
    Stored s t l.ha n v.val.toNat ∧ Tagged s t l.ha n (s.lab v.lab)) ∧
  (l.ls = false → l.plane = none → Stored s t l.ha n v.val.toNat ∧ ∀ a, t.tagAt a = s.tagAt a) ∧
  (∀ p, l.ls = false → l.plane = some p → 4 ≤ n → (p + n / 2 ≤ l.ha ∨ l.ha + n ≤ p) →
    t.natAt l.ha n = v.val.toNat % 2 ^ (8 * n) ∧ (∀ i, 4 * i < n → t.natAt (p + 2 * i) 2 = (s.lab v.lab).toNat) ∧
    (∀ a, (a < l.ha ∨ l.ha + n ≤ a) → (a < p ∨ p + n / 2 ≤ a) → t.byteAt a = s.byteAt a) ∧ ∀ a, t.tagAt a = s.tagAt a)
/-- A place that can take a value of n bytes: not in a page that maps the label table or heap (R139); a labelled value
needs a place with labels, and one narrower than a word is here an unlabelled one over an unlabelled word. -/
def Takes (s : State) (l : Loc) (n : Nat) (v : LWord) : Prop :=
  l.fixed = false ∧ s.readOnly l.ha n = false ∧ (v.lab = 0 ∨ l.ls = true ∨ l.plane.isSome = true) ∧
  (4 ≤ n ∨ (v.lab = 0 ∧ s.wordLab (s.req .load l 0 n) 0 = 0))

end Sys2Proof.Claims

/-- R177 for ST, ST.rel, ST.post and FST at the own core's memory: the low bytes of the value are stored at the address
the operand gives, little-endian, its label with them, and no other byte of memory changes. -/
def Obligations.StoreInstructions : Prop :=
  (∀ (s : State) sz o a m l, s.clear (.st sz o a m) = true → s.unlabelled m.regs = true → s.Inv →
    s.check (s.me.ea m) (sizeBytes sz) (sizeBytes sz) .store (o == .post) = .ok l → OwnHome s l →
    Ordered s (StOrd.rel? o) → Takes s l (sizeBytes sz) (s.me.g a) →
    ∃ t, exec (.st sz o a m) s = .next t ∧ StoresTo s t l (sizeBytes sz) (s.me.g a)) ∧
  (∀ (s : State) sz rel a m l, s.clear (.fst sz rel a m) = true → s.unlabelled m.regs = true → s.Inv →
    s.check (s.me.ea m) (wdBytes sz) (wdBytes sz) .store = .ok l → OwnHome s l →
    Ordered s rel → Takes s l (wdBytes sz) (s.me.f a) →
    ∃ t, exec (.fst sz rel a m) s = .next t ∧ StoresTo s t l (wdBytes sz) (s.me.f a))

/-- R179: LDS takes a full word and leaves it empty, LDF leaves it full, STS fills an empty word, STF fills any word and
FECLR empties one; LDS of an empty word parks its context in the home's park table. -/
def Obligations.SynchronisingAccesses : Prop :=
  (∀ (s : State) sz d m l h, s.clear (.lds sz d m) = true → s.unlabelled m.regs = true →
    s.check (s.me.ea m) (wdBytes sz) (wdBytes sz) .sync = .ok l → OwnHome s l → s.here.window = [] →
    (∀ i, 4 * i < wdBytes sz → s.fullAt (l.ha + 4 * i) = true) → Loads s l (wdBytes sz) h →
    ∃ t, exec (.lds sz d m) s = .next t ∧ s.movedOn t ∧ s.me.keeps t.me [.g d] ∧ SameContents s t ∧
      (d ≠ 0 → t.me.g d = ⟨(BitVec.ofNat (8 * wdBytes sz) (s.natAt l.ha (wdBytes sz))).signExtend 64, h⟩) ∧
      Filled s t l.ha (wdBytes sz) false) ∧
  (∀ (s : State) sz d m l h, s.clear (.ldf sz d m) = true → s.unlabelled m.regs = true →
    s.check (s.me.ea m) (wdBytes sz) (wdBytes sz) .sync = .ok l → OwnHome s l → s.here.window = [] →
    (∀ i, 4 * i < wdBytes sz → s.fullAt (l.ha + 4 * i) = true) → Loads s l (wdBytes sz) h →
    exec (.ldf sz d m) s = .next ((arrives s).modMe fun c => ((acquired true c).setG d
      ⟨(BitVec.ofNat (8 * wdBytes sz) (s.natAt l.ha (wdBytes sz))).signExtend 64, h⟩).retire)) ∧
  (∀ (s : State) sz a m l, s.clear (.sts sz a m) = true → s.unlabelled m.regs = true → s.Inv →
    s.check (s.me.ea m) (wdBytes sz) (wdBytes sz) .sync = .ok l → OwnHome s l → Ordered s (some .co) →
    (∀ i, 4 * i < wdBytes sz → s.fullAt (l.ha + 4 * i) = false) →
    ∃ t, exec (.sts sz a m) s = .next t ∧ s.movedOn t ∧ s.me.keeps t.me [] ∧
      Stored s t l.ha (wdBytes sz) (s.me.g a).val.toNat ∧ Tagged s t l.ha (wdBytes sz) (s.lab (s.me.g a).lab) ∧
      Filled s t l.ha (wdBytes sz) true) ∧
  (∀ (s : State) sz a m l, s.clear (.stf sz a m) = true → s.unlabelled m.regs = true → s.Inv →
    s.check (s.me.ea m) (wdBytes sz) (wdBytes sz) .sync = .ok l → OwnHome s l → Ordered s (some .co) →
    ∃ t, exec (.stf sz a m) s = .next t ∧ s.movedOn t ∧ s.me.keeps t.me [] ∧
      Stored s t l.ha (wdBytes sz) (s.me.g a).val.toNat ∧ Tagged s t l.ha (wdBytes sz) (s.lab (s.me.g a).lab) ∧
      Filled s t l.ha (wdBytes sz) true) ∧
  (∀ (s : State) m l, s.clear (.feclr m) = true → s.unlabelled m.regs = true →
    s.check (s.me.ea m) 4 4 .sync = .ok l → OwnHome s l →
    ∃ t, exec (.feclr m) s = .next t ∧ s.movedOn t ∧ s.me.keeps t.me [] ∧ SameContents s t ∧ Filled s t l.ha 4 false) ∧
  (∀ (s : State) sz d m l, s.clear (.lds sz d m) = true → s.unlabelled m.regs = true →
    s.check (s.me.ea m) (wdBytes sz) (wdBytes sz) .sync = .ok l → OwnHome s l → s.fullAt l.ha = false →
    ∃ t, exec (.lds sz d m) s = .next t ∧ t.me.run = .park .home ∧ t.me.pc = s.me.pc ∧ s.me.keeps t.me [] ∧
      s.sameMemory t ∧ ∃ e, t.here.parks = [e] ∧ e.req.act = .lds ∧ e.req.ha = l.ha ∧ e.req.who = .ctx s.key)

/-- R187 and R189: FENCE at a scope goes on once the context's stores to homes inside it have been performed, and waits
before; .sy also drops the fetched lines. FENCE.x goes on once what the named engines had accepted has completed. -/
def Obligations.Fences : Prop :=
  (∀ (s : State) sc, s.clear (.fence sc) = true → s.orderly sc = true →
    ∃ t, exec (.fence sc) s = .next t ∧ s.movedOn t ∧ s.me.keeps t.me [] ∧ s.sameMemory t ∧ s.othersKept t ∧
      (sc = .sy → t.here.lines = [])) ∧
  (∀ (s : State) sc, s.clear (.fence sc) = true → s.orderly sc = false →
    exec (.fence sc) s = .next (s.modMe fun c => { c with run := .wait .order })) ∧
  (∀ (s : State) p q, s.clear (.fenceX p q) = true → ((p = .th ∨ q = .th) → s.allPerformed = true) →
    s.here.copyEng.buf = [] → s.here.xformEng.buf = [] → s.me.goal = [] →
    ((p = .cp ∨ q = .cp) → s.here.copyEng.accepted ≤ s.here.copyEng.completed) →
    ((p = .xf ∨ q = .xf) → s.here.xformEng.accepted ≤ s.here.xformEng.completed) →
    ((p = .mx ∨ q = .mx) → s.here.matrix.h0.accepted ≤ s.here.matrix.h0.completed ∧
      s.here.matrix.h1.accepted ≤ s.here.matrix.h1.completed) →
    ∃ t, exec (.fenceX p q) s = .next t ∧ s.movedOn t ∧ s.me.keeps t.me [] ∧ s.sameMemory t ∧ s.othersKept t ∧
      ((p = .gr ∨ q = .gr) → t.here.groups = [])) ∧
  (∀ (s : State) p q, s.clear (.fenceX p q) = true → s.me.goal = [] → (p = .cp ∨ q = .cp) →
    s.here.copyEng.completed < s.here.copyEng.accepted →
    ∃ t, exec (.fenceX p q) s = .next t ∧ t.me.run = .wait .order ∧ t.me.pc = s.me.pc ∧ s.me.keeps t.me [] ∧
      s.sameMemory t)

namespace Sys2Proof.Claims

/-- A precise trap of the acting context's instruction has been taken (R340, R342). -/
def Trapped (s t : State) (trap detail : Nat) (ea : Word) : Prop :=
  t.me.epc = (match s.me.pair with | some p => p.first | none => s.me.pc) ∧
  t.me.ecause = cause trap detail s.me.slot2 ∧ t.me.eaddr = ea ∧ t.me.eheld = true ∧ t.me.pc = s.me.tvec ∧
  t.me.run = .run

end Sys2Proof.Claims

/-- R168, R170, R177 and R182: an address beyond 57 bits, one of the group window, and a window's address that names no
core are refused with their codes in DETAIL, the virtual address in EADDR; a misaligned one raises trap 0x08; a
synchronising access outside the windows is refused with 0x06; an address with no cached translation waits for a walk; a
store to the own core's memory in a page that maps the label table or heap is refused with 0x05 (R139). -/
def Obligations.AccessTraps : Prop :=
  (∀ (s : State) sz a m l, s.clear (.st sz .plain a m) = true → s.unlabelled m.regs = true → CanTrap s →
    s.check (s.me.ea m) (sizeBytes sz) (sizeBytes sz) .store = .ok l → OwnHome s l →
    (l.fixed = true ∨ s.readOnly l.ha (sizeBytes sz) = true) →
    ∃ t, exec (.st sz .plain a m) s = .next t ∧ Trapped s t 0x07 0x05 (s.me.ea m) ∧ ∀ x, t.tagAt x = s.tagAt x) ∧
  (∀ (s : State) sz acq xp d m, s.clear (.ld sz acq xp d m) = true → s.unlabelled m.regs = true → CanTrap s →
    2 ^ 57 ≤ (s.me.ea m).toNat →
    ∃ t, exec (.ld sz acq xp d m) s = .next t ∧ Trapped s t 0x07 0x01 (s.me.ea m)) ∧
  (∀ (s : State) sz acq xp d m, s.clear (.ld sz acq xp d m) = true → s.unlabelled m.regs = true → CanTrap s →
    (s.me.ea m).toNat / 2 ^ 48 = 0x1FD →
    ∃ t, exec (.ld sz acq xp d m) s = .next t ∧ Trapped s t 0x07 0x05 (s.me.ea m)) ∧
  (∀ (s : State) sz rel a m, s.clear (.fst sz rel a m) = true → s.unlabelled m.regs = true → CanTrap s →
    (s.me.ea m).toNat / 2 ^ 48 = 0x1FE → 2 ^ 20 ≤ (s.me.ea m).toNat % 2 ^ 48 →
    ∃ t, exec (.fst sz rel a m) s = .next t ∧ Trapped s t 0x07 0x01 (s.me.ea m)) ∧
  (∀ (s : State) sz o a m, s.clear (.st sz o a m) = true → s.unlabelled m.regs = true →
    s.window s.core s.key (s.me.ea m).toNat = none → (s.me.ea m).toNat % sizeBytes sz ≠ 0 →
    exec (.st sz o a m) s = .next (s.trap 0x08 0 (s.me.ea m))) ∧
  (∀ (s : State) sz d m, s.clear (.lds sz d m) = true → s.unlabelled m.regs = true → CanTrap s →
    (s.me.ea m).toNat < 0x1FD000000000000 →
    ∃ t, exec (.lds sz d m) s = .next t ∧ Trapped s t 0x07 0x06 (s.me.ea m)) ∧
  (∀ (s : State) sz acq xp d m, s.clear (.ldz sz acq xp d m) = true → s.unlabelled m.regs = true →
    (s.me.ea m).toNat < 0x1FD000000000000 → (s.me.ea m).toNat % sizeBytes sz = 0 →
    (∀ i (h : i < 4), (s.me.watch[i]).getLsbD 63 = false) → s.here.tlb = [] →
    exec (.ldz sz acq xp d m) s = .next (s.modMe fun c => { c with run := .wait (.walk (s.me.ea m)) }))

/-- R178, R183 and R184: a load of another core's memory sends a request on the thread path and waits for the reply; a
store there takes the lowest free journal entry, where no other context waits for one, sends its request and goes on;
ST.post sends one and goes on with no entry; with the journal full a store waits. -/
def Obligations.RemoteAccesses : Prop :=
  (∀ (s : State) sz acq xp d m l, s.clear (.ld sz acq xp d m) = true → s.unlabelled m.regs = true →
    s.check (s.me.ea m) (sizeBytes sz) (sizeBytes sz) .load = .ok l → l.home ≠ s.core →
    ∃ t r, exec (.ld sz acq xp d m) s = .next t ∧ t.me.run = .wait .reply ∧ t.me.pc = s.me.pc ∧ s.me.keeps t.me [] ∧
      s.sameMemory t ∧ Sends s t l.home .th (.req r) ∧ r.act = .load ∧ r.src = s.core ∧ r.who = .ctx s.key ∧
      r.va = s.me.ea m ∧ r.ha = l.ha ∧ r.n = sizeBytes sz ∧ r.acq = acq) ∧
  (∀ (s : State) sz a m l e, s.clear (.st sz .plain a m) = true → s.unlabelled m.regs = true →
    s.check (s.me.ea m) (sizeBytes sz) (sizeBytes sz) .store = .ok l → l.home ≠ s.core → s.here.jqueue = [] →
    s.here.freeEntry = some e →
    ∃ t r j, exec (.st sz .plain a m) s = .next t ∧ s.movedOn t ∧ s.me.keeps t.me [] ∧ s.sameMemory t ∧
      Sends s t l.home .th (.req r) ∧ r.act = .store (2 ^ sizeBytes sz - 1) ∧ r.who = .journal e ∧
      r.data = leBytes (sizeBytes sz) (s.me.g a).val.toNat ∧ r.labs = [s.lab (s.me.g a).lab] ∧ r.va = s.me.ea m ∧
      t.here.journal[e]? = some j ∧ j.st = .outstanding ∧ j.addr = s.me.ea m ∧ j.pc = s.me.pc ∧
      t.here.jcount = s.here.jcount + 1) ∧
  (∀ (s : State) sz a m l, s.clear (.st sz .post a m) = true → s.unlabelled m.regs = true →
    s.check (s.me.ea m) (sizeBytes sz) (sizeBytes sz) .store true = .ok l → l.home ≠ s.core →
    ∃ t r, exec (.st sz .post a m) s = .next t ∧ s.movedOn t ∧ s.me.keeps t.me [] ∧ s.sameMemory t ∧
      Sends s t l.home .th (.req r) ∧ r.who = .nobody ∧ r.post = true ∧ r.va = s.me.ea m ∧
      t.here.journal = s.here.journal) ∧
  (∀ (s : State) sz a m l, s.clear (.st sz .plain a m) = true → s.unlabelled m.regs = true →
    s.check (s.me.ea m) (sizeBytes sz) (sizeBytes sz) .store = .ok l → l.home ≠ s.core → s.here.freeEntry = none →
    ∃ t, exec (.st sz .plain a m) s = .next t ∧ t.me.run = .wait .journal ∧ t.me.pc = s.me.pc ∧ s.me.keeps t.me [] ∧
      s.key ∈ t.here.jwait ∧ t.here.journal = s.here.journal ∧ t.msgs = s.msgs ∧ s.sameMemory t)

-- Atomics, migrant blocks, barriers and group loads (13_atomics.md)

namespace Sys2Proof.Claims

/-- A place of the own core for an atomic: not in a page that maps the label table or heap (R139); its words are
unlabelled, and a page's label plane lies apart from it. -/
def AtomPlace (s : State) (l : Loc) (n : Nat) : Prop :=
  OwnHome s l ∧ l.fixed = false ∧ s.readOnly l.ha n = false ∧ (∀ x ∈ s.loadLabs (s.req .load l 0 n), x = 0) ∧
  ∀ p, l.plane = some p → p + n / 2 ≤ l.ha ∨ l.ha + n ≤ p
/-- What an atomic's ordering asks for (R224). -/
def AtomOrder (s : State) (o : AtOrd) : Prop :=
  ((AtOrd.acq? o).isSome = true → s.here.window = []) ∧ Ordered s (AtOrd.rel? o)
/-- What an atomic leaves: the new value in its bytes, every other byte, stored label and full-empty bit as it was. -/
def AtomLeaves (s t : State) (l : Loc) (n v : Nat) : Prop :=
  s.movedOn t ∧ s.othersKept t ∧ Stored s t l.ha n v ∧ (∀ a, t.tagAt a = s.tagAt a) ∧ ∀ a, t.fullAt a = s.fullAt a
/-- An integer atomic with a result: gD takes the old value, sign-extended, and memory the new one. -/
def Atomic (i : SizeWD → AtOrd → GReg → GReg → BitVec 40 → GReg → Instr) (f : (n : Nat) → BitVec n → BitVec n → BitVec n) :
    Prop :=
  ∀ (s : State) sz o d b off a l, s.clear (i sz o d b off a) = true → s.unlabelled [b] = true → s.Inv →
    s.check (s.me.eaOff b off) (wdBytes sz) (wdBytes sz) .atomic = .ok l → AtomPlace s l (wdBytes sz) →
    (s.me.g a).lab = 0 → AtomOrder s o →
    ∃ t, exec (i sz o d b off a) s = .next t ∧ s.me.keeps t.me [.g d] ∧
      (d ≠ 0 → t.me.g d = ⟨(BitVec.ofNat (8 * wdBytes sz) (s.natAt l.ha (wdBytes sz))).signExtend 64, 0⟩) ∧
      AtomLeaves s t l (wdBytes sz)
        (f _ (BitVec.ofNat (8 * wdBytes sz) (s.natAt l.ha (wdBytes sz))) ((s.me.g a).val.setWidth _)).toNat
/-- A posted integer atomic: memory takes the new value and no register changes. -/
def Posted (i : SizeWD → GReg → BitVec 40 → GReg → Instr) (f : (n : Nat) → BitVec n → BitVec n → BitVec n) : Prop :=
  ∀ (s : State) sz b off a l, s.clear (i sz b off a) = true → s.unlabelled [b] = true → s.Inv →
    s.check (s.me.eaOff b off) (wdBytes sz) (wdBytes sz) .atomic true = .ok l → AtomPlace s l (wdBytes sz) →
    (s.me.g a).lab = 0 →
    ∃ t, exec (i sz b off a) s = .next t ∧ s.me.keeps t.me [] ∧
      AtomLeaves s t l (wdBytes sz)
        (f _ (BitVec.ofNat (8 * wdBytes sz) (s.natAt l.ha (wdBytes sz))) ((s.me.g a).val.setWidth _)).toNat

end Sys2Proof.Claims

/-- R225: the integer atomics with a result, and ACAS, at the own core's memory, unlabelled: one step reads the old
value, computes the new one and writes it. -/
def Obligations.AtomicInstructions : Prop :=
  Atomic .aadd (fun _ o x => o + x) ∧ Atomic .aand (fun _ o x => o &&& x) ∧ Atomic .aor (fun _ o x => o ||| x) ∧
  Atomic .axor (fun _ o x => o ^^^ x) ∧ Atomic .aswap (fun _ _ x => x) ∧
  Atomic .amin (fun _ o x => if o.toInt ≤ x.toInt then o else x) ∧
  Atomic .amax (fun _ o x => if x.toInt ≤ o.toInt then o else x) ∧
  Atomic .aminu (fun _ o x => if o.toNat ≤ x.toNat then o else x) ∧
  Atomic .amaxu (fun _ o x => if x.toNat ≤ o.toNat then o else x) ∧
  (∀ (s : State) sz o d b off a c l, s.clear (.acas sz o d b off a c) = true → s.unlabelled [b] = true → s.Inv →
    s.check (s.me.eaOff b off) (wdBytes sz) (wdBytes sz) .atomic = .ok l → AtomPlace s l (wdBytes sz) →
    (s.me.g a).lab = 0 → (s.me.g c).lab = 0 → AtomOrder s o →
    ∃ t, exec (.acas sz o d b off a c) s = .next t ∧ s.me.keeps t.me [.g d] ∧
      (d ≠ 0 → t.me.g d = ⟨(BitVec.ofNat (8 * wdBytes sz) (s.natAt l.ha (wdBytes sz))).signExtend 64, 0⟩) ∧
      AtomLeaves s t l (wdBytes sz)
        (if s.natAt l.ha (wdBytes sz) = (s.me.g a).val.toNat % 2 ^ (8 * wdBytes sz)
          then (s.me.g c).val.toNat % 2 ^ (8 * wdBytes sz) else s.natAt l.ha (wdBytes sz)))

/-- R226: the posted atomics, and the float ones: AFADD gives the old value to fD, memory the rounded sum, and the sum's
flags to FFLAGS; its posted form reports no flag. -/
def Obligations.PostedAndFloatAtomics : Prop :=
  Posted .aaddPost (fun _ o x => o + x) ∧ Posted .aandPost (fun _ o x => o &&& x) ∧
  Posted .aorPost (fun _ o x => o ||| x) ∧ Posted .axorPost (fun _ o x => o ^^^ x) ∧ Posted .aswapPost (fun _ _ x => x) ∧
  Posted .aminPost (fun _ o x => if o.toInt ≤ x.toInt then o else x) ∧
  Posted .amaxPost (fun _ o x => if x.toInt ≤ o.toInt then o else x) ∧
  Posted .aminuPost (fun _ o x => if o.toNat ≤ x.toNat then o else x) ∧
  Posted .amaxuPost (fun _ o x => if x.toNat ≤ o.toNat then o else x) ∧
  (∀ (s : State) sz o d b off a l v fl, s.clear (.afadd sz o d b off a) = true → s.unlabelled [b] = true → s.Inv →
    s.check (s.me.eaOff b off) (wdBytes sz) (wdBytes sz) .atomic = .ok l → AtomPlace s l (wdBytes sz) →
    (s.me.f a).lab = 0 → AtomOrder s o → s.me.pair = none → s.me.raised = 0 →
    fAdd (if sz = .w then .f32 else .f64) .rne false (s.natAt l.ha (wdBytes sz))
      ((s.me.f a).val.toNat % 2 ^ (8 * wdBytes sz)) = (v, fl) → fl &&& s.me.fenable = 0 →
    ∃ t, exec (.afadd sz o d b off a) s = .next t ∧
      t.me.f d = ⟨BitVec.ofNat 64 (s.natAt l.ha (wdBytes sz)), 0⟩ ∧ t.me.fflags = s.me.fflags ||| fl ∧
      (∀ r, t.me.g r = s.me.g r) ∧ (∀ r, r ≠ d → t.me.f r = s.me.f r) ∧ AtomLeaves s t l (wdBytes sz) v) ∧
  (∀ (s : State) sz b off a l, s.clear (.afaddPost sz b off a) = true → s.unlabelled [b] = true → s.Inv →
    s.check (s.me.eaOff b off) (wdBytes sz) (wdBytes sz) .atomic true = .ok l → AtomPlace s l (wdBytes sz) →
    (s.me.f a).lab = 0 →
    ∃ t, exec (.afaddPost sz b off a) s = .next t ∧ s.me.keeps t.me [] ∧
      AtomLeaves s t l (wdBytes sz) (fAdd (if sz = .w then .f32 else .f64) .rne false (s.natAt l.ha (wdBytes sz))
        ((s.me.f a).val.toNat % 2 ^ (8 * wdBytes sz))).1)

/-- R223, R225 and R226 for labels: AADD conjoins, so an unlabelled word of local store takes its operand's label;
ASWAP stores its operand's; ACAS of a labelled word is refused with 0x0C and the deciding-labelled trap. -/
def Obligations.AtomicLabels : Prop :=
  (∀ (s : State) o d b off a l, s.clear (.aadd .w o d b off a) = true → s.unlabelled [b] = true →
    s.check (s.me.eaOff b off) 4 4 .atomic = .ok l → l.ls = true → OwnHome s l → s.tagAt l.ha = 0 → AtomOrder s o →
    ∃ t, exec (.aadd .w o d b off a) s = .next t ∧ s.movedOn t ∧ (d ≠ 0 → (t.me.g d).lab = 0) ∧
      Tagged s t l.ha 4 (s.resolveAt s.part (s.lab (s.me.g a).lab))) ∧
  (∀ (s : State) o d b off a l, s.clear (.aswap .w o d b off a) = true → s.unlabelled [b] = true →
    s.check (s.me.eaOff b off) 4 4 .atomic = .ok l → l.ls = true → OwnHome s l → s.tagAt l.ha = 0 → AtomOrder s o →
    ∃ t, exec (.aswap .w o d b off a) s = .next t ∧ s.movedOn t ∧ (d ≠ 0 → (t.me.g d).lab = 0) ∧
      Tagged s t l.ha 4 (s.lab (s.me.g a).lab)) ∧
  (∀ (s : State) d b off a c l, s.clear (.acas .w .plain d b off a c) = true → s.unlabelled [b] = true → CanTrap s →
    s.check (s.me.eaOff b off) 4 4 .atomic = .ok l → l.ls = true → OwnHome s l →
    s.resolveAt s.part (s.tagAt l.ha) ≠ 0 → s.resolveAt s.part (s.tagAt l.ha) ≠ 0xFFFF →
    ∃ t, exec (.acas .w .plain d b off a c) s = .next t ∧ Trapped s t 0x06 0x0C (s.me.eaOff b off) ∧
      t.me.regs = ((s.me.pair.bind (·.undo)).getD s.me.regs))

namespace Sys2Proof.Claims

/-- The registers g1 to g15 that a block takes and brings back. -/
def blockRegs : List RegRef := (List.range 15).map fun i => .g (Fin.ofNat 64 (i + 1))
/-- Of them, all but one come back with their values and their labels resolved. -/
def BlockBack (s t : State) (d : GReg) : Prop := ∀ r : GReg, 1 ≤ r.val → r.val ≤ 15 → r ≠ d → t.me.g r = s.val (s.me.g r)

end Sys2Proof.Claims

/-- R229 and R230: MIGRATE sends g1 to g15, their labels resolved, and the address of the next instruction to the home of its address and waits;
at its own core's memory the block runs at once, up to MRET, and the context goes on after that; MRET outside a block is
illegal. -/
def Obligations.MigrantBlocks : Prop :=
  (∀ (s : State) b off l, s.clear (.migrate b off) = true → s.unlabelled [b] = true → s.me.pend = [] →
    s.check (s.me.eaOff b off) 1 1 .probe = .ok l → l.ls = false → l.home = homeOf l.ha → l.ha / 2 ^ 48 % 8 ≠ 2 →
    l.home ≠ s.core →
    ∃ t, exec (.migrate b off) s = .next t ∧ t.me.run = .wait .reply ∧ t.me.pc = s.me.pc ∧ s.me.keeps t.me [] ∧
      s.sameMemory t ∧ ∃ regs, Sends s t l.home .th (.migrate s.key regs (nextPc s.me.pc) (s.me.eaOff b off) l.ha) ∧
      regs.length = 15 ∧ ∀ r : GReg, 1 ≤ r.val → r.val ≤ 15 → regs[r.val - 1]? = some (s.val (s.me.g r))) ∧
  (∀ (s : State) b off l, s.clear (.migrate b off) = true → s.unlabelled [b] = true → s.me.pend = [] →
    s.check (s.me.eaOff b off) 1 1 .probe = .ok l → l.ls = false → l.home = homeOf l.ha → l.ha / 2 ^ 48 % 8 ≠ 2 →
    OwnHome s l →
    s.blockCode s.core s.key s.part (nextPc s.me.pc) = .ok [(nextPc s.me.pc, .mret)] →
    ∃ t, exec (.migrate b off) s = .next t ∧ t.me.pc = s.me.goesTo (nextPc (nextPc s.me.pc)) ∧ t.me.run = .run ∧
      s.me.keeps t.me blockRegs ∧ BlockBack s t 0 ∧ s.sameMemory t) ∧
  (∀ (s : State) b off l d a imm, s.clear (.migrate b off) = true → s.unlabelled [b] = true → s.me.pend = [] →
    s.check (s.me.eaOff b off) 1 1 .probe = .ok l → l.ls = false → l.home = homeOf l.ha → l.ha / 2 ^ 48 % 8 ≠ 2 →
    OwnHome s l → 1 ≤ d.val → d.val ≤ 15 → a.val ≤ 15 → (s.me.g a).lab = 0 →
    s.blockCode s.core s.key s.part (nextPc s.me.pc) = .ok [(nextPc s.me.pc, .addi false d a imm)] →
    s.blockCode s.core s.key s.part (nextPc (nextPc s.me.pc)) = .ok [(nextPc (nextPc s.me.pc), .mret)] →
    ∃ t, exec (.migrate b off) s = .next t ∧ t.me.pc = s.me.goesTo (nextPc (nextPc (nextPc s.me.pc))) ∧ t.me.run = .run ∧
      s.me.keeps t.me blockRegs ∧ BlockBack s t d ∧ t.me.g d = ⟨(s.me.g a).val + imm.signExtend 64, 0⟩ ∧
      s.sameMemory t) ∧
  (∀ (s : State), s.clear .mret = true → exec .mret s = .next (s.trap 0x01 0 s.me.pc))

namespace Sys2Proof.Claims

/-- Bits lo + n - 1 to lo of a number. -/
def field (x lo n : Nat) : Nat := x / 2 ^ lo % 2 ^ n
/-- A barrier object of the own core that no ordinary store has left undefined. -/
def BarrierAt (s : State) (b : GReg) (off : BitVec 40) (l : Loc) : Prop :=
  s.check (s.me.eaOff b off) 16 16 .sync = .ok l ∧ OwnHome s l ∧ s.here.window = [] ∧
  ∀ x ∈ s.store.bars, x.1 = l.ha → x.2 = false
/-- A barrier object's fields (R232): EXPECTED, ARRIVED, PHASE and STATE; the rest is 0 or the fault that it records. -/
def BarrierIs (t : State) (ha expected arrived phase state : Nat) : Prop :=
  field (t.natAt ha 16) 0 32 = expected ∧ field (t.natAt ha 16) 32 32 = arrived ∧
  field (t.natAt ha 16) 64 1 = phase ∧ field (t.natAt ha 16) 96 2 = state
/-- Every byte outside a barrier object is as it was. -/
def OutsideBarrier (s t : State) (ha : Nat) : Prop := ∀ a, (a < ha ∨ ha + 16 ≤ a) → t.byteAt a = s.byteAt a

end Sys2Proof.Claims

/-- R232 to R234: BARINIT makes an object that expects its operand's arrivals, and refuses 0 and 2^32 or more; BARARR
counts one, and with the last one flips the phase; BARWAIT goes on once the phase is gP<0>, and of an aborted barrier
takes its status; BARTRY answers without waiting; BARINIT.abort, of the root context, aborts. -/
def Obligations.Barriers : Prop :=
  (∀ (s : State) b off a l, s.clear (.barinit b off a) = true → s.unlabelled [b, a] = true → s.Inv →
    BarrierAt s b off l → 0 < (s.me.g a).val.toNat → (s.me.g a).val.toNat < 2 ^ 32 →
    ∃ t, exec (.barinit b off a) s = .next t ∧ s.movedOn t ∧ s.me.keeps t.me [] ∧
      Stored s t l.ha 16 (s.me.g a).val.toNat ∧ Tagged s t l.ha 16 0) ∧
  (∀ (s : State) b off a l, s.clear (.barinit b off a) = true → s.unlabelled [b, a] = true → CanTrap s →
    BarrierAt s b off l → ((s.me.g a).val.toNat = 0 ∨ 2 ^ 32 ≤ (s.me.g a).val.toNat) →
    ∃ t, exec (.barinit b off a) s = .next t ∧ Trapped s t 0x01 0 s.me.pc ∧ s.sameMemory t) ∧
  (∀ (s : State) b off l, s.clear (.barinitAbort b off) = true → Root s → s.unlabelled [b] = true → s.Inv →
    BarrierAt s b off l →
    ∃ t, exec (.barinitAbort b off) s = .next t ∧ s.movedOn t ∧ s.me.keeps t.me [] ∧ OutsideBarrier s t l.ha ∧
      BarrierIs t l.ha (field (s.natAt l.ha 16) 0 32) 0 (field (s.natAt l.ha 16) 64 1) 2) ∧
  (∀ (s : State) b off, ¬ Root s → exec (.barinitAbort b off) s = .next (s.trap 0x01 0 s.me.pc)) ∧
  (∀ (s : State) b off l, s.clear (.bararr b off) = true → s.unlabelled [b] = true → s.Inv → BarrierAt s b off l →
    s.orderly .co = true → field (s.natAt l.ha 16) 96 2 ≠ 2 →
    field (s.natAt l.ha 16) 32 32 + 1 < field (s.natAt l.ha 16) 0 32 →
    ∃ t, exec (.bararr b off) s = .next t ∧ s.movedOn t ∧ s.me.keeps t.me [] ∧ OutsideBarrier s t l.ha ∧
      BarrierIs t l.ha (field (s.natAt l.ha 16) 0 32) (field (s.natAt l.ha 16) 32 32 + 1)
        (field (s.natAt l.ha 16) 64 1) (field (s.natAt l.ha 16) 96 2)) ∧
  (∀ (s : State) b off l, s.clear (.bararr b off) = true → s.unlabelled [b] = true → s.Inv → BarrierAt s b off l →
    s.orderly .co = true → field (s.natAt l.ha 16) 96 2 ≠ 2 →
    field (s.natAt l.ha 16) 32 32 + 1 = field (s.natAt l.ha 16) 0 32 →
    ∃ t, exec (.bararr b off) s = .next t ∧ s.movedOn t ∧ s.me.keeps t.me [] ∧ OutsideBarrier s t l.ha ∧
      BarrierIs t l.ha (field (s.natAt l.ha 16) 0 32) 0 (1 - field (s.natAt l.ha 16) 64 1) 0) ∧
  (∀ (s : State) b off p l, s.clear (.barwait b off p) = true → s.unlabelled [b, p] = true → BarrierAt s b off l →
    field (s.natAt l.ha 16) 96 2 ≠ 2 → field (s.natAt l.ha 16) 64 1 = (s.me.g p).val.toNat % 2 →
    ∃ t, exec (.barwait b off p) s = .next t ∧ s.movedOn t ∧ s.me.keeps t.me [] ∧ s.sameMemory t) ∧
  (∀ (s : State) b off p l, s.clear (.barwait b off p) = true → s.unlabelled [b, p] = true → BarrierAt s b off l →
    field (s.natAt l.ha 16) 96 2 = 2 → p ≠ 0 →
    ∃ t, exec (.barwait b off p) s = .next t ∧ s.movedOn t ∧ s.me.keeps t.me [.g p] ∧ s.sameMemory t ∧
      t.me.g p = ⟨BitVec.ofNat 64 (0x231 + field (s.natAt l.ha 16) 112 16 * 2 ^ 16), 0⟩) ∧
  (∀ (s : State) b off p l, s.clear (.barwait b off p) = true → s.unlabelled [b, p] = true → BarrierAt s b off l →
    field (s.natAt l.ha 16) 96 2 ≠ 2 → field (s.natAt l.ha 16) 64 1 ≠ (s.me.g p).val.toNat % 2 →
    ∃ t, exec (.barwait b off p) s = .next t ∧ t.me.run = .park .home ∧ t.me.pc = s.me.pc ∧ s.me.keeps t.me []) ∧
  (∀ (s : State) d b off p l, s.clear (.bartry d b off p) = true → s.unlabelled [b, p] = true → BarrierAt s b off l →
    ∃ t, exec (.bartry d b off p) s = .next t ∧ s.movedOn t ∧ s.me.keeps t.me [.g d] ∧ s.sameMemory t ∧
      (d ≠ 0 → t.me.g d = ⟨if field (s.natAt l.ha 16) 96 2 = 2 then 3
        else if field (s.natAt l.ha 16) 64 1 = (s.me.g p).val.toNat % 2 then 1
        else if field (s.natAt l.ha 16) 96 2 = 1 then 2 else 0, 0⟩))

namespace Sys2Proof.Claims

/-- What an integer group load makes of its members' words (R238). -/
def gathered (n : Nat) : GldOp → Nat → List Nat → Word
  | .add, x, l => (BitVec.ofNat n (l.foldl (· + ·) x)).signExtend 64
  | .max, x, l => (BitVec.ofInt n (l.foldl (fun a b => max a (BitVec.ofNat n b).toInt) (BitVec.ofNat n x).toInt)).signExtend 64
  | .min, x, l => (BitVec.ofInt n (l.foldl (fun a b => min a (BitVec.ofNat n b).toInt) (BitVec.ofNat n x).toInt)).signExtend 64
  | .maxn, x, l => BitVec.ofNat 64 (l.foldl Nat.max x)
  | .and, x, l => BitVec.ofNat 64 (l.foldl (· &&& ·) x)
  | .or, x, l => BitVec.ofNat 64 (l.foldl (· ||| ·) x)

end Sys2Proof.Claims

/-- R237 to R239: a group load sends a read on the group path to every member and waits; once all have answered without
labels, an integer one gives the combination of their words, whatever shape the tree has, and one over two members of a
float the node's rounding in f; a member that refused gives its trap. -/
def Obligations.GroupLoads : Prop :=
  (∀ (s : State) op sz d m c ms, s.clear (.gldInt op sz d m) = true → s.unlabelled m.regs = true →
    (s.me.ea m).toNat / 2 ^ 32 = 0x1FD0000 → (s.me.ea m).toNat % wdBytes sz = 0 → s.me.out = .none →
    (∀ i (h : i < 4), (s.me.watch[i]).getLsbD 63 = false) →
    s.here.groups = [⟨s.part, field (s.me.ea m).toNat 20 12, ms⟩] → c ∈ ms →
    (∀ x ∈ ms, coreOfIndex (pkgOf s.core) x ≠ s.core ∧ s.inPart s.part (coreOfIndex (pkgOf s.core) x) = true ∧
      ∃ l, s.lsSpot s.core s.key (coreOfIndex (pkgOf s.core) x) (field (s.me.ea m).toNat 0 20) = .ok l) →
    ∃ t, exec (.gldInt op sz d m) s = .next t ∧ t.me.run = .wait .reply ∧ t.me.pc = s.me.pc ∧ s.me.keeps t.me [] ∧
      s.sameMemory t ∧ ∃ x ∈ t.msgs, ∃ r, x.src = s.core ∧ x.dst = coreOfIndex (pkgOf s.core) c ∧ x.path = .gr ∧
        x.body = .req r ∧ r.act = .gldRead ∧ r.n = wdBytes sz) ∧
  (∀ (s : State) op sz d m c x hs got, s.clear (.gldInt op sz d m) = true → s.unlabelled m.regs = true →
    s.me.out = .gld (GldOp.code op) false d.val (wdBytes sz) ((c, x, hs) :: got) [] 0 →
    (((c, x, hs) :: got).map (·.1)).Pairwise (· < ·) → (∀ e ∈ (c, x, hs) :: got, e.1 < 2048 ∧
      e.2.1 < 2 ^ (8 * wdBytes sz) ∧ ∀ h ∈ e.2.2, s.lab h = 0) →
    exec (.gldInt op sz d m) s = .next (s.modMe fun c =>
      (c.setG d ⟨gathered (8 * wdBytes sz) op x (got.map (·.2.1)), 0⟩).retire)) ∧
  (∀ (s : State) sz d m i j x y v fl, s.clear (.gldFloat .fadd sz d m) = true → s.unlabelled m.regs = true →
    s.me.out = .gld 1 true d.val (wdBytes sz) [(i, x, []), (j, y, [])] [] 0 → i < j → j < 2048 → s.me.pair = none →
    s.me.raised = 0 → fAdd (if sz = .w then .f32 else .f64) .rne false x y = (v, fl) → fl &&& s.me.fenable = 0 →
    ∃ t, exec (.gldFloat .fadd sz d m) s = .next t ∧ s.movedOn t ∧ t.me.f d = ⟨BitVec.ofNat 64 v, 0⟩ ∧
      t.me.fflags = s.me.fflags ||| fl ∧ (∀ r, t.me.g r = s.me.g r) ∧ (∀ r, r ≠ d → t.me.f r = s.me.f r) ∧
      s.sameMemory t) ∧
  (∀ (s : State) op sz d m got c rest, s.clear (.gldInt op sz d m) = true → s.unlabelled m.regs = true → CanTrap s →
    s.me.out = .gld (GldOp.code op) false d.val (wdBytes sz) got ((c, 0x0A) :: rest) 0 →
    ∃ t, exec (.gldInt op sz d m) s = .next t ∧
      Trapped s t 0x19 0x0A (BitVec.ofNat 64 (0x1FF000000000000 + (coreOfIndex (pkgOf s.core) c).toNat * 2 ^ 20 +
        field (s.me.ea m).toNat 0 20)))

-- Scalar float and vector instructions (11_vector.md, 02_numbers.md)

namespace Sys2Proof.Claims

/-- A scalar float instruction writes fD with the conjunction of its sources' labels, the bits above its format zero,
raises its flags and retires; here none of them is enabled. -/
def WritesF (i : Instr) (d : FReg) (labs : Ctx → List Handle) (v : Ctx → Nat × Flags) : Prop :=
  ∀ (s u : State) (h : Handle), s.clear i = true → s.conj (labs s.me) = .ok h u → (v s.me).2 &&& s.me.fenable = 0 →
    exec i s = .next (u.modMe fun c =>
      (({ c with raised := c.raised ||| (v s.me).2 } : Ctx).setF d ⟨BitVec.ofNat 64 (v s.me).1, h⟩).retire)
/-- The same for one that writes gD. -/
def WritesG (i : Instr) (d : GReg) (labs : Ctx → List Handle) (v : Ctx → Word × Flags) : Prop :=
  ∀ (s u : State) (h : Handle), s.clear i = true → s.conj (labs s.me) = .ok h u → (v s.me).2 &&& s.me.fenable = 0 →
    exec i s = .next (u.modMe fun c =>
      (({ c with raised := c.raised ||| (v s.me).2 } : Ctx).setG d ⟨(v s.me).1, h⟩).retire)
/-- A source in a format: the low bits of the register (R195). -/
def src (t : Ty) (x : LWord) : Nat := x.val.toNat % 2 ^ tyBits t
/-- The labels of two f sources. -/
def labs2 (a b : FReg) (c : Ctx) : List Handle := [(c.f a).lab, (c.f b).lab]

end Sys2Proof.Claims

/-- R195, R198 and R199: FADD, FSUB, FMUL, FMA, FMIN, FMAX, FABS, FNEG, FRINT and FSCALE. -/
def Obligations.FloatArithmetic : Prop :=
  (∀ (t : FTy) r d a b, WritesF (.fadd t r d a b) d (labs2 a b) fun c => fAdd t.ty r false (src t.ty (c.f a)) (src t.ty (c.f b))) ∧
  (∀ (t : FTy) r d a b, WritesF (.fsub t r d a b) d (labs2 a b) fun c => fSub t.ty r false (src t.ty (c.f a)) (src t.ty (c.f b))) ∧
  (∀ (t : FTy) r d a b, WritesF (.fmul t r d a b) d (labs2 a b) fun c => fMul t.ty r false (src t.ty (c.f a)) (src t.ty (c.f b))) ∧
  (∀ (t : FTy) r d a b x, WritesF (.fma t r d a b x) d (fun c => [(c.f a).lab, (c.f b).lab, (c.f x).lab]) fun c =>
    fFma t.ty r (src t.ty (c.f a)) (src t.ty (c.f b)) (src t.ty (c.f x))) ∧
  (∀ (t : FTy) d a b, WritesF (.fmin t d a b) d (labs2 a b) fun c => fMinMax t.ty false (src t.ty (c.f a)) (src t.ty (c.f b))) ∧
  (∀ (t : FTy) d a b, WritesF (.fmax t d a b) d (labs2 a b) fun c => fMinMax t.ty true (src t.ty (c.f a)) (src t.ty (c.f b))) ∧
  (∀ (t : FTy) d a, WritesF (.fabs t d a) d (fun c => [(c.f a).lab]) fun c => (src t.ty (c.f a) % 2 ^ (tyBits t.ty - 1), 0)) ∧
  (∀ (t : FTy) d a, WritesF (.fneg t d a) d (fun c => [(c.f a).lab]) fun c =>
    ((src t.ty (c.f a) + 2 ^ (tyBits t.ty - 1)) % 2 ^ tyBits t.ty, 0)) ∧
  (∀ (t : FTy) r d a, WritesF (.frint t r d a) d (fun c => [(c.f a).lab]) fun c => fRint t.ty r (src t.ty (c.f a))) ∧
  (∀ (t : FTy) r d a b, WritesF (.fscale t r d a b) d (fun c => [(c.f a).lab, (c.g b).lab]) fun c =>
    fScale t.ty r (src t.ty (c.f a)) (c.g b).val.toInt)

/-- R200 and R201: FCMP writes 0 or 1 to gD; FCVT between float and integer formats, a signed result sign-extended and
a natural one zero-extended; FMOV moves all 64 bits with the label, resolved (R147), and raises nothing. -/
def Obligations.FloatCompareConvertMove : Prop :=
  (∀ k (t : FTy) d a b, WritesG (.fcmp k t d a b) d (labs2 a b) fun c =>
    (if (fCmp t.ty (condOf k) (src t.ty (c.f a)) (src t.ty (c.f b))).1 then 1 else 0,
      (fCmp t.ty (condOf k) (src t.ty (c.f a)) (src t.ty (c.f b))).2)) ∧
  (∀ ta tb r sat d a, WritesF (.fcvtFf ta tb r sat d a) d (fun c => [(c.f a).lab]) fun c => fConv ta tb r sat (src tb (c.f a))) ∧
  (∀ ta (tb : FTy) r sat d a, WritesG (.fcvtGf ta tb r sat d a) d (fun c => [(c.f a).lab]) fun c =>
    (if tySigned ta then (BitVec.ofNat (tyBits ta) (fToI ta tb.ty r (src tb.ty (c.f a))).1).signExtend 64
      else BitVec.ofNat 64 ((fToI ta tb.ty r (src tb.ty (c.f a))).1 % 2 ^ tyBits ta), (fToI ta tb.ty r (src tb.ty (c.f a))).2)) ∧
  (∀ (ta : FTy) tb r sat d a, WritesF (.fcvtFg ta tb r sat d a) d (fun c => [(c.g a).lab]) fun c =>
    iToF ta.ty tb r sat (src tb (c.g a))) ∧
  (∀ (s : State) d a, s.clear (.fmovFg d a) = true → exec (.fmovFg d a) s = .next (s.modMe fun c => (c.setF d (s.val (s.me.g a))).retire)) ∧
  (∀ (s : State) d a, s.clear (.fmovGf d a) = true → exec (.fmovGf d a) s = .next (s.modMe fun c => (c.setG d (s.val (s.me.f a))).retire)) ∧
  (∀ (s : State) d a, s.clear (.fmovFf d a) = true → exec (.fmovFf d a) s = .next (s.modMe fun c => (c.setF d (s.val (s.me.f a))).retire))

/-- R37 to R42: rounding to nearest even. With q the exponent of the last place, the result is the value n·2^q where n is
a nearest integer to the exact quotient, even at a tie; IX says whether it differs. -/
def Obligations.RoundToNearestEven : Prop :=
  ∀ (t : Ty) (m : Nat) (e : Int) c fl, 0 < m → roundF t .rne false false m e false = (c, fl) → fl &&& fOF = 0 →
    ∃ (n m' : Nat) (q e' : Int), q = max (e + bitLen m - 1 - (fmtOf t).mw) (1 - ((fmtOf t).bias : Int) - (fmtOf t).mw) ∧
      decF t c = .fin false m' e' ∧ m' * 2 ^ (e' - min e' q).toNat = n * 2 ^ (q - min e' q).toNat ∧
      (q ≤ e → n = m * 2 ^ (e - q).toNat ∧ fl = 0) ∧
      (e < q → (2 * ((m : Int) - n * 2 ^ (q - e).toNat)).natAbs ≤ 2 ^ (q - e).toNat ∧
        ((2 * ((m : Int) - n * 2 ^ (q - e).toNat)).natAbs = 2 ^ (q - e).toNat → n % 2 = 0) ∧
        (fl &&& fIX = 0 ↔ m = n * 2 ^ (q - e).toNat))

/-- R35, R38, R42 and R51: a value that a format holds rounds to itself without a flag; sums and products commute;
x − x is +0, or −0 towards −∞; a NaN operand gives the canonical NaN; ∞ − ∞ is it with IV; FMIN takes −0 below +0. -/
def Obligations.FloatSpecialValues : Prop :=
  (∀ (t : Ty) r sat x neg m e, x < 2 ^ ((fmtOf t).ew + (fmtOf t).mw + 1) → decF t x = .fin neg m e →
    roundF t r sat neg m e false = (x, 0)) ∧
  (∀ (t : Ty) r sat x y, fAdd t r sat x y = fAdd t r sat y x ∧ fMul t r sat x y = fMul t r sat y x) ∧
  (∀ (t : Ty) r sat x neg m e, decF t x = .fin neg m e →
    fSub t r sat x x = (signBit (fmtOf t) (r == .rdn), 0)) ∧
  (∀ (t : Ty) r sat x y, (isNan (decF t x) = true ∨ isNan (decF t y) = true) → (fAdd t r sat x y).1 = nanCode t ∧
    (fMul t r sat x y).1 = nanCode t ∧ (fMinMax t true x y).1 = nanCode t ∧ (fDiv t x y).1 = nanCode t) ∧
  (∀ (t : Ty) r sat x y s, decF t x = .inf s → decF t y = .inf s → fSub t r sat x y = (nanCode t, fIV)) ∧
  nanCode .f32 = 0x7FC00000 ∧ nanCode .f64 = 0x7FF8000000000000 ∧ nanCode .f16 = 0x7E00 ∧ nanCode .bf16 = 0x7FC0 ∧
  fMinMax .f32 false 0x80000000 0 = (0x80000000, 0) ∧ fMinMax .f32 false 0 0x80000000 = (0x80000000, 0) ∧
  fMinMax .f32 true 0x80000000 0 = (0, 0) ∧ fCmp .f32 .eq 0x80000000 0 = (true, 0)

/-- R42, R90, R215 to R217: the flags an instruction raises are added to FFLAGS when it retires, and those of the instruction of
a pair that runs first wait for the other's; one that is enabled and has no supervisor core is kept for the
float-exception trap at the next instruction. -/
def Obligations.FloatFlags : Prop :=
  (∀ (c : Ctx), c.pair = none → c.retire.fflags = c.fflags ||| c.raised ∧ c.retire.raised = 0) ∧
  (∀ (c : Ctx) p, c.pair = some p → (p.stage = .second ∨ (p.stage = .forward ∧ p.first = c.pc)) →
    c.retire.fflags = c.fflags ∧ c.retire.raised = c.raised) ∧
  (∀ (s : State) (t : FTy) r d a b v fl, s.clear (.fadd t r d a b) = true →
    s.me.pair = none → s.me.raised = 0 → (s.me.f a).lab = 0 → (s.me.f b).lab = 0 → s.me.fsup.getLsbD 20 = false →
    fAdd t.ty r false (src t.ty (s.me.f a)) (src t.ty (s.me.f b)) = (v, fl) → fl &&& s.me.fenable ≠ 0 →
    ∃ u, exec (.fadd t r d a b) s = .next u ∧ s.movedOn u ∧ u.me.f d = ⟨BitVec.ofNat 64 v, 0⟩ ∧
      u.me.fflags = s.me.fflags ||| fl ∧ u.me.fexc = some fl)

namespace Sys2Proof.Claims

/-- A special function is issued: its request stands last in the unit's queue and its context waits. -/
def Issues (i : Instr) (a b : FReg) (two : Bool) : Prop :=
  ∀ (s : State), s.clear i = true → s.lab (s.me.f a).lab = 0 → (two = true → s.lab (s.me.f b).lab = 0) →
    ∃ u q, exec i s = .next u ∧ u.here.sfu = s.here.sfu ++ [q] ∧ q.key = s.key ∧ q.i = i ∧ q.a = s.me.f a ∧
      (two = true → q.b = s.me.f b) ∧ q.lab = 0 ∧ q.started = false ∧ u.me.run = .wait .sfu ∧ u.me.pc = s.me.pc ∧
      s.me.keeps u.me [] ∧ s.sameMemory u
/-- The request that is served completes: its context takes the result and goes on. -/
def Finishes (i : Instr) (d : FReg) (v : LWord → LWord → Nat × Flags) : Prop :=
  ∀ (s : State) core q rest, (s.coreAt core).sfu = q :: rest → q.started = true → q.i = i →
    (s.ctxAt core q.key).run = .wait .sfu → (s.ctxAt core q.key).raised = 0 → (s.ctxAt core q.key).pair = none →
    (v q.a q.b).2 &&& (s.ctxAt core q.key).fenable = 0 →
    ∃ u, exec (.sfuResult core) s = .next u ∧ (u.coreAt core).sfu = rest ∧
      (u.ctxAt core q.key).f d = ⟨BitVec.ofNat 64 (v q.a q.b).1, q.lab⟩ ∧ (u.ctxAt core q.key).run = .run ∧
      (u.ctxAt core q.key).pc = nextPc (s.ctxAt core q.key).pc ∧
      (u.ctxAt core q.key).fflags = (s.ctxAt core q.key).fflags ||| (v q.a q.b).2 ∧
      (∀ r, r ≠ d → (u.ctxAt core q.key).f r = (s.ctxAt core q.key).f r) ∧
      (∀ r, (u.ctxAt core q.key).g r = (s.ctxAt core q.key).g r) ∧ s.sameMemory u

end Sys2Proof.Claims

/-- R213 and R214: FDIV, FEXP2F, FLOG2, FRCP, FRSQ, FSQRT, FSIN and FCOS queue a request and wait; the unit serves one
request at a time, in order, and its result retires the instruction. FDIV and FSQRT are correctly rounded; the value of
an approximate function inside its bound is a free value of the function, the format and the operand (log 12). -/
def Obligations.SpecialFunctions : Prop :=
  (∀ t d a b, Issues (.fdiv t d a b) a b true) ∧ (∀ t d a, Issues (.fexp2f t d a) a a false) ∧
  (∀ t d a, Issues (.flog2 t d a) a a false) ∧ (∀ t d a, Issues (.frcp t d a) a a false) ∧
  (∀ t d a, Issues (.frsq t d a) a a false) ∧ (∀ t d a, Issues (.fsqrt t d a) a a false) ∧
  (∀ t d a, Issues (.fsin t d a) a a false) ∧ (∀ t d a, Issues (.fcos t d a) a a false) ∧
  (∀ (s : State) core q rest, (s.coreAt core).sfu = q :: rest → q.started = false →
    ∃ u, exec (.sfuServiceStart core) s = .next u ∧ (u.coreAt core).sfu = { q with started := true } :: rest ∧
      (∀ k, u.ctxAt core k = s.ctxAt core k) ∧ s.sameMemory u) ∧
  (∀ (t : FTy) d a b, Finishes (.fdiv t d a b) d fun x y => fDiv t.ty (src t.ty x) (src t.ty y)) ∧
  (∀ (t : FTy) d a, Finishes (.fsqrt t d a) d fun x _ => fSqrt t.ty (src t.ty x)) ∧
  (∀ (t : FTy) d a, Finishes (.frcp t d a) d fun x _ => fRcp t.ty (sfuChoice (.frcp t d a) t x) (src t.ty x)) ∧
  (∀ (t : FTy) d a, Finishes (.fsin t d a) d fun x _ => fTrig t.ty false (sfuChoice (.fsin t d a) t x) (src t.ty x)) ∧
  (∀ (t : FTy) d a, Finishes (.fcos t d a) d fun x _ => fTrig t.ty true (sfuChoice (.fcos t d a) t x) (src t.ty x)) ∧
  (∀ (t : FTy) d a, Finishes (.frsq t d a) d fun x _ => fRsq t.ty (sfuChoice (.frsq t d a) t x) (src t.ty x)) ∧
  (∀ (t : FTy) d a, Finishes (.fexp2f t d a) d fun x _ => fExp2 t.ty (sfuChoice (.fexp2f t d a) t x) (src t.ty x)) ∧
  (∀ (t : FTy) d a, Finishes (.flog2 t d a) d fun x _ => fLog2 t.ty (sfuChoice (.flog2 t d a) t x) (src t.ty x))

namespace Sys2Proof.Claims

/-- Lane i of width w. -/
def lane (w : Nat) (x : BitVec 1024) (i : Nat) : Nat := (x.extractLsb' (w * i) w).toNat
/-- The labels of a v register and of an m register resolve to the empty label. -/
def CleanV (s : State) (r : Fin 8) : Prop := ∀ j (h : j < 32), s.lab ((s.me.v r).lab[j]) = 0
def CleanM (s : State) (r : MReg) : Prop := ∀ j (h : j < 32), s.lab ((s.me.m r).lab[j]) = 0
/-- A vector instruction has retired with flags fl, having written what is named and nothing else. -/
def VecDone (s u : State) (w : List RegRef) (fl : Flags) : Prop :=
  s.movedOn u ∧ Ctx.keeps { s.me with fflags := s.me.fflags ||| fl } u.me w ∧ s.onlyMe u
/-- A state in which a vector instruction begins and completes whose flags are not enabled. -/
def VecReady (s : State) (i : Instr) : Prop :=
  s.clear i = true ∧ s.me.out = .none ∧ s.me.raised = 0 ∧ s.me.pair = none ∧ s.me.fenable = 0
/-- The flags of all lanes. -/
def allFlags (n : Nat) (f : Nat → Flags) : Flags := (List.range n).foldl (fun a i => a ||| f i) 0
/-- A register of lanes, its labels empty. -/
def VecIs (u : State) (d : Fin 8) (w : Nat) (f : Nat → Nat) : Prop :=
  (∀ i, i < 1024 / w → lane w (u.me.v d).data i = f i) ∧ ∀ j (h : j < 32), (u.me.v d).lab[j] = 0
/-- A lane operation of two registers. -/
def Lanes2 (i : Fin 8 → Fin 8 → Fin 8 → Instr) (t : Ty) (f : Nat → Nat → Nat × Flags) : Prop :=
  ∀ (s : State) d a b, laneTy t = true → VecReady s (i d a b) → CleanV s a → CleanV s b →
    ∃ u, exec (i d a b) s = .next u ∧
      VecDone s u [.v d] (allFlags (1024 / tyBits t) fun n =>
        (f (lane (tyBits t) (s.me.v a).data n) (lane (tyBits t) (s.me.v b).data n)).2) ∧
      VecIs u d (tyBits t) fun n => (f (lane (tyBits t) (s.me.v a).data n) (lane (tyBits t) (s.me.v b).data n)).1
/-- A lane operation of one register. -/
def Lanes1 (i : Fin 8 → Fin 8 → Instr) (t : Ty) (f : Nat → Nat × Flags) : Prop :=
  ∀ (s : State) d a, laneTy t = true → VecReady s (i d a) → CleanV s a →
    ∃ u, exec (i d a) s = .next u ∧
      VecDone s u [.v d] (allFlags (1024 / tyBits t) fun n => (f (lane (tyBits t) (s.me.v a).data n)).2) ∧
      VecIs u d (tyBits t) fun n => (f (lane (tyBits t) (s.me.v a).data n)).1
/-- A lane is active when every mask bit of its bytes is set (R194). -/
def Active (m : BitVec 128) (w n : Nat) : Prop := ∀ k, k < w / 8 → m.getLsbD (n * (w / 8) + k) = true
/-- The masked form: a lane that is not active keeps the old value and raises no flag. -/
def Masked2 (i : MReg → Fin 8 → Fin 8 → Fin 8 → Instr) (t : Ty) (f : Nat → Nat → Nat × Flags) : Prop :=
  ∀ (s : State) k d a b, laneTy t = true → VecReady s (i k d a b) → CleanV s a → CleanV s b → CleanV s d → CleanM s k →
    ∃ u fl, exec (i k d a b) s = .next u ∧ VecDone s u [.v d] fl ∧ (∀ j (h : j < 32), (u.me.v d).lab[j] = 0) ∧
      ∀ n, n < 1024 / tyBits t →
        (Active (s.me.m k).bits (tyBits t) n → lane (tyBits t) (u.me.v d).data n =
          (f (lane (tyBits t) (s.me.v a).data n) (lane (tyBits t) (s.me.v b).data n)).1) ∧
        (¬ Active (s.me.m k).bits (tyBits t) n →
          lane (tyBits t) (u.me.v d).data n = lane (tyBits t) (s.me.v d).data n)
/-- A lane of an integer type as a number, and a number as a lane: reduced modulo its width, or saturated (R29). -/
def num (t : Ty) (x : Nat) : Int := if tySigned t then (BitVec.ofNat (tyBits t) x).toInt else (x : Int)
def code (t : Ty) (sat : Bool) (z : Int) : Nat :=
  let lo : Int := if tySigned t then -(2 ^ (tyBits t - 1)) else 0
  let hi : Int := if tySigned t then 2 ^ (tyBits t - 1) - 1 else 2 ^ tyBits t - 1
  ((if sat then max lo (min hi z) else z) % 2 ^ tyBits t).toNat
/-- A float result under .sat: an infinity becomes the largest finite value of its sign, with OF and IX (R41). -/
def finite (t : Ty) (sat : Bool) (x : Nat × Flags) : Nat × Flags :=
  match sat, decF t x.1 with
  | true, .inf neg => (signBit (fmtOf t) neg + maxCode (fmtOf t), fOF ||| fIX)
  | _, _ => x

end Sys2Proof.Claims

/-- R192 to R194 and R203: VADD, VSUB, VMUL, VMIN and VMAX, plain and masked, VFMA, VABS and VNEG lane by lane. Integers
wrap, or saturate under .sat; floats round once. That VABS of a natural type is its operand and wraps the most negative
integer, and that an infinite result of VMIN or VMAX under .sat becomes the largest finite value, is the model's reading
(log 82). -/
def Obligations.VectorArithmetic : Prop :=
  (∀ t r sat, t.isFloat = false → Lanes2 (fun d a b => .vadd t r sat none (.v d) (.v a) (.v b)) t
    fun x y => (code t sat (num t x + num t y), 0)) ∧
  (∀ t r sat, t.isFloat = false → Masked2 (fun k d a b => .vadd t r sat (some k) (.v d) (.v a) (.v b)) t
    fun x y => (code t sat (num t x + num t y), 0)) ∧
  (∀ t r sat, t.isFloat = false → Lanes2 (fun d a b => .vsub t r sat none (.v d) (.v a) (.v b)) t
    fun x y => (code t sat (num t x - num t y), 0)) ∧
  (∀ t r sat, t.isFloat = false → Masked2 (fun k d a b => .vsub t r sat (some k) (.v d) (.v a) (.v b)) t
    fun x y => (code t sat (num t x - num t y), 0)) ∧
  (∀ t r sat, t.isFloat = false → Lanes2 (fun d a b => .vmul t r sat none (.v d) (.v a) (.v b)) t
    fun x y => (code t sat (num t x * num t y), 0)) ∧
  (∀ t r sat, t.isFloat = false → Masked2 (fun k d a b => .vmul t r sat (some k) (.v d) (.v a) (.v b)) t
    fun x y => (code t sat (num t x * num t y), 0)) ∧
  (∀ t r sat, t.isFloat = false → Lanes2 (fun d a b => .vmin t r sat none (.v d) (.v a) (.v b)) t
    fun x y => (code t sat (min (num t x) (num t y)), 0)) ∧
  (∀ t r sat, t.isFloat = false → Masked2 (fun k d a b => .vmin t r sat (some k) (.v d) (.v a) (.v b)) t
    fun x y => (code t sat (min (num t x) (num t y)), 0)) ∧
  (∀ t r sat, t.isFloat = false → Lanes2 (fun d a b => .vmax t r sat none (.v d) (.v a) (.v b)) t
    fun x y => (code t sat (max (num t x) (num t y)), 0)) ∧
  (∀ t r sat, t.isFloat = false → Masked2 (fun k d a b => .vmax t r sat (some k) (.v d) (.v a) (.v b)) t
    fun x y => (code t sat (max (num t x) (num t y)), 0)) ∧
  (∀ t r sat, t.isFloat = true → Lanes2 (fun d a b => .vadd t r sat none (.v d) (.v a) (.v b)) t (fAdd t r sat)) ∧
  (∀ t r sat, t.isFloat = true → Masked2 (fun k d a b => .vadd t r sat (some k) (.v d) (.v a) (.v b)) t (fAdd t r sat)) ∧
  (∀ t r sat, t.isFloat = true → Lanes2 (fun d a b => .vsub t r sat none (.v d) (.v a) (.v b)) t (fSub t r sat)) ∧
  (∀ t r sat, t.isFloat = true → Masked2 (fun k d a b => .vsub t r sat (some k) (.v d) (.v a) (.v b)) t (fSub t r sat)) ∧
  (∀ t r sat, t.isFloat = true → Lanes2 (fun d a b => .vmul t r sat none (.v d) (.v a) (.v b)) t (fMul t r sat)) ∧
  (∀ t r sat, t.isFloat = true → Masked2 (fun k d a b => .vmul t r sat (some k) (.v d) (.v a) (.v b)) t (fMul t r sat)) ∧
  (∀ t r sat, t.isFloat = true → Lanes2 (fun d a b => .vmin t r sat none (.v d) (.v a) (.v b)) t
    fun x y => finite t sat (fMinMax t false x y)) ∧
  (∀ t r sat, t.isFloat = true → Masked2 (fun k d a b => .vmin t r sat (some k) (.v d) (.v a) (.v b)) t
    fun x y => finite t sat (fMinMax t false x y)) ∧
  (∀ t r sat, t.isFloat = true → Lanes2 (fun d a b => .vmax t r sat none (.v d) (.v a) (.v b)) t
    fun x y => finite t sat (fMinMax t true x y)) ∧
  (∀ t r sat, t.isFloat = true → Masked2 (fun k d a b => .vmax t r sat (some k) (.v d) (.v a) (.v b)) t
    fun x y => finite t sat (fMinMax t true x y)) ∧
  (∀ t, t.isFloat = false → Lanes1 (fun d a => .vabs t none (.v d) (.v a)) t fun x => (code t false (num t x).natAbs, 0)) ∧
  (∀ t, t.isFloat = false → Lanes1 (fun d a => .vneg t none (.v d) (.v a)) t fun x => (code t false (-(num t x)), 0)) ∧
  (∀ t, t.isFloat = true → Lanes1 (fun d a => .vabs t none (.v d) (.v a)) t fun x => (x % 2 ^ (tyBits t - 1), 0)) ∧
  (∀ t, t.isFloat = true → Lanes1 (fun d a => .vneg t none (.v d) (.v a)) t fun x =>
    ((x + 2 ^ (tyBits t - 1)) % 2 ^ tyBits t, 0)) ∧
  (∀ (s : State) t r d a b c, laneTy t = true → t.isFloat = false → VecReady s (.vfma t r (.v d) (.v a) (.v b) (.v c)) →
    CleanV s a → CleanV s b → CleanV s c →
    ∃ u, exec (.vfma t r (.v d) (.v a) (.v b) (.v c)) s = .next u ∧ VecDone s u [.v d] 0 ∧
      VecIs u d (tyBits t) fun n => code t false (num t (lane (tyBits t) (s.me.v a).data n) *
        num t (lane (tyBits t) (s.me.v b).data n) + num t (lane (tyBits t) (s.me.v c).data n))) ∧
  (∀ (s : State) t r d a b c, laneTy t = true → t.isFloat = true → VecReady s (.vfma t r (.v d) (.v a) (.v b) (.v c)) →
    CleanV s a → CleanV s b → CleanV s c →
    ∃ u fl, exec (.vfma t r (.v d) (.v a) (.v b) (.v c)) s = .next u ∧ VecDone s u [.v d] fl ∧
      VecIs u d (tyBits t) fun n => (fFma t r (lane (tyBits t) (s.me.v a).data n) (lane (tyBits t) (s.me.v b).data n)
        (lane (tyBits t) (s.me.v c).data n)).1)

namespace Sys2Proof.Claims

/-- A bitwise instruction of two registers. -/
def Bits2 (i : Fin 8 → Fin 8 → Fin 8 → Instr) (f : BitVec 1024 → BitVec 1024 → BitVec 1024) : Prop :=
  ∀ (s : State) d a b, VecReady s (i d a b) → CleanV s a → CleanV s b →
    ∃ u, exec (i d a b) s = .next u ∧ VecDone s u [.v d] 0 ∧ (u.me.v d).data = f (s.me.v a).data (s.me.v b).data ∧
      ∀ j (h : j < 32), (u.me.v d).lab[j] = 0
/-- The conditions on lanes (R204). -/
def holds (t : Ty) : Cond → Nat → Nat → Bool
  | .eq, x, y => x == y
  | .ne, x, y => x != y
  | .lt, x, y => decide ((BitVec.ofNat (tyBits t) x).toInt < (BitVec.ofNat (tyBits t) y).toInt)
  | .ge, x, y => decide ((BitVec.ofNat (tyBits t) y).toInt ≤ (BitVec.ofNat (tyBits t) x).toInt)
  | .lo, x, y => decide (x < y)
  | .hs, x, y => decide (y ≤ x)

end Sys2Proof.Claims

/-- R203 to R205: VAND, VOR, VXOR, VSHL, VSHR, VSCALE, VCMP, VSEL, VCVT, VBCAST and VMASK. -/
def Obligations.VectorBitsAndMasks : Prop :=
  (∀ t, laneTy t = true → Bits2 (fun d a b => .vand t (.v d) (.v a) (.v b)) (· &&& ·)) ∧
  (∀ t, laneTy t = true → Bits2 (fun d a b => .vor t (.v d) (.v a) (.v b)) (· ||| ·)) ∧
  (∀ t, laneTy t = true → Bits2 (fun d a b => .vxor t (.v d) (.v a) (.v b)) (· ^^^ ·)) ∧
  (∀ t, t.isFloat = false → Lanes2 (fun d a b => .vshl t (.v d) (.v a) (.v b)) t fun x y =>
    (x * 2 ^ (y % tyBits t) % 2 ^ tyBits t, 0)) ∧
  (∀ t, t.isFloat = false → Lanes2 (fun d a b => .vshr t (.v d) (.v a) (.v b)) t fun x y =>
    (code t false (num t x / 2 ^ (y % tyBits t)), 0)) ∧
  (∀ (t : FTy) r, Lanes2 (fun d a b => .vscale t r (.v d) (.v a) (.v b)) t.ty fun x y =>
    fScale t.ty r x (BitVec.ofNat (tyBits t.ty) y).toInt) ∧
  (∀ (s : State) c t d a b, laneTy t = true → t.isFloat = false → VecReady s (.vcmp c t d (.v a) (.v b)) →
    CleanV s a → CleanV s b →
    ∃ u, exec (.vcmp c t d (.v a) (.v b)) s = .next u ∧ VecDone s u [.m d] 0 ∧
      (∀ j (h : j < 32), (u.me.m d).lab[j] = 0) ∧ ∀ k, k < 128 → (u.me.m d).bits.getLsbD k =
        holds t c (lane (tyBits t) (s.me.v a).data (k / (tyBits t / 8))) (lane (tyBits t) (s.me.v b).data (k / (tyBits t / 8)))) ∧
  (∀ (s : State) d m b c, VecReady s (.vsel (.v d) m (.v b) (.v c)) → CleanV s b → CleanV s c → CleanM s m →
    ∃ u, exec (.vsel (.v d) m (.v b) (.v c)) s = .next u ∧ VecDone s u [.v d] 0 ∧
      (∀ j (h : j < 32), (u.me.v d).lab[j] = 0) ∧ ∀ k, k < 1024 → (u.me.v d).data.getLsbD k =
        if (s.me.m m).bits.getLsbD (k / 8) then (s.me.v b).data.getLsbD k else (s.me.v c).data.getLsbD k) ∧
  (∀ (s : State) ta tb r sat d a, laneTy ta = true → laneTy tb = true → VecReady s (.vcvt ta tb r sat (.v d) (.v a)) →
    CleanV s a →
    ∃ u fl, exec (.vcvt ta tb r sat (.v d) (.v a)) s = .next u ∧ VecDone s u [.v d] fl ∧
      VecIs u d (tyBits ta) fun n => if n < 1024 / max (tyBits ta) (tyBits tb) then
        (cvtLane ta tb r sat (lane (tyBits tb) (s.me.v a).data n)).1 else 0) ∧
  (∀ (s : State) t d a, laneTy t = true → VecReady s (.vbcastG t (.v d) a) →
    ∃ u, exec (.vbcastG t (.v d) a) s = .next u ∧ VecDone s u [.v d] 0 ∧
      (∀ j (h : j < 32), (u.me.v d).lab[j] = s.lab (s.me.g a).lab) ∧
      ∀ n, n < 1024 / tyBits t → lane (tyBits t) (u.me.v d).data n = src t (s.me.g a)) ∧
  (∀ (s : State) t d a, laneTy t = true → VecReady s (.vbcastF t (.v d) a) →
    ∃ u, exec (.vbcastF t (.v d) a) s = .next u ∧ VecDone s u [.v d] 0 ∧
      (∀ j (h : j < 32), (u.me.v d).lab[j] = s.lab (s.me.f a).lab) ∧
      ∀ n, n < 1024 / tyBits t → lane (tyBits t) (u.me.v d).data n = src t (s.me.f a)) ∧
  (∀ (s : State) d a b, VecReady s (.vmask d a b) → s.lab (s.me.g a).lab = 0 → s.lab (s.me.g b).lab = 0 →
    ∃ u, exec (.vmask d a b) s = .next u ∧ VecDone s u [.m d] 0 ∧ (∀ j (h : j < 32), (u.me.m d).lab[j] = 0) ∧
      ∀ k, k < 128 → (u.me.m d).bits.getLsbD k =
        (decide ((s.me.g a).val.toNat ≤ k) && decide (k < (s.me.g a).val.toNat + (s.me.g b).val.toNat)))

namespace Sys2Proof.Claims

/-- The binary tree of R50 over 2^n lanes: each half alone, then the two results, the lower half on the left. -/
def halves (op : Nat → Nat → Nat) : Nat → List Nat → Nat
  | 0, l => l.headD 0
  | n + 1, l => op (halves op n (l.take (2 ^ n))) (halves op n (l.drop (2 ^ n)))
/-- The lanes of a register. -/
def lanesIn (w : Nat) (x : BitVec 1024) : List Nat := (List.range (1024 / w)).map (lane w x)

end Sys2Proof.Claims

/-- R50 and R206: VRED of integers gives the sum of all lanes modulo 2^64, or their largest or smallest; of floats the
values of the binary tree. -/
def Obligations.VectorReductions : Prop :=
  (∀ (s : State) t r d a, laneTy t = true → t.isFloat = false → VecReady s (.vred .add t r d (.v a)) → CleanV s a →
    ∃ u, exec (.vred .add t r d (.v a)) s = .next u ∧ s.movedOn u ∧ s.me.keeps u.me [.g d] ∧
      (d ≠ 0 → u.me.g d = ⟨BitVec.ofInt 64 (((lanesIn (tyBits t) (s.me.v a).data).map (num t)).foldl (· + ·) 0), 0⟩)) ∧
  (∀ (s : State) t r d a, laneTy t = true → t.isFloat = false → VecReady s (.vred .max t r d (.v a)) → CleanV s a → d ≠ 0 →
    ∃ u, exec (.vred .max t r d (.v a)) s = .next u ∧ s.movedOn u ∧ s.me.keeps u.me [.g d] ∧
      ∃ z ∈ (lanesIn (tyBits t) (s.me.v a).data).map (num t), u.me.g d = ⟨BitVec.ofInt 64 z, 0⟩ ∧
        ∀ x ∈ (lanesIn (tyBits t) (s.me.v a).data).map (num t), x ≤ z) ∧
  (∀ (s : State) t r d a, laneTy t = true → t.isFloat = false → VecReady s (.vred .min t r d (.v a)) → CleanV s a → d ≠ 0 →
    ∃ u, exec (.vred .min t r d (.v a)) s = .next u ∧ s.movedOn u ∧ s.me.keeps u.me [.g d] ∧
      ∃ z ∈ (lanesIn (tyBits t) (s.me.v a).data).map (num t), u.me.g d = ⟨BitVec.ofInt 64 z, 0⟩ ∧
        ∀ x ∈ (lanesIn (tyBits t) (s.me.v a).data).map (num t), z ≤ x) ∧
  (∀ (s : State) (r : Rnd) (d : GReg) a (f : FReg), f.val = d.val → VecReady s (.vred .add .f32 r d (.v a)) → CleanV s a →
    ∃ u fl, exec (.vred .add .f32 r d (.v a)) s = .next u ∧ s.movedOn u ∧
      Ctx.keeps { s.me with fflags := s.me.fflags ||| fl } u.me [.f f] ∧
      u.me.f f = ⟨BitVec.ofNat 64 (halves (fun x y => (fAdd .f32 r false x y).1) 5 (lanesIn 32 (s.me.v a).data)), 0⟩)

/-- R207: VLD takes 128 bytes from any byte address and VST stores the bytes whose mask bit is set, at the own core's
memory and inside one 256-byte block; no other byte changes. -/
def Obligations.VectorMemory : Prop :=
  (∀ (s : State) acq d m l, VecReady s (.vld acq (.v d) m) → s.unlabelled m.regs = true →
    (s.me.ea m).toNat % 256 ≤ 128 → s.check (s.me.ea m) 128 1 .load = .ok l → OwnHome s l → homeOf l.ha = s.core →
    (acq.isSome = true → s.here.window = []) → (∀ x ∈ s.loadLabs (s.req .load l 0 128), s.lab x = 0) →
    ∃ u, exec (.vld acq (.v d) m) s = .next u ∧ VecDone (arrives s) u [.v d] 0 ∧
      (u.me.v d).data = BitVec.ofNat 1024 (readNat s l.ha 128) ∧ ∀ j (h : j < 32), (u.me.v d).lab[j] = 0) ∧
  (∀ (s : State) a k m l, VecReady s (.vst none (.v a) k m) → s.unlabelled m.regs = true → s.Inv →
    (s.me.ea m).toNat % 256 ≤ 128 → s.check (s.me.ea m) 128 1 .store = .ok l → OwnHome s l → homeOf l.ha = s.core →
    l.fixed = false → s.readOnly l.ha 128 = false → l.plane = none → CleanV s a → CleanM s k →
    ∃ u, exec (.vst none (.v a) k m) s = .next u ∧ s.movedOn u ∧ s.me.keeps u.me [] ∧ s.othersKept u ∧
      (∀ i, i < 128 → u.byteAt (l.ha + i) =
        if (s.me.m k).bits.getLsbD i then (s.me.v a).data.extractLsb' (8 * i) 8 else s.byteAt (l.ha + i)) ∧
      (∀ b, (b < l.ha ∨ l.ha + 128 ≤ b) → u.byteAt b = s.byteAt b) ∧ ∀ b, u.fullAt b = s.fullAt b)

namespace Sys2Proof.Claims

/-- The address n instructions on in program order. -/
def afterSlots : Nat → Word → Word
  | 0, p => p
  | n + 1, p => afterSlots n (nextPc p)

end Sys2Proof.Claims

/-- R208 to R211: VLOOP gives a captured body and its count to the sequencer and goes on after the body; with a count of
0 nothing runs; iterations are counted down and the loop ends after the last. SCFG binds a stream register to a record
and unbinds it; an instruction that reads the stream takes its next elements and moves it on. -/
def Obligations.LoopsAndStreams : Prop :=
  (∀ (s : State) n c body k, s.clear (.vloop n c) = true → s.unlabelled [c] = true → c ≠ 0 → s.me.dbg.step = false →
    (s.me.g c).val.toNat = k + 1 → s.capture (slotsFrom n.toNat (nextPc s.me.pc)) = .ok body →
    ∃ u x, exec (.vloop n c) s = .next u ∧ u.here.loops = s.here.loops ++ [x] ∧ x.key = s.key ∧ x.body = body ∧
      x.left = some (k + 1) ∧ u.me.pc = s.me.goesTo (afterSlots (n.toNat + 1) s.me.pc) ∧ u.me.run = .run ∧ s.me.keeps u.me [] ∧
      s.sameMemory u) ∧
  (∀ (s : State) n c body, s.clear (.vloop n c) = true → s.unlabelled [c] = true → c ≠ 0 →
    (s.me.g c).val = 0 → s.capture (slotsFrom n.toNat (nextPc s.me.pc)) = .ok body →
    ∃ u, exec (.vloop n c) s = .next u ∧ u.here.loops = s.here.loops ∧ u.me.pc = s.me.goesTo (afterSlots (n.toNat + 1) s.me.pc) ∧
      s.me.keeps u.me [] ∧ s.onlyMe u) ∧
  (∀ (s : State) core l n, (s.coreAt core).loops = [l] → keySet l.key = (s.coreAt core).cur →
    (s.coreAt core).live = true → l.stopped = false → l.at_ = l.body.length → l.left = some (n + 1) →
    ∃ u, exec (.vloopIteration core) s = .next u ∧ (u.coreAt core).loops = [{ l with left := some n, at_ := 0 }]) ∧
  (∀ (s : State) core l, (s.coreAt core).loops = [l] → keySet l.key = (s.coreAt core).cur →
    (s.coreAt core).live = true → l.stopped = false → l.at_ = l.body.length → l.left = some 0 →
    ∃ u, exec (.vloopIteration core) s = .next u ∧ (u.coreAt core).loops = []) ∧
  (∀ (s : State) (d : FReg) (n : Fin 8), s.clear (.scfg d 0 0) = true → d.val = 24 + n.val →
    exec (.scfg d 0 0) s = .next (s.modMe fun c => (c.setStrm n none).retire)) ∧
  (∀ (s : State) (d : FReg) (n : Fin 8) b off l, s.clear (.scfg d b off) = true → d.val = 24 + n.val →
    ¬ (b = 0 ∧ off = 0) → s.unlabelled [b] = true → (s.me.eaOff b off).toNat % 64 = 0 → s.allPerformed = true →
    s.check (s.me.eaOff b off) 64 1 .load = .ok l → l.home = s.core → s.here.halted = false → s.store.bad = [] →
    s.inOwnTurn = true → Shape.check { raw := BitVec.ofNat 512 (readNat s l.ha 64), addr := s.me.eaOff b off } scfgWant = 0 →
    ∃ u, exec (.scfg d b off) s = .next u ∧ s.movedOn u ∧ s.me.keeps u.me [] ∧ s.onlyMe u ∧ u.me.strm n =
      some { shape := { raw := BitVec.ofNat 512 (readNat s l.ha 64), addr := s.me.eaOff b off } }) ∧
  (∀ (s : State) t d n b x v, VecReady s (.vand t (.v d) (.s n) (.v b)) → s.me.strm n = some x →
    x.dir ≠ some false → x.next ≠ 0 → s.popStream x = .ok v → CleanV s b → (∀ l ∈ v.lab, ∀ h ∈ l, s.lab h = 0) →
    ∃ u, exec (.vand t (.v d) (.s n) (.v b)) s = .next u ∧ VecDone s u [.v d] 0 ∧
      (u.me.v d).data = v.data &&& (s.me.v b).data ∧ u.me.strm n = some x.popped)

-- The matrix engine (15_matrix.md)

namespace Sys2Proof.Claims

/-- The half of the acting context, with an entry free and nobody waiting for one (R252). -/
def myHalf (s : State) : Half := s.half s.core (s.here.halfNo s.key)
def HalfFree (s : State) : Prop := (myHalf s).queue.length < 2 ∧ (myHalf s).offers = []
/-- A matrix instruction is accepted: it stands last in the half's queue, its token is pending with the empty label, and
its context goes on. -/
def Queued (s t : State) (tok : GReg) (p : MatOp → Prop) : Prop :=
  (∃ op, (t.half s.core (s.here.halfNo s.key)).queue = (myHalf s).queue ++ [op] ∧ op.key = s.key ∧ op.tok = tok ∧ p op) ∧
  (t.half s.core (s.here.halfNo s.key)).accepted = (myHalf s).accepted + 1 ∧
  (tok ≠ 0 → tok ∈ t.me.pend ∧ t.me.g tok = ⟨(s.me.g tok).val, 0⟩) ∧ s.movedOn t ∧ s.me.keeps t.me [.g tok] ∧
  s.sameMemory t
/-- Operand records A and B that the checks of R253 pass; bit 63 of gB says that B comes from the stream port. -/
def Records (s : State) (a b : GReg) (ra rb : Shape) : Prop :=
  s.matRecord (s.me.g a).val false = .ok ra ∧
  s.matRecord (if (s.me.g b).val.getLsbD 63 then (s.me.g b).val &&& ~~~(1#64 <<< 63) else (s.me.g b).val)
    ((s.me.g b).val.getLsbD 63) = .ok rb ∧
  ra.check {} = 0 ∧ rb.check {} = 0 ∧ ra.dims ≤ 2 ∧ rb.dims ≤ 2 ∧ ra.ext1 ≤ s.here.rows s.key ∧ rb.ext 0 ≤ 64 ∧
  ra.ext 0 = rb.ext1 ∧ ra.ext 0 ≤ 65536
/-- A setting of MCTL is accepted. -/
def Sets (i : GReg → GReg → Instr) (f : Nat) (root : Bool) (ok : State → Word → Prop) : Prop :=
  ∀ (s : State) a b, s.clear (i a b) = true → s.unlabelled [a, b] = true → HalfFree s → (root = true → Root s) →
    (s.me.g a).val.toNat = f → ok s (s.me.g b).val →
    ∃ t, exec (i a b) s = .next t ∧
      Queued s t 0 fun op => op.kind = .mctl ∧ op.x.toNat = f ∧ op.y = (s.me.g b).val
/-- No pairing holds the core's array (R363). -/
def Unpaired (s : State) : Prop := (s.here.paired[keySet s.key]?).getD false = false

end Sys2Proof.Claims

/-- R252, R253, R260 to R262, R264, R265 and R271 to R273: MMUL, MSCA, MSLICE, MZERO, RTEST, KSET and MCTL that pass
their checks are accepted into the half's queue when an entry is free; a tile above 5 is refused with code 0x45. -/
def Obligations.MatrixAcceptance : Prop :=
  (∀ (s : State) t neg nacc tok c a b k ra rb off len (kr : Option KReg), s.clear (.mmul t neg nacc tok c a b k) = true →
    s.unlabelled [c, a, b, k] = true → HalfFree s → Records s a b ra rb → (s.me.g c).val.toNat ≤ 5 →
    (s.me.g k).val.toNat = off + len * 2 ^ 32 + (match kr with | some r => (4 + r.val) * 2 ^ 48 | none => 0) →
    off < 2 ^ 32 → 0 < len → len < 2 ^ 16 → off + len ≤ ra.ext 0 →
    (∀ r, kr = some r → len % 8 = 0 ∧ s.kOther r = false) → mmulFmt t false ra.ty = true → mmulFmt t true rb.ty = true →
    ∃ u, exec (.mmul t neg nacc tok c a b k) s = .next u ∧ Queued s u tok fun op => op.kind = .mmul ∧ op.t = t ∧
      op.neg = neg ∧ op.nacc = nacc ∧ op.tile = (s.me.g c).val.toNat ∧ op.a = ra ∧ op.b = rb ∧
      op.port = (s.me.g b).val.getLsbD 63 ∧ op.koff = off ∧ op.klen = len ∧ op.kreg = kr) ∧
  (∀ (s : State) t tok c a b la lb, s.clear (.msca t tok c a b) = true → s.unlabelled [c, a, b] = true → HalfFree s →
    s.clusterSpot (s.me.g a).val 2 = .ok la → s.clusterSpot (s.me.g b).val 2 = .ok lb → (s.me.g c).val.toNat ≤ 5 →
    ∃ u, exec (.msca t tok c a b) s = .next u ∧ Queued s u tok fun op => op.kind = .msca ∧ op.t = t ∧
      op.tile = (s.me.g c).val.toNat ∧ op.x = (s.me.g a).val ∧ op.y = (s.me.g b).val) ∧
  (∀ (s : State) t neg nacc tok c a b r ra rb, s.clear (.msliceReg t neg nacc tok c a b r) = true →
    s.unlabelled [c, a, b, r] = true → HalfFree s → Records s a b ra rb → (s.me.g c).val.toNat ≤ 5 →
    ra.ty = some t → rb.ty = some t → 0 < (s.me.g r).val.toNat → (s.me.g r).val.toNat ≤ maxS t →
    ∃ u, exec (.msliceReg t neg nacc tok c a b r) s = .next u ∧ Queued s u tok fun op => op.kind = .mslice ∧
      op.t = t ∧ op.neg = neg ∧ op.nacc = nacc ∧ op.tile = (s.me.g c).val.toNat ∧ op.a = ra ∧ op.b = rb ∧
      op.s = (s.me.g r).val.toNat) ∧
  (∀ (s : State) t neg nacc tok c a b (n : BitVec 40) ra rb, s.clear (.msliceImm t neg nacc tok c a b n) = true →
    s.unlabelled [c, a, b] = true → HalfFree s → Records s a b ra rb → (s.me.g c).val.toNat ≤ 5 →
    ra.ty = some t → rb.ty = some t → 0 < n.toNat → n.toNat ≤ maxS t →
    ∃ u, exec (.msliceImm t neg nacc tok c a b n) s = .next u ∧ Queued s u tok fun op => op.kind = .mslice ∧
      op.t = t ∧ op.neg = neg ∧ op.nacc = nacc ∧ op.tile = (s.me.g c).val.toNat ∧ op.a = ra ∧ op.b = rb ∧
      op.s = n.toNat) ∧
  (∀ (s : State) tok c, s.clear (.mzero tok c) = true → s.unlabelled [c] = true → HalfFree s →
    (s.me.g c).val.toNat ≤ 5 →
    ∃ u, exec (.mzero tok c) s = .next u ∧
      Queued s u tok fun op => op.kind = .mzero ∧ op.tile = (s.me.g c).val.toNat) ∧
  (∀ (s : State) tok c, s.clear (.mzero tok c) = true → s.unlabelled [c] = true → CanTrap s →
    5 < (s.me.g c).val.toNat →
    ∃ u, exec (.mzero tok c) s = .next u ∧ u.me.ecause = cause 0x17 0x45 s.me.slot2 ∧ u.me.pc = s.me.tvec ∧
      (u.half s.core (s.here.halfNo s.key)).queue = (myHalf s).queue) ∧
  (∀ (s : State) tok c a rows cols, s.clear (.rtest tok c a) = true → s.unlabelled [c, a] = true → HalfFree s →
    (s.me.g c).val.toNat ≤ 5 → (s.me.g a).val.toNat = rows + 256 * cols → 0 < rows → rows ≤ s.here.rows s.key →
    0 < cols → cols ≤ 64 →
    ∃ u, exec (.rtest tok c a) s = .next u ∧ Queued s u tok fun op => op.kind = .rtest ∧
      op.tile = (s.me.g c).val.toNat ∧ op.rows = rows ∧ op.cols = cols) ∧
  (∀ (s : State) k a l, s.clear (.kset k a) = true → s.unlabelled [a] = true → HalfFree s → s.kOther k = false →
    s.clusterSpot (s.me.g a).val 2 = .ok l →
    ∃ u, exec (.kset k a) s = .next u ∧
      Queued s u 0 fun op => op.kind = .kset ∧ op.kreg = some k ∧ op.x = (s.me.g a).val) ∧
  Sets .mctlSetP 0 false (fun _ v => v.toNat ∈ [32, 64, 128, 256, 512, 1024]) ∧
  Sets .mctlSetSplit 1 true (fun s v => v.toNat ≤ 1 ∧ Unpaired s) ∧
  Sets .mctlSetRhalf 2 true (fun s v => v.toNat ≤ 1 ∧ s.here.matrix.split = true ∧ Unpaired s) ∧
  Sets .mctlSetTol 3 false (fun _ v => ∃ m e, decF .f64 v.toNat = .fin false m e) ∧
  Sets .mctlSetBnorm 4 false (fun _ v => ∃ m e, decF .f64 v.toNat = .fin false m e) ∧
  Sets .mctlSetCap 5 false (fun _ v => v.toNat < 2 ^ 32) ∧ Sets .mctlSetIter 6 false (fun _ v => v.toNat < 2 ^ 32)

namespace Sys2Proof.Claims

/-- Everything that the half had accepted has completed, and the context did not wait for less (R252). -/
def HalfDone (s : State) : Prop := s.me.goal = [] ∧ (myHalf s).accepted ≤ (myHalf s).completed
/-- A half whose engine runs on: no stop and no engine-freeze, and no MMOVE of it reads its tile (R252, R275). -/
def Runs (s : State) (core : CoreNo) (h : Fin 2) : Prop := (s.coreAt core).enginesRun = true ∧ s.moveFirst core h.val = false
/-- A context of a core as the one that acts. -/
def acting (s : State) (core : CoreNo) (key : Nat) : State := { s with core := core, asKey := some key }
/-- A context that waits for an entry of a queue, first of those that do, and executes its instruction again: its core goes
on, its set is the current one, and no stop holds it (R252, R278). -/
def Waiting (s : State) (core : CoreNo) (key : Nat) (w : Why) (i : Instr) : Prop :=
  (s.coreAt core).live = true ∧ keySet key = (s.coreAt core).cur ∧ (s.ctxAt core key).run = .wait w ∧
  (s.ctxAt core key).stopped = false ∧ (∃ x, (s.ctxAt core key).inst = some x ∧ x.i1 = i) ∧
  (acting s core key).clear i = true
/-- An instruction in progress that can commit: its operands have been read. -/
def Going (s : State) (core : CoreNo) (h : Fin 2) (r : MatRun) (k : MatKind) : Prop :=
  (s.coreAt core).enginesRun = true ∧ (s.half core h.val).run = some r ∧ r.op.kind = k ∧ r.done = false ∧
  r.stop = none ∧ r.asked = none ∧ r.stage = .read ∧ r.ready = true ∧ r.op.tile < 6
/-- A context of a core is bound to the half that another one is bound to (R248, R366). -/
def SameHalf (c : CoreSt) (key n : Nat) : Prop :=
  c.tenantNo (keySet n) = c.tenantNo (keySet key) ∧ c.halfNo n = c.halfNo key
/-- The bytes of one element of a half's tile as MMOVE writes it. -/
def moveBytes (s : State) (tn p : Nat) : Nat := elemBytes ((myHalf s).tile tn).tag (p == 1)
/-- The bits that MMOVE writes of an element: of its partial or of its own word. -/
def moveBits (s : State) (tn p i j : Nat) : Nat :=
  (if p = 1 then (((myHalf s).tile tn).at_ i j).2 else (((myHalf s).tile tn).at_ i j).1).toNat %
    2 ^ (8 * moveBytes s tn p)
/-- A selection of MMOVE that its checks pass, of a region that begins at a place of one local store (R269). -/
def Moves (s : State) (b : GReg) (off : BitVec 40) (a : GReg) (tn p rows cols : Nat) (l : Loc) : Prop :=
  (s.me.g a).val.toNat = tn + 16 * p + 2 ^ 8 * rows + 2 ^ 16 * cols ∧ tn ≤ 5 ∧ p ≤ 1 ∧ 0 < rows ∧
  rows ≤ s.here.rows s.key ∧ 0 < cols ∧ cols ≤ 64 ∧ s.clusterSpot (s.me.eaOff b off) (moveBytes s tn p) = .ok l ∧
  s.oneStore l.home [(s.me.eaOff b off).toNat + (rows * cols - 1) * moveBytes s tn p] = .ok ()
/-- A tile's word for an element. -/
def cell (s : State) (core : CoreNo) (h : Fin 2) (n i j : Nat) : Word × Word := ((s.half core h.val).tile n).at_ i j
/-- The exact sum of products of one promotion (R262). -/
def product (r : MatRun) (ks : List Nat) (i j : Nat) : Int :=
  (ks.map fun k => entryOf (r.op.a.ty.getD .i8) r.op.a.shift (r.a.getD (i * r.op.a.ext 0 + k) 0) *
    entryOf (r.op.b.ty.getD .i8) r.op.b.shift (r.b.getD (k * r.op.b.ext 0 + j) 0)).foldl (· + ·) 0
/-- The status that the token of a finished instruction takes; any other register of its context keeps its value. -/
def TokenTakes (s t : State) (core : CoreNo) (key : Nat) (tok : GReg) (v : Word) : Prop :=
  (tok ≠ 0 → tok ∈ (s.ctxAt core key).pend → (t.ctxAt core key).g tok = ⟨v, 0⟩ ∧ tok ∉ (t.ctxAt core key).pend) ∧
  ∀ r, r ≠ tok → (t.ctxAt core key).g r = (s.ctxAt core key).g r

end Sys2Proof.Claims

/-- R252, R254, R255, R269 to R274: MMOVE writes a region of the own core's store row by row with the tile's label, sends
one of another core's in pieces of 64-byte blocks and waits until they are performed, or reports the half's fault;
MWAIT answers the fault and MSTAT the counters, and each clears what it answers. When an entry frees, the first waiting
context executes its instruction again, and it is accepted. A half starts its oldest instruction,
commits it, and writes its token; a faulted half cancels with 0x5F. MZERO empties a tile, an MMUL promotion adds the
exact sum to every partial and saturates it, MCTL sets its field, and RTEST counts an iteration. KSET sets the half's k
register, which every context bound to the half holds as its own (log 11). A fault ends its instruction: it is logged with
PC 0 where the partition has a record, and the half holds its code and record. -/
def Obligations.MatrixEngine : Prop :=
  (∀ (s : State) b off a tn rows cols p l, s.clear (.mmove b off a) = true → s.unlabelled [b, a] = true → s.Inv →
    HalfDone s → (myHalf s).fault = none → Moves s b off a tn p rows cols l → OwnHome s l → l.fixed = false →
    s.here.window = [] → (∀ x n, s.readOnly (l.ha + x) n = false) →
    ∃ t, exec (.mmove b off a) s = .next t ∧ s.movedOn t ∧ s.me.keeps t.me [] ∧
      (∀ i j, i < rows → j < cols →
        t.natAt (l.ha + (i * cols + j) * moveBytes s tn p) (moveBytes s tn p) = moveBits s tn p i j) ∧
      (∀ n, n < rows * cols * moveBytes s tn p → t.tagAt (l.ha + n) = ((myHalf s).tile tn).lab) ∧
      (∀ x, (x < l.ha ∨ l.ha + rows * cols * moveBytes s tn p ≤ x) → t.byteAt x = s.byteAt x)) ∧
  (∀ (s : State) b off a tn rows cols p l, s.clear (.mmove b off a) = true → s.unlabelled [b, a] = true →
    HalfDone s → (myHalf s).fault = none → Moves s b off a tn p rows cols l → l.home ≠ s.core →
    l.ha % 64 + rows * cols * moveBytes s tn p ≤ 64 →
    ∃ t q, exec (.mmove b off a) s = .next t ∧ t.me.run = .wait .reply ∧ t.me.pc = s.me.pc ∧ s.me.keeps t.me [] ∧
      s.sameMemory t ∧ Sends s t l.home .mx (.req q) ∧ q.act = .xput ∧ q.ha = l.ha ∧ q.who = .ctx s.key ∧
      q.labs = [((myHalf s).tile tn).lab] ∧ q.data.length = rows * cols * moveBytes s tn p ∧
      ∀ i j, i < rows → j < cols →
        leNat ((q.data.drop ((i * cols + j) * moveBytes s tn p)).take (moveBytes s tn p)) = moveBits s tn p i j) ∧
  (∀ (s : State) b off a code q, s.clear (.mmove b off a) = true → s.unlabelled [b, a] = true → CanTrap s → HalfDone s →
    (myHalf s).fault = some (code, q) → (s.me.g a).val.toNat ≤ 5 →
    ∃ t, exec (.mmove b off a) s = .next t ∧ Trapped s t 0x1D code (BitVec.ofNat 64 q) ∧
      (t.half s.core (s.here.halfNo s.key)).fault = none ∧ s.sameMemory t) ∧
  (∀ (s : State) d, s.clear (.mwait d) = true → HalfDone s →
    ∃ t, exec (.mwait d) s = .next t ∧ s.movedOn t ∧ s.me.keeps t.me [.g d] ∧ s.sameMemory t ∧
      (t.half s.core (s.here.halfNo s.key)).fault = none ∧ (d ≠ 0 → t.me.g d =
        ⟨statusWord ((myHalf s).fault.getD (0, 0)).1 (0x10 + s.here.halfNo s.key % 2) ((myHalf s).fault.getD (0, 0)).2 0, 0⟩)) ∧
  (∀ (s : State) d, s.clear (.mwait d) = true → s.me.goal = [] → (myHalf s).completed < (myHalf s).accepted →
    ∃ t, exec (.mwait d) s = .next t ∧ t.me.run = .wait .matWork ∧ t.me.pc = s.me.pc ∧ s.me.keeps t.me []) ∧
  (∀ (s : State) d, s.clear (.mstat d) = true → HalfDone s →
    ∃ t, exec (.mstat d) s = .next t ∧ s.movedOn t ∧ s.me.keeps t.me [.g d] ∧ s.sameMemory t ∧
      (t.half s.core (s.here.halfNo s.key)).counters = Vector.replicate 8 0 ∧
      (t.half s.core (s.here.halfNo s.key)).fault = (myHalf s).fault ∧ (d ≠ 0 → (∀ i : Fin 8, (myHalf s).counters[i] < 256) →
        (t.me.g d).lab = 0 ∧ ∀ i : Fin 8, field (t.me.g d).val.toNat (8 * (7 - i.val)) 8 = (myHalf s).counters[i])) ∧
  (∀ (s : State) core (h : Fin 2) key rest tok c, (s.half core h.val).offers = key :: rest →
    (s.half core h.val).queue.length < 2 → Waiting s core key .matQueue (.mzero tok c) →
    (s.coreAt core).halfNo key = h.val → (acting s core key).unlabelled [c] = true →
    ((s.ctxAt core key).g c).val.toNat ≤ 5 →
    ∃ t x, exec (.matrixQueueAccept core h) s = .next t ∧ (t.half core h.val).queue = (s.half core h.val).queue ++ [x] ∧
      x.kind = .mzero ∧ x.tile = ((s.ctxAt core key).g c).val.toNat ∧ x.tok = tok ∧ x.key = key ∧
      (t.half core h.val).accepted = (s.half core h.val).accepted + 1 ∧ key ∉ (t.half core h.val).offers ∧
      (t.ctxAt core key).run = .run ∧ (t.ctxAt core key).pc = (s.ctxAt core key).goesTo (nextPc (s.ctxAt core key).pc)) ∧
  (∀ (s : State) core (h : Fin 2) op rest, Runs s core h → (s.half core h.val).run = none →
    (s.half core h.val).queue = op :: rest → (s.half core h.val).fault = none → ¬ (op.kind = .mctl ∧ op.x = 1) →
    ∃ t r, exec (.matrixInstrStart core h) s = .next t ∧ (t.half core h.val).run = some r ∧ r.op = op ∧ r.done = false ∧
      (t.half core h.val).queue = rest ∧ s.sameMemory t) ∧
  (∀ (s : State) core (h : Fin 2) op rest c q, Runs s core h → (s.half core h.val).run = none →
    (s.half core h.val).queue = op :: rest → (s.half core h.val).fault = some (c, q) →
    ∃ t r, exec (.matrixInstrStart core h) s = .next t ∧ (t.half core h.val).run = some r ∧ r.op = op ∧ r.done = true ∧
      r.code = 0x5F ∧ (t.half core h.val).queue = rest ∧ s.sameMemory t) ∧
  (∀ (s : State) core (h : Fin 2) r, Going s core h r .mzero →
    ∃ t, exec (.matrixCommit core h) s = .next t ∧ (t.half core h.val).run = some { r with done := true } ∧
      (∀ i j, cell t core h r.op.tile i j = (0, 0)) ∧ ((t.half core h.val).tile r.op.tile).tag = .f32 ∧
      ((t.half core h.val).tile r.op.tile).lab = 0 ∧
      ∀ n, n ≠ r.op.tile → (t.half core h.val).tile n = (s.half core h.val).tile n) ∧
  (∀ (s : State) core (h : Fin 2) r, Going s core h r .mmul → r.op.neg = false → (s.half core h.val).pcode < 4 →
    r.steps.length ≤ 32 * 2 ^ (s.half core h.val).pcode → r.op.kreg = none → r.labs = [] → r.code = 0 → r.op.b.ext 0 ≤ 64 →
    ∃ t x, exec (.matrixCommit core h) s = .next t ∧ (t.half core h.val).run = some x ∧ x.op = r.op ∧ x.done = true ∧
      ∀ i j, i < r.op.a.ext1 → j < r.op.b.ext 0 →
        cell t core h r.op.tile i j = ((cell s core h r.op.tile i j).1,
          BitVec.ofInt 64 (max (-(2 ^ 47 - 1)) (min (2 ^ 47 - 1) ((if r.op.nacc ∧ r.pass = 0 then 0
            else (cell s core h r.op.tile i j).2.toInt) + product r r.steps i j))))) ∧
  (∀ (s : State) core (h : Fin 2) r, Going s core h r .mctl →
    (r.op.x = 1 → (s.half core (1 - h.val)).idleFor r.op.num = true) →
    ∃ t, exec (.matrixCommit core h) s = .next t ∧ (t.half core h.val).run = some { r with done := true } ∧
      (r.op.x = 2 → (t.coreAt core).matrix.rhalf = (r.op.y == 1)) ∧
      (r.op.x = 3 → (t.half core h.val).tol = r.op.y) ∧ (r.op.x = 4 → (t.half core h.val).bnorm = r.op.y) ∧
      (r.op.x = 5 → (t.half core h.val).cap = r.op.y.setWidth 32) ∧
      (r.op.x = 6 → (t.half core h.val).iter = r.op.y.setWidth 32) ∧
      (r.op.x = 1 → (t.coreAt core).matrix.split = (r.op.y == 1) ∧ (t.half core h.val).counters = Vector.replicate 8 0 ∧
        ∀ n i j, cell t core h n i j = (0, 0))) ∧
  (∀ (s : State) core (h : Fin 2) r (k : KReg), Going s core h r .kset → r.op.kreg = some k →
    ∃ t, exec (.matrixCommit core h) s = .next t ∧ (t.half core h.val).run = some { r with done := true } ∧
      ∀ n, n < 64 → (SameHalf (s.coreAt core) r.op.key n →
          (t.ctxAt core n).regs.k[k] = { list := r.op.x, pos := 0 } ∧
          ∀ k', k' ≠ k → (t.ctxAt core n).regs.k[k'] = (s.ctxAt core n).regs.k[k']) ∧
        (¬ SameHalf (s.coreAt core) r.op.key n → t.ctxAt core n = s.ctxAt core n)) ∧
  (∀ (s : State) core (h : Fin 2) r, Going s core h r .rtest → s.resolveAt r.op.part ((s.half core h.val).tile r.op.tile).lab = 0 →
    ∃ t x, exec (.matrixCommit core h) s = .next t ∧ (t.half core h.val).run = some x ∧ x.done = true ∧
      (t.half core h.val).iter = (s.half core h.val).iter + 1 ∧ x.count = ((s.half core h.val).iter + 1).toNat ∧
      (x.code = 0 ∨ x.code = 1 ∨ x.code = 2) ∧
      (x.code = 2 → (s.half core h.val).cap ≠ 0 ∧ (s.half core h.val).cap ≤ (s.half core h.val).iter + 1)) ∧
  (∀ (s : State) core (h : Fin 2) r, (s.coreAt core).enginesRun = true → (s.half core h.val).run = some r →
    r.done = true → r.op.key < 64 →
    ∃ t, exec (.matrixComplete core h) s = .next t ∧ (t.half core h.val).run = none ∧
      (t.half core h.val).completed = (s.half core h.val).completed + 1 ∧
      TokenTakes s t core r.op.key r.op.tok (statusWord r.code (0x10 + h.val) r.frec r.count) ∧ s.sameMemory t) ∧
  (∀ (s : State) core (h : Fin 2) c0 a0 r code addr, (s.coreAt core).enginesRun = true →
    (s.half core h.val).run = some r → r.done = false → r.asked = none → r.stop = some (code, addr) → r.op.key < 64 →
    (s.partAt r.op.part).valid = false →
    ∃ t, exec (.matrixFault core h c0 a0) s = .next t ∧ (t.half core h.val).run = none ∧
      (t.half core h.val).fault = some (code, 0) ∧
      (∃ n, n < 2 ^ 32 ∧ TokenTakes s t core r.op.key r.op.tok (statusWord code (0x10 + h.val) 0 n)) ∧
      t.half core (1 - h.val) = s.half core (1 - h.val)) ∧
  (∀ (s : State) core (h : Fin 2) c0 a0 r code addr, (s.coreAt core).enginesRun = true →
    (s.half core h.val).run = some r → r.done = false → r.asked = none → r.stop = some (code, addr) → r.op.key < 64 →
    (s.partAt r.op.part).valid = true → code < 256 → s.Inv →
    ∃ t, exec (.matrixFault core h c0 a0) s = .next t ∧ (t.half core h.val).run = none ∧
      (t.half core h.val).fault = some (code, (s.partAt r.op.part).seq.toNat) ∧
      (∃ n, n < 2 ^ 32 ∧
        TokenTakes s t core r.op.key r.op.tok (statusWord code (0x10 + h.val) (s.partAt r.op.part).seq.toNat n)) ∧
      Logs s t r.op.part code addr core (realKey r.op.key) 0)

-- Copy and transform (16_engines.md)

namespace Sys2Proof.Claims

/-- An operation is accepted: it stands last in its engine's queue, its token is pending with the empty label, and its
context goes on. -/
def Engaged (s t : State) (e : Eng) (tok : GReg) (p : EngOp → Prop) : Prop :=
  (∃ op, (t.eng s.core e).queue = (s.eng s.core e).queue ++ [op] ∧ op.key = s.key ∧ op.tok = tok ∧ p op) ∧
  (t.eng s.core e).accepted = (s.eng s.core e).accepted + 1 ∧
  (tok ≠ 0 → tok ∈ t.me.pend ∧ t.me.g tok = ⟨(s.me.g tok).val, 0⟩) ∧ s.movedOn t ∧ s.me.keeps t.me [.g tok] ∧
  s.sameMemory t
/-- An entry of the engine is free and nobody waits for one (R278). -/
def EngineFree (s : State) (e : Eng) : Prop := (s.eng s.core e).queue.length < 2 ∧ (s.eng s.core e).offers = []
/-- A barrier operand that the checks pass: a 16-byte-aligned local store address of the partition. -/
def BarOk (s : State) (b : Option BarOp) : Prop :=
  ∀ x, b = some x → ∃ l, s.localSpot (s.me.eaOff x.reg (x.off.signExtend 40)) 16 = .ok l
/-- A copy that follows a gather descriptor is accepted. -/
def Gathers (i : GReg → GReg → GReg → GReg → Option BarOp → Instr) (k : EngKind) : Prop :=
  ∀ (s : State) tok d a x b list rowb rows iw, s.clear (i tok d a x b) = true →
    s.unlabelled ([d, a, x] ++ barRegs b) = true → EngineFree s .copy → BarOk s b →
    s.record (s.me.g x).val 16 16 = .ok (list + rowb * 2 ^ 64 + rows * 2 ^ 88 + iw * 2 ^ 112) →
    list < 2 ^ 57 → 0 < rowb → rowb < 2 ^ 24 →
    0 < rows → rows < 2 ^ 24 → iw ≤ 1 → list % (2 + 2 * iw) = 0 → rows * rowb < 2 ^ 32 →
    ∃ t, exec (i tok d a x b) s = .next t ∧ Engaged s t .copy tok fun op => op.kind = k ∧ op.opa = (s.me.g d).val ∧
      op.opb = (s.me.g a).val ∧ op.list.toNat = list ∧ op.iw = 2 + 2 * iw ∧ op.rows = rows ∧ op.rowb = rowb ∧
      op.bytes = rows * rowb ∧ op.bar = b.map fun y => s.me.eaOff y.reg (y.off.signExtend 40)
/-- A transform whose two records the checks pass is accepted. -/
def Transforms (i : GReg → GReg → GReg → Instr) (n : Nat) : Prop :=
  ∀ (s : State) tok l r d e x y, s.clear (i tok l r) = true → s.unlabelled [l, r] = true → EngineFree s .xform →
    (r ≠ 0 → ∃ p, s.localSpot (s.me.g r).val 16 = .ok p) → s.record (s.me.g l).val 64 64 = .ok d →
    s.record ((s.me.g l).val + 64) 64 64 = .ok e →
    x = { raw := BitVec.ofNat 512 d, addr := (s.me.g l).val } →
    y = { raw := BitVec.ofNat 512 e, addr := (s.me.g l).val + 64 } →
    s.recordSpots x = .ok () → s.recordSpots y = .ok () → xfCode n x y = 0 →
    ∃ t, exec (i tok l r) s = .next t ∧ Engaged s t .xform tok fun op => op.kind = .xform n ∧ op.src = x ∧ op.dst = y ∧
      op.bar = if r = 0 then none else some (s.me.g r).val

end Sys2Proof.Claims

/-- R278, R280 to R282 and R290: CPY, CPYG, CPYS and the ten transforms that pass their checks are accepted into the
engine's queue when an entry is free; a byte count of 2^32 or more is refused with code 0x0C. -/
def Obligations.EngineAcceptance : Prop :=
  (∀ (s : State) tok d a n b, s.clear (.cpy tok d a n b) = true → s.unlabelled ([d, a, n] ++ barRegs b) = true →
    EngineFree s .copy → BarOk s b → (s.me.g n).val.toNat < 2 ^ 32 →
    ∃ t, exec (.cpy tok d a n b) s = .next t ∧ Engaged s t .copy tok fun op => op.kind = .cpy ∧ op.opa = (s.me.g d).val ∧
      op.opb = (s.me.g a).val ∧ op.bytes = (s.me.g n).val.toNat ∧
      op.bar = b.map fun y => s.me.eaOff y.reg (y.off.signExtend 40)) ∧
  (∀ (s : State) tok d a n, s.clear (.cpy tok d a n none) = true → s.unlabelled [d, a, n] = true → CanTrap s →
    2 ^ 32 ≤ (s.me.g n).val.toNat →
    ∃ t, exec (.cpy tok d a n none) s = .next t ∧ t.me.ecause = cause 0x17 0x0C s.me.slot2 ∧ t.me.pc = s.me.tvec ∧
      (t.eng s.core .copy).queue = (s.eng s.core .copy).queue) ∧
  Gathers .cpyg .cpyg ∧ Gathers .cpys .cpys ∧
  Transforms .xformReshape 0 ∧ Transforms .xformCompact 1 ∧ Transforms .xformExpand 2 ∧ Transforms .xformMxPack 3 ∧
  Transforms .xformMxPackSat 4 ∧ Transforms .xformMxUnpack 5 ∧ Transforms .xformDeltaEncode 6 ∧
  Transforms .xformDeltaDecode 7 ∧ Transforms .xformZeroRun 8 ∧ Transforms .xformDeltaZeroRun 9

namespace Sys2Proof.Claims

/-- An engine has begun an operation, and it is the turn of its accesses to its own core's store (R186); u is the state
once that access has reached it. -/
def Begun (s u : State) (core : CoreNo) (e : Eng) (op : EngOp) : Prop :=
  (s.coreAt core).enginesRun = true ∧ (s.eng core e).run = some { op, seen := s.store } ∧
  s.engTurn core e { op, seen := s.store } = true ∧ u = s.arrival core core (engPath e) (realKey op.key % 16)

end Sys2Proof.Claims

/-- R278, R281, R285 and R286: when an entry frees, the first waiting context executes its instruction again, and it is
accepted; an engine takes its oldest operation, which frees its entry (the model's choice, log 120); a copy of at most 64
bytes of its own core's memory that stays in one piece leaves the source's bytes at the destination, on the engine's own
path, and no other byte changed; a finished operation, all of whose writes are answered, gives its token the code, the
engine and the count; a fault ends the operation with its code; an engine held at a page fault goes on once acknowledged. -/
def Obligations.EngineOperation : Prop :=
  (∀ (s : State) core key rest tok d a n, (s.eng core .copy).offers = key :: rest → (s.eng core .copy).queue.length < 2 →
    Waiting s core key (.engQueue .copy) (.cpy tok d a n none) → (acting s core key).unlabelled [d, a, n] = true →
    ((s.ctxAt core key).g n).val.toNat < 2 ^ 32 →
    ∃ t x, exec (.engineQueueAccept core .copy) s = .next t ∧ (t.eng core .copy).queue = (s.eng core .copy).queue ++ [x] ∧
      x.kind = .cpy ∧ x.opa = ((s.ctxAt core key).g d).val ∧ x.opb = ((s.ctxAt core key).g a).val ∧
      x.bytes = ((s.ctxAt core key).g n).val.toNat ∧ x.tok = tok ∧ x.key = key ∧
      (t.eng core .copy).accepted = (s.eng core .copy).accepted + 1 ∧ key ∉ (t.eng core .copy).offers ∧
      (t.ctxAt core key).run = .run ∧ (t.ctxAt core key).pc = (s.ctxAt core key).goesTo (nextPc (s.ctxAt core key).pc)) ∧
  (∀ (s : State) core e op rest, (s.coreAt core).enginesRun = true → (s.eng core e).run = none →
    (s.eng core e).queue = op :: rest →
    ∃ t, exec (.engineCommit core e) s = .next t ∧ (t.eng core e).run = some { op, seen := s.store } ∧
      (t.eng core e).queue = rest ∧ s.sameMemory t) ∧
  (∀ (s u : State) core op n ls ld, s.Inv → Begun s u core .copy op → (s.eng core .copy).buf = [] → op.kind = .cpy →
    op.opa ≠ portAddr →
    op.bytes = n → op.rowb = n → 0 < n → op.opa.toNat % 64 + n ≤ 64 → op.opb.toNat % 64 + n ≤ 64 →
    u.engSpot core op.key op.opb.toNat .load = .ok (ls, u) → u.engSpot core op.key op.opa.toNat .store = .ok (ld, u) →
    ls.home = core → ld.home = core → s.store.bad = [] → (s.coreAt core).parks = [] →
    homeOf ld.ha = core → ld.plane = none → ld.fixed = false → s.readOnly ld.ha n = false →
    (∀ h ∈ s.loadLabs (s.engReq core op.key .copy (.read ls.ha) .load ls op.opb.toNat n),
      s.resolve core (s.partKey core op.key) h = 0) →
    ∃ t r, exec (.engineCommit core .copy) s = .next t ∧ (t.eng core .copy).run = some r ∧ r.op = op ∧ r.done = true ∧
      r.pos = n ∧ r.code = 0 ∧ r.pending = 0 ∧ (t.drain core .copy).natAt ld.ha n = readNat s ls.ha n ∧
      ∀ a, (a < ld.ha ∨ ld.ha + n ≤ a) → (t.drain core .copy).byteAt a = s.byteAt a) ∧
  (∀ (s u : State) core op, Begun s u core .copy op → op.kind = .cpy → op.bytes = 0 →
    ∃ t r, exec (.engineCommit core .copy) s = .next t ∧ (t.eng core .copy).run = some r ∧ r.op = op ∧ r.done = true ∧
      r.pos = 0 ∧ r.code = 0 ∧ s.sameMemory t) ∧
  (∀ (s : State) core e r, (s.coreAt core).enginesRun = true → (s.eng core e).run = some r → r.done = true →
    r.pending = 0 → r.stop = none → r.op.bar = none → r.op.toPort = false → r.op.key < 64 → s.engTurn core e r = true →
    ∃ t, exec (.engineComplete core e) s = .next t ∧ (t.eng core e).run = none ∧
      (t.eng core e).completed = (s.eng core e).completed + 1 ∧ s.sameMemory t ∧
      TokenTakes s t core r.op.key r.op.tok (statusWord r.code (match e with | .copy => 0x20 | .xform => 0x21)
        (if r.code = 0 then min r.sat 65535 else r.frec) r.pos)) ∧
  (∀ (s : State) core e a0 r code addr, (s.coreAt core).enginesRun = true → (s.eng core e).run = some r →
    r.pending = 0 → r.asked = none → r.stop = some (code, addr) →
    ∃ t x, exec (.engineFault core e a0) s = .next t ∧ (t.eng core e).run = some x ∧ x.op = r.op ∧ x.done = true ∧
      x.code = code ∧ x.stop = none) ∧
  (∀ (s : State) core e r, (s.eng core e).run = some r → r.held = true → r.acked = true →
    ∃ t, exec (.enginePageFaultResume core e) s = .next t ∧
      (t.eng core e).run = some { r with held := false, acked := false } ∧ s.sameMemory t)

-- Rewriting (17_rewrite.md)

namespace Sys2Proof.Claims

/-- The free list of the acting context's partition at its core, by the node at its head (R308). -/
def headOfList (s : State) : Word := s.here.flhead (s.hkOf s.core s.key)
/-- Nobody waits at the own core for a word, it answers, and no word of memory is uncorrectable. -/
def Quiet (s : State) : Prop := s.here.halted = false ∧ s.here.parks = [] ∧ s.store.bad = []
/-- A port's slot in memory: its low 40 bits of DW0 at a principal port, a whole double word at an auxiliary one
(R298). -/
def slotIs (s t : State) (x y : BitVec 40) : Prop :=
  t.natAt (slotHa x) 8 = (if x.toNat % 4 = 0 then s.natAt (slotHa x) 8 / 2 ^ 40 * 2 ^ 40 + y.toNat else y.toNat) ∧
  t.tagAt (slotHa x) = 0 ∧ t.tagAt (slotHa x + 4) = 0
/-- Two port words of one home that LINK may join (R297, R309). -/
def Ports (s : State) (x y : BitVec 40) : Prop :=
  x ≠ y ∧ s.portSpot s.core s.key x = true ∧ s.portSpot s.core s.key y = true ∧ portCore x = s.core ∧
  portCore y = s.core ∧ s.portOk x = true ∧ s.portOk y = true
/-- A pair stands at the bottom of the deque. -/
def PushesPair (s t : State) (x y : Word) : Prop :=
  ∃ it : Item, itemsOf t = itemsOf s ++ [it] ∧ it.kind = .pair ∧ it.a = ⟨x, 0⟩ ∧ it.b = ⟨y, 0⟩ ∧ it.set = keySet s.key
/-- A node of the own core, all of its words full, and what LDF reads of it: its 32 bytes and its labels. -/
def ReadsNode (s : State) (va : Word) (n : List Byte × List Handle) : Prop :=
  ∃ l, s.nodeSpot s.core s.key va = some l ∧ l.home = s.core ∧ s.allFull (s.req .ldf l va 32) = true ∧
    n = (s.readAt l.ha 32, s.loadLabs (s.req .ldf l va 32))
/-- The next message of a triple, in the order of R320, has this body. -/
def Next (s : State) (src dst : CoreNo) (p : Path) (m : Msg) (b : Body) : Prop := s.nextOf src dst p = some m ∧ m.body = b

end Sys2Proof.Claims

/-- R304 and R306 to R313: NALLOC takes the head of the free list and writes its header, and an empty list is refused
with 0x72; NFREE puts a node back; LINK writes each port word into the other's slot, and two principal ports push their
pair; PPUSH pushes a pair and PPOP takes the oldest one held; RDISP goes to the routine of the pair's rule with the
return address in g62; RTLOAD sends its image to the label home, which installs it. -/
def Obligations.RewriteInstructions : Prop :=
  (∀ (s : State) d a, s.clear (.nalloc d a) = true → isCompute s.core = true → s.unlabelled [a] = true → s.Inv →
    (s.me.g a).val.toNat < 2 ^ 14 → headOfList s ≠ 0 → Quiet s →
    ∃ t, exec (.nalloc d a) s = .next t ∧ s.movedOn t ∧ s.me.keeps t.me [.g d] ∧ (d ≠ 0 → t.me.g d = ⟨headOfList s, 0⟩) ∧
      Stored s t (ownNode s.core (headOfList s)) 32
        ((s.me.g a).val.toNat % 2 ^ 12 * 2 ^ 52 + (s.me.g a).val.toNat / 2 ^ 12 * 2 ^ 50) ∧
      Tagged s t (ownNode s.core (headOfList s)) 32 0 ∧ Filled s t (ownNode s.core (headOfList s)) 32 true ∧
      headOfList t = BitVec.ofNat 64 (s.natAt (ownNode s.core (headOfList s) + 8) 8)) ∧
  (∀ (s : State) d a, s.clear (.nalloc d a) = true → isCompute s.core = true → s.unlabelled [a] = true → CanTrap s →
    (s.me.g a).val.toNat < 2 ^ 14 → headOfList s = 0 →
    ∃ t, exec (.nalloc d a) s = .next t ∧ t.me.ecause = cause 0x1E 0x72 s.me.slot2 ∧ t.me.pc = s.me.tvec ∧
      t.me.eheld = true) ∧
  (∀ (s : State) a l, s.clear (.nfree a) = true → isCompute s.core = true → s.unlabelled [a] = true → s.Inv →
    s.nodeSpot s.core s.key (s.me.g a).val = some l → l.home = s.core → Quiet s → field (s.natAt l.ha 8) 49 1 = 0 →
    ∃ t, exec (.nfree a) s = .next t ∧ s.movedOn t ∧ s.me.keeps t.me [] ∧
      Stored s t l.ha 32 (2 ^ 49 + (s.here.flhead (2 * s.part.set + s.part.ten.toNat)).toNat * 2 ^ 64) ∧
      Tagged s t l.ha 32 0 ∧ t.here.flhead (2 * s.part.set + s.part.ten.toNat) =
        0x1FF000000000000#64 + BitVec.ofNat 64 (l.ha - lsBase)) ∧
  (∀ (s : State) a b x y, s.clear (.link a b) = true → isCompute s.core = true → s.unlabelled [a, b] = true → s.Inv →
    (s.me.g a).val.setWidth 40 = x → (s.me.g b).val.setWidth 40 = y → s.me.out = .none → s.orderly .pk = true →
    Ports s x y → Quiet s → ¬ (x.toNat % 4 = 0 ∧ y.toNat % 4 = 0) →
    ∃ t, exec (.link a b) s = .next t ∧ s.movedOn t ∧ s.me.keeps t.me [] ∧ slotIs s t x y ∧ slotIs s t y x ∧
      itemsOf t = itemsOf s ∧
      ∀ p, (p < slotHa x ∨ slotHa x + 8 ≤ p) → (p < slotHa y ∨ slotHa y + 8 ≤ p) → t.byteAt p = s.byteAt p) ∧
  (∀ (s : State) a b x y, s.clear (.link a b) = true → isCompute s.core = true → s.unlabelled [a, b] = true → s.Inv →
    (s.me.g a).val.setWidth 40 = x → (s.me.g b).val.setWidth 40 = y → s.me.out = .none → s.orderly .pk = true →
    Ports s x y → Quiet s → x.toNat % 4 = 0 → y.toNat % 4 = 0 → DequeRoom s →
    ∃ t, exec (.link a b) s = .next t ∧ s.movedOn t ∧ s.me.keeps t.me [] ∧ slotIs s t x y ∧ slotIs s t y x ∧
      PushesPair s t (nodeAddr x) (nodeAddr y)) ∧
  (∀ (s : State) a b l k, s.clear (.ppush a b) = true → isCompute s.core = true → s.unlabelled [a, b] = true →
    s.nodeSpot s.core s.key (s.me.g a).val = some l → s.nodeSpot s.core s.key (s.me.g b).val = some k →
    (s.me.g a).val ≠ (s.me.g b).val → DequeRoom s →
    ∃ t, exec (.ppush a b) s = .next t ∧ s.movedOn t ∧ s.me.keeps t.me [] ∧ s.sameMemory t ∧
      PushesPair s t (s.me.g a).val (s.me.g b).val) ∧
  (∀ (s : State) d a p rest, s.clear (.ppop d a) = true → isCompute s.core = true → pairRegs d a = false →
    realKey s.key % 16 ≠ 15 → s.here.rewrite.hold = p :: rest → p.hk = s.hkOf s.core s.key →
    ∃ t, exec (.ppop d a) s = .next t ∧ s.movedOn t ∧ s.me.keeps t.me [.g d, .g a] ∧ t.me.g d = ⟨p.a, 0⟩ ∧
      t.me.g a = ⟨p.b, 0⟩ ∧ t.here.rewrite.hold = rest ∧ s.sameMemory t) ∧
  (∀ (s : State) d a, s.clear (.ppop d a) = true → isCompute s.core = true → pairRegs d a = false →
    realKey s.key % 16 ≠ 15 → s.here.rewrite.hold = [] → s.here.basket (s.hkOf s.core s.key) = false →
    s.here.rewrite.taken = [] → s.here.steal.domain = 0 →
    ∃ t, exec (.ppop d a) s = .next t ∧ s.movedOn t ∧ s.me.keeps t.me [.g d, .g a] ∧ t.me.g d = ⟨0, 0⟩ ∧
      t.me.g a = ⟨0, 0⟩ ∧ s.sameMemory t) ∧
  (∀ (s : State) a b v w m n r p q, s.clear (.rdisp a b) = true → isCompute s.core = true → pairRegs a b = false →
    s.unlabelled [a, b] = true → s.me.out = .none → s.me.fetched = [] → 62 ∉ s.me.pend → Quiet s → s.here.window = [] →
    ReadsNode s (s.me.g a).val v → ReadsNode s (s.me.g b).val w →
    s.pairNodes s.core s.part (s.me.g a).val (s.me.g b).val v w = .ok m n →
    (s.partAt s.part).rule (nodeType m) (nodeType n) = some r → r.template = false →
    r.order (nodeType m) (nodeType n) (s.me.g a).val (s.me.g b).val = (p, q) →
    ∃ t, exec (.rdisp a b) s = .next t ∧ t.me.pc = s.me.goesTo r.pc ∧ t.me.run = .run ∧ t.me.enter = some s.me.pc ∧
      t.me.g a = ⟨p, 0⟩ ∧ t.me.g b = ⟨q, 0⟩ ∧ t.me.g 62 = ⟨nextPc s.me.pc, 0⟩ ∧
      s.me.keeps t.me [.g a, .g b, .g 62] ∧ s.sameMemory t) ∧
  (∀ (s : State) t a h n bs, s.clear (.rtload t a) = true → Root s → t ≠ 0 → isCompute s.core = true →
    s.unlabelled [a] = true → (s.me.g a).val.toNat % 8 = 0 → s.imageRead (s.me.g a).val 8 = .ok h →
    field (leNat h) 0 13 = n → 1 ≤ n → n ≤ 4096 → s.imageRead (s.me.g a).val (8 + 16 * n) = .ok bs →
    ∃ u image, exec (.rtload t a) s = .next u ∧ s.movedOn u ∧ t ∈ u.me.pend ∧ u.me.g t = ⟨(s.me.g t).val, 0⟩ ∧
      s.sameMemory u ∧ image.length = 1 + 2 * n ∧
      (∀ i, i < 1 + 2 * n → image[i]? = some (BitVec.ofNat 64 (leNat ((bs.drop (8 * i)).take 8)))) ∧
      Sends s u (s.partAt s.part).lhome .th (.rtload s.key t (s.me.g a).val s.me.pc image)) ∧
  (∀ (s : State) core src m key tok addr pc image n rs, Next s src core .th m (.rtload key tok addr pc image) →
    (image.headD 0).toNat = n → 1 ≤ n → n ≤ 4096 → (s.consume m).rulesOf src key image.tail [] = some rs →
    ∃ t, exec (.rtloadApply core src) s = .next t ∧ (t.partAt m.part).rules = rs ∧ s.sameMemory t ∧
      TokenTakes s t src key tok (statusWord 0 1 0 n)) ∧
  (∀ (s : State) core i, (s.coreAt core).live = true → isCompute core = true → (s.coreAt core).rewrite.taken = [] →
    (s.coreAt core).linkKey = none →
    ((s.coreAt core).dq ((s.coreAt core).half (s.coreAt core).cur false)).items = [i] →
    ((s.coreAt core).dq ((s.coreAt core).half (s.coreAt core).cur false)).busy = false →
    (s.coreAt core).holdRoom (2 * (s.coreAt core).cur) = true → i.kind = .pair → i.set = (s.coreAt core).cur →
    i.ten = false → s.itemReady i = true →
    ∃ t x, exec (.rewriteUnitTake core) s = .next t ∧ (t.coreAt core).rewrite.taken = [x] ∧ x.pair.a = i.a.val ∧
      x.pair.b = i.b.val ∧ ((t.coreAt core).dq ((s.coreAt core).half (s.coreAt core).cur false)).items = []) ∧
  (∀ (s : State) core r v w m n, (s.coreAt core).live = true → isCompute core = true →
    (s.coreAt core).linkKey = none → (s.coreAt core).rewrite.taken = [r] → r.pair.hk / 2 = (s.coreAt core).cur →
    r.tmpl = none → r.sent = none → r.err = none → r.got = [v, w] →
    (s.nodeSpot core (hkKey r.pair.hk) r.pair.a).isSome = true →
    (s.nodeSpot core (hkKey r.pair.hk) r.pair.b).isSome = true →
    s.pairNodes core (s.partKey core (hkKey r.pair.hk)) r.pair.a r.pair.b v w = .ok m n →
    (s.partAt (s.partKey core (hkKey r.pair.hk))).rule (nodeType m) (nodeType n) = none →
    (s.coreAt core).holdRoom r.pair.hk = true →
    ∃ t, exec (.rewriteUnitTake core) s = .next t ∧ (t.coreAt core).rewrite.taken = [] ∧
      (t.coreAt core).rewrite.hold = (s.coreAt core).rewrite.hold ++ [r.pair] ∧ s.sameMemory t)

-- Messages (18_network.md)

namespace Sys2Proof.Claims

/-- gK names a core that a message may go to, with what is sent (R327): to a core of a peer partition nothing whose label
does not resolve to the empty one (R364). -/
def DestOk (s : State) (k : GReg) (dst : CoreNo) (vs : List LWord) : Prop :=
  (s.me.g k).val = dst.setWidth 64 ∧ assigned s dst = true ∧ s.inReach s.part dst = true ∧
  (pkgOf dst = pkgOf s.core ∨ ∀ v ∈ vs, s.lab v.lab = 0)
/-- A call-at item as it is sent (R330): the labels of its words are resolved (R147). -/
def CallItem (s : State) (tok a : GReg) (pc : Word) (it : Item) : Prop :=
  it.kind = .callat ∧ it.pc = pc ∧ it.caller = s.core ∧ it.callerKey = s.key ∧ it.tok = tok ∧ it.a = s.val (s.me.g a) ∧
  it.b = s.val (s.me.g (a + 1)) ∧ it.c = s.val (s.me.g (a + 2)) ∧ it.d = s.val (s.me.g (a + 3))
/-- A CALLAT went out: its token is pending, and the context goes on. -/
def Called (s t : State) (dst : CoreNo) (tok a : GReg) (pc : Word) : Prop :=
  (∃ it, Sends s t dst .th (.callat it) ∧ CallItem s tok a pc it) ∧ tok ∈ t.me.pend ∧ t.me.g tok = ⟨(s.me.g tok).val, 0⟩ ∧
  s.movedOn t ∧ s.me.keeps t.me [.g tok] ∧ s.sameMemory t
/-- The tap context runs a handler (R328, R329). -/
def Handles (t : State) (core : CoreNo) (key : Nat) (pc : Word) (a b : LWord) (src : CoreNo) (ctx : Nat) : Prop :=
  (t.ctxAt core key).run = .run ∧ (t.ctxAt core key).pc = pc ∧ (t.ctxAt core key).g 1 = a ∧ (t.ctxAt core key).g 2 = b ∧
  (t.ctxAt core key).g 3 = ⟨src.setWidth 64, 0⟩ ∧ (t.ctxAt core key).g 4 = ⟨BitVec.ofNat 64 ctx, 0⟩ ∧
  (t.ctxAt core key).g 63 = ⟨0x1FE0000000CCFF0, 0⟩

end Sys2Proof.Claims

/-- R217, R321 and R327 to R330: AMSG sends its two words, their labels resolved, to a core's tap context, which runs the
handler with the sender in g3 and g4; CALLAT sends its item and leaves its token pending; REPLY answers the caller once,
and the value becomes the token's; a refused message is sent again after a backoff of 16 cycles for each refusal, at most
1,024; a core number outside the reach is refused with 0x02. -/
def Obligations.MessageInstructions : Prop :=
  (∀ (s : State) xp k a b disp (i j : Nat) dst, s.clear (.amsgMark xp k a b disp) = true → s.unlabelled [k] = true →
    s.me.pc = slotAddr i → SlotOk i → SlotOk j → (j : Int) = i + disp.toInt →
    DestOk s k dst [s.me.g a, s.me.g b] →
    ∃ t ten, exec (.amsgMark xp k a b disp) s = .next t ∧ s.movedOn t ∧ s.me.keeps t.me [] ∧ s.sameMemory t ∧
      Sends s t dst .th (.amsg (slotAddr j) (s.val (s.me.g a)) (s.val (s.me.g b)) (realKey s.key % 16) false ten)) ∧
  (∀ (s : State) xp p k a b dst, s.clear (.amsgReg xp p k a b) = true → s.unlabelled [p, k] = true →
    DestOk s k dst [s.me.g a, s.me.g b] →
    ∃ t ten, exec (.amsgReg xp p k a b) s = .next t ∧ s.movedOn t ∧ s.me.keeps t.me [] ∧ s.sameMemory t ∧
      Sends s t dst .th (.amsg (s.me.g p).val (s.val (s.me.g a)) (s.val (s.me.g b)) (realKey s.key % 16) false ten)) ∧
  (∀ (s : State) xp tok k a disp (i j : Nat) dst, s.clear (.callatMark xp tok k a disp) = true →
    s.unlabelled [k] = true → tok ≠ 0 → s.me.pc = slotAddr i → SlotOk i → SlotOk j → (j : Int) = i + disp.toInt →
    DestOk s k dst ((argRegs a).map s.me.g) →
    ∃ t, exec (.callatMark xp tok k a disp) s = .next t ∧ Called s t dst tok a (slotAddr j)) ∧
  (∀ (s : State) xp tok k p a dst, s.clear (.callatReg xp tok k p a) = true → s.unlabelled [k, p] = true → tok ≠ 0 →
    DestOk s k dst ((argRegs a).map s.me.g) →
    ∃ t, exec (.callatReg xp tok k p a) s = .next t ∧ Called s t dst tok a (s.me.g p).val) ∧
  (∀ (s : State) xp a i, s.clear (.reply xp a) = true → s.me.item = some i → i.kind = .callat → i.replied = false →
    (pkgOf i.caller = pkgOf s.core ∨ s.lab (s.me.g a).lab = 0) →
    ∃ t, exec (.reply xp a) s = .next t ∧ s.movedOn t ∧ t.me.regs = s.me.regs ∧ s.sameMemory t ∧
      t.me.item = some { i with replied := true } ∧ Sends s t i.caller .th (.reply i.callerKey i.tok (s.val (s.me.g a)))) ∧
  (∀ (s : State) xp a, s.clear (.reply xp a) = true → s.me.item = none →
    exec (.reply xp a) s = .next (s.trap 0x01 0 s.me.pc)) ∧
  (∀ (s : State) xp p k a b (dst : CoreNo), s.clear (.amsgReg xp p k a b) = true → s.unlabelled [p, k] = true → CanTrap s →
    (s.me.g k).val = dst.setWidth 64 → assigned s dst = true → s.inReach s.part dst = false →
    ∃ t, exec (.amsgReg xp p k a b) s = .next t ∧ Trapped s t 0x07 0x02 (s.me.g k).val) ∧
  (∀ (s : State) core src m pc a b ctx ten, Next s src core .th m (.amsg pc a b ctx false ten) →
    (s.coreAt core).tap = [] → (s.coreAt core).halted = false → (s.setAt m.part core).1 = (s.coreAt core).cur →
    (s.coreAt core).tapFree = true →
    ∃ t, exec (.amsgDelivery core src) s = .next t ∧ s.sameMemory t ∧
      Handles t core (16 * (s.coreAt core).cur + 15) pc a b src ctx) ∧
  (∀ (s : State) core src m pc a b ctx ten, Next s src core .th m (.amsg pc a b ctx true ten) →
    (s.coreAt core).tap = [] → (s.coreAt core).halted = false → (s.setAt m.part core).1 = (s.coreAt core).cur →
    (s.coreAt core).tapFree = true →
    ∃ t, exec (.supervisorHandlerStart core src) s = .next t ∧ s.sameMemory t ∧
      Handles t core (16 * (s.coreAt core).cur + 15) (BitVec.ofNat 64 (s.natAt (lsAddr core 0xDBFF8) 8)) a b src ctx) ∧
  (∀ (s : State) core src m i, Next s src core .th m (.callat i) → (s.coreAt core).halted = false → i.kind = .callat →
    ((s.coreAt core).dq ((s.coreAt core).half i.set i.ten)).busy = false →
    entries ((s.coreAt core).dq ((s.coreAt core).half i.set i.ten)).items + 2 ≤ hwPlaces ((s.coreAt core).half i.set i.ten) →
    ∃ t, exec (.callatArrival core src) s = .next t ∧ s.sameMemory t ∧
      ((t.coreAt core).dq ((s.coreAt core).half i.set i.ten)).items =
        ((s.coreAt core).dq ((s.coreAt core).half i.set i.ten)).items ++ [{ i with pc := i.pc &&& 0x1FFFFFFFFFFFFFF }]) ∧
  (∀ (s : State) core src m key r v, Next s src core .th m (.reply key r v) → key < 64 → r ≠ 0 →
    r ∈ (s.ctxAt core key).pend →
    ∃ t, exec (.replyDelivery core src) s = .next t ∧ s.sameMemory t ∧ (t.ctxAt core key).g r = v ∧
      r ∉ (t.ctxAt core key).pend ∧ ∀ q, q ≠ r → (t.ctxAt core key).g q = (s.ctxAt core key).g q) ∧
  (∀ (s : State) core dst m, s.msgs = [m] → m.src = core → m.dst = dst → (∀ id, m.body ≠ .refused id) →
    m.retryAt ≠ 0 → m.retryAt ≤ s.cycle →
    ∃ t, exec (.messageRetry core dst) s = .next t ∧ s.sameMemory t ∧
      ∃ x ∈ t.msgs, x.id = m.id ∧ x.retryAt = 0 ∧ x.seq = m.seq ∧ x.refusals = m.refusals ∧ x.body = m.body) ∧
  (∀ (s : State) core dst m id x, s.refusalOf core dst = some (m, id) → x ∈ s.msgs → x.id = id → id ≠ m.id →
    ∃ t, exec (.messageRetry core dst) s = .next t ∧ s.sameMemory t ∧
      { x with retryAt := s.cycle + min (16 * x.refusals) 1024 } ∈ t.msgs)

-- System instructions (20_system.md)

namespace Sys2Proof.Claims

/-- MFS of a register gives this value with the empty label (R349). -/
def Reads (n : BitVec 12) (v : State → Word) : Prop :=
  ∀ (s : State) d, s.clear (.mfs d n) = true → exec (.mfs d n) s = .next (s.modMe fun c => (c.setG d ⟨v s, 0⟩).retire)
/-- The same on a compute core, of a register of a unit that no other core has. -/
def ReadsCompute (n : BitVec 12) (v : State → Word) : Prop :=
  ∀ (s : State) d, s.clear (.mfs d n) = true → isCompute s.core = true →
    exec (.mfs d n) s = .next (s.modMe fun c => (c.setG d ⟨v s, 0⟩).retire)
/-- On a channel core, which has no such unit, MFS of it completes with a value that nothing constrains. -/
def ReadsOpen (n : BitVec 12) : Prop :=
  ∀ (s : State) d, s.clear (.mfs d n) = true → isCompute s.core = false →
    ∃ t v, exec (.mfs d n) s = .next t ∧ s.movedOn t ∧ s.me.keeps t.me [.g d] ∧ s.sameMemory t ∧ s.othersKept t ∧
      (d ≠ 0 → t.me.g d = ⟨v, 0⟩)
/-- MTS of a register of the context, or of the core, does this with the value of gA (R349). -/
def WritesMine (n : BitVec 12) (f : Ctx → Word → Ctx) : Prop :=
  ∀ (s : State) a, s.clear (.mts n a) = true → s.unlabelled [a] = true → s.me.raised = 0 →
    exec (.mts n a) s = .next (s.modMe fun c => (f c (s.me.g a).val).retire)
def WritesHere (n : BitVec 12) (root : Bool) (f : CoreNo → CoreSt → Word → CoreSt) : Prop :=
  ∀ (s : State) a, s.clear (.mts n a) = true → s.unlabelled [a] = true → (root = true → Root s) →
    exec (.mts n a) s = .next ((s.modHere fun c => f s.core c (s.me.g a).val).modMe Ctx.retire)
/-- The code of a bank's state in BANK (R367). -/
def bankCode : BankSt → Nat
  | .empty => 0
  | .resident => 1
  | .sealed => 2
/-- The key of the context that an ACK of the acting context's own core names. -/
def ackKey (s : State) (n : Nat) : Nat := 16 * s.part.set + n
/-- An ACK for a context of the own core, another than the acting one (R355). -/
def AckFor (s : State) (a : GReg) (n action : Nat) : Prop :=
  s.unlabelled [a] = true ∧ n < 16 ∧ (s.me.g a).val.toNat = s.core.toNat + n * 2 ^ 20 + action * 2 ^ 24 ∧
  assigned s s.core = true ∧ s.inReach s.part s.core = true ∧ Quiet s ∧ ackKey s n ≠ s.key

end Sys2Proof.Claims

/-- R251, R346, R348, R349, R353 and R367: what MFS reads from every register, MCTL and FLHEAD on compute cores, where
another core's value is open (log 44); what MTS writes to every one, that a write of a read-only register is ignored, that
a root-only register refuses any other context (ASSIST too, log 45), and that an absent number is illegal. -/
def Obligations.SystemRegisters : Prop :=
  Reads 0 (fun s => s.core.setWidth 64) ∧ Reads 1 (fun s => BitVec.ofNat 64 (cindex s.core)) ∧
  Reads 2 (fun s => BitVec.ofNat 64 (realKey s.key % 16 + (if s.me.pooled then 16 else 0))) ∧
  Reads 3 (fun s => BitVec.ofNat 64 (s.cycleOf (pkgOf s.core))) ∧ Reads 4 (fun s => s.me.fflags.setWidth 64) ∧
  Reads 5 (fun s => s.me.fenable.setWidth 64) ∧
  Reads 6 (fun s => (s.me.fsup.setWidth 20).setWidth 64 ||| (if s.me.fsup.getLsbD 20 then 1#64 <<< 63 else 0)) ∧
  Reads 7 (fun s => BitVec.ofNat 64 ((if isCompute s.core then s.here.steal.domain.toNat else 0) +
    4 * s.here.steal.busy.toNat + 256 * s.here.steal.backoff.toNat)) ∧
  ReadsCompute 14 (fun s => BitVec.ofNat 64 ((myHalf s).pcode + (if (myHalf s).fault.isSome then 8 else 0) +
    16 * s.here.halfNo s.key + 32 * (s.here.split s.key).toNat + 64 * s.here.matrix.rhalf.toNat +
    128 * ((s.here.paired[keySet s.key]?).getD false).toNat + 2 ^ 32 * (myHalf s).iter.toNat)) ∧
  Reads 16 (fun s => BitVec.ofNat 64 (if isCompute s.core then
    s.part.node + 2 ^ 10 * s.part.ten.toNat + 2 ^ 11 * s.here.cur else 0)) ∧
  Reads 20 (fun s => BitVec.ofNat 64 (s.here.cur + 4 * bankCode s.here.banks[0] + 16 * bankCode s.here.banks[1] +
    64 * bankCode s.here.banks[2] + 256 * bankCode s.here.banks[3])) ∧
  Reads 26 (fun s => s.me.watch[1]) ∧ Reads 27 (fun s => s.me.watch[2]) ∧
  Reads 29 (fun s => BitVec.ofNat 64 (s.me.eheld.toNat +
    2 * (realKey s.key % 16 == 0 && (s.here.resident[keySet s.key]?.getD {}).held).toNat)) ∧
  ReadsCompute 30 (fun s => (assoc s.here.rewrite.heads (2 * keySet s.key + (s.here.tenOf (realKey s.key)).toNat)).getD 0) ∧
  (∀ n ∈ [(14 : BitVec 12), 30], ReadsOpen n) ∧
  Reads 8 (fun s => s.me.vcclass.setWidth 64) ∧ Reads 9 (fun s => s.here.assist.setWidth 64) ∧
  Reads 10 (fun s => s.me.epc) ∧ Reads 11 (fun s => s.me.ecause) ∧ Reads 12 (fun s => s.me.eaddr) ∧
  Reads 13 (fun s => s.me.parklim.setWidth 64) ∧ Reads 15 (fun s => (s.partAt s.part).lwindow.setWidth 64) ∧
  Reads 17 (fun s => s.here.rpc) ∧ Reads 18 (fun s => s.here.rcause) ∧ Reads 19 (fun s => s.here.raddr) ∧
  Reads 21 (fun s => s.me.tvec) ∧ Reads 22 (fun s => s.here.rvec) ∧
  Reads 23 (fun s => BitVec.ofNat 64 (s.me.dbg.step.toNat + 2 * s.me.dbg.attach.toNat)) ∧
  Reads 24 (fun s => BitVec.ofNat 64 s.here.freeze.toNat) ∧ Reads 25 (fun s => s.me.watch[0]) ∧
  Reads 28 (fun s => s.me.watch[3]) ∧ (∀ i : Fin 11, Reads (BitVec.ofNat 12 (0x20 + i.val)) fun s => s.here.counters[i]) ∧
  WritesMine 4 (fun c v => { c with fflags := v.setWidth 5 }) ∧ WritesMine 5 (fun c v => { c with fenable := v.setWidth 5 }) ∧
  WritesMine 8 (fun c v => { c with vcclass := v.setWidth 4 }) ∧ WritesMine 11 (fun c v => { c with ecause := v &&& 0xFFC0FFFF }) ∧
  WritesMine 13 (fun c v => { c with parklim := v.setWidth 40 }) ∧ WritesMine 21 (fun c v => { c with tvec := v }) ∧
  WritesMine 25 (fun c v => { c with watch := c.watch.set 0 v }) ∧
  WritesMine 26 (fun c v => { c with watch := c.watch.set 1 v }) ∧
  WritesMine 27 (fun c v => { c with watch := c.watch.set 2 v }) ∧
  WritesMine 28 (fun c v => { c with watch := c.watch.set 3 v }) ∧
  WritesMine 6 (fun c v => { c with fsup := BitVec.ofBool (v.getLsbD 63) ++ v.extractLsb' 0 20 }) ∧
  (∀ n ∈ [0, 1, 2, 3, 14, 15, 16, 20, 23, 24, 29, 30], WritesMine n (fun c _ => c)) ∧
  (∀ i : Fin 11, WritesMine (BitVec.ofNat 12 (0x20 + i.val)) fun c _ => c) ∧
  WritesHere 9 true (fun _ c v => { c with assist := v.setWidth 7 }) ∧
  WritesHere 7 false (fun core c v => { c with steal := { c.steal with
    backoff := v.extractLsb' 8 8, domain := if isCompute core then v.setWidth 2 else c.steal.domain } }) ∧
  WritesHere 17 true (fun _ c v => { c with rpc := v }) ∧ WritesHere 18 true (fun _ c v => { c with rcause := v &&& 0xFFC0FFFF }) ∧
  WritesHere 19 true (fun _ c v => { c with raddr := v }) ∧ WritesHere 22 true (fun _ c v => { c with rvec := v }) ∧
  (∀ (s : State) a, s.clear (.mts 10 a) = true →
    exec (.mts 10 a) s = .next (s.modMe fun c => ({ c with epc := (s.me.g a).val } : Ctx).retire)) ∧
  (∀ (s : State) a, s.clear (.mts 12 a) = true →
    exec (.mts 12 a) s = .next (s.modMe fun c => ({ c with eaddr := (s.me.g a).val } : Ctx).retire)) ∧
  (∀ (s : State) a, ∀ n ∈ [(9 : BitVec 12), 17, 18, 19, 22], s.clear (.mts n a) = true → ¬ Root s →
    exec (.mts n a) s = .next (s.trap 0x01 0 s.me.pc)) ∧
  (∀ (s : State) d (n : BitVec 12), (n = 31 ∨ 0x2B ≤ n.toNat) →
    exec (.mfs d n) s = .next (s.trap 0x01 0 s.me.pc) ∧ exec (.mts n d) s = .next (s.trap 0x01 0 s.me.pc))

/-- R355, R356, R366 to R369 and R373: ACK replays, resumes or refuses a context of its core that waits for it, and a refused
page fault's trap has the faulting address in EADDR (log 52); JRNL reads a journal entry and frees a refused one, which then
reads as zero in every field (log 101); CSAVE writes a set's records and seals its bank, CREST reads them back;
BANKSEL goes on in another resident set; TLBINV waits, and completes once no walk runs, with the entries dropped. -/
def Obligations.SystemInstructions : Prop :=
  (∀ (s : State) a n va, s.clear (.ackReplay a) = true → AckFor s a n 0 →
    (s.ctxAt s.core (ackKey s n)).run = .wait (.fault va) →
    ∃ t, exec (.ackReplay a) s = .next t ∧ s.movedOn t ∧ s.me.keeps t.me [] ∧ s.sameMemory t ∧
      (t.ctxAt s.core (ackKey s n)).run = .run ∧ (t.ctxAt s.core (ackKey s n)).replay = true) ∧
  (∀ (s : State) a n, s.clear (.ackResume a) = true → AckFor s a n 1 →
    (s.ctxAt s.core (ackKey s n)).run = .park .supervisor →
    ∃ t, exec (.ackResume a) s = .next t ∧ s.movedOn t ∧ s.me.keeps t.me [] ∧ s.sameMemory t ∧
      (t.ctxAt s.core (ackKey s n)).run = .run) ∧
  (∀ (s : State) a n va, s.clear (.ackRefuse a) = true → AckFor s a n 2 → 0 < n →
    (s.ctxAt s.core (ackKey s n)).run = .wait (.fault va) → (s.ctxAt s.core (ackKey s n)).eheld = false →
    (s.ctxAt s.core (ackKey s n)).tvec ≠ 0 →
    ∃ t, exec (.ackRefuse a) s = .next t ∧ s.movedOn t ∧ s.me.keeps t.me [] ∧ s.sameMemory t ∧
      (t.ctxAt s.core (ackKey s n)).eheld = true ∧ (t.ctxAt s.core (ackKey s n)).eaddr = va ∧
      (t.ctxAt s.core (ackKey s n)).pc = (s.ctxAt s.core (ackKey s n)).tvec ∧ (t.ctxAt s.core (ackKey s n)).latch = none) ∧
  (∀ (s : State) d a e k r (j : JEntry), s.clear (.jrnl d a) = true → s.unlabelled [a] = true →
    (s.me.g a).val.toNat = e + 64 * k + 256 * r → e < 32 → k < 4 → r < 2 → s.here.journal[e]? = some j →
    ∃ t, exec (.jrnl d a) s = .next t ∧ s.movedOn t ∧ s.me.keeps t.me [.g d] ∧ s.sameMemory t ∧
      (d ≠ 0 → (t.me.g d).lab = 0 ∧ (k = 0 → (t.me.g d).val = j.addr) ∧ (k = 2 → (t.me.g d).val = j.data) ∧
        (k = 3 → (t.me.g d).val = j.pc)) ∧
      t.here.journal[e]? = some (if r = 1 ∧ j.st = .refused then {} else j)) ∧
  (∀ (s : State) a n va l k, s.clear (.csave a) = true → Root s → s.unlabelled [a] = true → s.Inv → n < 4 →
    (s.me.g a).val.toNat = n + va → va % 2 ^ 15 = 0 → va < 2 ^ 57 → s.here.banks[n]? = some .resident → n ≠ s.here.cur →
    keySet s.key ≠ n → s.localSpot (BitVec.ofNat 64 va) 0x8000 = .ok l →
    s.localSpot (BitVec.ofNat 64 va + 0x7FFF) 1 = .ok k → l.home = s.core → s.bound s.core n = false →
    ∃ t, exec (.csave a) s = .next t ∧ s.movedOn t ∧ s.me.keeps t.me [] ∧ t.here.banks[n]? = some .sealed ∧
      ∀ (i : Nat) (r : Fin 64), i < 16 →
        t.natAt (lsAddr s.core (recOff n i) + 8 * r.val) 8 = (s.ctxAt s.core (16 * n + i)).regs.g[r].val.toNat ∧
        t.tagAt (lsAddr s.core (recOff n i) + 8 * r.val) = (s.ctxAt s.core (16 * n + i)).regs.g[r].lab) ∧
  (∀ (s : State) a n va l k b, s.clear (.crest a) = true → Root s → s.unlabelled [a] = true → n < 4 →
    (s.me.g a).val.toNat = n + va → va % 2 ^ 15 = 0 → va < 2 ^ 57 → s.here.banks[n]? = some b → b ≠ .resident →
    keySet s.key ≠ n → s.localSpot (BitVec.ofNat 64 va) 0x8000 = .ok l →
    s.localSpot (BitVec.ofNat 64 va + 0x7FFF) 1 = .ok k → l.home = s.core →
    ∃ t, exec (.crest a) s = .next t ∧ s.movedOn t ∧ s.me.keeps t.me [] ∧ s.sameMemory t ∧
      t.here.banks[n]? = some .resident ∧ (t.ctxAt s.core (16 * n + 15)).regs = {} ∧
      ∀ (i : Nat) (r : Fin 64), i < 15 → (t.ctxAt s.core (16 * n + i)).regs.g[r] =
        ⟨BitVec.ofNat 64 (s.natAt (lsAddr s.core (recOff n i) + 8 * r.val) 8),
          s.tagAt (lsAddr s.core (recOff n i) + 8 * r.val)⟩) ∧
  (∀ (s : State) a n, s.clear (.banksel a) = true → Root s → s.unlabelled [a] = true →
    (s.here.resident[keySet s.key]?.getD {}).held = true → (s.me.g a).val.toNat = n → n < 4 →
    s.here.banks[n]? = some .resident → n ≠ s.here.cur → keySet s.key = s.here.cur → s.key < 64 →
    ∃ t, exec (.banksel a) s = .next t ∧ (t.coreAt s.core).cur = n ∧
      ((t.coreAt s.core).resident[n]?.getD {}).held = false ∧ (t.ctxAt s.core s.key).pc = s.me.goesTo (nextPc s.me.pc) ∧
      (s.here.tenantNo s.here.cur = s.here.tenantNo n →
        (∀ k, (t.ctxAt s.core k).regs = (s.ctxAt s.core k).regs) ∧ s.sameMemory t)) ∧
  (∀ (s : State) sc a, s.clear (.tlbinv sc a) = true → s.unlabelled [a] = true →
    (s.me.g a).val.toNat / 2 % 2 ^ 15 = 0 → (s.me.g a).val.toNat < 2 ^ 57 → s.orderly sc = true →
    exec (.tlbinv sc a) s = .next (s.modMe fun c => { c with run := .wait (.tlbinv (s.me.g a).val sc) })) ∧
  (∀ (s : State) core x (v : Word) sc, (s.ctxAt core ((s.coreAt core).key x)).run = .wait (.tlbinv v sc) →
    (s.ctxAt core ((s.coreAt core).key x)).raised = 0 → (s.coreAt core).cur < 4 →
    (∀ p ∈ s.cores, ∀ q ∈ p.2.ctxs, ∀ a, q.2.run ≠ .wait (.walk a)) →
    ∃ t, exec (.tlbinvComplete core x) s = .next t ∧ s.sameMemory t ∧
      (t.ctxAt core ((s.coreAt core).key x)).run = .run ∧
      (t.ctxAt core ((s.coreAt core).key x)).pc =
        (s.ctxAt core ((s.coreAt core).key x)).goesTo (nextPc (s.ctxAt core ((s.coreAt core).key x)).pc) ∧
      ∀ c, inScope sc core c = true → s.inPart (s.partKey core ((s.coreAt core).key x)) c = true →
        ∀ e ∈ (t.coreAt c).tlb, e ∈ (s.coreAt c).tlb ∧ (e.part = s.partKey core ((s.coreAt core).key x) →
          v.getLsbD 0 = false ∧ ¬ (e.va ≤ v.toNat / 2 ^ 16 * 2 ^ 16 ∧ v.toNat / 2 ^ 16 * 2 ^ 16 < e.va + e.size)))

namespace Sys2Proof.Claims

/-- A partition controller's instruction may ask: the root context of an MGMT partition, its operand unlabelled (R365). -/
def Manages (s : State) (a : GReg) : Prop := Root s ∧ s.unlabelled [a] = true ∧ (s.partAt s.part).mgmt = true
/-- A request of n bytes in the own core's local store (R365, R370). -/
def RequestAt (s : State) (va : Word) (align n : Nat) (l : Loc) : Prop :=
  s.window s.core s.key va.toNat = some (.ok l) ∧ l.home = s.core ∧ va.toNat % align = 0 ∧
  ∃ e, s.window s.core s.key (va.toNat + n - 1) = some (.ok e)
/-- A request to the controller is taken: it stands last, and its token is pending. -/
def Asked (s t : State) (tok : GReg) (p : CtrlReq → Prop) : Prop :=
  (∃ q, (t.pkgAt (pkgOf s.core)).ctrl = (s.pkgAt (pkgOf s.core)).ctrl ++ [q] ∧ q.core = s.core ∧ q.key = s.key ∧
    q.tok = tok ∧ p q) ∧
  (tok ≠ 0 → tok ∈ t.me.pend ∧ t.me.g tok = ⟨(s.me.g tok).val, 0⟩) ∧ s.movedOn t ∧ s.me.keeps t.me [.g tok] ∧ s.sameMemory t
/-- The first multiple of 64 at or after a cycle. -/
def UpTo64 (t c : Nat) : Prop := t % 64 = 0 ∧ c ≤ t ∧ t < c + 64

end Sys2Proof.Claims

/-- R323, R361 to R365, R370, R371, R374 and R375: RTSWAP, PSPLIT, PMERGE and SSTOP send their requests, which an MGMT
partition's root context alone may make; CALSET sends a calendar entry for any context of an MGMT partition, and an
arbitration record for the root context of the record's node. The swap flips the banks; the controller refuses a request
with a code, logged where the requester's partition has a record, installs an accepted PSPLIT's two records in set 0 of
their nodes' cores (their tables as at reset, log 48), with the bank RESIDENT and the free lists empty, or removes an
accepted PMERGE's; a stop stops the cores of its node at T′, and the set to come goes on after it. -/
def Obligations.PartitionControl : Prop :=
  (∀ (s : State) t a, s.clear (.rtswap t a) = true → Manages s a → (s.me.g a).val.toNat < 2 ^ 48 →
    (s.pkgAt (pkgOf s.core)).swap = none →
    ∃ u w, exec (.rtswap t a) s = .next u ∧ s.movedOn u ∧ s.me.keeps u.me [.g t] ∧ s.sameMemory u ∧
      (t ≠ 0 → t ∈ u.me.pend ∧ u.me.g t = ⟨(s.me.g t).val, 0⟩) ∧ (u.pkgAt (pkgOf s.core)).swap = some w ∧ w.core = s.core ∧
      w.key = s.key ∧ w.tok = t ∧ w.classes = (s.me.g a).val.setWidth 16 ∧
      UpTo64 w.at_ (s.cycleOf (pkgOf s.core) + max (field (s.me.g a).val.toNat 16 32) 1024)) ∧
  (∀ (s : State) t a, s.clear (.rtswap t a) = true → Root s → s.unlabelled [a] = true → CanTrap s →
    (s.partAt s.part).mgmt = false →
    ∃ u, exec (.rtswap t a) s = .next u ∧ u.me.ecause = cause 0x25 0x84 s.me.slot2 ∧ u.me.pc = s.me.tvec) ∧
  (∀ (s : State) a, s.clear (.sstop a) = true → ¬ Root s → exec (.sstop a) s = .next (s.trap 0x01 0 s.me.pc)) ∧
  (∀ (s : State) a b die cl out slot v, s.clear (.calsetCalendar a b) = true → s.unlabelled [a, b] = true →
    (s.partAt s.part).mgmt = true → (s.me.g a).val.toNat = cl + 16 * die + 128 * out + 2 ^ 10 * slot → cl < 16 → die < 8 →
    out < 8 → slot < 64 → hasOutput (128 * pkgOf s.core + 16 * die + cl) out = true → (s.me.g b).val.toNat = v →
    field v 10 5 = 0 → mkCore (pkgOf s.core) die cl 16 ≠ s.core →
    ∃ t r, exec (.calsetCalendar a b) s = .next t ∧ s.me.keeps t.me [] ∧ s.sameMemory t ∧
      Sends s t (mkCore (pkgOf s.core) die cl 16) .th (.req r) ∧ r.data = leBytes 4 (v % 2 ^ 16) ∧
      r.act = .calset (128 * pkgOf s.core + 16 * die + cl) out false slot 0) ∧
  (∀ (s : State) a b die cl out node v, s.clear (.calsetArbitration a b) = true → s.unlabelled [a, b] = true → Root s →
    s.part.node = node → node < 2 ^ 10 → (s.me.g a).val.toNat = cl + 16 * die + 128 * out + 2 ^ 16 + 2 ^ 17 * node →
    cl < 16 → die < 8 → out < 8 → hasOutput (128 * pkgOf s.core + 16 * die + cl) out = true → (s.me.g b).val.toNat = v →
    field v 16 8 = 0 → mkCore (pkgOf s.core) die cl 16 ≠ s.core →
    ∃ t r, exec (.calsetArbitration a b) s = .next t ∧ s.me.keeps t.me [] ∧ s.sameMemory t ∧
      Sends s t (mkCore (pkgOf s.core) die cl 16) .th (.req r) ∧ r.data = leBytes 4 (v % 2 ^ 32) ∧
      r.act = .calset (128 * pkgOf s.core + 16 * die + cl) out true 0 node) ∧
  (∀ (s : State) t a l, s.clear (.psplit t a) = true → Manages s a → RequestAt s (s.me.g a).val 64 128 l →
    ∃ u, exec (.psplit t a) s = .next u ∧ Asked s u t fun q => q.merge = false ∧
      q.recs = [BitVec.ofNat 512 (s.natAt l.ha 64), BitVec.ofNat 512 (s.natAt (l.ha + 64) 64)]) ∧
  (∀ (s : State) t a, s.clear (.pmerge t a) = true → Manages s a → (s.me.g a).val.toNat < 2 ^ 10 →
    ∃ u, exec (.pmerge t a) s = .next u ∧ Asked s u t fun q => q.merge = true ∧ q.node = (s.me.g a).val.toNat) ∧
  (∀ (s : State) a l node next (discard : Bool), s.clear (.sstop a) = true → Manages s a → s.Inv →
    RequestAt s (s.me.g a).val 16 16 l → (s.pkgAt (pkgOf s.core)).ctrl = [] →
    s.natAt l.ha 8 = node + 2 ^ 10 * next + 2 ^ 12 * discard.toNat → 0 < node → node < 2 ^ 10 → next < 4 →
    s.nextOk (pkgOf s.core) node next = true → s.natAt (l.ha + 8) 8 + 64 < 2 ^ 64 → s.cycleOf (pkgOf s.core) + 1088 < 2 ^ 64 →
    ∃ u x, exec (.sstop a) s = .next u ∧ s.movedOn u ∧ s.me.keeps u.me [] ∧
      (u.pkgAt (pkgOf s.core)).stops = (s.pkgAt (pkgOf s.core)).stops ++ [x] ∧ x.node = node ∧ x.next = next ∧
      x.discard = discard ∧ x.begun = false ∧ x.core = some s.core ∧
      UpTo64 x.at_ (max (s.natAt (l.ha + 8) 8) (s.cycleOf (pkgOf s.core) + 1024)) ∧ u.natAt (l.ha + 8) 8 = x.at_ ∧
      ∀ p, (p < l.ha + 8 ∨ l.ha + 16 ≤ p) → u.byteAt p = s.byteAt p) ∧
  (∀ (s : State) (p : Fin 64) w, (s.pkgAt p.val).swap = some w → s.inFlight p.val w.classes = false → w.confirm = false →
    w.at_ ≤ s.cycleOf p.val → (s.cycleOf p.val - w.at_) % 64 = 0 → w.key < 64 →
    ∃ t, exec (.routeBankFlip p) s = .next t ∧ (t.pkgAt p.val).swap = none ∧ s.sameMemory t ∧
      TokenTakes s t w.core w.key w.tok (statusWord 0 3 0 w.at_) ∧
      ∀ r dest cls, r / 128 = p.val → cls < 16 → assoc (t.routerAt r).routes (16 * dest + cls) =
        assoc (if w.classes.getLsbD cls then (s.routerAt r).shadow else (s.routerAt r).routes) (16 * dest + cls)) ∧
  (∀ (s : State) (p : Fin 64) q rest, (s.pkgAt p.val).ctrl = q :: rest → s.ctrlCode p.val q ≠ 0 → q.key < 64 →
    (s.partAt (s.partKey q.core q.key)).valid = false →
    ∃ t, exec (.partitionOpComplete p) s = .next t ∧ (t.pkgAt p.val).ctrl = rest ∧
      TokenTakes s t q.core q.key q.tok (statusWord (s.ctrlCode p.val q) 3 0 0) ∧ t.parts = s.parts ∧ s.sameMemory t) ∧
  (∀ (s : State) (p : Fin 64) q rest, (s.pkgAt p.val).ctrl = q :: rest → s.ctrlCode p.val q ≠ 0 → q.key < 64 →
    (s.partAt (s.partKey q.core q.key)).valid = true → s.Inv →
    ∃ t, exec (.partitionOpComplete p) s = .next t ∧ (t.pkgAt p.val).ctrl = rest ∧
      TokenTakes s t q.core q.key q.tok
        (statusWord (s.ctrlCode p.val q) 3 (s.partAt (s.partKey q.core q.key)).seq.toNat 0) ∧
      Logs s t (s.partKey q.core q.key) (s.ctrlCode p.val q) q.addr q.core 0 q.pc ∧
      ∀ k, (t.partAt k).record = (s.partAt k).record) ∧
  (∀ (s : State) (p : Fin 64) q rest a ta b tb x y, (s.pkgAt p.val).ctrl = q :: rest → s.ctrlCode p.val q = 0 →
    q.key < 64 → q.merge = false → q.children = some (a, ta, b, tb) → q.recs = [x, y] →
    ∃ t, exec (.partitionOpComplete p) s = .next t ∧ (t.pkgAt p.val).ctrl = rest ∧ s.sameMemory t ∧
      TokenTakes s t q.core q.key q.tok (statusWord 0 3 0 0) ∧
      ∀ r ∈ [x, y], (t.partAt { pkg := p.val, node := (recOf r).node, ten := (recOf r).tenant, set := 0 }) = { record := r } ∧
        ∀ c ∈ coresOf p.val (recOf r).node, (∃ n, (t.coreAt c).nodes[0] = some ((recOf r).node, n)) ∧
          (t.coreAt c).banks[0] = .resident ∧ (t.coreAt c).paired[0] = (a == b) ∧
          (t.coreAt c).flhead 0 = 0 ∧ (t.coreAt c).flhead 1 = 0) ∧
  (∀ (s : State) (p : Fin 64) q rest a ta b tb, (s.pkgAt p.val).ctrl = q :: rest → s.ctrlCode p.val q = 0 → q.key < 64 →
    q.merge = true → q.children = some (a, ta, b, tb) →
    ∃ t, exec (.partitionOpComplete p) s = .next t ∧ (t.pkgAt p.val).ctrl = rest ∧ s.sameMemory t ∧
      TokenTakes s t q.core q.key q.tok (statusWord 0 3 0 0) ∧
      ∀ k ∈ t.parts, k ∈ s.parts ∧ ¬ (k.1.pkg = p.val ∧ (k.1.node = a ∨ k.1.node = b))) ∧
  (∀ (s : State) (p : Fin 64) x, (s.pkgAt p.val).stops = [x] → x.begun = false → x.at_ ≤ s.cycleOf p.val →
    ∃ t, exec (.stopAtTPrime p) s = .next t ∧ (t.pkgAt p.val).stops = [{ x with begun := true }] ∧ s.sameMemory t ∧
      ∀ c ∈ s.stopCores p.val x, (t.coreAt c).stopped = true) ∧
  (∀ (s : State) (p : Fin 64) x, (s.pkgAt p.val).stops = [x] → x.begun = true → x.at_ + 2048 ≤ s.cycleOf p.val →
    (s.cycleOf p.val - x.at_) % 64 = 0 → s.stopDone p.val x = true → x.fn = none → x.discard = false →
    ∃ t, exec (.stopSwitch p) s = .next t ∧ (t.pkgAt p.val).stops = [] ∧
      ((∀ c ∈ coresOf p.val x.node, (s.coreAt c).tenantNo (s.coreAt c).cur = (s.coreAt c).tenantNo x.next) →
        s.sameMemory t) ∧
      ∀ c ∈ coresOf p.val x.node, (t.coreAt c).stopped = false ∧ (t.coreAt c).cur = x.next) ∧
  (∀ (s : State) (p : Fin 64) node (next : Fin 4) d (t : Word), node ≠ 0 → s.nextOk p.val node.toNat next.val = true →
    ∃ u x, exec (.scheduledStopRequest p node next d t) s = .next u ∧ s.sameMemory u ∧
      (u.pkgAt p.val).stops = (s.pkgAt p.val).stops ++ [x] ∧ x.node = node.toNat ∧ x.next = next.val ∧ x.discard = d ∧
      UpTo64 x.at_ (max t.toNat (s.cycleOf p.val + 1024)))

-- Events of memory and synchronisation (10_memory.md, 05_fetch.md, 13_atomics.md)

namespace Sys2Proof.Claims

/-- A home has answered a request: the answer is on its way to the requester. -/
def Replied (t : State) (home : CoreNo) (r : Req) (resp : Resp) : Prop :=
  ∃ m ∈ t.msgs, m.src = home ∧ m.dst = r.src ∧ m.path = r.path ∧ m.body = .resp r.who resp r.va
/-- A request of another core comes next in its triple and in its cycle's order (R186), with none that combines with it
(R227), to a home that answers and where no other request waits; no word of memory is uncorrectable. It is no piece of
an engine's operation. -/
def Reaches (s : State) (src core : CoreNo) (p : Path) (r : Req) : Prop :=
  (∃ m, Next s src core p m (.req r) ∧ s.inTurn core m = true ∧ ∀ x ∈ s.msgs, State.combines m x = false) ∧
  r.src = src ∧ src ≠ core ∧ (s.coreAt core).halted = false ∧ (s.coreAt core).parks = [] ∧ r.acq = none ∧
  r.rel = none ∧ r.post = false ∧ r.who.piece = false ∧ s.store.bad = []
/-- Memory is as it was but for the next entry of a partition's error log (R358). -/
def OnlyLogs (s t : State) (k : PartKey) : Prop :=
  (∀ a, ((s.partAt k).valid = true → a < (s.partAt k).elog + 32 * ((s.partAt k).seq.toNat % 64) ∨
    (s.partAt k).elog + 32 * ((s.partAt k).seq.toNat % 64) + 32 ≤ a) → t.byteAt a = s.byteAt a) ∧
  (∀ a, t.tagAt a = s.tagAt a) ∧ ∀ a, t.fullAt a = s.fullAt a
/-- The number of the next entry of a partition's error log, 0 where it has none. -/
def nextEntry (s : State) (k : PartKey) : Nat := if (s.partAt k).valid then (s.partAt k).seq.toNat else 0
/-- An instruction of a context retires: the context goes on at the next one in program order. -/
def WentOn (s t : State) (core : CoreNo) (key : Nat) : Prop :=
  (t.ctxAt core key).run = .run ∧ (t.ctxAt core key).pc = (s.ctxAt core key).goesTo (nextPc (s.ctxAt core key).pc)
/-- A context takes a precise trap (R340, R342). -/
def TrapsAt (s t : State) (core : CoreNo) (key trap detail : Nat) (ea : Word) : Prop :=
  (t.ctxAt core key).epc = (s.ctxAt core key).epcOf ∧
  (t.ctxAt core key).ecause = cause trap detail (s.ctxAt core key).slot2 ∧ (t.ctxAt core key).eaddr = ea ∧
  (t.ctxAt core key).eheld = true ∧ (t.ctxAt core key).pc = (s.ctxAt core key).tvec ∧ (t.ctxAt core key).run = .run
/-- A context other than a root context that can take a trap. -/
def MayTrap (s : State) (core : CoreNo) (key : Nat) : Prop :=
  key % 16 ≠ 0 ∧ (s.ctxAt core key).eheld = false ∧ (s.ctxAt core key).tvec ≠ 0
/-- A barrier object that no ordinary store has left undefined, at a home with room for the releases that the access
carries. -/
def BarrierReached (s : State) (core : CoreNo) (r : Req) : Prop :=
  (s.coreAt core).window.length + (r.winEntries .co).length ≤ 16 ∧ r.plane = none ∧ field (s.natAt r.ha 16) 96 2 ≠ 2 ∧
  ∀ x ∈ s.store.bars, x.1 = r.ha → x.2 = false
/-- k arrivals at a barrier object (R234). -/
def Arrives (s t : State) (ha k : Nat) : Prop :=
  OutsideBarrier s t ha ∧
  (if field (s.natAt ha 16) 0 32 ≤ field (s.natAt ha 16) 32 32 + k then
    BarrierIs t ha (field (s.natAt ha 16) 0 32) 0 (1 - field (s.natAt ha 16) 64 1) 0
  else BarrierIs t ha (field (s.natAt ha 16) 0 32) (field (s.natAt ha 16) 32 32 + k) (field (s.natAt ha 16) 64 1)
    (field (s.natAt ha 16) 96 2))

end Sys2Proof.Claims

/-- R175, R178 to R188, R372 and R375: a home performs the next request of a triple and answers it, an uncorrectable word is
refused with 0x04, and a router takes a CALSET; a reply completes its instruction or raises its trap; the journal takes
acknowledgements and refusals, and an acknowledged entry keeps what its other fields held (log 101); a parked access that
reaches its limit is refused with 0x07, unless its condition holds and it waits for the release window alone (the model's
reading, log 77), or its requester's set is not current (R372); a refused one is sent again after its backoff, and a scope
miss widens its entry to .sy. -/
def Obligations.AccessEvents : Prop :=
  (∀ (s : State) core src p r, Reaches s src core p r → r.act = .load →
    ∃ t, exec (.homeAccess core src p false) s = .next t ∧ s.sameMemory t ∧
      Replied t core r { data := s.readAt r.ha r.n, labs := s.loadLabs r }) ∧
  (∀ (s : State) core src p r, Reaches s src core p r → r.act = .store (2 ^ r.n - 1) → s.Inv → r.data.length = r.n →
    s.readOnly r.ha r.n = false →
    (∀ h ∈ r.labs, h = 0) → r.plane = none → (r.localStore = true → r.ha % 4 = 0 ∧ r.n % 4 = 0) →
    ∃ t, exec (.homeAccess core src p false) s = .next t ∧ Stored s t r.ha r.n (leNat r.data) ∧ Replied t core r {}) ∧
  (∀ (s : State) core src p r, Reaches s src core p r →
    (∀ k, r.act ≠ .bararr k) → (∀ a b c, r.act ≠ .engarr a b c) → r.act ≠ .gldRead →
    ∃ t, exec (.homeAccess core src p true) s = .next t ∧ OnlyLogs s t r.part ∧
      Replied t core r { code := 0x04, frec := nextEntry s r.part }) ∧
  (∀ (s : State) core src p r router out arb slot node, Reaches s src core p r →
    r.act = .calset router out arb slot node →
    ∃ t c, exec (.homeAccess core src p false) s = .next t ∧ s.sameMemory t ∧ Replied t core r {} ∧
      s.cycleOf (pkgOf src) < c ∧ c ≤ s.cycleOf (pkgOf src) + 64 ∧
      (t.routerAt router).pend = (s.routerAt router).pend ++ [(out, if arb then node else slot, arb, leNat r.data, c)]) ∧
  (∀ (s : State) core src p m key d n signed resp va, Next s src core p m (.resp (.ctx key) resp va) →
    (s.ctxAt core key).out = .g d n signed → (s.ctxAt core key).raised = 0 → resp.code = 0 → d ≠ 0 →
    (∀ h ∈ resp.labs, h = 0) →
    ∃ t, exec (.accessReply core src p) s = .next t ∧ s.sameMemory t ∧ WentOn s t core key ∧
      (s.ctxAt core key).keeps (t.ctxAt core key) [.g d] ∧
      (t.ctxAt core key).g d = ⟨if signed then (BitVec.ofNat (8 * n) (leNat resp.data)).signExtend 64
        else BitVec.ofNat 64 (leNat resp.data), 0⟩) ∧
  (∀ (s : State) core src p m key resp va, Next s src core p m (.resp (.ctx key) resp va) →
    (s.ctxAt core key).out = .none → resp.code = 0x02 → resp.eaddr = none → MayTrap s core key →
    ∃ t, exec (.accessReply core src p) s = .next t ∧ s.sameMemory t ∧ TrapsAt s t core key 0x07 0x02 va) ∧
  (∀ (s : State) core src p m e (resp : Resp) va j, Next s src core p m (.resp (.journal e) resp va) → resp.code = 0 →
    (s.coreAt core).journal[e]? = some j →
    ∃ t, exec (.journalResponse core src p) s = .next t ∧ s.sameMemory t ∧
      (t.coreAt core).journal[e]? = some { j with st := .free }) ∧
  (∀ (s : State) core src p m e (resp : Resp) va j, Next s src core p m (.resp (.journal e) resp va) → resp.code ≠ 0 →
    (s.coreAt core).journal[e]? = some j → (s.coreAt core).assist.getLsbD 2 = false → e < 32 → resp.code < 256 →
    ∃ t, exec (.journalResponse core src p) s = .next t ∧ s.sameMemory t ∧
      (t.coreAt core).journal[e]? = some { j with st := .refused, code := resp.code, told := false } ∧
      (t.ctxAt core j.key).asyncs = (s.ctxAt core j.key).asyncs ++
        [{ trap := 0x0C, detail := e + 256 * resp.code, eaddr := j.addr }]) ∧
  (∀ (s : State) core src (x : CtxNo) e key k, (s.coreAt core).parks = [e] → e.req.src = src → e.req.who = .ctx key →
    realKey key % 16 = x.val → keySet key = (s.coreAt src).cur → src ≠ core →
    e.since + e.req.limit ≤ s.cycleOf (pkgOf core) → s.condMet e.req = false →
    k = (if e.req.peer then s.peerPart e.req.part core else e.req.part) →
    ∃ t, exec (.feTimeout core src x) s = .next t ∧ OnlyLogs s t k ∧ (t.coreAt core).parks = [] ∧
      Replied t core e.req { code := 0x07, frec := nextEntry s k }) ∧
  (∀ (s : State) core src (x : CtxNo) e, (s.coreAt core).parks = [e] → s.condMet e.req = true →
    exec (.feTimeout core src x) s = .next s) ∧
  (∀ (s : State) core src (x : CtxNo) e key, (s.coreAt core).parks = [e] → e.req.src = src → e.req.who = .ctx key →
    keySet key ≠ (s.coreAt src).cur → exec (.feTimeout core src x) s = .next s) ∧
  (∀ (s : State) core (x : CtxNo) at_ r, (s.ctxAt core ((s.coreAt core).key x)).run = .wait (.backoff at_) →
    at_ ≤ s.cycle → (s.ctxAt core ((s.coreAt core).key x)).sent = some r → r.src = core → homeOf r.ha ≠ core →
    ∃ t, exec (.refusalRetry core x) s = .next t ∧ s.sameMemory t ∧
      (t.ctxAt core ((s.coreAt core).key x)).run = .wait .reply ∧
      ∃ m ∈ t.msgs, m.src = core ∧ m.dst = homeOf r.ha ∧ m.path = r.path ∧ m.body = .req r) ∧
  (∀ (s : State) core src e, (s.coreAt src).window = [e] → e.widening = true → e.core = core → e.waiters = [] →
    e.held = [] → (s.coreAt src).parks = [] →
    (∀ j ∈ (s.coreAt core).journal.toList, j.st = .outstanding → j.key = e.key → e.jpos ≤ j.num) →
    ∃ t, exec (.scopeMiss core src) s = .next t ∧ s.sameMemory t ∧
      (t.coreAt src).window = if e.evict then [] else [{ e with scope := .sy, widening := false }])

/-- R85, R173 to R175, R230 and R234 to R239: a walk caches its entry, latches a page fault's instruction, or refuses a
malformed entry with 0x08; a fetched line goes into the buffer if its parity holds; arrivals leave with their count and
are taken at the barrier in one step; a group load's result and the end of a migrant block reach their context. -/
def Obligations.TranslationAndArrivalEvents : Prop :=
  (∀ (s : State) core (x : CtxNo) va e, (s.ctxAt core ((s.coreAt core).key x)).run = .wait (.walk va) →
    s.walk (s.partKey core ((s.coreAt core).key x)) va.toNat = .entry e →
    ∃ t, exec (.translationWalkComplete core x) s = .next t ∧ s.sameMemory t ∧
      (t.ctxAt core ((s.coreAt core).key x)).run = .run ∧ e ∈ (t.coreAt core).tlb) ∧
  (∀ (s : State) core (x : CtxNo) va, (s.ctxAt core ((s.coreAt core).key x)).run = .wait (.walk va) → (s.coreAt core).cur < 4 →
    s.walk (s.partKey core ((s.coreAt core).key x)) va.toNat = .fault →
    (s.ctxAt core ((s.coreAt core).key x)).pair = none → x ≠ 0 → (s.coreAt core).rvec ≠ 0 →
    (s.coreAt core).assist.getLsbD 0 = false →
    ∃ t, exec (.translationWalkComplete core x) s = .next t ∧ s.sameMemory t ∧
      (t.ctxAt core ((s.coreAt core).key x)).run = .wait (.fault va) ∧
      (t.ctxAt core ((s.coreAt core).key x)).latch = (s.ctxAt core ((s.coreAt core).key x)).inst ∧
      (t.ctxAt core ((s.coreAt core).key x)).regs = (s.ctxAt core ((s.coreAt core).key x)).regs ∧
      (t.coreAt core).events = (s.coreAt core).events ++
        [{ trap := 0x24, detail := x.val, addr := va, set := (s.coreAt core).cur,
           ten := (s.coreAt core).tenOf ((s.coreAt core).key x) }]) ∧
  (∀ (s : State) core (x : CtxNo) va code, (s.ctxAt core ((s.coreAt core).key x)).run = .wait (.walk va) →
    (s.coreAt core).cur < 4 → s.walk (s.partKey core ((s.coreAt core).key x)) va.toNat = .bad code →
    MayTrap s core ((s.coreAt core).key x) →
    ∃ t, exec (.translationWalkComplete core x) s = .next t ∧ TrapsAt s t core ((s.coreAt core).key x) 0x07 0x08 va) ∧
  (∀ (s : State) core key line flip ha, (s.ctxAt core key).run = .wait (.line line) →
    (∀ p ∈ (s.coreAt core).ctxs, p.2.run = .wait (.line line) → p.1 = key) → s.lineSpot core key line = some ha →
    parityOk (BitVec.ofNat 512 (s.natAt ha 64) ^^^ (flip ++ 0#32)) = true →
    ∃ t, exec (.fetchLineArrival core line flip) s = .next t ∧ s.sameMemory t ∧ (t.ctxAt core key).run = .run ∧
      (t.coreAt core).lookLine (s.partKey core key) line =
        some ⟨s.partKey core key, line, BitVec.ofNat 512 (s.natAt ha 64) ^^^ (flip ++ 0#32)⟩) ∧
  (∀ (s : State) core key line flip ha, (s.ctxAt core key).run = .wait (.line line) →
    (∀ p ∈ (s.coreAt core).ctxs, p.2.run = .wait (.line line) → p.1 = key) → s.lineSpot core key line = some ha →
    parityOk (BitVec.ofNat 512 (s.natAt ha 64) ^^^ (flip ++ 0#32)) = false →
    3 ≤ (assoc (s.coreAt core).attempts line.toNat).getD 0 →
    ∃ t, exec (.fetchLineArrival core line flip) s = .next t ∧ s.sameMemory t ∧ (t.ctxAt core key).run = .park .dead ∧
      (t.ctxAt core key).ecause = cause 0x04 1 false ∧ (t.ctxAt core key).eaddr = line) ∧
  (∀ (s : State) core h, (s.coreAt core).barHolds = [h] → h.since + 16 ≤ s.cycleOf (pkgOf core) → h.req.src = core →
    homeOf h.req.ha ≠ core →
    ∃ t, exec (.barrierArrivalSend core) s = .next t ∧ s.sameMemory t ∧ (t.coreAt core).barHolds = [] ∧
      ∃ m ∈ t.msgs, m.src = core ∧ m.dst = homeOf h.req.ha ∧
        m.body = .req { h.req with act := .bararr h.joins.length, who := .contexts h.joins }) ∧
  (∀ (s : State) core src r k, Reaches s src core .th r → r.act = .bararr k → BarrierReached s core r → s.Inv →
    ∃ t, exec (.barrierArrivalAtHome core src) s = .next t ∧ Arrives s t r.ha k ∧ Replied t core r {}) ∧
  (∀ (s : State) core src p r, Reaches s src core p r → r.act = .engarr 0 0 true → BarrierReached s core r → s.Inv →
    ∃ t, exec (.engineBarrierArrival core src p) s = .next t ∧ Arrives s t r.ha 1 ∧ Replied t core r {}) ∧
  (∀ (s : State) core (x : CtxNo) op sz d m c v got h, (s.ctxAt core ((s.coreAt core).key x)).run = .wait .reply →
    (s.ctxAt core ((s.coreAt core).key x)).inst = some h → h.i1 = .gldInt op sz d m →
    (s.ctxAt core ((s.coreAt core).key x)).out = .gld (GldOp.code op) false d.val (wdBytes sz) ((c, v, []) :: got) [] 0 →
    (s.ctxAt core ((s.coreAt core).key x)).raised = 0 → (((c, v, []) :: got).map (·.1)).Pairwise (· < ·) →
    (∀ e ∈ (c, v, []) :: got, e.1 < 2048 ∧ e.2.1 < 2 ^ (8 * wdBytes sz) ∧ e.2.2 = []) → d ≠ 0 →
    ∃ t, exec (.gldResult core x) s = .next t ∧ s.sameMemory t ∧ WentOn s t core ((s.coreAt core).key x) ∧
      (t.ctxAt core ((s.coreAt core).key x)).g d = ⟨gathered (8 * wdBytes sz) op v (got.map (·.2.1)), 0⟩) ∧
  (∀ (s : State) core src m key regs pc va ha u rs next, Next s src core .th m (.migrate key regs pc va ha) →
    (s.coreAt core).halted = false →
    (s.consume m).blockRun src key m.part core regs pc = (u, .ok (rs, next)) →
    ∃ t, exec (.migrantBlockAtHome core src) s = .next t ∧ u.sameMemory t ∧
      ∃ x ∈ t.msgs, x.src = core ∧ x.dst = src ∧ x.path = .th ∧ x.body = .migrated key rs next none) ∧
  (∀ (s : State) core src m key rs next, Next s src core .th m (.migrated key rs next none) →
    (s.ctxAt core key).raised = 0 → rs.length = 15 →
    ∃ t, exec (.migrantReturn core src) s = .next t ∧ s.sameMemory t ∧ (t.ctxAt core key).run = .run ∧
      (t.ctxAt core key).pc = (s.ctxAt core key).goesTo next ∧ (∀ r : GReg, 1 ≤ r.val → r.val ≤ 15 → rs[r.val - 1]? = some ((t.ctxAt core key).g r)) ∧
      ∀ r : GReg, 15 < r.val → (t.ctxAt core key).g r = (s.ctxAt core key).g r) ∧
  (∀ (s : State) core src m key, ∀ va : Word, Next s src core .th m (.migrated key [] 0 (some (0x0A, 0x04, va))) →
    MayTrap s core key →
    ∃ t, exec (.migrantReturn core src) s = .next t ∧ s.sameMemory t ∧ TrapsAt s t core key 0x0A 0x04 va)

-- Events of labels (08_labels.md)

namespace Sys2Proof.Claims

/-- The environments x of a list that no environment of the blight table lies in, and that hold no other such member, in
ascending order (R144). -/
def Reduced (blight raw l : List Env) : Prop :=
  let free := fun x => x ∈ raw ∧ ∀ f ∈ blight, x &&& f ≠ f
  l.Pairwise (fun x y => x.toNat < y.toNat) ∧ ∀ x, x ∈ l ↔ free x ∧ ∀ y, free y → x &&& y = y → y = x
/-- A context waits for the combination of two labels, whose set this is (R144, R145, R157). -/
def Combining (s : State) (core : CoreNo) (x : CtxNo) (u : Bool) (a b : Handle) (l : List Env) : Prop :=
  (s.ctxAt core ((s.coreAt core).key x)).run = .wait (.combine u a b) ∧ (s.ctxAt core ((s.coreAt core).key x)).resp = none ∧
  ∃ raw, Reduced (s.blightOf core (s.partKey core ((s.coreAt core).key x))) raw l ∧
    ∀ e, e ∈ raw ↔ if u then
        e ∈ s.envsOld core (s.partKey core ((s.coreAt core).key x)) a ∨ e ∈ s.envsOld core (s.partKey core ((s.coreAt core).key x)) b
      else ∃ p ∈ s.envsOld core (s.partKey core ((s.coreAt core).key x)) a,
        ∃ q ∈ s.envsOld core (s.partKey core ((s.coreAt core).key x)) b, e = p ||| q
/-- A context has its combination and issues again. -/
def Given (t : State) (core : CoreNo) (key : Nat) (u : Bool) (a b h : Handle) : Prop :=
  (t.ctxAt core key).run = .run ∧ (t.ctxAt core key).memo.head? = some (u, a, b, h)
/-- What the blight table is once new environments are recorded (R148). -/
def Blighted (old envs new : List Env) : Prop :=
  let added := fun x => x ∈ envs ∧ ∀ f ∈ old, x &&& f ≠ f
  ∀ x, x ∈ new ↔ (x ∈ old ∧ ∀ y, added y → x &&& y ≠ y) ∨ added x

end Sys2Proof.Claims

/-- R143 to R149, R158 and R162: a combination that the caches miss is found in the table, is HIDDEN, or goes to the label
home, which interns it under the lowest free handle or fails with trap 0x12; a NOGOOD extends the blight table and sweeps
the entries, every core installs the sweep, and then its token is written, in the order in which NOGOODs arrived, one
that would overfill the table, counted after the removals of its step 2 (log 99), with 0x21; LFLUSH empties the tables. No
free handle is reported before a full heap (log 98), and the label home's answer reaches its context in the event that
serves the request (log 80). -/
def Obligations.LabelEvents : Prop :=
  (∀ (s : State) core x u a b, Combining s core x u a b [] →
    ∃ t, exec (.combineMissComplete core x) s = .next t ∧ s.sameMemory t ∧
      Given t core ((s.coreAt core).key x) u a b 0xFFFF) ∧
  (∀ (s : State) core x u a b l h, Combining s core x u a b l → l ≠ [] → l.length ≤ 64 →
    (s.partAt (s.partKey core ((s.coreAt core).key x))).find l = some h →
    ∃ t, exec (.combineMissComplete core x) s = .next t ∧ s.sameMemory t ∧ Given t core ((s.coreAt core).key x) u a b h) ∧
  (∀ (s : State) core x u a b l, Combining s core x u a b l → l ≠ [] → l.length ≤ 64 →
    (s.partAt (s.partKey core ((s.coreAt core).key x))).find l = none →
    ∃ t, exec (.combineMissComplete core x) s = .next t ∧ s.sameMemory t ∧
      (t.ctxAt core ((s.coreAt core).key x)).run = .wait .intern ∧
      ∃ m ∈ t.msgs, m.src = core ∧ m.dst = (s.partAt (s.partKey core ((s.coreAt core).key x))).lhome ∧ m.path = .th ∧
        m.body = .intern ((s.coreAt core).key x) u a b l (s.partAt (s.partKey core ((s.coreAt core).key x))).flushes) ∧
  (∀ (s : State) core x u a b l, Combining s core x u a b l → 64 < l.length → (s.coreAt core).assist.getLsbD 1 = false →
    MayTrap s core ((s.coreAt core).key x) →
    ∃ t, exec (.combineMissComplete core x) s = .next t ∧ s.sameMemory t ∧
      TrapsAt s t core ((s.coreAt core).key x) 0x12 1 (BitVec.ofNat 64 l.length)) ∧
  (∀ (s : State) core src m key u a b raw l n, Next s src core .th m (.intern key u a b raw (s.partAt m.part).flushes) →
    Reduced (s.partAt m.part).blight raw l → l ≠ [] → l.length < 5 → (s.partAt m.part).find l = none →
    (s.partAt m.part).freeHandle = some n → (s.ctxAt src key).run = .wait .intern → (s.ctxAt src key).resp = none →
    ∃ t, exec (.labelInternRequest core src) s = .next t ∧ s.sameMemory t ∧ Given t src key u a b (BitVec.ofNat 16 n) ∧
      (t.partAt m.part).entry (BitVec.ofNat 16 n) = some { envs := l }) ∧
  (∀ (s : State) core src m key u a b raw l, Next s src core .th m (.intern key u a b raw (s.partAt m.part).flushes) →
    Reduced (s.partAt m.part).blight raw l → l ≠ [] → l.length ≤ 64 → (s.partAt m.part).find l = none →
    (s.partAt m.part).freeHandle = none → (s.ctxAt src key).run = .wait .intern →
    (s.coreAt src).assist.getLsbD 1 = false → MayTrap s src key →
    ∃ t, exec (.labelInternRequest core src) s = .next t ∧ s.sameMemory t ∧
      TrapsAt s t src key 0x12 2 (BitVec.ofNat 64 l.length)) ∧
  (∀ (s : State) core src m key tok pc envs l, Next s src core .th m (.nogood key tok pc envs) →
    Blighted (s.partAt m.part).blight envs l → l.Nodup → l.length ≤ 256 → envs.Nodup → (s.partAt m.part).blight.Nodup →
    ((s.partAt m.part).table.map (·.1)).Nodup → assoc (s.partAt m.part).table 0xFFFF = none →
    ∃ t, exec (.nogoodApply core src) s = .next t ∧ s.sameMemory t ∧ Blighted (s.partAt m.part).blight envs (t.partAt m.part).blight ∧
      (∀ h e, h ≠ 0 → (s.partAt m.part).entry h = some e → e.fwd = none → (∀ x ∈ e.envs, ∃ f ∈ l, x &&& f = f) →
        t.resolveAt m.part h = 0xFFFF) ∧
      (∀ h e, (s.partAt m.part).entry h = some e → e.fwd = none → Reduced l e.envs e.envs →
        (t.partAt m.part).entry h = some e)) ∧
  (∀ (s : State) core src m key tok pc envs, Next s src core .th m (.nogood key tok pc envs) →
    256 < (addBlight (s.partAt m.part).blight envs).1.length →
    ∃ t, exec (.nogoodApply core src) s = .next t ∧ OnlyLogs s t m.part ∧
      (t.partAt m.part).blight = (s.partAt m.part).blight ∧ (t.partAt m.part).table = (s.partAt m.part).table ∧
      (t.partAt m.part).nogoods = (s.partAt m.part).nogoods ++ [⟨src, key, tok, 0, [], 0x21, nextEntry s m.part⟩]) ∧
  (∀ (s : State) core n u i rest k, (s.coreAt core).labels = [(n, u)] → u.installs = i :: rest →
    s.partKey core (16 * (n / 2) + 1 + 7 * (n % 2)) = k → 2 * k.set + k.ten.toNat = n →
    ∃ t, exec (.blightInstall core) s = .next t ∧ s.sameMemory t ∧ ((t.coreAt core).unit k).comb = [] ∧
      ((t.coreAt core).unit k).installs = rest) ∧
  (∀ (s : State) core k p g, s.parts = [(k, p)] → p.nogoods = [g] → p.lhome = core → g.waiting = [] →
    ∃ t, exec (.nogoodTokenWrite core) s = .next t ∧ s.sameMemory t ∧ (t.partAt k).nogoods = [] ∧
      TokenTakes s t g.core g.key g.tok (statusWord g.code 1 g.frec g.count)) ∧
  (∀ (s : State) core src m key, Next s src core .th m (.lflush key) → (s.partAt m.part).nogoods = [] →
    (s.ctxAt src key).run = .park .lflush → (s.ctxAt src key).raised = 0 →
    ∃ t, exec (.lflushApply core src) s = .next t ∧ s.sameMemory t ∧ (t.partAt m.part).table = [] ∧
      (t.partAt m.part).blight = [] ∧ WentOn s t src key)

-- Events of work (06_control.md)

namespace Sys2Proof.Claims

/-- An item has started in a context: it runs at the item's address (R106). -/
def Started (t : State) (core : CoreNo) (key : Nat) (i : Item) : Prop :=
  (t.ctxAt core key).run = .run ∧ (t.ctxAt core key).pc = i.pc ∧ (t.ctxAt core key).item = some i.current ∧
  (i.kind = .spawn → (t.ctxAt core key).g 1 = ⟨i.join, 0⟩ ∧ (t.ctxAt core key).g 2 = i.a ∧ (t.ctxAt core key).g 3 = i.b) ∧
  (i.kind = .launch → (t.ctxAt core key).g 1 = i.a ∧ (t.ctxAt core key).g 2 = i.b ∧
    (key % 16 = 0 → (t.ctxAt core key).g 63 = ⟨0x1FE0000000DBFF0, 0⟩ ∧
      ∀ r : GReg, 2 < r.val → r.val < 63 → (t.ctxAt core key).g r = {}))
/-- The core's root context is idle, in a set that the function owns, and takes its launches. -/
def Awaits (s : State) (core : CoreNo) (fn : Nat) : Prop :=
  s.fnSet core (s.fnAt (pkgOf core) fn) = some (s.coreAt core).cur ∧ (s.coreAt core).halted = false ∧
  (s.coreAt core).stopped = false ∧ (s.ctxAt core (16 * (s.coreAt core).cur)).run = .idle
/-- The deque of a context's set and tenant. -/
def dequeOf (s : State) (core : CoreNo) (key : Nat) : Deque :=
  (s.coreAt core).dq ((s.coreAt core).half (s.coreAt core).cur ((s.coreAt core).tenOf key))

end Sys2Proof.Claims

/-- R104 to R113, R121, R124 and R126: a launch item starts an idle root context, a context in POOL takes the bottom-most spawn
item, or every 64th time the top-most; a spill move takes the 32 top-most entries of the hardware to the spill area, or as
many as that has places for, or brings the 32 bottom-most spilled ones back; a steal asks one victim after another, which
hands over its top-most item or none; YIELD ends after 64 cycles, and a bounded wait of REAP or JOIN ends with trap 0x0F. -/
def Obligations.WorkEvents : Prop :=
  (∀ (s : State) core (x : CtxNo) t0, (s.ctxAt core ((s.coreAt core).key x)).run = .park (.yield t0) →
    t0 + 64 ≤ s.cycleOf (pkgOf core) →
    exec (.yieldWake core x) s = .next (s.modCtx core ((s.coreAt core).key x) fun c => { c with run := .run })) ∧
  (∀ (s : State) core, isCompute core = true → ((s.coreAt core).dq 0).moving = true →
    ∃ t, exec (.dequeSpillMove core) s = .next t ∧ s.sameMemory t ∧ ((t.coreAt core).dq 0).moving = false ∧
      ((t.coreAt core).dq 0).items = ((s.coreAt core).dq 0).items ∧
      ((t.coreAt core).dq 0).spilled = ((s.coreAt core).dq 0).spilled + min 32 (512 - ((s.coreAt core).dq 0).spilled)) ∧
  (∀ (s : State) core, ((s.coreAt core).dq 0).moving = false → ((s.coreAt core).dq 0).spilled ≠ 0 →
    entries ((s.coreAt core).dq 0).items = ((s.coreAt core).dq 0).spilled →
    ∃ t, exec (.dequeSpillMove core) s = .next t ∧ s.sameMemory t ∧ ((t.coreAt core).dq 0).moving = false ∧
      ((t.coreAt core).dq 0).items = ((s.coreAt core).dq 0).items ∧
      ((t.coreAt core).dq 0).spilled = ((s.coreAt core).dq 0).spilled - 32) ∧
  (∀ (s : State) core (fn : BitVec 8) it l, (s.fnAt (pkgOf core) fn.toNat).launches = [l] → l.target = some core →
    l.item = it → l.retryAt = 0 → (s.fnAt (pkgOf core) fn.toNat).writes = [] → it.kind = .launch → Awaits s core fn.toNat →
    ∃ t, exec (.launchItemArrival core fn) s = .next t ∧ s.sameMemory t ∧
      Started t core (16 * (s.coreAt core).cur) it ∧ (t.fnAt (pkgOf core) fn.toNat).launches = []) ∧
  (∀ (s : State) (pkg : Fin 64) (fn : BitVec 8) core it l, pkgOf core = pkg.val →
    (s.fnAt pkg.val fn.toNat).launches = [l] → l.target = some core → l.item = it → l.retryAt ≠ 0 → l.retryAt ≤ s.cycle →
    (s.fnAt pkg.val fn.toNat).writes = [] → it.kind = .launch → Awaits s core fn.toNat →
    ∃ t, exec (.launchRetry pkg fn) s = .next t ∧ s.sameMemory t ∧
      Started t core (16 * (s.coreAt core).cur) it ∧ (t.fnAt pkg.val fn.toNat).launches = []) ∧
  (∀ (s : State) (pkg : Fin 64) (fn : BitVec 8) it l, (s.fnAt pkg.val fn.toNat).launches = [l] → l.target = none →
    l.item = it → (s.fnAt pkg.val fn.toNat).writes = [] → it.kind = .launch → (∀ c ∈ coresOf pkg.val (s.fnAt pkg.val fn.toNat).node, Awaits s c fn.toNat) →
    ∃ t, exec (.floodedLaunch pkg fn) s = .next t ∧ s.sameMemory t ∧ (t.fnAt pkg.val fn.toNat).launches = [] ∧
      ∀ c ∈ coresOf pkg.val (s.fnAt pkg.val fn.toNat).node, Started t c (16 * (s.coreAt c).cur) it) ∧
  (∀ (s : State) core i, (s.coreAt core).halted = false → (s.coreAt core).stopped = false →
    (s.ctxAt core (16 * (s.coreAt core).cur)).run = .idle → ((s.coreAt core).dq 0).busy = false →
    ((s.coreAt core).dq 0).items = [i] → i.kind = .launch → i.set = (s.coreAt core).cur →
    ∃ t, exec (.poolTake core) s = .next t ∧ s.sameMemory t ∧ Started t core (16 * (s.coreAt core).cur) i ∧
      ((t.coreAt core).dq 0).items = []) ∧
  (∀ (s : State) core key keys i rest, (s.coreAt core).halted = false → (s.coreAt core).stopped = false →
    (s.ctxAt core (16 * (s.coreAt core).cur)).run ≠ .idle → (s.coreAt core).poolKeys = key :: keys →
    (dequeOf s core key).busy = false →
    (∀ j ∈ (dequeOf s core key).items, j.kind = .spawn ∧ j.set = (s.coreAt core).cur ∧ j.rel = none) →
    (if ((dequeOf s core key).takes + 1) % 64 = 0 then (dequeOf s core key).items = i :: rest
      else (dequeOf s core key).items = rest ++ [i]) →
    ∃ t, exec (.poolTake core) s = .next t ∧ s.sameMemory t ∧ Started t core key i ∧
      ((t.coreAt core).dq ((s.coreAt core).half (s.coreAt core).cur ((s.coreAt core).tenOf key))).items = rest) ∧
  (∀ (s : State) core ten v, s.maySteal core = true → s.wanting core = some ten → (s.coreAt core).steal.asked ≠ 0 →
    (s.victims core (s.coreAt core).cur)[(s.coreAt core).steal.asked]? = some v →
    ∃ t, exec (.stealRequest core) s = .next t ∧ s.sameMemory t ∧ (t.coreAt core).steal.busy = true ∧
      (t.coreAt core).steal.asked = (s.coreAt core).steal.asked + 1 ∧
      ∃ m ∈ t.msgs, m.src = core ∧ m.dst = v ∧ m.path = .th ∧ m.body = .stealReq ten (s.coreAt core).cur) ∧
  (∀ (s : State) core, s.maySteal core = true →
    (s.victims core (s.coreAt core).cur).length ≤ (s.coreAt core).steal.asked →
    ∃ t, exec (.stealRequest core) s = .next t ∧ s.sameMemory t ∧ t.msgs = s.msgs ∧
      (t.coreAt core).steal.busy = false ∧ (t.coreAt core).steal.asked = 0 ∧ ((s.coreAt core).steal.backoff ≠ 0 →
        (t.coreAt core).steal.until_ = s.cycle + 16 * (s.coreAt core).steal.backoff.toNat)) ∧
  (∀ (s : State) core, (s.coreAt core).steal.until_ ≠ 0 → (s.coreAt core).steal.until_ ≤ s.cycle →
    exec (.stealBackoff core) s = .next (s.modCore core fun c => { c with steal := { c.steal with until_ := 0 } })) ∧
  (∀ (s : State) core src m ten set i rest, Next s src core .th m (.stealReq ten set) → (s.coreAt core).halted = false →
    (s.coreAt core).stopped = false →
    ((s.coreAt core).dq ((s.coreAt core).half set ten)).items = i :: rest → i.kind = .spawn → i.set = set →
    i.rel = none → (s.coreAt core).poolKeys = [] →
    ∃ t, exec (.stealServe core src) s = .next t ∧ s.sameMemory t ∧
      ((t.coreAt core).dq ((s.coreAt core).half set ten)).items = rest ∧
      ((t.coreAt core).dq ((s.coreAt core).half set ten)).lent = ((s.coreAt core).dq ((s.coreAt core).half set ten)).lent + 1 ∧
      ∃ x ∈ t.msgs, x.src = core ∧ x.dst = src ∧ x.path = .th ∧ x.body = .stealResp (some { i with victims := core :: i.victims })) ∧
  (∀ (s : State) core src m ten set, Next s src core .th m (.stealReq ten set) → (s.coreAt core).halted = true →
    ∃ t, exec (.stealServe core src) s = .next t ∧ s.sameMemory t ∧
      ∃ x ∈ t.msgs, x.src = core ∧ x.dst = src ∧ x.path = .th ∧ x.body = .stealResp none) ∧
  (∀ (s : State) core src m, Next s src core .th m (.stealResp none) →
    (s.coreAt core).steal.asked < (s.victims core m.part.set).length →
    ∃ t, exec (.stealReply core src) s = .next t ∧ s.sameMemory t ∧ (t.coreAt core).steal =
      { (s.coreAt core).steal with busy := false }) ∧
  (∀ (s : State) core src m i key keys, Next s src core .th m (.stealResp (some i)) → i.kind = .spawn →
    i.set = (s.coreAt core).cur → (s.coreAt core).halted = false → (s.coreAt core).stopped = false →
    (s.coreAt core).poolKeys = key :: keys →
    (s.coreAt core).half i.set ((s.coreAt core).tenOf key) = (s.coreAt core).half i.set i.ten →
    ∃ t, exec (.stealReply core src) s = .next t ∧ s.sameMemory t ∧ Started t core key i ∧
      (t.coreAt core).steal.busy = false ∧ (t.coreAt core).steal.start = some (cindex src)) ∧
  (∀ (s : State) core src m set, Next s src core .th m (.notice set) →
    ∃ t, exec (.completionNotice core src) s = .next t ∧ s.sameMemory t ∧
      ((t.coreAt core).dq ((s.coreAt core).half set m.part.ten)).lent =
        ((s.coreAt core).dq ((s.coreAt core).half set m.part.ten)).lent - 1) ∧
  (∀ (s : State) core (x : CtxNo) mask, (s.ctxAt core ((s.coreAt core).key x)).run = .park (.reap mask) →
    (s.ctxAt core ((s.coreAt core).key x)).since + max (s.ctxAt core ((s.coreAt core).key x)).parklim.toNat 0x400 ≤
      s.cycleOf (pkgOf core) → (s.ctxAt core ((s.coreAt core).key x)).eheld = false →
    (s.ctxAt core ((s.coreAt core).key x)).tvec ≠ 0 →
    (x = 0 → ((s.coreAt core).resident[(s.coreAt core).cur]?.getD {}).held = false) → (s.coreAt core).cur < 4 →
    ∃ t ea, exec (.parkLimit core x) s = .next t ∧ s.sameMemory t ∧ TrapsAt s t core ((s.coreAt core).key x) 0x0F 0 ea ∧
      ((s.ctxAt core ((s.coreAt core).key x)).inst ≠ none →
        (t.ctxAt core ((s.coreAt core).key x)).latch = (s.ctxAt core ((s.coreAt core).key x)).inst)) ∧
  (∀ (s : State) core (x : CtxNo) e k, (s.ctxAt core ((s.coreAt core).key x)).run = .park .home →
    (s.ctxAt core ((s.coreAt core).key x)).sent.map (·.act) = some .join → (s.coreAt core).parks = [e] →
    e.req.src = core → e.req.who = .ctx ((s.coreAt core).key x) → k = (if e.req.peer then s.peerPart e.req.part core else e.req.part) →
    (s.ctxAt core ((s.coreAt core).key x)).since + max (s.ctxAt core ((s.coreAt core).key x)).parklim.toNat 0x400 ≤
      s.cycleOf (pkgOf core) → MayTrap s core ((s.coreAt core).key x) → (s.ctxAt core ((s.coreAt core).key x)).out = .none →
    (s.coreAt core).cur < 4 →
    ∃ t ea, exec (.parkLimit core x) s = .next t ∧ OnlyLogs s t k ∧ (t.coreAt core).parks = [] ∧
      TrapsAt s t core ((s.coreAt core).key x) 0x0F 0 ea)

-- Events of the sequencer, the network, exceptions and debug (12_vector_sequencer.md, 18_network.md, 20_system.md)

namespace Sys2Proof.Claims

/-- One flit stands in the network, in a router's buffer: its message goes through an output to a neighbour and on from
there, and the slot comes up now and is unused. -/
def FlitAt (s : State) (r out slot q : Nat) (f : Flit) (m : Msg) : Prop :=
  s.flits = [f] ∧ f.router = r ∧ f.inp = 0 ∧ f.bin = false ∧ s.msgById f.msg = some m ∧ s.outFor r m f.io = out ∧
  neighbour r out = some q ∧ (∀ o ∈ [0, 6, 7], s.outFor q m f.io ≠ o) ∧ (s.routerAt r).dead = [] ∧ (s.routerAt r).slotAt = [] ∧
  (s.routerAt r).cal = [] ∧ (s.routerAt r).arbs = [] ∧ (slotIn out slot (s.cycleOf (r / 128))).isSome = true
/-- A root context at an instruction boundary (R352). -/
def AtBoundary (s : State) (core : CoreNo) : Prop :=
  (s.ctxAt core (16 * (s.coreAt core).cur)).run = .run ∧ (s.ctxAt core (16 * (s.coreAt core).cur)).pair = none ∧
  (s.ctxAt core (16 * (s.coreAt core).cur)).out = .none ∧ (s.ctxAt core (16 * (s.coreAt core).cur)).fexc = none ∧
  (s.ctxAt core (16 * (s.coreAt core).cur)).replay = false ∧ (s.ctxAt core (16 * (s.coreAt core).cur)).stopped = false ∧
  (s.ctxAt core (16 * (s.coreAt core).cur)).asyncs = [] ∧ s.parkedAt core (16 * (s.coreAt core).cur) = none

end Sys2Proof.Claims

/-- R208 to R212, R322 to R325, R343, R352, R359, R360 and R375 to R378: the sequencer executes a captured instruction in
its loop's registers, and a read stream fetches ahead; an open slot sends a flit to the next router, and links and
calendars change; events enter the resident handler, asynchronous traps and machine checks are taken, and the debug path
sets DBG, freezes engines and lets a stopped context go on. -/
def Obligations.NetworkAndSystemEvents : Prop :=
  (∀ (s : State) core l pc t d a b rest, (s.coreAt core).loops = [l] → keySet l.key = (s.coreAt core).cur → l.key < 64 →
    (s.coreAt core).live = true → (s.coreAt core).freeze = false → l.stopped = false → l.running = false → l.at_ = 0 →
    l.body = (pc, .vand t (.v d) (.v a) (.v b)) :: rest → isCompute core = true →
    (∀ j (h : j < 32), ((s.ctxAt core l.key).v a).lab[j] = 0 ∧ ((s.ctxAt core l.key).v b).lab[j] = 0) →
    ∃ u, exec (.sequencerDispatch core) s = .next u ∧ s.sameMemory u ∧
      (u.coreAt core).loops = [{ l with at_ := 1, running := false }] ∧
      ((u.ctxAt core l.key).v d).data = ((s.ctxAt core l.key).v a).data &&& ((s.ctxAt core l.key).v b).data ∧
      (∀ r, r ≠ d → (u.ctxAt core l.key).v r = (s.ctxAt core l.key).v r) ∧
      (u.ctxAt core l.key).pc = (s.ctxAt core l.key).pc) ∧
  (∀ (s : State) core (x : CtxNo) (f : Fin 8) st l, (s.coreAt core).cur < 4 →
    (s.ctxAt core ((s.coreAt core).key x)).strm f = some st → st.dir ≠ some false → st.asked = none →
    st.pos + st.ahead.length < st.shape.count → (s.coreAt core).loops = [] →
    st.shape.elem (st.pos + st.ahead.length) % 256 + st.shape.size ≤ 256 →
    (acting s core ((s.coreAt core).key x)).check (BitVec.ofNat 64 (st.shape.elem (st.pos + st.ahead.length)))
      st.shape.size 1 .load = .ok l → l.home = core → (s.coreAt core).halted = false → (s.coreAt core).parks = [] →
    s.store.bad = [] →
    ∃ t labs, exec (.streamPrefetch core x f) s = .next t ∧ s.sameMemory t ∧
      labs = s.loadLabs ((acting s core ((s.coreAt core).key x)).req .load l 0 st.shape.size) ∧
      (t.ctxAt core ((s.coreAt core).key x)).strm f =
        some { st with ahead := st.ahead ++ [(readNat s l.ha st.shape.size, labs)] }) ∧
  (∀ (s : State) core (x : CtxNo) (f : Fin 8) st l, (s.coreAt core).cur < 4 →
    (s.ctxAt core ((s.coreAt core).key x)).strm f = some st → st.dir ≠ some false → st.asked = none →
    st.pos + st.ahead.length < st.shape.count → (s.coreAt core).loops = [] →
    st.shape.elem (st.pos + st.ahead.length) % 256 + st.shape.size ≤ 256 →
    (acting s core ((s.coreAt core).key x)).check (BitVec.ofNat 64 (st.shape.elem (st.pos + st.ahead.length)))
      st.shape.size 1 .load = .ok l → l.home ≠ core →
    ∃ t m r, exec (.streamPrefetch core x f) s = .next t ∧ s.sameMemory t ∧
      (t.ctxAt core ((s.coreAt core).key x)).strm f = some { st with asked := some s.nextMsg } ∧
      m ∈ t.msgs ∧ m.src = core ∧ m.dst = l.home ∧ m.body = .req r ∧ r.act = .load ∧ r.ha = l.ha ∧
      r.n = st.shape.size) ∧
  (∀ (s : State) (r : BitVec 13) (out : Fin 8) (slot : Fin 64) q f m, out.val ≠ 0 → out.val < 5 →
    FlitAt s r.toNat out.val slot.val q f m →
    ∃ t g, exec (.flitSlot r out slot) s = .next t ∧ s.sameMemory t ∧ t.flits = [g] ∧ g.msg = f.msg ∧ g.router = q ∧
      g.inp = inPort out.val ∧ g.vc = f.vc ∧ g.node = f.node ∧ t.msgs = s.msgs) ∧
  (∀ (s : State) (r : BitVec 13) (out : Fin 20), out.val < 8 → (s.routerAt r.toNat).dead = [] →
    (assoc (s.routerAt r.toNat).fails out.val).getD 0 < 16 →
    ∃ t, exec (.linkFlitRetry r out) s = .next t ∧ s.sameMemory t ∧ t.flits = s.flits ∧ (t.routerAt r.toNat).dead = [] ∧
      assoc (t.routerAt r.toNat).fails out.val = some ((assoc (s.routerAt r.toNat).fails out.val).getD 0 + 1)) ∧
  (∀ (s : State) (r : BitVec 13) (out : Fin 20), out.val < 8 → (s.routerAt r.toNat).dead = [] → s.flits = [] →
    assoc (s.routerAt r.toNat).fails out.val = some 16 →
    ∃ t, exec (.linkFlitRetry r out) s = .next t ∧ s.sameMemory t ∧ (t.routerAt r.toNat).dead = [out.val] ∧
      (t.pkgAt (r.toNat / 128)).reports = (s.pkgAt (r.toNat / 128)).reports + 1) ∧
  (∀ (s : State) (r : BitVec 13) (out : Fin 20), 8 ≤ out.val → (s.pkgAt (r.toNat / 128)).peerDead = [] → s.flits = [] →
    assoc (s.pkgAt (r.toNat / 128)).peerFails (out.val - 8) = some 16 →
    ∃ t, exec (.linkFlitRetry r out) s = .next t ∧ s.sameMemory t ∧ (t.pkgAt (r.toNat / 128)).peerDead = [out.val - 8] ∧
      (t.pkgAt (r.toNat / 128)).reports = (s.pkgAt (r.toNat / 128)).reports + 1) ∧
  (∀ (s : State) (r : BitVec 13) (out : Fin 8) n v c, (s.routerAt r.toNat).pend = [(out.val, n, false, v, c)] →
    c ≤ s.cycleOf (r.toNat / 128) →
    ∃ t, exec (.calendarUpdateEffect r out) s = .next t ∧ s.sameMemory t ∧ (t.routerAt r.toNat).pend = [] ∧
      (t.routerAt r.toNat).calAt out.val n = BitVec.ofNat 16 v) ∧
  (∀ (s : State) (r : BitVec 13) (out : Fin 8) n v c, (s.routerAt r.toNat).pend = [(out.val, n, true, v, c)] →
    c ≤ s.cycleOf (r.toNat / 128) →
    ∃ t, exec (.calendarUpdateEffect r out) s = .next t ∧ s.sameMemory t ∧ (t.routerAt r.toNat).pend = [] ∧
      (t.routerAt r.toNat).arbAt out.val n = { age := field v 24 8, w := #v[field v 0 4, field v 4 4, field v 8 4, field v 12 4] }) ∧
  (∀ (s : State) core e, (s.coreAt core).halted = false → (s.coreAt core).stopped = false → (s.coreAt core).cur < 4 →
    ((s.coreAt core).resident[(s.coreAt core).cur]?.getD {}).held = false → AtBoundary s core →
    (s.coreAt core).events = [e] → e.set = (s.coreAt core).cur → (s.coreAt core).rvec ≠ 0 →
    ∃ t, exec (.residentEventEntry core) s = .next t ∧ s.sameMemory t ∧ (t.coreAt core).events = [] ∧
      ((t.coreAt core).resident[(s.coreAt core).cur]?.getD {}).held = true ∧
      (t.coreAt core).rpc = (s.ctxAt core (16 * (s.coreAt core).cur)).pc ∧
      (t.coreAt core).rcause = cause e.trap e.detail false ∧ (t.coreAt core).raddr = e.addr ∧
      (t.ctxAt core (16 * (s.coreAt core).cur)).pc = (s.coreAt core).rvec ∧
      (t.ctxAt core (16 * (s.coreAt core).cur)).regs = (s.ctxAt core (16 * (s.coreAt core).cur)).regs) ∧
  (∀ (s : State) core (controller : Bool), (s.coreAt core).rvec ≠ 0 →
    exec (.interrupt core controller) s = .next (s.modCore core fun c => { c with
      events := c.events ++ [{ trap := 0x23, detail := controller.toNat, addr := 0, set := c.cur,
                               ten := c.tenOf (16 * c.cur) }] })) ∧
  (∀ (s : State) core (x : CtxNo) a rest, assigned s core = true → (s.coreAt core).halted = false →
    (s.coreAt core).stopped = false → (s.coreAt core).cur < 4 →
    ((s.coreAt core).resident[(s.coreAt core).cur]?.getD {}).held = false →
    (s.ctxAt core ((s.coreAt core).key x)).run = .run → (s.ctxAt core ((s.coreAt core).key x)).stopped = false →
    (s.ctxAt core ((s.coreAt core).key x)).pair = none → (s.ctxAt core ((s.coreAt core).key x)).out = .none →
    (s.ctxAt core ((s.coreAt core).key x)).eheld = false → (s.ctxAt core ((s.coreAt core).key x)).tvec ≠ 0 →
    (s.ctxAt core ((s.coreAt core).key x)).asyncs = a :: rest →
    ∃ t, exec (.asyncTrap core x) s = .next t ∧ s.sameMemory t ∧
      (t.ctxAt core ((s.coreAt core).key x)).epc = (s.ctxAt core ((s.coreAt core).key x)).pc ∧
      (t.ctxAt core ((s.coreAt core).key x)).ecause = (cause a.trap a.detail false ||| 0x800000) ∧
      (t.ctxAt core ((s.coreAt core).key x)).eaddr = a.eaddr ∧ (t.ctxAt core ((s.coreAt core).key x)).eheld = true ∧
      (t.ctxAt core ((s.coreAt core).key x)).pc = (s.ctxAt core ((s.coreAt core).key x)).tvec ∧
      (t.ctxAt core ((s.coreAt core).key x)).asyncs = rest) ∧
  (∀ (s : State) core (x : CtxNo), x ≠ 0 →
    ∃ t, exec (.machineCheck core x false) s = .next t ∧ s.sameMemory t ∧
      (t.ctxAt core ((s.coreAt core).key x)).run = .park .dead ∧
      (t.ctxAt core ((s.coreAt core).key x)).ecause = cause 0x04 2 false ∧
      (t.ctxAt core ((s.coreAt core).key x)).epc = (s.ctxAt core ((s.coreAt core).key x)).epcOf) ∧
  (∀ (s : State) core (x : CtxNo) whole, (whole = true ∨ x = 0) →
    ∃ t, exec (.machineCheck core x whole) s = .next t ∧ s.sameMemory t ∧ (t.coreAt core).halted = true) ∧
  (∀ (s : State) core (x : CtxNo) attach step,
    exec (.debugSetDbg core x attach step) s = .next (s.modCtx core ((s.coreAt core).key x) fun c =>
      { c with dbg := { c.dbg with attach, step } })) ∧
  (∀ (s : State) core, exec (.debugFreezeSet core) s = .next (s.modCore core fun c => { c with freeze := true })) ∧
  (∀ (s : State) core, exec (.debugFreezeClear core) s = .next (s.modCore core fun c => { c with freeze := false })) ∧
  (∀ (s : State) core (x : CtxNo), (s.ctxAt core ((s.coreAt core).key x)).stopped = true →
    ∃ t, exec (.debugResume core x) s = .next t ∧ s.sameMemory t ∧
      (t.ctxAt core ((s.coreAt core).key x)).stopped = false ∧
      (t.ctxAt core ((s.coreAt core).key x)).pc = (s.ctxAt core ((s.coreAt core).key x)).pc)

-- Events of the host side (22_host.md)

namespace Sys2Proof.Claims

/-- A launch message of a function to a core of its partition (R389). -/
def LaunchTo (f : VFn) (pkg : Nat) (d core pc a b : Nat) : Prop :=
  core < 2 ^ 20 ∧ pc < 2 ^ 57 ∧ a < 2 ^ 64 ∧ b < 2 ^ 64 ∧ isCompute (BitVec.ofNat 20 core) = true ∧
  pkgOf (BitVec.ofNat 20 core) = pkg ∧ covers f.node (cindex (BitVec.ofNat 20 core)) = true ∧
  d = core + f.key.toNat * 2 ^ 32 + pc * 2 ^ 64 + a * 2 ^ 128 + b * 2 ^ 192
/-- Bytes from an address on, outside which memory is as it was. -/
def OnlyBytes (s t : State) (ha n : Nat) : Prop := ∀ a, (a < ha ∨ ha + n ≤ a) → t.byteAt a = s.byteAt a

end Sys2Proof.Claims

/-- R322, R362, R386 to R398: what the host writes over its configuration path, launch pages, memory path and registers,
and what enabling, disabling, resetting, scrubbing, pausing and resuming a function, a module reset, a power halt and a
report request leave; a function's oldest event that nothing holds back goes into its queue while there is room, at the
queue's host address modulo 2^48 (log 24). A function that is reset has EN 0 as its steps begin (log 55). After a module
reset the package's cores, routers and partitions hold the values of log 2, and the bytes of its local stores read as 0
(log 1). The part number stands in the report's first two words (log 26). A refused page fault's trap has the faulting
address in EADDR (log 52). -/
def Obligations.HostEvents : Prop :=
  (∀ (s : State) (pkg : Fin 64) (set : Fin 4) r, (recOf r).valid = true →
    ∃ t, exec (.configPathWrite pkg (.record set r)) s = .next t ∧ s.sameMemory t ∧
      (t.partAt { pkg := pkg.val, node := (recOf r).node, ten := (recOf r).tenant, set := set.val }).record = r ∧
      ∀ c ∈ coresOf pkg.val (recOf r).node,
        (t.coreAt c).nodes[set.val]? = some (some ((recOf r).node, (recOf r).tenant))) ∧
  (∀ (s : State) (pkg : Fin 64) (r : BitVec 12) (dest : Fin 129) (cls port : Fin 16), r.toNat < 128 →
    ∃ t, exec (.configPathWrite pkg (.route r dest cls port)) s = .next t ∧ s.sameMemory t ∧
      assoc (t.routerAt (128 * pkg.val + r.toNat)).shadow (16 * dest.val + cls.val) = some port.val ∧
      (t.routerAt (128 * pkg.val + r.toNat)).routes = (s.routerAt (128 * pkg.val + r.toNat)).routes) ∧
  (∀ (s : State) (pkg : Fin 64) (n : Fin 65), n.val ≠ 0 →
    exec (.configPathWrite pkg (.packages n)) s = .next { s with packages := n.val }) ∧
  (∀ (s : State) (pkg : Fin 64) (fn : BitVec 8) off data core pc a b, off.toNat % 32 = 0 →
    (s.fnAt pkg.val fn.toNat).en = true → (s.fnAt pkg.val fn.toNat).places < 64 → (s.fnAt pkg.val fn.toNat).writes = [] →
    LaunchTo (s.fnAt pkg.val fn.toNat) pkg.val data.toNat core pc a b →
    ∃ t it, exec (.launchMessage pkg fn off 32 data) s = .next t ∧ s.sameMemory t ∧
      (t.fnAt pkg.val fn.toNat).launches = (s.fnAt pkg.val fn.toNat).launches ++
        [{ target := some (BitVec.ofNat 20 core), item := it }] ∧
      it.kind = .launch ∧ it.pc = BitVec.ofNat 64 pc ∧ it.a = ⟨BitVec.ofNat 64 a, 0⟩ ∧ it.b = ⟨BitVec.ofNat 64 b, 0⟩) ∧
  (∀ (s : State) (pkg : Fin 64) (fn : BitVec 8) off len data, 64 ≤ (s.fnAt pkg.val fn.toNat).places →
    exec (.launchMessage pkg fn off len data) s = .next (s.modFn pkg.val fn.toNat fun f =>
      { f with writes := f.writes ++ [{ off := off.toNat, len := len.toNat, data }] })) ∧
  (∀ (s : State) (pkg : Fin 64) (fn : BitVec 8) off len data, (s.fnAt pkg.val fn.toNat).en = true →
    (s.fnAt pkg.val fn.toNat).places < 64 → (s.fnAt pkg.val fn.toNat).writes = [] →
    field data.toNat 32 32 ≠ (s.fnAt pkg.val fn.toNat).key.toNat →
    ∃ t e, exec (.launchMessage pkg fn off len data) s = .next t ∧ s.sameMemory t ∧
      (t.fnAt pkg.val fn.toNat).launches = (s.fnAt pkg.val fn.toNat).launches ∧
      (t.fnAt pkg.val fn.toNat).lrefuse = (s.fnAt pkg.val fn.toNat).lrefuse + 1 ∧
      (t.fnAt pkg.val fn.toNat).events = (s.fnAt pkg.val fn.toNat).events ++ [e] ∧ e.kind = 9) ∧
  (∀ (s : State) (pa : BitVec 57) (len : Fin 65) data, s.Inv → len.val ≠ 0 → s.paOk pa.toNat = true →
    s.paOk (pa.toNat + len.val - 1) = true → pa.toNat / 2 ^ 48 % 8 < 2 → (s.coreAt (homeOf pa.toNat)).halted = false →
    (s.coreAt (homeOf pa.toNat)).parks = [] → (s.coreAt (homeOf pa.toNat)).window.length < 16 → s.store.bad = [] →
    s.readOnly pa.toNat len.val = false →
    ∃ t, exec (.cxlMemWrite pa len data) s = .next t ∧ Stored s t pa.toNat len.val data.toNat) ∧
  (∀ (s : State) (pkg : Fin 64) (fn : BitVec 8) e rest, s.Inv → (s.fnAt pkg.val fn.toNat).events = e :: rest →
    e.gen = (s.fnAt pkg.val fn.toNat).gen → (s.fnAt pkg.val fn.toNat).mig = false → e.kind = 10 →
    ((s.fnAt pkg.val fn.toNat).evtail + 128 - (s.fnAt pkg.val fn.toNat).evhead % 128) % 128 < 127 →
    ∃ t ha, exec (.eventRecordWrite pkg fn) s = .next t ∧ (t.fnAt pkg.val fn.toNat).events = rest ∧
      (t.fnAt pkg.val fn.toNat).evtail = ((s.fnAt pkg.val fn.toNat).evtail + 1) % 128 ∧
      (t.fnAt pkg.val fn.toNat).msix = (s.fnAt pkg.val fn.toNat).msix + 1 ∧
      ha = hostPa pkg.val ((s.fnAt pkg.val fn.toNat).evbase.toNat + 32 * (s.fnAt pkg.val fn.toNat).evtail) ∧
      OnlyBytes s t ha 32 ∧ field (t.natAt ha 32) 0 8 = 10 ∧ field (t.natAt ha 32) 16 16 = e.gen.toNat ∧
      field (t.natAt ha 32) 32 20 = e.core.toNat ∧ field (t.natAt ha 32) 64 64 = e.addr.toNat ∧
      field (t.natAt ha 32) 128 64 = e.cycle % 2 ^ 64) ∧
  (∀ (s : State) (pkg : Fin 64) (fn : BitVec 8) h e rest,
    (s.coreAt ((s.fnAt pkg.val fn.toNat).lowest pkg.val)).assist.getLsbD 6 = false →
    (s.fnAt pkg.val fn.toNat).events = h :: e :: rest → h.past (s.fnAt pkg.val fn.toNat) = false →
    s.heldBack pkg.val (s.fnAt pkg.val fn.toNat) h = true → e.past (s.fnAt pkg.val fn.toNat) = false →
    s.heldBack pkg.val (s.fnAt pkg.val fn.toNat) e = false →
    ((s.fnAt pkg.val fn.toNat).evtail + 128 - (s.fnAt pkg.val fn.toNat).evhead % 128) % 128 < 127 →
    ∃ t, exec (.eventRecordWrite pkg fn) s = .next t ∧ (t.fnAt pkg.val fn.toNat).events = h :: rest ∧
      (t.fnAt pkg.val fn.toNat).evtail = ((s.fnAt pkg.val fn.toNat).evtail + 1) % 128) ∧
  (∀ (s : State) (pkg : Fin 64) (fn : BitVec 8) (v : Word), 2 ^ 26 ≤ v.toNat →
    exec (.evreplyRetry pkg fn v) s = .next (s.modFn pkg.val fn.toNat fun f => { f with lrefuse := f.lrefuse + 1 })) ∧
  (∀ (s : State) (pkg : Fin 64) (fn : BitVec 8) v core key, s.replyTo pkg.val fn.toNat v 0 = some (core, key) →
    s.owed core key = none →
    exec (.evreplyRetry pkg fn v) s = .next (s.modFn pkg.val fn.toNat fun f => { f with lrefuse := f.lrefuse + 1 })) ∧
  (∀ (s : State) (pkg : Fin 64) (fn : BitVec 8) v core key va, s.replyTo pkg.val fn.toNat v 0 = some (core, key) →
    (s.ctxAt core key).run = .wait (.fault va) → (s.ctxAt core key).told = true →
    exec (.evreplyRetry pkg fn v) s = .next (s.modCtx core key fun c => { c with run := .run, replay := true })) ∧
  (∀ (s : State) (pkg : Fin 64) (fn : BitVec 8) v core key va, s.replyTo pkg.val fn.toNat v 2 = some (core, key) →
    (s.ctxAt core key).run = .wait (.fault va) → (s.ctxAt core key).told = true → MayTrap s core key →
    ∃ t, exec (.evreplyRefuse pkg fn v) s = .next t ∧ s.sameMemory t ∧ TrapsAt s t core key 0x07 0x0F va ∧
      (t.ctxAt core key).latch = none) ∧
  (∀ (s : State) (pkg : Fin 64) (fn : BitVec 8) v core key w, s.replyTo pkg.val fn.toNat v 0 = some (core, key) →
    (s.pkgAt pkg.val).swap = some w → w.recorded = true → w.confirm = true → w.core = core →
    realKey w.key % 16 = key % 16 → exec (.evreplyConfirmFlip pkg fn v) s = .next (s.modPkg pkg.val fun p => { p with swap := some { w with confirm := false } })) ∧
  (∀ (s : State) (pkg : Fin 64) (fn : BitVec 8), (s.pkgAt pkg.val).recovery = false → (s.fnAt pkg.val fn.toNat).vfstat = 0 →
    exec (.functionEnable pkg fn) s = .next (s.modFn pkg.val fn.toNat fun f => { f with en := true, vfstat := 1 })) ∧
  (∀ (s : State) (pkg : Fin 64) (fn : BitVec 8) (disable : Bool), (s.fnAt pkg.val fn.toNat).vfstat = 1 →
    (s.fnAt pkg.val fn.toNat).en = true → (∀ y ∈ (s.pkgAt pkg.val).stops, y.fn ≠ some fn.toNat) →
    ∃ t x, exec (if disable then .functionDisable pkg fn else .functionReset pkg fn) s = .next t ∧ s.sameMemory t ∧
      (t.fnAt pkg.val fn.toNat).en = false ∧ (t.fnAt pkg.val fn.toNat).vfstat = 2 ∧
      (t.pkgAt pkg.val).stops = (s.pkgAt pkg.val).stops ++ [x] ∧ x.node = (s.fnAt pkg.val fn.toNat).node ∧
      x.discard = true ∧ x.fn = some fn.toNat ∧ UpTo64 x.at_ (s.cycleOf pkg.val + 1024)) ∧
  (∀ (s : State) (pkg : Fin 64) (fn : BitVec 8) (disable : Bool) y, (s.fnAt pkg.val fn.toNat).vfstat = 4 →
    (s.fnAt pkg.val fn.toNat).en = true → (s.pkgAt pkg.val).stops = [y] → y.fn = some fn.toNat → y.discard = false →
    ∃ t n, exec (if disable then .functionDisable pkg fn else .functionReset pkg fn) s = .next t ∧ s.sameMemory t ∧
      (t.fnAt pkg.val fn.toNat).en = false ∧ (t.fnAt pkg.val fn.toNat).vfstat = 2 ∧
      (t.pkgAt pkg.val).stops = [{ y with discard := true, at_ := n }] ∧ UpTo64 n (s.cycleOf pkg.val + 1024)) ∧
  (∀ (s : State) (pkg : Fin 64) (fn : BitVec 8) node ten, (s.fnAt pkg.val fn.toNat).vfstat = 3 →
    (s.fnAt pkg.val fn.toNat).enLater = false → (s.fnAt pkg.val fn.toNat).ending = some (node, ten) →
    ∃ t e, exec (.functionScrubComplete pkg fn) s = .next t ∧ (t.fnAt pkg.val fn.toNat).vfstat = 0 ∧
      (t.fnAt pkg.val fn.toNat).events = (s.fnAt pkg.val fn.toNat).events ++ [e] ∧ e.kind = 10 ∧
      ∀ c ∈ coresOf pkg.val node, ∀ (n : Fin 4) x off, (s.coreAt c).nodes[n.val]? = some (some (node, x)) →
        let p := s.partAt { pkg := pkg.val, node, ten, set := n.val }
        p.lslo * 4096 ≤ off → off < (p.lshi + 1) * 4096 → off < 2 ^ 20 →
        t.byteAt (lsAddr c off) = 0 ∧ t.tagAt (lsAddr c off) = 0) ∧
  (∀ (s : State) (pkg : Fin 64) (fn : BitVec 8), (s.fnAt pkg.val fn.toNat).vfstat = 1 → (s.fnAt pkg.val fn.toNat).mig = false →
    ∃ t x, exec (.migrationPause pkg fn) s = .next t ∧ s.sameMemory t ∧ (t.fnAt pkg.val fn.toNat).mig = true ∧
      (t.fnAt pkg.val fn.toNat).vfstat = 2 ∧ (t.pkgAt pkg.val).stops = (s.pkgAt pkg.val).stops ++ [x] ∧
      x.node = (s.fnAt pkg.val fn.toNat).node ∧ x.discard = false ∧ x.fn = some fn.toNat) ∧
  (∀ (s : State) (pkg : Fin 64) (fn : BitVec 8) x, (s.fnAt pkg.val fn.toNat).vfstat = 4 → (s.fnAt pkg.val fn.toNat).en = true →
    (s.pkgAt pkg.val).stops = [x] → x.fn = some fn.toNat → x.discard = false → x.begun = true →
    ∃ t, exec (.migrationResume pkg fn) s = .next t ∧ s.sameMemory t ∧ (t.pkgAt pkg.val).stops = [] ∧
      (t.fnAt pkg.val fn.toNat).mig = false ∧ (t.fnAt pkg.val fn.toNat).vfstat = 1 ∧
      ∀ c ∈ s.stopCores pkg.val x, (t.coreAt c).stopped = false) ∧
  (∀ (s : State) (pkg : Fin 64) (fn : BitVec 8) v,
    exec (.hostRegisterWrite pkg fn true 8 v) s = .next (s.modFn pkg.val fn.toNat fun f => { f with evbase := v }) ∧
    exec (.hostRegisterWrite pkg fn false 0x1000 v) s =
      .next (s.modFn pkg.val fn.toNat fun f => { f with evhead := v.toNat % 128 })) ∧
  (∀ (s : State) (pkg : Fin 64) (fn : BitVec 8) v, (s.fnAt pkg.val fn.toNat).en = false →
    ∃ t, exec (.hostRegisterWrite pkg fn true 0 v) s = .next t ∧ (t.fnAt pkg.val fn.toNat).key = v.extractLsb' 32 32 ∧
      (t.fnAt pkg.val fn.toNat).node = field v.toNat 6 10 ∧ (t.fnAt pkg.val fn.toNat).ten = v.getLsbD 5) ∧
  (∀ (s : State) (pkg : Fin 64) ecdsa lms,
    ∃ t, exec (.moduleReset pkg ecdsa lms) s = .next t ∧
      t.pkgAt pkg.val = { base := s.cycle, recovery := !(ecdsa && lms) } ∧
      (∀ c, pkgOf c = pkg.val → t.coreAt c = {}) ∧ (∀ c, pkgOf c ≠ pkg.val → t.coreAt c = s.coreAt c) ∧
      (∀ r, r / 128 = pkg.val → t.routerAt r = {}) ∧ (∀ k, k.pkg = pkg.val → t.partAt k = {}) ∧
      (∀ c off, pkgOf c = pkg.val → t.byteAt (lsAddr c off) = 0)) ∧
  (∀ (s : State) (pkg : Fin 64),
    ∃ t, exec (.powerLimitHalt pkg) s = .next t ∧ s.sameMemory t ∧ (t.pkgAt pkg.val).powerHalt = true ∧
      (∀ c ∈ allCores pkg.val, (t.coreAt c).halted = true) ∧
      ∀ v f, (v, f) ∈ (s.pkgAt pkg.val).fns → f.en = true → ∃ e ∈ (t.fnAt pkg.val v).events, e.kind = 8) ∧
  (∀ (s : State) (pkg : Fin 64) req,
    ∃ t, exec (.spdmDoeRequest pkg req) s = .next t ∧ s.sameMemory t ∧
      (t.pkgAt pkg.val).spdm.take 2 = [0x303258502D444C4D, 0x412D3834] ∧ (t.pkgAt pkg.val).spdm.length = 66)

-- The whole machine (01_machine.md, 05_fetch.md, 20_system.md)

namespace Sys2Proof.Claims

/-- The state once a turn's cycles have passed, with the stops begun whose cycle has come. -/
def passed (s : State) (rest : List Turn) (cycles : Nat) : State := ({ s with agenda := rest } : State).advance cycles
/-- The state in which a context's issue begins: the turn is over, its cycles have passed, and the context acts. -/
def issuing (s : State) (rest : List Turn) (cycles : Nat) (core : CoreNo) (x : CtxNo) : State :=
  { passed s rest cycles with core := core, ctx := x, asKey := none }
/-- A context that fetches: its turn has come (R100), it holds no instruction, and nothing is taken before its next one. -/
def Fetches (u : State) : Prop :=
  CoreSt.nextCtx u u.core = some u.ctx ∧ u.me.inst = none ∧ u.me.replay = false ∧ u.me.out = .none ∧ u.me.asyncs = [] ∧
  u.me.fexc = none ∧ u.me.enter = none ∧ (∀ i (h : i < 4), (u.me.watch[i]).getLsbD 63 = false)
/-- The line at the pc is in the fetch buffer, its line word is as R84 wants it, and the pc names slot n of it. -/
def LineAt (u : State) (b : BitVec 512) (n : Nat) : Prop :=
  u.me.pc.toNat < 2 ^ 57 ∧ u.me.pc = lineOf u.me.pc + BitVec.ofNat 64 n ∧ n < 5 ∧
  (u.here.lookLine u.part (lineOf u.me.pc)).map (·.bits) = some b ∧ b.toNat / 2 ^ 10 % 2 ^ 6 = 0 ∧
  b.toNat / 2 ^ 24 % 2 ^ 8 = 0
/-- The state that a fetched instruction, or pair, finds. -/
def withInst (u : State) (h : Inst) : State :=
  (u.takeSlot u.core u.ctx).modMe fun c => { c with replay := false, enter := none, inst := some h }

end Sys2Proof.Claims

/-- R83, R84, R88, R90, R98 and R100: a step whose turn is a context's issue runs the instruction that the decoder reads
from the 96 bits of the slot at its pc, with the row that a register's value chooses where rows share an encoding (log 5);
a slot that the template makes the first of a pair issues with the next one; a slot whose word the core or its streams
make illegal takes that trap; a context whose turn it is not does nothing; and an event's turn is the event itself. -/
def Obligations.StepRunsDecoded : Prop :=
  (∀ (s : State) rest cycles core x u b n i, s.agenda = ⟨cycles, .issue core x⟩ :: rest →
    u = issuing s rest cycles core x → Fetches u → LineAt u b n → (firsts (b.toNat / 2 ^ 5 % 2 ^ 5)).contains n = false →
    b.toNat / 2 ^ 5 % 2 ^ 5 < 8 → decode (b.extractLsb' (32 + 96 * n) 96) = .ok i →
    u.slotIllegal (resolveRow u.me i) = false →
    step s = exec (resolveRow u.me i) (withInst u { pc := u.me.pc, i1 := resolveRow u.me i })) ∧
  (∀ (s : State) rest cycles core x u b n i, s.agenda = ⟨cycles, .issue core x⟩ :: rest →
    u = issuing s rest cycles core x → Fetches u → LineAt u b n → b.toNat / 2 ^ 5 % 2 ^ 5 < 8 →
    decode (b.extractLsb' (32 + 96 * n) 96) = .ok i → u.slotIllegal (resolveRow u.me i) = true →
    step s = .next ((u.takeSlot u.core u.ctx).modMe fun c => { c with enter := none }).illegal) ∧
  (∀ (s : State) rest cycles core x, s.agenda = ⟨cycles, .issue core x⟩ :: rest →
    CoreSt.nextCtx (issuing s rest cycles core x) core ≠ some x → step s = .next (issuing s rest cycles core x)) ∧
  (∀ (s : State) rest cycles core x u b n i j, s.agenda = ⟨cycles, .issue core x⟩ :: rest →
    u = issuing s rest cycles core x → Fetches u → u.me.pair = none → LineAt u b n →
    (firsts (b.toNat / 2 ^ 5 % 2 ^ 5)).contains n = true →
    decode (b.extractLsb' (32 + 96 * n) 96) = .ok i → decode (b.extractLsb' (32 + 96 * (n + 1)) 96) = .ok j →
    u.slotIllegal (resolveRow u.me i) = false → u.slotIllegal (resolveRow u.me j) = false →
    pairLegal (resolveRow u.me i) (resolveRow u.me j) = true →
    step s = runPair (resolveRow u.me i) (resolveRow u.me j) u.me.pc
      (withInst u { pc := u.me.pc, i1 := resolveRow u.me i, i2 := some (resolveRow u.me j) })) ∧
  (∀ (s : State) rest cycles e, s.agenda = ⟨cycles, .event e⟩ :: rest → encode e = none →
    step s = exec e { passed s rest cycles with asKey := none }) ∧
  (∀ (s : State) rest cycles, s.agenda = ⟨cycles, .pass⟩ :: rest → step s = .next (passed s rest cycles)) ∧
  (∀ (s : State) rest cycles, (∀ p ∈ s.pkgs, ∀ x ∈ p.2.stops, x.begun = false → s.cycleOf p.1 + cycles < x.at_) →
    passed s rest cycles = { s with agenda := rest, cycle := s.cycle + cycles })

/-- R79, R80, R91 to R98: words written out from the encoding tables of the spec decode to the instructions they stand for,
and reserved ones to none. -/
def Obligations.DecodeWords : Prop :=
  decode 0x1001_0410_0000_0000_0000_0004 = .ok (.addi false 1 1 4) ∧
  decode 0x2600_1460_0080_0000_0000_0804 = .ok (.ext true 5 6 4 8) ∧
  decode 0x2700_0C10_8020_0000_0000_0000 = .ok (.cmp false .lt 3 1 2) ∧
  decode 0x0201_0040_0010_00FF_FFFF_FFFC = .ok (.brCond .ne 4 0 (-4)) ∧
  decode 0x0800_0060_0000_0000_0000_0002 = .ok (.jinit 6 2) ∧
  decode 0x3800_1870_0094_0000_0000_0040 = .ok (.ld .w (some .cl) false 6 (.off 7 0x40)) ∧
  decode 0x3A00_6580_00A8_0000_0000_0100 = .ok (.st .w (.rel .pk) 25 (.off 24 0x100)) ∧
  decode 0x5900_1410_83D6_0000_0000_0008 = .ok (.acas .d (.acq .di) 5 1 8 2 3) ∧
  decode 0x8000_0420_C450_0100_0000_0000 = .ok (.vadd .f32 .rne false (some 4) (.v 1) (.v 2) (.v 3)) ∧
  decode 0xA000_029A_AB88_0000_0000_002C = .ok (.mmul .e2m1 false false 0 41 42 43 44) ∧
  decode 0xB100_2020_C400_0000_0000_0000 = .ok (.cpyg 8 2 3 4 none) ∧
  decode 0xB800_1460_0000_0000_0000_0000 = .ok (.nalloc 5 6) ∧
  decode 0xC000_0050_4200_8000_0000_000A = .ok (.amsgMark true 5 1 2 10) ∧
  decode 0xE200_1800_0000_0000_0000_0003 = .ok (.mfs 6 3) ∧
  decode 0xE000_0000_0000_0000_0000_0007 = .ok (.trap 7) ∧
  (decode 0xFF00_0000_0000_0000_0000_0000).toOption = none ∧ (decode 0xE000_0000_0000_0000_0000_0100).toOption = none

/-- Decoding the encoder's word of a well-formed instruction gives the instruction back, with every operand at every value
that its encoding admits, for all instructions; rows that share an encoding come back as the row that a register's value
has yet to choose. -/
def Obligations.DecodeEncode : Prop :=
  (∀ (i : Instr) w, i.wellFormed = true → encode i = some w → decode w = .ok i.canon) ∧
  (∀ (i : Instr) w, i.wellFormed = true → encode i = some w → (∀ a b, i ≠ .mctlSetSplit a b) → (∀ a b, i ≠ .mctlSetRhalf a b) →
    (∀ a b, i ≠ .mctlSetTol a b) → (∀ a b, i ≠ .mctlSetBnorm a b) → (∀ a b, i ≠ .mctlSetCap a b) →
    (∀ a b, i ≠ .mctlSetIter a b) → (∀ a, i ≠ .ackResume a) → (∀ a, i ≠ .ackRefuse a) →
    (∀ a b, i ≠ .calsetArbitration a b) → decode w = .ok i) ∧
  (∀ (i j : Instr) w, i.wellFormed = true → j.wellFormed = true → encode i = some w → encode j = some w → i.canon = j.canon)

/-- Every step keeps memory in canonical form: addresses strictly rise, and no byte is listed that an unlisted address
reads as. -/
def Obligations.MemoryStaysCanonical : Prop := ∀ (s t : State), StepsTo s t → s.Inv → t.Inv

/-- R143, R179, R322, R324, R340, R349, R357 and R367: after module reset memory is in canonical form, every context is IDLE
with its exception registers 0 (the other registers of a context are the model's choice, log 2), ASSIST and the counters
are 0, bank 0 is RESIDENT and the others EMPTY, every full-empty bit is full, every word's label is empty (the model's
choice, log 1), every calendar slot OPEN, and handle n + 1 is the singleton of assumption n. With the routers as reset leaves
them a flit for a cluster of another column leaves a router east or west, or is refused where it has no such neighbour. -/
def Obligations.ResetState : Prop :=
  State.reset.Inv ∧ State.reset.cycle = 0 ∧
  (∀ core key, (State.reset.ctxAt core key).run = .idle ∧ (State.reset.ctxAt core key).epc = 0 ∧
    (State.reset.ctxAt core key).ecause = 0 ∧ (State.reset.ctxAt core key).eaddr = 0 ∧
    (State.reset.ctxAt core key).eheld = false ∧ (State.reset.ctxAt core key).fflags = 0 ∧
    (State.reset.ctxAt core key).fenable = 0 ∧ (State.reset.ctxAt core key).vcclass = 0 ∧
    (State.reset.ctxAt core key).pend = []) ∧
  (∀ core, (State.reset.coreAt core).assist = 0 ∧ (∀ i (h : i < 11), (State.reset.coreAt core).counters[i] = 0) ∧
    (State.reset.coreAt core).banks[0]? = some .resident ∧
    (∀ n, n = 1 ∨ n = 2 ∨ n = 3 → (State.reset.coreAt core).banks[n]? = some .empty) ∧
    (State.reset.coreAt core).halted = false) ∧
  (∀ ha, State.reset.fullAt ha = true ∧ State.reset.tagAt ha = 0) ∧
  (∀ r out slot, (State.reset.routerAt r).calAt out slot = 0x8000) ∧
  (∀ k (n : Fin 64), (State.reset.partAt k).entry (BitVec.ofNat 16 (n.val + 1)) = some { envs := [1#64 <<< n.val] }) ∧
  (∀ (s : State) (r : Nat) (m : Msg) io, s.routers = [] → dieOf m.dst < 8 → pkgOf m.dst = r / 128 →
    colOf (routerOf m.dst) ≠ colOf r →
    s.outFor r m io = if colOf r < colOf (routerOf m.dst) then (if (neighbour r 2).isSome then 2 else 8)
      else (if (neighbour r 4).isSome then 4 else 8))
end

