-- ==== Sys2Proof/Laws/Encoding.lean ====
section
/-!
SUPPORT. What the encoder's fields decode to, one lemma for each kind of field: the facts that the per-instruction
round trips of Laws/PerInstr.lean and the statements about encodings are built from.
-/
namespace Sys2Proof

-- Registers

@[simp] theorem g_gEnc (r : GReg) : g (gEnc r) = r := by
  simp [g, gEnc]
/-- A small number comes back from six bits. -/
theorem ofNat6_toNat {n : Nat} (h : n < 64) : (BitVec.ofNat 6 n).toNat = n := by
  simp [BitVec.toNat_ofNat]; omega
@[simp] theorem fReg_fEnc (r : FReg) : fReg (fEnc r) = .ok r := by
  have h := r.isLt
  simp [fReg, fEnc, ofNat6_toNat (show r.val < 64 by omega)]
@[simp] theorem mReg_m8Enc (r : MReg) : mReg (m8Enc r) = .ok r := by
  have h := r.isLt
  simp [mReg, m8Enc, ofNat6_toNat (show r.val < 64 by omega)]
@[simp] theorem kReg_k4Enc (r : KReg) : kReg (k4Enc r) = .ok r := by
  have h := r.isLt
  simp [kReg, k4Enc, ofNat6_toNat (show r.val < 64 by omega)]
@[simp] theorem vReg_vEnc (r : VOp) : vReg (vEnc r) = .ok r := by
  cases r with
  | v n =>
    have h := n.isLt
    simp [vReg, vEnc, ofNat6_toNat (show n.val < 64 by omega)]
  | s n =>
    have h := n.isLt
    have k : ¬ 24 + n.val < 8 := by omega
    simp [vReg, vEnc, ofNat6_toNat (show 24 + n.val < 64 by omega), k]

-- Codes

@[simp] theorem tyOf_code (t : Ty) : tyOf t.code = .ok t := by cases t <;> rfl
@[simp] theorem ftyOf_code (t : FTy) : ftyOf t.ty.code = .ok t := by cases t <;> rfl
@[simp] theorem rndOf_code (r : Rnd) : rndOf r.code = r := by cases r <;> rfl
@[simp] theorem condOf_code (c : Cond) : condOf c.code = .ok c := by cases c <;> rfl
@[simp] theorem fcondOf_code (c : FCond) : fcondOf c.code = .ok c := by cases c <;> rfl
@[simp] theorem sizeOf_code (z : Size) : Sys2Proof.sizeOf z.code = z := by cases z <;> rfl
@[simp] theorem wdOf_size (z : SizeWD) : wdOf z.size = .ok z := by cases z <;> rfl
@[simp] theorem scopeOf_code (s : Scope) : scopeOf s.code = .ok s := by cases s <;> rfl
@[simp] theorem pathOf_code (p : Path) : pathOf p.code = .ok p := by cases p <;> rfl
@[simp] theorem ordOf_code (o : OrdS) : ordOf o.code = .ok o := by
  rcases o with _ | s | s | s <;> first | rfl | (cases s <;> rfl)
@[simp] theorem acqOf_acqOrd (q : Option Scope) : acqOf (acqOrd q) = .ok q := by cases q <;> rfl
@[simp] theorem relOf_relOrd (q : Option Scope) : relOf (relOrd q) = .ok q := by cases q <;> rfl
@[simp] theorem atOf_atOrd (o : AtOrd) : atOf (atOrd o) = .ok o := by cases o <;> rfl

-- Layouts

/-- Cut a field out of fields set side by side: the part on the right. -/
theorem cut_right {v w start len : Nat} (x : BitVec v) (y : BitVec w) (h : start + len ≤ w) :
    (x ++ y).extractLsb' start len = y.extractLsb' start len := BitVec.extractLsb'_append_eq_of_add_le h
/-- Cut a field out of fields set side by side: the part on the left. -/
theorem cut_left {v w start len : Nat} (x : BitVec v) (y : BitVec w) (h : w ≤ start) :
    (x ++ y).extractLsb' start len = x.extractLsb' (start - w) len := BitVec.extractLsb'_append_eq_of_le h
/-- A bit of fields set side by side, from the right. -/
theorem bit_right {v w i : Nat} (x : BitVec v) (y : BitVec w) (h : i < w) : (x ++ y).getLsbD i = y.getLsbD i := by
  simp [BitVec.getLsbD_append, h]
/-- A bit of fields set side by side, from the left. -/
theorem bit_left {v w i : Nat} (x : BitVec v) (y : BitVec w) (h : w ≤ i) :
    (x ++ y).getLsbD i = x.getLsbD (i - w) := by
  simp [BitVec.getLsbD_append, Nat.not_lt.mpr h]

/-- Every field comes back from its place in the 96 bits (R91). -/
@[simp] theorem unpack_pack (f : Fields) : Fields.unpack f.pack = f := by
  rcases f with ⟨op, fn, d, a, b, c, mod, imm⟩
  simp only [Fields.unpack, Fields.pack, Fields.mk.injEq]
  refine ⟨?_, ?_, ?_, ?_, ?_, ?_, ?_, ?_⟩ <;> simp (disch := decide) only [cut_right, cut_left] <;> simp

@[simp] theorem cDec_cMod (m : ModC) : cDec (cMod m) = m := by
  rcases m with ⟨ta, tb, rm, sat, opt⟩
  simp only [cDec, cMod, ModC.mk.injEq]
  refine ⟨?_, ?_, ?_, ?_, ?_⟩ <;> simp (disch := decide) only [cut_right, cut_left, bit_right, bit_left] <;> simp

@[simp] theorem aDec_aMod (m : ModA) : aDec (aMod m) = .ok m := by
  rcases m with ⟨size, ord, post, xp, idx, scl⟩
  simp (disch := decide) only [aDec, aMod, cut_right, cut_left, bit_right, bit_left]
  simp

@[simp] theorem wMod_low (w : Bool) (c : Option Cond) : (wMod w c).extractLsb' 0 12 = 0 := by
  rcases c with _ | k
  · cases w <;> decide
  · cases w <;> cases k <;> decide
@[simp] theorem wMod_cond (w : Bool) (c : Cond) : (wMod w (some c)).extractLsb' 12 3 = c.code := by
  cases w <;> cases c <;> decide
@[simp] theorem wMod_w (w : Bool) (c : Option Cond) : (wMod w c)[15] = w := by
  rcases c with _ | k
  · cases w <;> decide
  · cases w <;> cases k <;> decide
@[simp] theorem wMod_rest (w : Bool) : (wMod w none).extractLsb' 0 15 = 0 := by
  cases w <;> decide

/-- One small number in imm40. -/
@[simp] theorem immOf_toNat (n : Fin 64) : (immOf n.val).toNat = n.val := by
  have h := n.isLt
  simp [immOf, BitVec.toNat_ofNat]; omega
@[simp] theorem immOf_low (n : Fin 64) : (immOf n.val).extractLsb' 0 6 = gEnc n := by
  apply BitVec.eq_of_toNat_eq
  have h := n.isLt
  simp [immOf, gEnc, BitVec.extractLsb'_toNat]
@[simp] theorem immOf_high (n : Fin 64) : (immOf n.val).extractLsb' 6 34 = 0 := by
  apply BitVec.eq_of_toNat_eq
  have h := n.isLt
  simp [immOf, BitVec.extractLsb'_toNat, Nat.shiftRight_eq_div_pow]; omega
@[simp] theorem posLen_pos (p l : Fin 64) : (posLen p l).extractLsb' 0 6 = gEnc p := by
  apply BitVec.eq_of_toNat_eq
  have h := p.isLt
  simp (disch := decide) only [posLen, cut_right, cut_left]; simp [gEnc]
@[simp] theorem posLen_gap (p l : Fin 64) : (posLen p l).extractLsb' 6 2 = 0 := by
  simp (disch := decide) only [posLen, cut_right, cut_left]; simp
@[simp] theorem posLen_len (p l : Fin 64) : (posLen p l).extractLsb' 8 6 = gEnc l := by
  apply BitVec.eq_of_toNat_eq
  have h := l.isLt
  simp (disch := decide) only [posLen, cut_right, cut_left]
  simp [gEnc, BitVec.extractLsb'_toNat]
@[simp] theorem posLen_top (p l : Fin 64) : (posLen p l).extractLsb' 14 26 = 0 := by
  apply BitVec.eq_of_toNat_eq
  have h := l.isLt
  simp (disch := decide) only [posLen, cut_right, cut_left]
  simp [BitVec.extractLsb'_toNat, Nat.shiftRight_eq_div_pow]; omega
@[simp] theorem gEnc_toFin (r : GReg) : (gEnc r).toFin = r := by simp [gEnc]
@[simp] theorem pathImm_lo (p q : Path) : (pathImm p q).extractLsb' 0 3 = p.code := by
  cases p <;> cases q <;> decide
@[simp] theorem pathImm_gap (p q : Path) : (pathImm p q).extractLsb' 3 5 = 0 := by
  cases p <;> cases q <;> decide
@[simp] theorem pathImm_hi (p q : Path) : (pathImm p q).extractLsb' 8 3 = q.code := by
  cases p <;> cases q <;> decide
@[simp] theorem pathImm_top (p q : Path) : (pathImm p q).extractLsb' 11 29 = 0 := by
  cases p <;> cases q <;> decide
@[simp] theorem sys_low (n : BitVec 12) : (n.setWidth 40).extractLsb' 0 12 = n := by
  apply BitVec.eq_of_toNat_eq
  have h := n.isLt
  simp [BitVec.extractLsb'_toNat]; omega
@[simp] theorem sys_high (n : BitVec 12) : (n.setWidth 40).extractLsb' 12 28 = 0 := by
  apply BitVec.eq_of_toNat_eq
  have h := n.isLt
  simp [BitVec.extractLsb'_toNat, Nat.shiftRight_eq_div_pow]; omega
@[simp] theorem lih_low (n : BitVec 24) : (n.setWidth 40).extractLsb' 0 24 = n := by
  apply BitVec.eq_of_toNat_eq
  have h := n.isLt
  simp [BitVec.extractLsb'_toNat]; omega
@[simp] theorem lih_high (n : BitVec 24) : (n.setWidth 40).extractLsb' 24 16 = 0 := by
  apply BitVec.eq_of_toNat_eq
  have h := n.isLt
  simp [BitVec.extractLsb'_toNat, Nat.shiftRight_eq_div_pow]; omega
@[simp] theorem bar_none : barImm none = 0 := rfl
@[simp] theorem bar_reg (r : BarOp) : (barImm (some r)).extractLsb' 0 6 = gEnc r.reg := by
  simp (disch := decide) only [barImm, cut_right, cut_left]; simp
@[simp] theorem bar_gap (r : BarOp) : (barImm (some r)).extractLsb' 6 2 = 0 := by
  simp (disch := decide) only [barImm, cut_right, cut_left]; simp
@[simp] theorem bar_off (r : BarOp) : (barImm (some r)).extractLsb' 8 32 = r.off := by
  simp (disch := decide) only [barImm, cut_right, cut_left]; simp

@[simp] theorem memOf_enc (f : Fields) (m : MemOp) (k : ModA) (ha : f.a = m.baseEnc) (hb : f.b = m.idxEnc)
    (hi : f.imm = m.immEnc) (hx : k.idx = m.amod.idx) (hs : k.scl = m.amod.scl) : memOf f k = .ok m := by
  cases m <;> simp_all [memOf, MemOp.baseEnc, MemOp.idxEnc, MemOp.immEnc, MemOp.amod]

end Sys2Proof
end

