-- ==== Sys2Proof/Laws/State.lean ====
section
/-!
SUPPORT. What each update of the state leaves as it was, one simp lemma for each field and update, and what reading
back through the accessors gives.
-/
-- One proof after another: hundreds of small proofs at once would need a thread each.
set_option Elab.async false

namespace Sys2Proof.Machine

-- Keyed lists

@[simp] theorem assoc_assocSet_same {α : Type} (l : List (Nat × α)) (k : Nat) (v : α) :
    assoc (assocSet l k v) k = some v := by
  induction l with
  | nil => simp [assocSet, assoc]
  | cons p t ih =>
    rcases p with ⟨j, x⟩
    unfold assocSet
    split
    · simp [assoc]
    · rename_i hne
      split
      · simp [assoc]
      · simp [assoc, hne, ih]

theorem assoc_assocSet_ne {α : Type} (l : List (Nat × α)) {k k' : Nat} (v : α) (h : k' ≠ k) :
    assoc (assocSet l k v) k' = assoc l k' := by
  induction l with
  | nil => simp [assocSet, assoc, Ne.symm h]
  | cons p t ih =>
    rcases p with ⟨j, x⟩
    unfold assocSet
    split
    · rename_i hj; subst hj; simp [assoc, Ne.symm h]
    · split
      · simp [assoc, Ne.symm h]
      · simp only [assoc]; split <;> simp_all

-- State.setCore

@[simp] theorem State.setCore_store (s : State) (c : CoreNo) (v : CoreSt) : (s.setCore c v).store = s.store := rfl
@[simp] theorem State.setCore_parts (s : State) (c : CoreNo) (v : CoreSt) : (s.setCore c v).parts = s.parts := rfl
@[simp] theorem State.setCore_msgs (s : State) (c : CoreNo) (v : CoreSt) : (s.setCore c v).msgs = s.msgs := rfl
@[simp] theorem State.setCore_flits (s : State) (c : CoreNo) (v : CoreSt) : (s.setCore c v).flits = s.flits := rfl
@[simp] theorem State.setCore_seqs (s : State) (c : CoreNo) (v : CoreSt) : (s.setCore c v).seqs = s.seqs := rfl
@[simp] theorem State.setCore_gone (s : State) (c : CoreNo) (v : CoreSt) : (s.setCore c v).gone = s.gone := rfl
@[simp] theorem State.setCore_nextMsg (s : State) (c : CoreNo) (v : CoreSt) : (s.setCore c v).nextMsg = s.nextMsg := rfl
@[simp] theorem State.setCore_routers (s : State) (c : CoreNo) (v : CoreSt) : (s.setCore c v).routers = s.routers := rfl
@[simp] theorem State.setCore_pkgs (s : State) (c : CoreNo) (v : CoreSt) : (s.setCore c v).pkgs = s.pkgs := rfl
@[simp] theorem State.setCore_packages (s : State) (c : CoreNo) (v : CoreSt) : (s.setCore c v).packages = s.packages := rfl
@[simp] theorem State.setCore_cycle (s : State) (c : CoreNo) (v : CoreSt) : (s.setCore c v).cycle = s.cycle := rfl
@[simp] theorem State.setCore_pace (s : State) (c : CoreNo) (v : CoreSt) : (s.setCore c v).pace = s.pace := rfl
@[simp] theorem State.setCore_agenda (s : State) (c : CoreNo) (v : CoreSt) : (s.setCore c v).agenda = s.agenda := rfl
@[simp] theorem State.setCore_core (s : State) (c : CoreNo) (v : CoreSt) : (s.setCore c v).core = s.core := rfl
@[simp] theorem State.setCore_ctx (s : State) (c : CoreNo) (v : CoreSt) : (s.setCore c v).ctx = s.ctx := rfl
@[simp] theorem State.setCore_asKey (s : State) (c : CoreNo) (v : CoreSt) : (s.setCore c v).asKey = s.asKey := rfl
@[simp] theorem State.setCore_tick (s : State) (c : CoreNo) (v : CoreSt) : (s.setCore c v).tick = s.tick := rfl

-- State.modCore

@[simp] theorem State.modCore_store (s : State) (c : CoreNo) (f : CoreSt → CoreSt) : (s.modCore c f).store = s.store := rfl
@[simp] theorem State.modCore_parts (s : State) (c : CoreNo) (f : CoreSt → CoreSt) : (s.modCore c f).parts = s.parts := rfl
@[simp] theorem State.modCore_msgs (s : State) (c : CoreNo) (f : CoreSt → CoreSt) : (s.modCore c f).msgs = s.msgs := rfl
@[simp] theorem State.modCore_flits (s : State) (c : CoreNo) (f : CoreSt → CoreSt) : (s.modCore c f).flits = s.flits := rfl
@[simp] theorem State.modCore_seqs (s : State) (c : CoreNo) (f : CoreSt → CoreSt) : (s.modCore c f).seqs = s.seqs := rfl
@[simp] theorem State.modCore_gone (s : State) (c : CoreNo) (f : CoreSt → CoreSt) : (s.modCore c f).gone = s.gone := rfl
@[simp] theorem State.modCore_nextMsg (s : State) (c : CoreNo) (f : CoreSt → CoreSt) : (s.modCore c f).nextMsg = s.nextMsg := rfl
@[simp] theorem State.modCore_routers (s : State) (c : CoreNo) (f : CoreSt → CoreSt) : (s.modCore c f).routers = s.routers := rfl
@[simp] theorem State.modCore_pkgs (s : State) (c : CoreNo) (f : CoreSt → CoreSt) : (s.modCore c f).pkgs = s.pkgs := rfl
@[simp] theorem State.modCore_packages (s : State) (c : CoreNo) (f : CoreSt → CoreSt) : (s.modCore c f).packages = s.packages := rfl
@[simp] theorem State.modCore_cycle (s : State) (c : CoreNo) (f : CoreSt → CoreSt) : (s.modCore c f).cycle = s.cycle := rfl
@[simp] theorem State.modCore_pace (s : State) (c : CoreNo) (f : CoreSt → CoreSt) : (s.modCore c f).pace = s.pace := rfl
@[simp] theorem State.modCore_agenda (s : State) (c : CoreNo) (f : CoreSt → CoreSt) : (s.modCore c f).agenda = s.agenda := rfl
@[simp] theorem State.modCore_core (s : State) (c : CoreNo) (f : CoreSt → CoreSt) : (s.modCore c f).core = s.core := rfl
@[simp] theorem State.modCore_ctx (s : State) (c : CoreNo) (f : CoreSt → CoreSt) : (s.modCore c f).ctx = s.ctx := rfl
@[simp] theorem State.modCore_asKey (s : State) (c : CoreNo) (f : CoreSt → CoreSt) : (s.modCore c f).asKey = s.asKey := rfl
@[simp] theorem State.modCore_tick (s : State) (c : CoreNo) (f : CoreSt → CoreSt) : (s.modCore c f).tick = s.tick := rfl

-- State.setCtx

@[simp] theorem State.setCtx_store (s : State) (c : CoreNo) (k : Nat) (v : Ctx) : (s.setCtx c k v).store = s.store := rfl
@[simp] theorem State.setCtx_parts (s : State) (c : CoreNo) (k : Nat) (v : Ctx) : (s.setCtx c k v).parts = s.parts := rfl
@[simp] theorem State.setCtx_msgs (s : State) (c : CoreNo) (k : Nat) (v : Ctx) : (s.setCtx c k v).msgs = s.msgs := rfl
@[simp] theorem State.setCtx_flits (s : State) (c : CoreNo) (k : Nat) (v : Ctx) : (s.setCtx c k v).flits = s.flits := rfl
@[simp] theorem State.setCtx_seqs (s : State) (c : CoreNo) (k : Nat) (v : Ctx) : (s.setCtx c k v).seqs = s.seqs := rfl
@[simp] theorem State.setCtx_gone (s : State) (c : CoreNo) (k : Nat) (v : Ctx) : (s.setCtx c k v).gone = s.gone := rfl
@[simp] theorem State.setCtx_nextMsg (s : State) (c : CoreNo) (k : Nat) (v : Ctx) : (s.setCtx c k v).nextMsg = s.nextMsg := rfl
@[simp] theorem State.setCtx_routers (s : State) (c : CoreNo) (k : Nat) (v : Ctx) : (s.setCtx c k v).routers = s.routers := rfl
@[simp] theorem State.setCtx_pkgs (s : State) (c : CoreNo) (k : Nat) (v : Ctx) : (s.setCtx c k v).pkgs = s.pkgs := rfl
@[simp] theorem State.setCtx_packages (s : State) (c : CoreNo) (k : Nat) (v : Ctx) : (s.setCtx c k v).packages = s.packages := rfl
@[simp] theorem State.setCtx_cycle (s : State) (c : CoreNo) (k : Nat) (v : Ctx) : (s.setCtx c k v).cycle = s.cycle := rfl
@[simp] theorem State.setCtx_pace (s : State) (c : CoreNo) (k : Nat) (v : Ctx) : (s.setCtx c k v).pace = s.pace := rfl
@[simp] theorem State.setCtx_agenda (s : State) (c : CoreNo) (k : Nat) (v : Ctx) : (s.setCtx c k v).agenda = s.agenda := rfl
@[simp] theorem State.setCtx_core (s : State) (c : CoreNo) (k : Nat) (v : Ctx) : (s.setCtx c k v).core = s.core := rfl
@[simp] theorem State.setCtx_ctx (s : State) (c : CoreNo) (k : Nat) (v : Ctx) : (s.setCtx c k v).ctx = s.ctx := rfl
@[simp] theorem State.setCtx_asKey (s : State) (c : CoreNo) (k : Nat) (v : Ctx) : (s.setCtx c k v).asKey = s.asKey := rfl
@[simp] theorem State.setCtx_tick (s : State) (c : CoreNo) (k : Nat) (v : Ctx) : (s.setCtx c k v).tick = s.tick := rfl

-- State.modCtx

@[simp] theorem State.modCtx_store (s : State) (c : CoreNo) (k : Nat) (f : Ctx → Ctx) : (s.modCtx c k f).store = s.store := rfl
@[simp] theorem State.modCtx_parts (s : State) (c : CoreNo) (k : Nat) (f : Ctx → Ctx) : (s.modCtx c k f).parts = s.parts := rfl
@[simp] theorem State.modCtx_msgs (s : State) (c : CoreNo) (k : Nat) (f : Ctx → Ctx) : (s.modCtx c k f).msgs = s.msgs := rfl
@[simp] theorem State.modCtx_flits (s : State) (c : CoreNo) (k : Nat) (f : Ctx → Ctx) : (s.modCtx c k f).flits = s.flits := rfl
@[simp] theorem State.modCtx_seqs (s : State) (c : CoreNo) (k : Nat) (f : Ctx → Ctx) : (s.modCtx c k f).seqs = s.seqs := rfl
@[simp] theorem State.modCtx_gone (s : State) (c : CoreNo) (k : Nat) (f : Ctx → Ctx) : (s.modCtx c k f).gone = s.gone := rfl
@[simp] theorem State.modCtx_nextMsg (s : State) (c : CoreNo) (k : Nat) (f : Ctx → Ctx) : (s.modCtx c k f).nextMsg = s.nextMsg := rfl
@[simp] theorem State.modCtx_routers (s : State) (c : CoreNo) (k : Nat) (f : Ctx → Ctx) : (s.modCtx c k f).routers = s.routers := rfl
@[simp] theorem State.modCtx_pkgs (s : State) (c : CoreNo) (k : Nat) (f : Ctx → Ctx) : (s.modCtx c k f).pkgs = s.pkgs := rfl
@[simp] theorem State.modCtx_packages (s : State) (c : CoreNo) (k : Nat) (f : Ctx → Ctx) : (s.modCtx c k f).packages = s.packages := rfl
@[simp] theorem State.modCtx_cycle (s : State) (c : CoreNo) (k : Nat) (f : Ctx → Ctx) : (s.modCtx c k f).cycle = s.cycle := rfl
@[simp] theorem State.modCtx_pace (s : State) (c : CoreNo) (k : Nat) (f : Ctx → Ctx) : (s.modCtx c k f).pace = s.pace := rfl
@[simp] theorem State.modCtx_agenda (s : State) (c : CoreNo) (k : Nat) (f : Ctx → Ctx) : (s.modCtx c k f).agenda = s.agenda := rfl
@[simp] theorem State.modCtx_core (s : State) (c : CoreNo) (k : Nat) (f : Ctx → Ctx) : (s.modCtx c k f).core = s.core := rfl
@[simp] theorem State.modCtx_ctx (s : State) (c : CoreNo) (k : Nat) (f : Ctx → Ctx) : (s.modCtx c k f).ctx = s.ctx := rfl
@[simp] theorem State.modCtx_asKey (s : State) (c : CoreNo) (k : Nat) (f : Ctx → Ctx) : (s.modCtx c k f).asKey = s.asKey := rfl
@[simp] theorem State.modCtx_tick (s : State) (c : CoreNo) (k : Nat) (f : Ctx → Ctx) : (s.modCtx c k f).tick = s.tick := rfl

-- State.modMe

@[simp] theorem State.modMe_store (s : State) (f : Ctx → Ctx) : (s.modMe f).store = s.store := rfl
@[simp] theorem State.modMe_parts (s : State) (f : Ctx → Ctx) : (s.modMe f).parts = s.parts := rfl
@[simp] theorem State.modMe_msgs (s : State) (f : Ctx → Ctx) : (s.modMe f).msgs = s.msgs := rfl
@[simp] theorem State.modMe_flits (s : State) (f : Ctx → Ctx) : (s.modMe f).flits = s.flits := rfl
@[simp] theorem State.modMe_seqs (s : State) (f : Ctx → Ctx) : (s.modMe f).seqs = s.seqs := rfl
@[simp] theorem State.modMe_gone (s : State) (f : Ctx → Ctx) : (s.modMe f).gone = s.gone := rfl
@[simp] theorem State.modMe_nextMsg (s : State) (f : Ctx → Ctx) : (s.modMe f).nextMsg = s.nextMsg := rfl
@[simp] theorem State.modMe_routers (s : State) (f : Ctx → Ctx) : (s.modMe f).routers = s.routers := rfl
@[simp] theorem State.modMe_pkgs (s : State) (f : Ctx → Ctx) : (s.modMe f).pkgs = s.pkgs := rfl
@[simp] theorem State.modMe_packages (s : State) (f : Ctx → Ctx) : (s.modMe f).packages = s.packages := rfl
@[simp] theorem State.modMe_cycle (s : State) (f : Ctx → Ctx) : (s.modMe f).cycle = s.cycle := rfl
@[simp] theorem State.modMe_pace (s : State) (f : Ctx → Ctx) : (s.modMe f).pace = s.pace := rfl
@[simp] theorem State.modMe_agenda (s : State) (f : Ctx → Ctx) : (s.modMe f).agenda = s.agenda := rfl
@[simp] theorem State.modMe_core (s : State) (f : Ctx → Ctx) : (s.modMe f).core = s.core := rfl
@[simp] theorem State.modMe_ctx (s : State) (f : Ctx → Ctx) : (s.modMe f).ctx = s.ctx := rfl
@[simp] theorem State.modMe_asKey (s : State) (f : Ctx → Ctx) : (s.modMe f).asKey = s.asKey := rfl
@[simp] theorem State.modMe_tick (s : State) (f : Ctx → Ctx) : (s.modMe f).tick = s.tick := rfl

-- State.modHere

@[simp] theorem State.modHere_store (s : State) (f : CoreSt → CoreSt) : (s.modHere f).store = s.store := rfl
@[simp] theorem State.modHere_parts (s : State) (f : CoreSt → CoreSt) : (s.modHere f).parts = s.parts := rfl
@[simp] theorem State.modHere_msgs (s : State) (f : CoreSt → CoreSt) : (s.modHere f).msgs = s.msgs := rfl
@[simp] theorem State.modHere_flits (s : State) (f : CoreSt → CoreSt) : (s.modHere f).flits = s.flits := rfl
@[simp] theorem State.modHere_seqs (s : State) (f : CoreSt → CoreSt) : (s.modHere f).seqs = s.seqs := rfl
@[simp] theorem State.modHere_gone (s : State) (f : CoreSt → CoreSt) : (s.modHere f).gone = s.gone := rfl
@[simp] theorem State.modHere_nextMsg (s : State) (f : CoreSt → CoreSt) : (s.modHere f).nextMsg = s.nextMsg := rfl
@[simp] theorem State.modHere_routers (s : State) (f : CoreSt → CoreSt) : (s.modHere f).routers = s.routers := rfl
@[simp] theorem State.modHere_pkgs (s : State) (f : CoreSt → CoreSt) : (s.modHere f).pkgs = s.pkgs := rfl
@[simp] theorem State.modHere_packages (s : State) (f : CoreSt → CoreSt) : (s.modHere f).packages = s.packages := rfl
@[simp] theorem State.modHere_cycle (s : State) (f : CoreSt → CoreSt) : (s.modHere f).cycle = s.cycle := rfl
@[simp] theorem State.modHere_pace (s : State) (f : CoreSt → CoreSt) : (s.modHere f).pace = s.pace := rfl
@[simp] theorem State.modHere_agenda (s : State) (f : CoreSt → CoreSt) : (s.modHere f).agenda = s.agenda := rfl
@[simp] theorem State.modHere_core (s : State) (f : CoreSt → CoreSt) : (s.modHere f).core = s.core := rfl
@[simp] theorem State.modHere_ctx (s : State) (f : CoreSt → CoreSt) : (s.modHere f).ctx = s.ctx := rfl
@[simp] theorem State.modHere_asKey (s : State) (f : CoreSt → CoreSt) : (s.modHere f).asKey = s.asKey := rfl
@[simp] theorem State.modHere_tick (s : State) (f : CoreSt → CoreSt) : (s.modHere f).tick = s.tick := rfl

-- State.modPkg

@[simp] theorem State.modPkg_store (s : State) (p : Nat) (f : Pkg → Pkg) : (s.modPkg p f).store = s.store := rfl
@[simp] theorem State.modPkg_cores (s : State) (p : Nat) (f : Pkg → Pkg) : (s.modPkg p f).cores = s.cores := rfl
@[simp] theorem State.modPkg_parts (s : State) (p : Nat) (f : Pkg → Pkg) : (s.modPkg p f).parts = s.parts := rfl
@[simp] theorem State.modPkg_msgs (s : State) (p : Nat) (f : Pkg → Pkg) : (s.modPkg p f).msgs = s.msgs := rfl
@[simp] theorem State.modPkg_flits (s : State) (p : Nat) (f : Pkg → Pkg) : (s.modPkg p f).flits = s.flits := rfl
@[simp] theorem State.modPkg_seqs (s : State) (p : Nat) (f : Pkg → Pkg) : (s.modPkg p f).seqs = s.seqs := rfl
@[simp] theorem State.modPkg_gone (s : State) (p : Nat) (f : Pkg → Pkg) : (s.modPkg p f).gone = s.gone := rfl
@[simp] theorem State.modPkg_nextMsg (s : State) (p : Nat) (f : Pkg → Pkg) : (s.modPkg p f).nextMsg = s.nextMsg := rfl
@[simp] theorem State.modPkg_routers (s : State) (p : Nat) (f : Pkg → Pkg) : (s.modPkg p f).routers = s.routers := rfl
@[simp] theorem State.modPkg_packages (s : State) (p : Nat) (f : Pkg → Pkg) : (s.modPkg p f).packages = s.packages := rfl
@[simp] theorem State.modPkg_cycle (s : State) (p : Nat) (f : Pkg → Pkg) : (s.modPkg p f).cycle = s.cycle := rfl
@[simp] theorem State.modPkg_pace (s : State) (p : Nat) (f : Pkg → Pkg) : (s.modPkg p f).pace = s.pace := rfl
@[simp] theorem State.modPkg_agenda (s : State) (p : Nat) (f : Pkg → Pkg) : (s.modPkg p f).agenda = s.agenda := rfl
@[simp] theorem State.modPkg_core (s : State) (p : Nat) (f : Pkg → Pkg) : (s.modPkg p f).core = s.core := rfl
@[simp] theorem State.modPkg_ctx (s : State) (p : Nat) (f : Pkg → Pkg) : (s.modPkg p f).ctx = s.ctx := rfl
@[simp] theorem State.modPkg_asKey (s : State) (p : Nat) (f : Pkg → Pkg) : (s.modPkg p f).asKey = s.asKey := rfl
@[simp] theorem State.modPkg_tick (s : State) (p : Nat) (f : Pkg → Pkg) : (s.modPkg p f).tick = s.tick := rfl

-- State.modFn

@[simp] theorem State.modFn_store (s : State) (p v : Nat) (f : VFn → VFn) : (s.modFn p v f).store = s.store := rfl
@[simp] theorem State.modFn_cores (s : State) (p v : Nat) (f : VFn → VFn) : (s.modFn p v f).cores = s.cores := rfl
@[simp] theorem State.modFn_parts (s : State) (p v : Nat) (f : VFn → VFn) : (s.modFn p v f).parts = s.parts := rfl
@[simp] theorem State.modFn_msgs (s : State) (p v : Nat) (f : VFn → VFn) : (s.modFn p v f).msgs = s.msgs := rfl
@[simp] theorem State.modFn_flits (s : State) (p v : Nat) (f : VFn → VFn) : (s.modFn p v f).flits = s.flits := rfl
@[simp] theorem State.modFn_seqs (s : State) (p v : Nat) (f : VFn → VFn) : (s.modFn p v f).seqs = s.seqs := rfl
@[simp] theorem State.modFn_gone (s : State) (p v : Nat) (f : VFn → VFn) : (s.modFn p v f).gone = s.gone := rfl
@[simp] theorem State.modFn_nextMsg (s : State) (p v : Nat) (f : VFn → VFn) : (s.modFn p v f).nextMsg = s.nextMsg := rfl
@[simp] theorem State.modFn_routers (s : State) (p v : Nat) (f : VFn → VFn) : (s.modFn p v f).routers = s.routers := rfl
@[simp] theorem State.modFn_packages (s : State) (p v : Nat) (f : VFn → VFn) : (s.modFn p v f).packages = s.packages := rfl
@[simp] theorem State.modFn_cycle (s : State) (p v : Nat) (f : VFn → VFn) : (s.modFn p v f).cycle = s.cycle := rfl
@[simp] theorem State.modFn_pace (s : State) (p v : Nat) (f : VFn → VFn) : (s.modFn p v f).pace = s.pace := rfl
@[simp] theorem State.modFn_agenda (s : State) (p v : Nat) (f : VFn → VFn) : (s.modFn p v f).agenda = s.agenda := rfl
@[simp] theorem State.modFn_core (s : State) (p v : Nat) (f : VFn → VFn) : (s.modFn p v f).core = s.core := rfl
@[simp] theorem State.modFn_ctx (s : State) (p v : Nat) (f : VFn → VFn) : (s.modFn p v f).ctx = s.ctx := rfl
@[simp] theorem State.modFn_asKey (s : State) (p v : Nat) (f : VFn → VFn) : (s.modFn p v f).asKey = s.asKey := rfl
@[simp] theorem State.modFn_tick (s : State) (p v : Nat) (f : VFn → VFn) : (s.modFn p v f).tick = s.tick := rfl

-- State.modRouter

@[simp] theorem State.modRouter_store (s : State) (r : Nat) (f : Router → Router) : (s.modRouter r f).store = s.store := rfl
@[simp] theorem State.modRouter_cores (s : State) (r : Nat) (f : Router → Router) : (s.modRouter r f).cores = s.cores := rfl
@[simp] theorem State.modRouter_parts (s : State) (r : Nat) (f : Router → Router) : (s.modRouter r f).parts = s.parts := rfl
@[simp] theorem State.modRouter_msgs (s : State) (r : Nat) (f : Router → Router) : (s.modRouter r f).msgs = s.msgs := rfl
@[simp] theorem State.modRouter_flits (s : State) (r : Nat) (f : Router → Router) : (s.modRouter r f).flits = s.flits := rfl
@[simp] theorem State.modRouter_seqs (s : State) (r : Nat) (f : Router → Router) : (s.modRouter r f).seqs = s.seqs := rfl
@[simp] theorem State.modRouter_gone (s : State) (r : Nat) (f : Router → Router) : (s.modRouter r f).gone = s.gone := rfl
@[simp] theorem State.modRouter_nextMsg (s : State) (r : Nat) (f : Router → Router) : (s.modRouter r f).nextMsg = s.nextMsg := rfl
@[simp] theorem State.modRouter_pkgs (s : State) (r : Nat) (f : Router → Router) : (s.modRouter r f).pkgs = s.pkgs := rfl
@[simp] theorem State.modRouter_packages (s : State) (r : Nat) (f : Router → Router) : (s.modRouter r f).packages = s.packages := rfl
@[simp] theorem State.modRouter_cycle (s : State) (r : Nat) (f : Router → Router) : (s.modRouter r f).cycle = s.cycle := rfl
@[simp] theorem State.modRouter_pace (s : State) (r : Nat) (f : Router → Router) : (s.modRouter r f).pace = s.pace := rfl
@[simp] theorem State.modRouter_agenda (s : State) (r : Nat) (f : Router → Router) : (s.modRouter r f).agenda = s.agenda := rfl
@[simp] theorem State.modRouter_core (s : State) (r : Nat) (f : Router → Router) : (s.modRouter r f).core = s.core := rfl
@[simp] theorem State.modRouter_ctx (s : State) (r : Nat) (f : Router → Router) : (s.modRouter r f).ctx = s.ctx := rfl
@[simp] theorem State.modRouter_asKey (s : State) (r : Nat) (f : Router → Router) : (s.modRouter r f).asKey = s.asKey := rfl
@[simp] theorem State.modRouter_tick (s : State) (r : Nat) (f : Router → Router) : (s.modRouter r f).tick = s.tick := rfl

-- State.setPart

@[simp] theorem State.setPart_store (s : State) (k : PartKey) (v : PartSt) : (s.setPart k v).store = s.store := rfl
@[simp] theorem State.setPart_cores (s : State) (k : PartKey) (v : PartSt) : (s.setPart k v).cores = s.cores := rfl
@[simp] theorem State.setPart_msgs (s : State) (k : PartKey) (v : PartSt) : (s.setPart k v).msgs = s.msgs := rfl
@[simp] theorem State.setPart_flits (s : State) (k : PartKey) (v : PartSt) : (s.setPart k v).flits = s.flits := rfl
@[simp] theorem State.setPart_seqs (s : State) (k : PartKey) (v : PartSt) : (s.setPart k v).seqs = s.seqs := rfl
@[simp] theorem State.setPart_gone (s : State) (k : PartKey) (v : PartSt) : (s.setPart k v).gone = s.gone := rfl
@[simp] theorem State.setPart_nextMsg (s : State) (k : PartKey) (v : PartSt) : (s.setPart k v).nextMsg = s.nextMsg := rfl
@[simp] theorem State.setPart_routers (s : State) (k : PartKey) (v : PartSt) : (s.setPart k v).routers = s.routers := rfl
@[simp] theorem State.setPart_pkgs (s : State) (k : PartKey) (v : PartSt) : (s.setPart k v).pkgs = s.pkgs := rfl
@[simp] theorem State.setPart_packages (s : State) (k : PartKey) (v : PartSt) : (s.setPart k v).packages = s.packages := rfl
@[simp] theorem State.setPart_cycle (s : State) (k : PartKey) (v : PartSt) : (s.setPart k v).cycle = s.cycle := rfl
@[simp] theorem State.setPart_pace (s : State) (k : PartKey) (v : PartSt) : (s.setPart k v).pace = s.pace := rfl
@[simp] theorem State.setPart_agenda (s : State) (k : PartKey) (v : PartSt) : (s.setPart k v).agenda = s.agenda := rfl
@[simp] theorem State.setPart_core (s : State) (k : PartKey) (v : PartSt) : (s.setPart k v).core = s.core := rfl
@[simp] theorem State.setPart_ctx (s : State) (k : PartKey) (v : PartSt) : (s.setPart k v).ctx = s.ctx := rfl
@[simp] theorem State.setPart_asKey (s : State) (k : PartKey) (v : PartSt) : (s.setPart k v).asKey = s.asKey := rfl
@[simp] theorem State.setPart_tick (s : State) (k : PartKey) (v : PartSt) : (s.setPart k v).tick = s.tick := rfl

-- State.modPart

@[simp] theorem State.modPart_store (s : State) (k : PartKey) (f : PartSt → PartSt) : (s.modPart k f).store = s.store := rfl
@[simp] theorem State.modPart_cores (s : State) (k : PartKey) (f : PartSt → PartSt) : (s.modPart k f).cores = s.cores := rfl
@[simp] theorem State.modPart_msgs (s : State) (k : PartKey) (f : PartSt → PartSt) : (s.modPart k f).msgs = s.msgs := rfl
@[simp] theorem State.modPart_flits (s : State) (k : PartKey) (f : PartSt → PartSt) : (s.modPart k f).flits = s.flits := rfl
@[simp] theorem State.modPart_seqs (s : State) (k : PartKey) (f : PartSt → PartSt) : (s.modPart k f).seqs = s.seqs := rfl
@[simp] theorem State.modPart_gone (s : State) (k : PartKey) (f : PartSt → PartSt) : (s.modPart k f).gone = s.gone := rfl
@[simp] theorem State.modPart_nextMsg (s : State) (k : PartKey) (f : PartSt → PartSt) : (s.modPart k f).nextMsg = s.nextMsg := rfl
@[simp] theorem State.modPart_routers (s : State) (k : PartKey) (f : PartSt → PartSt) : (s.modPart k f).routers = s.routers := rfl
@[simp] theorem State.modPart_pkgs (s : State) (k : PartKey) (f : PartSt → PartSt) : (s.modPart k f).pkgs = s.pkgs := rfl
@[simp] theorem State.modPart_packages (s : State) (k : PartKey) (f : PartSt → PartSt) : (s.modPart k f).packages = s.packages := rfl
@[simp] theorem State.modPart_cycle (s : State) (k : PartKey) (f : PartSt → PartSt) : (s.modPart k f).cycle = s.cycle := rfl
@[simp] theorem State.modPart_pace (s : State) (k : PartKey) (f : PartSt → PartSt) : (s.modPart k f).pace = s.pace := rfl
@[simp] theorem State.modPart_agenda (s : State) (k : PartKey) (f : PartSt → PartSt) : (s.modPart k f).agenda = s.agenda := rfl
@[simp] theorem State.modPart_core (s : State) (k : PartKey) (f : PartSt → PartSt) : (s.modPart k f).core = s.core := rfl
@[simp] theorem State.modPart_ctx (s : State) (k : PartKey) (f : PartSt → PartSt) : (s.modPart k f).ctx = s.ctx := rfl
@[simp] theorem State.modPart_asKey (s : State) (k : PartKey) (f : PartSt → PartSt) : (s.modPart k f).asKey = s.asKey := rfl
@[simp] theorem State.modPart_tick (s : State) (k : PartKey) (f : PartSt → PartSt) : (s.modPart k f).tick = s.tick := rfl

-- State.putBytes

@[simp] theorem State.putBytes_cores (s : State) (a : Nat) (bs : List Byte) : (s.putBytes a bs).cores = s.cores := rfl
@[simp] theorem State.putBytes_parts (s : State) (a : Nat) (bs : List Byte) : (s.putBytes a bs).parts = s.parts := rfl
@[simp] theorem State.putBytes_msgs (s : State) (a : Nat) (bs : List Byte) : (s.putBytes a bs).msgs = s.msgs := rfl
@[simp] theorem State.putBytes_flits (s : State) (a : Nat) (bs : List Byte) : (s.putBytes a bs).flits = s.flits := rfl
@[simp] theorem State.putBytes_seqs (s : State) (a : Nat) (bs : List Byte) : (s.putBytes a bs).seqs = s.seqs := rfl
@[simp] theorem State.putBytes_gone (s : State) (a : Nat) (bs : List Byte) : (s.putBytes a bs).gone = s.gone := rfl
@[simp] theorem State.putBytes_nextMsg (s : State) (a : Nat) (bs : List Byte) : (s.putBytes a bs).nextMsg = s.nextMsg := rfl
@[simp] theorem State.putBytes_routers (s : State) (a : Nat) (bs : List Byte) : (s.putBytes a bs).routers = s.routers := rfl
@[simp] theorem State.putBytes_pkgs (s : State) (a : Nat) (bs : List Byte) : (s.putBytes a bs).pkgs = s.pkgs := rfl
@[simp] theorem State.putBytes_packages (s : State) (a : Nat) (bs : List Byte) : (s.putBytes a bs).packages = s.packages := rfl
@[simp] theorem State.putBytes_cycle (s : State) (a : Nat) (bs : List Byte) : (s.putBytes a bs).cycle = s.cycle := rfl
@[simp] theorem State.putBytes_pace (s : State) (a : Nat) (bs : List Byte) : (s.putBytes a bs).pace = s.pace := rfl
@[simp] theorem State.putBytes_agenda (s : State) (a : Nat) (bs : List Byte) : (s.putBytes a bs).agenda = s.agenda := rfl
@[simp] theorem State.putBytes_core (s : State) (a : Nat) (bs : List Byte) : (s.putBytes a bs).core = s.core := rfl
@[simp] theorem State.putBytes_ctx (s : State) (a : Nat) (bs : List Byte) : (s.putBytes a bs).ctx = s.ctx := rfl
@[simp] theorem State.putBytes_asKey (s : State) (a : Nat) (bs : List Byte) : (s.putBytes a bs).asKey = s.asKey := rfl
@[simp] theorem State.putBytes_tick (s : State) (a : Nat) (bs : List Byte) : (s.putBytes a bs).tick = s.tick := rfl

-- State.putNat

@[simp] theorem State.putNat_cores (s : State) (a n x : Nat) : (s.putNat a n x).cores = s.cores := rfl
@[simp] theorem State.putNat_parts (s : State) (a n x : Nat) : (s.putNat a n x).parts = s.parts := rfl
@[simp] theorem State.putNat_msgs (s : State) (a n x : Nat) : (s.putNat a n x).msgs = s.msgs := rfl
@[simp] theorem State.putNat_flits (s : State) (a n x : Nat) : (s.putNat a n x).flits = s.flits := rfl
@[simp] theorem State.putNat_seqs (s : State) (a n x : Nat) : (s.putNat a n x).seqs = s.seqs := rfl
@[simp] theorem State.putNat_gone (s : State) (a n x : Nat) : (s.putNat a n x).gone = s.gone := rfl
@[simp] theorem State.putNat_nextMsg (s : State) (a n x : Nat) : (s.putNat a n x).nextMsg = s.nextMsg := rfl
@[simp] theorem State.putNat_routers (s : State) (a n x : Nat) : (s.putNat a n x).routers = s.routers := rfl
@[simp] theorem State.putNat_pkgs (s : State) (a n x : Nat) : (s.putNat a n x).pkgs = s.pkgs := rfl
@[simp] theorem State.putNat_packages (s : State) (a n x : Nat) : (s.putNat a n x).packages = s.packages := rfl
@[simp] theorem State.putNat_cycle (s : State) (a n x : Nat) : (s.putNat a n x).cycle = s.cycle := rfl
@[simp] theorem State.putNat_pace (s : State) (a n x : Nat) : (s.putNat a n x).pace = s.pace := rfl
@[simp] theorem State.putNat_agenda (s : State) (a n x : Nat) : (s.putNat a n x).agenda = s.agenda := rfl
@[simp] theorem State.putNat_core (s : State) (a n x : Nat) : (s.putNat a n x).core = s.core := rfl
@[simp] theorem State.putNat_ctx (s : State) (a n x : Nat) : (s.putNat a n x).ctx = s.ctx := rfl
@[simp] theorem State.putNat_asKey (s : State) (a n x : Nat) : (s.putNat a n x).asKey = s.asKey := rfl
@[simp] theorem State.putNat_tick (s : State) (a n x : Nat) : (s.putNat a n x).tick = s.tick := rfl

-- State.putTag

@[simp] theorem State.putTag_cores (s : State) (ha : Nat) (h : Handle) : (s.putTag ha h).cores = s.cores := rfl
@[simp] theorem State.putTag_parts (s : State) (ha : Nat) (h : Handle) : (s.putTag ha h).parts = s.parts := rfl
@[simp] theorem State.putTag_msgs (s : State) (ha : Nat) (h : Handle) : (s.putTag ha h).msgs = s.msgs := rfl
@[simp] theorem State.putTag_flits (s : State) (ha : Nat) (h : Handle) : (s.putTag ha h).flits = s.flits := rfl
@[simp] theorem State.putTag_seqs (s : State) (ha : Nat) (h : Handle) : (s.putTag ha h).seqs = s.seqs := rfl
@[simp] theorem State.putTag_gone (s : State) (ha : Nat) (h : Handle) : (s.putTag ha h).gone = s.gone := rfl
@[simp] theorem State.putTag_nextMsg (s : State) (ha : Nat) (h : Handle) : (s.putTag ha h).nextMsg = s.nextMsg := rfl
@[simp] theorem State.putTag_routers (s : State) (ha : Nat) (h : Handle) : (s.putTag ha h).routers = s.routers := rfl
@[simp] theorem State.putTag_pkgs (s : State) (ha : Nat) (h : Handle) : (s.putTag ha h).pkgs = s.pkgs := rfl
@[simp] theorem State.putTag_packages (s : State) (ha : Nat) (h : Handle) : (s.putTag ha h).packages = s.packages := rfl
@[simp] theorem State.putTag_cycle (s : State) (ha : Nat) (h : Handle) : (s.putTag ha h).cycle = s.cycle := rfl
@[simp] theorem State.putTag_pace (s : State) (ha : Nat) (h : Handle) : (s.putTag ha h).pace = s.pace := rfl
@[simp] theorem State.putTag_agenda (s : State) (ha : Nat) (h : Handle) : (s.putTag ha h).agenda = s.agenda := rfl
@[simp] theorem State.putTag_core (s : State) (ha : Nat) (h : Handle) : (s.putTag ha h).core = s.core := rfl
@[simp] theorem State.putTag_ctx (s : State) (ha : Nat) (h : Handle) : (s.putTag ha h).ctx = s.ctx := rfl
@[simp] theorem State.putTag_asKey (s : State) (ha : Nat) (h : Handle) : (s.putTag ha h).asKey = s.asKey := rfl
@[simp] theorem State.putTag_tick (s : State) (ha : Nat) (h : Handle) : (s.putTag ha h).tick = s.tick := rfl

-- State.putFull

@[simp] theorem State.putFull_cores (s : State) (ha : Nat) (b : Bool) : (s.putFull ha b).cores = s.cores := rfl
@[simp] theorem State.putFull_parts (s : State) (ha : Nat) (b : Bool) : (s.putFull ha b).parts = s.parts := rfl
@[simp] theorem State.putFull_msgs (s : State) (ha : Nat) (b : Bool) : (s.putFull ha b).msgs = s.msgs := rfl
@[simp] theorem State.putFull_flits (s : State) (ha : Nat) (b : Bool) : (s.putFull ha b).flits = s.flits := rfl
@[simp] theorem State.putFull_seqs (s : State) (ha : Nat) (b : Bool) : (s.putFull ha b).seqs = s.seqs := rfl
@[simp] theorem State.putFull_gone (s : State) (ha : Nat) (b : Bool) : (s.putFull ha b).gone = s.gone := rfl
@[simp] theorem State.putFull_nextMsg (s : State) (ha : Nat) (b : Bool) : (s.putFull ha b).nextMsg = s.nextMsg := rfl
@[simp] theorem State.putFull_routers (s : State) (ha : Nat) (b : Bool) : (s.putFull ha b).routers = s.routers := rfl
@[simp] theorem State.putFull_pkgs (s : State) (ha : Nat) (b : Bool) : (s.putFull ha b).pkgs = s.pkgs := rfl
@[simp] theorem State.putFull_packages (s : State) (ha : Nat) (b : Bool) : (s.putFull ha b).packages = s.packages := rfl
@[simp] theorem State.putFull_cycle (s : State) (ha : Nat) (b : Bool) : (s.putFull ha b).cycle = s.cycle := rfl
@[simp] theorem State.putFull_pace (s : State) (ha : Nat) (b : Bool) : (s.putFull ha b).pace = s.pace := rfl
@[simp] theorem State.putFull_agenda (s : State) (ha : Nat) (b : Bool) : (s.putFull ha b).agenda = s.agenda := rfl
@[simp] theorem State.putFull_core (s : State) (ha : Nat) (b : Bool) : (s.putFull ha b).core = s.core := rfl
@[simp] theorem State.putFull_ctx (s : State) (ha : Nat) (b : Bool) : (s.putFull ha b).ctx = s.ctx := rfl
@[simp] theorem State.putFull_asKey (s : State) (ha : Nat) (b : Bool) : (s.putFull ha b).asKey = s.asKey := rfl
@[simp] theorem State.putFull_tick (s : State) (ha : Nat) (b : Bool) : (s.putFull ha b).tick = s.tick := rfl

-- State.waitCtx

@[simp] theorem State.waitCtx_store (s : State) (c : CoreNo) (k : Nat) (w : Why) : (s.waitCtx c k w).store = s.store := rfl
@[simp] theorem State.waitCtx_parts (s : State) (c : CoreNo) (k : Nat) (w : Why) : (s.waitCtx c k w).parts = s.parts := rfl
@[simp] theorem State.waitCtx_msgs (s : State) (c : CoreNo) (k : Nat) (w : Why) : (s.waitCtx c k w).msgs = s.msgs := rfl
@[simp] theorem State.waitCtx_flits (s : State) (c : CoreNo) (k : Nat) (w : Why) : (s.waitCtx c k w).flits = s.flits := rfl
@[simp] theorem State.waitCtx_seqs (s : State) (c : CoreNo) (k : Nat) (w : Why) : (s.waitCtx c k w).seqs = s.seqs := rfl
@[simp] theorem State.waitCtx_gone (s : State) (c : CoreNo) (k : Nat) (w : Why) : (s.waitCtx c k w).gone = s.gone := rfl
@[simp] theorem State.waitCtx_nextMsg (s : State) (c : CoreNo) (k : Nat) (w : Why) : (s.waitCtx c k w).nextMsg = s.nextMsg := rfl
@[simp] theorem State.waitCtx_routers (s : State) (c : CoreNo) (k : Nat) (w : Why) : (s.waitCtx c k w).routers = s.routers := rfl
@[simp] theorem State.waitCtx_pkgs (s : State) (c : CoreNo) (k : Nat) (w : Why) : (s.waitCtx c k w).pkgs = s.pkgs := rfl
@[simp] theorem State.waitCtx_packages (s : State) (c : CoreNo) (k : Nat) (w : Why) : (s.waitCtx c k w).packages = s.packages := rfl
@[simp] theorem State.waitCtx_cycle (s : State) (c : CoreNo) (k : Nat) (w : Why) : (s.waitCtx c k w).cycle = s.cycle := rfl
@[simp] theorem State.waitCtx_pace (s : State) (c : CoreNo) (k : Nat) (w : Why) : (s.waitCtx c k w).pace = s.pace := rfl
@[simp] theorem State.waitCtx_agenda (s : State) (c : CoreNo) (k : Nat) (w : Why) : (s.waitCtx c k w).agenda = s.agenda := rfl
@[simp] theorem State.waitCtx_core (s : State) (c : CoreNo) (k : Nat) (w : Why) : (s.waitCtx c k w).core = s.core := rfl
@[simp] theorem State.waitCtx_ctx (s : State) (c : CoreNo) (k : Nat) (w : Why) : (s.waitCtx c k w).ctx = s.ctx := rfl
@[simp] theorem State.waitCtx_asKey (s : State) (c : CoreNo) (k : Nat) (w : Why) : (s.waitCtx c k w).asKey = s.asKey := rfl
@[simp] theorem State.waitCtx_tick (s : State) (c : CoreNo) (k : Nat) (w : Why) : (s.waitCtx c k w).tick = s.tick := rfl

-- State.parkCtx

@[simp] theorem State.parkCtx_store (s : State) (c : CoreNo) (k : Nat) (p : ParkWhy) : (s.parkCtx c k p).store = s.store := rfl
@[simp] theorem State.parkCtx_parts (s : State) (c : CoreNo) (k : Nat) (p : ParkWhy) : (s.parkCtx c k p).parts = s.parts := rfl
@[simp] theorem State.parkCtx_msgs (s : State) (c : CoreNo) (k : Nat) (p : ParkWhy) : (s.parkCtx c k p).msgs = s.msgs := rfl
@[simp] theorem State.parkCtx_flits (s : State) (c : CoreNo) (k : Nat) (p : ParkWhy) : (s.parkCtx c k p).flits = s.flits := rfl
@[simp] theorem State.parkCtx_seqs (s : State) (c : CoreNo) (k : Nat) (p : ParkWhy) : (s.parkCtx c k p).seqs = s.seqs := rfl
@[simp] theorem State.parkCtx_gone (s : State) (c : CoreNo) (k : Nat) (p : ParkWhy) : (s.parkCtx c k p).gone = s.gone := rfl
@[simp] theorem State.parkCtx_nextMsg (s : State) (c : CoreNo) (k : Nat) (p : ParkWhy) : (s.parkCtx c k p).nextMsg = s.nextMsg := rfl
@[simp] theorem State.parkCtx_routers (s : State) (c : CoreNo) (k : Nat) (p : ParkWhy) : (s.parkCtx c k p).routers = s.routers := rfl
@[simp] theorem State.parkCtx_pkgs (s : State) (c : CoreNo) (k : Nat) (p : ParkWhy) : (s.parkCtx c k p).pkgs = s.pkgs := rfl
@[simp] theorem State.parkCtx_packages (s : State) (c : CoreNo) (k : Nat) (p : ParkWhy) : (s.parkCtx c k p).packages = s.packages := rfl
@[simp] theorem State.parkCtx_cycle (s : State) (c : CoreNo) (k : Nat) (p : ParkWhy) : (s.parkCtx c k p).cycle = s.cycle := rfl
@[simp] theorem State.parkCtx_pace (s : State) (c : CoreNo) (k : Nat) (p : ParkWhy) : (s.parkCtx c k p).pace = s.pace := rfl
@[simp] theorem State.parkCtx_agenda (s : State) (c : CoreNo) (k : Nat) (p : ParkWhy) : (s.parkCtx c k p).agenda = s.agenda := rfl
@[simp] theorem State.parkCtx_core (s : State) (c : CoreNo) (k : Nat) (p : ParkWhy) : (s.parkCtx c k p).core = s.core := rfl
@[simp] theorem State.parkCtx_ctx (s : State) (c : CoreNo) (k : Nat) (p : ParkWhy) : (s.parkCtx c k p).ctx = s.ctx := rfl
@[simp] theorem State.parkCtx_asKey (s : State) (c : CoreNo) (k : Nat) (p : ParkWhy) : (s.parkCtx c k p).asKey = s.asKey := rfl
@[simp] theorem State.parkCtx_tick (s : State) (c : CoreNo) (k : Nat) (p : ParkWhy) : (s.parkCtx c k p).tick = s.tick := rfl

-- State.rejoin

@[simp] theorem State.rejoin_store (s : State) (c : CoreNo) (k : Nat) : (s.rejoin c k).store = s.store := rfl
@[simp] theorem State.rejoin_parts (s : State) (c : CoreNo) (k : Nat) : (s.rejoin c k).parts = s.parts := rfl
@[simp] theorem State.rejoin_msgs (s : State) (c : CoreNo) (k : Nat) : (s.rejoin c k).msgs = s.msgs := rfl
@[simp] theorem State.rejoin_flits (s : State) (c : CoreNo) (k : Nat) : (s.rejoin c k).flits = s.flits := rfl
@[simp] theorem State.rejoin_seqs (s : State) (c : CoreNo) (k : Nat) : (s.rejoin c k).seqs = s.seqs := rfl
@[simp] theorem State.rejoin_gone (s : State) (c : CoreNo) (k : Nat) : (s.rejoin c k).gone = s.gone := rfl
@[simp] theorem State.rejoin_nextMsg (s : State) (c : CoreNo) (k : Nat) : (s.rejoin c k).nextMsg = s.nextMsg := rfl
@[simp] theorem State.rejoin_routers (s : State) (c : CoreNo) (k : Nat) : (s.rejoin c k).routers = s.routers := rfl
@[simp] theorem State.rejoin_pkgs (s : State) (c : CoreNo) (k : Nat) : (s.rejoin c k).pkgs = s.pkgs := rfl
@[simp] theorem State.rejoin_packages (s : State) (c : CoreNo) (k : Nat) : (s.rejoin c k).packages = s.packages := rfl
@[simp] theorem State.rejoin_cycle (s : State) (c : CoreNo) (k : Nat) : (s.rejoin c k).cycle = s.cycle := rfl
@[simp] theorem State.rejoin_pace (s : State) (c : CoreNo) (k : Nat) : (s.rejoin c k).pace = s.pace := rfl
@[simp] theorem State.rejoin_agenda (s : State) (c : CoreNo) (k : Nat) : (s.rejoin c k).agenda = s.agenda := rfl
@[simp] theorem State.rejoin_core (s : State) (c : CoreNo) (k : Nat) : (s.rejoin c k).core = s.core := rfl
@[simp] theorem State.rejoin_ctx (s : State) (c : CoreNo) (k : Nat) : (s.rejoin c k).ctx = s.ctx := rfl
@[simp] theorem State.rejoin_asKey (s : State) (c : CoreNo) (k : Nat) : (s.rejoin c k).asKey = s.asKey := rfl
@[simp] theorem State.rejoin_tick (s : State) (c : CoreNo) (k : Nat) : (s.rejoin c k).tick = s.tick := rfl

-- State.wait

@[simp] theorem State.wait_store (s : State) (w : Why) : (s.wait w).store = s.store := rfl
@[simp] theorem State.wait_parts (s : State) (w : Why) : (s.wait w).parts = s.parts := rfl
@[simp] theorem State.wait_msgs (s : State) (w : Why) : (s.wait w).msgs = s.msgs := rfl
@[simp] theorem State.wait_flits (s : State) (w : Why) : (s.wait w).flits = s.flits := rfl
@[simp] theorem State.wait_seqs (s : State) (w : Why) : (s.wait w).seqs = s.seqs := rfl
@[simp] theorem State.wait_gone (s : State) (w : Why) : (s.wait w).gone = s.gone := rfl
@[simp] theorem State.wait_nextMsg (s : State) (w : Why) : (s.wait w).nextMsg = s.nextMsg := rfl
@[simp] theorem State.wait_routers (s : State) (w : Why) : (s.wait w).routers = s.routers := rfl
@[simp] theorem State.wait_pkgs (s : State) (w : Why) : (s.wait w).pkgs = s.pkgs := rfl
@[simp] theorem State.wait_packages (s : State) (w : Why) : (s.wait w).packages = s.packages := rfl
@[simp] theorem State.wait_cycle (s : State) (w : Why) : (s.wait w).cycle = s.cycle := rfl
@[simp] theorem State.wait_pace (s : State) (w : Why) : (s.wait w).pace = s.pace := rfl
@[simp] theorem State.wait_agenda (s : State) (w : Why) : (s.wait w).agenda = s.agenda := rfl
@[simp] theorem State.wait_core (s : State) (w : Why) : (s.wait w).core = s.core := rfl
@[simp] theorem State.wait_ctx (s : State) (w : Why) : (s.wait w).ctx = s.ctx := rfl
@[simp] theorem State.wait_asKey (s : State) (w : Why) : (s.wait w).asKey = s.asKey := rfl
@[simp] theorem State.wait_tick (s : State) (w : Why) : (s.wait w).tick = s.tick := rfl

-- State.raise

@[simp] theorem State.raise_store (s : State) (fl : Flags) : (s.raise fl).store = s.store := rfl
@[simp] theorem State.raise_parts (s : State) (fl : Flags) : (s.raise fl).parts = s.parts := rfl
@[simp] theorem State.raise_msgs (s : State) (fl : Flags) : (s.raise fl).msgs = s.msgs := rfl
@[simp] theorem State.raise_flits (s : State) (fl : Flags) : (s.raise fl).flits = s.flits := rfl
@[simp] theorem State.raise_seqs (s : State) (fl : Flags) : (s.raise fl).seqs = s.seqs := rfl
@[simp] theorem State.raise_gone (s : State) (fl : Flags) : (s.raise fl).gone = s.gone := rfl
@[simp] theorem State.raise_nextMsg (s : State) (fl : Flags) : (s.raise fl).nextMsg = s.nextMsg := rfl
@[simp] theorem State.raise_routers (s : State) (fl : Flags) : (s.raise fl).routers = s.routers := rfl
@[simp] theorem State.raise_pkgs (s : State) (fl : Flags) : (s.raise fl).pkgs = s.pkgs := rfl
@[simp] theorem State.raise_packages (s : State) (fl : Flags) : (s.raise fl).packages = s.packages := rfl
@[simp] theorem State.raise_cycle (s : State) (fl : Flags) : (s.raise fl).cycle = s.cycle := rfl
@[simp] theorem State.raise_pace (s : State) (fl : Flags) : (s.raise fl).pace = s.pace := rfl
@[simp] theorem State.raise_agenda (s : State) (fl : Flags) : (s.raise fl).agenda = s.agenda := rfl
@[simp] theorem State.raise_core (s : State) (fl : Flags) : (s.raise fl).core = s.core := rfl
@[simp] theorem State.raise_ctx (s : State) (fl : Flags) : (s.raise fl).ctx = s.ctx := rfl
@[simp] theorem State.raise_asKey (s : State) (fl : Flags) : (s.raise fl).asKey = s.asKey := rfl
@[simp] theorem State.raise_tick (s : State) (fl : Flags) : (s.raise fl).tick = s.tick := rfl

-- State.asyncTo

@[simp] theorem State.asyncTo_store (s : State) (c : CoreNo) (k : Nat) (t : AsyncTrap) : (s.asyncTo c k t).store = s.store := rfl
@[simp] theorem State.asyncTo_parts (s : State) (c : CoreNo) (k : Nat) (t : AsyncTrap) : (s.asyncTo c k t).parts = s.parts := rfl
@[simp] theorem State.asyncTo_msgs (s : State) (c : CoreNo) (k : Nat) (t : AsyncTrap) : (s.asyncTo c k t).msgs = s.msgs := rfl
@[simp] theorem State.asyncTo_flits (s : State) (c : CoreNo) (k : Nat) (t : AsyncTrap) : (s.asyncTo c k t).flits = s.flits := rfl
@[simp] theorem State.asyncTo_seqs (s : State) (c : CoreNo) (k : Nat) (t : AsyncTrap) : (s.asyncTo c k t).seqs = s.seqs := rfl
@[simp] theorem State.asyncTo_gone (s : State) (c : CoreNo) (k : Nat) (t : AsyncTrap) : (s.asyncTo c k t).gone = s.gone := rfl
@[simp] theorem State.asyncTo_nextMsg (s : State) (c : CoreNo) (k : Nat) (t : AsyncTrap) : (s.asyncTo c k t).nextMsg = s.nextMsg := rfl
@[simp] theorem State.asyncTo_routers (s : State) (c : CoreNo) (k : Nat) (t : AsyncTrap) : (s.asyncTo c k t).routers = s.routers := rfl
@[simp] theorem State.asyncTo_pkgs (s : State) (c : CoreNo) (k : Nat) (t : AsyncTrap) : (s.asyncTo c k t).pkgs = s.pkgs := rfl
@[simp] theorem State.asyncTo_packages (s : State) (c : CoreNo) (k : Nat) (t : AsyncTrap) : (s.asyncTo c k t).packages = s.packages := rfl
@[simp] theorem State.asyncTo_cycle (s : State) (c : CoreNo) (k : Nat) (t : AsyncTrap) : (s.asyncTo c k t).cycle = s.cycle := rfl
@[simp] theorem State.asyncTo_pace (s : State) (c : CoreNo) (k : Nat) (t : AsyncTrap) : (s.asyncTo c k t).pace = s.pace := rfl
@[simp] theorem State.asyncTo_agenda (s : State) (c : CoreNo) (k : Nat) (t : AsyncTrap) : (s.asyncTo c k t).agenda = s.agenda := rfl
@[simp] theorem State.asyncTo_core (s : State) (c : CoreNo) (k : Nat) (t : AsyncTrap) : (s.asyncTo c k t).core = s.core := rfl
@[simp] theorem State.asyncTo_ctx (s : State) (c : CoreNo) (k : Nat) (t : AsyncTrap) : (s.asyncTo c k t).ctx = s.ctx := rfl
@[simp] theorem State.asyncTo_asKey (s : State) (c : CoreNo) (k : Nat) (t : AsyncTrap) : (s.asyncTo c k t).asKey = s.asKey := rfl
@[simp] theorem State.asyncTo_tick (s : State) (c : CoreNo) (k : Nat) (t : AsyncTrap) : (s.asyncTo c k t).tick = s.tick := rfl

-- Parts of the store

@[simp] theorem State.putBytes_store_tags (s : State) (a : Nat) (bs : List Byte) : (s.putBytes a bs).store.tags = s.store.tags := rfl
@[simp] theorem State.putBytes_store_empties (s : State) (a : Nat) (bs : List Byte) : (s.putBytes a bs).store.empties = s.store.empties := rfl
@[simp] theorem State.putBytes_store_bars (s : State) (a : Nat) (bs : List Byte) : (s.putBytes a bs).store.bars = s.store.bars := rfl
@[simp] theorem State.putBytes_store_bad (s : State) (a : Nat) (bs : List Byte) : (s.putBytes a bs).store.bad = s.store.bad := rfl
@[simp] theorem State.putNat_store_tags (s : State) (a n x : Nat) : (s.putNat a n x).store.tags = s.store.tags := rfl
@[simp] theorem State.putNat_store_empties (s : State) (a n x : Nat) : (s.putNat a n x).store.empties = s.store.empties := rfl
@[simp] theorem State.putNat_store_bars (s : State) (a n x : Nat) : (s.putNat a n x).store.bars = s.store.bars := rfl
@[simp] theorem State.putNat_store_bad (s : State) (a n x : Nat) : (s.putNat a n x).store.bad = s.store.bad := rfl
@[simp] theorem State.putTag_store_mem (s : State) (ha : Nat) (h : Handle) : (s.putTag ha h).store.mem = s.store.mem := rfl
@[simp] theorem State.putTag_store_empties (s : State) (ha : Nat) (h : Handle) : (s.putTag ha h).store.empties = s.store.empties := rfl
@[simp] theorem State.putTag_store_bars (s : State) (ha : Nat) (h : Handle) : (s.putTag ha h).store.bars = s.store.bars := rfl
@[simp] theorem State.putTag_store_bad (s : State) (ha : Nat) (h : Handle) : (s.putTag ha h).store.bad = s.store.bad := rfl
@[simp] theorem State.putFull_store_mem (s : State) (ha : Nat) (b : Bool) : (s.putFull ha b).store.mem = s.store.mem := rfl
@[simp] theorem State.putFull_store_tags (s : State) (ha : Nat) (b : Bool) : (s.putFull ha b).store.tags = s.store.tags := rfl
@[simp] theorem State.putFull_store_bars (s : State) (ha : Nat) (b : Bool) : (s.putFull ha b).store.bars = s.store.bars := rfl
@[simp] theorem State.putFull_store_bad (s : State) (ha : Nat) (b : Bool) : (s.putFull ha b).store.bad = s.store.bad := rfl

-- CoreSt

@[simp] theorem CoreSt.setCtx_cur (c : CoreSt) (k : Nat) (v : Ctx) : (c.setCtx k v).cur = c.cur := rfl
@[simp] theorem CoreSt.setCtx_last (c : CoreSt) (k : Nat) (v : Ctx) : (c.setCtx k v).last = c.last := rfl
@[simp] theorem CoreSt.setCtx_banks (c : CoreSt) (k : Nat) (v : Ctx) : (c.setCtx k v).banks = c.banks := rfl
@[simp] theorem CoreSt.setCtx_nodes (c : CoreSt) (k : Nat) (v : Ctx) : (c.setCtx k v).nodes = c.nodes := rfl
@[simp] theorem CoreSt.setCtx_paired (c : CoreSt) (k : Nat) (v : Ctx) : (c.setCtx k v).paired = c.paired := rfl
@[simp] theorem CoreSt.setCtx_assist (c : CoreSt) (k : Nat) (v : Ctx) : (c.setCtx k v).assist = c.assist := rfl
@[simp] theorem CoreSt.setCtx_rpc (c : CoreSt) (k : Nat) (v : Ctx) : (c.setCtx k v).rpc = c.rpc := rfl
@[simp] theorem CoreSt.setCtx_rcause (c : CoreSt) (k : Nat) (v : Ctx) : (c.setCtx k v).rcause = c.rcause := rfl
@[simp] theorem CoreSt.setCtx_raddr (c : CoreSt) (k : Nat) (v : Ctx) : (c.setCtx k v).raddr = c.raddr := rfl
@[simp] theorem CoreSt.setCtx_rvec (c : CoreSt) (k : Nat) (v : Ctx) : (c.setCtx k v).rvec = c.rvec := rfl
@[simp] theorem CoreSt.setCtx_resident (c : CoreSt) (k : Nat) (v : Ctx) : (c.setCtx k v).resident = c.resident := rfl
@[simp] theorem CoreSt.setCtx_events (c : CoreSt) (k : Nat) (v : Ctx) : (c.setCtx k v).events = c.events := rfl
@[simp] theorem CoreSt.setCtx_counters (c : CoreSt) (k : Nat) (v : Ctx) : (c.setCtx k v).counters = c.counters := rfl
@[simp] theorem CoreSt.setCtx_freeze (c : CoreSt) (k : Nat) (v : Ctx) : (c.setCtx k v).freeze = c.freeze := rfl
@[simp] theorem CoreSt.setCtx_halted (c : CoreSt) (k : Nat) (v : Ctx) : (c.setCtx k v).halted = c.halted := rfl
@[simp] theorem CoreSt.setCtx_stopped (c : CoreSt) (k : Nat) (v : Ctx) : (c.setCtx k v).stopped = c.stopped := rfl
@[simp] theorem CoreSt.setCtx_offAt (c : CoreSt) (k : Nat) (v : Ctx) : (c.setCtx k v).offAt = c.offAt := rfl
@[simp] theorem CoreSt.setCtx_off (c : CoreSt) (k : Nat) (v : Ctx) : (c.setCtx k v).off = c.off := rfl
@[simp] theorem CoreSt.setCtx_issued (c : CoreSt) (k : Nat) (v : Ctx) : (c.setCtx k v).issued = c.issued := rfl
@[simp] theorem CoreSt.setCtx_jwait (c : CoreSt) (k : Nat) (v : Ctx) : (c.setCtx k v).jwait = c.jwait := rfl
@[simp] theorem CoreSt.setCtx_arrived (c : CoreSt) (k : Nat) (v : Ctx) : (c.setCtx k v).arrived = c.arrived := rfl
@[simp] theorem CoreSt.setCtx_engSaved (c : CoreSt) (k : Nat) (v : Ctx) : (c.setCtx k v).engSaved = c.engSaved := rfl
@[simp] theorem CoreSt.setCtx_lines (c : CoreSt) (k : Nat) (v : Ctx) : (c.setCtx k v).lines = c.lines := rfl
@[simp] theorem CoreSt.setCtx_attempts (c : CoreSt) (k : Nat) (v : Ctx) : (c.setCtx k v).attempts = c.attempts := rfl
@[simp] theorem CoreSt.setCtx_tlb (c : CoreSt) (k : Nat) (v : Ctx) : (c.setCtx k v).tlb = c.tlb := rfl
@[simp] theorem CoreSt.setCtx_journal (c : CoreSt) (k : Nat) (v : Ctx) : (c.setCtx k v).journal = c.journal := rfl
@[simp] theorem CoreSt.setCtx_jcount (c : CoreSt) (k : Nat) (v : Ctx) : (c.setCtx k v).jcount = c.jcount := rfl
@[simp] theorem CoreSt.setCtx_parks (c : CoreSt) (k : Nat) (v : Ctx) : (c.setCtx k v).parks = c.parks := rfl
@[simp] theorem CoreSt.setCtx_window (c : CoreSt) (k : Nat) (v : Ctx) : (c.setCtx k v).window = c.window := rfl
@[simp] theorem CoreSt.setCtx_deques (c : CoreSt) (k : Nat) (v : Ctx) : (c.setCtx k v).deques = c.deques := rfl
@[simp] theorem CoreSt.setCtx_steal (c : CoreSt) (k : Nat) (v : Ctx) : (c.setCtx k v).steal = c.steal := rfl
@[simp] theorem CoreSt.setCtx_rewrite (c : CoreSt) (k : Nat) (v : Ctx) : (c.setCtx k v).rewrite = c.rewrite := rfl
@[simp] theorem CoreSt.setCtx_matrix (c : CoreSt) (k : Nat) (v : Ctx) : (c.setCtx k v).matrix = c.matrix := rfl
@[simp] theorem CoreSt.setCtx_copyEng (c : CoreSt) (k : Nat) (v : Ctx) : (c.setCtx k v).copyEng = c.copyEng := rfl
@[simp] theorem CoreSt.setCtx_xformEng (c : CoreSt) (k : Nat) (v : Ctx) : (c.setCtx k v).xformEng = c.xformEng := rfl
@[simp] theorem CoreSt.setCtx_sfu (c : CoreSt) (k : Nat) (v : Ctx) : (c.setCtx k v).sfu = c.sfu := rfl
@[simp] theorem CoreSt.setCtx_loops (c : CoreSt) (k : Nat) (v : Ctx) : (c.setCtx k v).loops = c.loops := rfl
@[simp] theorem CoreSt.setCtx_labels (c : CoreSt) (k : Nat) (v : Ctx) : (c.setCtx k v).labels = c.labels := rfl
@[simp] theorem CoreSt.setCtx_groups (c : CoreSt) (k : Nat) (v : Ctx) : (c.setCtx k v).groups = c.groups := rfl
@[simp] theorem CoreSt.setCtx_barHolds (c : CoreSt) (k : Nat) (v : Ctx) : (c.setCtx k v).barHolds = c.barHolds := rfl
@[simp] theorem CoreSt.setCtx_tap (c : CoreSt) (k : Nat) (v : Ctx) : (c.setCtx k v).tap = c.tap := rfl
@[simp] theorem CoreSt.setCtx_tapTen (c : CoreSt) (k : Nat) (v : Ctx) : (c.setCtx k v).tapTen = c.tapTen := rfl
@[simp] theorem CoreSt.count_ctxs (c : CoreSt) (i : Fin 11) : (c.count i).ctxs = c.ctxs := rfl
@[simp] theorem CoreSt.count_cur (c : CoreSt) (i : Fin 11) : (c.count i).cur = c.cur := rfl
@[simp] theorem CoreSt.count_last (c : CoreSt) (i : Fin 11) : (c.count i).last = c.last := rfl
@[simp] theorem CoreSt.count_banks (c : CoreSt) (i : Fin 11) : (c.count i).banks = c.banks := rfl
@[simp] theorem CoreSt.count_nodes (c : CoreSt) (i : Fin 11) : (c.count i).nodes = c.nodes := rfl
@[simp] theorem CoreSt.count_paired (c : CoreSt) (i : Fin 11) : (c.count i).paired = c.paired := rfl
@[simp] theorem CoreSt.count_assist (c : CoreSt) (i : Fin 11) : (c.count i).assist = c.assist := rfl
@[simp] theorem CoreSt.count_rpc (c : CoreSt) (i : Fin 11) : (c.count i).rpc = c.rpc := rfl
@[simp] theorem CoreSt.count_rcause (c : CoreSt) (i : Fin 11) : (c.count i).rcause = c.rcause := rfl
@[simp] theorem CoreSt.count_raddr (c : CoreSt) (i : Fin 11) : (c.count i).raddr = c.raddr := rfl
@[simp] theorem CoreSt.count_rvec (c : CoreSt) (i : Fin 11) : (c.count i).rvec = c.rvec := rfl
@[simp] theorem CoreSt.count_resident (c : CoreSt) (i : Fin 11) : (c.count i).resident = c.resident := rfl
@[simp] theorem CoreSt.count_events (c : CoreSt) (i : Fin 11) : (c.count i).events = c.events := rfl
@[simp] theorem CoreSt.count_freeze (c : CoreSt) (i : Fin 11) : (c.count i).freeze = c.freeze := rfl
@[simp] theorem CoreSt.count_halted (c : CoreSt) (i : Fin 11) : (c.count i).halted = c.halted := rfl
@[simp] theorem CoreSt.count_stopped (c : CoreSt) (i : Fin 11) : (c.count i).stopped = c.stopped := rfl
@[simp] theorem CoreSt.count_offAt (c : CoreSt) (i : Fin 11) : (c.count i).offAt = c.offAt := rfl
@[simp] theorem CoreSt.count_off (c : CoreSt) (i : Fin 11) : (c.count i).off = c.off := rfl
@[simp] theorem CoreSt.count_issued (c : CoreSt) (i : Fin 11) : (c.count i).issued = c.issued := rfl
@[simp] theorem CoreSt.count_jwait (c : CoreSt) (i : Fin 11) : (c.count i).jwait = c.jwait := rfl
@[simp] theorem CoreSt.count_arrived (c : CoreSt) (i : Fin 11) : (c.count i).arrived = c.arrived := rfl
@[simp] theorem CoreSt.count_engSaved (c : CoreSt) (i : Fin 11) : (c.count i).engSaved = c.engSaved := rfl
@[simp] theorem CoreSt.count_lines (c : CoreSt) (i : Fin 11) : (c.count i).lines = c.lines := rfl
@[simp] theorem CoreSt.count_attempts (c : CoreSt) (i : Fin 11) : (c.count i).attempts = c.attempts := rfl
@[simp] theorem CoreSt.count_tlb (c : CoreSt) (i : Fin 11) : (c.count i).tlb = c.tlb := rfl
@[simp] theorem CoreSt.count_journal (c : CoreSt) (i : Fin 11) : (c.count i).journal = c.journal := rfl
@[simp] theorem CoreSt.count_jcount (c : CoreSt) (i : Fin 11) : (c.count i).jcount = c.jcount := rfl
@[simp] theorem CoreSt.count_parks (c : CoreSt) (i : Fin 11) : (c.count i).parks = c.parks := rfl
@[simp] theorem CoreSt.count_window (c : CoreSt) (i : Fin 11) : (c.count i).window = c.window := rfl
@[simp] theorem CoreSt.count_deques (c : CoreSt) (i : Fin 11) : (c.count i).deques = c.deques := rfl
@[simp] theorem CoreSt.count_steal (c : CoreSt) (i : Fin 11) : (c.count i).steal = c.steal := rfl
@[simp] theorem CoreSt.count_rewrite (c : CoreSt) (i : Fin 11) : (c.count i).rewrite = c.rewrite := rfl
@[simp] theorem CoreSt.count_matrix (c : CoreSt) (i : Fin 11) : (c.count i).matrix = c.matrix := rfl
@[simp] theorem CoreSt.count_copyEng (c : CoreSt) (i : Fin 11) : (c.count i).copyEng = c.copyEng := rfl
@[simp] theorem CoreSt.count_xformEng (c : CoreSt) (i : Fin 11) : (c.count i).xformEng = c.xformEng := rfl
@[simp] theorem CoreSt.count_sfu (c : CoreSt) (i : Fin 11) : (c.count i).sfu = c.sfu := rfl
@[simp] theorem CoreSt.count_loops (c : CoreSt) (i : Fin 11) : (c.count i).loops = c.loops := rfl
@[simp] theorem CoreSt.count_labels (c : CoreSt) (i : Fin 11) : (c.count i).labels = c.labels := rfl
@[simp] theorem CoreSt.count_groups (c : CoreSt) (i : Fin 11) : (c.count i).groups = c.groups := rfl
@[simp] theorem CoreSt.count_barHolds (c : CoreSt) (i : Fin 11) : (c.count i).barHolds = c.barHolds := rfl
@[simp] theorem CoreSt.count_tap (c : CoreSt) (i : Fin 11) : (c.count i).tap = c.tap := rfl
@[simp] theorem CoreSt.count_tapTen (c : CoreSt) (i : Fin 11) : (c.count i).tapTen = c.tapTen := rfl

-- Ctx

@[simp] theorem Ctx.setF_pc (c : Ctx) (r : FReg) (v : LWord) : (c.setF r v).pc = c.pc := rfl
@[simp] theorem Ctx.setF_run (c : Ctx) (r : FReg) (v : LWord) : (c.setF r v).run = c.run := rfl
@[simp] theorem Ctx.setF_pooled (c : Ctx) (r : FReg) (v : LWord) : (c.setF r v).pooled = c.pooled := rfl
@[simp] theorem Ctx.setF_item (c : Ctx) (r : FReg) (v : LWord) : (c.setF r v).item = c.item := rfl
@[simp] theorem Ctx.setF_pend (c : Ctx) (r : FReg) (v : LWord) : (c.setF r v).pend = c.pend := rfl
@[simp] theorem Ctx.setF_callTok (c : Ctx) (r : FReg) (v : LWord) : (c.setF r v).callTok = c.callTok := rfl
@[simp] theorem Ctx.setF_fflags (c : Ctx) (r : FReg) (v : LWord) : (c.setF r v).fflags = c.fflags := rfl
@[simp] theorem Ctx.setF_fenable (c : Ctx) (r : FReg) (v : LWord) : (c.setF r v).fenable = c.fenable := rfl
@[simp] theorem Ctx.setF_fsup (c : Ctx) (r : FReg) (v : LWord) : (c.setF r v).fsup = c.fsup := rfl
@[simp] theorem Ctx.setF_vcclass (c : Ctx) (r : FReg) (v : LWord) : (c.setF r v).vcclass = c.vcclass := rfl
@[simp] theorem Ctx.setF_parklim (c : Ctx) (r : FReg) (v : LWord) : (c.setF r v).parklim = c.parklim := rfl
@[simp] theorem Ctx.setF_tvec (c : Ctx) (r : FReg) (v : LWord) : (c.setF r v).tvec = c.tvec := rfl
@[simp] theorem Ctx.setF_epc (c : Ctx) (r : FReg) (v : LWord) : (c.setF r v).epc = c.epc := rfl
@[simp] theorem Ctx.setF_ecause (c : Ctx) (r : FReg) (v : LWord) : (c.setF r v).ecause = c.ecause := rfl
@[simp] theorem Ctx.setF_eaddr (c : Ctx) (r : FReg) (v : LWord) : (c.setF r v).eaddr = c.eaddr := rfl
@[simp] theorem Ctx.setF_eheld (c : Ctx) (r : FReg) (v : LWord) : (c.setF r v).eheld = c.eheld := rfl
@[simp] theorem Ctx.setF_watch (c : Ctx) (r : FReg) (v : LWord) : (c.setF r v).watch = c.watch := rfl
@[simp] theorem Ctx.setF_dbg (c : Ctx) (r : FReg) (v : LWord) : (c.setF r v).dbg = c.dbg := rfl
@[simp] theorem Ctx.setF_stopped (c : Ctx) (r : FReg) (v : LWord) : (c.setF r v).stopped = c.stopped := rfl
@[simp] theorem Ctx.setF_told (c : Ctx) (r : FReg) (v : LWord) : (c.setF r v).told = c.told := rfl
@[simp] theorem Ctx.setF_inst (c : Ctx) (r : FReg) (v : LWord) : (c.setF r v).inst = c.inst := rfl
@[simp] theorem Ctx.setF_latch (c : Ctx) (r : FReg) (v : LWord) : (c.setF r v).latch = c.latch := rfl
@[simp] theorem Ctx.setF_replay (c : Ctx) (r : FReg) (v : LWord) : (c.setF r v).replay = c.replay := rfl
@[simp] theorem Ctx.setF_pair (c : Ctx) (r : FReg) (v : LWord) : (c.setF r v).pair = c.pair := rfl
@[simp] theorem Ctx.setF_enter (c : Ctx) (r : FReg) (v : LWord) : (c.setF r v).enter = c.enter := rfl
@[simp] theorem Ctx.setF_asyncs (c : Ctx) (r : FReg) (v : LWord) : (c.setF r v).asyncs = c.asyncs := rfl
@[simp] theorem Ctx.setF_fexc (c : Ctx) (r : FReg) (v : LWord) : (c.setF r v).fexc = c.fexc := rfl
@[simp] theorem Ctx.setF_raised (c : Ctx) (r : FReg) (v : LWord) : (c.setF r v).raised = c.raised := rfl
@[simp] theorem Ctx.setF_raisedAt (c : Ctx) (r : FReg) (v : LWord) : (c.setF r v).raisedAt = c.raisedAt := rfl
@[simp] theorem Ctx.setF_fetched (c : Ctx) (r : FReg) (v : LWord) : (c.setF r v).fetched = c.fetched := rfl
@[simp] theorem Ctx.setF_issued (c : Ctx) (r : FReg) (v : LWord) : (c.setF r v).issued = c.issued := rfl
@[simp] theorem Ctx.setF_out (c : Ctx) (r : FReg) (v : LWord) : (c.setF r v).out = c.out := rfl
@[simp] theorem Ctx.setF_sent (c : Ctx) (r : FReg) (v : LWord) : (c.setF r v).sent = c.sent := rfl
@[simp] theorem Ctx.setF_resp (c : Ctx) (r : FReg) (v : LWord) : (c.setF r v).resp = c.resp := rfl
@[simp] theorem Ctx.setF_refusals (c : Ctx) (r : FReg) (v : LWord) : (c.setF r v).refusals = c.refusals := rfl
@[simp] theorem Ctx.setF_since (c : Ctx) (r : FReg) (v : LWord) : (c.setF r v).since = c.since := rfl
@[simp] theorem Ctx.setF_streams (c : Ctx) (r : FReg) (v : LWord) : (c.setF r v).streams = c.streams := rfl
@[simp] theorem Ctx.setF_goal (c : Ctx) (r : FReg) (v : LWord) : (c.setF r v).goal = c.goal := rfl
@[simp] theorem Ctx.setF_memo (c : Ctx) (r : FReg) (v : LWord) : (c.setF r v).memo = c.memo := rfl
@[simp] theorem Ctx.setF_regs_g (c : Ctx) (r : FReg) (v : LWord) : (c.setF r v).regs.g = c.regs.g := rfl
@[simp] theorem Ctx.setF_regs_v (c : Ctx) (r : FReg) (v : LWord) : (c.setF r v).regs.v = c.regs.v := rfl
@[simp] theorem Ctx.setF_regs_m (c : Ctx) (r : FReg) (v : LWord) : (c.setF r v).regs.m = c.regs.m := rfl
@[simp] theorem Ctx.setF_regs_k (c : Ctx) (r : FReg) (v : LWord) : (c.setF r v).regs.k = c.regs.k := rfl
@[simp] theorem Ctx.setV_pc (c : Ctx) (r : Fin 8) (v : VReg) : (c.setV r v).pc = c.pc := rfl
@[simp] theorem Ctx.setV_run (c : Ctx) (r : Fin 8) (v : VReg) : (c.setV r v).run = c.run := rfl
@[simp] theorem Ctx.setV_pooled (c : Ctx) (r : Fin 8) (v : VReg) : (c.setV r v).pooled = c.pooled := rfl
@[simp] theorem Ctx.setV_item (c : Ctx) (r : Fin 8) (v : VReg) : (c.setV r v).item = c.item := rfl
@[simp] theorem Ctx.setV_pend (c : Ctx) (r : Fin 8) (v : VReg) : (c.setV r v).pend = c.pend := rfl
@[simp] theorem Ctx.setV_callTok (c : Ctx) (r : Fin 8) (v : VReg) : (c.setV r v).callTok = c.callTok := rfl
@[simp] theorem Ctx.setV_fflags (c : Ctx) (r : Fin 8) (v : VReg) : (c.setV r v).fflags = c.fflags := rfl
@[simp] theorem Ctx.setV_fenable (c : Ctx) (r : Fin 8) (v : VReg) : (c.setV r v).fenable = c.fenable := rfl
@[simp] theorem Ctx.setV_fsup (c : Ctx) (r : Fin 8) (v : VReg) : (c.setV r v).fsup = c.fsup := rfl
@[simp] theorem Ctx.setV_vcclass (c : Ctx) (r : Fin 8) (v : VReg) : (c.setV r v).vcclass = c.vcclass := rfl
@[simp] theorem Ctx.setV_parklim (c : Ctx) (r : Fin 8) (v : VReg) : (c.setV r v).parklim = c.parklim := rfl
@[simp] theorem Ctx.setV_tvec (c : Ctx) (r : Fin 8) (v : VReg) : (c.setV r v).tvec = c.tvec := rfl
@[simp] theorem Ctx.setV_epc (c : Ctx) (r : Fin 8) (v : VReg) : (c.setV r v).epc = c.epc := rfl
@[simp] theorem Ctx.setV_ecause (c : Ctx) (r : Fin 8) (v : VReg) : (c.setV r v).ecause = c.ecause := rfl
@[simp] theorem Ctx.setV_eaddr (c : Ctx) (r : Fin 8) (v : VReg) : (c.setV r v).eaddr = c.eaddr := rfl
@[simp] theorem Ctx.setV_eheld (c : Ctx) (r : Fin 8) (v : VReg) : (c.setV r v).eheld = c.eheld := rfl
@[simp] theorem Ctx.setV_watch (c : Ctx) (r : Fin 8) (v : VReg) : (c.setV r v).watch = c.watch := rfl
@[simp] theorem Ctx.setV_dbg (c : Ctx) (r : Fin 8) (v : VReg) : (c.setV r v).dbg = c.dbg := rfl
@[simp] theorem Ctx.setV_stopped (c : Ctx) (r : Fin 8) (v : VReg) : (c.setV r v).stopped = c.stopped := rfl
@[simp] theorem Ctx.setV_told (c : Ctx) (r : Fin 8) (v : VReg) : (c.setV r v).told = c.told := rfl
@[simp] theorem Ctx.setV_inst (c : Ctx) (r : Fin 8) (v : VReg) : (c.setV r v).inst = c.inst := rfl
@[simp] theorem Ctx.setV_latch (c : Ctx) (r : Fin 8) (v : VReg) : (c.setV r v).latch = c.latch := rfl
@[simp] theorem Ctx.setV_replay (c : Ctx) (r : Fin 8) (v : VReg) : (c.setV r v).replay = c.replay := rfl
@[simp] theorem Ctx.setV_pair (c : Ctx) (r : Fin 8) (v : VReg) : (c.setV r v).pair = c.pair := rfl
@[simp] theorem Ctx.setV_enter (c : Ctx) (r : Fin 8) (v : VReg) : (c.setV r v).enter = c.enter := rfl
@[simp] theorem Ctx.setV_asyncs (c : Ctx) (r : Fin 8) (v : VReg) : (c.setV r v).asyncs = c.asyncs := rfl
@[simp] theorem Ctx.setV_fexc (c : Ctx) (r : Fin 8) (v : VReg) : (c.setV r v).fexc = c.fexc := rfl
@[simp] theorem Ctx.setV_raised (c : Ctx) (r : Fin 8) (v : VReg) : (c.setV r v).raised = c.raised := rfl
@[simp] theorem Ctx.setV_raisedAt (c : Ctx) (r : Fin 8) (v : VReg) : (c.setV r v).raisedAt = c.raisedAt := rfl
@[simp] theorem Ctx.setV_fetched (c : Ctx) (r : Fin 8) (v : VReg) : (c.setV r v).fetched = c.fetched := rfl
@[simp] theorem Ctx.setV_issued (c : Ctx) (r : Fin 8) (v : VReg) : (c.setV r v).issued = c.issued := rfl
@[simp] theorem Ctx.setV_out (c : Ctx) (r : Fin 8) (v : VReg) : (c.setV r v).out = c.out := rfl
@[simp] theorem Ctx.setV_sent (c : Ctx) (r : Fin 8) (v : VReg) : (c.setV r v).sent = c.sent := rfl
@[simp] theorem Ctx.setV_resp (c : Ctx) (r : Fin 8) (v : VReg) : (c.setV r v).resp = c.resp := rfl
@[simp] theorem Ctx.setV_refusals (c : Ctx) (r : Fin 8) (v : VReg) : (c.setV r v).refusals = c.refusals := rfl
@[simp] theorem Ctx.setV_since (c : Ctx) (r : Fin 8) (v : VReg) : (c.setV r v).since = c.since := rfl
@[simp] theorem Ctx.setV_streams (c : Ctx) (r : Fin 8) (v : VReg) : (c.setV r v).streams = c.streams := rfl
@[simp] theorem Ctx.setV_goal (c : Ctx) (r : Fin 8) (v : VReg) : (c.setV r v).goal = c.goal := rfl
@[simp] theorem Ctx.setV_memo (c : Ctx) (r : Fin 8) (v : VReg) : (c.setV r v).memo = c.memo := rfl
@[simp] theorem Ctx.setV_regs_g (c : Ctx) (r : Fin 8) (v : VReg) : (c.setV r v).regs.g = c.regs.g := rfl
@[simp] theorem Ctx.setV_regs_f (c : Ctx) (r : Fin 8) (v : VReg) : (c.setV r v).regs.f = c.regs.f := rfl
@[simp] theorem Ctx.setV_regs_m (c : Ctx) (r : Fin 8) (v : VReg) : (c.setV r v).regs.m = c.regs.m := rfl
@[simp] theorem Ctx.setV_regs_k (c : Ctx) (r : Fin 8) (v : VReg) : (c.setV r v).regs.k = c.regs.k := rfl
@[simp] theorem Ctx.setM_pc (c : Ctx) (r : MReg) (v : MaskReg) : (c.setM r v).pc = c.pc := rfl
@[simp] theorem Ctx.setM_run (c : Ctx) (r : MReg) (v : MaskReg) : (c.setM r v).run = c.run := rfl
@[simp] theorem Ctx.setM_pooled (c : Ctx) (r : MReg) (v : MaskReg) : (c.setM r v).pooled = c.pooled := rfl
@[simp] theorem Ctx.setM_item (c : Ctx) (r : MReg) (v : MaskReg) : (c.setM r v).item = c.item := rfl
@[simp] theorem Ctx.setM_pend (c : Ctx) (r : MReg) (v : MaskReg) : (c.setM r v).pend = c.pend := rfl
@[simp] theorem Ctx.setM_callTok (c : Ctx) (r : MReg) (v : MaskReg) : (c.setM r v).callTok = c.callTok := rfl
@[simp] theorem Ctx.setM_fflags (c : Ctx) (r : MReg) (v : MaskReg) : (c.setM r v).fflags = c.fflags := rfl
@[simp] theorem Ctx.setM_fenable (c : Ctx) (r : MReg) (v : MaskReg) : (c.setM r v).fenable = c.fenable := rfl
@[simp] theorem Ctx.setM_fsup (c : Ctx) (r : MReg) (v : MaskReg) : (c.setM r v).fsup = c.fsup := rfl
@[simp] theorem Ctx.setM_vcclass (c : Ctx) (r : MReg) (v : MaskReg) : (c.setM r v).vcclass = c.vcclass := rfl
@[simp] theorem Ctx.setM_parklim (c : Ctx) (r : MReg) (v : MaskReg) : (c.setM r v).parklim = c.parklim := rfl
@[simp] theorem Ctx.setM_tvec (c : Ctx) (r : MReg) (v : MaskReg) : (c.setM r v).tvec = c.tvec := rfl
@[simp] theorem Ctx.setM_epc (c : Ctx) (r : MReg) (v : MaskReg) : (c.setM r v).epc = c.epc := rfl
@[simp] theorem Ctx.setM_ecause (c : Ctx) (r : MReg) (v : MaskReg) : (c.setM r v).ecause = c.ecause := rfl
@[simp] theorem Ctx.setM_eaddr (c : Ctx) (r : MReg) (v : MaskReg) : (c.setM r v).eaddr = c.eaddr := rfl
@[simp] theorem Ctx.setM_eheld (c : Ctx) (r : MReg) (v : MaskReg) : (c.setM r v).eheld = c.eheld := rfl
@[simp] theorem Ctx.setM_watch (c : Ctx) (r : MReg) (v : MaskReg) : (c.setM r v).watch = c.watch := rfl
@[simp] theorem Ctx.setM_dbg (c : Ctx) (r : MReg) (v : MaskReg) : (c.setM r v).dbg = c.dbg := rfl
@[simp] theorem Ctx.setM_stopped (c : Ctx) (r : MReg) (v : MaskReg) : (c.setM r v).stopped = c.stopped := rfl
@[simp] theorem Ctx.setM_told (c : Ctx) (r : MReg) (v : MaskReg) : (c.setM r v).told = c.told := rfl
@[simp] theorem Ctx.setM_inst (c : Ctx) (r : MReg) (v : MaskReg) : (c.setM r v).inst = c.inst := rfl
@[simp] theorem Ctx.setM_latch (c : Ctx) (r : MReg) (v : MaskReg) : (c.setM r v).latch = c.latch := rfl
@[simp] theorem Ctx.setM_replay (c : Ctx) (r : MReg) (v : MaskReg) : (c.setM r v).replay = c.replay := rfl
@[simp] theorem Ctx.setM_pair (c : Ctx) (r : MReg) (v : MaskReg) : (c.setM r v).pair = c.pair := rfl
@[simp] theorem Ctx.setM_enter (c : Ctx) (r : MReg) (v : MaskReg) : (c.setM r v).enter = c.enter := rfl
@[simp] theorem Ctx.setM_asyncs (c : Ctx) (r : MReg) (v : MaskReg) : (c.setM r v).asyncs = c.asyncs := rfl
@[simp] theorem Ctx.setM_fexc (c : Ctx) (r : MReg) (v : MaskReg) : (c.setM r v).fexc = c.fexc := rfl
@[simp] theorem Ctx.setM_raised (c : Ctx) (r : MReg) (v : MaskReg) : (c.setM r v).raised = c.raised := rfl
@[simp] theorem Ctx.setM_raisedAt (c : Ctx) (r : MReg) (v : MaskReg) : (c.setM r v).raisedAt = c.raisedAt := rfl
@[simp] theorem Ctx.setM_fetched (c : Ctx) (r : MReg) (v : MaskReg) : (c.setM r v).fetched = c.fetched := rfl
@[simp] theorem Ctx.setM_issued (c : Ctx) (r : MReg) (v : MaskReg) : (c.setM r v).issued = c.issued := rfl
@[simp] theorem Ctx.setM_out (c : Ctx) (r : MReg) (v : MaskReg) : (c.setM r v).out = c.out := rfl
@[simp] theorem Ctx.setM_sent (c : Ctx) (r : MReg) (v : MaskReg) : (c.setM r v).sent = c.sent := rfl
@[simp] theorem Ctx.setM_resp (c : Ctx) (r : MReg) (v : MaskReg) : (c.setM r v).resp = c.resp := rfl
@[simp] theorem Ctx.setM_refusals (c : Ctx) (r : MReg) (v : MaskReg) : (c.setM r v).refusals = c.refusals := rfl
@[simp] theorem Ctx.setM_since (c : Ctx) (r : MReg) (v : MaskReg) : (c.setM r v).since = c.since := rfl
@[simp] theorem Ctx.setM_streams (c : Ctx) (r : MReg) (v : MaskReg) : (c.setM r v).streams = c.streams := rfl
@[simp] theorem Ctx.setM_goal (c : Ctx) (r : MReg) (v : MaskReg) : (c.setM r v).goal = c.goal := rfl
@[simp] theorem Ctx.setM_memo (c : Ctx) (r : MReg) (v : MaskReg) : (c.setM r v).memo = c.memo := rfl
@[simp] theorem Ctx.setM_regs_g (c : Ctx) (r : MReg) (v : MaskReg) : (c.setM r v).regs.g = c.regs.g := rfl
@[simp] theorem Ctx.setM_regs_f (c : Ctx) (r : MReg) (v : MaskReg) : (c.setM r v).regs.f = c.regs.f := rfl
@[simp] theorem Ctx.setM_regs_v (c : Ctx) (r : MReg) (v : MaskReg) : (c.setM r v).regs.v = c.regs.v := rfl
@[simp] theorem Ctx.setM_regs_k (c : Ctx) (r : MReg) (v : MaskReg) : (c.setM r v).regs.k = c.regs.k := rfl
@[simp] theorem Ctx.setK_pc (c : Ctx) (r : KReg) (v : KSkip) : (c.setK r v).pc = c.pc := rfl
@[simp] theorem Ctx.setK_run (c : Ctx) (r : KReg) (v : KSkip) : (c.setK r v).run = c.run := rfl
@[simp] theorem Ctx.setK_pooled (c : Ctx) (r : KReg) (v : KSkip) : (c.setK r v).pooled = c.pooled := rfl
@[simp] theorem Ctx.setK_item (c : Ctx) (r : KReg) (v : KSkip) : (c.setK r v).item = c.item := rfl
@[simp] theorem Ctx.setK_pend (c : Ctx) (r : KReg) (v : KSkip) : (c.setK r v).pend = c.pend := rfl
@[simp] theorem Ctx.setK_callTok (c : Ctx) (r : KReg) (v : KSkip) : (c.setK r v).callTok = c.callTok := rfl
@[simp] theorem Ctx.setK_fflags (c : Ctx) (r : KReg) (v : KSkip) : (c.setK r v).fflags = c.fflags := rfl
@[simp] theorem Ctx.setK_fenable (c : Ctx) (r : KReg) (v : KSkip) : (c.setK r v).fenable = c.fenable := rfl
@[simp] theorem Ctx.setK_fsup (c : Ctx) (r : KReg) (v : KSkip) : (c.setK r v).fsup = c.fsup := rfl
@[simp] theorem Ctx.setK_vcclass (c : Ctx) (r : KReg) (v : KSkip) : (c.setK r v).vcclass = c.vcclass := rfl
@[simp] theorem Ctx.setK_parklim (c : Ctx) (r : KReg) (v : KSkip) : (c.setK r v).parklim = c.parklim := rfl
@[simp] theorem Ctx.setK_tvec (c : Ctx) (r : KReg) (v : KSkip) : (c.setK r v).tvec = c.tvec := rfl
@[simp] theorem Ctx.setK_epc (c : Ctx) (r : KReg) (v : KSkip) : (c.setK r v).epc = c.epc := rfl
@[simp] theorem Ctx.setK_ecause (c : Ctx) (r : KReg) (v : KSkip) : (c.setK r v).ecause = c.ecause := rfl
@[simp] theorem Ctx.setK_eaddr (c : Ctx) (r : KReg) (v : KSkip) : (c.setK r v).eaddr = c.eaddr := rfl
@[simp] theorem Ctx.setK_eheld (c : Ctx) (r : KReg) (v : KSkip) : (c.setK r v).eheld = c.eheld := rfl
@[simp] theorem Ctx.setK_watch (c : Ctx) (r : KReg) (v : KSkip) : (c.setK r v).watch = c.watch := rfl
@[simp] theorem Ctx.setK_dbg (c : Ctx) (r : KReg) (v : KSkip) : (c.setK r v).dbg = c.dbg := rfl
@[simp] theorem Ctx.setK_stopped (c : Ctx) (r : KReg) (v : KSkip) : (c.setK r v).stopped = c.stopped := rfl
@[simp] theorem Ctx.setK_told (c : Ctx) (r : KReg) (v : KSkip) : (c.setK r v).told = c.told := rfl
@[simp] theorem Ctx.setK_inst (c : Ctx) (r : KReg) (v : KSkip) : (c.setK r v).inst = c.inst := rfl
@[simp] theorem Ctx.setK_latch (c : Ctx) (r : KReg) (v : KSkip) : (c.setK r v).latch = c.latch := rfl
@[simp] theorem Ctx.setK_replay (c : Ctx) (r : KReg) (v : KSkip) : (c.setK r v).replay = c.replay := rfl
@[simp] theorem Ctx.setK_pair (c : Ctx) (r : KReg) (v : KSkip) : (c.setK r v).pair = c.pair := rfl
@[simp] theorem Ctx.setK_enter (c : Ctx) (r : KReg) (v : KSkip) : (c.setK r v).enter = c.enter := rfl
@[simp] theorem Ctx.setK_asyncs (c : Ctx) (r : KReg) (v : KSkip) : (c.setK r v).asyncs = c.asyncs := rfl
@[simp] theorem Ctx.setK_fexc (c : Ctx) (r : KReg) (v : KSkip) : (c.setK r v).fexc = c.fexc := rfl
@[simp] theorem Ctx.setK_raised (c : Ctx) (r : KReg) (v : KSkip) : (c.setK r v).raised = c.raised := rfl
@[simp] theorem Ctx.setK_raisedAt (c : Ctx) (r : KReg) (v : KSkip) : (c.setK r v).raisedAt = c.raisedAt := rfl
@[simp] theorem Ctx.setK_fetched (c : Ctx) (r : KReg) (v : KSkip) : (c.setK r v).fetched = c.fetched := rfl
@[simp] theorem Ctx.setK_issued (c : Ctx) (r : KReg) (v : KSkip) : (c.setK r v).issued = c.issued := rfl
@[simp] theorem Ctx.setK_out (c : Ctx) (r : KReg) (v : KSkip) : (c.setK r v).out = c.out := rfl
@[simp] theorem Ctx.setK_sent (c : Ctx) (r : KReg) (v : KSkip) : (c.setK r v).sent = c.sent := rfl
@[simp] theorem Ctx.setK_resp (c : Ctx) (r : KReg) (v : KSkip) : (c.setK r v).resp = c.resp := rfl
@[simp] theorem Ctx.setK_refusals (c : Ctx) (r : KReg) (v : KSkip) : (c.setK r v).refusals = c.refusals := rfl
@[simp] theorem Ctx.setK_since (c : Ctx) (r : KReg) (v : KSkip) : (c.setK r v).since = c.since := rfl
@[simp] theorem Ctx.setK_streams (c : Ctx) (r : KReg) (v : KSkip) : (c.setK r v).streams = c.streams := rfl
@[simp] theorem Ctx.setK_goal (c : Ctx) (r : KReg) (v : KSkip) : (c.setK r v).goal = c.goal := rfl
@[simp] theorem Ctx.setK_memo (c : Ctx) (r : KReg) (v : KSkip) : (c.setK r v).memo = c.memo := rfl
@[simp] theorem Ctx.setK_regs_g (c : Ctx) (r : KReg) (v : KSkip) : (c.setK r v).regs.g = c.regs.g := rfl
@[simp] theorem Ctx.setK_regs_f (c : Ctx) (r : KReg) (v : KSkip) : (c.setK r v).regs.f = c.regs.f := rfl
@[simp] theorem Ctx.setK_regs_v (c : Ctx) (r : KReg) (v : KSkip) : (c.setK r v).regs.v = c.regs.v := rfl
@[simp] theorem Ctx.setK_regs_m (c : Ctx) (r : KReg) (v : KSkip) : (c.setK r v).regs.m = c.regs.m := rfl
@[simp] theorem Ctx.setG_pc (c : Ctx) (r : GReg) (v : LWord) : (c.setG r v).pc = c.pc := by unfold Ctx.setG; split <;> rfl
@[simp] theorem Ctx.setG_run (c : Ctx) (r : GReg) (v : LWord) : (c.setG r v).run = c.run := by unfold Ctx.setG; split <;> rfl
@[simp] theorem Ctx.setG_pooled (c : Ctx) (r : GReg) (v : LWord) : (c.setG r v).pooled = c.pooled := by unfold Ctx.setG; split <;> rfl
@[simp] theorem Ctx.setG_item (c : Ctx) (r : GReg) (v : LWord) : (c.setG r v).item = c.item := by unfold Ctx.setG; split <;> rfl
@[simp] theorem Ctx.setG_pend (c : Ctx) (r : GReg) (v : LWord) : (c.setG r v).pend = c.pend := by unfold Ctx.setG; split <;> rfl
@[simp] theorem Ctx.setG_callTok (c : Ctx) (r : GReg) (v : LWord) : (c.setG r v).callTok = c.callTok := by unfold Ctx.setG; split <;> rfl
@[simp] theorem Ctx.setG_fflags (c : Ctx) (r : GReg) (v : LWord) : (c.setG r v).fflags = c.fflags := by unfold Ctx.setG; split <;> rfl
@[simp] theorem Ctx.setG_fenable (c : Ctx) (r : GReg) (v : LWord) : (c.setG r v).fenable = c.fenable := by unfold Ctx.setG; split <;> rfl
@[simp] theorem Ctx.setG_fsup (c : Ctx) (r : GReg) (v : LWord) : (c.setG r v).fsup = c.fsup := by unfold Ctx.setG; split <;> rfl
@[simp] theorem Ctx.setG_vcclass (c : Ctx) (r : GReg) (v : LWord) : (c.setG r v).vcclass = c.vcclass := by unfold Ctx.setG; split <;> rfl
@[simp] theorem Ctx.setG_parklim (c : Ctx) (r : GReg) (v : LWord) : (c.setG r v).parklim = c.parklim := by unfold Ctx.setG; split <;> rfl
@[simp] theorem Ctx.setG_tvec (c : Ctx) (r : GReg) (v : LWord) : (c.setG r v).tvec = c.tvec := by unfold Ctx.setG; split <;> rfl
@[simp] theorem Ctx.setG_epc (c : Ctx) (r : GReg) (v : LWord) : (c.setG r v).epc = c.epc := by unfold Ctx.setG; split <;> rfl
@[simp] theorem Ctx.setG_ecause (c : Ctx) (r : GReg) (v : LWord) : (c.setG r v).ecause = c.ecause := by unfold Ctx.setG; split <;> rfl
@[simp] theorem Ctx.setG_eaddr (c : Ctx) (r : GReg) (v : LWord) : (c.setG r v).eaddr = c.eaddr := by unfold Ctx.setG; split <;> rfl
@[simp] theorem Ctx.setG_eheld (c : Ctx) (r : GReg) (v : LWord) : (c.setG r v).eheld = c.eheld := by unfold Ctx.setG; split <;> rfl
@[simp] theorem Ctx.setG_watch (c : Ctx) (r : GReg) (v : LWord) : (c.setG r v).watch = c.watch := by unfold Ctx.setG; split <;> rfl
@[simp] theorem Ctx.setG_dbg (c : Ctx) (r : GReg) (v : LWord) : (c.setG r v).dbg = c.dbg := by unfold Ctx.setG; split <;> rfl
@[simp] theorem Ctx.setG_stopped (c : Ctx) (r : GReg) (v : LWord) : (c.setG r v).stopped = c.stopped := by unfold Ctx.setG; split <;> rfl
@[simp] theorem Ctx.setG_told (c : Ctx) (r : GReg) (v : LWord) : (c.setG r v).told = c.told := by unfold Ctx.setG; split <;> rfl
@[simp] theorem Ctx.setG_inst (c : Ctx) (r : GReg) (v : LWord) : (c.setG r v).inst = c.inst := by unfold Ctx.setG; split <;> rfl
@[simp] theorem Ctx.setG_latch (c : Ctx) (r : GReg) (v : LWord) : (c.setG r v).latch = c.latch := by unfold Ctx.setG; split <;> rfl
@[simp] theorem Ctx.setG_replay (c : Ctx) (r : GReg) (v : LWord) : (c.setG r v).replay = c.replay := by unfold Ctx.setG; split <;> rfl
@[simp] theorem Ctx.setG_pair (c : Ctx) (r : GReg) (v : LWord) : (c.setG r v).pair = c.pair := by unfold Ctx.setG; split <;> rfl
@[simp] theorem Ctx.setG_enter (c : Ctx) (r : GReg) (v : LWord) : (c.setG r v).enter = c.enter := by unfold Ctx.setG; split <;> rfl
@[simp] theorem Ctx.setG_asyncs (c : Ctx) (r : GReg) (v : LWord) : (c.setG r v).asyncs = c.asyncs := by unfold Ctx.setG; split <;> rfl
@[simp] theorem Ctx.setG_fexc (c : Ctx) (r : GReg) (v : LWord) : (c.setG r v).fexc = c.fexc := by unfold Ctx.setG; split <;> rfl
@[simp] theorem Ctx.setG_raised (c : Ctx) (r : GReg) (v : LWord) : (c.setG r v).raised = c.raised := by unfold Ctx.setG; split <;> rfl
@[simp] theorem Ctx.setG_raisedAt (c : Ctx) (r : GReg) (v : LWord) : (c.setG r v).raisedAt = c.raisedAt := by unfold Ctx.setG; split <;> rfl
@[simp] theorem Ctx.setG_fetched (c : Ctx) (r : GReg) (v : LWord) : (c.setG r v).fetched = c.fetched := by unfold Ctx.setG; split <;> rfl
@[simp] theorem Ctx.setG_issued (c : Ctx) (r : GReg) (v : LWord) : (c.setG r v).issued = c.issued := by unfold Ctx.setG; split <;> rfl
@[simp] theorem Ctx.setG_out (c : Ctx) (r : GReg) (v : LWord) : (c.setG r v).out = c.out := by unfold Ctx.setG; split <;> rfl
@[simp] theorem Ctx.setG_sent (c : Ctx) (r : GReg) (v : LWord) : (c.setG r v).sent = c.sent := by unfold Ctx.setG; split <;> rfl
@[simp] theorem Ctx.setG_resp (c : Ctx) (r : GReg) (v : LWord) : (c.setG r v).resp = c.resp := by unfold Ctx.setG; split <;> rfl
@[simp] theorem Ctx.setG_refusals (c : Ctx) (r : GReg) (v : LWord) : (c.setG r v).refusals = c.refusals := by unfold Ctx.setG; split <;> rfl
@[simp] theorem Ctx.setG_since (c : Ctx) (r : GReg) (v : LWord) : (c.setG r v).since = c.since := by unfold Ctx.setG; split <;> rfl
@[simp] theorem Ctx.setG_streams (c : Ctx) (r : GReg) (v : LWord) : (c.setG r v).streams = c.streams := by unfold Ctx.setG; split <;> rfl
@[simp] theorem Ctx.setG_goal (c : Ctx) (r : GReg) (v : LWord) : (c.setG r v).goal = c.goal := by unfold Ctx.setG; split <;> rfl
@[simp] theorem Ctx.setG_memo (c : Ctx) (r : GReg) (v : LWord) : (c.setG r v).memo = c.memo := by unfold Ctx.setG; split <;> rfl
@[simp] theorem Ctx.setG_regs_f (c : Ctx) (r : GReg) (v : LWord) : (c.setG r v).regs.f = c.regs.f := by unfold Ctx.setG; split <;> rfl
@[simp] theorem Ctx.setG_regs_v (c : Ctx) (r : GReg) (v : LWord) : (c.setG r v).regs.v = c.regs.v := by unfold Ctx.setG; split <;> rfl
@[simp] theorem Ctx.setG_regs_m (c : Ctx) (r : GReg) (v : LWord) : (c.setG r v).regs.m = c.regs.m := by unfold Ctx.setG; split <;> rfl
@[simp] theorem Ctx.setG_regs_k (c : Ctx) (r : GReg) (v : LWord) : (c.setG r v).regs.k = c.regs.k := by unfold Ctx.setG; split <;> rfl
@[simp] theorem Ctx.retireTo_regs (c : Ctx) (pc : Word) : (c.retireTo pc).regs = c.regs := rfl
@[simp] theorem Ctx.retire_regs (c : Ctx) : c.retire.regs = c.regs := rfl
@[simp] theorem Ctx.retireTo_pooled (c : Ctx) (pc : Word) : (c.retireTo pc).pooled = c.pooled := rfl
@[simp] theorem Ctx.retire_pooled (c : Ctx) : c.retire.pooled = c.pooled := rfl
@[simp] theorem Ctx.retireTo_item (c : Ctx) (pc : Word) : (c.retireTo pc).item = c.item := rfl
@[simp] theorem Ctx.retire_item (c : Ctx) : c.retire.item = c.item := rfl
@[simp] theorem Ctx.retireTo_pend (c : Ctx) (pc : Word) : (c.retireTo pc).pend = c.pend := rfl
@[simp] theorem Ctx.retire_pend (c : Ctx) : c.retire.pend = c.pend := rfl
@[simp] theorem Ctx.retireTo_callTok (c : Ctx) (pc : Word) : (c.retireTo pc).callTok = c.callTok := rfl
@[simp] theorem Ctx.retire_callTok (c : Ctx) : c.retire.callTok = c.callTok := rfl
@[simp] theorem Ctx.retireTo_fenable (c : Ctx) (pc : Word) : (c.retireTo pc).fenable = c.fenable := rfl
@[simp] theorem Ctx.retire_fenable (c : Ctx) : c.retire.fenable = c.fenable := rfl
@[simp] theorem Ctx.retireTo_fsup (c : Ctx) (pc : Word) : (c.retireTo pc).fsup = c.fsup := rfl
@[simp] theorem Ctx.retire_fsup (c : Ctx) : c.retire.fsup = c.fsup := rfl
@[simp] theorem Ctx.retireTo_vcclass (c : Ctx) (pc : Word) : (c.retireTo pc).vcclass = c.vcclass := rfl
@[simp] theorem Ctx.retire_vcclass (c : Ctx) : c.retire.vcclass = c.vcclass := rfl
@[simp] theorem Ctx.retireTo_parklim (c : Ctx) (pc : Word) : (c.retireTo pc).parklim = c.parklim := rfl
@[simp] theorem Ctx.retire_parklim (c : Ctx) : c.retire.parklim = c.parklim := rfl
@[simp] theorem Ctx.retireTo_tvec (c : Ctx) (pc : Word) : (c.retireTo pc).tvec = c.tvec := rfl
@[simp] theorem Ctx.retire_tvec (c : Ctx) : c.retire.tvec = c.tvec := rfl
@[simp] theorem Ctx.retireTo_epc (c : Ctx) (pc : Word) : (c.retireTo pc).epc = c.epc := rfl
@[simp] theorem Ctx.retire_epc (c : Ctx) : c.retire.epc = c.epc := rfl
@[simp] theorem Ctx.retireTo_ecause (c : Ctx) (pc : Word) : (c.retireTo pc).ecause = c.ecause := rfl
@[simp] theorem Ctx.retire_ecause (c : Ctx) : c.retire.ecause = c.ecause := rfl
@[simp] theorem Ctx.retireTo_eaddr (c : Ctx) (pc : Word) : (c.retireTo pc).eaddr = c.eaddr := rfl
@[simp] theorem Ctx.retire_eaddr (c : Ctx) : c.retire.eaddr = c.eaddr := rfl
@[simp] theorem Ctx.retireTo_eheld (c : Ctx) (pc : Word) : (c.retireTo pc).eheld = c.eheld := rfl
@[simp] theorem Ctx.retire_eheld (c : Ctx) : c.retire.eheld = c.eheld := rfl
@[simp] theorem Ctx.retireTo_watch (c : Ctx) (pc : Word) : (c.retireTo pc).watch = c.watch := rfl
@[simp] theorem Ctx.retire_watch (c : Ctx) : c.retire.watch = c.watch := rfl
@[simp] theorem Ctx.retireTo_latch (c : Ctx) (pc : Word) : (c.retireTo pc).latch = c.latch := rfl
@[simp] theorem Ctx.retire_latch (c : Ctx) : c.retire.latch = c.latch := rfl
@[simp] theorem Ctx.retireTo_replay (c : Ctx) (pc : Word) : (c.retireTo pc).replay = c.replay := rfl
@[simp] theorem Ctx.retire_replay (c : Ctx) : c.retire.replay = c.replay := rfl
@[simp] theorem Ctx.retireTo_enter (c : Ctx) (pc : Word) : (c.retireTo pc).enter = c.enter := rfl
@[simp] theorem Ctx.retire_enter (c : Ctx) : c.retire.enter = c.enter := rfl
@[simp] theorem Ctx.retireTo_asyncs (c : Ctx) (pc : Word) : (c.retireTo pc).asyncs = c.asyncs := rfl
@[simp] theorem Ctx.retire_asyncs (c : Ctx) : c.retire.asyncs = c.asyncs := rfl
@[simp] theorem Ctx.retireTo_fexc (c : Ctx) (pc : Word) : (c.retireTo pc).fexc = c.fexc := rfl
@[simp] theorem Ctx.retire_fexc (c : Ctx) : c.retire.fexc = c.fexc := rfl
@[simp] theorem Ctx.retireTo_since (c : Ctx) (pc : Word) : (c.retireTo pc).since = c.since := rfl
@[simp] theorem Ctx.retire_since (c : Ctx) : c.retire.since = c.since := rfl
@[simp] theorem Ctx.retireTo_streams (c : Ctx) (pc : Word) : (c.retireTo pc).streams = c.streams := rfl
@[simp] theorem Ctx.retire_streams (c : Ctx) : c.retire.streams = c.streams := rfl
@[simp] theorem Ctx.retireTo_told (c : Ctx) (pc : Word) : (c.retireTo pc).told = c.told := rfl
@[simp] theorem Ctx.retire_told (c : Ctx) : c.retire.told = c.told := rfl
@[simp] theorem Ctx.retireTo_pc (c : Ctx) (pc : Word) : (c.retireTo pc).pc = c.goesTo pc := rfl
@[simp] theorem Ctx.retire_pc (c : Ctx) : c.retire.pc = c.goesTo (nextPc c.pc) := rfl
theorem Ctx.goesTo_alone {c : Ctx} (h : c.pair = none) (pc : Word) : c.goesTo pc = pc := by simp [Ctx.goesTo, h]
@[simp] theorem Ctx.retireTo_run (c : Ctx) (pc : Word) : (c.retireTo pc).run = .run := rfl
@[simp] theorem Ctx.retire_run (c : Ctx) : c.retire.run = .run := rfl

-- Reading back

@[simp] theorem State.coreAt_setCore_same (s : State) (c : CoreNo) (v : CoreSt) : (s.setCore c v).coreAt c = v := by
  simp [State.coreAt, State.setCore]
theorem State.coreAt_setCore_ne (s : State) {c c' : CoreNo} (v : CoreSt) (h : c' ≠ c) :
    (s.setCore c v).coreAt c' = s.coreAt c' := by
  have k : c'.toNat ≠ c.toNat := fun e => h (BitVec.eq_of_toNat_eq e)
  simp [State.coreAt, State.setCore, assoc_assocSet_ne _ _ k]
@[simp] theorem State.coreAt_modCore_same (s : State) (c : CoreNo) (f : CoreSt → CoreSt) :
    (s.modCore c f).coreAt c = f (s.coreAt c) := by simp [State.modCore]
theorem State.coreAt_modCore_ne (s : State) {c c' : CoreNo} (f : CoreSt → CoreSt) (h : c' ≠ c) :
    (s.modCore c f).coreAt c' = s.coreAt c' := State.coreAt_setCore_ne _ _ h
@[simp] theorem CoreSt.ctxAt_setCtx_same (c : CoreSt) (k : Nat) (v : Ctx) : (c.setCtx k v).ctxAt k = v := by
  simp [CoreSt.ctxAt, CoreSt.setCtx]
theorem CoreSt.ctxAt_setCtx_ne (c : CoreSt) {k k' : Nat} (v : Ctx) (h : k' ≠ k) :
    (c.setCtx k v).ctxAt k' = c.ctxAt k' := by
  simp [CoreSt.ctxAt, CoreSt.setCtx, assoc_assocSet_ne _ _ h]
@[simp] theorem State.coreAt_setCtx_same (s : State) (c : CoreNo) (k : Nat) (v : Ctx) :
    (s.setCtx c k v).coreAt c = (s.coreAt c).setCtx k v := by simp [State.setCtx]
theorem State.coreAt_setCtx_ne (s : State) {c c' : CoreNo} (k : Nat) (v : Ctx) (h : c' ≠ c) :
    (s.setCtx c k v).coreAt c' = s.coreAt c' := State.coreAt_modCore_ne _ _ h
@[simp] theorem State.ctxAt_setCtx_same (s : State) (c : CoreNo) (k : Nat) (v : Ctx) :
    (s.setCtx c k v).ctxAt c k = v := by simp [State.ctxAt]
theorem State.ctxAt_setCtx_ne (s : State) {c c' : CoreNo} {k k' : Nat} (v : Ctx) (h : c' ≠ c ∨ k' ≠ k) :
    (s.setCtx c k v).ctxAt c' k' = s.ctxAt c' k' := by
  by_cases e : c' = c
  · subst e
    have hk : k' ≠ k := by rcases h with h | h <;> simp_all
    simp [State.ctxAt, CoreSt.ctxAt_setCtx_ne _ _ hk]
  · simp [State.ctxAt, State.coreAt_setCtx_ne _ _ _ e]
@[simp] theorem State.ctxAt_modCtx_same (s : State) (c : CoreNo) (k : Nat) (f : Ctx → Ctx) :
    (s.modCtx c k f).ctxAt c k = f (s.ctxAt c k) := by simp [State.modCtx]
theorem State.ctxAt_modCtx_ne (s : State) {c c' : CoreNo} {k k' : Nat} (f : Ctx → Ctx) (h : c' ≠ c ∨ k' ≠ k) :
    (s.modCtx c k f).ctxAt c' k' = s.ctxAt c' k' := State.ctxAt_setCtx_ne _ _ h
@[simp] theorem State.key_setCtx (s : State) (c : CoreNo) (k : Nat) (v : Ctx) : (s.setCtx c k v).key = s.key := by
  unfold State.key
  by_cases h : s.core = c
  · simp [h, CoreSt.key]
  · simp [State.coreAt_setCtx_ne _ _ _ h]
@[simp] theorem State.key_modCtx (s : State) (c : CoreNo) (k : Nat) (f : Ctx → Ctx) : (s.modCtx c k f).key = s.key := by
  simp [State.modCtx]
@[simp] theorem State.key_modMe (s : State) (f : Ctx → Ctx) : (s.modMe f).key = s.key := by simp [State.modMe]
@[simp] theorem State.me_modMe (s : State) (f : Ctx → Ctx) : (s.modMe f).me = f s.me := by
  simp [State.me, State.key_modMe]; simp [State.modMe, State.me]
@[simp] theorem State.key_putBytes (s : State) (a : Nat) (bs : List Byte) : (s.putBytes a bs).key = s.key := rfl
@[simp] theorem State.me_putBytes (s : State) (a : Nat) (bs : List Byte) : (s.putBytes a bs).me = s.me := rfl
@[simp] theorem State.key_putTag (s : State) (a : Nat) (h : Handle) : (s.putTag a h).key = s.key := rfl
@[simp] theorem State.me_putTag (s : State) (a : Nat) (h : Handle) : (s.putTag a h).me = s.me := rfl
@[simp] theorem State.byteAt_modMe (s : State) (f : Ctx → Ctx) (a : Nat) : (s.modMe f).byteAt a = s.byteAt a := rfl
@[simp] theorem State.byteAt_setCtx (s : State) (c : CoreNo) (k : Nat) (v : Ctx) (a : Nat) :
    (s.setCtx c k v).byteAt a = s.byteAt a := rfl
@[simp] theorem State.byteAt_modCore (s : State) (c : CoreNo) (f : CoreSt → CoreSt) (a : Nat) :
    (s.modCore c f).byteAt a = s.byteAt a := rfl
@[simp] theorem State.setCtx_setCtx (s : State) (c : CoreNo) (k : Nat) (v w : Ctx) :
    (s.setCtx c k v).setCtx c k w = s.setCtx c k w := by
  have h : ∀ (l : List (Nat × Ctx)), assocSet (assocSet l k v) k w = assocSet l k w := by
    intro l
    induction l with
    | nil => simp [assocSet]
    | cons p t ih => rcases p with ⟨j, x⟩; by_cases e : j = k <;> by_cases f : k < j <;> simp [assocSet, e, f, ih]
  have g : ∀ (l : List (Nat × CoreSt)) (x y : CoreSt), assocSet (assocSet l c.toNat x) c.toNat y = assocSet l c.toNat y := by
    intro l x y
    induction l with
    | nil => simp [assocSet]
    | cons p t ih => rcases p with ⟨j, z⟩; by_cases e : j = c.toNat <;> by_cases f : c.toNat < j <;> simp [assocSet, e, f, ih]
  simp [State.setCtx, State.modCore, State.setCore, g, CoreSt.setCtx, h]
  simp [State.coreAt, h]
@[simp] theorem State.modMe_modMe (s : State) (f g : Ctx → Ctx) : (s.modMe f).modMe g = s.modMe (fun c => g (f c)) := by
  have e : (s.modMe f).key = s.key := State.key_modMe s f
  rw [State.modMe, State.modCtx, e]
  simp [State.modMe, State.modCtx]

/-- A change of the acting context depends on what it makes of that context alone. -/
theorem State.modMe_congr {s : State} {f g : Ctx → Ctx} (h : f s.me = g s.me) : s.modMe f = s.modMe g := by
  unfold State.me at h
  simp only [State.modMe, State.modCtx, h]

-- Registers

@[simp] theorem Ctx.g_zero (c : Ctx) : c.g 0 = {} := rfl
@[simp] theorem Ctx.setG_zero (c : Ctx) (v : LWord) : c.setG 0 v = c := rfl
theorem Ctx.g_setG_same (c : Ctx) {r : GReg} (v : LWord) (h : r ≠ 0) : (c.setG r v).g r = v := by
  simp [Ctx.setG, Ctx.g, h]
theorem Ctx.g_setG_ne (c : Ctx) {r q : GReg} (v : LWord) (h : q ≠ r) : (c.setG r v).g q = c.g q := by
  have k : r.val ≠ q.val := fun e => h (Fin.ext e.symm)
  unfold Ctx.setG Ctx.g
  split
  · rfl
  · split
    · rfl
    · simp [Vector.getElem_set, k]
@[simp] theorem Ctx.f_setF_same (c : Ctx) (r : FReg) (v : LWord) : (c.setF r v).f r = v := by
  simp [Ctx.setF, Ctx.f]
theorem Ctx.f_setF_ne (c : Ctx) {r q : FReg} (v : LWord) (h : q ≠ r) : (c.setF r v).f q = c.f q := by
  have k : r.val ≠ q.val := fun e => h (Fin.ext e.symm)
  simp [Ctx.setF, Ctx.f, Vector.getElem_set, k]
@[simp] theorem Ctx.v_setV_same (c : Ctx) (r : Fin 8) (v : VReg) : (c.setV r v).v r = v := by
  simp [Ctx.setV, Ctx.v]
theorem Ctx.v_setV_ne (c : Ctx) {r q : Fin 8} (v : VReg) (h : q ≠ r) : (c.setV r v).v q = c.v q := by
  have k : r.val ≠ q.val := fun e => h (Fin.ext e.symm)
  simp [Ctx.setV, Ctx.v, Vector.getElem_set, k]
@[simp] theorem Ctx.m_setM_same (c : Ctx) (r : MReg) (v : MaskReg) : (c.setM r v).m r = v := by
  simp [Ctx.setM, Ctx.m]
theorem Ctx.m_setM_ne (c : Ctx) {r q : MReg} (v : MaskReg) (h : q ≠ r) : (c.setM r v).m q = c.m q := by
  have k : r.val ≠ q.val := fun e => h (Fin.ext e.symm)
  simp [Ctx.setM, Ctx.m, Vector.getElem_set, k]

end Sys2Proof.Machine
end

