-- ==== Sys2Proof/Laws/Ops.lean ====
section
/-!
SUPPORT. What the shared operations that stand around every meaning do: the checks before an instruction's own effect,
retiring, the conjunction of labels, deciding registers, and taking a trap.
-/
namespace Sys2Proof.Machine

/-- With nothing before it, an instruction has its own effect. -/
theorem State.guarded_clear {s : State} {i : Instr} (h : s.clear i = true) (k : State → State) : s.guarded i k = k s := by
  simp only [State.clear, Bool.and_eq_true, Bool.not_eq_true', Bool.or_eq_true] at h
  obtain ⟨⟨⟨⟨⟨⟨⟨hc, ha⟩, hf⟩, hs⟩, hw⟩, hr⟩, hq⟩, _⟩ := h
  have e1 : (computeOnly i.op && !isCompute s.core) = false := by
    rcases hc with hc | hc <;> simp [hc]
  have e2 : i.streams.any (fun r => !s.me.bound r || s.me.streamBad i r) = false := by
    simp only [List.all_eq_true, Bool.and_eq_true, Bool.not_eq_true'] at hs
    simp only [List.any_eq_false, Bool.or_eq_true, Bool.not_eq_true', not_or, Bool.not_eq_false, Bool.not_eq_true]
    exact fun r hr => hs r hr
  have e3 : (gRefs i.use.r).find? (fun r => s.me.pend.contains r) = none := by
    simp only [List.find?_eq_none]
    intro r hm
    simp only [List.any_eq_false] at hr
    exact hr r hm
  have e4 : s.slotIllegal i = false := by
    simp only [State.slotIllegal, e1, ha, hf, e2, hw, Bool.and_false, Bool.or_self]
  simp only [State.guarded, e4, e3, hq, Bool.false_eq_true, if_false, ite_self]

/-- An instruction that raises no enabled flag retires in its context alone. -/
theorem State.retire_quiet {s : State} (h : s.me.raised &&& s.me.fenable = 0) : s.retire = s.modMe Ctx.retire := by
  have hk : s.me.commits &&& s.me.fenable = 0 := by
    unfold Ctx.commits
    split
    · simp
    · exact h
  show (if s.me.commits &&& s.me.fenable = 0 then _ else _) = _
  rw [if_pos hk]
  rfl

theorem State.clear_quiet {s : State} {i : Instr} (h : s.clear i = true) : s.me.raised &&& s.me.fenable = 0 := by
  simp only [State.clear, Bool.and_eq_true, beq_iff_eq] at h
  exact h.2

/-- Unlabelled registers decide. -/
theorem State.deciding_unlabelled {s : State} {rs : List GReg} (h : s.unlabelled rs = true) (k : State → State) :
    s.deciding rs k = k s := by
  have none : ∀ (p : Handle → Bool), p 0 = false → s.firstLab p rs = none := by
    intro p hp
    induction rs with
    | nil => rfl
    | cons r t ih =>
      simp only [State.unlabelled, List.all_cons, Bool.and_eq_true, beq_iff_eq] at h
      simp only [State.firstLab, h.1, hp, Bool.false_eq_true, if_false]
      exact ih (by simpa [State.unlabelled] using h.2)
  have a := none (· == hiddenH) (by decide)
  have b := none (· != 0) (by decide)
  simp only [State.deciding, a, b]

/-- What a label lookup answers leaves the contexts as they were. -/
theorem State.lookComb_me {s t : State} {u : Bool} {a b h : Handle} (e : s.lookComb u a b = .ok h t) :
    t.me = s.me ∧ t.key = s.key ∧ t.core = s.core := by
  simp only [State.lookComb] at e
  split at e
  · cases e; exact ⟨rfl, rfl, rfl⟩
  · split at e
    · cases e
      have hk : ∀ f : CoreSt → CoreSt, (∀ c, (f c).cur = c.cur ∧ (f c).ctxs = c.ctxs) →
          (s.modHere f).key = s.key ∧ (s.modHere f).me = s.me := by
        intro f hf
        have h1 : (s.modHere f).key = s.key := by
          simp [State.key, State.modHere, CoreSt.key, (hf _).1]
        refine ⟨h1, ?_⟩
        simp only [State.me, h1, State.ctxAt, CoreSt.ctxAt]
        simp [State.modHere, (hf _).2]
      obtain ⟨a1, a2⟩ := hk (fun c => c.modUnit s.part fun u => { u with comb := _ }) (fun c => ⟨rfl, rfl⟩)
      exact ⟨a2, a1, rfl⟩
    · cases e

theorem State.conj2_me {s t : State} {a b h : Handle} (e : s.conj2 a b = .ok h t) :
    t.me = s.me ∧ t.key = s.key ∧ t.core = s.core := by
  unfold State.conj2 at e
  simp only at e
  split at e
  · cases e; exact ⟨rfl, rfl, rfl⟩
  · split at e
    · cases e; exact ⟨rfl, rfl, rfl⟩
    · split at e
      · cases e; exact ⟨rfl, rfl, rfl⟩
      · exact State.lookComb_me e

theorem State.conjFold_me {s t : State} {hs : List Handle} {x h : Handle} (e : s.conjFold x hs = .ok h t) :
    t.me = s.me ∧ t.key = s.key ∧ t.core = s.core := by
  induction hs generalizing s x with
  | nil => cases e; exact ⟨rfl, rfl, rfl⟩
  | cons y ys ih =>
    simp only [State.conjFold] at e
    split at e
    · rename_i r u hu
      obtain ⟨a1, a2, a3⟩ := State.conj2_me hu
      obtain ⟨b1, b2, b3⟩ := ih e
      exact ⟨b1.trans a1, b2.trans a2, b3.trans a3⟩
    · cases e

/-- The conjunction of labels, where it is at hand, leaves the contexts as they were. -/
theorem State.conj_me {s t : State} {hs : List Handle} {h : Handle} (e : s.conj hs = .ok h t) :
    t.me = s.me ∧ t.key = s.key ∧ t.core = s.core := by
  unfold State.conj at e
  simp only at e
  split at e
  · cases e; exact ⟨rfl, rfl, rfl⟩
  · split at e
    · cases e; exact ⟨rfl, rfl, rfl⟩
    · exact State.conjFold_me e

/-- Labels that all resolve to the empty label have it as their conjunction. -/
theorem State.conj_empty {s : State} {hs : List Handle} (h : ∀ x ∈ hs, s.lab x = 0) : s.conj hs = .ok 0 s := by
  have e : hs.map s.lab = List.replicate hs.length 0 := by
    rw [List.eq_replicate_iff]
    refine ⟨by simp, ?_⟩
    intro b hb
    obtain ⟨x, hx, rfl⟩ := List.mem_map.mp hb
    exact h x hx
  unfold State.conj
  simp only [e]
  have c1 : (List.replicate hs.length (0 : Handle)).contains hiddenH = false := by
    rw [Bool.eq_false_iff]
    intro hc
    have hm : hiddenH ∈ List.replicate hs.length (0 : Handle) := List.contains_iff_mem.mp hc
    exact absurd (List.mem_replicate.mp hm).2 (by decide)
  have c2 : (List.replicate hs.length (0 : Handle)).filter (· != 0) = [] := by
    simp
  simp [c1, c2]

/-- A label unit's lookup changes no byte of memory. -/
theorem State.conj_store {s t : State} {hs : List Handle} {h : Handle} (e : s.conj hs = .ok h t) : t.store = s.store := by
  have look : ∀ {s t : State} {u : Bool} {a b h : Handle}, s.lookComb u a b = .ok h t → t.store = s.store := by
    intro s t u a b h e
    simp only [State.lookComb] at e
    split at e
    · cases e; rfl
    · split at e <;> cases e; rfl
  have two : ∀ {s t : State} {a b h : Handle}, s.conj2 a b = .ok h t → t.store = s.store := by
    intro s t a b h e
    unfold State.conj2 at e
    simp only at e
    split at e
    · cases e; rfl
    · split at e
      · cases e; rfl
      · split at e
        · cases e; rfl
        · exact look e
  have fold : ∀ (hs : List Handle) {s t : State} {x h : Handle}, s.conjFold x hs = .ok h t → t.store = s.store := by
    intro hs
    induction hs with
    | nil => intro s t x h e; cases e; rfl
    | cons y ys ih =>
      intro s t x h e
      simp only [State.conjFold] at e
      split at e
      · rename_i hu; exact (ih e).trans (two hu)
      · cases e
  unfold State.conj at e
  simp only at e
  split at e
  · cases e; rfl
  · split at e
    · cases e; rfl
    · exact fold _ e

end Sys2Proof.Machine
end

