-- ==== Sys2Proof/Laws/Integer.lean ====
section
/-!
SUPPORT. What the shared integer operation does: with nothing before it and the label at hand it writes its value and
retires, and with destination g0 it retires.
-/
namespace Sys2Proof.Machine

/-- An integer operation whose label is at hand writes its value and retires. -/
theorem State.alu_writes {s t : State} {i : Instr} {u : Alu} {h : Handle} (hc : s.clear i = true) (hd : u.d ≠ 0)
    (hl : s.conj (u.srcs.map fun r => (s.me.g r).lab) = .ok h t) :
    s.alu i u = t.modMe fun c => (c.setG u.d ⟨u.f fun r => (s.me.g r).val, h⟩).retire := by
  obtain ⟨hm, _, _⟩ := State.conj_me hl
  have hq := State.clear_quiet hc
  rw [State.alu, State.guarded_clear hc]
  simp only [hd, if_false, hl]
  rw [State.retire_quiet, State.modMe_modMe]
  · exact State.modMe_congr (by rw [hm])
  · simpa [hm] using hq

/-- With destination g0 an integer operation retires, whatever its operands are. -/
theorem State.alu_zero {s : State} {i : Instr} {u : Alu} (hi : i.inert = true) (hc : computeOnly i.op = false)
    (ha : i.absentReg = false) (hf : i.scalarF.any s.me.bound = false) (hs : i.streams = []) (hd : u.d = 0) (hr : s.me.raised = 0) :
    s.alu i u = s.modMe Ctx.retire := by
  have hl : s.slotIllegal i = false := by simp [State.slotIllegal, hc, ha, hf, hs, hi]
  simp only [State.alu, State.guarded, hl, hi, hd, Bool.false_eq_true, if_false, if_true]
  exact State.retire_quiet (by simp [hr])

end Sys2Proof.Machine
end

