-- ==== Sys2Proof/Laws/Memory.lean ====
section
/-!
SUPPORT. Memory: its canonical form is kept by every operation over it, and a byte reads back what was written last.
-/
namespace Sys2Proof.Machine

/-- Every address of a memory is above `a`. -/
def Memory.above (a : Nat) (m : List Host.Cell) : Prop := ∀ c ∈ m, a < c.1

theorem Memory.wf_cons {a : Nat} {v : Byte} {t : List Host.Cell} :
    Memory.wf ((a, v) :: t) = true ↔ v ≠ unlistedByte ∧ Memory.above a t ∧ Memory.wf t = true := by
  induction t generalizing a v with
  | nil => simp [Memory.wf, Memory.above]
  | cons p t ih =>
    rcases p with ⟨b, w⟩
    simp only [Memory.wf, Bool.and_eq_true, bne_iff_ne, ne_eq, decide_eq_true_eq]
    constructor
    · rintro ⟨⟨hv, hab⟩, hwf⟩
      refine ⟨hv, ?_, hwf⟩
      intro c hc
      rcases List.mem_cons.mp hc with rfl | hc
      · exact hab
      · exact Nat.lt_trans hab ((ih.mp hwf).2.1 c hc)
    · rintro ⟨hv, hab, hwf⟩
      exact ⟨⟨hv, hab (b, w) (List.mem_cons_self ..)⟩, hwf⟩

theorem Memory.get_above {a : Nat} {m : List Host.Cell} (h : Memory.above a m) {x : Nat} (hx : x ≤ a) :
    Memory.get m x = unlistedByte := by
  cases m with
  | nil => rfl
  | cons p t =>
    rcases p with ⟨b, v⟩
    have : a < b := h (b, v) (List.mem_cons_self ..)
    simp [Memory.get, show b ≠ x by omega, show x < b by omega]

theorem Memory.above_set {a b : Nat} {m : List Host.Cell} (h : Memory.above b m) (hb : b < a) (x : Byte) :
    Memory.above b (Memory.set m a x) := by
  induction m with
  | nil =>
    intro c hc
    simp only [Memory.set] at hc
    split at hc <;> simp_all
  | cons p t ih =>
    rcases p with ⟨j, v⟩
    have hj : b < j := h (j, v) (List.mem_cons_self ..)
    have ht : Memory.above b t := fun c hc => h c (List.mem_cons_of_mem _ hc)
    intro c hc
    simp only [Memory.set] at hc
    split at hc
    · split at hc
      · exact ht c hc
      · rcases List.mem_cons.mp hc with rfl | hc
        · exact hb
        · exact ht c hc
    · split at hc
      · split at hc
        · exact h c hc
        · rcases List.mem_cons.mp hc with rfl | hc
          · exact hb
          · exact h c hc
      · rcases List.mem_cons.mp hc with rfl | hc
        · exact hj
        · exact ih ht c hc

/-- A write keeps the canonical form. -/
theorem Memory.wf_set {m : List Host.Cell} (h : Memory.wf m = true) (a : Nat) (x : Byte) :
    Memory.wf (Memory.set m a x) = true := by
  induction m with
  | nil => by_cases e : x = unlistedByte <;> simp [Memory.set, e, Memory.wf]
  | cons p t ih =>
    rcases p with ⟨b, v⟩
    obtain ⟨hv, hab, ht⟩ := Memory.wf_cons.mp h
    simp only [Memory.set]
    split
    · rename_i hba; subst hba
      split
      · exact ht
      · rename_i hx; exact Memory.wf_cons.mpr ⟨hx, hab, ht⟩
    · split
      · rename_i hlt
        split
        · exact h
        · rename_i hx
          refine Memory.wf_cons.mpr ⟨hx, ?_, h⟩
          intro c hc
          rcases List.mem_cons.mp hc with rfl | hc
          · exact hlt
          · exact Nat.lt_trans hlt (hab c hc)
      · rename_i hne hnl
        exact Memory.wf_cons.mpr ⟨hv, Memory.above_set hab (by omega) x, ih ht⟩

theorem Memory.wf_setBytes {m : List Host.Cell} (h : Memory.wf m = true) (a : Nat) (bs : List Byte) :
    Memory.wf (Memory.setBytes m a bs) = true := by
  induction bs generalizing m a with
  | nil => exact h
  | cons x xs ih => exact ih (Memory.wf_set h a x) (a + 1)

/-- Leaving addresses out keeps the canonical form. -/
theorem Memory.wf_filter {m : List Host.Cell} (h : Memory.wf m = true) (p : Host.Cell → Bool) :
    Memory.wf (m.filter p) = true := by
  induction m with
  | nil => exact h
  | cons c t ih =>
    rcases c with ⟨b, v⟩
    obtain ⟨hv, hab, ht⟩ := Memory.wf_cons.mp h
    simp only [List.filter]
    split
    · exact Memory.wf_cons.mpr ⟨hv, fun c hc => hab c (List.mem_filter.mp hc).1, ih ht⟩
    · exact ih ht

/-- The canonical form, said of the whole list at once. -/
theorem Memory.wf_iff {m : List Host.Cell} :
    Memory.wf m = true ↔ m.Pairwise (fun c d => c.1 < d.1) ∧ ∀ c ∈ m, c.2 ≠ unlistedByte := by
  induction m with
  | nil => simp [Memory.wf]
  | cons c t ih =>
    rcases c with ⟨a, v⟩
    rw [Memory.wf_cons, ih, List.pairwise_cons]
    simp only [List.mem_cons, forall_eq_or_imp]
    exact ⟨fun ⟨h1, h2, h3, h4⟩ => ⟨⟨h2, h3⟩, h1, h4⟩, fun ⟨⟨h2, h3⟩, h1, h4⟩ => ⟨h1, h2, h3, h4⟩⟩

/-- Bytes put in place of a range keep the canonical form. -/
theorem Memory.wf_splice {m : List Host.Cell} (h : Memory.wf m = true) (a : Nat) (bs : List Byte) :
    Memory.wf (Memory.splice m a bs) = true := by
  obtain ⟨hp, hv⟩ := Memory.wf_iff.mp h
  have mid : ∀ c ∈ (((List.range bs.length).zip bs).filter fun p => p.2 != unlistedByte).map (fun p => (a + p.1, p.2)),
      a ≤ c.1 ∧ c.1 < a + bs.length ∧ c.2 ≠ unlistedByte := by
    intro c hc
    obtain ⟨p, hm, rfl⟩ := List.mem_map.mp hc
    obtain ⟨hz, hn⟩ := List.mem_filter.mp hm
    have := List.mem_range.mp (List.of_mem_zip hz).1
    exact ⟨by simp, by simp only; omega, by simpa using hn⟩
  have rising : (((List.range bs.length).zip bs).filter fun p => p.2 != unlistedByte).Pairwise
      (fun c d => c.1 < d.1) := by
    apply List.Pairwise.filter
    have hr : ((List.range bs.length).zip bs).map Prod.fst = List.range bs.length := by
      simp [List.map_fst_zip]
    have := List.pairwise_lt_range (n := bs.length)
    rw [← hr, List.pairwise_map] at this
    exact this
  refine Memory.wf_iff.mpr ⟨?_, ?_⟩
  · refine List.pairwise_append.mpr ⟨List.pairwise_append.mpr ⟨hp.filter _, ?_, ?_⟩, hp.filter _, ?_⟩
    · rw [List.pairwise_map]
      exact rising.imp fun hlt => by simpa using hlt
    · intro c hc d hd
      have h1 : c.1 < a := by simpa using (List.mem_filter.mp hc).2
      exact Nat.lt_of_lt_of_le h1 (mid d hd).1
    · intro c hc d hd
      have h2 : a + bs.length ≤ d.1 := by simpa using (List.mem_filter.mp hd).2
      rcases List.mem_append.mp hc with hc | hc
      · have h1 : c.1 < a := by simpa using (List.mem_filter.mp hc).2
        omega
      · exact Nat.lt_of_lt_of_le (mid c hc).2.1 h2
  · intro c hc
    rcases List.mem_append.mp hc with hc | hc
    · rcases List.mem_append.mp hc with hc | hc
      · exact hv c (List.mem_filter.mp hc).1
      · exact (mid c hc).2.2
    · exact hv c (List.mem_filter.mp hc).1

/-- A byte reads back what was written to it. -/
theorem Memory.get_set_same {m : List Host.Cell} (h : Memory.wf m = true) (a : Nat) (x : Byte) :
    Memory.get (Memory.set m a x) a = x := by
  induction m with
  | nil => by_cases e : x = unlistedByte <;> simp [Memory.set, e, Memory.get]
  | cons p t ih =>
    rcases p with ⟨b, v⟩
    obtain ⟨hv, hab, ht⟩ := Memory.wf_cons.mp h
    simp only [Memory.set]
    split
    · rename_i hba; subst hba
      split
      · rename_i hx; rw [Memory.get_above hab (Nat.le_refl _), hx]
      · simp [Memory.get]
    · rename_i hne
      split
      · rename_i hlt
        split
        · rename_i hx; simp [Memory.get, hne, hlt, hx]
        · simp [Memory.get]
      · rename_i hnl
        simp [Memory.get, hne, hnl, ih ht]

/-- A write leaves every other byte as it was. -/
theorem Memory.get_set_ne {m : List Host.Cell} (h : Memory.wf m = true) {a y : Nat} (x : Byte) (hy : y ≠ a) :
    Memory.get (Memory.set m a x) y = Memory.get m y := by
  induction m with
  | nil => by_cases e : x = unlistedByte <;> simp [Memory.set, e, Memory.get, Ne.symm hy]
  | cons p t ih =>
    rcases p with ⟨b, v⟩
    obtain ⟨hv, hab, ht⟩ := Memory.wf_cons.mp h
    simp only [Memory.set]
    split
    · rename_i hba; subst hba
      split
      · simp only [Memory.get, Ne.symm hy, if_false]
        split
        · rename_i hlt; exact Memory.get_above hab (Nat.le_of_lt hlt)
        · rfl
      · simp [Memory.get, Ne.symm hy]
    · rename_i hne
      split
      · rename_i hlt
        split
        · rfl
        · simp only [Memory.get, Ne.symm hy, if_false]
          by_cases hya : y < a
          · simp [hya, show ¬ b = y by omega, show y < b by omega]
          · simp [hya]
      · simp only [Memory.get, ih ht]

/-- Bytes written elsewhere leave a byte as it was. -/
theorem Memory.get_setBytes_out {m : List Host.Cell} (h : Memory.wf m = true) (a : Nat) (bs : List Byte) {y : Nat}
    (hy : y < a ∨ a + bs.length ≤ y) : Memory.get (Memory.setBytes m a bs) y = Memory.get m y := by
  induction bs generalizing m a with
  | nil => rfl
  | cons x xs ih =>
    simp only [List.length_cons] at hy
    simp only [Memory.setBytes]
    rw [ih (Memory.wf_set h a x) (a + 1) (by omega), Memory.get_set_ne h x (by omega)]

/-- Bytes read back as they were written. -/
theorem Memory.get_setBytes_in {m : List Host.Cell} (h : Memory.wf m = true) (a : Nat) (bs : List Byte) {i : Nat}
    (hi : i < bs.length) : Memory.get (Memory.setBytes m a bs) (a + i) = bs[i] := by
  induction bs generalizing m a i with
  | nil => simp at hi
  | cons x xs ih =>
    simp only [Memory.setBytes]
    cases i with
    | zero =>
      rw [Nat.add_zero, Memory.get_setBytes_out (Memory.wf_set h a x) (a + 1) xs (by omega)]
      exact Memory.get_set_same h a x
    | succ i =>
      rw [show a + (i + 1) = a + 1 + i by omega]
      simpa using ih (Memory.wf_set h a x) (a + 1) (by simpa using hi)

/-- A byte after a write, outside what is written. -/
theorem State.byteAt_putBytes_out (s : State) (h : Memory.wf s.store.mem = true) (a : Nat) (bs : List Byte) {y : Nat}
    (hy : y < a ∨ a + bs.length ≤ y) : (s.putBytes a bs).byteAt y = s.byteAt y := Memory.get_setBytes_out h a bs hy
/-- A byte after a write, inside what is written. -/
theorem State.byteAt_putBytes_in (s : State) (h : Memory.wf s.store.mem = true) (a : Nat) (bs : List Byte) {i : Nat}
    (hi : i < bs.length) : (s.putBytes a bs).byteAt (a + i) = bs[i] := Memory.get_setBytes_in h a bs hi
/-- A write keeps the canonical form. -/
theorem State.wf_putBytes (s : State) (h : Memory.wf s.store.mem = true) (a : Nat) (bs : List Byte) :
    Memory.wf (s.putBytes a bs).store.mem = true := Memory.wf_setBytes h a bs

theorem leBytes_length (n x : Nat) : (leBytes n x).length = n := by
  induction n generalizing x with
  | zero => rfl
  | succ n ih => simp [leBytes, ih]

end Sys2Proof.Machine
end

