-- ==== Sys2Proof/Laws/PerInstr.lean ====
section
/-!
SUPPORT. The family RoundTrip, one lemma per constructor of Instr: decoding the fields that the encoder writes for a
well-formed instruction answers that instruction, or, for the rows that share an encoding, the first of them (log 5).
Events have no encoding.
-/
-- One proof after another: hundreds of small proofs at once would need a thread each.
set_option Elab.async false

namespace Sys2Proof.Laws.RoundTrip
open Sys2Proof

/-- The fields of a well-formed instruction decode to it. -/
def Statement (i : Instr) : Prop :=
  i.wellFormed = true → ∀ f, encodeFields i = some f → decodeFields f = .ok i.canon

theorem nop : Statement .nop := by
  intro hw f h
  obtain rfl := Option.some.inj h
  simp [decodeFields, decode0X, chk, formN, only, unusedZero, Instr.canon, hw, Nat.testBit]

theorem br (disp : BitVec 40) : Statement (.br disp) := by
  intro hw f h
  obtain rfl := Option.some.inj h
  simp [decodeFields, decode0X, formW0, unusedZero, useI, Instr.canon, Nat.testBit]

theorem brCond (c : Cond) (a b : GReg) (disp : BitVec 40) : Statement (.brCond c a b disp) := by
  intro hw f h
  obtain rfl := Option.some.inj h
  simp [decodeFields, decode0X, formCond, unusedZero, useA, useB, useI, Instr.canon, Nat.testBit]

theorem call (disp : BitVec 40) : Statement (.call disp) := by
  intro hw f h
  obtain rfl := Option.some.inj h
  simp [decodeFields, decode0X, chk, formN, only, unusedZero, useI, Instr.canon, hw, Nat.testBit]

theorem callr (a : GReg) : Statement (.callr a) := by
  intro hw f h
  obtain rfl := Option.some.inj h
  simp [decodeFields, decode0X, chk, formN, only, unusedZero, useA, Instr.canon, hw, Nat.testBit]

theorem jr (a : GReg) : Statement (.jr a) := by
  intro hw f h
  obtain rfl := Option.some.inj h
  simp [decodeFields, decode0X, chk, formN, only, unusedZero, useA, Instr.canon, hw, Nat.testBit]

theorem loop (c : GReg) (disp : BitVec 40) : Statement (.loop c disp) := by
  intro hw f h
  obtain rfl := Option.some.inj h
  simp [decodeFields, decode0X, chk, formLoop, formN, only, unusedZero, useD, useA, useI, Instr.canon, hw, Nat.testBit]

theorem spawnMark (j a b : GReg) (disp : BitVec 40) : Statement (.spawnMark j a b disp) := by
  intro hw f h
  obtain rfl := Option.some.inj h
  simp [decodeFields, decode0X, chk, formN, unusedZero, useA, useB, useC, useI, Instr.canon, hw, Nat.testBit]

theorem spawnReg (p j a b : GReg) : Statement (.spawnReg p j a b) := by
  intro hw f h
  obtain rfl := Option.some.inj h
  simp [decodeFields, decode0X, chk, formN, unusedZero, useD, useA, useB, useC, Instr.canon, hw, Nat.testBit]

theorem jinit (b : GReg) (n : BitVec 40) : Statement (.jinit b n) := by
  intro hw f h
  obtain rfl := Option.some.inj h
  simp [decodeFields, decode0X, chk, formN, only, unusedZero, useA, useI, Instr.canon, hw, Nat.testBit]

theorem join (b : GReg) (off : BitVec 40) : Statement (.join b off) := by
  intro hw f h
  obtain rfl := Option.some.inj h
  simp [decodeFields, decode0X, chk, formN, only, unusedZero, useA, useI, Instr.canon, hw, Nat.testBit]

theorem done : Statement .done := by
  intro hw f h
  obtain rfl := Option.some.inj h
  simp [decodeFields, decode0X, chk, formN, only, unusedZero, Instr.canon, hw, Nat.testBit]

theorem start (a : GReg) : Statement (.start a) := by
  intro hw f h
  obtain rfl := Option.some.inj h
  simp [decodeFields, decode0X, chk, formN, unusedZero, useA, Instr.canon, hw, Nat.testBit]

theorem startPool (a : GReg) : Statement (.startPool a) := by
  intro hw f h
  obtain rfl := Option.some.inj h
  simp [decodeFields, decode0X, chk, formN, unusedZero, useA, Instr.canon, hw, Nat.testBit]

theorem reap (a : GReg) : Statement (.reap a) := by
  intro hw f h
  obtain rfl := Option.some.inj h
  simp [decodeFields, decode0X, chk, formN, only, unusedZero, useA, Instr.canon, hw, Nat.testBit]

theorem yield : Statement .yield := by
  intro hw f h
  obtain rfl := Option.some.inj h
  simp [decodeFields, decode0X, chk, formN, only, unusedZero, Instr.canon, hw, Nat.testBit]

theorem add (w : Bool) (d a b : GReg) : Statement (.add w d a b) := by
  intro hw f h
  obtain rfl := Option.some.inj h
  simp [decodeFields, decode1X, formW3, wOf, unusedZero, useD, useA, useB, Instr.canon, Nat.testBit]

theorem sub (w : Bool) (d a b : GReg) : Statement (.sub w d a b) := by
  intro hw f h
  obtain rfl := Option.some.inj h
  simp [decodeFields, decode1X, formW3, wOf, unusedZero, useD, useA, useB, Instr.canon, Nat.testBit]

theorem and (w : Bool) (d a b : GReg) : Statement (.and w d a b) := by
  intro hw f h
  obtain rfl := Option.some.inj h
  simp [decodeFields, decode1X, formW3, wOf, unusedZero, useD, useA, useB, Instr.canon, Nat.testBit]

theorem or (w : Bool) (d a b : GReg) : Statement (.or w d a b) := by
  intro hw f h
  obtain rfl := Option.some.inj h
  simp [decodeFields, decode1X, formW3, wOf, unusedZero, useD, useA, useB, Instr.canon, Nat.testBit]

theorem xor (w : Bool) (d a b : GReg) : Statement (.xor w d a b) := by
  intro hw f h
  obtain rfl := Option.some.inj h
  simp [decodeFields, decode1X, formW3, wOf, unusedZero, useD, useA, useB, Instr.canon, Nat.testBit]

theorem addi (w : Bool) (d a : GReg) (imm : BitVec 40) : Statement (.addi w d a imm) := by
  intro hw f h
  obtain rfl := Option.some.inj h
  simp [decodeFields, decode1X, chk, formWI, wOf, unusedZero, useD, useA, useI, Instr.canon, hw, Nat.testBit]

theorem subi (w : Bool) (d a : GReg) (imm : BitVec 40) : Statement (.subi w d a imm) := by
  intro hw f h
  obtain rfl := Option.some.inj h
  simp [decodeFields, decode1X, chk, formWI, wOf, unusedZero, useD, useA, useI, Instr.canon, hw, Nat.testBit]

theorem andi (w : Bool) (d a : GReg) (imm : BitVec 40) : Statement (.andi w d a imm) := by
  intro hw f h
  obtain rfl := Option.some.inj h
  simp [decodeFields, decode1X, chk, formWI, wOf, unusedZero, useD, useA, useI, Instr.canon, hw, Nat.testBit]

theorem ori (w : Bool) (d a : GReg) (imm : BitVec 40) : Statement (.ori w d a imm) := by
  intro hw f h
  obtain rfl := Option.some.inj h
  simp [decodeFields, decode1X, chk, formWI, wOf, unusedZero, useD, useA, useI, Instr.canon, hw, Nat.testBit]

theorem xori (w : Bool) (d a : GReg) (imm : BitVec 40) : Statement (.xori w d a imm) := by
  intro hw f h
  obtain rfl := Option.some.inj h
  simp [decodeFields, decode1X, chk, formWI, wOf, unusedZero, useD, useA, useI, Instr.canon, hw, Nat.testBit]

theorem andn (w : Bool) (d a b : GReg) : Statement (.andn w d a b) := by
  intro hw f h
  obtain rfl := Option.some.inj h
  simp [decodeFields, decode1X, formW3, only, wOf, unusedZero, useD, useA, useB, Instr.canon, Nat.testBit]

theorem shl (w : Bool) (d a b : GReg) : Statement (.shl w d a b) := by
  intro hw f h
  obtain rfl := Option.some.inj h
  simp [decodeFields, decode1X, formW3, wOf, unusedZero, useD, useA, useB, Instr.canon, Nat.testBit]

theorem shr (w : Bool) (d a b : GReg) : Statement (.shr w d a b) := by
  intro hw f h
  obtain rfl := Option.some.inj h
  simp [decodeFields, decode1X, formW3, wOf, unusedZero, useD, useA, useB, Instr.canon, Nat.testBit]

theorem sra (w : Bool) (d a b : GReg) : Statement (.sra w d a b) := by
  intro hw f h
  obtain rfl := Option.some.inj h
  simp [decodeFields, decode1X, formW3, wOf, unusedZero, useD, useA, useB, Instr.canon, Nat.testBit]

theorem rol (w : Bool) (d a b : GReg) : Statement (.rol w d a b) := by
  intro hw f h
  obtain rfl := Option.some.inj h
  simp [decodeFields, decode1X, formW3, wOf, unusedZero, useD, useA, useB, Instr.canon, Nat.testBit]

theorem ror (w : Bool) (d a b : GReg) : Statement (.ror w d a b) := by
  intro hw f h
  obtain rfl := Option.some.inj h
  simp [decodeFields, decode1X, formW3, wOf, unusedZero, useD, useA, useB, Instr.canon, Nat.testBit]

theorem shli (w : Bool) (d a : GReg) (n : Fin 64) : Statement (.shli w d a n) := by
  intro hw f h
  obtain rfl := Option.some.inj h
  simp [decodeFields, decode1X, chk, formWS, wOf, unusedZero, useD, useA, useI, Instr.canon, hw, Nat.testBit]

theorem shri (w : Bool) (d a : GReg) (n : Fin 64) : Statement (.shri w d a n) := by
  intro hw f h
  obtain rfl := Option.some.inj h
  simp [decodeFields, decode1X, chk, formWS, wOf, unusedZero, useD, useA, useI, Instr.canon, hw, Nat.testBit]

theorem srai (w : Bool) (d a : GReg) (n : Fin 64) : Statement (.srai w d a n) := by
  intro hw f h
  obtain rfl := Option.some.inj h
  simp [decodeFields, decode1X, chk, formWS, wOf, unusedZero, useD, useA, useI, Instr.canon, hw, Nat.testBit]

theorem roli (w : Bool) (d a : GReg) (n : Fin 64) : Statement (.roli w d a n) := by
  intro hw f h
  obtain rfl := Option.some.inj h
  simp [decodeFields, decode1X, chk, formWS, wOf, unusedZero, useD, useA, useI, Instr.canon, hw, Nat.testBit]

theorem rori (w : Bool) (d a : GReg) (n : Fin 64) : Statement (.rori w d a n) := by
  intro hw f h
  obtain rfl := Option.some.inj h
  simp [decodeFields, decode1X, chk, formWS, wOf, unusedZero, useD, useA, useI, Instr.canon, hw, Nat.testBit]

theorem funl (w : Bool) (d a b c : GReg) : Statement (.funl w d a b c) := by
  intro hw f h
  obtain rfl := Option.some.inj h
  simp [decodeFields, decode1X, formW4, only, wOf, unusedZero, useD, useA, useB, useC, Instr.canon, Nat.testBit]

theorem funr (w : Bool) (d a b c : GReg) : Statement (.funr w d a b c) := by
  intro hw f h
  obtain rfl := Option.some.inj h
  simp [decodeFields, decode1X, formW4, only, wOf, unusedZero, useD, useA, useB, useC, Instr.canon, Nat.testBit]

theorem mul (w : Bool) (d a b : GReg) : Statement (.mul w d a b) := by
  intro hw f h
  obtain rfl := Option.some.inj h
  simp [decodeFields, decode1X, formW3, only, wOf, unusedZero, useD, useA, useB, Instr.canon, Nat.testBit]

theorem mulh (w : Bool) (d a b : GReg) : Statement (.mulh w d a b) := by
  intro hw f h
  obtain rfl := Option.some.inj h
  simp [decodeFields, decode1X, formW3, only, wOf, unusedZero, useD, useA, useB, Instr.canon, Nat.testBit]

theorem mulhu (w : Bool) (d a b : GReg) : Statement (.mulhu w d a b) := by
  intro hw f h
  obtain rfl := Option.some.inj h
  simp [decodeFields, decode1X, formW3, only, wOf, unusedZero, useD, useA, useB, Instr.canon, Nat.testBit]

theorem div (w : Bool) (d a b : GReg) : Statement (.div w d a b) := by
  intro hw f h
  obtain rfl := Option.some.inj h
  simp [decodeFields, decode2X, formW3, only, wOf, unusedZero, useD, useA, useB, Instr.canon, Nat.testBit]

theorem divu (w : Bool) (d a b : GReg) : Statement (.divu w d a b) := by
  intro hw f h
  obtain rfl := Option.some.inj h
  simp [decodeFields, decode2X, formW3, only, wOf, unusedZero, useD, useA, useB, Instr.canon, Nat.testBit]

theorem rem (w : Bool) (d a b : GReg) : Statement (.rem w d a b) := by
  intro hw f h
  obtain rfl := Option.some.inj h
  simp [decodeFields, decode2X, formW3, only, wOf, unusedZero, useD, useA, useB, Instr.canon, Nat.testBit]

theorem remu (w : Bool) (d a b : GReg) : Statement (.remu w d a b) := by
  intro hw f h
  obtain rfl := Option.some.inj h
  simp [decodeFields, decode2X, formW3, only, wOf, unusedZero, useD, useA, useB, Instr.canon, Nat.testBit]

theorem max (w : Bool) (d a b : GReg) : Statement (.max w d a b) := by
  intro hw f h
  obtain rfl := Option.some.inj h
  simp [decodeFields, decode2X, formW3, wOf, unusedZero, useD, useA, useB, Instr.canon, Nat.testBit]

theorem min (w : Bool) (d a b : GReg) : Statement (.min w d a b) := by
  intro hw f h
  obtain rfl := Option.some.inj h
  simp [decodeFields, decode2X, formW3, wOf, unusedZero, useD, useA, useB, Instr.canon, Nat.testBit]

theorem maxu (w : Bool) (d a b : GReg) : Statement (.maxu w d a b) := by
  intro hw f h
  obtain rfl := Option.some.inj h
  simp [decodeFields, decode2X, formW3, wOf, unusedZero, useD, useA, useB, Instr.canon, Nat.testBit]

theorem minu (w : Bool) (d a b : GReg) : Statement (.minu w d a b) := by
  intro hw f h
  obtain rfl := Option.some.inj h
  simp [decodeFields, decode2X, formW3, wOf, unusedZero, useD, useA, useB, Instr.canon, Nat.testBit]

theorem clz (w : Bool) (d a : GReg) : Statement (.clz w d a) := by
  intro hw f h
  obtain rfl := Option.some.inj h
  simp [decodeFields, decode2X, formW2, wOf, unusedZero, useD, useA, Instr.canon, Nat.testBit]

theorem ctz (w : Bool) (d a : GReg) : Statement (.ctz w d a) := by
  intro hw f h
  obtain rfl := Option.some.inj h
  simp [decodeFields, decode2X, formW2, wOf, unusedZero, useD, useA, Instr.canon, Nat.testBit]

theorem popc (w : Bool) (d a : GReg) : Statement (.popc w d a) := by
  intro hw f h
  obtain rfl := Option.some.inj h
  simp [decodeFields, decode2X, formW2, wOf, unusedZero, useD, useA, Instr.canon, Nat.testBit]

theorem brev (w : Bool) (d a : GReg) : Statement (.brev w d a) := by
  intro hw f h
  obtain rfl := Option.some.inj h
  simp [decodeFields, decode2X, formW2, wOf, unusedZero, useD, useA, Instr.canon, Nat.testBit]

theorem bswap (w : Bool) (d a : GReg) : Statement (.bswap w d a) := by
  intro hw f h
  obtain rfl := Option.some.inj h
  simp [decodeFields, decode2X, formW2, wOf, unusedZero, useD, useA, Instr.canon, Nat.testBit]

theorem ext (w : Bool) (d a : GReg) (pos len : Fin 64) : Statement (.ext w d a pos len) := by
  intro hw f h
  obtain rfl := Option.some.inj h
  simp [decodeFields, decode2X, chk, formField, wOf, unusedZero, useD, useA, useI, Instr.canon, hw, Nat.testBit]

theorem extz (w : Bool) (d a : GReg) (pos len : Fin 64) : Statement (.extz w d a pos len) := by
  intro hw f h
  obtain rfl := Option.some.inj h
  simp [decodeFields, decode2X, chk, formField, wOf, unusedZero, useD, useA, useI, Instr.canon, hw, Nat.testBit]

theorem ins (w : Bool) (d a : GReg) (pos len : Fin 64) : Statement (.ins w d a pos len) := by
  intro hw f h
  obtain rfl := Option.some.inj h
  simp [decodeFields, decode2X, chk, formField, wOf, unusedZero, useD, useA, useI, Instr.canon, hw, Nat.testBit]

theorem cmp (w : Bool) (c : Cond) (d a b : GReg) : Statement (.cmp w c d a b) := by
  intro hw f h
  obtain rfl := Option.some.inj h
  simp [decodeFields, decode2X, formCmp, only, unusedZero, useD, useA, useB, Instr.canon, Nat.testBit]

theorem sel (w : Bool) (d c a b : GReg) : Statement (.sel w d c a b) := by
  intro hw f h
  obtain rfl := Option.some.inj h
  simp [decodeFields, decode2X, formW4, only, wOf, unusedZero, useD, useA, useB, useC, Instr.canon, Nat.testBit]

theorem li (d : GReg) (imm : BitVec 40) : Statement (.li d imm) := by
  intro hw f h
  obtain rfl := Option.some.inj h
  simp [decodeFields, decode2X, chk, formN, only, unusedZero, useD, useI, Instr.canon, hw, Nat.testBit]

theorem lih (d : GReg) (imm : BitVec 24) : Statement (.lih d imm) := by
  intro hw f h
  obtain rfl := Option.some.inj h
  simp [decodeFields, decode2X, chk, formLih, formN, only, unusedZero, useD, useI, Instr.canon, hw, Nat.testBit]

theorem lea (d : GReg) (m : MemOp) : Statement (.lea d m) := by
  intro hw f h
  obtain rfl := Option.some.inj h
  cases m <;> simp [decodeFields, decode2X, cZero, formA, formLea, memOf, only, Instr.canon, MemOp.baseEnc, MemOp.idxEnc, MemOp.immEnc, MemOp.amod]

theorem assume (d : GReg) (n : Fin 64) : Statement (.assume d n) := by
  intro hw f h
  obtain rfl := Option.some.inj h
  simp [decodeFields, decode3X, chk, formN, formSmall, only, unusedZero, useD, useI, Instr.canon, hw, Nat.testBit]

theorem lunion (d a b : GReg) : Statement (.lunion d a b) := by
  intro hw f h
  obtain rfl := Option.some.inj h
  simp [decodeFields, decode3X, chk, formN, only, unusedZero, useD, useA, useB, Instr.canon, hw, Nat.testBit]

theorem nogood (t a : GReg) : Statement (.nogood t a) := by
  intro hw f h
  obtain rfl := Option.some.inj h
  simp [decodeFields, decode3X, chk, formN, only, unusedZero, useD, useA, Instr.canon, hw, Nat.testBit]

theorem lget (d a : GReg) : Statement (.lget d a) := by
  intro hw f h
  obtain rfl := Option.some.inj h
  simp [decodeFields, decode3X, chk, formN, unusedZero, useD, useA, Instr.canon, hw, Nat.testBit]

theorem lset (d a b : GReg) : Statement (.lset d a b) := by
  intro hw f h
  obtain rfl := Option.some.inj h
  simp [decodeFields, decode3X, chk, formN, unusedZero, useD, useA, useB, Instr.canon, hw, Nat.testBit]

theorem lclr (d : GReg) : Statement (.lclr d) := by
  intro hw f h
  obtain rfl := Option.some.inj h
  simp [decodeFields, decode3X, chk, formN, unusedZero, useD, Instr.canon, hw, Nat.testBit]

theorem ltest (d a : GReg) : Statement (.ltest d a) := by
  intro hw f h
  obtain rfl := Option.some.inj h
  simp [decodeFields, decode3X, chk, formN, unusedZero, useD, useA, Instr.canon, hw, Nat.testBit]

theorem lcount (d a : GReg) : Statement (.lcount d a) := by
  intro hw f h
  obtain rfl := Option.some.inj h
  simp [decodeFields, decode3X, chk, formN, unusedZero, useD, useA, Instr.canon, hw, Nat.testBit]

theorem lenvget (d a b : GReg) : Statement (.lenvget d a b) := by
  intro hw f h
  obtain rfl := Option.some.inj h
  simp [decodeFields, decode3X, chk, formN, only, unusedZero, useD, useA, useB, Instr.canon, hw, Nat.testBit]

theorem lwin (a : GReg) : Statement (.lwin a) := by
  intro hw f h
  obtain rfl := Option.some.inj h
  simp [decodeFields, decode3X, chk, formN, only, unusedZero, useA, Instr.canon, hw, Nat.testBit]

theorem lflush : Statement .lflush := by
  intro hw f h
  obtain rfl := Option.some.inj h
  simp [decodeFields, decode3X, chk, formN, only, unusedZero, Instr.canon, hw, Nat.testBit]

theorem ld (sz : Size) (acq : Option Scope) (xp : Bool) (d : GReg) (m : MemOp) : Statement (.ld sz acq xp d m) := by
  intro hw f h
  obtain rfl := Option.some.inj h
  cases m <;> simp [decodeFields, decode3X, cZero, formA, formLoad, memOf, only, Instr.canon, MemOp.baseEnc, MemOp.idxEnc, MemOp.immEnc, MemOp.amod]

theorem ldz (sz : Size) (acq : Option Scope) (xp : Bool) (d : GReg) (m : MemOp) : Statement (.ldz sz acq xp d m) := by
  intro hw f h
  obtain rfl := Option.some.inj h
  cases m <;> simp [decodeFields, decode3X, cZero, formA, formLoad, memOf, only, Instr.canon, MemOp.baseEnc, MemOp.idxEnc, MemOp.immEnc, MemOp.amod]

theorem st (sz : Size) (ord : StOrd) (a : GReg) (m : MemOp) : Statement (.st sz ord a m) := by
  intro hw f h
  obtain rfl := Option.some.inj h
  cases m <;> cases ord <;> simp [decodeFields, decode3X, cZero, formA, formStore, memOf, only, Instr.canon, MemOp.baseEnc, MemOp.idxEnc, MemOp.immEnc, MemOp.amod, stOrd, stPost, relOf]

theorem lds (sz : SizeWD) (d : GReg) (m : MemOp) : Statement (.lds sz d m) := by
  intro hw f h
  obtain rfl := Option.some.inj h
  cases m <;> simp [decodeFields, decode3X, cZero, formA, formSync, memOf, only, plainA, Instr.canon, MemOp.baseEnc, MemOp.idxEnc, MemOp.immEnc, MemOp.amod]

theorem sts (sz : SizeWD) (a : GReg) (m : MemOp) : Statement (.sts sz a m) := by
  intro hw f h
  obtain rfl := Option.some.inj h
  cases m <;> simp [decodeFields, decode3X, cZero, formA, formSync, memOf, only, plainA, Instr.canon, MemOp.baseEnc, MemOp.idxEnc, MemOp.immEnc, MemOp.amod]

theorem ldf (sz : SizeWD) (d : GReg) (m : MemOp) : Statement (.ldf sz d m) := by
  intro hw f h
  obtain rfl := Option.some.inj h
  cases m <;> simp [decodeFields, decode3X, cZero, formA, formSync, memOf, only, plainA, Instr.canon, MemOp.baseEnc, MemOp.idxEnc, MemOp.immEnc, MemOp.amod]

theorem stf (sz : SizeWD) (a : GReg) (m : MemOp) : Statement (.stf sz a m) := by
  intro hw f h
  obtain rfl := Option.some.inj h
  cases m <;> simp [decodeFields, decode3X, cZero, formA, formSync, memOf, only, plainA, Instr.canon, MemOp.baseEnc, MemOp.idxEnc, MemOp.immEnc, MemOp.amod]

theorem feclr (m : MemOp) : Statement (.feclr m) := by
  intro hw f h
  obtain rfl := Option.some.inj h
  cases m <;> simp [decodeFields, decode3X, cZero, formA, formFeclr, memOf, only, plainA, Instr.canon, MemOp.baseEnc, MemOp.idxEnc, MemOp.immEnc, MemOp.amod]

theorem fld (sz : SizeWD) (acq : Option Scope) (d : FReg) (m : MemOp) : Statement (.fld sz acq d m) := by
  intro hw f h
  obtain rfl := Option.some.inj h
  cases m <;> simp [decodeFields, decode4X, cZero, formA, formFld, memOf, only, Instr.canon, MemOp.baseEnc, MemOp.idxEnc, MemOp.immEnc, MemOp.amod]

theorem fst (sz : SizeWD) (rel : Option Scope) (a : FReg) (m : MemOp) : Statement (.fst sz rel a m) := by
  intro hw f h
  obtain rfl := Option.some.inj h
  cases m <;> simp [decodeFields, decode4X, cZero, formA, formFst, memOf, only, Instr.canon, MemOp.baseEnc, MemOp.idxEnc, MemOp.immEnc, MemOp.amod]

theorem fence (s : Scope) : Statement (.fence s) := by
  intro hw f h
  obtain rfl := Option.some.inj h
  simp [decodeFields, decode4X, bareA, formFence, unusedZero, Instr.canon, Nat.testBit]

theorem fenceX (p1 p2 : Path) : Statement (.fenceX p1 p2) := by
  intro hw f h
  obtain rfl := Option.some.inj h
  simp [decodeFields, decode4X, bareA, chk, formFenceX, plainA, unusedZero, useI, Instr.canon, hw, Nat.testBit]

theorem aadd (sz : SizeWD) (o : AtOrd) (d base : GReg) (off : BitVec 40) (a : GReg) : Statement (.aadd sz o d base off a) := by
  intro hw f h
  obtain rfl := Option.some.inj h
  simp [decodeFields, decode5X, bareA, cZero, formAtom, only, Instr.canon]

theorem aand (sz : SizeWD) (o : AtOrd) (d base : GReg) (off : BitVec 40) (a : GReg) : Statement (.aand sz o d base off a) := by
  intro hw f h
  obtain rfl := Option.some.inj h
  simp [decodeFields, decode5X, bareA, cZero, formAtom, only, Instr.canon]

theorem aor (sz : SizeWD) (o : AtOrd) (d base : GReg) (off : BitVec 40) (a : GReg) : Statement (.aor sz o d base off a) := by
  intro hw f h
  obtain rfl := Option.some.inj h
  simp [decodeFields, decode5X, bareA, cZero, formAtom, only, Instr.canon]

theorem axor (sz : SizeWD) (o : AtOrd) (d base : GReg) (off : BitVec 40) (a : GReg) : Statement (.axor sz o d base off a) := by
  intro hw f h
  obtain rfl := Option.some.inj h
  simp [decodeFields, decode5X, bareA, cZero, formAtom, only, Instr.canon]

theorem amin (sz : SizeWD) (o : AtOrd) (d base : GReg) (off : BitVec 40) (a : GReg) : Statement (.amin sz o d base off a) := by
  intro hw f h
  obtain rfl := Option.some.inj h
  simp [decodeFields, decode5X, bareA, cZero, formAtom, only, Instr.canon]

theorem amax (sz : SizeWD) (o : AtOrd) (d base : GReg) (off : BitVec 40) (a : GReg) : Statement (.amax sz o d base off a) := by
  intro hw f h
  obtain rfl := Option.some.inj h
  simp [decodeFields, decode5X, bareA, cZero, formAtom, only, Instr.canon]

theorem aminu (sz : SizeWD) (o : AtOrd) (d base : GReg) (off : BitVec 40) (a : GReg) : Statement (.aminu sz o d base off a) := by
  intro hw f h
  obtain rfl := Option.some.inj h
  simp [decodeFields, decode5X, bareA, cZero, formAtom, only, Instr.canon]

theorem amaxu (sz : SizeWD) (o : AtOrd) (d base : GReg) (off : BitVec 40) (a : GReg) : Statement (.amaxu sz o d base off a) := by
  intro hw f h
  obtain rfl := Option.some.inj h
  simp [decodeFields, decode5X, bareA, cZero, formAtom, only, Instr.canon]

theorem aswap (sz : SizeWD) (o : AtOrd) (d base : GReg) (off : BitVec 40) (a : GReg) : Statement (.aswap sz o d base off a) := by
  intro hw f h
  obtain rfl := Option.some.inj h
  simp [decodeFields, decode5X, bareA, cZero, formAtom, only, Instr.canon]

theorem aaddPost (sz : SizeWD) (base : GReg) (off : BitVec 40) (a : GReg) : Statement (.aaddPost sz base off a) := by
  intro hw f h
  obtain rfl := Option.some.inj h
  simp [decodeFields, decode5X, bareA, cZero, formAtom, only, Instr.canon, atOf]

theorem aandPost (sz : SizeWD) (base : GReg) (off : BitVec 40) (a : GReg) : Statement (.aandPost sz base off a) := by
  intro hw f h
  obtain rfl := Option.some.inj h
  simp [decodeFields, decode5X, bareA, cZero, formAtom, only, Instr.canon, atOf]

theorem aorPost (sz : SizeWD) (base : GReg) (off : BitVec 40) (a : GReg) : Statement (.aorPost sz base off a) := by
  intro hw f h
  obtain rfl := Option.some.inj h
  simp [decodeFields, decode5X, bareA, cZero, formAtom, only, Instr.canon, atOf]

theorem axorPost (sz : SizeWD) (base : GReg) (off : BitVec 40) (a : GReg) : Statement (.axorPost sz base off a) := by
  intro hw f h
  obtain rfl := Option.some.inj h
  simp [decodeFields, decode5X, bareA, cZero, formAtom, only, Instr.canon, atOf]

theorem aminPost (sz : SizeWD) (base : GReg) (off : BitVec 40) (a : GReg) : Statement (.aminPost sz base off a) := by
  intro hw f h
  obtain rfl := Option.some.inj h
  simp [decodeFields, decode5X, bareA, cZero, formAtom, only, Instr.canon, atOf]

theorem amaxPost (sz : SizeWD) (base : GReg) (off : BitVec 40) (a : GReg) : Statement (.amaxPost sz base off a) := by
  intro hw f h
  obtain rfl := Option.some.inj h
  simp [decodeFields, decode5X, bareA, cZero, formAtom, only, Instr.canon, atOf]

theorem aminuPost (sz : SizeWD) (base : GReg) (off : BitVec 40) (a : GReg) : Statement (.aminuPost sz base off a) := by
  intro hw f h
  obtain rfl := Option.some.inj h
  simp [decodeFields, decode5X, bareA, cZero, formAtom, only, Instr.canon, atOf]

theorem amaxuPost (sz : SizeWD) (base : GReg) (off : BitVec 40) (a : GReg) : Statement (.amaxuPost sz base off a) := by
  intro hw f h
  obtain rfl := Option.some.inj h
  simp [decodeFields, decode5X, bareA, cZero, formAtom, only, Instr.canon, atOf]

theorem aswapPost (sz : SizeWD) (base : GReg) (off : BitVec 40) (a : GReg) : Statement (.aswapPost sz base off a) := by
  intro hw f h
  obtain rfl := Option.some.inj h
  simp [decodeFields, decode5X, bareA, cZero, formAtom, only, Instr.canon, atOf]

theorem acas (sz : SizeWD) (o : AtOrd) (d base : GReg) (off : BitVec 40) (a c : GReg) : Statement (.acas sz o d base off a c) := by
  intro hw f h
  obtain rfl := Option.some.inj h
  simp [decodeFields, decode5X, bareA, formAcas, only, Instr.canon]

theorem afadd (sz : SizeWD) (o : AtOrd) (d : FReg) (base : GReg) (off : BitVec 40) (a : FReg) : Statement (.afadd sz o d base off a) := by
  intro hw f h
  obtain rfl := Option.some.inj h
  simp [decodeFields, decode5X, bareA, cZero, formAfadd, only, Instr.canon]

theorem afaddPost (sz : SizeWD) (base : GReg) (off : BitVec 40) (a : FReg) : Statement (.afaddPost sz base off a) := by
  intro hw f h
  obtain rfl := Option.some.inj h
  simp [decodeFields, decode5X, bareA, cZero, formAfadd, only, Instr.canon, atOf]

theorem migrate (base : GReg) (off : BitVec 40) : Statement (.migrate base off) := by
  intro hw f h
  obtain rfl := Option.some.inj h
  simp [decodeFields, decode5X, bareA, formMigrate, plainA, unusedZero, useA, useI, Instr.canon, Nat.testBit]

theorem mret : Statement .mret := by
  intro hw f h
  obtain rfl := Option.some.inj h
  simp [decodeFields, decode5X, chk, formN, unusedZero, Instr.canon, hw, Nat.testBit]

theorem gldInt (op : GldOp) (sz : SizeWD) (d : GReg) (m : MemOp) : Statement (.gldInt op sz d m) := by
  intro hw f h
  obtain rfl := Option.some.inj h
  cases m <;> cases op <;> simp [decodeFields, decode5X, cZero, formA, formGld, memOf, plainA, Instr.canon, MemOp.baseEnc, MemOp.idxEnc, MemOp.immEnc, MemOp.amod, GldOp.code]

theorem gldFloat (op : GldFOp) (sz : SizeWD) (d : FReg) (m : MemOp) : Statement (.gldFloat op sz d m) := by
  intro hw f h
  obtain rfl := Option.some.inj h
  cases m <;> cases op <;> simp [decodeFields, decode5X, cZero, formA, formGldF, memOf, plainA, Instr.canon, MemOp.baseEnc, MemOp.idxEnc, MemOp.immEnc, MemOp.amod, GldFOp.code]

theorem barinit (base : GReg) (off : BitVec 40) (a : GReg) : Statement (.barinit base off a) := by
  intro hw f h
  obtain rfl := Option.some.inj h
  simp [decodeFields, decode5X, chk, formN, unusedZero, useA, useB, useI, Instr.canon, hw, Nat.testBit]

theorem barinitAbort (base : GReg) (off : BitVec 40) : Statement (.barinitAbort base off) := by
  intro hw f h
  obtain rfl := Option.some.inj h
  simp [decodeFields, decode5X, chk, formN, unusedZero, useA, useI, Instr.canon, hw, Nat.testBit]

theorem bararr (base : GReg) (off : BitVec 40) : Statement (.bararr base off) := by
  intro hw f h
  obtain rfl := Option.some.inj h
  simp [decodeFields, decode5X, chk, formN, unusedZero, useA, useI, Instr.canon, hw, Nat.testBit]

theorem barwait (base : GReg) (off : BitVec 40) (p : GReg) : Statement (.barwait base off p) := by
  intro hw f h
  obtain rfl := Option.some.inj h
  simp [decodeFields, decode5X, chk, formN, unusedZero, useA, useB, useI, Instr.canon, hw, Nat.testBit]

theorem bartry (d base : GReg) (off : BitVec 40) (p : GReg) : Statement (.bartry d base off p) := by
  intro hw f h
  obtain rfl := Option.some.inj h
  simp [decodeFields, decode5X, chk, formN, unusedZero, useD, useA, useB, useI, Instr.canon, hw, Nat.testBit]

theorem fadd (t : FTy) (r : Rnd) (d a b : FReg) : Statement (.fadd t r d a b) := by
  intro hw f h
  obtain rfl := Option.some.inj h
  simp [decodeFields, decode6X, formF3, formFt, noOpt, noTb, only, unusedZero, useD, useA, useB, Instr.canon, Nat.testBit]

theorem fsub (t : FTy) (r : Rnd) (d a b : FReg) : Statement (.fsub t r d a b) := by
  intro hw f h
  obtain rfl := Option.some.inj h
  simp [decodeFields, decode6X, formF3, formFt, noOpt, noTb, only, unusedZero, useD, useA, useB, Instr.canon, Nat.testBit]

theorem fmul (t : FTy) (r : Rnd) (d a b : FReg) : Statement (.fmul t r d a b) := by
  intro hw f h
  obtain rfl := Option.some.inj h
  simp [decodeFields, decode6X, formF3, formFt, noOpt, noTb, only, unusedZero, useD, useA, useB, Instr.canon, Nat.testBit]

theorem fma (t : FTy) (r : Rnd) (d a b c : FReg) : Statement (.fma t r d a b c) := by
  intro hw f h
  obtain rfl := Option.some.inj h
  simp [decodeFields, decode6X, formF4, formFt, noOpt, noTb, only, unusedZero, useD, useA, useB, useC, Instr.canon, Nat.testBit]

theorem fmin (t : FTy) (d a b : FReg) : Statement (.fmin t d a b) := by
  intro hw f h
  obtain rfl := Option.some.inj h
  simp [decodeFields, decode6X, formF3n, formFt, noOpt, noRm, noTb, only, unusedZero, useD, useA, useB, Instr.canon, Nat.testBit]

theorem fmax (t : FTy) (d a b : FReg) : Statement (.fmax t d a b) := by
  intro hw f h
  obtain rfl := Option.some.inj h
  simp [decodeFields, decode6X, formF3n, formFt, noOpt, noRm, noTb, only, unusedZero, useD, useA, useB, Instr.canon, Nat.testBit]

theorem fabs (t : FTy) (d a : FReg) : Statement (.fabs t d a) := by
  intro hw f h
  obtain rfl := Option.some.inj h
  simp [decodeFields, decode6X, formF2n, formFt, noOpt, noRm, noTb, unusedZero, useD, useA, Instr.canon, Nat.testBit]

theorem fneg (t : FTy) (d a : FReg) : Statement (.fneg t d a) := by
  intro hw f h
  obtain rfl := Option.some.inj h
  simp [decodeFields, decode6X, formF2n, formFt, noOpt, noRm, noTb, unusedZero, useD, useA, Instr.canon, Nat.testBit]

theorem fcmp (c : FCond) (t : FTy) (d : GReg) (a b : FReg) : Statement (.fcmp c t d a b) := by
  intro hw f h
  obtain rfl := Option.some.inj h
  simp [decodeFields, decode6X, formFcmp, formFt, noRm, noTb, only, unusedZero, useD, useA, useB, Instr.canon, Nat.testBit]

theorem fcvtFf (ta tb : Ty) (r : Rnd) (sat : Bool) (d a : FReg) : Statement (.fcvtFf ta tb r sat d a) := by
  intro hw f h
  obtain rfl := Option.some.inj h
  simp [decodeFields, decode6X, chk, formCvt, formCvtFF, unusedZero, useD, useA, Instr.canon, hw, Nat.testBit]

theorem fcvtGf (ta : Ty) (tb : FTy) (r : Rnd) (sat : Bool) (d : GReg) (a : FReg) : Statement (.fcvtGf ta tb r sat d a) := by
  intro hw f h
  obtain rfl := Option.some.inj h
  simp [decodeFields, decode6X, chk, formCvt, formCvtGF, unusedZero, useD, useA, Instr.canon, hw, Nat.testBit]

theorem fcvtFg (ta : FTy) (tb : Ty) (r : Rnd) (sat : Bool) (d : FReg) (a : GReg) : Statement (.fcvtFg ta tb r sat d a) := by
  intro hw f h
  obtain rfl := Option.some.inj h
  simp [decodeFields, decode6X, chk, formCvt, formCvtFG, unusedZero, useD, useA, Instr.canon, hw, Nat.testBit]

theorem fmovFg (d : FReg) (a : GReg) : Statement (.fmovFg d a) := by
  intro hw f h
  obtain rfl := Option.some.inj h
  simp [decodeFields, decode6X, chk, formN, unusedZero, useD, useA, Instr.canon, hw, Nat.testBit, bind, Except.bind]

theorem fmovGf (d : GReg) (a : FReg) : Statement (.fmovGf d a) := by
  intro hw f h
  obtain rfl := Option.some.inj h
  simp [decodeFields, decode6X, chk, formN, unusedZero, useD, useA, Instr.canon, hw, Nat.testBit, bind, Except.bind]

theorem fmovFf (d a : FReg) : Statement (.fmovFf d a) := by
  intro hw f h
  obtain rfl := Option.some.inj h
  simp [decodeFields, decode6X, chk, formN, unusedZero, useD, useA, Instr.canon, hw, Nat.testBit, bind, Except.bind]

theorem frint (t : FTy) (r : Rnd) (d a : FReg) : Statement (.frint t r d a) := by
  intro hw f h
  obtain rfl := Option.some.inj h
  simp [decodeFields, decode6X, formFrint, formFt, noOpt, noTb, only, unusedZero, useD, useA, Instr.canon, Nat.testBit]

theorem fscale (t : FTy) (r : Rnd) (d a : FReg) (b : GReg) : Statement (.fscale t r d a b) := by
  intro hw f h
  obtain rfl := Option.some.inj h
  simp [decodeFields, decode6X, formFscale, formFt, noOpt, noTb, only, unusedZero, useD, useA, useB, Instr.canon, Nat.testBit]

theorem fdiv (t : FTy) (d a b : FReg) : Statement (.fdiv t d a b) := by
  intro hw f h
  obtain rfl := Option.some.inj h
  simp [decodeFields, decode7X, formF3n, formFt, noOpt, noRm, noTb, only, unusedZero, useD, useA, useB, Instr.canon, Nat.testBit]

theorem fexp2f (t : FTy) (d a : FReg) : Statement (.fexp2f t d a) := by
  intro hw f h
  obtain rfl := Option.some.inj h
  simp [decodeFields, decode7X, formF2n, formFt, noOpt, noRm, noTb, only, unusedZero, useD, useA, Instr.canon, Nat.testBit]

theorem flog2 (t : FTy) (d a : FReg) : Statement (.flog2 t d a) := by
  intro hw f h
  obtain rfl := Option.some.inj h
  simp [decodeFields, decode7X, formF2n, formFt, noOpt, noRm, noTb, only, unusedZero, useD, useA, Instr.canon, Nat.testBit]

theorem frcp (t : FTy) (d a : FReg) : Statement (.frcp t d a) := by
  intro hw f h
  obtain rfl := Option.some.inj h
  simp [decodeFields, decode7X, formF2n, formFt, noOpt, noRm, noTb, only, unusedZero, useD, useA, Instr.canon, Nat.testBit]

theorem frsq (t : FTy) (d a : FReg) : Statement (.frsq t d a) := by
  intro hw f h
  obtain rfl := Option.some.inj h
  simp [decodeFields, decode7X, formF2n, formFt, noOpt, noRm, noTb, only, unusedZero, useD, useA, Instr.canon, Nat.testBit]

theorem fsqrt (t : FTy) (d a : FReg) : Statement (.fsqrt t d a) := by
  intro hw f h
  obtain rfl := Option.some.inj h
  simp [decodeFields, decode7X, formF2n, formFt, noOpt, noRm, noTb, only, unusedZero, useD, useA, Instr.canon, Nat.testBit]

theorem fsin (t : FTy) (d a : FReg) : Statement (.fsin t d a) := by
  intro hw f h
  obtain rfl := Option.some.inj h
  simp [decodeFields, decode7X, formF2n, formFt, noOpt, noRm, noTb, only, unusedZero, useD, useA, Instr.canon, Nat.testBit]

theorem fcos (t : FTy) (d a : FReg) : Statement (.fcos t d a) := by
  intro hw f h
  obtain rfl := Option.some.inj h
  simp [decodeFields, decode7X, formF2n, formFt, noOpt, noRm, noTb, only, unusedZero, useD, useA, Instr.canon, Nat.testBit]

theorem vadd (t : Ty) (r : Rnd) (sat : Bool) (mask : Option MReg) (d a b : VOp) : Statement (.vadd t r sat mask d a b) := by
  intro hw f h
  obtain rfl := Option.some.inj h
  cases mask <;> simp [decodeFields, decode8X, chk, formTy, formV3, maskOf, noTb, only, Instr.canon, hw, maskOpt, maskEnc]

theorem vsub (t : Ty) (r : Rnd) (sat : Bool) (mask : Option MReg) (d a b : VOp) : Statement (.vsub t r sat mask d a b) := by
  intro hw f h
  obtain rfl := Option.some.inj h
  cases mask <;> simp [decodeFields, decode8X, chk, formTy, formV3, maskOf, noTb, only, Instr.canon, hw, maskOpt, maskEnc]

theorem vmul (t : Ty) (r : Rnd) (sat : Bool) (mask : Option MReg) (d a b : VOp) : Statement (.vmul t r sat mask d a b) := by
  intro hw f h
  obtain rfl := Option.some.inj h
  cases mask <;> simp [decodeFields, decode8X, chk, formTy, formV3, maskOf, noTb, only, Instr.canon, hw, maskOpt, maskEnc]

theorem vmin (t : Ty) (r : Rnd) (sat : Bool) (mask : Option MReg) (d a b : VOp) : Statement (.vmin t r sat mask d a b) := by
  intro hw f h
  obtain rfl := Option.some.inj h
  cases mask <;> simp [decodeFields, decode8X, chk, formTy, formV3, maskOf, noTb, only, Instr.canon, hw, maskOpt, maskEnc]

theorem vmax (t : Ty) (r : Rnd) (sat : Bool) (mask : Option MReg) (d a b : VOp) : Statement (.vmax t r sat mask d a b) := by
  intro hw f h
  obtain rfl := Option.some.inj h
  cases mask <;> simp [decodeFields, decode8X, chk, formTy, formV3, maskOf, noTb, only, Instr.canon, hw, maskOpt, maskEnc]

theorem vfma (t : Ty) (r : Rnd) (d a b c : VOp) : Statement (.vfma t r d a b c) := by
  intro hw f h
  obtain rfl := Option.some.inj h
  simp [decodeFields, decode8X, chk, formTy, formVfma, noOpt, noTb, only, Instr.canon, hw]

theorem vabs (t : Ty) (mask : Option MReg) (d a : VOp) : Statement (.vabs t mask d a) := by
  intro hw f h
  obtain rfl := Option.some.inj h
  cases mask <;> simp [decodeFields, decode8X, chk, formTy, formV2m, maskOf, noRm, noTb, Instr.canon, hw, maskOpt, maskEnc]

theorem vneg (t : Ty) (mask : Option MReg) (d a : VOp) : Statement (.vneg t mask d a) := by
  intro hw f h
  obtain rfl := Option.some.inj h
  cases mask <;> simp [decodeFields, decode8X, chk, formTy, formV2m, maskOf, noRm, noTb, Instr.canon, hw, maskOpt, maskEnc]

theorem vand (t : Ty) (d a b : VOp) : Statement (.vand t d a b) := by
  intro hw f h
  obtain rfl := Option.some.inj h
  simp [decodeFields, decode8X, chk, formTy, formV3n, noOpt, noRm, noTb, unusedZero, useD, useA, useB, Instr.canon, hw, Nat.testBit]

theorem vor (t : Ty) (d a b : VOp) : Statement (.vor t d a b) := by
  intro hw f h
  obtain rfl := Option.some.inj h
  simp [decodeFields, decode8X, chk, formTy, formV3n, noOpt, noRm, noTb, unusedZero, useD, useA, useB, Instr.canon, hw, Nat.testBit]

theorem vxor (t : Ty) (d a b : VOp) : Statement (.vxor t d a b) := by
  intro hw f h
  obtain rfl := Option.some.inj h
  simp [decodeFields, decode8X, chk, formTy, formV3n, noOpt, noRm, noTb, unusedZero, useD, useA, useB, Instr.canon, hw, Nat.testBit]

theorem vshl (t : Ty) (d a b : VOp) : Statement (.vshl t d a b) := by
  intro hw f h
  obtain rfl := Option.some.inj h
  have k := hw; simp only [Instr.wellFormed, Bool.and_eq_true] at k
  simp [decodeFields, decode8X, chk, formTy, formV3n, noOpt, noRm, noTb, unusedZero, useD, useA, useB, Instr.canon, hw, Nat.testBit, k.2]

theorem vshr (t : Ty) (d a b : VOp) : Statement (.vshr t d a b) := by
  intro hw f h
  obtain rfl := Option.some.inj h
  have k := hw; simp only [Instr.wellFormed, Bool.and_eq_true] at k
  simp [decodeFields, decode8X, chk, formTy, formV3n, noOpt, noRm, noTb, unusedZero, useD, useA, useB, Instr.canon, hw, Nat.testBit, k.2]

theorem vcmp (c : Cond) (t : Ty) (d : MReg) (a b : VOp) : Statement (.vcmp c t d a b) := by
  intro hw f h
  obtain rfl := Option.some.inj h
  simp [decodeFields, decode8X, chk, formTy, formVcmp, noRm, noTb, only, unusedZero, useD, useA, useB, Instr.canon, hw, Nat.testBit]

theorem vsel (d : VOp) (m : MReg) (b c : VOp) : Statement (.vsel d m b c) := by
  intro hw f h
  obtain rfl := Option.some.inj h
  simp [decodeFields, decode8X, formVsel, only, Instr.canon]

theorem vcvt (ta tb : Ty) (r : Rnd) (sat : Bool) (d a : VOp) : Statement (.vcvt ta tb r sat d a) := by
  intro hw f h
  obtain rfl := Option.some.inj h
  simp [decodeFields, decode8X, chk, formCvt, formVcvt, only, unusedZero, useD, useA, Instr.canon, hw, Nat.testBit]

theorem vscale (t : FTy) (r : Rnd) (d a b : VOp) : Statement (.vscale t r d a b) := by
  intro hw f h
  obtain rfl := Option.some.inj h
  simp [decodeFields, decode8X, formFt, formVscale, noOpt, noTb, only, unusedZero, useD, useA, useB, Instr.canon, Nat.testBit]

theorem vred (op : RedOp) (t : Ty) (r : Rnd) (d : GReg) (a : VOp) : Statement (.vred op t r d a) := by
  intro hw f h
  obtain rfl := Option.some.inj h
  cases op <;> cases t <;> simp [decodeFields, decode8X, chk, formTy, formVred, noOpt, noTb, unusedZero, useD, useA, Instr.canon, hw, Nat.testBit, redFn, Ty.isFloat]

theorem vbcastG (t : Ty) (d : VOp) (a : GReg) : Statement (.vbcastG t d a) := by
  intro hw f h
  obtain rfl := Option.some.inj h
  simp [decodeFields, decode8X, chk, formTy, formVbcastG, noOpt, noRm, noTb, unusedZero, useD, useA, Instr.canon, hw, Nat.testBit]

theorem vbcastF (t : Ty) (d : VOp) (a : FReg) : Statement (.vbcastF t d a) := by
  intro hw f h
  obtain rfl := Option.some.inj h
  simp [decodeFields, decode8X, chk, formTy, formVbcastF, noOpt, noRm, noTb, unusedZero, useD, useA, Instr.canon, hw, Nat.testBit]

theorem vmask (d : MReg) (a b : GReg) : Statement (.vmask d a b) := by
  intro hw f h
  obtain rfl := Option.some.inj h
  simp [decodeFields, decode8X, chk, formN, only, unusedZero, useD, useA, useB, Instr.canon, hw, Nat.testBit, bind, Except.bind]

theorem vld (acq : Option Scope) (d : VOp) (m : MemOp) : Statement (.vld acq d m) := by
  intro hw f h
  obtain rfl := Option.some.inj h
  cases m <;> simp [decodeFields, decode9X, cZero, formA, formVld, memOf, only, Instr.canon, MemOp.baseEnc, MemOp.idxEnc, MemOp.immEnc, MemOp.amod]

theorem vst (rel : Option Scope) (a : VOp) (mask : MReg) (m : MemOp) : Statement (.vst rel a mask m) := by
  intro hw f h
  obtain rfl := Option.some.inj h
  cases m <;> simp [decodeFields, decode9X, formA, formVst, memOf, only, Instr.canon, MemOp.baseEnc, MemOp.idxEnc, MemOp.immEnc, MemOp.amod]

theorem vloop (n : BitVec 40) (c : GReg) : Statement (.vloop n c) := by
  intro hw f h
  obtain rfl := Option.some.inj h
  simp [decodeFields, decode9X, chk, formN, formVloop, only, unusedZero, useA, useI, Instr.canon, hw, Nat.testBit]

theorem scfg (d : FReg) (base : GReg) (off : BitVec 40) : Statement (.scfg d base off) := by
  intro hw f h
  obtain rfl := Option.some.inj h
  simp [decodeFields, decode9X, chk, formN, formScfg, only, unusedZero, useD, useA, useI, Instr.canon, hw, Nat.testBit]

theorem mmul (t : Ty) (neg nacc : Bool) (tok c a b k : GReg) : Statement (.mmul t neg nacc tok c a b k) := by
  intro hw f h
  obtain rfl := Option.some.inj h
  cases neg <;> cases nacc <;> simp [decodeFields, decodeAX, chk, formMat, formMmul, formTy, noRm, noTb, only, Instr.canon, hw, negNacc]

theorem msca (t : Ty) (tok c a b : GReg) : Statement (.msca t tok c a b) := by
  intro hw f h
  obtain rfl := Option.some.inj h
  simp [decodeFields, decodeAX, chk, formMat, formMsca, formTy, noRm, noTb, only, Instr.canon, hw]

theorem msliceReg (t : Ty) (neg nacc : Bool) (tok c a b s : GReg) : Statement (.msliceReg t neg nacc tok c a b s) := by
  intro hw f h
  obtain rfl := Option.some.inj h
  cases neg <;> cases nacc <;> simp [decodeFields, decodeAX, chk, formMat, formMsliceR, formTy, noRm, noTb, Instr.canon, hw, negNacc]

theorem msliceImm (t : Ty) (neg nacc : Bool) (tok c a b : GReg) (s : BitVec 40) : Statement (.msliceImm t neg nacc tok c a b s) := by
  intro hw f h
  obtain rfl := Option.some.inj h
  cases neg <;> cases nacc <;> simp [decodeFields, decodeAX, chk, formMat, formMsliceI, formTy, noRm, noTb, Instr.canon, hw, negNacc]

theorem mzero (tok c : GReg) : Statement (.mzero tok c) := by
  intro hw f h
  obtain rfl := Option.some.inj h
  simp [decodeFields, decodeAX, chk, formN, only, unusedZero, useD, useA, Instr.canon, hw, Nat.testBit]

theorem mmove (base : GReg) (off : BitVec 40) (a : GReg) : Statement (.mmove base off a) := by
  intro hw f h
  obtain rfl := Option.some.inj h
  simp [decodeFields, decodeAX, chk, formN, only, unusedZero, useA, useB, useI, Instr.canon, hw, Nat.testBit]

theorem mctlSetP (a b : GReg) : Statement (.mctlSetP a b) := by
  intro hw f h
  obtain rfl := Option.some.inj h
  simp [decodeFields, decodeAX, chk, formN, only, unusedZero, useA, useB, Instr.canon, hw, Nat.testBit]

theorem mctlSetSplit (a b : GReg) : Statement (.mctlSetSplit a b) := by
  intro hw f h
  obtain rfl := Option.some.inj h
  simp [decodeFields, decodeAX, chk, formN, only, unusedZero, useA, useB, Instr.canon, Nat.testBit, Instr.wellFormed]

theorem mctlSetRhalf (a b : GReg) : Statement (.mctlSetRhalf a b) := by
  intro hw f h
  obtain rfl := Option.some.inj h
  simp [decodeFields, decodeAX, chk, formN, only, unusedZero, useA, useB, Instr.canon, Nat.testBit, Instr.wellFormed]

theorem mctlSetTol (a b : GReg) : Statement (.mctlSetTol a b) := by
  intro hw f h
  obtain rfl := Option.some.inj h
  simp [decodeFields, decodeAX, chk, formN, only, unusedZero, useA, useB, Instr.canon, Nat.testBit, Instr.wellFormed]

theorem mctlSetBnorm (a b : GReg) : Statement (.mctlSetBnorm a b) := by
  intro hw f h
  obtain rfl := Option.some.inj h
  simp [decodeFields, decodeAX, chk, formN, only, unusedZero, useA, useB, Instr.canon, Nat.testBit, Instr.wellFormed]

theorem mctlSetCap (a b : GReg) : Statement (.mctlSetCap a b) := by
  intro hw f h
  obtain rfl := Option.some.inj h
  simp [decodeFields, decodeAX, chk, formN, only, unusedZero, useA, useB, Instr.canon, Nat.testBit, Instr.wellFormed]

theorem mctlSetIter (a b : GReg) : Statement (.mctlSetIter a b) := by
  intro hw f h
  obtain rfl := Option.some.inj h
  simp [decodeFields, decodeAX, chk, formN, only, unusedZero, useA, useB, Instr.canon, Nat.testBit, Instr.wellFormed]

theorem mwait (d : GReg) : Statement (.mwait d) := by
  intro hw f h
  obtain rfl := Option.some.inj h
  simp [decodeFields, decodeAX, chk, formN, only, unusedZero, useD, Instr.canon, hw, Nat.testBit]

theorem mstat (d : GReg) : Statement (.mstat d) := by
  intro hw f h
  obtain rfl := Option.some.inj h
  simp [decodeFields, decodeAX, chk, formN, only, unusedZero, useD, Instr.canon, hw, Nat.testBit]

theorem rtest (tok c a : GReg) : Statement (.rtest tok c a) := by
  intro hw f h
  obtain rfl := Option.some.inj h
  simp [decodeFields, decodeAX, chk, formN, only, unusedZero, useD, useA, useB, Instr.canon, hw, Nat.testBit]

theorem kset (k : KReg) (a : GReg) : Statement (.kset k a) := by
  intro hw f h
  obtain rfl := Option.some.inj h
  simp [decodeFields, decodeAX, chk, formN, only, unusedZero, useD, useA, Instr.canon, hw, Nat.testBit, bind, Except.bind]

theorem cpy (tok dst src n : GReg) (bar : Option BarOp) : Statement (.cpy tok dst src n bar) := by
  intro hw f h
  obtain rfl := Option.some.inj h
  rcases bar with _ | r <;> simp [decodeFields, decodeBX, formCpy, only, Instr.canon, barOpt]

theorem cpyg (tok dst src x : GReg) (bar : Option BarOp) : Statement (.cpyg tok dst src x bar) := by
  intro hw f h
  obtain rfl := Option.some.inj h
  rcases bar with _ | r <;> simp [decodeFields, decodeBX, formCpy, only, Instr.canon, barOpt]

theorem cpys (tok dst src x : GReg) (bar : Option BarOp) : Statement (.cpys tok dst src x bar) := by
  intro hw f h
  obtain rfl := Option.some.inj h
  rcases bar with _ | r <;> simp [decodeFields, decodeBX, formCpy, only, Instr.canon, barOpt]

theorem xformReshape (tok l r : GReg) : Statement (.xformReshape tok l r) := by
  intro hw f h
  obtain rfl := Option.some.inj h
  simp [decodeFields, decodeBX, chk, formN, formXform, only, unusedZero, useD, useA, useB, useI, Instr.canon, hw, Nat.testBit]

theorem xformCompact (tok l r : GReg) : Statement (.xformCompact tok l r) := by
  intro hw f h
  obtain rfl := Option.some.inj h
  simp [decodeFields, decodeBX, chk, formN, formXform, only, unusedZero, useD, useA, useB, useI, Instr.canon, hw, Nat.testBit]

theorem xformExpand (tok l r : GReg) : Statement (.xformExpand tok l r) := by
  intro hw f h
  obtain rfl := Option.some.inj h
  simp [decodeFields, decodeBX, chk, formN, formXform, only, unusedZero, useD, useA, useB, useI, Instr.canon, hw, Nat.testBit]

theorem xformMxPack (tok l r : GReg) : Statement (.xformMxPack tok l r) := by
  intro hw f h
  obtain rfl := Option.some.inj h
  simp [decodeFields, decodeBX, chk, formN, formXform, only, unusedZero, useD, useA, useB, useI, Instr.canon, hw, Nat.testBit]

theorem xformMxPackSat (tok l r : GReg) : Statement (.xformMxPackSat tok l r) := by
  intro hw f h
  obtain rfl := Option.some.inj h
  simp [decodeFields, decodeBX, chk, formN, formXform, only, unusedZero, useD, useA, useB, useI, Instr.canon, hw, Nat.testBit]

theorem xformMxUnpack (tok l r : GReg) : Statement (.xformMxUnpack tok l r) := by
  intro hw f h
  obtain rfl := Option.some.inj h
  simp [decodeFields, decodeBX, chk, formN, formXform, only, unusedZero, useD, useA, useB, useI, Instr.canon, hw, Nat.testBit]

theorem xformDeltaEncode (tok l r : GReg) : Statement (.xformDeltaEncode tok l r) := by
  intro hw f h
  obtain rfl := Option.some.inj h
  simp [decodeFields, decodeBX, chk, formN, formXform, only, unusedZero, useD, useA, useB, useI, Instr.canon, hw, Nat.testBit]

theorem xformDeltaDecode (tok l r : GReg) : Statement (.xformDeltaDecode tok l r) := by
  intro hw f h
  obtain rfl := Option.some.inj h
  simp [decodeFields, decodeBX, chk, formN, formXform, only, unusedZero, useD, useA, useB, useI, Instr.canon, hw, Nat.testBit]

theorem xformZeroRun (tok l r : GReg) : Statement (.xformZeroRun tok l r) := by
  intro hw f h
  obtain rfl := Option.some.inj h
  simp [decodeFields, decodeBX, chk, formN, formXform, only, unusedZero, useD, useA, useB, useI, Instr.canon, hw, Nat.testBit]

theorem xformDeltaZeroRun (tok l r : GReg) : Statement (.xformDeltaZeroRun tok l r) := by
  intro hw f h
  obtain rfl := Option.some.inj h
  simp [decodeFields, decodeBX, chk, formN, formXform, only, unusedZero, useD, useA, useB, useI, Instr.canon, hw, Nat.testBit]

theorem nalloc (d a : GReg) : Statement (.nalloc d a) := by
  intro hw f h
  obtain rfl := Option.some.inj h
  simp [decodeFields, decodeBX, chk, formN, only, unusedZero, useD, useA, Instr.canon, hw, Nat.testBit]

theorem nfree (a : GReg) : Statement (.nfree a) := by
  intro hw f h
  obtain rfl := Option.some.inj h
  simp [decodeFields, decodeBX, chk, formN, only, unusedZero, useA, Instr.canon, hw, Nat.testBit]

theorem link (a b : GReg) : Statement (.link a b) := by
  intro hw f h
  obtain rfl := Option.some.inj h
  simp [decodeFields, decodeBX, chk, formN, only, unusedZero, useA, useB, Instr.canon, hw, Nat.testBit]

theorem ppush (a b : GReg) : Statement (.ppush a b) := by
  intro hw f h
  obtain rfl := Option.some.inj h
  simp [decodeFields, decodeBX, chk, formN, only, unusedZero, useA, useB, Instr.canon, hw, Nat.testBit]

theorem ppop (d a : GReg) : Statement (.ppop d a) := by
  intro hw f h
  obtain rfl := Option.some.inj h
  simp [decodeFields, decodeBX, chk, formN, only, unusedZero, useD, useA, Instr.canon, hw, Nat.testBit]

theorem rdisp (a b : GReg) : Statement (.rdisp a b) := by
  intro hw f h
  obtain rfl := Option.some.inj h
  simp [decodeFields, decodeBX, chk, formN, only, unusedZero, useA, useB, Instr.canon, hw, Nat.testBit]

theorem rtload (tok a : GReg) : Statement (.rtload tok a) := by
  intro hw f h
  obtain rfl := Option.some.inj h
  simp [decodeFields, decodeBX, chk, formN, only, unusedZero, useD, useA, Instr.canon, hw, Nat.testBit]

theorem amsgMark (xp : Bool) (k a b : GReg) (disp : BitVec 40) : Statement (.amsgMark xp k a b disp) := by
  intro hw f h
  obtain rfl := Option.some.inj h
  simp [decodeFields, decodeCX, bareA, formXp, unusedZero, useA, useB, useC, useI, Instr.canon, Nat.testBit]

theorem amsgReg (xp : Bool) (p k a b : GReg) : Statement (.amsgReg xp p k a b) := by
  intro hw f h
  obtain rfl := Option.some.inj h
  simp [decodeFields, decodeCX, bareA, formXp, unusedZero, useD, useA, useB, useC, Instr.canon, Nat.testBit]

theorem callatMark (xp : Bool) (tok k a : GReg) (disp : BitVec 40) : Statement (.callatMark xp tok k a disp) := by
  intro hw f h
  obtain rfl := Option.some.inj h
  simp [decodeFields, decodeCX, bareA, chk, formXp, formXpChk, unusedZero, useD, useA, useC, useI, Instr.canon, hw, Nat.testBit]

theorem callatReg (xp : Bool) (tok k p a : GReg) : Statement (.callatReg xp tok k p a) := by
  intro hw f h
  obtain rfl := Option.some.inj h
  simp [decodeFields, decodeCX, bareA, chk, formXp, formXpChk, unusedZero, useD, useA, useB, useC, Instr.canon, hw, Nat.testBit]

theorem reply (xp : Bool) (a : GReg) : Statement (.reply xp a) := by
  intro hw f h
  obtain rfl := Option.some.inj h
  simp [decodeFields, decodeCX, bareA, formXp, only, unusedZero, useA, Instr.canon, Nat.testBit]

theorem trap (n : BitVec 40) : Statement (.trap n) := by
  intro hw f h
  obtain rfl := Option.some.inj h
  simp [decodeFields, decodeEX, chk, formChk, formN, only, unusedZero, useI, Instr.canon, hw, Nat.testBit]

theorem eret : Statement .eret := by
  intro hw f h
  obtain rfl := Option.some.inj h
  simp [decodeFields, decodeEX, chk, formN, only, unusedZero, Instr.canon, hw, Nat.testBit]

theorem mfs (d : GReg) (sys : BitVec 12) : Statement (.mfs d sys) := by
  intro hw f h
  obtain rfl := Option.some.inj h
  simp [decodeFields, decodeEX, chk, formN, formSys, only, unusedZero, useD, useI, Instr.canon, hw, Nat.testBit]

theorem mts (sys : BitVec 12) (a : GReg) : Statement (.mts sys a) := by
  intro hw f h
  obtain rfl := Option.some.inj h
  simp [decodeFields, decodeEX, chk, formN, formSys, only, unusedZero, useA, useI, Instr.canon, hw, Nat.testBit]

theorem ackReplay (a : GReg) : Statement (.ackReplay a) := by
  intro hw f h
  obtain rfl := Option.some.inj h
  simp [decodeFields, decodeEX, chk, formN, only, unusedZero, useA, Instr.canon, hw, Nat.testBit]

theorem ackResume (a : GReg) : Statement (.ackResume a) := by
  intro hw f h
  obtain rfl := Option.some.inj h
  simp [decodeFields, decodeEX, chk, formN, only, unusedZero, useA, Instr.canon, Nat.testBit, Instr.wellFormed]

theorem ackRefuse (a : GReg) : Statement (.ackRefuse a) := by
  intro hw f h
  obtain rfl := Option.some.inj h
  simp [decodeFields, decodeEX, chk, formN, only, unusedZero, useA, Instr.canon, Nat.testBit, Instr.wellFormed]

theorem csave (a : GReg) : Statement (.csave a) := by
  intro hw f h
  obtain rfl := Option.some.inj h
  simp [decodeFields, decodeEX, chk, formN, only, unusedZero, useA, Instr.canon, hw, Nat.testBit]

theorem crest (a : GReg) : Statement (.crest a) := by
  intro hw f h
  obtain rfl := Option.some.inj h
  simp [decodeFields, decodeEX, chk, formN, only, unusedZero, useA, Instr.canon, hw, Nat.testBit]

theorem banksel (a : GReg) : Statement (.banksel a) := by
  intro hw f h
  obtain rfl := Option.some.inj h
  simp [decodeFields, decodeEX, chk, formN, only, unusedZero, useA, Instr.canon, hw, Nat.testBit]

theorem tlbinv (s : Scope) (a : GReg) : Statement (.tlbinv s a) := by
  intro hw f h
  obtain rfl := Option.some.inj h
  simp [decodeFields, decodeEX, bareA, formTlbinv, only, unusedZero, useA, Instr.canon, Nat.testBit]

theorem rtswap (tok a : GReg) : Statement (.rtswap tok a) := by
  intro hw f h
  obtain rfl := Option.some.inj h
  simp [decodeFields, decodeEX, chk, formN, only, unusedZero, useD, useA, Instr.canon, hw, Nat.testBit]

theorem calsetCalendar (a b : GReg) : Statement (.calsetCalendar a b) := by
  intro hw f h
  obtain rfl := Option.some.inj h
  simp [decodeFields, decodeEX, chk, formN, only, unusedZero, useA, useB, Instr.canon, hw, Nat.testBit]

theorem calsetArbitration (a b : GReg) : Statement (.calsetArbitration a b) := by
  intro hw f h
  obtain rfl := Option.some.inj h
  simp [decodeFields, decodeEX, chk, formN, only, unusedZero, useA, useB, Instr.canon, Nat.testBit, Instr.wellFormed]

theorem psplit (tok a : GReg) : Statement (.psplit tok a) := by
  intro hw f h
  obtain rfl := Option.some.inj h
  simp [decodeFields, decodeEX, chk, formN, unusedZero, useD, useA, Instr.canon, hw, Nat.testBit]

theorem pmerge (tok a : GReg) : Statement (.pmerge tok a) := by
  intro hw f h
  obtain rfl := Option.some.inj h
  simp [decodeFields, decodeEX, chk, formN, unusedZero, useD, useA, Instr.canon, hw, Nat.testBit]

theorem sstop (a : GReg) : Statement (.sstop a) := by
  intro hw f h
  obtain rfl := Option.some.inj h
  simp [decodeFields, decodeEX, chk, formN, only, unusedZero, useA, Instr.canon, hw, Nat.testBit]

theorem dbgbrk : Statement .dbgbrk := by
  intro hw f h
  obtain rfl := Option.some.inj h
  simp [decodeFields, decodeEX, chk, formN, only, unusedZero, Instr.canon, hw, Nat.testBit]

theorem idle : Statement .idle := by
  intro hw f h
  obtain rfl := Option.some.inj h
  simp [decodeFields, decodeEX, chk, formN, only, unusedZero, Instr.canon, hw, Nat.testBit]

theorem jrnl (d a : GReg) : Statement (.jrnl d a) := by
  intro hw f h
  obtain rfl := Option.some.inj h
  simp [decodeFields, decodeEX, chk, formN, only, unusedZero, useD, useA, Instr.canon, hw, Nat.testBit]

theorem fetchLineArrival (core : CoreNo) (line : Word) (flip : BitVec 480) : Statement (.fetchLineArrival core line flip) := by
  intro _ f h; cases h

theorem machineCheck (core : CoreNo) (ctx : CtxNo) (whole : Bool) : Statement (.machineCheck core ctx whole) := by
  intro _ f h; cases h

theorem homeAccess (core src : CoreNo) (path : Path) (bad : Bool) : Statement (.homeAccess core src path bad) := by
  intro _ f h; cases h

theorem accessReply (core src : CoreNo) (path : Path) : Statement (.accessReply core src path) := by
  intro _ f h; cases h

theorem feTimeout (core src : CoreNo) (ctx : CtxNo) : Statement (.feTimeout core src ctx) := by
  intro _ f h; cases h

theorem parkLimit (core : CoreNo) (ctx : CtxNo) : Statement (.parkLimit core ctx) := by
  intro _ f h; cases h

theorem refusalRetry (core : CoreNo) (ctx : CtxNo) : Statement (.refusalRetry core ctx) := by
  intro _ f h; cases h

theorem journalResponse (core src : CoreNo) (path : Path) : Statement (.journalResponse core src path) := by
  intro _ f h; cases h

theorem asyncTrap (core : CoreNo) (ctx : CtxNo) : Statement (.asyncTrap core ctx) := by
  intro _ f h; cases h

theorem yieldWake (core : CoreNo) (ctx : CtxNo) : Statement (.yieldWake core ctx) := by
  intro _ f h; cases h

theorem dequeSpillMove (core : CoreNo) : Statement (.dequeSpillMove core) := by
  intro _ f h; cases h

theorem launchItemArrival (core : CoreNo) (fn : BitVec 8) : Statement (.launchItemArrival core fn) := by
  intro _ f h; cases h

theorem floodedLaunch (pkg : Fin 64) (fn : BitVec 8) : Statement (.floodedLaunch pkg fn) := by
  intro _ f h; cases h

theorem poolTake (core : CoreNo) : Statement (.poolTake core) := by
  intro _ f h; cases h

theorem stealRequest (core : CoreNo) : Statement (.stealRequest core) := by
  intro _ f h; cases h

theorem stealBackoff (core : CoreNo) : Statement (.stealBackoff core) := by
  intro _ f h; cases h

theorem stealServe (core src : CoreNo) : Statement (.stealServe core src) := by
  intro _ f h; cases h

theorem stealReply (core src : CoreNo) : Statement (.stealReply core src) := by
  intro _ f h; cases h

theorem completionNotice (core src : CoreNo) : Statement (.completionNotice core src) := by
  intro _ f h; cases h

theorem combineMissComplete (core : CoreNo) (ctx : CtxNo) : Statement (.combineMissComplete core ctx) := by
  intro _ f h; cases h

theorem labelInternRequest (core src : CoreNo) : Statement (.labelInternRequest core src) := by
  intro _ f h; cases h

theorem nogoodApply (core src : CoreNo) : Statement (.nogoodApply core src) := by
  intro _ f h; cases h

theorem blightInstall (core : CoreNo) : Statement (.blightInstall core) := by
  intro _ f h; cases h

theorem nogoodTokenWrite (core : CoreNo) : Statement (.nogoodTokenWrite core) := by
  intro _ f h; cases h

theorem lflushApply (core src : CoreNo) : Statement (.lflushApply core src) := by
  intro _ f h; cases h

theorem rtloadApply (core src : CoreNo) : Statement (.rtloadApply core src) := by
  intro _ f h; cases h

theorem translationWalkComplete (core : CoreNo) (ctx : CtxNo) : Statement (.translationWalkComplete core ctx) := by
  intro _ f h; cases h

theorem scopeMiss (core src : CoreNo) : Statement (.scopeMiss core src) := by
  intro _ f h; cases h

theorem barrierArrivalSend (core : CoreNo) : Statement (.barrierArrivalSend core) := by
  intro _ f h; cases h

theorem barrierArrivalAtHome (core src : CoreNo) : Statement (.barrierArrivalAtHome core src) := by
  intro _ f h; cases h

theorem engineBarrierArrival (core src : CoreNo) (path : Path) : Statement (.engineBarrierArrival core src path) := by
  intro _ f h; cases h

theorem gldResult (core : CoreNo) (ctx : CtxNo) : Statement (.gldResult core ctx) := by
  intro _ f h; cases h

theorem migrantBlockAtHome (core src : CoreNo) : Statement (.migrantBlockAtHome core src) := by
  intro _ f h; cases h

theorem migrantReturn (core src : CoreNo) : Statement (.migrantReturn core src) := by
  intro _ f h; cases h

theorem sfuServiceStart (core : CoreNo) : Statement (.sfuServiceStart core) := by
  intro _ f h; cases h

theorem sfuResult (core : CoreNo) : Statement (.sfuResult core) := by
  intro _ f h; cases h

theorem sequencerDispatch (core : CoreNo) : Statement (.sequencerDispatch core) := by
  intro _ f h; cases h

theorem vloopIteration (core : CoreNo) : Statement (.vloopIteration core) := by
  intro _ f h; cases h

theorem streamPrefetch (core : CoreNo) (ctx : CtxNo) (f : Fin 8) : Statement (.streamPrefetch core ctx f) := by
  intro _ f h; cases h

theorem supervisorHandlerStart (core src : CoreNo) : Statement (.supervisorHandlerStart core src) := by
  intro _ f h; cases h

theorem amsgDelivery (core src : CoreNo) : Statement (.amsgDelivery core src) := by
  intro _ f h; cases h

theorem callatArrival (core src : CoreNo) : Statement (.callatArrival core src) := by
  intro _ f h; cases h

theorem replyDelivery (core src : CoreNo) : Statement (.replyDelivery core src) := by
  intro _ f h; cases h

theorem messageRetry (core dst : CoreNo) : Statement (.messageRetry core dst) := by
  intro _ f h; cases h

theorem flitSlot (router : BitVec 13) (out : Fin 8) (slot : Fin 64) : Statement (.flitSlot router out slot) := by
  intro _ f h; cases h

theorem linkFlitRetry (router : BitVec 13) (out : Fin 20) : Statement (.linkFlitRetry router out) := by
  intro _ f h; cases h

theorem routeBankFlip (pkg : Fin 64) : Statement (.routeBankFlip pkg) := by
  intro _ f h; cases h

theorem calendarUpdateEffect (router : BitVec 13) (out : Fin 8) : Statement (.calendarUpdateEffect router out) := by
  intro _ f h; cases h

theorem matrixQueueAccept (core : CoreNo) (half : Fin 2) : Statement (.matrixQueueAccept core half) := by
  intro _ f h; cases h

theorem matrixInstrStart (core : CoreNo) (half : Fin 2) : Statement (.matrixInstrStart core half) := by
  intro _ f h; cases h

theorem matrixCommit (core : CoreNo) (half : Fin 2) : Statement (.matrixCommit core half) := by
  intro _ f h; cases h

theorem matrixComplete (core : CoreNo) (half : Fin 2) : Statement (.matrixComplete core half) := by
  intro _ f h; cases h

theorem matrixFault (core : CoreNo) (half : Fin 2) (code : Byte) (addr : Word) : Statement (.matrixFault core half code addr) := by
  intro _ f h; cases h

theorem engineQueueAccept (core : CoreNo) (e : Eng) : Statement (.engineQueueAccept core e) := by
  intro _ f h; cases h

theorem engineCommit (core : CoreNo) (e : Eng) : Statement (.engineCommit core e) := by
  intro _ f h; cases h

theorem engineComplete (core : CoreNo) (e : Eng) : Statement (.engineComplete core e) := by
  intro _ f h; cases h

theorem engineFault (core : CoreNo) (e : Eng) (addr : Word) : Statement (.engineFault core e addr) := by
  intro _ f h; cases h

theorem enginePageFaultResume (core : CoreNo) (e : Eng) : Statement (.enginePageFaultResume core e) := by
  intro _ f h; cases h

theorem rewriteUnitTake (core : CoreNo) : Statement (.rewriteUnitTake core) := by
  intro _ f h; cases h

theorem residentEventEntry (core : CoreNo) : Statement (.residentEventEntry core) := by
  intro _ f h; cases h

theorem interrupt (core : CoreNo) (controller : Bool) : Statement (.interrupt core controller) := by
  intro _ f h; cases h

theorem partitionOpComplete (pkg : Fin 64) : Statement (.partitionOpComplete pkg) := by
  intro _ f h; cases h

theorem stopAtTPrime (pkg : Fin 64) : Statement (.stopAtTPrime pkg) := by
  intro _ f h; cases h

theorem stopSwitch (pkg : Fin 64) : Statement (.stopSwitch pkg) := by
  intro _ f h; cases h

theorem tlbinvComplete (core : CoreNo) (ctx : CtxNo) : Statement (.tlbinvComplete core ctx) := by
  intro _ f h; cases h

theorem debugSetDbg (core : CoreNo) (ctx : CtxNo) (attach step : Bool) : Statement (.debugSetDbg core ctx attach step) := by
  intro _ f h; cases h

theorem debugFreezeSet (core : CoreNo) : Statement (.debugFreezeSet core) := by
  intro _ f h; cases h

theorem debugFreezeClear (core : CoreNo) : Statement (.debugFreezeClear core) := by
  intro _ f h; cases h

theorem configPathWrite (pkg : Fin 64) (w : ConfigWrite) : Statement (.configPathWrite pkg w) := by
  intro _ f h; cases h

theorem launchMessage (pkg : Fin 64) (fn : BitVec 8) (off : BitVec 12) (len : BitVec 6) (data : BitVec 256) : Statement (.launchMessage pkg fn off len data) := by
  intro _ f h; cases h

theorem launchRetry (pkg : Fin 64) (fn : BitVec 8) : Statement (.launchRetry pkg fn) := by
  intro _ f h; cases h

theorem cxlMemWrite (pa : BitVec 57) (len : Fin 65) (data : BitVec 512) : Statement (.cxlMemWrite pa len data) := by
  intro _ f h; cases h

theorem eventRecordWrite (pkg : Fin 64) (fn : BitVec 8) : Statement (.eventRecordWrite pkg fn) := by
  intro _ f h; cases h

theorem evreplyRetry (pkg : Fin 64) (fn : BitVec 8) (v : Word) : Statement (.evreplyRetry pkg fn v) := by
  intro _ f h; cases h

theorem evreplyRefuse (pkg : Fin 64) (fn : BitVec 8) (v : Word) : Statement (.evreplyRefuse pkg fn v) := by
  intro _ f h; cases h

theorem evreplyConfirmFlip (pkg : Fin 64) (fn : BitVec 8) (v : Word) : Statement (.evreplyConfirmFlip pkg fn v) := by
  intro _ f h; cases h

theorem functionEnable (pkg : Fin 64) (fn : BitVec 8) : Statement (.functionEnable pkg fn) := by
  intro _ f h; cases h

theorem functionDisable (pkg : Fin 64) (fn : BitVec 8) : Statement (.functionDisable pkg fn) := by
  intro _ f h; cases h

theorem functionReset (pkg : Fin 64) (fn : BitVec 8) : Statement (.functionReset pkg fn) := by
  intro _ f h; cases h

theorem functionScrubComplete (pkg : Fin 64) (fn : BitVec 8) : Statement (.functionScrubComplete pkg fn) := by
  intro _ f h; cases h

theorem migrationPause (pkg : Fin 64) (fn : BitVec 8) : Statement (.migrationPause pkg fn) := by
  intro _ f h; cases h

theorem migrationResume (pkg : Fin 64) (fn : BitVec 8) : Statement (.migrationResume pkg fn) := by
  intro _ f h; cases h

theorem hostRegisterWrite (pkg : Fin 64) (fn : BitVec 8) (table : Bool) (off : BitVec 16) (v : Word) : Statement (.hostRegisterWrite pkg fn table off v) := by
  intro _ f h; cases h

theorem moduleReset (pkg : Fin 64) (ecdsa lms : Bool) : Statement (.moduleReset pkg ecdsa lms) := by
  intro _ f h; cases h

theorem powerLimitHalt (pkg : Fin 64) : Statement (.powerLimitHalt pkg) := by
  intro _ f h; cases h

theorem scheduledStopRequest (pkg : Fin 64) (node : BitVec 10) (next : Fin 4) (discard : Bool) (t : Word) : Statement (.scheduledStopRequest pkg node next discard t) := by
  intro _ f h; cases h

theorem debugResume (core : CoreNo) (ctx : CtxNo) : Statement (.debugResume core ctx) := by
  intro _ f h; cases h

theorem spdmDoeRequest (pkg : Fin 64) (req : BitVec 64) : Statement (.spdmDoeRequest pkg req) := by
  intro _ f h; cases h

end Sys2Proof.Laws.RoundTrip
end

