-- ==== Sys2Proof/Tests/Slice0.lean ====
section
/-!
SUPPORT. The tests: ill-formed terms that WellFormed refuses; words written out from the spec's encoding tables and the
instructions they stand for; small steps with results worked out by hand from the rules; and for every statement with
hypotheses, states and operands that meet the hypotheses of each of its clauses together.
-/

set_option Elab.async false
set_option linter.unusedSimpArgs false
open Sys2Proof Sys2Proof.Machine Sys2Proof.Claims

namespace Sys2Proof.Tests

/-- A context that runs, with these g registers. -/
def run1 (l : List (GReg × Word) := []) : Ctx :=
  l.foldl (fun c p => c.setG p.1 ⟨p.2, 0⟩) { run := .run, pc := 0x1000, tvec := 0x8000 }
/-- A machine in which context 1 of core 0 acts. -/
def one (c : Ctx) (k : CoreSt := {}) : State := { cores := [(0, { k with ctxs := [(1, c)] })], ctx := 1 }
/-- A machine in which the root context of core 0 acts. -/
def root (c : Ctx) (k : CoreSt := {}) : State := { cores := [(0, { k with ctxs := [(0, c)] })] }

/-- A context whose registers hold small and large numbers; g14 names a word of the own local store. -/
def ex1 : State := one (run1 [(2, 0xFFFFFFFF80001234), (3, 0x123456789), (5, 0x40), (6, 1), (14, 0x1FE000000000040)])
/-- Labels: g7 has the singleton of A0, g8 a HIDDEN one, g9 the number of a handle in the table, g10 two environments. -/
def exLab : State :=
  { one ({ ((run1 [(9, 0x43), (11, 1), (14, 0x1FE000000000040)]).setG 7 ⟨5, 1⟩) with streams := (run1).streams }.setG 8 ⟨6, 0xFFFF⟩ |>.setG 10 ⟨6, 0x43⟩)
      { nodes := #[some (512, false), none, none, none].toVector, labels := [(0, { comb := [⟨true, 1, 1, 3⟩] })] } with
    parts := [({ pkg := 0, node := 512, ten := false, set := 0 }, { table := [(0x43, { envs := [1, 2] })] })] }
/-- The root context, with operands of system instructions. -/
def exRoot : State := root (run1 [(12, 5), (15, 6)])
/-- A spawn item's context whose join word is 1. -/
def exDone : State :=
  { one { run1 with item := some { kind := .spawn, join := 0x1FF000000000040 } } with store := { mem := [(0x1FF000000000040, 1)] } }
/-- Contexts 1 and 2 in POOL with nothing to do. -/
def exReap : State :=
  { cores := [(0, { ctxs := [(0, run1 [(15, 6)]), (1, { run := .pool, pooled := true }), (2, { run := .pool, pooled := true })] })] }
/-- A context in its trap handler. -/
def exHeld : State := one { run1 with eheld := true, epc := 0x2000 } { rvec := 0x9000 }
/-- A pending token in g2. -/
def exPend : State := one { run1 with pend := [2] }
/-- Eight bytes of the own local store at 0x40. -/
def bytes8 : List Host.Cell := (List.range 8).map fun i => (0x1FF000000000040 + i, BitVec.ofNat 8 (0x11 * (i + 1)))
/-- Addresses of the own local store in g14 and g16, and ones that no access may have in g17 to g21. -/
def memRegs : Ctx := run1 [(2, 0xFFFFFFFF80001234), (3, 0x123456789), (14, 0x1FE000000000040), (16, 0x1FE000000000FF8),
  (17, 0x200000000000000), (18, 0x1FD000000000000), (19, 0x1FE000000100000), (20, 0x10002), (21, 0x1FDFFFFFFFFFFFF), (22, 0x1FF000000100040), (23, 0x20000)]
def exMem : State := { one memRegs with store := { mem := bytes8 } }
/-- Its word at 0x40 is labelled with handle 5, the singleton of A0. -/
def exTag : State := { one memRegs with store := { mem := bytes8, tags := [(0x1FF000000000040 / 4, 5)] } }
/-- Its words at 0x40 and 0x44 are empty. -/
def exEmpty : State := { one memRegs with store := { mem := bytes8, empties := [0x1FF000000000040 / 4, 0x1FF000000000044 / 4] } }
/-- A context of the first channel core, and a page of its memory with a label plane. -/
def exChan (plane : Option Nat := none) : State :=
  { core := 16, ctx := 1, cores := [(16, { ctxs := [(1, memRegs.setG 24 ⟨0x10000, 0⟩)], tlb :=
      [{ part := { pkg := 0, node := 0, ten := false, set := 0 }, va := 0x10000, size := 0x10000, pa := 0x20000, plane, x := true, w := true, r := true }] })] }
/-- Core 0 and core 1 of one partition. -/
def exTwo (k : CoreSt := {}) : State :=
  let n : Vector (Option (Nat × Bool)) 4 := #v[some (512, false), none, none, none]
  { cores := [(0, { k with nodes := n, ctxs := [(1, memRegs)] }), (1, { nodes := n })], ctx := 1 }
/-- g7 and the word at 0x40 have the label of A0; g2 and g3 are unlabelled. -/
def exAtLab : State := { one (memRegs.setG 7 ⟨9, 5⟩) with store := { mem := bytes8, tags := [(0x1FF000000000040 / 4, 5)] } }
/-- A barrier object in the own local store at 0x40, for contexts 0 and 1. -/
def exBar (expected arrived phase st : Nat) : State :=
  let s : State := { cores := [(0, { ctxs := [(0, memRegs.setG 3 ⟨3, 0⟩), (1, memRegs.setG 3 ⟨3, 0⟩)] })], ctx := 1 }
  s.putNat 0x1FF000000000040 16 (expected + arrived * 2 ^ 32 + phase * 2 ^ 64 + st * 2 ^ 96 + 0x1234 * 2 ^ 112)
def exGrpWith (k : CoreSt) (o : Wr) : State := { exTwo k with cores := (exTwo k).cores.map fun p => if p.1 = 0 then (p.1, { p.2 with ctxs := [(1, { memRegs with out := o })] }) else p }
/-- Group 0 has core 1 as its member. -/
def exGrp : State := exTwo { groups := [⟨{ pkg := 0, node := 512, ten := false, set := 0 }, 0, [1]⟩] }
def exGrpGot : State := exGrpWith {} (.gld 2 false 1 4 [(1, 0x80000000, []), (3, 5, [])] [] 0)
def exGrpGotAdd : State := exGrpWith {} (.gld 0 false 1 8 [(1, 0x8000000000000000, []), (3, 0x8000000000000005, [])] [] 0)
def exGrpF : State := exGrpWith {} (.gld 1 true 1 4 [(1, 0x3F800000, []), (3, 0x3F800000, [])] [] 0)
def exGrpBad : State := exGrpWith {} (.gld 2 false 1 4 [] [(3, 0x0A)] 0)
/-- A page table of the default partition for the page at 0x10000, with code in slots 1 and 2 of its first line, run
from slot 0 by a context of the first channel core. -/
def exBlk (w1 w2 : Nat) : State :=
  let area := w1 * 2 ^ 96 + w2 * 2 ^ 192
  let s := exChan none
  let s := s.modCtx 16 1 fun c => { c with pc := 0x10000 }
  (((s.putNat 0 16 0x40001).putNat 0x40000 16 0x50001).putNat 0x50010 16 0x20073).putNat 0x20000 64 (parOf area * 2 ^ 16 + area * 2 ^ 32)
def wMret : Nat := ((encode .mret).getD 0).toNat
def wAddi : Nat := ((encode (.addi false 1 2 5)).getD 0).toNat
def exBlkFar : State := (exChan none).modCtx 16 1 fun c => c.setG 25 ⟨0x10100, 0⟩
/-- A 512-bit layout record of one dimension. -/
def rec1 (base ty ext stride : Nat) : Nat := base + ty * 2 ^ 64 + ext * 2 ^ 96 + stride * 2 ^ 224 + 2 ^ 384
/-- Bytes of a register, by a number. -/
def pat (k : Nat) : BitVec 1024 := BitVec.ofNat 1024 ((List.range 128).foldl (fun a i => a * 256 + (i * 37 + k * 11 + k * i * i) % 256) 0)
/-- A context with numbers in f and v registers, a mask in m1 and m4 and k, and a stream in s0. -/
def vecCtx (out : Wr := .none) : Ctx :=
  let c : Ctx := { memRegs with out }
  let c := (c.setF 1 ⟨0x3F800000, 0⟩).setF 2 ⟨0x40490FDB, 0⟩ |>.setF 3 ⟨0x7FF0000000000000, 0⟩ |>.setF 4 ⟨0x3FF8000000000001, 0⟩
  let c := (c.setV 1 ⟨pat 1, Vector.replicate 32 0⟩).setV 2 ⟨pat 2, Vector.replicate 32 0⟩ |>.setV 3 ⟨pat 3, Vector.replicate 32 0⟩
  c.setM 4 ⟨BitVec.ofNat 128 0xFFFF00FF0F, Vector.replicate 32 0⟩
def strm0 : Stream := { shape := { raw := BitVec.ofNat 512 (rec1 0x1FE000000000040 3 2 4), addr := 0x1FE000000000080 } }
def exVec : State :=
  let s : State := { one vecCtx with store := { mem := bytes8 } }
  s.putNat 0x1FF000000000080 64 (rec1 0x1FE000000000040 3 2 4)
def exStrm : State := { one { vecCtx with streams := (Vector.replicate 8 none).set 0 (some strm0) } with store := { mem := bytes8 } }
/-- A stream over core 1's local store. -/
def strmFar : Stream := { shape := { raw := BitVec.ofNat 512 (rec1 0x1FF000000100040 3 2 4), addr := 0x1FE000000000080 } }
def exStrmFar : State :=
  { (exTwo : State) with cores := (exTwo : State).cores.map fun p =>
      if p.1 = 0 then (p.1, { p.2 with ctxs := [(1, { vecCtx with streams := (Vector.replicate 8 none).set 0 (some strmFar) })] }) else p }
/-- A special function's request in the unit's queue, its context waiting. -/
def exSfu (i : Instr) (a b : Word) (started : Bool) : State :=
  { cores := [(0, { ctxs := [(1, { vecCtx with run := .wait .sfu })], sfu := [{ key := 1, i, a := ⟨a, 0⟩, b := ⟨b, 0⟩, lab := 0, pc := 0x1000, started }] })] }
def q0 (i : Instr) (a b : Word) (started : Bool) : SfuReq := { key := 1, i, a := ⟨a, 0⟩, b := ⟨b, 0⟩, lab := 0, pc := 0x1000, started }
/-- A VLOOP's body in the next slot of the line that the context runs in. -/
def exLoop (n : Word) : State :=
  let area := (((encode (.vand .f32 (.v 1) (.v 2) (.v 3))).getD 0).toNat) * 2 ^ 96
  one ((vecCtx).setG 5 ⟨n, 0⟩) { lines := [{ part := { pkg := 0, node := 0, ten := false, set := 0 }, addr := 0x1000, bits := BitVec.ofNat 512 (parOf area * 2 ^ 16 + area * 2 ^ 32) }] }
def theLoop (left : Option Nat) (at_ : Nat) : Loop := { key := 1, body := [(0x1001, .vand .f32 (.v 1) (.v 2) (.v 3))], left, at_ }
def exLooping (left : Option Nat) : State := one vecCtx { loops := [theLoop left 1] }
def LS : Nat := 0x1FF000000000000
/-- A layout record of two dimensions without gaps. -/
def rec2 (base ty sz e0 e1 : Nat) : Nat :=
  base + ty * 2 ^ 64 + 2 ^ 76 + e0 * 2 ^ 96 + e1 * 2 ^ 128 + sz * 2 ^ 224 + (e0 * sz) * 2 ^ 264 + 2 ^ 384 + 2 ^ 400
/-- Records of A and B for i8 at 0x100 and 0x140, for f64 at 0x180 and 0x1C0; operands of matrix instructions. -/
def matRegs (l : List (GReg × Word)) : Ctx := (run1 ([(10, 2), (11, 0x1FE000000000100), (12, 0x1FE000000000140), (13, 0x400000000), (14, 0x1FE000000000040),
  (15, 0x1FE000000000180), (16, 0x1FE0000000001C0), (17, 2), (18, 9), (19, 2 + 256 * 3)] ++ l))
def matPut (s : State) : State :=
  (((s.putNat (LS + 0x100) 64 (rec2 0x1FE000000000200 1 1 4 2)).putNat (LS + 0x140) 64 (rec2 0x1FE000000000240 1 1 3 4)).putNat (LS + 0x180) 64 (rec2 0x1FE000000000300 9 8 4 2)).putNat (LS + 0x1C0) 64 (rec2 0x1FE000000000400 9 8 3 4)
def exMat (l : List (GReg × Word) := []) (k : CoreSt := {}) (ctx : CtxNo := 1) : State :=
  matPut { cores := [(0, { k with ctxs := [(ctx.val, matRegs l)] })], ctx }
def shA : Shape := { raw := BitVec.ofNat 512 (rec2 0x1FE000000000200 1 1 4 2), addr := 0x1FE000000000100 }
def shB : Shape := { raw := BitVec.ofNat 512 (rec2 0x1FE000000000240 1 1 3 4), addr := 0x1FE000000000140 }
def shC : Shape := { raw := BitVec.ofNat 512 (rec2 0x1FE000000000300 9 8 4 2), addr := 0x1FE000000000180 }
def shD : Shape := { raw := BitVec.ofNat 512 (rec2 0x1FE000000000400 9 8 3 4), addr := 0x1FE0000000001C0 }
def loc (off : Nat) : Loc := { ha := LS + off, home := 0, ls := true }
def half (h : Half) : CoreSt := { matrix := { h0 := h } }
/-- Tile 2 with a few elements. -/
def tile2 : Vector Tile 6 := (Vector.replicate 6 {}).set 2 { elems := [(0, (0x3F800000, 5)), (1, (0x40000000, 7)), (64, (0xBF800000, 9))], tag := .f32, lab := 5 }
def mop (k : MatKind) : MatOp := { kind := k, key := 1, tok := 4, tile := 2, part := { pkg := 0, node := 0, ten := false, set := 0 }, a := shA, b := shB }
def wait (r : Run) (k : CoreSt) : State := { cores := [(0, { k with ctxs := [(1, { matRegs [] with run := r, pend := [4] })] })], ctx := 1 }
/-- A context that waits for a place in a queue with this instruction. -/
def waitFor (w : Why) (i : Instr) (k : CoreSt) : State :=
  { cores := [(0, { k with ctxs := [(1, { matRegs [] with run := .wait w, inst := some { pc := 0x1000, i1 := i } })] })], ctx := 1 }
def mrun (k : MatKind) : MatRun := { op := mop k, a := [1, 2, 3, 4, 255, 6, 7, 128], b := [1, 2, 3, 4, 5, 6, 7, 8, 9, 10, 11, 254], steps := [0, 1, 2, 3], stage := .read }
/-- Tile 2 of core 0's context may go to core 1's store. -/
def exMove : State :=
  let n : Vector (Option (Nat × Bool)) 4 := #v[some (512, false), none, none, none]
  { cores := [(0, { half { tiles := tile2 } with nodes := n, ctxs := [(1, matRegs [(20, LS + 0x100600), (21, 0x30202)])] }), (1, { nodes := n })], ctx := 1 }
/-- A matrix instruction of a valid partition, whose error log is in the local store, meets a refusal. -/
def exMatFault : State :=
  { (wait .run (half { tiles := tile2, run := some { mrun .mmul with stop := some (0x46, 7) } }) : State) with
    parts := [({ pkg := 0, node := 0, ten := false, set := 0 }, { record := BitVec.ofNat 512 (2 ^ 63 + 0x1FF000000002000 * 2 ^ 398) })] }
/-- Two records at 0x100 for a transform. -/
def xfRec (n : Nat) : Nat × Nat :=
  let a := 0x1FE000000000400; let b := 0x1FE000000000800
  match n with
  | 1 => (rec1 a 10 32 4, rec1 b 10 32 4 + 2 ^ 73)
  | 2 => (rec1 a 10 32 4 + 2 ^ 73, rec1 b 10 32 4)
  | 3 | 4 => (rec1 a 10 32 4, rec1 b 13 32 1 + 0x1FE000000000C00 * 2 ^ 448)
  | 5 => (rec1 a 13 32 1, rec1 b 10 32 4)
  | 8 | 9 => (rec1 a 3 32 4, rec1 b 3 32 4 + 2 ^ 73)
  | _ => (rec1 a 3 32 4, rec1 b 3 32 4)
def exXf (n : Nat) : State :=
  let s : State := one (matRegs [])
  (s.putNat (LS + 0x100) 64 (xfRec n).1).putNat (LS + 0x140) 64 (xfRec n).2
def xfX (n : Nat) : Shape := { raw := BitVec.ofNat 512 (xfRec n).1, addr := 0x1FE000000000100 }
def xfY (n : Nat) : Shape := { raw := BitVec.ofNat 512 (xfRec n).2, addr := 0x1FE000000000140 }
/-- A gather descriptor at 0x100: list at 0x1FE000000000800, 16 bytes a row, 3 rows, indexes of 4 bytes. -/
def exGather : State := (one (matRegs [(20, 0x100), (21, 0x80)]) : State).putNat (LS + 0x100) 16 (0x1FE000000000800 + 16 * 2 ^ 64 + 3 * 2 ^ 88 + 1 * 2 ^ 112)
def cop : EngOp := { kind := .cpy, key := 1, tok := 4, part := { pkg := 0, node := 0, ten := false, set := 0 }, opa := 0x1FE000000000480, opb := 0x1FE000000000204, bytes := 16, rowb := 16 }
def eng (e : Engine) : State := { wait .run { copyEng := e } with store := { mem := (List.range 64).map fun i => (LS + 0x200 + i, BitVec.ofNat 8 (i + 1)) } }
def eng0 (op : EngOp) : State := (eng { run := some { op, seen := (eng {}).store } } : State).arrival 0 0 (engPath .copy) 1
def exMat8 : State := { ((one (matRegs [(13, 0x5000800000000)])).putNat (LS + 0x100) 64 (rec2 0x1FE000000000200 1 1 8 2)).putNat (LS + 0x140) 64 (rec2 0x1FE000000000240 1 1 3 8) with pace := 1 }
def shA8 : Shape := { raw := BitVec.ofNat 512 (rec2 0x1FE000000000200 1 1 8 2), addr := 0x1FE000000000100 }
def shB8 : Shape := { raw := BitVec.ofNat 512 (rec2 0x1FE000000000240 1 1 3 8), addr := 0x1FE000000000140 }
/-- Nodes at 0x1000 (type 3, arity 1), 0x1020 (type 3, arity 2) and 0x1040 (type 9, arity 1) of the own local store, in a partition whose range takes them. -/
def nodePart : PartKey × PartSt := ({ pkg := 0, node := 0, ten := false, set := 0 }, { record := BitVec.ofNat 512 (255 * 2 ^ 19) })
def exNode (l : List (GReg × Word)) (k : CoreSt := {}) (ctx : CtxNo := 1) (rules : List (Nat × Rule) := []) : State :=
  let s : State := { cores := [(0, { k with ctxs := [(ctx.val, run1 l)] })], parts := [(nodePart.1, { nodePart.2 with rules })], ctx }
  ((s.putNat (LS + 0x1000) 32 (3 * 2 ^ 52 + 1 * 2 ^ 50)).putNat (LS + 0x1020) 32 (3 * 2 ^ 52 + 2 * 2 ^ 50)).putNat (LS + 0x1040) 32 (9 * 2 ^ 52 + 2 ^ 50 + 0x123)
/-- A free list of two nodes at 0x2000 and 0x2020. -/
def exFree : State :=
  let s := exNode [(4, 0x1003), (5, 0x1FF000000001000)] { rewrite := { heads := [(0, 0x1FF000000002000)] } }
  ((s.putNat (LS + 0x2000) 32 (2 ^ 49 + 0x1FF000000002020 * 2 ^ 64)).putNat (LS + 0x2020) 32 (2 ^ 49))
/-- What LDF reads of the nodes at 0x1000 and 0x1040. -/
def nodeX : List Byte × List Handle := (leBytes 32 (3 * 2 ^ 52 + 1 * 2 ^ 50), List.replicate 8 0)
def nodeY : List Byte × List Handle := (leBytes 32 (9 * 2 ^ 52 + 2 ^ 50 + 0x123), List.replicate 8 0)
def rule39 (swap : Bool := false) : Rule := { lo := 3, hi := 9, swap, template := false, pc := 0x4000 }
def rules39 (swap : Bool := false) : List (Nat × Rule) := [(66, rule39 swap)]
def thisPart : PartKey := { pkg := 0, node := 0, ten := false, set := 0 }
/-- A message of core 1 to core 0 that has arrived. -/
def msg1 (b : Body) (src dst : CoreNo := 0) (path : Path := .th) : Msg := { id := 0, src, dst, path, seq := 0, vc := 0, part := thisPart, cls := 0, flits := 1, here := 1, body := b }
def withMsg (s : State) (m : Msg) : State := { s with msgs := [m] }
def exImage : State :=
  let s := exNode [(4, 0x1FE000000003000)] {} 0
  ((s.putNat (LS + 0x3000) 8 1).putNat (LS + 0x3008) 8 0x9003).putNat (LS + 0x3010) 8 0x4000
def exApply : State :=
  withMsg (let s := exNode []; s.modCtx 0 1 fun c => { c with pend := [4] }) (msg1 (.rtload 1 4 0x1FE000000003000 0x1000 [1, 0x9003, 0x4000]))
def exPairDue : State := exNode [] { deques := [(0, { items := [{ kind := .pair, a := ⟨0x1FF000000001000, 0⟩, b := ⟨0x1FF000000001040, 0⟩ }] })] }
/-- Core 0 with a context that sends messages to core 1 of its partition. -/
def exMsg (l : List (GReg × Word) := []) (item : Option CurItem := none) : State :=
  let n : Vector (Option (Nat × Bool)) 4 := #v[some (512, false), none, none, none]
  { cores := [(0, { nodes := n, ctxs := [(1, { run1 ([(5, 1), (6, 9), (7, 10), (8, 0x4000)] ++ l) with item })] }), (1, { nodes := n })], ctx := 1 }
def theItem : CurItem := { kind := .callat, caller := 1, callerKey := 3, tok := 5 }
/-- Core 0 with a context that waits for token g4, and a message of core 1. -/
def exRecv (b : Body) : State :=
  withMsg { cores := [(0, { ctxs := [(1, { run1 with pend := [4] })] })], store := { mem := [(LS + 0xDBFF8, 0x40)] } } (msg1 b 1)
/-- A context, and its core, with a number of its own in each register. -/
def exSys (ctx : CtxNo := 1) : State :=
  { cores := [(0, { rpc := 17, rcause := 18, raddr := 19, rvec := 22, freeze := true, counters := (Vector.replicate 11 7).set 10 8, assist := 5, ctxs := [(ctx.val, { run1 [(6, 0xFFFFFFFFFFFFFFFF), (7, 0x1234)] with fflags := 3, fenable := 1, fsup := 0x100005, vcclass := 2, parklim := 77, tvec := 0x8000, epc := 10, ecause := 11, eaddr := 12, watch := #v[1, 2, 3, 4], pooled := true })] })], ctx, cycle := 1000 }
/-- Context 2 waits for an ACK of context 1 of the same core. -/
def exAck (r : Run) (a : Word) : State :=
  { cores := [(0, { nodes := #v[some (512, false), none, none, none], ctxs := [(1, run1 [(6, a)]), (2, { run1 with run := r })] })], ctx := 1 }
def exJrnl (a : Word) : State := one (run1 [(6, a)]) { journal := (Vector.replicate 32 {}).set 3 { st := .refused, addr := 5, data := 6, pc := 7 }, jcount := 4 }
/-- The root context over a partition that has MGMT and all of the local store. -/
def exMgmt (l : List (GReg × Word)) (k : CoreSt := {}) (p : Pkg := {}) (mgmt : Bool := true) (ctx : CtxNo := 0) : State :=
  { cores := [(0, { k with ctxs := [(ctx.val, run1 l), (17, run1 [(1, 5)])] })], ctx, pkgs := [(0, p)],
    parts := [(thisPart, { record := BitVec.ofNat 512 (255 * 2 ^ 19 + mgmt.toNat * 2 ^ 64) })] }
def theSwap : Swap := { core := 0, key := 1, tok := 4, classes := 3, at_ := 0, confirm := false }
def theMerge (node : Nat) : CtrlReq := { core := coreOfIndex 0 100, key := 0, tok := 4, merge := true, node }
def exCtrl (q : CtrlReq) : State :=
  { (exMgmt [] {} { ctrl := [q] } : State) with parts := [({ pkg := 0, node := 0, ten := false, set := 0 }, { record := BitVec.ofNat 512 (2 ^ 63 + 0x1FF000000002000 * 2 ^ 398) })] }
/-- A record of a node that R365's checks pass. -/
def goodRec (node : Nat) : BitVec 512 := BitVec.ofNat 512 (node + 2 ^ 63 + 0xDB * 2 ^ 19 + 16 * 2 ^ 69)
def theSplit : CtrlReq := { core := coreOfIndex 0 100, key := 0, tok := 4, merge := false, node := 0, recs := [goodRec 600, goodRec 601] }
def theStop (begun : Bool) : Stop := { node := 512, next := 1, discard := false, at_ := 0, begun }
def exTlb : State :=
  { cores := [(0, { nodes := #v[some (512, false), none, none, none], ctxs := [(1, { run1 with run := .wait (.tlbinv 0x10000 .co) })], tlb := [{ part := { pkg := 0, node := 512, ten := false, set := 0 }, va := 0x10000, size := 0x10000, pa := 0x20000, plane := none, x := true, w := true, r := true }, { part := { pkg := 0, node := 512, ten := false, set := 0 }, va := 0x30000, size := 0x10000, pa := 0x20000, plane := none, x := true, w := true, r := true }] })], ctx := 1 }
def exSstop : State :=
  let s := exMgmt [(6, 0x1FE000000001000)]
  (s.putNat (LS + 0x1000) 8 (512 + 2 ^ 10 * 1 + 2 ^ 12)).putNat (LS + 0x1008) 8 5000
/-- A request of core 1 for 8 bytes at 0x40 of core 0's local store. -/
def rq (act : Act) (n : Nat := 8) (off : Nat := 0x40) : Req :=
  { act, src := 1, who := .ctx 1, part := thisPart, va := 0x1FF000000000040, ha := LS + off, localStore := true, n, labs := [0] }
def exReq (r : Req) (path : Path := .th) (k : CoreSt := {}) : State :=
  { withMsg { cores := [(0, k)], store := { mem := bytes8 } } (msg1 (.req r) 1 0 path) with cycle := 100 }
/-- Context 1 of core 0 waits for a reply of core 1. -/
def exReply (out : Wr) (resp : Resp) (va : Word := 0x77) : State :=
  withMsg { cores := [(0, { ctxs := [(1, { run1 with out, run := .wait .reply })] })] } (msg1 (.resp (.ctx 1) resp va) 1)
def exJournal (resp : Resp) : State :=
  withMsg { cores := [(0, { ctxs := [(1, run1)], journal := (Vector.replicate 32 {}).set 2 { st := .outstanding, key := 1, addr := 0x99 } })] } (msg1 (.resp (.journal 2) resp 0x99) 1)
def jx : JEntry := { st := .outstanding, key := 1, addr := 0x99 }
def exParked : State := { store := { mem := bytes8, empties := [(LS + 0x40) / 4, (LS + 0x44) / 4] }, cores := [(0, { parks := [{ req := { rq .lds with limit := 0x400 }, since := 0 }] })], cycle := 0x400 }
def exBackoff : State :=
  { cores := [(0, { ctxs := [(1, { run1 with run := .wait (.backoff 5), sent := some { rq .load with src := 0, ha := LS + 0x100040 } })] })], cycle := 5 }
def winE (evict : Bool) : WinEntry := { ha := 0x1000, n := 8, core := 0, key := 1, scope := .co, jpos := 0, widening := true, evict }
def exWin (evict : Bool) : State := { cores := [(0, {}), (1, { window := [winE evict] })] }
def parkE : ParkEntry := { req := { rq .lds with limit := 0x400 }, since := 0 }
def winHeld : WinEntry := { winE false with waiters := [parkE.req] }
def exHeldPark : State := { cores := [(0, { parks := [parkE], window := [winHeld] })], cycle := 0x400 }
/-- Another context's set is current at core 1. -/
def exNotCur : State := { exParked with cores := exParked.cores ++ [(1, { cur := 1 })] }
/-- The word that the parked request waits for is not empty. -/
def exMet : State := { exParked with store := { mem := bytes8 } }
/-- Context 1 of core 0 waits for a walk: leaf entries at 0x50010 (good) and 0x50020 (malformed), none at 0x50030. -/
def exWalk (va : Word) : State :=
  let s : State := { cores := [(0, { rvec := 0x9000, ctxs := [(1, { run1 with run := .wait (.walk va), inst := some { pc := 0x1000, i1 := .nop } })] })], ctx := 1 }
  ((((s.putNat 0 16 0x40001).putNat 0x40000 16 0x50001).putNat 0x50010 16 0x20073).putNat 0x50020 16 (0x20073 + 2 ^ 57))
def walkE : TlbEntry := { part := thisPart, va := 0x10000, size := 0x10000, pa := 0x20000, plane := none, x := true, w := true, r := true }
/-- Context 1 of core 0 waits for a line of its local store, which holds zeros with their parity. -/
def exLine (n : Nat := 0) : State :=
  { cores := [(0, { attempts := [(0x1FE000000000040, n)], ctxs := [(1, { run1 with run := .wait (.line 0x1FE000000000040) })] })], ctx := 1 }
def hold : BarHold := { req := { rq (.bararr 1) with src := 0, ha := LS + 0x100040 } , joins := [(1, 0), (2, 0)], since := 0 }
def exBarReq (r : Req) (expected arrived : Nat) (path : Path := .th) : State :=
  (exReq r path).putNat (LS + 0x40) 16 (expected + arrived * 2 ^ 32)
def exGldWait : State :=
  { cores := [(0, { ctxs := [(1, { run1 with run := .wait .reply, out := .gld 2 false 4 4 [(3, 0x80000000, []), (5, 7, [])] [] 0, inst := some { pc := 0x1000, i1 := .gldInt .max .w 4 (.off 1 0) } })] })], ctx := 1 }
def migMsg : Msg := msg1 (.migrate 1 (List.replicate 15 {}) 0x10001 0x10000 0x20000) 0 16
def exMig : State := withMsg (exBlk wMret 0) migMsg
def migRet (b : Body) : Msg := msg1 b 16 0
def exMigRet (b : Body) : State := withMsg { cores := [(0, { ctxs := [(1, { run1 with run := .wait .reply, out := .migrate, inst := some { pc := 0x1000, i1 := .migrate 1 0 } })] })] } (migRet b)
/-- Context 1 of core 0 waits for a combination. -/
def exComb (u : Bool) (a b : Handle) (table : List (Nat × LEntry) := []) : State :=
  { cores := [(0, { ctxs := [(1, { run1 with run := .wait (.combine u a b) })] })], ctx := 1, parts := [(thisPart, { table })] }
def pairsOf (k : Word) (n : Nat) : List (BitVec 64) := (List.range n).map fun i => k <<< i
/-- A message of core 1 to core 0, the label home, and core 1's context that waits. -/
def exHome (b : Body) (r : Run) (table : List (Nat × LEntry) := []) (blight : List (BitVec 64) := []) : State :=
  { withMsg { cores := [(1, { ctxs := [(1, { run1 with run := r, pend := [4] })] })] } (msg1 b 1) with parts := [(thisPart, { table, blight })] }
def blight256 : List (BitVec 64) := (List.range 16).flatMap fun i => (List.range 16).map fun j => (1 <<< i) ||| (0x10000 <<< j)
def nog (n : Nat) : Nogood := { core := 1, key := 1, tok := 4, count := n, waiting := [] }
def exToken : State := { cores := [(1, { ctxs := [(1, { run1 with pend := [4] })] })], parts := [(thisPart, { nogoods := [nog 3] })] }
/-- A spawn item, and a launch item. -/
def itS (pc : Word := 0x3000) : Item := { kind := .spawn, pc, join := 0x1FE000000000040, a := ⟨1, 0⟩, b := ⟨2, 5⟩ }
def itL : Item := { kind := .launch, pc := 0x3000, a := ⟨1, 0⟩, b := ⟨2, 0⟩ }
def n512 : Vector (Option (Nat × Bool)) 4 := #v[some (512, false), none, none, none]
def exDq (d : Deque) (k : CoreSt := {}) : State := { cores := [(0, { k with deques := [(0, d)] })] }
/-- A launch of function 2 waits for core 0. -/
def exLaunch (core : Option CoreNo) (at_ : Nat := 0) (k : CoreSt := { nodes := n512 }) : State :=
  { cores := [(0, k), (1, k), (2, k), (3, k)], pkgs := [(0, { fns := [(2, { node := 512, en := true, vfstat := 1, launches := [{ target := core, item := itL, retryAt := at_ }] })] })], cycle := 9 }
/-- Context 1 of core 0 is in POOL; core 1 is in its partition. -/
def exThief (t : Steal) (ms : List Msg := []) : State :=
  { cores := [(0, { nodes := n512, steal := t, ctxs := [(0, run1), (1, { run1 with run := .pool, pooled := true })] }), (1, { nodes := n512 })], cycle := 10, msgs := ms }
def joinPark : ParkEntry := { req := { rq .join with src := 0 }, since := 0 }
/-- Context 1 of core 0 waits in JOIN for a word of its own store. -/
def exJoinLimit : State :=
  { cores := [(0, { parks := [joinPark], ctxs := [(1, { run1 with run := .park .home, sent := some joinPark.req, inst := some { pc := 0x1000, i1 := .join 3 0 } })] })], cycle := 0x100000 }
def exReapLimit : State :=
  { cores := [(0, { ctxs := [(1, { run1 with run := .park (.reap 6), inst := some { pc := 0x1000, i1 := .reap 3 } })] })], cycle := 0x100000 }
def fullTable : List (Nat × LEntry) := (List.range 65470).map fun i => (65 + i, {})
def exVictim : State := withMsg (exDq { items := [itS, itS 0x4000] }) (msg1 (.stealReq false 0) 1)
def thiefMsg (i : Option Item) : Msg := { msg1 (.stealResp i) 1 with part := { pkg := 0, node := 512, ten := false, set := 0 } }
def exSeq : State := { cores := [(0, { ctxs := [(1, vecCtx)], loops := [theLoop (some 3) 0] })], ctx := 1 }
def farMsg : Msg := { msg1 (.lflush 0) 1 (mkCore 0 0 3 0) with id := 7, here := 0 }
def flit0 : Flit := { msg := 7, router := 0, inp := 0, vc := 0, node := 0 }
def exFlit : State := { msgs := [farMsg], flits := [flit0] }
def exEvent (l : List RootEvent := []) (k : CoreSt := {}) : State :=
  { cores := [(0, { k with rvec := 0x9000, events := l, ctxs := [(0, run1), (1, run1)] })], ctx := 1 }
def exAsync : State := { cores := [(0, { ctxs := [(1, { run1 with asyncs := [⟨0x0C, 0x402, 0x99⟩, ⟨7, 1, 2⟩] })] })], ctx := 1 }
/-- Function 2 of package 0 over node 512, its key 0x77. -/
def fn2 (f : VFn := {}) : VFn := { f with node := 512, key := 0x77 }
def exFn (f : VFn) (k : CoreSt := { nodes := n512 }) (p : Pkg := {}) : State :=
  { cores := [(0, k), (1, k)], pkgs := [(0, { p with fns := [(2, fn2 f)] })], cycle := 100 }
def launchData (key : Nat) : BitVec 256 := BitVec.ofNat 256 (1 + key * 2 ^ 32 + 0x4000 * 2 ^ 64 + 5 * 2 ^ 128 + 6 * 2 ^ 192)
def evr : EvRec := { kind := 10, core := 1, ctx := 2, addr := 0x99, cycle := 50 }
def waiting2 (r : Run) : CoreSt := { nodes := n512, ctxs := [(2, { run1 with run := r })] }
def waitTold : CoreSt := { nodes := n512, ctxs := [(2, { run1 with run := .wait (.fault 0x77), told := true })] }
/-- Two events of function 2: of core 1, whose set a synchronised stop holds, and of the end of a scrub. -/
def exHeldEv : State :=
  let s := exFn { en := true, events := [{ evr with kind := 1, core := 1 }, evr] }
  s.modCore 1 fun c => { c with stopped := true }
def lineOfTwo (tmpl : Nat) (w0 w1 : Nat) : BitVec 512 :=
  let area := w0 + w1 * 2 ^ 96
  BitVec.ofNat 512 (tmpl * 2 ^ 5 + parOf area * 2 ^ 16 + area * 2 ^ 32)
def exStep (b : BitVec 512) (pc : Word) : State :=
  { cores := [(0, { ctxs := [(1, { run1 with pc })], lines := [{ part := thisPart, addr := 0x1000, bits := b }] })], ctx := 1, agenda := [⟨1, .issue 0 1⟩] }
/-- The same with a pending token in g1. -/
def exStepPend (b : BitVec 512) (pc : Word) : State :=
  { exStep b pc with cores := (exStep b pc).cores.map fun p => (p.1, { p.2 with ctxs := [(1, { run1 with pc, pend := [1] })] }) }
def nopW : Nat := ((encode .nop).getD 0).toNat
def wVand : Nat := ((encode (.vand .f32 (.v 1) (.v 2) (.v 3))).getD 0).toNat
/-- The next state of an outcome. -/
def nx (r : Host.Outcome State Fault Refusal) : State := match r with | .next t => t | _ => {}
theorem ex_some {α : Type} (x : Option α) : (∃ y, x = some y) ↔ x.isSome = true := by cases x <;> simp
theorem ex_some_and {α : Type} (x : Option α) (p : α → Prop) [DecidablePred p] :
    (∃ y, x = some y ∧ p y) ↔ x.any (fun y => decide (p y)) = true := by cases x <;> simp
theorem ex_some_and2 {α : Type} (x : Option α) (p q : α → Prop) [DecidablePred p] [DecidablePred q] :
    (∃ y, (x = some y ∧ p y) ∧ q y) ↔ x.any (fun y => decide (p y ∧ q y)) = true := by
  cases x <;> simp [and_assoc]
theorem win_ok (x : Option (Except Nat Loc)) (l : Loc) : (x = some (.ok l)) ↔ x.bind Except.toOption = some l := by
  rcases x with _ | _ | _ <;> simp [Except.toOption]
def nodesOf : NodeRead → Option (Nat × Nat) | .ok x y => some (x, y) | _ => none
theorem read_iff (r : NodeRead) (x y : Nat) : (r = .ok x y) ↔ nodesOf r = some (x, y) := by cases r <;> simp [nodesOf]
theorem four_iff (n : Nat) (p : Nat → Prop) : (∀ i, 4 * i < n → p i) ↔ ∀ i, i < (n + 3) / 4 → p i :=
  ⟨fun h i hi => h i (by omega), fun h i hi => h i (by omega)⟩
def isRefusal : Body → Bool | .refused _ => true | _ => false
theorem refusal_iff (b : Body) : (∀ n, b ≠ .refused n) ↔ isRefusal b = false := by cases b <;> simp [isRefusal]
def walks : Run → Bool | .wait (.walk _) => true | _ => false
theorem walk_iff (r : Run) : (∀ a, r ≠ .wait (.walk a)) ↔ walks r = false := by
  rcases r with _ | _ | _ | w | _ <;> simp [walks]
  cases w <;> simp [walks]
def ends : Host.Outcome State Fault Refusal → Bool | .next _ => true | _ => false
theorem nx_iff (r : Host.Outcome State Fault Refusal) : (r = .next (nx r)) ↔ ends r = true := by cases r <;> simp [nx, ends]
theorem ball_iff {α : Type} (l : List α) (p : α → Prop) [DecidablePred p] : (∀ x, x ∈ l → p x) ↔ l.all (fun x => decide (p x)) = true := by simp
def entOf : Walked → Option TlbEntry | .entry e => some e | _ => none
theorem ent_iff (w : Walked) (e : TlbEntry) : (w = .entry e) ↔ entOf w = some e := by cases w <;> simp [entOf]
def badOf : Walked → Option Nat | .entry _ => none | .fault => some 256 | .bad c => some (min c 255)
theorem bad_iff (w : Walked) (c : Nat) (h : c < 255) : (w = .bad c) ↔ badOf w = some c := by
  cases w <;> simp [badOf] <;> omega
theorem fault_iff (w : Walked) : (w = .fault) ↔ badOf w = some 256 := by
  cases w <;> simp [badOf]; omega
theorem pair_snd {α β : Type} {x : α × β} {b : β} (h : x.2 = b) : x = (x.1, b) := by cases x; cases h; rfl
theorem ok_iff {α β : Type} (x : Except α β) (v : β) : (x = .ok v) ↔ x.toOption = some v := by cases x <;> simp [Except.toOption]
theorem readOnly_none (s : State) (h : s.parts = []) (x n : Nat) : s.readOnly x n = false := by simp [State.readOnly, h]

-- Ill-formed terms

theorem test_ill_formed_jinit_count : (.jinit 6 4294967296 : Instr).wellFormed = false := by decide
theorem test_ill_formed_immediate_w : (.addi true 1 2 4294967296 : Instr).wellFormed = false := by decide
theorem test_ill_formed_shift_w : (.shli true 1 2 32 : Instr).wellFormed = false := by decide
theorem test_ill_formed_field_end : (.ext false 1 2 60 5 : Instr).wellFormed = false := by decide
theorem test_ill_formed_field_empty : (.extz false 1 2 0 0 : Instr).wellFormed = false := by decide
theorem test_ill_formed_field_w : (.ins true 1 2 30 3 : Instr).wellFormed = false := by decide
theorem test_ill_formed_fence_one_path : (.fenceX .th .th : Instr).wellFormed = false := by decide
theorem test_ill_formed_fcvt_integer : (.fcvtFf .i8 .f32 .rne false 1 2 : Instr).wellFormed = false := by decide
theorem test_ill_formed_fcvt_to_g : (.fcvtGf .f32 .f64 .rne false 1 2 : Instr).wellFormed = false := by decide
theorem test_ill_formed_fcvt_from_g : (.fcvtFg .f32 .f64 .rne false 1 2 : Instr).wellFormed = false := by decide
theorem test_ill_formed_lane_type : (.vadd .i8 .rne false none (.v 1) (.v 2) (.v 3) : Instr).wellFormed = false := by decide
theorem test_ill_formed_lane_rounding : (.vadd .i16 .rtz false none (.v 1) (.v 2) (.v 3) : Instr).wellFormed = false := by decide
theorem test_ill_formed_vmin_type : (.vmin .e2m1 .rne false none (.v 1) (.v 2) (.v 3) : Instr).wellFormed = false := by decide
theorem test_ill_formed_vfma_type : (.vfma .i4 .rne (.v 1) (.v 2) (.v 3) (.v 4) : Instr).wellFormed = false := by decide
theorem test_ill_formed_vabs_type : (.vabs .i8 none (.v 1) (.v 2) : Instr).wellFormed = false := by decide
theorem test_ill_formed_vand_type : (.vand .i8 (.v 1) (.v 2) (.v 3) : Instr).wellFormed = false := by decide
theorem test_ill_formed_vshl_float : (.vshl .f32 (.v 1) (.v 2) (.v 3) : Instr).wellFormed = false := by decide
theorem test_ill_formed_vcmp_float : (.vcmp .lo .f32 1 (.v 2) (.v 3) : Instr).wellFormed = false := by decide
theorem test_ill_formed_vcvt_type : (.vcvt .f32 .e2m1 .rne false (.v 1) (.v 2) : Instr).wellFormed = false := by decide
theorem test_ill_formed_vred_f_register : (.vred .add .f32 .rne 32 (.v 1) : Instr).wellFormed = false := by decide
theorem test_ill_formed_vbcast_type : (.vbcastG .i8 (.v 1) 2 : Instr).wellFormed = false := by decide
theorem test_ill_formed_vloop_none : (.vloop 0 1 : Instr).wellFormed = false := by decide
theorem test_ill_formed_vloop_many : (.vloop 17 1 : Instr).wellFormed = false := by decide
theorem test_ill_formed_scfg_register : (.scfg 23 1 0 : Instr).wellFormed = false := by decide
theorem test_ill_formed_mmul_type : (.mmul .f32 false false 0 1 2 3 4 : Instr).wellFormed = false := by decide
theorem test_ill_formed_msca_type : (.msca .f32 0 1 2 3 : Instr).wellFormed = false := by decide
theorem test_ill_formed_mslice_type : (.msliceReg .i8 false false 0 1 2 3 4 : Instr).wellFormed = false := by decide
theorem test_ill_formed_mslice_none : (.msliceImm .f64 false false 0 1 2 3 0 : Instr).wellFormed = false := by decide
theorem test_ill_formed_mslice_many : (.msliceImm .f16 false false 0 1 2 3 3 : Instr).wellFormed = false := by decide
theorem test_ill_formed_callat_registers : (.callatReg false 20 5 7 61 : Instr).wellFormed = false := by decide
theorem test_ill_formed_trap_number : (.trap 256 : Instr).wellFormed = false := by decide

-- Words of every family, from the encoding tables of the chapters

/-- loop g4 −3 -/
theorem test_word_loop : decode 0x0600_1040_0000_00FF_FFFF_FFFD = .ok (.loop 4 (-3)) := rfl
/-- spawn g9,g6,g1,g7 -/
theorem test_word_spawnReg : decode 0x0701_2460_4700_0000_0000_0000 = .ok (.spawnReg 9 6 1 7) := rfl
/-- assume g2,1 -/
theorem test_word_assume : decode 0x3000_0800_0000_0000_0000_0001 = .ok (.assume 2 1) := rfl
/-- nogood g4,g3 -/
theorem test_word_nogood : decode 0x3200_1030_0000_0000_0000_0000 = .ok (.nogood 4 3) := rfl
/-- ltest g6,g3 -/
theorem test_word_ltest : decode 0x3303_1830_0000_0000_0000_0000 = .ok (.ltest 6 3) := rfl
/-- lds.w g22,[g20] -/
theorem test_word_lds : decode 0x3B00_5940_0080_0000_0000_0000 = .ok (.lds .w 22 (.off 20 0x0)) := rfl
/-- ld.d g5,[g6+g7*8] -/
theorem test_word_ld : decode 0x3800_1461_C0C0_7000_0000_0000 = .ok (.ld .d none false 5 (.idx 6 7 3)) := rfl
/-- fence.pk -/
theorem test_word_fence : decode 0x4200_0000_00C8_0000_0000_0000 = .ok (.fence .pk) := rfl
/-- fence.x th,cp -/
theorem test_word_fenceX : decode 0x4201_0000_00C0_0000_0000_0100 = .ok (.fenceX .th .cp) := rfl
/-- funl g3,g1,g2,g4 -/
theorem test_word_funl : decode 0x1B00_0C10_8400_0000_0000_0000 = .ok (.funl false 3 1 2 4) := rfl
/-- aadd.d.post [g1+16],g4 -/
theorem test_word_aaddPost : decode 0x5000_0011_00C1_0000_0000_0010 = .ok (.aaddPost .d 1 0x10 4) := rfl
/-- afadd.f32 f2,[g3],f4 -/
theorem test_word_afadd : decode 0x5A00_0831_0080_0000_0000_0000 = .ok (.afadd .w .plain 2 3 0x0 4) := rfl
/-- migrate [g1] -/
theorem test_word_migrate : decode 0x5B00_0010_00C0_0000_0000_0000 = .ok (.migrate 1 0x0) := rfl
/-- gld.maxn.w g26,[g27] -/
theorem test_word_gldInt : decode 0x5C04_69B0_0080_0000_0000_0000 = .ok (.gldInt .maxn .w 26 (.off 27 0x0)) := rfl
/-- gld.fadd.f64 f3,[g8] -/
theorem test_word_gldFloat : decode 0x5C11_0C80_00C0_0000_0000_0000 = .ok (.gldFloat .fadd .d 3 (.off 8 0x0)) := rfl
/-- barwait [g20+32],g30 -/
theorem test_word_barwait : decode 0x5E01_0147_8000_0000_0000_0020 = .ok (.barwait 20 0x20 30) := rfl
/-- vadd.f32 f26,v1,f25 -/
theorem test_word_vadd : decode 0x8000_6816_4050_0000_0000_0000 = .ok (.vadd .f32 .rne false none (.s 2) (.v 1) (.s 1)) := rfl
/-- fexp2f.f32 f2,f1 -/
theorem test_word_fexp2f : decode 0x7100_0810_0050_0000_0000_0000 = .ok (.fexp2f .f32 2 1) := rfl
/-- vst [g1],v2,m3 -/
theorem test_word_vst : decode 0x9100_0810_03C0_0000_0000_0000 = .ok (.vst none (.v 2) 3 (.off 1 0x0)) := rfl
/-- vloop 2,g0 -/
theorem test_word_vloop : decode 0x9200_0000_0000_0000_0000_0002 = .ok (.vloop 0x2 0) := rfl
/-- mslice.f64 g40,g41,g42,g43,g5 -/
theorem test_word_msliceReg : decode 0xA200_A29A_AB48_0000_0000_0005 = .ok (.msliceReg .f64 false false 40 41 42 43 5) := rfl
/-- mslice.f16.nacc g0,g10,g1,g3,2 -/
theorem test_word_msliceImm : decode 0xA201_00A0_4358_0200_0000_0002 = .ok (.msliceImm .f16 false true 0 10 1 3 0x2) := rfl
/-- mmove [g13],g14 -/
theorem test_word_mmove : decode 0xA400_00D3_8000_0000_0000_0000 = .ok (.mmove 13 0x0 14) := rfl
/-- cpy g10,[g11],[g12],g13 -/
theorem test_word_cpy : decode 0xB000_28B3_0D00_0000_0000_0000 = .ok (.cpy 10 11 12 13 none) := rfl
/-- cpy.bar g11,[g22],[g23],g24,[g20+16] -/
theorem test_word_cpy2 : decode 0xB000_2D65_D800_0100_0000_1014 = .ok (.cpy 11 22 23 24 (some { reg := 20, off := 0x10 })) := rfl
/-- xform g5,g6,1,[g7] -/
theorem test_word_xformCompact : decode 0xB300_1461_C000_0000_0000_0001 = .ok (.xformCompact 5 6 7) := rfl
/-- rtload g7,g8 -/
theorem test_word_rtload : decode 0xBE00_1C80_0000_0000_0000_0000 = .ok (.rtload 7 8) := rfl
/-- link g3,g5 -/
theorem test_word_link : decode 0xBA00_0031_4000_0000_0000_0000 = .ok (.link 3 5) := rfl
/-- ppop g1,g2 -/
theorem test_word_ppop : decode 0xBC00_0420_0000_0000_0000_0000 = .ok (.ppop 1 2) := rfl
/-- callat g20,g5,g7,g8 -/
theorem test_word_callatReg : decode 0xC101_5051_C800_0000_0000_0000 = .ok (.callatReg false 20 5 7 8) := rfl
/-- reply g1 -/
theorem test_word_reply : decode 0xC200_0010_0000_0000_0000_0000 = .ok (.reply false 1) := rfl
/-- mts fflags,g0 -/
theorem test_word_mts : decode 0xE300_0000_0000_0000_0000_0004 = .ok (.mts 0x4 0) := rfl
/-- ack g5 -/
theorem test_word_ackReplay : decode 0xE400_0050_0000_0000_0000_0000 = .ok (.ackReplay 5) := rfl
/-- csave g2 -/
theorem test_word_csave : decode 0xE500_0020_0000_0000_0000_0000 = .ok (.csave 2) := rfl
/-- tlbinv.pk g3 -/
theorem test_word_tlbinv : decode 0xE800_0030_0008_0000_0000_0000 = .ok (.tlbinv .pk 3) := rfl
/-- rtswap g9,g10 -/
theorem test_word_rtswap : decode 0xE900_24A0_0000_0000_0000_0000 = .ok (.rtswap 9 10) := rfl
/-- calset g1,g2 -/
theorem test_word_calsetCalendar : decode 0xEA00_0010_8000_0000_0000_0000 = .ok (.calsetCalendar 1 2) := rfl
/-- pmerge g7,g8 -/
theorem test_word_pmerge : decode 0xEB01_1C80_0000_0000_0000_0000 = .ok (.pmerge 7 8) := rfl
/-- sstop g4 -/
theorem test_word_sstop : decode 0xEC00_0040_0000_0000_0000_0000 = .ok (.sstop 4) := rfl
/-- jrnl g5,g6 -/
theorem test_word_jrnl : decode 0xEF00_1460_0000_0000_0000_0000 = .ok (.jrnl 5 6) := rfl

-- Small steps

/-- The next state of an instruction. -/
def after (i : Instr) (s : State) : State := nx (exec i s)
/-- The value that an instruction gives g1 of context 1. -/
def g1 (i : Instr) (s : State) : LWord := ((after i s).ctxAt 0 1).g 1

/-- R129 and R131: 0xFFFFFFFF80001234 + 0x123456789, modulo 2⁶⁴; with .w the low 32 bits, sign-extended. -/
theorem test_add_wraps : (g1 (.add false 1 2 3) ex1).val = 0xA34579BD ∧ (g1 (.add true 1 2 3) ex1).val = 0xFFFFFFFFA34579BD := by decide +kernel
/-- R133: an arithmetic right shift of the low word keeps its sign, a logical one does not. -/
theorem test_shift_sign : (g1 (.srai true 1 2 4) ex1).val = 0xFFFFFFFFF8000123 ∧ (g1 (.shri true 1 2 4) ex1).val = 0x8000123 := by decide +kernel
/-- R131: signed and unsigned comparison differ in the sign bit. -/
theorem test_cmp_sign : (g1 (.cmp false .lt 1 2 3) ex1).val = 1 ∧ (g1 (.cmp false .lo 1 2 3) ex1).val = 0 := by decide +kernel
/-- R132: division by 0 gives all ones, and its remainder is the dividend. -/
theorem test_divide_by_zero : (g1 (.div false 1 3 0) ex1).val = 0xFFFFFFFFFFFFFFFF ∧ (g1 (.rem false 1 3 0) ex1).val = 0x123456789 := by decide +kernel
/-- R129: g0 discards what is written to it. -/
theorem test_g0_discards : ((after (.add false 0 2 3) ex1).ctxAt 0 1).g 0 = ⟨0, 0⟩ := by decide +kernel
/-- R86 and R117: a displacement counts slots, five to a line. -/
theorem test_branch_back : ((after (.brCond .ne 6 0 (-4)) ex1).ctxAt 0 1).pc = 0xFC1 := by decide +kernel
/-- R138 and R140: an operation's result has the union of its operands' labels' assumptions. -/
theorem test_labels_join : (g1 (.add false 1 7 0) exLab).lab = 1 := by decide +kernel
/-- R164 and R186: bytes of memory are little-endian, and a load of a part is zero-extended or sign-extended. -/
theorem test_load_little_endian : (g1 (.ld .w none false 1 (.off 14 0)) exMem).val = 0x44332211 ∧
    (g1 (.ld .b none true 1 (.off 14 7)) exMem).val = 0xFFFFFFFFFFFFFF88 := by decide +kernel
/-- R341, R342 and R347: TRAP saves the next address and the cause, and continues at TVEC. -/
theorem test_trap_entry : let t := (after (.trap 7) ex1).ctxAt 0 1
    t.pc = 0x8000 ∧ t.epc = 0x1001 ∧ t.ecause = 0x1F000007 ∧ t.eheld = true := by decide +kernel


end Sys2Proof.Tests
open Sys2Proof.Tests

-- What meets the hypotheses of the statements

/-- The hypotheses of each clause of IntegerArithmetic can be met together. -/
theorem witness_IntegerArithmetic :
    (∃ (w : _) (d : _) (a : _) (b : _) (s : State) (t : State) (h : Handle),
      s.clear (.add w d a b : Instr) = true ∧
      (d : GReg) ≠ 0 ∧
      s.conj (([a, b] : List GReg).map fun r => (s.me.g r).lab) = .ok h t) ∧
    (∃ (w : _) (d : _) (a : _) (b : _) (s : State) (t : State) (h : Handle),
      s.clear (.sub w d a b : Instr) = true ∧
      (d : GReg) ≠ 0 ∧
      s.conj (([a, b] : List GReg).map fun r => (s.me.g r).lab) = .ok h t) ∧
    (∃ (w : _) (d : _) (a : _) (b : _) (s : State) (t : State) (h : Handle),
      s.clear (.and w d a b : Instr) = true ∧
      (d : GReg) ≠ 0 ∧
      s.conj (([a, b] : List GReg).map fun r => (s.me.g r).lab) = .ok h t) ∧
    (∃ (w : _) (d : _) (a : _) (b : _) (s : State) (t : State) (h : Handle),
      s.clear (.or w d a b : Instr) = true ∧
      (d : GReg) ≠ 0 ∧
      s.conj (([a, b] : List GReg).map fun r => (s.me.g r).lab) = .ok h t) ∧
    (∃ (w : _) (d : _) (a : _) (b : _) (s : State) (t : State) (h : Handle),
      s.clear (.xor w d a b : Instr) = true ∧
      (d : GReg) ≠ 0 ∧
      s.conj (([a, b] : List GReg).map fun r => (s.me.g r).lab) = .ok h t) ∧
    (∃ (w : _) (d : _) (a : _) (b : _) (s : State) (t : State) (h : Handle),
      s.clear (.andn w d a b : Instr) = true ∧
      (d : GReg) ≠ 0 ∧
      s.conj (([a, b] : List GReg).map fun r => (s.me.g r).lab) = .ok h t) ∧
    (∃ (w : _) (d : _) (a : _) (i : _) (s : State) (t : State) (h : Handle),
      s.clear (.addi w d a i : Instr) = true ∧
      (d : GReg) ≠ 0 ∧
      s.conj (([a] : List GReg).map fun r => (s.me.g r).lab) = .ok h t) ∧
    (∃ (w : _) (d : _) (a : _) (i : _) (s : State) (t : State) (h : Handle),
      s.clear (.subi w d a i : Instr) = true ∧
      (d : GReg) ≠ 0 ∧
      s.conj (([a] : List GReg).map fun r => (s.me.g r).lab) = .ok h t) ∧
    (∃ (w : _) (d : _) (a : _) (i : _) (s : State) (t : State) (h : Handle),
      s.clear (.andi w d a i : Instr) = true ∧
      (d : GReg) ≠ 0 ∧
      s.conj (([a] : List GReg).map fun r => (s.me.g r).lab) = .ok h t) ∧
    (∃ (w : _) (d : _) (a : _) (i : _) (s : State) (t : State) (h : Handle),
      s.clear (.ori w d a i : Instr) = true ∧
      (d : GReg) ≠ 0 ∧
      s.conj (([a] : List GReg).map fun r => (s.me.g r).lab) = .ok h t) ∧
    (∃ (w : _) (d : _) (a : _) (i : _) (s : State) (t : State) (h : Handle),
      s.clear (.xori w d a i : Instr) = true ∧
      (d : GReg) ≠ 0 ∧
      s.conj (([a] : List GReg).map fun r => (s.me.g r).lab) = .ok h t) ∧
    (∃ (w : _) (d : _) (a : _) (b : _) (s : State) (t : State) (h : Handle),
      s.clear (.mul w d a b : Instr) = true ∧
      (d : GReg) ≠ 0 ∧
      s.conj (([a, b] : List GReg).map fun r => (s.me.g r).lab) = .ok h t) ∧
    (∃ (w : _) (d : _) (a : _) (b : _) (s : State) (t : State) (h : Handle),
      s.clear (.mulh w d a b : Instr) = true ∧
      (d : GReg) ≠ 0 ∧
      s.conj (([a, b] : List GReg).map fun r => (s.me.g r).lab) = .ok h t) ∧
    (∃ (w : _) (d : _) (a : _) (b : _) (s : State) (t : State) (h : Handle),
      s.clear (.mulhu w d a b : Instr) = true ∧
      (d : GReg) ≠ 0 ∧
      s.conj (([a, b] : List GReg).map fun r => (s.me.g r).lab) = .ok h t) ∧
    (∃ (w : _) (d : _) (a : _) (b : _) (s : State) (t : State) (h : Handle),
      s.clear (.max w d a b : Instr) = true ∧
      (d : GReg) ≠ 0 ∧
      s.conj (([a, b] : List GReg).map fun r => (s.me.g r).lab) = .ok h t) ∧
    (∃ (w : _) (d : _) (a : _) (b : _) (s : State) (t : State) (h : Handle),
      s.clear (.min w d a b : Instr) = true ∧
      (d : GReg) ≠ 0 ∧
      s.conj (([a, b] : List GReg).map fun r => (s.me.g r).lab) = .ok h t) ∧
    (∃ (w : _) (d : _) (a : _) (b : _) (s : State) (t : State) (h : Handle),
      s.clear (.maxu w d a b : Instr) = true ∧
      (d : GReg) ≠ 0 ∧
      s.conj (([a, b] : List GReg).map fun r => (s.me.g r).lab) = .ok h t) ∧
    (∃ (w : _) (d : _) (a : _) (b : _) (s : State) (t : State) (h : Handle),
      s.clear (.minu w d a b : Instr) = true ∧
      (d : GReg) ≠ 0 ∧
      s.conj (([a, b] : List GReg).map fun r => (s.me.g r).lab) = .ok h t) ∧
    (∃ (w : _) (d : _) (a : _) (b : _) (s : State) (t : State) (h : Handle),
      s.clear (.cmp w .eq d a b : Instr) = true ∧
      (d : GReg) ≠ 0 ∧
      s.conj (([a, b] : List GReg).map fun r => (s.me.g r).lab) = .ok h t) ∧
    (∃ (w : _) (d : _) (a : _) (b : _) (s : State) (t : State) (h : Handle),
      s.clear (.cmp w .ne d a b : Instr) = true ∧
      (d : GReg) ≠ 0 ∧
      s.conj (([a, b] : List GReg).map fun r => (s.me.g r).lab) = .ok h t) ∧
    (∃ (w : _) (d : _) (a : _) (b : _) (s : State) (t : State) (h : Handle),
      s.clear (.cmp w .lt d a b : Instr) = true ∧
      (d : GReg) ≠ 0 ∧
      s.conj (([a, b] : List GReg).map fun r => (s.me.g r).lab) = .ok h t) ∧
    (∃ (w : _) (d : _) (a : _) (b : _) (s : State) (t : State) (h : Handle),
      s.clear (.cmp w .ge d a b : Instr) = true ∧
      (d : GReg) ≠ 0 ∧
      s.conj (([a, b] : List GReg).map fun r => (s.me.g r).lab) = .ok h t) ∧
    (∃ (w : _) (d : _) (a : _) (b : _) (s : State) (t : State) (h : Handle),
      s.clear (.cmp w .lo d a b : Instr) = true ∧
      (d : GReg) ≠ 0 ∧
      s.conj (([a, b] : List GReg).map fun r => (s.me.g r).lab) = .ok h t) ∧
    (∃ (w : _) (d : _) (a : _) (b : _) (s : State) (t : State) (h : Handle),
      s.clear (.cmp w .hs d a b : Instr) = true ∧
      (d : GReg) ≠ 0 ∧
      s.conj (([a, b] : List GReg).map fun r => (s.me.g r).lab) = .ok h t) ∧
    (∃ (w : _) (d : _) (c : _) (a : _) (b : _) (s : State) (t : State) (h : Handle),
      s.clear (.sel w d c a b : Instr) = true ∧
      (d : GReg) ≠ 0 ∧
      s.conj (([c, a, b] : List GReg).map fun r => (s.me.g r).lab) = .ok h t) := by
  refine ⟨⟨false, 1, 2, 3, ex1, ex1, 0, ?_, ?_, rfl⟩,
    ⟨true, 1, 2, 3, ex1, ex1, 0, ?_, ?_, rfl⟩,
    ⟨true, 1, 2, 3, ex1, ex1, 0, ?_, ?_, rfl⟩,
    ⟨true, 1, 2, 3, ex1, ex1, 0, ?_, ?_, rfl⟩,
    ⟨true, 1, 2, 3, ex1, ex1, 0, ?_, ?_, rfl⟩,
    ⟨false, 1, 2, 3, ex1, ex1, 0, ?_, ?_, rfl⟩,
    ⟨true, 1, 2, -5, ex1, ex1, 0, ?_, ?_, rfl⟩,
    ⟨false, 1, 2, 5, ex1, ex1, 0, ?_, ?_, rfl⟩,
    ⟨false, 1, 2, -1, ex1, ex1, 0, ?_, ?_, rfl⟩,
    ⟨false, 1, 2, -1, ex1, ex1, 0, ?_, ?_, rfl⟩,
    ⟨false, 1, 2, -1, ex1, ex1, 0, ?_, ?_, rfl⟩,
    ⟨true, 1, 2, 3, ex1, ex1, 0, ?_, ?_, rfl⟩,
    ⟨true, 1, 2, 3, ex1, ex1, 0, ?_, ?_, rfl⟩,
    ⟨false, 1, 2, 3, ex1, ex1, 0, ?_, ?_, rfl⟩,
    ⟨true, 1, 2, 3, ex1, ex1, 0, ?_, ?_, rfl⟩,
    ⟨false, 1, 2, 3, ex1, ex1, 0, ?_, ?_, rfl⟩,
    ⟨true, 1, 2, 3, ex1, ex1, 0, ?_, ?_, rfl⟩,
    ⟨true, 1, 2, 3, ex1, ex1, 0, ?_, ?_, rfl⟩,
    ⟨true, 1, 2, 3, ex1, ex1, 0, ?_, ?_, rfl⟩,
    ⟨true, 1, 2, 3, ex1, ex1, 0, ?_, ?_, rfl⟩,
    ⟨true, 1, 2, 3, ex1, ex1, 0, ?_, ?_, rfl⟩,
    ⟨true, 1, 2, 3, ex1, ex1, 0, ?_, ?_, rfl⟩,
    ⟨true, 1, 2, 3, ex1, ex1, 0, ?_, ?_, rfl⟩,
    ⟨true, 1, 2, 3, ex1, ex1, 0, ?_, ?_, rfl⟩,
    ⟨true, 1, 2, 3, 4, ex1, ex1, 0, ?_, ?_, rfl⟩⟩
    <;> (try simp only [ok_iff]) <;> decide +kernel

/-- The hypotheses of each clause of IntegerDivide can be met together. -/
theorem witness_IntegerDivide :
    (∃ (w : _) (d : _) (a : _) (b : _) (s : State) (t : State) (h : Handle),
      s.clear (.div w d a b : Instr) = true ∧
      (d : GReg) ≠ 0 ∧
      s.conj (([a, b] : List GReg).map fun r => (s.me.g r).lab) = .ok h t) ∧
    (∃ (w : _) (d : _) (a : _) (b : _) (s : State) (t : State) (h : Handle),
      s.clear (.rem w d a b : Instr) = true ∧
      (d : GReg) ≠ 0 ∧
      s.conj (([a, b] : List GReg).map fun r => (s.me.g r).lab) = .ok h t) ∧
    (∃ (w : _) (d : _) (a : _) (b : _) (s : State) (t : State) (h : Handle),
      s.clear (.divu w d a b : Instr) = true ∧
      (d : GReg) ≠ 0 ∧
      s.conj (([a, b] : List GReg).map fun r => (s.me.g r).lab) = .ok h t) ∧
    (∃ (w : _) (d : _) (a : _) (b : _) (s : State) (t : State) (h : Handle),
      s.clear (.remu w d a b : Instr) = true ∧
      (d : GReg) ≠ 0 ∧
      s.conj (([a, b] : List GReg).map fun r => (s.me.g r).lab) = .ok h t) := by
  refine ⟨⟨true, 1, 2, 3, ex1, ex1, 0, ?_, ?_, rfl⟩,
    ⟨true, 1, 2, 3, ex1, ex1, 0, ?_, ?_, rfl⟩,
    ⟨true, 1, 2, 4, ex1, ex1, 0, ?_, ?_, rfl⟩,
    ⟨true, 1, 2, 3, ex1, ex1, 0, ?_, ?_, rfl⟩⟩
    <;> (try simp only [ok_iff]) <;> decide +kernel

/-- The hypotheses of each clause of IntegerShifts can be met together. -/
theorem witness_IntegerShifts :
    (∃ (w : _) (d : _) (a : _) (b : _) (s : State) (t : State) (h : Handle),
      s.clear (.shl w d a b : Instr) = true ∧
      (d : GReg) ≠ 0 ∧
      s.conj (([a, b] : List GReg).map fun r => (s.me.g r).lab) = .ok h t) ∧
    (∃ (w : _) (d : _) (a : _) (b : _) (s : State) (t : State) (h : Handle),
      s.clear (.shr w d a b : Instr) = true ∧
      (d : GReg) ≠ 0 ∧
      s.conj (([a, b] : List GReg).map fun r => (s.me.g r).lab) = .ok h t) ∧
    (∃ (w : _) (d : _) (a : _) (b : _) (s : State) (t : State) (h : Handle),
      s.clear (.sra w d a b : Instr) = true ∧
      (d : GReg) ≠ 0 ∧
      s.conj (([a, b] : List GReg).map fun r => (s.me.g r).lab) = .ok h t) ∧
    (∃ (w : _) (d : _) (a : _) (b : _) (s : State) (t : State) (h : Handle),
      s.clear (.rol w d a b : Instr) = true ∧
      (d : GReg) ≠ 0 ∧
      s.conj (([a, b] : List GReg).map fun r => (s.me.g r).lab) = .ok h t) ∧
    (∃ (w : _) (d : _) (a : _) (b : _) (s : State) (t : State) (h : Handle),
      s.clear (.ror w d a b : Instr) = true ∧
      (d : GReg) ≠ 0 ∧
      s.conj (([a, b] : List GReg).map fun r => (s.me.g r).lab) = .ok h t) ∧
    (∃ (w : _) (d : _) (a : _) (n : _) (s : State) (t : State) (h : Handle),
      (Instr.shli w d a n).wellFormed = true ∧
      s.clear (.shli w d a n : Instr) = true ∧
      (d : GReg) ≠ 0 ∧
      s.conj (([a] : List GReg).map fun r => (s.me.g r).lab) = .ok h t) ∧
    (∃ (w : _) (d : _) (a : _) (n : _) (s : State) (t : State) (h : Handle),
      (Instr.shri w d a n).wellFormed = true ∧
      s.clear (.shri w d a n : Instr) = true ∧
      (d : GReg) ≠ 0 ∧
      s.conj (([a] : List GReg).map fun r => (s.me.g r).lab) = .ok h t) ∧
    (∃ (w : _) (d : _) (a : _) (n : _) (s : State) (t : State) (h : Handle),
      (Instr.srai w d a n).wellFormed = true ∧
      s.clear (.srai w d a n : Instr) = true ∧
      (d : GReg) ≠ 0 ∧
      s.conj (([a] : List GReg).map fun r => (s.me.g r).lab) = .ok h t) ∧
    (∃ (w : _) (d : _) (a : _) (n : _) (s : State) (t : State) (h : Handle),
      (Instr.roli w d a n).wellFormed = true ∧
      s.clear (.roli w d a n : Instr) = true ∧
      (d : GReg) ≠ 0 ∧
      s.conj (([a] : List GReg).map fun r => (s.me.g r).lab) = .ok h t) ∧
    (∃ (w : _) (d : _) (a : _) (n : _) (s : State) (t : State) (h : Handle),
      (Instr.rori w d a n).wellFormed = true ∧
      s.clear (.rori w d a n : Instr) = true ∧
      (d : GReg) ≠ 0 ∧
      s.conj (([a] : List GReg).map fun r => (s.me.g r).lab) = .ok h t) ∧
    (∃ (d : _) (a : _) (b : _) (c : _) (s : State) (t : State) (h : Handle),
      s.clear (.funl false d a b c : Instr) = true ∧
      (d : GReg) ≠ 0 ∧
      s.conj (([a, b, c] : List GReg).map fun r => (s.me.g r).lab) = .ok h t) ∧
    (∃ (d : _) (a : _) (b : _) (c : _) (s : State) (t : State) (h : Handle),
      s.clear (.funl true d a b c : Instr) = true ∧
      (d : GReg) ≠ 0 ∧
      s.conj (([a, b, c] : List GReg).map fun r => (s.me.g r).lab) = .ok h t) ∧
    (∃ (d : _) (a : _) (b : _) (c : _) (s : State) (t : State) (h : Handle),
      s.clear (.funr false d a b c : Instr) = true ∧
      (d : GReg) ≠ 0 ∧
      s.conj (([a, b, c] : List GReg).map fun r => (s.me.g r).lab) = .ok h t) ∧
    (∃ (d : _) (a : _) (b : _) (c : _) (s : State) (t : State) (h : Handle),
      s.clear (.funr true d a b c : Instr) = true ∧
      (d : GReg) ≠ 0 ∧
      s.conj (([a, b, c] : List GReg).map fun r => (s.me.g r).lab) = .ok h t) := by
  refine ⟨⟨true, 1, 2, 3, ex1, ex1, 0, ?_, ?_, rfl⟩,
    ⟨false, 1, 2, 3, ex1, ex1, 0, ?_, ?_, rfl⟩,
    ⟨true, 1, 2, 3, ex1, ex1, 0, ?_, ?_, rfl⟩,
    ⟨true, 1, 2, 3, ex1, ex1, 0, ?_, ?_, rfl⟩,
    ⟨false, 1, 2, 3, ex1, ex1, 0, ?_, ?_, rfl⟩,
    ⟨true, 1, 2, 31, ex1, ex1, 0, ?_, ?_, ?_, rfl⟩,
    ⟨true, 1, 2, 0, ex1, ex1, 0, ?_, ?_, ?_, rfl⟩,
    ⟨true, 1, 2, 31, ex1, ex1, 0, ?_, ?_, ?_, rfl⟩,
    ⟨false, 1, 2, 63, ex1, ex1, 0, ?_, ?_, ?_, rfl⟩,
    ⟨false, 1, 2, 63, ex1, ex1, 0, ?_, ?_, ?_, rfl⟩,
    ⟨1, 2, 3, 5, ex1, ex1, 0, ?_, ?_, rfl⟩,
    ⟨1, 2, 3, 5, ex1, ex1, 0, ?_, ?_, rfl⟩,
    ⟨1, 2, 3, 5, ex1, ex1, 0, ?_, ?_, rfl⟩,
    ⟨1, 2, 3, 5, ex1, ex1, 0, ?_, ?_, rfl⟩⟩
    <;> (try simp only [ok_iff]) <;> decide +kernel

/-- The hypotheses of each clause of IntegerBitCounts can be met together. -/
theorem witness_IntegerBitCounts :
    (∃ (w : _) (d : _) (a : _) (s : State) (t : State) (h : Handle),
      s.clear (.clz w d a : Instr) = true ∧
      (d : GReg) ≠ 0 ∧
      s.conj (([a] : List GReg).map fun r => (s.me.g r).lab) = .ok h t) ∧
    (∃ (w : _) (d : _) (a : _) (s : State) (t : State) (h : Handle),
      s.clear (.ctz w d a : Instr) = true ∧
      (d : GReg) ≠ 0 ∧
      s.conj (([a] : List GReg).map fun r => (s.me.g r).lab) = .ok h t) ∧
    (∃ (w : _) (d : _) (a : _) (s : State) (t : State) (h : Handle),
      s.clear (.popc w d a : Instr) = true ∧
      (d : GReg) ≠ 0 ∧
      s.conj (([a] : List GReg).map fun r => (s.me.g r).lab) = .ok h t) ∧
    (∃ (w : _) (d : _) (a : _) (s : State) (t : State) (h : Handle),
      s.clear (.brev w d a : Instr) = true ∧
      (d : GReg) ≠ 0 ∧
      s.conj (([a] : List GReg).map fun r => (s.me.g r).lab) = .ok h t) ∧
    (∃ (d : _) (a : _) (s : State) (t : State) (h : Handle),
      s.clear (.bswap true d a : Instr) = true ∧
      (d : GReg) ≠ 0 ∧
      s.conj (([a] : List GReg).map fun r => (s.me.g r).lab) = .ok h t) ∧
    (∃ (d : _) (a : _) (s : State) (t : State) (h : Handle),
      s.clear (.bswap false d a : Instr) = true ∧
      (d : GReg) ≠ 0 ∧
      s.conj (([a] : List GReg).map fun r => (s.me.g r).lab) = .ok h t) := by
  refine ⟨⟨true, 1, 2, ex1, ex1, 0, ?_, ?_, rfl⟩,
    ⟨true, 1, 3, ex1, ex1, 0, ?_, ?_, rfl⟩,
    ⟨true, 1, 2, ex1, ex1, 0, ?_, ?_, rfl⟩,
    ⟨true, 1, 2, ex1, ex1, 0, ?_, ?_, rfl⟩,
    ⟨1, 2, ex1, ex1, 0, ?_, ?_, rfl⟩,
    ⟨1, 2, ex1, ex1, 0, ?_, ?_, rfl⟩⟩
    <;> (try simp only [ok_iff]) <;> decide +kernel

/-- The hypotheses of each clause of IntegerFieldsAndConstants can be met together. -/
theorem witness_IntegerFieldsAndConstants :
    (∃ (w : _) (d : _) (a : _) (p : _) (l : _) (s : State) (t : State) (h : Handle),
      (Instr.ext w d a p l).wellFormed = true ∧
      s.clear (.ext w d a p l : Instr) = true ∧
      (d : GReg) ≠ 0 ∧
      s.conj (([a] : List GReg).map fun r => (s.me.g r).lab) = .ok h t) ∧
    (∃ (w : _) (d : _) (a : _) (p : _) (l : _) (s : State) (t : State) (h : Handle),
      (Instr.extz w d a p l).wellFormed = true ∧
      s.clear (.extz w d a p l : Instr) = true ∧
      (d : GReg) ≠ 0 ∧
      s.conj (([a] : List GReg).map fun r => (s.me.g r).lab) = .ok h t) ∧
    (∃ (w : _) (d : _) (a : _) (p : _) (l : _) (s : State) (t : State) (h : Handle),
      (Instr.ins w d a p l).wellFormed = true ∧
      s.clear (.ins w d a p l : Instr) = true ∧
      (d : GReg) ≠ 0 ∧
      s.conj (([d, a] : List GReg).map fun r => (s.me.g r).lab) = .ok h t) ∧
    (∃ (d : _) (i : _) (s : State) (t : State) (h : Handle),
      s.clear (.li d i : Instr) = true ∧
      (d : GReg) ≠ 0 ∧
      s.conj (([] : List GReg).map fun r => (s.me.g r).lab) = .ok h t) ∧
    (∃ (d : _) (i : _) (s : State) (t : State) (h : Handle),
      s.clear (.lih d i : Instr) = true ∧
      (d : GReg) ≠ 0 ∧
      s.conj (([d] : List GReg).map fun r => (s.me.g r).lab) = .ok h t) ∧
    (∃ (d : _) (b : _) (o : _) (s : State) (t : State) (h : Handle),
      s.clear (.lea d (.off b o) : Instr) = true ∧
      (d : GReg) ≠ 0 ∧
      s.conj (([b] : List GReg).map fun r => (s.me.g r).lab) = .ok h t) ∧
    (∃ (d : _) (b : _) (x : _) (k : _) (s : State) (t : State) (h : Handle),
      s.clear (.lea d (.idx b x k) : Instr) = true ∧
      (d : GReg) ≠ 0 ∧
      s.conj (([b, x] : List GReg).map fun r => (s.me.g r).lab) = .ok h t) := by
  refine ⟨⟨true, 1, 2, 4, 8, ex1, ex1, 0, ?_, ?_, ?_, rfl⟩,
    ⟨true, 1, 2, 0, 32, ex1, ex1, 0, ?_, ?_, ?_, rfl⟩,
    ⟨true, 5, 2, 24, 8, ex1, ex1, 0, ?_, ?_, ?_, rfl⟩,
    ⟨1, -3, ex1, ex1, 0, ?_, ?_, rfl⟩,
    ⟨5, -3, ex1, ex1, 0, ?_, ?_, rfl⟩,
    ⟨1, 2, -3, ex1, ex1, 0, ?_, ?_, rfl⟩,
    ⟨1, 2, 3, 3, ex1, ex1, 0, ?_, ?_, rfl⟩⟩
    <;> (try simp only [ok_iff]) <;> decide +kernel

/-- The hypotheses of each clause of IntegerFrame can be met together. -/
theorem witness_IntegerFrame :
    (∃ (i : Instr) (u : Alu) (s : State),
      aluOf i = some u ∧
      s.clear i = true) ∧
    (∃ (i : Instr) (u : Alu) (s : State),
      aluOf i = some u ∧
      u.d = 0 ∧
      s.me.raised = 0) := by
  refine ⟨⟨.add false 1 2 3, _, ex1, rfl, ?_⟩,
    ⟨.add false 0 2 3, _, ex1, rfl, ?_, ?_⟩⟩ <;> decide +kernel

/-- The hypotheses of each clause of LabelInstructions can be met together. -/
theorem witness_LabelInstructions :
    (∃ (s : State) (d : _) (n : _),
      s.clear (.assume d n) = true) ∧
    (∃ (s : State) (d : _) (a : _),
      s.clear (.lget d a) = true) ∧
    (∃ (s : State) (d : _) (a : _) (b : _) (h : Handle),
      s.clear (.lset d a b) = true ∧
      s.unlabelled [b] = true ∧
      (s.me.g b).val = h.setWidth 64 ∧
      (s.entryOf s.core s.part h).isSome = true) ∧
    (∃ (s : State) (d : _),
      s.clear (.lclr d) = true) ∧
    (∃ (s : State) (d : _) (a : _),
      s.clear (.ltest d a) = true) ∧
    (∃ (s : State) (d : _) (a : _),
      s.clear (.lcount d a) = true) ∧
    (∃ (s : State) (d : _) (a : _) (b : _),
      s.clear (.lenvget d a b) = true ∧
      s.unlabelled [b] = true) ∧
    (∃ (s : State) (d : _) (a : _) (b : _),
      s.clear (.lunion d a b) = true ∧
      s.lab (s.me.g a).lab = 0xFFFF) ∧
    (∃ (s : State) (d : _) (a : _) (b : _),
      s.clear (.lunion d a b) = true ∧
      s.lab (s.me.g a).lab ≠ 0xFFFF ∧
      s.lab (s.me.g b).lab = 0xFFFF) ∧
    (∃ (s : State) (t : State) (d : _) (a : _) (b : _) (h : _),
      s.clear (.lunion d a b) = true ∧
      s.lab (s.me.g a).lab ≠ 0xFFFF ∧
      s.lab (s.me.g b).lab ≠ 0xFFFF ∧
      (s.me.g a).val = (s.me.g b).val ∧
      s.lookComb true (s.lab (s.me.g a).lab) (s.lab (s.me.g b).lab) = .ok h t) := by
  refine ⟨⟨ex1, 1, 63, ?_⟩,
    ⟨exLab, 1, 7, ?_⟩,
    ⟨exLab, 1, 2, 9, 0x43, ?_⟩,
    ⟨exLab, 7, ?_⟩,
    ⟨exLab, 1, 8, ?_⟩,
    ⟨exLab, 1, 10, ?_⟩,
    ⟨exLab, 1, 10, 11, ?_⟩,
    ⟨exLab, 1, 8, 7, ?_⟩,
    ⟨exLab, 1, 7, 8, ?_⟩,
    ⟨exLab, exLab, 1, 7, 7, 3, ?_, ?_, ?_, ?_, rfl⟩⟩
    <;> (try simp only [ok_iff]) <;> decide +kernel

/-- The hypotheses of each clause of LabelHomeInstructions can be met together. -/
theorem witness_LabelHomeInstructions :
    (∃ (s : State) (t : _) (a : _),
      s.clear (.nogood t a) = true ∧
      t ≠ 0 ∧
      s.lab (s.me.g a).lab = 0xFFFF) ∧
    (∃ (s : State) (t : _) (a : _),
      s.clear (.nogood t a) = true ∧
      t ≠ 0 ∧
      s.lab (s.me.g a).lab ≠ 0xFFFF ∧
      s.envsOf s.core s.part (s.me.g a).lab ≠ [0]) ∧
    (∃ (s : State) (a : _),
      s.clear (.lwin a) = true ∧
      Root s ∧
      s.unlabelled [a] = true ∧
      (s.me.g a).val.toNat < 2 ^ 24 ∧
      (s.partAt s.part).table.all (fun e => decide (e.1 < 65)) = true ∧
      (s.partAt s.part).blight = []) ∧
    (∃ (s : State),
      s.clear .lflush = true ∧
      Root s) := by
  refine ⟨⟨exLab, 1, 8, ?_⟩,
    ⟨exLab, 1, 10, ?_⟩,
    ⟨exRoot, 12, ?_⟩,
    ⟨exRoot, ?_⟩⟩
    <;> (try simp only [Root]) <;> decide +kernel

/-- The hypotheses of each clause of ControlTransfers can be met together. -/
theorem witness_ControlTransfers :
    (∃ (s : State),
      s.clear .nop = true) ∧
    (∃ (s : State) (i : Nat) (j : Nat) (disp : BitVec 40),
      s.clear (.br disp) = true ∧
      s.me.pc = slotAddr i ∧
      SlotOk i ∧
      SlotOk j ∧
      (j : Int) = i + disp.toInt) ∧
    (∃ (s : State) (i : Nat) (j : Nat) (c : _) (a : _) (b : _) (disp : BitVec 40),
      s.clear (.brCond c a b disp) = true ∧
      s.unlabelled [a, b] = true ∧
      s.me.pc = slotAddr i ∧
      SlotOk i ∧
      SlotOk j ∧
      (j : Int) = i + disp.toInt ∧
      taken c (s.me.g a).val (s.me.g b).val = true) ∧
    (∃ (s : State) (c : _) (a : _) (b : _) (disp : BitVec 40),
      s.clear (.brCond c a b disp) = true ∧
      s.unlabelled [a, b] = true ∧
      taken c (s.me.g a).val (s.me.g b).val = false) ∧
    (∃ (s : State) (i : Nat) (j : Nat) (disp : BitVec 40),
      s.clear (.call disp) = true ∧
      s.me.pc = slotAddr i ∧
      SlotOk i ∧
      SlotOk j ∧
      (j : Int) = i + disp.toInt) ∧
    (∃ (s : State) (a : _),
      s.clear (.callr a) = true ∧
      s.unlabelled [a] = true) ∧
    (∃ (s : State) (a : _),
      s.clear (.jr a) = true ∧
      s.unlabelled [a] = true) ∧
    (∃ (s : State) (i : Nat) (j : Nat) (c : _) (disp : BitVec 40),
      s.clear (.loop c disp) = true ∧
      s.unlabelled [c] = true ∧
      c ≠ 0 ∧
      (s.me.g c).val ≠ 1 ∧
      s.me.pc = slotAddr i ∧
      SlotOk i ∧
      SlotOk j ∧
      (j : Int) = i + disp.toInt) ∧
    (∃ (s : State) (c : _) (disp : BitVec 40),
      s.clear (.loop c disp) = true ∧
      s.unlabelled [c] = true ∧
      c ≠ 0 ∧
      (s.me.g c).val = 1) ∧
    (∃ (s : State) (disp : BitVec 40),
      s.clear (.loop 0 disp) = true) := by
  refine ⟨⟨ex1, ?_⟩,
    ⟨ex1, 320, 319, -1, ?_⟩,
    ⟨ex1, 320, 326, .lt, 2, 3, 6, ?_⟩,
    ⟨ex1, .ge, 2, 3, 6, ?_⟩,
    ⟨ex1, 320, 319, -1, ?_⟩,
    ⟨ex1, 2, ?_⟩,
    ⟨ex1, 2, ?_⟩,
    ⟨ex1, 320, 319, 5, -1, ?_⟩,
    ⟨ex1, 6, -1, ?_⟩,
    ⟨ex1, -1, ?_⟩⟩
    <;> (try simp only [SlotOk]) <;> decide +kernel

/-- The hypotheses of each clause of ControlTransferTraps can be met together. -/
theorem witness_ControlTransferTraps :
    (∃ (s : State) (disp : BitVec 40),
      s.clear (.br disp) = true ∧
      LeavesSpace s disp) ∧
    (∃ (s : State) (c : _) (a : _) (b : _) (disp : BitVec 40),
      s.clear (.brCond c a b disp) = true ∧
      s.unlabelled [a, b] = true ∧
      taken c (s.me.g a).val (s.me.g b).val = true ∧
      LeavesSpace s disp) ∧
    (∃ (s : State) (disp : BitVec 40),
      s.clear (.call disp) = true ∧
      LeavesSpace s disp) ∧
    (∃ (s : State) (c : _) (disp : BitVec 40),
      s.clear (.loop c disp) = true ∧
      s.unlabelled [c] = true ∧
      c ≠ 0 ∧
      (s.me.g c).val ≠ 1 ∧
      LeavesSpace s disp) ∧
    (∃ (s : State) (k : _) (a : _) (b : _) (disp : BitVec 40),
      s.clear (.spawnMark k a b disp) = true ∧
      s.unlabelled [k] = true ∧
      ((s.me.g k).val = 0 ∨ ∃ l, s.joinSpot (s.me.g k).val [] = .ok l) ∧
      LeavesSpace s disp) ∧
    (∃ (c : _) (a : _) (b : _) (disp : _) (s : State) (pre : _) (r : _) (post : _),
      s.clear (.brCond c a b disp : Instr) = true ∧
      ([a, b] : List GReg) = pre ++ r :: post ∧
      (∀ q ∈ pre, s.lab (s.me.g q).lab ≠ 0xFFFF) ∧
      s.lab (s.me.g r).lab = 0xFFFF) ∧
    (∃ (c : _) (a : _) (b : _) (disp : _) (s : State) (pre : _) (r : _) (post : _),
      s.clear (.brCond c a b disp : Instr) = true ∧
      ([a, b] : List GReg) = pre ++ r :: post ∧
      (∀ q ∈ ([a, b] : List GReg), s.lab (s.me.g q).lab ≠ 0xFFFF) ∧
      (∀ q ∈ pre, s.lab (s.me.g q).lab = 0) ∧
      s.lab (s.me.g r).lab ≠ 0) ∧
    (∃ (a : _) (s : State) (pre : _) (r : _) (post : _),
      s.clear (.jr a : Instr) = true ∧
      ([a] : List GReg) = pre ++ r :: post ∧
      (∀ q ∈ pre, s.lab (s.me.g q).lab ≠ 0xFFFF) ∧
      s.lab (s.me.g r).lab = 0xFFFF) ∧
    (∃ (a : _) (s : State) (pre : _) (r : _) (post : _),
      s.clear (.jr a : Instr) = true ∧
      ([a] : List GReg) = pre ++ r :: post ∧
      (∀ q ∈ ([a] : List GReg), s.lab (s.me.g q).lab ≠ 0xFFFF) ∧
      (∀ q ∈ pre, s.lab (s.me.g q).lab = 0) ∧
      s.lab (s.me.g r).lab ≠ 0) ∧
    (∃ (a : _) (s : State) (pre : _) (r : _) (post : _),
      s.clear (.callr a : Instr) = true ∧
      ([a] : List GReg) = pre ++ r :: post ∧
      (∀ q ∈ pre, s.lab (s.me.g q).lab ≠ 0xFFFF) ∧
      s.lab (s.me.g r).lab = 0xFFFF) ∧
    (∃ (a : _) (s : State) (pre : _) (r : _) (post : _),
      s.clear (.callr a : Instr) = true ∧
      ([a] : List GReg) = pre ++ r :: post ∧
      (∀ q ∈ ([a] : List GReg), s.lab (s.me.g q).lab ≠ 0xFFFF) ∧
      (∀ q ∈ pre, s.lab (s.me.g q).lab = 0) ∧
      s.lab (s.me.g r).lab ≠ 0) ∧
    (∃ (c : _) (disp : _) (s : State) (pre : _) (r : _) (post : _),
      s.clear (.loop c disp : Instr) = true ∧
      ([c] : List GReg) = pre ++ r :: post ∧
      (∀ q ∈ pre, s.lab (s.me.g q).lab ≠ 0xFFFF) ∧
      s.lab (s.me.g r).lab = 0xFFFF) ∧
    (∃ (c : _) (disp : _) (s : State) (pre : _) (r : _) (post : _),
      s.clear (.loop c disp : Instr) = true ∧
      ([c] : List GReg) = pre ++ r :: post ∧
      (∀ q ∈ ([c] : List GReg), s.lab (s.me.g q).lab ≠ 0xFFFF) ∧
      (∀ q ∈ pre, s.lab (s.me.g q).lab = 0) ∧
      s.lab (s.me.g r).lab ≠ 0) ∧
    (∃ (k : _) (a : _) (b : _) (disp : _) (s : State) (pre : _) (r : _) (post : _),
      s.clear (.spawnMark k a b disp : Instr) = true ∧
      ([k] : List GReg) = pre ++ r :: post ∧
      (∀ q ∈ pre, s.lab (s.me.g q).lab ≠ 0xFFFF) ∧
      s.lab (s.me.g r).lab = 0xFFFF) ∧
    (∃ (k : _) (a : _) (b : _) (disp : _) (s : State) (pre : _) (r : _) (post : _),
      s.clear (.spawnMark k a b disp : Instr) = true ∧
      ([k] : List GReg) = pre ++ r :: post ∧
      (∀ q ∈ ([k] : List GReg), s.lab (s.me.g q).lab ≠ 0xFFFF) ∧
      (∀ q ∈ pre, s.lab (s.me.g q).lab = 0) ∧
      s.lab (s.me.g r).lab ≠ 0) ∧
    (∃ (p : _) (k : _) (a : _) (b : _) (s : State) (pre : _) (r : _) (post : _),
      s.clear (.spawnReg p k a b : Instr) = true ∧
      ([k, p] : List GReg) = pre ++ r :: post ∧
      (∀ q ∈ pre, s.lab (s.me.g q).lab ≠ 0xFFFF) ∧
      s.lab (s.me.g r).lab = 0xFFFF) ∧
    (∃ (p : _) (k : _) (a : _) (b : _) (s : State) (pre : _) (r : _) (post : _),
      s.clear (.spawnReg p k a b : Instr) = true ∧
      ([k, p] : List GReg) = pre ++ r :: post ∧
      (∀ q ∈ ([k, p] : List GReg), s.lab (s.me.g q).lab ≠ 0xFFFF) ∧
      (∀ q ∈ pre, s.lab (s.me.g q).lab = 0) ∧
      s.lab (s.me.g r).lab ≠ 0) := by
  refine ⟨⟨ex1, -321, ?_, ⟨320, by decide, (by unfold SlotOk; decide), .inl (by decide)⟩⟩,
    ⟨ex1, .lt, 2, 3, -321, ?_, ?_, ?_, ⟨320, by decide, (by unfold SlotOk; decide), .inl (by decide)⟩⟩,
    ⟨ex1, -321, ?_, ⟨320, by decide, (by unfold SlotOk; decide), .inl (by decide)⟩⟩,
    ⟨ex1, 5, -321, ?_, ?_, ?_, ?_, ⟨320, by decide, (by unfold SlotOk; decide), .inl (by decide)⟩⟩,
    ⟨ex1, 0, 2, 3, -321, ?_, ?_, .inl (by decide), ⟨320, by decide, (by unfold SlotOk; decide), .inl (by decide)⟩⟩,
    ⟨.eq, 7, 8, 0, exLab, [7], 8, [], ?_⟩,
    ⟨.eq, 2, 7, 0, exLab, [2], 7, [], ?_⟩,
    ⟨8, exLab, [], 8, [], ?_⟩,
    ⟨7, exLab, [], 7, [], ?_⟩,
    ⟨8, exLab, [], 8, [], ?_⟩,
    ⟨7, exLab, [], 7, [], ?_⟩,
    ⟨8, 0, exLab, [], 8, [], ?_⟩,
    ⟨7, 0, exLab, [], 7, [], ?_⟩,
    ⟨8, 1, 2, 0, exLab, [], 8, [], ?_⟩,
    ⟨7, 1, 2, 0, exLab, [], 7, [], ?_⟩,
    ⟨8, 0, 1, 2, exLab, [0], 8, [], ?_⟩,
    ⟨7, 0, 1, 2, exLab, [0], 7, [], ?_⟩⟩
    <;> (try simp only [LeavesSpace, SlotOk, ball_iff, ex_some, ok_iff]) <;> decide +kernel

/-- The hypotheses of each clause of WorkItems can be met together. -/
theorem witness_WorkItems :
    (∃ (s : State) (i : Nat) (j : Nat) (k : _) (a : _) (b : _) (disp : _),
      s.clear (.spawnMark k a b disp) = true ∧
      s.unlabelled [k] = true ∧
      s.me.pc = slotAddr i ∧
      SlotOk i ∧
      SlotOk j ∧
      (j : Int) = i + disp.toInt ∧
      ((s.me.g k).val = 0 ∨ ∃ l, s.joinSpot (s.me.g k).val [] = .ok l) ∧
      DequeRoom s) ∧
    (∃ (s : State) (p : _) (k : _) (a : _) (b : _),
      s.clear (.spawnReg p k a b) = true ∧
      s.unlabelled [k, p] = true ∧
      ((s.me.g k).val = 0 ∨ ∃ l, s.joinSpot (s.me.g k).val [] = .ok l) ∧
      DequeRoom s) ∧
    (∃ (s : State) (b : _) (n : _) (l : _),
      s.clear (.jinit b n) = true ∧
      s.unlabelled [b] = true ∧
      s.Inv ∧
      (Instr.jinit b n).wellFormed = true ∧
      JoinWord s (s.me.g b).val .store l) ∧
    (∃ (s : State) (b : _) (off : _) (l : _),
      s.clear (.join b off) = true ∧
      s.unlabelled [b] = true ∧
      JoinWord s (s.me.eaOff b off) .load l ∧
      s.here.window = [] ∧
      s.natAt l.ha 4 = 0 ∧
      s.tagAt l.ha = 0) ∧
    (∃ (s : State) (it : CurItem) (l : _),
      s.clear .done = true ∧
      (¬ Root s) ∧
      s.me.pend = [] ∧
      s.Inv ∧
      s.me.item = some it ∧
      it.kind = .spawn ∧
      it.join ≠ 0 ∧
      it.join.toNat / 2 ^ 48 ≠ 0x1FE ∧
      s.me.out ≠ .doneOk ∧
      JoinWord s it.join .store l ∧
      s.here.window = [] ∧
      s.allPerformed = true ∧
      0 < s.natAt l.ha 4) ∧
    (∃ (s : State),
      s.clear .done = true ∧
      (¬ Root s) ∧
      s.me.pend = [] ∧
      s.allPerformed = true ∧
      (∀ it, s.me.item = some it → it.kind ≠ .spawn ∨ it.join = 0)) := by
  refine ⟨⟨ex1, 320, 319, 0, 2, 3, -1, ?_⟩,
    ⟨ex1, 2, 14, 2, 3, ?_⟩,
    ⟨ex1, 14, 5, {ha := 0x1FF000000000040, home := 0, ls := true}, ?_⟩,
    ⟨ex1, 14, 0, {ha := 0x1FF000000000040, home := 0, ls := true}, ?_⟩,
    ⟨exDone, {kind := .spawn, join := 0x1FF000000000040}, {ha := 0x1FF000000000040, home := 0, ls := true}, ?_⟩,
    ⟨ex1, ?_⟩⟩
    <;> (try simp only [Root, SlotOk, DequeRoom, JoinWord, State.Inv, ex_some, ok_iff]) <;> decide +kernel

/-- The hypotheses of each clause of ContextControl can be met together. -/
theorem witness_ContextControl :
    (∃ (s : State) (a : _) (pool : Bool),
      s.clear (if pool then .startPool a else .start a) = true ∧
      Root s ∧
      MaskOk (s.me.g a).val ∧
      s.lab (s.me.g a).lab = 0 ∧
      (∀ n, n < 16 → (s.me.g a).val.getLsbD n = true → (s.ctxAt s.core (s.key + n)).run = .idle)) ∧
    (∃ (s : State) (a : _),
      s.clear (.reap a) = true ∧
      Root s ∧
      s.unlabelled [a] = true ∧
      MaskOk (s.me.g a).val ∧
      (∀ n, n < 16 → (s.me.g a).val.getLsbD n = true → (s.ctxAt s.core (s.key + n)).pooled = true) ∧
      s.reapReady s.core s.key ((s.me.g a).val.setWidth 16) = true) ∧
    (∃ (s : State),
      s.clear .yield = true ∧
      realKey s.key % 16 ≠ 15) ∧
    (∃ (s : State),
      s.clear .idle = true ∧
      Root s ∧
      (s.here.resident[keySet s.key]?.getD {}).held = false ∧
      s.me.pend = [] ∧
      s.waitingLaunch s.core = none) := by
  refine ⟨⟨exRoot, 15, true, ?_⟩,
    ⟨exReap, 15, ?_⟩,
    ⟨ex1, ?_⟩,
    ⟨exRoot, ?_⟩⟩
    <;> (try simp only [Root, MaskOk]) <;> decide +kernel

/-- The hypotheses of each clause of TrapEntry can be met together. -/
theorem witness_TrapEntry :
    (∃ (s : State) (trap : Nat),
      CanTrap s ∧
      trap < 256) := by
  refine ⟨ex1, 7, ?_⟩
    <;> (try simp only [CanTrap]) <;> decide +kernel

/-- The hypotheses of each clause of TrapAndDebugBreak can be met together. -/
theorem witness_TrapAndDebugBreak :
    (∃ (s : State) (n : BitVec 40),
      s.clear (.trap n) = true ∧
      CanTrap s ∧
      (Instr.trap n).wellFormed = true) ∧
    (∃ (s : State),
      s.clear .dbgbrk = true ∧
      CanTrap s ∧
      s.me.dbg.attach = false) ∧
    (∃ (s : State),
      s.clear .dbgbrk = true ∧
      s.me.dbg.attach = true) := by
  refine ⟨⟨ex1, 255, ?_⟩,
    ⟨ex1, ?_⟩,
    ⟨one {run1 with dbg := {attach := true}}, ?_⟩⟩
    <;> (try simp only [CanTrap]) <;> decide +kernel

/-- The hypotheses of each clause of ReturnFromTrap can be met together. -/
theorem witness_ReturnFromTrap :
    (∃ (s : State),
      s.clear .eret = true ∧
      s.me.eheld = true ∧
      (Root s → (s.here.resident[s.key / 16]?.getD {}).held = false) ∧
      s.ctx.val = s.key % 16) ∧
    (∃ (s : State),
      s.clear .eret = true ∧
      s.me.eheld = false ∧
      (Root s → (s.here.resident[s.key / 16]?.getD {}).held = false) ∧
      s.ctx.val = s.key % 16) := by
  refine ⟨⟨exHeld, ?_⟩,
    ⟨ex1, ?_⟩⟩
    <;> (try simp only [Root]) <;> decide +kernel

/-- The hypotheses of each clause of DoubleTrap can be met together. -/
theorem witness_DoubleTrap :
    (∃ (s : State),
      s.me.eheld = true ∧
      (s.key % 16 = 0 → (s.here.resident[s.key / 16]?.getD {}).held = false)) := by
  refine ⟨exHeld, ?_⟩ <;> decide +kernel

/-- The hypotheses of each clause of PendingTokens can be met together. -/
theorem witness_PendingTokens :
    (∃ (s : State) (i : _) (w : _),
      encode i = some w ∧
      i.inert = false ∧
      (∃ r ∈ gRefs i.use.w, r ∈ s.me.pend)) ∧
    (∃ (s : State) (i : _) (w : _),
      encode i = some w ∧
      i.inert = false ∧
      s.slotIllegal i = false ∧
      (∃ r ∈ gRefs i.use.r, r ∈ s.me.pend)) ∧
    (∃ (s : State) (d : _),
      d ∈ s.me.pend ∧
      d ≠ 0) ∧
    (∃ (s : State) (a : _),
      a ∈ s.me.pend ∧
      s.slotIllegal (.jr a) = false) := by
  refine ⟨⟨exPend, .sub false 2 1 3, (encode (.sub false 2 1 3)).getD 0, ?_⟩,
    ⟨exPend, .ld .w none false 1 (.off 2 0), (encode (.ld .w none false 1 (.off 2 0))).getD 0, ?_⟩,
    ⟨exPend, 2, ?_⟩,
    ⟨exPend, 2, ?_⟩⟩ <;> decide +kernel

/-- The hypotheses of each clause of LoadInstructions can be met together. -/
theorem witness_LoadInstructions :
    (∃ (s : State) (sz : _) (acq : _) (xp : _) (d : _) (m : _) (l : _) (h : _),
      s.clear (.ld sz acq xp d m) = true ∧
      s.unlabelled m.regs = true ∧
      s.check (s.me.ea m) (sizeBytes sz) (sizeBytes sz) .load = .ok l ∧
      OwnHome s l ∧
      (acq.isSome = true → s.here.window = []) ∧
      Loads s l (sizeBytes sz) h) ∧
    (∃ (s : State) (sz : _) (acq : _) (xp : _) (d : _) (m : _) (l : _) (h : _),
      s.clear (.ldz sz acq xp d m) = true ∧
      s.unlabelled m.regs = true ∧
      s.check (s.me.ea m) (sizeBytes sz) (sizeBytes sz) .load = .ok l ∧
      OwnHome s l ∧
      (acq.isSome = true → s.here.window = []) ∧
      Loads s l (sizeBytes sz) h) ∧
    (∃ (s : State) (sz : _) (acq : _) (d : _) (m : _) (l : _) (h : _),
      s.clear (.fld sz acq d m) = true ∧
      s.unlabelled m.regs = true ∧
      s.check (s.me.ea m) (wdBytes sz) (wdBytes sz) .load = .ok l ∧
      OwnHome s l ∧
      (acq.isSome = true → s.here.window = []) ∧
      Loads s l (wdBytes sz) h) := by
  refine ⟨⟨exMem, .d, none, false, 1, .off 14 0, {ha := 0x1FF000000000040, home := 0, ls := true}, 0, ?_⟩,
    ⟨exMem, .d, none, false, 1, .off 16 0, {ha := 0x1FF000000000FF8, home := 0, ls := true}, 0, ?_⟩,
    ⟨exTag, .w, none, 1, .off 14 0, {ha := 0x1FF000000000040, home := 0, ls := true}, 5, ?_⟩⟩
    <;> (try simp only [OwnHome, Loads, ok_iff]) <;> decide +kernel

/-- The hypotheses of each clause of StoreInstructions can be met together. -/
theorem witness_StoreInstructions :
    (∃ (s : State) (sz : _) (o : _) (a : _) (m : _) (l : _),
      s.clear (.st sz o a m) = true ∧
      s.unlabelled m.regs = true ∧
      s.Inv ∧
      s.check (s.me.ea m) (sizeBytes sz) (sizeBytes sz) .store (o == .post) = .ok l ∧
      OwnHome s l ∧
      Ordered s (StOrd.rel? o) ∧
      Takes s l (sizeBytes sz) (s.me.g a)) ∧
    (∃ (s : State) (sz : _) (rel : _) (a : _) (m : _) (l : _),
      s.clear (.fst sz rel a m) = true ∧
      s.unlabelled m.regs = true ∧
      s.Inv ∧
      s.check (s.me.ea m) (wdBytes sz) (wdBytes sz) .store = .ok l ∧
      OwnHome s l ∧
      Ordered s rel ∧
      Takes s l (wdBytes sz) (s.me.f a)) := by
  refine ⟨⟨exTag, .d, .plain, 2, .off 14 0, {ha := 0x1FF000000000040, home := 0, ls := true}, ?_⟩,
    ⟨exTag, .w, none, 2, .off 14 0, {ha := 0x1FF000000000040, home := 0, ls := true}, ?_⟩⟩
    <;> (try simp only [OwnHome, Ordered, Takes, State.Inv, StOrd.rel?, ok_iff, Option.some.injEq, forall_eq', reduceCtorEq, false_implies, implies_true, StOrd.rel?]) <;> decide +kernel

/-- The hypotheses of each clause of SynchronisingAccesses can be met together. -/
theorem witness_SynchronisingAccesses :
    (∃ (s : State) (sz : _) (d : _) (m : _) (l : _) (h : _),
      s.clear (.lds sz d m) = true ∧
      s.unlabelled m.regs = true ∧
      s.check (s.me.ea m) (wdBytes sz) (wdBytes sz) .sync = .ok l ∧
      OwnHome s l ∧
      s.here.window = [] ∧
      (∀ i, 4 * i < wdBytes sz → s.fullAt (l.ha + 4 * i) = true) ∧
      Loads s l (wdBytes sz) h) ∧
    (∃ (s : State) (sz : _) (d : _) (m : _) (l : _) (h : _),
      s.clear (.ldf sz d m) = true ∧
      s.unlabelled m.regs = true ∧
      s.check (s.me.ea m) (wdBytes sz) (wdBytes sz) .sync = .ok l ∧
      OwnHome s l ∧
      s.here.window = [] ∧
      (∀ i, 4 * i < wdBytes sz → s.fullAt (l.ha + 4 * i) = true) ∧
      Loads s l (wdBytes sz) h) ∧
    (∃ (s : State) (sz : _) (a : _) (m : _) (l : _),
      s.clear (.sts sz a m) = true ∧
      s.unlabelled m.regs = true ∧
      s.Inv ∧
      s.check (s.me.ea m) (wdBytes sz) (wdBytes sz) .sync = .ok l ∧
      OwnHome s l ∧
      Ordered s (some .co) ∧
      (∀ i, 4 * i < wdBytes sz → s.fullAt (l.ha + 4 * i) = false)) ∧
    (∃ (s : State) (sz : _) (a : _) (m : _) (l : _),
      s.clear (.stf sz a m) = true ∧
      s.unlabelled m.regs = true ∧
      s.Inv ∧
      s.check (s.me.ea m) (wdBytes sz) (wdBytes sz) .sync = .ok l ∧
      OwnHome s l ∧
      Ordered s (some .co)) ∧
    (∃ (s : State) (m : _) (l : _),
      s.clear (.feclr m) = true ∧
      s.unlabelled m.regs = true ∧
      s.check (s.me.ea m) 4 4 .sync = .ok l ∧
      OwnHome s l) ∧
    (∃ (s : State) (sz : _) (d : _) (m : _) (l : _),
      s.clear (.lds sz d m) = true ∧
      s.unlabelled m.regs = true ∧
      s.check (s.me.ea m) (wdBytes sz) (wdBytes sz) .sync = .ok l ∧
      OwnHome s l ∧
      s.fullAt l.ha = false) := by
  refine ⟨⟨exTag, .d, 1, .off 14 0, {ha := 0x1FF000000000040, home := 0, ls := true}, 5, ?_⟩,
    ⟨exTag, .w, 1, .off 14 0, {ha := 0x1FF000000000040, home := 0, ls := true}, 5, ?_⟩,
    ⟨exEmpty, .d, 2, .off 14 0, {ha := 0x1FF000000000040, home := 0, ls := true}, ?_⟩,
    ⟨exEmpty, .w, 2, .off 14 0, {ha := 0x1FF000000000040, home := 0, ls := true}, ?_⟩,
    ⟨exTag, .off 14 0, {ha := 0x1FF000000000040, home := 0, ls := true}, ?_⟩,
    ⟨exEmpty, .d, 2, .off 14 0, {ha := 0x1FF000000000040, home := 0, ls := true}, ?_⟩⟩
    <;> (try simp only [OwnHome, Ordered, Loads, State.Inv, four_iff, ok_iff, Option.some.injEq, forall_eq', reduceCtorEq, false_implies, implies_true]) <;> decide +kernel

/-- The hypotheses of each clause of Fences can be met together. -/
theorem witness_Fences :
    (∃ (s : State) (sc : _),
      s.clear (.fence sc) = true ∧
      s.orderly sc = true) ∧
    (∃ (s : State) (sc : _),
      s.clear (.fence sc) = true ∧
      s.orderly sc = false) ∧
    (∃ (s : State) (p : _) (q : _),
      s.clear (.fenceX p q) = true ∧
      ((p = .th ∨ q = .th) → s.allPerformed = true) ∧
      s.here.copyEng.buf = [] ∧
      s.here.xformEng.buf = [] ∧
      s.me.goal = [] ∧
      ((p = .cp ∨ q = .cp) → s.here.copyEng.accepted ≤ s.here.copyEng.completed) ∧
      ((p = .xf ∨ q = .xf) → s.here.xformEng.accepted ≤ s.here.xformEng.completed) ∧
      ((p = .mx ∨ q = .mx) → s.here.matrix.h0.accepted ≤ s.here.matrix.h0.completed ∧ s.here.matrix.h1.accepted ≤ s.here.matrix.h1.completed)) ∧
    (∃ (s : State) (p : _) (q : _),
      s.clear (.fenceX p q) = true ∧
      s.me.goal = [] ∧
      (p = .cp ∨ q = .cp) ∧
      s.here.copyEng.completed < s.here.copyEng.accepted) := by
  refine ⟨⟨exMem, .sy, ?_⟩,
    ⟨one memRegs { journal := (Vector.replicate 32 {}).set 0 { st := .outstanding, key := 1, home := 1 } }, .cl, ?_⟩,
    ⟨exMem, .th, .gr, ?_⟩,
    ⟨one memRegs { copyEng := { accepted := 1 } }, .th, .cp, ?_⟩⟩ <;> decide +kernel

/-- The hypotheses of each clause of AccessTraps can be met together. -/
theorem witness_AccessTraps :
    (∃ (s : State) (sz : _) (a : _) (m : _) (l : _),
      s.clear (.st sz .plain a m) = true ∧
      s.unlabelled m.regs = true ∧
      CanTrap s ∧
      s.check (s.me.ea m) (sizeBytes sz) (sizeBytes sz) .store = .ok l ∧
      OwnHome s l ∧
      (l.fixed = true ∨ s.readOnly l.ha (sizeBytes sz) = true)) ∧
    (∃ (s : State) (sz : _) (acq : _) (xp : _) (d : _) (m : _),
      s.clear (.ld sz acq xp d m) = true ∧
      s.unlabelled m.regs = true ∧
      CanTrap s ∧
      2 ^ 57 ≤ (s.me.ea m).toNat) ∧
    (∃ (s : State) (sz : _) (acq : _) (xp : _) (d : _) (m : _),
      s.clear (.ld sz acq xp d m) = true ∧
      s.unlabelled m.regs = true ∧
      CanTrap s ∧
      (s.me.ea m).toNat / 2 ^ 48 = 0x1FD) ∧
    (∃ (s : State) (sz : _) (rel : _) (a : _) (m : _),
      s.clear (.fst sz rel a m) = true ∧
      s.unlabelled m.regs = true ∧
      CanTrap s ∧
      (s.me.ea m).toNat / 2 ^ 48 = 0x1FE ∧
      2 ^ 20 ≤ (s.me.ea m).toNat % 2 ^ 48) ∧
    (∃ (s : State) (sz : _) (o : _) (a : _) (m : _),
      s.clear (.st sz o a m) = true ∧
      s.unlabelled m.regs = true ∧
      s.window s.core s.key (s.me.ea m).toNat = none ∧
      (s.me.ea m).toNat % sizeBytes sz ≠ 0) ∧
    (∃ (s : State) (sz : _) (d : _) (m : _),
      s.clear (.lds sz d m) = true ∧
      s.unlabelled m.regs = true ∧
      CanTrap s ∧
      (s.me.ea m).toNat < 0x1FD000000000000) ∧
    (∃ (s : State) (sz : _) (acq : _) (xp : _) (d : _) (m : _),
      s.clear (.ldz sz acq xp d m) = true ∧
      s.unlabelled m.regs = true ∧
      (s.me.ea m).toNat < 0x1FD000000000000 ∧
      (s.me.ea m).toNat % sizeBytes sz = 0 ∧
      (∀ i (h : i < 4), (s.me.watch[i]).getLsbD 63 = false) ∧
      s.here.tlb = []) := by
  refine ⟨⟨{ exChan with parts := [(thisPart, { record := BitVec.ofNat 512 (2 ^ 63 + 0x20000 * 2 ^ 170) })] }, .d, 1, .off 24 0, { ha := 0x20000, home := 16, ls := false, fixed := true }, ?_⟩,
    ⟨exMem, .d, none, false, 1, .off 17 0, ?_⟩,
    ⟨exMem, .d, none, false, 1, .off 18 0, ?_⟩,
    ⟨exMem, .d, none, 1, .off 19 0, ?_⟩,
    ⟨exMem, .w, .plain, 1, .off 20 0, ?_⟩,
    ⟨exMem, .w, 1, .off 20 0, ?_⟩,
    ⟨exMem, .w, none, false, 1, .off 20 2, ?_⟩⟩
    <;> (try simp only [OwnHome, CanTrap, ok_iff]) <;> decide +kernel

/-- The hypotheses of each clause of RemoteAccesses can be met together. -/
theorem witness_RemoteAccesses :
    (∃ (s : State) (sz : _) (acq : _) (xp : _) (d : _) (m : _) (l : _),
      s.clear (.ld sz acq xp d m) = true ∧
      s.unlabelled m.regs = true ∧
      s.check (s.me.ea m) (sizeBytes sz) (sizeBytes sz) .load = .ok l ∧
      l.home ≠ s.core) ∧
    (∃ (s : State) (sz : _) (a : _) (m : _) (l : _) (e : _),
      s.clear (.st sz .plain a m) = true ∧
      s.unlabelled m.regs = true ∧
      s.check (s.me.ea m) (sizeBytes sz) (sizeBytes sz) .store = .ok l ∧
      l.home ≠ s.core ∧
      s.here.jqueue = [] ∧
      s.here.freeEntry = some e) ∧
    (∃ (s : State) (sz : _) (a : _) (m : _) (l : _),
      s.clear (.st sz .post a m) = true ∧
      s.unlabelled m.regs = true ∧
      s.check (s.me.ea m) (sizeBytes sz) (sizeBytes sz) .store true = .ok l ∧
      l.home ≠ s.core) ∧
    (∃ (s : State) (sz : _) (a : _) (m : _) (l : _),
      s.clear (.st sz .plain a m) = true ∧
      s.unlabelled m.regs = true ∧
      s.check (s.me.ea m) (sizeBytes sz) (sizeBytes sz) .store = .ok l ∧
      l.home ≠ s.core ∧
      s.here.freeEntry = none) := by
  refine ⟨⟨exTwo, .d, none, false, 1, .off 22 0, {ha := 0x1FF000000100040, home := 1, ls := true}, ?_⟩,
    ⟨exTwo, .d, 2, .off 22 0, {ha := 0x1FF000000100040, home := 1, ls := true}, 0, ?_⟩,
    ⟨exTwo, .w, 2, .off 22 0, {ha := 0x1FF000000100040, home := 1, ls := true}, ?_⟩,
    ⟨exTwo { journal := Vector.replicate 32 { st := .outstanding } }, .d, 2, .off 22 0, {ha := 0x1FF000000100040, home := 1, ls := true}, ?_⟩⟩
    <;> (try simp only [ok_iff]) <;> decide +kernel

/-- The hypotheses of each clause of AtomicInstructions can be met together. -/
theorem witness_AtomicInstructions :
    (∃ (s : State) (sz : _) (o : _) (d : _) (b : _) (off : _) (a : _) (l : _),
      (s.clear ((.aadd : SizeWD → AtOrd → GReg → GReg → BitVec 40 → GReg → Instr) sz o d b off a) = true) ∧
      s.unlabelled [b] = true ∧
      s.Inv ∧
      s.check (s.me.eaOff b off) (wdBytes sz) (wdBytes sz) .atomic = .ok l ∧
      AtomPlace s l (wdBytes sz) ∧
      (s.me.g a).lab = 0 ∧
      AtomOrder s o) ∧
    (∃ (s : State) (sz : _) (o : _) (d : _) (b : _) (off : _) (a : _) (l : _),
      (s.clear ((.aand : SizeWD → AtOrd → GReg → GReg → BitVec 40 → GReg → Instr) sz o d b off a) = true) ∧
      s.unlabelled [b] = true ∧
      s.Inv ∧
      s.check (s.me.eaOff b off) (wdBytes sz) (wdBytes sz) .atomic = .ok l ∧
      AtomPlace s l (wdBytes sz) ∧
      (s.me.g a).lab = 0 ∧
      AtomOrder s o) ∧
    (∃ (s : State) (sz : _) (o : _) (d : _) (b : _) (off : _) (a : _) (l : _),
      (s.clear ((.aor : SizeWD → AtOrd → GReg → GReg → BitVec 40 → GReg → Instr) sz o d b off a) = true) ∧
      s.unlabelled [b] = true ∧
      s.Inv ∧
      s.check (s.me.eaOff b off) (wdBytes sz) (wdBytes sz) .atomic = .ok l ∧
      AtomPlace s l (wdBytes sz) ∧
      (s.me.g a).lab = 0 ∧
      AtomOrder s o) ∧
    (∃ (s : State) (sz : _) (o : _) (d : _) (b : _) (off : _) (a : _) (l : _),
      (s.clear ((.axor : SizeWD → AtOrd → GReg → GReg → BitVec 40 → GReg → Instr) sz o d b off a) = true) ∧
      s.unlabelled [b] = true ∧
      s.Inv ∧
      s.check (s.me.eaOff b off) (wdBytes sz) (wdBytes sz) .atomic = .ok l ∧
      AtomPlace s l (wdBytes sz) ∧
      (s.me.g a).lab = 0 ∧
      AtomOrder s o) ∧
    (∃ (s : State) (sz : _) (o : _) (d : _) (b : _) (off : _) (a : _) (l : _),
      (s.clear ((.aswap : SizeWD → AtOrd → GReg → GReg → BitVec 40 → GReg → Instr) sz o d b off a) = true) ∧
      s.unlabelled [b] = true ∧
      s.Inv ∧
      s.check (s.me.eaOff b off) (wdBytes sz) (wdBytes sz) .atomic = .ok l ∧
      AtomPlace s l (wdBytes sz) ∧
      (s.me.g a).lab = 0 ∧
      AtomOrder s o) ∧
    (∃ (s : State) (sz : _) (o : _) (d : _) (b : _) (off : _) (a : _) (l : _),
      (s.clear ((.amin : SizeWD → AtOrd → GReg → GReg → BitVec 40 → GReg → Instr) sz o d b off a) = true) ∧
      s.unlabelled [b] = true ∧
      s.Inv ∧
      s.check (s.me.eaOff b off) (wdBytes sz) (wdBytes sz) .atomic = .ok l ∧
      AtomPlace s l (wdBytes sz) ∧
      (s.me.g a).lab = 0 ∧
      AtomOrder s o) ∧
    (∃ (s : State) (sz : _) (o : _) (d : _) (b : _) (off : _) (a : _) (l : _),
      (s.clear ((.amax : SizeWD → AtOrd → GReg → GReg → BitVec 40 → GReg → Instr) sz o d b off a) = true) ∧
      s.unlabelled [b] = true ∧
      s.Inv ∧
      s.check (s.me.eaOff b off) (wdBytes sz) (wdBytes sz) .atomic = .ok l ∧
      AtomPlace s l (wdBytes sz) ∧
      (s.me.g a).lab = 0 ∧
      AtomOrder s o) ∧
    (∃ (s : State) (sz : _) (o : _) (d : _) (b : _) (off : _) (a : _) (l : _),
      (s.clear ((.aminu : SizeWD → AtOrd → GReg → GReg → BitVec 40 → GReg → Instr) sz o d b off a) = true) ∧
      s.unlabelled [b] = true ∧
      s.Inv ∧
      s.check (s.me.eaOff b off) (wdBytes sz) (wdBytes sz) .atomic = .ok l ∧
      AtomPlace s l (wdBytes sz) ∧
      (s.me.g a).lab = 0 ∧
      AtomOrder s o) ∧
    (∃ (s : State) (sz : _) (o : _) (d : _) (b : _) (off : _) (a : _) (l : _),
      (s.clear ((.amaxu : SizeWD → AtOrd → GReg → GReg → BitVec 40 → GReg → Instr) sz o d b off a) = true) ∧
      s.unlabelled [b] = true ∧
      s.Inv ∧
      s.check (s.me.eaOff b off) (wdBytes sz) (wdBytes sz) .atomic = .ok l ∧
      AtomPlace s l (wdBytes sz) ∧
      (s.me.g a).lab = 0 ∧
      AtomOrder s o) ∧
    (∃ (s : State) (sz : _) (o : _) (d : _) (b : _) (off : _) (a : _) (c : _) (l : _),
      s.clear (.acas sz o d b off a c) = true ∧
      s.unlabelled [b] = true ∧
      s.Inv ∧
      s.check (s.me.eaOff b off) (wdBytes sz) (wdBytes sz) .atomic = .ok l ∧
      AtomPlace s l (wdBytes sz) ∧
      (s.me.g a).lab = 0 ∧
      (s.me.g c).lab = 0 ∧
      AtomOrder s o) := by
  refine ⟨⟨exMem, .w, .plain, 1, 14, 0, 2, {ha := 0x1FF000000000040, home := 0, ls := true}, ?_⟩,
    ⟨exMem, .d, .acq .pk, 1, 14, 0, 2, {ha := 0x1FF000000000040, home := 0, ls := true}, ?_⟩,
    ⟨exMem, .d, .rel .pk, 0, 14, 0, 2, {ha := 0x1FF000000000040, home := 0, ls := true}, ?_⟩,
    ⟨exMem, .w, .plain, 1, 14, 4, 2, {ha := 0x1FF000000000044, home := 0, ls := true}, ?_⟩,
    ⟨exChan (some 0x30000), .w, .plain, 1, 24, 4, 2, {ha := 0x20004, home := 16, ls := false, plane := some 0x30002}, ?_⟩,
    ⟨exMem, .w, .plain, 1, 14, 4, 2, {ha := 0x1FF000000000044, home := 0, ls := true}, ?_⟩,
    ⟨exMem, .w, .plain, 1, 14, 4, 2, {ha := 0x1FF000000000044, home := 0, ls := true}, ?_⟩,
    ⟨exMem, .d, .plain, 1, 14, 0, 2, {ha := 0x1FF000000000040, home := 0, ls := true}, ?_⟩,
    ⟨exMem, .d, .plain, 1, 14, 0, 2, {ha := 0x1FF000000000040, home := 0, ls := true}, ?_⟩,
    ⟨exMem, .d, .acq .co, 1, 14, 0, 2, 3, {ha := 0x1FF000000000040, home := 0, ls := true}, ?_⟩⟩
    <;> (try simp only [OwnHome, Ordered, AtomPlace, AtomOrder, State.Inv, AtOrd.rel?, AtOrd.acq?, ball_iff, ok_iff, Option.some.injEq, forall_eq', reduceCtorEq, false_implies, implies_true, AtOrd.rel?, AtOrd.acq?]) <;> decide +kernel

/-- The hypotheses of each clause of PostedAndFloatAtomics can be met together. -/
theorem witness_PostedAndFloatAtomics :
    (∃ (s : State) (sz : _) (b : _) (off : _) (a : _) (l : _),
      (s.clear ((.aaddPost : SizeWD → GReg → BitVec 40 → GReg → Instr) sz b off a) = true) ∧
      s.unlabelled [b] = true ∧
      s.Inv ∧
      s.check (s.me.eaOff b off) (wdBytes sz) (wdBytes sz) .atomic true = .ok l ∧
      AtomPlace s l (wdBytes sz) ∧
      (s.me.g a).lab = 0) ∧
    (∃ (s : State) (sz : _) (b : _) (off : _) (a : _) (l : _),
      (s.clear ((.aandPost : SizeWD → GReg → BitVec 40 → GReg → Instr) sz b off a) = true) ∧
      s.unlabelled [b] = true ∧
      s.Inv ∧
      s.check (s.me.eaOff b off) (wdBytes sz) (wdBytes sz) .atomic true = .ok l ∧
      AtomPlace s l (wdBytes sz) ∧
      (s.me.g a).lab = 0) ∧
    (∃ (s : State) (sz : _) (b : _) (off : _) (a : _) (l : _),
      (s.clear ((.aorPost : SizeWD → GReg → BitVec 40 → GReg → Instr) sz b off a) = true) ∧
      s.unlabelled [b] = true ∧
      s.Inv ∧
      s.check (s.me.eaOff b off) (wdBytes sz) (wdBytes sz) .atomic true = .ok l ∧
      AtomPlace s l (wdBytes sz) ∧
      (s.me.g a).lab = 0) ∧
    (∃ (s : State) (sz : _) (b : _) (off : _) (a : _) (l : _),
      (s.clear ((.axorPost : SizeWD → GReg → BitVec 40 → GReg → Instr) sz b off a) = true) ∧
      s.unlabelled [b] = true ∧
      s.Inv ∧
      s.check (s.me.eaOff b off) (wdBytes sz) (wdBytes sz) .atomic true = .ok l ∧
      AtomPlace s l (wdBytes sz) ∧
      (s.me.g a).lab = 0) ∧
    (∃ (s : State) (sz : _) (b : _) (off : _) (a : _) (l : _),
      (s.clear ((.aswapPost : SizeWD → GReg → BitVec 40 → GReg → Instr) sz b off a) = true) ∧
      s.unlabelled [b] = true ∧
      s.Inv ∧
      s.check (s.me.eaOff b off) (wdBytes sz) (wdBytes sz) .atomic true = .ok l ∧
      AtomPlace s l (wdBytes sz) ∧
      (s.me.g a).lab = 0) ∧
    (∃ (s : State) (sz : _) (b : _) (off : _) (a : _) (l : _),
      (s.clear ((.aminPost : SizeWD → GReg → BitVec 40 → GReg → Instr) sz b off a) = true) ∧
      s.unlabelled [b] = true ∧
      s.Inv ∧
      s.check (s.me.eaOff b off) (wdBytes sz) (wdBytes sz) .atomic true = .ok l ∧
      AtomPlace s l (wdBytes sz) ∧
      (s.me.g a).lab = 0) ∧
    (∃ (s : State) (sz : _) (b : _) (off : _) (a : _) (l : _),
      (s.clear ((.amaxPost : SizeWD → GReg → BitVec 40 → GReg → Instr) sz b off a) = true) ∧
      s.unlabelled [b] = true ∧
      s.Inv ∧
      s.check (s.me.eaOff b off) (wdBytes sz) (wdBytes sz) .atomic true = .ok l ∧
      AtomPlace s l (wdBytes sz) ∧
      (s.me.g a).lab = 0) ∧
    (∃ (s : State) (sz : _) (b : _) (off : _) (a : _) (l : _),
      (s.clear ((.aminuPost : SizeWD → GReg → BitVec 40 → GReg → Instr) sz b off a) = true) ∧
      s.unlabelled [b] = true ∧
      s.Inv ∧
      s.check (s.me.eaOff b off) (wdBytes sz) (wdBytes sz) .atomic true = .ok l ∧
      AtomPlace s l (wdBytes sz) ∧
      (s.me.g a).lab = 0) ∧
    (∃ (s : State) (sz : _) (b : _) (off : _) (a : _) (l : _),
      (s.clear ((.amaxuPost : SizeWD → GReg → BitVec 40 → GReg → Instr) sz b off a) = true) ∧
      s.unlabelled [b] = true ∧
      s.Inv ∧
      s.check (s.me.eaOff b off) (wdBytes sz) (wdBytes sz) .atomic true = .ok l ∧
      AtomPlace s l (wdBytes sz) ∧
      (s.me.g a).lab = 0) ∧
    (∃ (s : State) (sz : _) (o : _) (d : _) (b : _) (off : _) (a : _) (l : _) (v : _) (fl : _),
      s.clear (.afadd sz o d b off a) = true ∧
      s.unlabelled [b] = true ∧
      s.Inv ∧
      s.check (s.me.eaOff b off) (wdBytes sz) (wdBytes sz) .atomic = .ok l ∧
      AtomPlace s l (wdBytes sz) ∧
      (s.me.f a).lab = 0 ∧
      AtomOrder s o ∧
      s.me.pair = none ∧
      s.me.raised = 0 ∧
      fAdd (if sz = .w then .f32 else .f64) .rne false (s.natAt l.ha (wdBytes sz)) ((s.me.f a).val.toNat % 2 ^ (8 * wdBytes sz)) = (v, fl) ∧
      fl &&& s.me.fenable = 0) ∧
    (∃ (s : State) (sz : _) (b : _) (off : _) (a : _) (l : _),
      s.clear (.afaddPost sz b off a) = true ∧
      s.unlabelled [b] = true ∧
      s.Inv ∧
      s.check (s.me.eaOff b off) (wdBytes sz) (wdBytes sz) .atomic true = .ok l ∧
      AtomPlace s l (wdBytes sz) ∧
      (s.me.f a).lab = 0) := by
  refine ⟨⟨exMem, .w, 14, 0, 2, {ha := 0x1FF000000000040, home := 0, ls := true}, ?_⟩,
    ⟨exMem, .w, 14, 0, 2, {ha := 0x1FF000000000040, home := 0, ls := true}, ?_⟩,
    ⟨exMem, .w, 14, 0, 2, {ha := 0x1FF000000000040, home := 0, ls := true}, ?_⟩,
    ⟨exMem, .w, 14, 0, 2, {ha := 0x1FF000000000040, home := 0, ls := true}, ?_⟩,
    ⟨exMem, .w, 14, 0, 2, {ha := 0x1FF000000000040, home := 0, ls := true}, ?_⟩,
    ⟨exMem, .w, 14, 0, 2, {ha := 0x1FF000000000040, home := 0, ls := true}, ?_⟩,
    ⟨exMem, .w, 14, 0, 2, {ha := 0x1FF000000000040, home := 0, ls := true}, ?_⟩,
    ⟨exMem, .d, 14, 0, 2, {ha := 0x1FF000000000040, home := 0, ls := true}, ?_⟩,
    ⟨exMem, .d, 14, 0, 2, {ha := 0x1FF000000000040, home := 0, ls := true}, ?_⟩,
    ⟨exMem, .w, .plain, 1, 14, 0, 2, {ha := 0x1FF000000000040, home := 0, ls := true}, (fAdd .f32 .rne false 0x44332211 0).1, (fAdd .f32 .rne false 0x44332211 0).2, ?_⟩,
    ⟨exMem, .d, 14, 0, 2, {ha := 0x1FF000000000040, home := 0, ls := true}, ?_⟩⟩
    <;> (try simp only [OwnHome, Ordered, AtomPlace, AtomOrder, State.Inv, AtOrd.rel?, AtOrd.acq?, ball_iff, ok_iff, Option.some.injEq, forall_eq', reduceCtorEq, false_implies, implies_true, AtOrd.rel?, AtOrd.acq?]) <;> decide +kernel

/-- The hypotheses of each clause of AtomicLabels can be met together. -/
theorem witness_AtomicLabels :
    (∃ (s : State) (o : _) (d : _) (b : _) (off : _) (a : _) (l : _),
      s.clear (.aadd .w o d b off a) = true ∧
      s.unlabelled [b] = true ∧
      s.check (s.me.eaOff b off) 4 4 .atomic = .ok l ∧
      l.ls = true ∧
      OwnHome s l ∧
      s.tagAt l.ha = 0 ∧
      AtomOrder s o) ∧
    (∃ (s : State) (o : _) (d : _) (b : _) (off : _) (a : _) (l : _),
      s.clear (.aswap .w o d b off a) = true ∧
      s.unlabelled [b] = true ∧
      s.check (s.me.eaOff b off) 4 4 .atomic = .ok l ∧
      l.ls = true ∧
      OwnHome s l ∧
      s.tagAt l.ha = 0 ∧
      AtomOrder s o) ∧
    (∃ (s : State) (d : _) (b : _) (off : _) (a : _) (c : _) (l : _),
      s.clear (.acas .w .plain d b off a c) = true ∧
      s.unlabelled [b] = true ∧
      CanTrap s ∧
      s.check (s.me.eaOff b off) 4 4 .atomic = .ok l ∧
      l.ls = true ∧
      OwnHome s l ∧
      s.resolveAt s.part (s.tagAt l.ha) ≠ 0 ∧
      s.resolveAt s.part (s.tagAt l.ha) ≠ 0xFFFF) := by
  refine ⟨⟨exAtLab, .plain, 1, 14, 4, 7, {ha := 0x1FF000000000044, home := 0, ls := true}, ?_⟩,
    ⟨exAtLab, .plain, 1, 14, 4, 7, {ha := 0x1FF000000000044, home := 0, ls := true}, ?_⟩,
    ⟨exAtLab, 1, 14, 0, 2, 3, {ha := 0x1FF000000000040, home := 0, ls := true}, ?_⟩⟩
    <;> (try simp only [OwnHome, Ordered, CanTrap, AtomOrder, AtOrd.rel?, AtOrd.acq?, ok_iff, Option.some.injEq, forall_eq', reduceCtorEq, false_implies, implies_true, AtOrd.rel?, AtOrd.acq?]) <;> decide +kernel

/-- The hypotheses of each clause of MigrantBlocks can be met together. -/
theorem witness_MigrantBlocks :
    (∃ (s : State) (b : _) (off : _) (l : _),
      s.clear (.migrate b off) = true ∧
      s.unlabelled [b] = true ∧
      s.me.pend = [] ∧
      s.check (s.me.eaOff b off) 1 1 .probe = .ok l ∧
      l.ls = false ∧
      l.home = homeOf l.ha ∧
      l.ha / 2 ^ 48 % 8 ≠ 2 ∧
      l.home ≠ s.core) ∧
    (∃ (s : State) (b : _) (off : _) (l : _),
      s.clear (.migrate b off) = true ∧
      s.unlabelled [b] = true ∧
      s.me.pend = [] ∧
      s.check (s.me.eaOff b off) 1 1 .probe = .ok l ∧
      l.ls = false ∧
      l.home = homeOf l.ha ∧
      l.ha / 2 ^ 48 % 8 ≠ 2 ∧
      OwnHome s l ∧
      s.blockCode s.core s.key s.part (nextPc s.me.pc) = .ok [(nextPc s.me.pc, .mret)]) ∧
    (∃ (s : State) (b : _) (off : _) (l : _) (d : _) (a : _) (imm : _),
      s.clear (.migrate b off) = true ∧
      s.unlabelled [b] = true ∧
      s.me.pend = [] ∧
      s.check (s.me.eaOff b off) 1 1 .probe = .ok l ∧
      l.ls = false ∧
      l.home = homeOf l.ha ∧
      l.ha / 2 ^ 48 % 8 ≠ 2 ∧
      OwnHome s l ∧
      1 ≤ d.val ∧
      d.val ≤ 15 ∧
      a.val ≤ 15 ∧
      (s.me.g a).lab = 0 ∧
      s.blockCode s.core s.key s.part (nextPc s.me.pc) = .ok [(nextPc s.me.pc, .addi false d a imm)] ∧
      s.blockCode s.core s.key s.part (nextPc (nextPc s.me.pc)) = .ok [(nextPc (nextPc s.me.pc), .mret)]) ∧
    (∃ (s : State),
      s.clear .mret = true) := by
  refine ⟨⟨exBlkFar, 25, 0, {ha := 0x20100, home := 17, ls := false}, ?_⟩,
    ⟨exBlk wMret 0, 24, 0, {ha := 0x20000, home := 16, ls := false}, ?_⟩,
    ⟨exBlk wAddi wMret, 24, 0, {ha := 0x20000, home := 16, ls := false}, 1, 2, 5, ?_⟩,
    ⟨exMem, ?_⟩⟩
    <;> (try simp only [OwnHome, ok_iff]) <;> decide +kernel

/-- The hypotheses of each clause of Barriers can be met together. -/
theorem witness_Barriers :
    (∃ (s : State) (b : _) (off : _) (a : _) (l : _),
      s.clear (.barinit b off a) = true ∧
      s.unlabelled [b, a] = true ∧
      s.Inv ∧
      BarrierAt s b off l ∧
      0 < (s.me.g a).val.toNat ∧
      (s.me.g a).val.toNat < 2 ^ 32) ∧
    (∃ (s : State) (b : _) (off : _) (a : _) (l : _),
      s.clear (.barinit b off a) = true ∧
      s.unlabelled [b, a] = true ∧
      CanTrap s ∧
      BarrierAt s b off l ∧
      ((s.me.g a).val.toNat = 0 ∨ 2 ^ 32 ≤ (s.me.g a).val.toNat)) ∧
    (∃ (s : State) (b : _) (off : _) (l : _),
      s.clear (.barinitAbort b off) = true ∧
      Root s ∧
      s.unlabelled [b] = true ∧
      s.Inv ∧
      BarrierAt s b off l) ∧
    (∃ (s : State),
      (¬ Root s)) ∧
    (∃ (s : State) (b : _) (off : _) (l : _),
      s.clear (.bararr b off) = true ∧
      s.unlabelled [b] = true ∧
      s.Inv ∧
      BarrierAt s b off l ∧
      s.orderly .co = true ∧
      field (s.natAt l.ha 16) 96 2 ≠ 2 ∧
      field (s.natAt l.ha 16) 32 32 + 1 < field (s.natAt l.ha 16) 0 32) ∧
    (∃ (s : State) (b : _) (off : _) (l : _),
      s.clear (.bararr b off) = true ∧
      s.unlabelled [b] = true ∧
      s.Inv ∧
      BarrierAt s b off l ∧
      s.orderly .co = true ∧
      field (s.natAt l.ha 16) 96 2 ≠ 2 ∧
      field (s.natAt l.ha 16) 32 32 + 1 = field (s.natAt l.ha 16) 0 32) ∧
    (∃ (s : State) (b : _) (off : _) (p : _) (l : _),
      s.clear (.barwait b off p) = true ∧
      s.unlabelled [b, p] = true ∧
      BarrierAt s b off l ∧
      field (s.natAt l.ha 16) 96 2 ≠ 2 ∧
      field (s.natAt l.ha 16) 64 1 = (s.me.g p).val.toNat % 2) ∧
    (∃ (s : State) (b : _) (off : _) (p : _) (l : _),
      s.clear (.barwait b off p) = true ∧
      s.unlabelled [b, p] = true ∧
      BarrierAt s b off l ∧
      field (s.natAt l.ha 16) 96 2 = 2 ∧
      p ≠ 0) ∧
    (∃ (s : State) (b : _) (off : _) (p : _) (l : _),
      s.clear (.barwait b off p) = true ∧
      s.unlabelled [b, p] = true ∧
      BarrierAt s b off l ∧
      field (s.natAt l.ha 16) 96 2 ≠ 2 ∧
      field (s.natAt l.ha 16) 64 1 ≠ (s.me.g p).val.toNat % 2) ∧
    (∃ (s : State) (d : _) (b : _) (off : _) (p : _) (l : _),
      s.clear (.bartry d b off p) = true ∧
      s.unlabelled [b, p] = true ∧
      BarrierAt s b off l) := by
  refine ⟨⟨exBar 0 0 0 0, 14, 0, 3, {ha := 0x1FF000000000040, home := 0, ls := true}, ?_⟩,
    ⟨exBar 0 0 0 0, 14, 0, 0, {ha := 0x1FF000000000040, home := 0, ls := true}, ?_⟩,
    ⟨{ exBar 5 2 1 0 with ctx := 0 }, 14, 0, {ha := 0x1FF000000000040, home := 0, ls := true}, ?_⟩,
    ⟨exBar 5 2 1 0, ?_⟩,
    ⟨exBar 5 2 1 1, 14, 0, {ha := 0x1FF000000000040, home := 0, ls := true}, ?_⟩,
    ⟨exBar 3 2 1 1, 14, 0, {ha := 0x1FF000000000040, home := 0, ls := true}, ?_⟩,
    ⟨exBar 3 2 1 0, 14, 0, 3, {ha := 0x1FF000000000040, home := 0, ls := true}, ?_⟩,
    ⟨exBar 3 2 1 2, 14, 0, 4, {ha := 0x1FF000000000040, home := 0, ls := true}, ?_⟩,
    ⟨exBar 3 2 1 0, 14, 0, 4, {ha := 0x1FF000000000040, home := 0, ls := true}, ?_⟩,
    ⟨exBar 3 2 1 2, 1, 14, 0, 3, {ha := 0x1FF000000000040, home := 0, ls := true}, ?_⟩⟩
    <;> (try simp only [OwnHome, CanTrap, Root, BarrierAt, State.Inv, ball_iff, ok_iff]) <;> decide +kernel

/-- The hypotheses of each clause of GroupLoads can be met together. -/
theorem witness_GroupLoads :
    (∃ (s : State) (op : _) (sz : _) (d : _) (m : _) (c : _) (ms : _),
      s.clear (.gldInt op sz d m) = true ∧
      s.unlabelled m.regs = true ∧
      (s.me.ea m).toNat / 2 ^ 32 = 0x1FD0000 ∧
      (s.me.ea m).toNat % wdBytes sz = 0 ∧
      s.me.out = .none ∧
      (∀ i (h : i < 4), (s.me.watch[i]).getLsbD 63 = false) ∧
      s.here.groups = [⟨s.part, field (s.me.ea m).toNat 20 12, ms⟩] ∧
      c ∈ ms ∧
      (∀ x ∈ ms, coreOfIndex (pkgOf s.core) x ≠ s.core ∧ s.inPart s.part (coreOfIndex (pkgOf s.core) x) = true ∧ ∃ l, s.lsSpot s.core s.key (coreOfIndex (pkgOf s.core) x) (field (s.me.ea m).toNat 0 20) = .ok l)) ∧
    (∃ (s : State) (op : _) (sz : _) (d : _) (m : _) (c : _) (x : _) (hs : _) (got : _),
      s.clear (.gldInt op sz d m) = true ∧
      s.unlabelled m.regs = true ∧
      s.me.out = .gld (GldOp.code op) false d.val (wdBytes sz) ((c, x, hs) :: got) [] 0 ∧
      (((c, x, hs) :: got).map (·.1)).Pairwise (· < ·) ∧
      (∀ e ∈ (c, x, hs) :: got, e.1 < 2048 ∧ e.2.1 < 2 ^ (8 * wdBytes sz) ∧ ∀ h ∈ e.2.2, s.lab h = 0)) ∧
    (∃ (s : State) (sz : _) (d : _) (m : _) (i : _) (j : _) (x : _) (y : _) (v : _) (fl : _),
      s.clear (.gldFloat .fadd sz d m) = true ∧
      s.unlabelled m.regs = true ∧
      s.me.out = .gld 1 true d.val (wdBytes sz) [(i, x, []), (j, y, [])] [] 0 ∧
      i < j ∧
      j < 2048 ∧
      s.me.pair = none ∧
      s.me.raised = 0 ∧
      fAdd (if sz = .w then .f32 else .f64) .rne false x y = (v, fl) ∧
      fl &&& s.me.fenable = 0) ∧
    (∃ (s : State) (op : _) (sz : _) (d : _) (m : _) (got : _) (c : _) (rest : _),
      s.clear (.gldInt op sz d m) = true ∧
      s.unlabelled m.regs = true ∧
      CanTrap s ∧
      s.me.out = .gld (GldOp.code op) false d.val (wdBytes sz) got ((c, 0x0A) :: rest) 0) := by
  refine ⟨⟨exGrp, .add, .w, 1, .off 18 0x40, 1, [1], ?_⟩,
    ⟨exGrpGot, .max, .w, 1, .off 18 0x40, 1, 0x80000000, [], [(3, 5, [])], ?_⟩,
    ⟨exGrpF, .w, 1, .off 18 0x40, 1, 3, 0x3F800000, 0x3F800000, 0x40000000, 0, ?_⟩,
    ⟨exGrpBad, .max, .w, 1, .off 18 0x40, [], 3, [], ?_⟩⟩
    <;> (try simp only [CanTrap, ball_iff, ex_some, ok_iff]) <;> decide +kernel

/-- The hypotheses of each clause of FloatArithmetic can be met together. -/
theorem witness_FloatArithmetic :
    (∃ (t : FTy) (r : _) (d : _) (a : _) (b : _) (s : State) (u : State) (h : Handle),
      s.clear (.fadd t r d a b : Instr) = true ∧
      (s.conj ((labs2 a b : Ctx → List Handle) s.me) = .ok h u) ∧
      (((fun c => fAdd t.ty r false (src t.ty (c.f a)) (src t.ty (c.f b)) : Ctx → Nat × Flags) s.me).2 &&& s.me.fenable = 0)) ∧
    (∃ (t : FTy) (r : _) (d : _) (a : _) (b : _) (s : State) (u : State) (h : Handle),
      s.clear (.fsub t r d a b : Instr) = true ∧
      (s.conj ((labs2 a b : Ctx → List Handle) s.me) = .ok h u) ∧
      (((fun c => fSub t.ty r false (src t.ty (c.f a)) (src t.ty (c.f b)) : Ctx → Nat × Flags) s.me).2 &&& s.me.fenable = 0)) ∧
    (∃ (t : FTy) (r : _) (d : _) (a : _) (b : _) (s : State) (u : State) (h : Handle),
      s.clear (.fmul t r d a b : Instr) = true ∧
      (s.conj ((labs2 a b : Ctx → List Handle) s.me) = .ok h u) ∧
      (((fun c => fMul t.ty r false (src t.ty (c.f a)) (src t.ty (c.f b)) : Ctx → Nat × Flags) s.me).2 &&& s.me.fenable = 0)) ∧
    (∃ (t : FTy) (r : _) (d : _) (a : _) (b : _) (x : _) (s : State) (u : State) (h : Handle),
      s.clear (.fma t r d a b x : Instr) = true ∧
      (s.conj ((fun c => [(c.f a).lab, (c.f b).lab, (c.f x).lab] : Ctx → List Handle) s.me) = .ok h u) ∧
      (((fun c => fFma t.ty r (src t.ty (c.f a)) (src t.ty (c.f b)) (src t.ty (c.f x)) : Ctx → Nat × Flags) s.me).2 &&& s.me.fenable = 0)) ∧
    (∃ (t : FTy) (d : _) (a : _) (b : _) (s : State) (u : State) (h : Handle),
      s.clear (.fmin t d a b : Instr) = true ∧
      (s.conj ((labs2 a b : Ctx → List Handle) s.me) = .ok h u) ∧
      (((fun c => fMinMax t.ty false (src t.ty (c.f a)) (src t.ty (c.f b)) : Ctx → Nat × Flags) s.me).2 &&& s.me.fenable = 0)) ∧
    (∃ (t : FTy) (d : _) (a : _) (b : _) (s : State) (u : State) (h : Handle),
      s.clear (.fmax t d a b : Instr) = true ∧
      (s.conj ((labs2 a b : Ctx → List Handle) s.me) = .ok h u) ∧
      (((fun c => fMinMax t.ty true (src t.ty (c.f a)) (src t.ty (c.f b)) : Ctx → Nat × Flags) s.me).2 &&& s.me.fenable = 0)) ∧
    (∃ (t : FTy) (d : _) (a : _) (s : State) (u : State) (h : Handle),
      s.clear (.fabs t d a : Instr) = true ∧
      (s.conj ((fun c => [(c.f a).lab] : Ctx → List Handle) s.me) = .ok h u) ∧
      (((fun c => (src t.ty (c.f a) % 2 ^ (tyBits t.ty - 1), 0) : Ctx → Nat × Flags) s.me).2 &&& s.me.fenable = 0)) ∧
    (∃ (t : FTy) (d : _) (a : _) (s : State) (u : State) (h : Handle),
      s.clear (.fneg t d a : Instr) = true ∧
      (s.conj ((fun c => [(c.f a).lab] : Ctx → List Handle) s.me) = .ok h u) ∧
      (((fun c => ((src t.ty (c.f a) + 2 ^ (tyBits t.ty - 1)) % 2 ^ tyBits t.ty, 0) : Ctx → Nat × Flags) s.me).2 &&& s.me.fenable = 0)) ∧
    (∃ (t : FTy) (r : _) (d : _) (a : _) (s : State) (u : State) (h : Handle),
      s.clear (.frint t r d a : Instr) = true ∧
      (s.conj ((fun c => [(c.f a).lab] : Ctx → List Handle) s.me) = .ok h u) ∧
      (((fun c => fRint t.ty r (src t.ty (c.f a)) : Ctx → Nat × Flags) s.me).2 &&& s.me.fenable = 0)) ∧
    (∃ (t : FTy) (r : _) (d : _) (a : _) (b : _) (s : State) (u : State) (h : Handle),
      s.clear (.fscale t r d a b : Instr) = true ∧
      (s.conj ((fun c => [(c.f a).lab, (c.g b).lab] : Ctx → List Handle) s.me) = .ok h u) ∧
      (((fun c => fScale t.ty r (src t.ty (c.f a)) (c.g b).val.toInt : Ctx → Nat × Flags) s.me).2 &&& s.me.fenable = 0)) := by
  refine ⟨⟨.f32, .rne, 1, 1, 2, exVec, exVec, 0, ?_, rfl, ?_⟩,
    ⟨.f32, .rne, 2, 1, 2, exVec, exVec, 0, ?_, rfl, ?_⟩,
    ⟨.f32, .rne, 1, 1, 2, exVec, exVec, 0, ?_, rfl, ?_⟩,
    ⟨.f32, .rne, 1, 1, 2, 1, exVec, exVec, 0, ?_, rfl, ?_⟩,
    ⟨.f32, 1, 1, 2, exVec, exVec, 0, ?_, rfl, ?_⟩,
    ⟨.f32, 1, 1, 2, exVec, exVec, 0, ?_, rfl, ?_⟩,
    ⟨.f32, 1, 1, exVec, exVec, 0, ?_, rfl, ?_⟩,
    ⟨.f32, 1, 1, exVec, exVec, 0, ?_, rfl, ?_⟩,
    ⟨.f32, .rne, 1, 1, exVec, exVec, 0, ?_, rfl, ?_⟩,
    ⟨.f32, .rne, 1, 1, 6, exVec, exVec, 0, ?_, rfl, ?_⟩⟩
    <;> (try simp only [ok_iff]) <;> decide +kernel

/-- The hypotheses of each clause of FloatCompareConvertMove can be met together. -/
theorem witness_FloatCompareConvertMove :
    (∃ (k : _) (t : FTy) (d : _) (a : _) (b : _) (s : State) (u : State) (h : Handle),
      s.clear (.fcmp k t d a b : Instr) = true ∧
      (s.conj ((labs2 a b : Ctx → List Handle) s.me) = .ok h u) ∧
      (((fun c => (if (fCmp t.ty (condOf k) (src t.ty (c.f a)) (src t.ty (c.f b))).1 then 1 else 0, (fCmp t.ty (condOf k) (src t.ty (c.f a)) (src t.ty (c.f b))).2) : Ctx → Word × Flags) s.me).2 &&& s.me.fenable = 0)) ∧
    (∃ (ta : _) (tb : _) (r : _) (sat : _) (d : _) (a : _) (s : State) (u : State) (h : Handle),
      s.clear (.fcvtFf ta tb r sat d a : Instr) = true ∧
      (s.conj ((fun c => [(c.f a).lab] : Ctx → List Handle) s.me) = .ok h u) ∧
      (((fun c => fConv ta tb r sat (src tb (c.f a)) : Ctx → Nat × Flags) s.me).2 &&& s.me.fenable = 0)) ∧
    (∃ (ta : _) (tb : FTy) (r : _) (sat : _) (d : _) (a : _) (s : State) (u : State) (h : Handle),
      s.clear (.fcvtGf ta tb r sat d a : Instr) = true ∧
      (s.conj ((fun c => [(c.f a).lab] : Ctx → List Handle) s.me) = .ok h u) ∧
      (((fun c => (if tySigned ta then (BitVec.ofNat (tyBits ta) (fToI ta tb.ty r (src tb.ty (c.f a))).1).signExtend 64 else BitVec.ofNat 64 ((fToI ta tb.ty r (src tb.ty (c.f a))).1 % 2 ^ tyBits ta), (fToI ta tb.ty r (src tb.ty (c.f a))).2) : Ctx → Word × Flags) s.me).2 &&& s.me.fenable = 0)) ∧
    (∃ (ta : FTy) (tb : _) (r : _) (sat : _) (d : _) (a : _) (s : State) (u : State) (h : Handle),
      s.clear (.fcvtFg ta tb r sat d a : Instr) = true ∧
      (s.conj ((fun c => [(c.g a).lab] : Ctx → List Handle) s.me) = .ok h u) ∧
      (((fun c => iToF ta.ty tb r sat (src tb (c.g a)) : Ctx → Nat × Flags) s.me).2 &&& s.me.fenable = 0)) ∧
    (∃ (s : State) (d : _) (a : _),
      s.clear (.fmovFg d a) = true) ∧
    (∃ (s : State) (d : _) (a : _),
      s.clear (.fmovGf d a) = true) ∧
    (∃ (s : State) (d : _) (a : _),
      s.clear (.fmovFf d a) = true) := by
  refine ⟨⟨.lt, .f32, 1, 1, 2, exVec, exVec, 0, ?_, rfl, ?_⟩,
    ⟨.f64, .f32, .rne, false, 1, 2, exVec, exVec, 0, ?_, rfl, ?_⟩,
    ⟨.i32, .f32, .rne, false, 1, 2, exVec, exVec, 0, ?_, rfl, ?_⟩,
    ⟨.f32, .i64, .rne, false, 1, 2, exVec, exVec, 0, ?_, rfl, ?_⟩,
    ⟨exVec, 1, 2, ?_⟩,
    ⟨exVec, 1, 2, ?_⟩,
    ⟨exVec, 1, 2, ?_⟩⟩
    <;> (try simp only [ok_iff]) <;> decide +kernel

/-- The hypotheses of each clause of RoundToNearestEven can be met together. -/
theorem witness_RoundToNearestEven :
    (∃ (t : Ty) (m : Nat) (e : Int) (c : _) (fl : _),
      0 < m ∧
      roundF t .rne false false m e false = (c, fl) ∧
      fl &&& fOF = 0) := by
  refine ⟨.f32, 0x1000001, 0, (roundF .f32 .rne false false 0x1000001 0 false).1, (roundF .f32 .rne false false 0x1000001 0 false).2, ?_⟩ <;> decide +kernel

/-- The hypotheses of each clause of FloatSpecialValues can be met together. -/
theorem witness_FloatSpecialValues :
    (∃ (t : Ty) (x : _) (neg : _) (m : _) (e : _),
      x < 2 ^ ((fmtOf t).ew + (fmtOf t).mw + 1) ∧
      decF t x = .fin neg m e) ∧
    (∃ (t : Ty) (x : _) (neg : _) (m : _) (e : _),
      decF t x = .fin neg m e) ∧
    (∃ (t : Ty) (x : _) (y : _),
      (isNan (decF t x) = true ∨ isNan (decF t y) = true)) ∧
    (∃ (t : Ty) (x : _) (y : _) (s : _),
      decF t x = .inf s ∧
      decF t y = .inf s) := by
  refine ⟨⟨.f32, 0x3F800001, false, 0x800001, -23, ?_⟩,
    ⟨.f16, 0x3C00, false, 1024, -10, ?_⟩,
    ⟨.f32, 0x7FC00000, 0x3F800000, ?_⟩,
    ⟨.f32, 0x7F800000, 0x7F800000, false, ?_⟩⟩ <;> decide +kernel

/-- The hypotheses of each clause of FloatFlags can be met together. -/
theorem witness_FloatFlags :
    (∃ (c : Ctx),
      c.pair = none) ∧
    (∃ (c : Ctx) (p : _),
      c.pair = some p ∧
      (p.stage = .second ∨ (p.stage = .forward ∧ p.first = c.pc))) ∧
    (∃ (s : State) (t : FTy) (r : _) (d : _) (a : _) (b : _) (v : _) (fl : _),
      s.clear (.fadd t r d a b) = true ∧
      s.me.pair = none ∧
      s.me.raised = 0 ∧
      (s.me.f a).lab = 0 ∧
      (s.me.f b).lab = 0 ∧
      s.me.fsup.getLsbD 20 = false ∧
      fAdd t.ty r false (src t.ty (s.me.f a)) (src t.ty (s.me.f b)) = (v, fl) ∧
      fl &&& s.me.fenable ≠ 0) := by
  refine ⟨⟨vecCtx, ?_⟩,
    ⟨{ vecCtx with pair := some { first := 0x1000, stage := .second }, raised := 4 }, { first := 0x1000, stage := .second }, ?_⟩,
    ⟨one { vecCtx with fenable := 0x1F }, .f32, .rne, 3, 1, 2, (fAdd .f32 .rne false 0x3F800000 0x40490FDB).1, (fAdd .f32 .rne false 0x3F800000 0x40490FDB).2, ?_⟩⟩ <;> decide +kernel

/-- The hypotheses of each clause of SpecialFunctions can be met together. -/
theorem witness_SpecialFunctions :
    (∃ (t : _) (d : _) (a : _) (b : _) (s : State),
      s.clear (.fdiv t d a b : Instr) = true ∧
      s.lab (s.me.f (a : FReg)).lab = 0 ∧
      ((true : Bool) = true → s.lab (s.me.f (b : FReg)).lab = 0)) ∧
    (∃ (t : _) (d : _) (a : _) (s : State),
      s.clear (.fexp2f t d a : Instr) = true ∧
      s.lab (s.me.f (a : FReg)).lab = 0 ∧
      ((false : Bool) = true → s.lab (s.me.f (a : FReg)).lab = 0)) ∧
    (∃ (t : _) (d : _) (a : _) (s : State),
      s.clear (.flog2 t d a : Instr) = true ∧
      s.lab (s.me.f (a : FReg)).lab = 0 ∧
      ((false : Bool) = true → s.lab (s.me.f (a : FReg)).lab = 0)) ∧
    (∃ (t : _) (d : _) (a : _) (s : State),
      s.clear (.frcp t d a : Instr) = true ∧
      s.lab (s.me.f (a : FReg)).lab = 0 ∧
      ((false : Bool) = true → s.lab (s.me.f (a : FReg)).lab = 0)) ∧
    (∃ (t : _) (d : _) (a : _) (s : State),
      s.clear (.frsq t d a : Instr) = true ∧
      s.lab (s.me.f (a : FReg)).lab = 0 ∧
      ((false : Bool) = true → s.lab (s.me.f (a : FReg)).lab = 0)) ∧
    (∃ (t : _) (d : _) (a : _) (s : State),
      s.clear (.fsqrt t d a : Instr) = true ∧
      s.lab (s.me.f (a : FReg)).lab = 0 ∧
      ((false : Bool) = true → s.lab (s.me.f (a : FReg)).lab = 0)) ∧
    (∃ (t : _) (d : _) (a : _) (s : State),
      s.clear (.fsin t d a : Instr) = true ∧
      s.lab (s.me.f (a : FReg)).lab = 0 ∧
      ((false : Bool) = true → s.lab (s.me.f (a : FReg)).lab = 0)) ∧
    (∃ (t : _) (d : _) (a : _) (s : State),
      s.clear (.fcos t d a : Instr) = true ∧
      s.lab (s.me.f (a : FReg)).lab = 0 ∧
      ((false : Bool) = true → s.lab (s.me.f (a : FReg)).lab = 0)) ∧
    (∃ (s : State) (core : _) (q : _) (rest : _),
      (s.coreAt core).sfu = q :: rest ∧
      q.started = false) ∧
    (∃ (t : FTy) (d : _) (a : _) (b : _) (s : State) (core : _) (q : _) (rest : _),
      (s.coreAt core).sfu = q :: rest ∧
      q.started = true ∧
      q.i = (.fdiv t d a b : Instr) ∧
      (s.ctxAt core q.key).run = .wait .sfu ∧
      (s.ctxAt core q.key).raised = 0 ∧
      (s.ctxAt core q.key).pair = none ∧
      (((fun x y => fDiv t.ty (src t.ty x) (src t.ty y) : LWord → LWord → Nat × Flags) q.a q.b).2 &&& (s.ctxAt core q.key).fenable = 0)) ∧
    (∃ (t : FTy) (d : _) (a : _) (s : State) (core : _) (q : _) (rest : _),
      (s.coreAt core).sfu = q :: rest ∧
      q.started = true ∧
      q.i = (.fsqrt t d a : Instr) ∧
      (s.ctxAt core q.key).run = .wait .sfu ∧
      (s.ctxAt core q.key).raised = 0 ∧
      (s.ctxAt core q.key).pair = none ∧
      (((fun x _ => fSqrt t.ty (src t.ty x) : LWord → LWord → Nat × Flags) q.a q.b).2 &&& (s.ctxAt core q.key).fenable = 0)) ∧
    (∃ (t : FTy) (d : _) (a : _) (s : State) (core : _) (q : _) (rest : _),
      (s.coreAt core).sfu = q :: rest ∧
      q.started = true ∧
      q.i = (.frcp t d a : Instr) ∧
      (s.ctxAt core q.key).run = .wait .sfu ∧
      (s.ctxAt core q.key).raised = 0 ∧
      (s.ctxAt core q.key).pair = none ∧
      (((fun x _ => fRcp t.ty (sfuChoice (.frcp t d a) t x) (src t.ty x) : LWord → LWord → Nat × Flags) q.a q.b).2 &&& (s.ctxAt core q.key).fenable = 0)) ∧
    (∃ (t : FTy) (d : _) (a : _) (s : State) (core : _) (q : _) (rest : _),
      (s.coreAt core).sfu = q :: rest ∧
      q.started = true ∧
      q.i = (.fsin t d a : Instr) ∧
      (s.ctxAt core q.key).run = .wait .sfu ∧
      (s.ctxAt core q.key).raised = 0 ∧
      (s.ctxAt core q.key).pair = none ∧
      (((fun x _ => fTrig t.ty false (sfuChoice (.fsin t d a) t x) (src t.ty x) : LWord → LWord → Nat × Flags) q.a q.b).2 &&& (s.ctxAt core q.key).fenable = 0)) ∧
    (∃ (t : FTy) (d : _) (a : _) (s : State) (core : _) (q : _) (rest : _),
      (s.coreAt core).sfu = q :: rest ∧
      q.started = true ∧
      q.i = (.fcos t d a : Instr) ∧
      (s.ctxAt core q.key).run = .wait .sfu ∧
      (s.ctxAt core q.key).raised = 0 ∧
      (s.ctxAt core q.key).pair = none ∧
      (((fun x _ => fTrig t.ty true (sfuChoice (.fcos t d a) t x) (src t.ty x) : LWord → LWord → Nat × Flags) q.a q.b).2 &&& (s.ctxAt core q.key).fenable = 0)) ∧
    (∃ (t : FTy) (d : _) (a : _) (s : State) (core : _) (q : _) (rest : _),
      (s.coreAt core).sfu = q :: rest ∧
      q.started = true ∧
      q.i = (.frsq t d a : Instr) ∧
      (s.ctxAt core q.key).run = .wait .sfu ∧
      (s.ctxAt core q.key).raised = 0 ∧
      (s.ctxAt core q.key).pair = none ∧
      (((fun x _ => fRsq t.ty (sfuChoice (.frsq t d a) t x) (src t.ty x) : LWord → LWord → Nat × Flags) q.a q.b).2 &&& (s.ctxAt core q.key).fenable = 0)) ∧
    (∃ (t : FTy) (d : _) (a : _) (s : State) (core : _) (q : _) (rest : _),
      (s.coreAt core).sfu = q :: rest ∧
      q.started = true ∧
      q.i = (.fexp2f t d a : Instr) ∧
      (s.ctxAt core q.key).run = .wait .sfu ∧
      (s.ctxAt core q.key).raised = 0 ∧
      (s.ctxAt core q.key).pair = none ∧
      (((fun x _ => fExp2 t.ty (sfuChoice (.fexp2f t d a) t x) (src t.ty x) : LWord → LWord → Nat × Flags) q.a q.b).2 &&& (s.ctxAt core q.key).fenable = 0)) ∧
    (∃ (t : FTy) (d : _) (a : _) (s : State) (core : _) (q : _) (rest : _),
      (s.coreAt core).sfu = q :: rest ∧
      q.started = true ∧
      q.i = (.flog2 t d a : Instr) ∧
      (s.ctxAt core q.key).run = .wait .sfu ∧
      (s.ctxAt core q.key).raised = 0 ∧
      (s.ctxAt core q.key).pair = none ∧
      (((fun x _ => fLog2 t.ty (sfuChoice (.flog2 t d a) t x) (src t.ty x) : LWord → LWord → Nat × Flags) q.a q.b).2 &&& (s.ctxAt core q.key).fenable = 0)) := by
  refine ⟨⟨.f32, 1, 1, 2, exVec, ?_⟩,
    ⟨.f32, 1, 1, exVec, ?_⟩,
    ⟨.f32, 1, 1, exVec, ?_⟩,
    ⟨.f32, 1, 1, exVec, ?_⟩,
    ⟨.f32, 1, 1, exVec, ?_⟩,
    ⟨.f32, 1, 1, exVec, ?_⟩,
    ⟨.f32, 1, 1, exVec, ?_⟩,
    ⟨.f32, 1, 1, exVec, ?_⟩,
    ⟨exSfu (.frcp .f32 1 2) 0x3F800000 0 false, 0, q0 (.frcp .f32 1 2) 0x3F800000 0 false, [], ?_⟩,
    ⟨.f32, 1, 2, 3, exSfu (.fdiv .f32 1 2 3) 0x40490FDB 0x40490FDB true, 0, q0 (.fdiv .f32 1 2 3) 0x40490FDB 0x40490FDB true, [], ?_, ?_, ?_, ?_, ?_, ?_, BitVec.and_zero⟩,
    ⟨.f32, 1, 2, exSfu (.fsqrt .f32 1 2) 0x40490FDB 0x40490FDB true, 0, q0 (.fsqrt .f32 1 2) 0x40490FDB 0x40490FDB true, [], ?_, ?_, ?_, ?_, ?_, ?_, BitVec.and_zero⟩,
    ⟨.f32, 1, 2, exSfu (.frcp .f32 1 2) 0x40490FDB 0x40490FDB true, 0, q0 (.frcp .f32 1 2) 0x40490FDB 0x40490FDB true, [], ?_, ?_, ?_, ?_, ?_, ?_, BitVec.and_zero⟩,
    ⟨.f32, 1, 2, exSfu (.fsin .f32 1 2) 0x40490FDB 0x40490FDB true, 0, q0 (.fsin .f32 1 2) 0x40490FDB 0x40490FDB true, [], ?_, ?_, ?_, ?_, ?_, ?_, BitVec.and_zero⟩,
    ⟨.f32, 1, 2, exSfu (.fcos .f32 1 2) 0x40490FDB 0x40490FDB true, 0, q0 (.fcos .f32 1 2) 0x40490FDB 0x40490FDB true, [], ?_, ?_, ?_, ?_, ?_, ?_, BitVec.and_zero⟩,
    ⟨.f32, 1, 2, exSfu (.frsq .f32 1 2) 0x40490FDB 0x40490FDB true, 0, q0 (.frsq .f32 1 2) 0x40490FDB 0x40490FDB true, [], ?_, ?_, ?_, ?_, ?_, ?_, BitVec.and_zero⟩,
    ⟨.f32, 1, 2, exSfu (.fexp2f .f32 1 2) 0x40490FDB 0x40490FDB true, 0, q0 (.fexp2f .f32 1 2) 0x40490FDB 0x40490FDB true, [], ?_, ?_, ?_, ?_, ?_, ?_, BitVec.and_zero⟩,
    ⟨.f32, 1, 2, exSfu (.flog2 .f32 1 2) 0x40490FDB 0x40490FDB true, 0, q0 (.flog2 .f32 1 2) 0x40490FDB 0x40490FDB true, [], ?_, ?_, ?_, ?_, ?_, ?_, BitVec.and_zero⟩⟩ <;> decide +kernel

/-- The hypotheses of each clause of VectorArithmetic can be met together. -/
theorem witness_VectorArithmetic :
    (∃ (t : _) (r : _) (sat : _) (s : State) (d : _) (a : _) (b : _),
      t.isFloat = false ∧
      laneTy (t : Ty) = true ∧
      (VecReady s ((fun d a b => .vadd t r sat none (.v d) (.v a) (.v b) : Fin 8 → Fin 8 → Fin 8 → Instr) d a b)) ∧
      CleanV s a ∧
      CleanV s b) ∧
    (∃ (t : _) (r : _) (sat : _) (s : State) (k : _) (d : _) (a : _) (b : _),
      t.isFloat = false ∧
      laneTy (t : Ty) = true ∧
      (VecReady s ((fun k d a b => .vadd t r sat (some k) (.v d) (.v a) (.v b) : MReg → Fin 8 → Fin 8 → Fin 8 → Instr) k d a b)) ∧
      CleanV s a ∧
      CleanV s b ∧
      CleanV s d ∧
      CleanM s k) ∧
    (∃ (t : _) (r : _) (sat : _) (s : State) (d : _) (a : _) (b : _),
      t.isFloat = false ∧
      laneTy (t : Ty) = true ∧
      (VecReady s ((fun d a b => .vsub t r sat none (.v d) (.v a) (.v b) : Fin 8 → Fin 8 → Fin 8 → Instr) d a b)) ∧
      CleanV s a ∧
      CleanV s b) ∧
    (∃ (t : _) (r : _) (sat : _) (s : State) (k : _) (d : _) (a : _) (b : _),
      t.isFloat = false ∧
      laneTy (t : Ty) = true ∧
      (VecReady s ((fun k d a b => .vsub t r sat (some k) (.v d) (.v a) (.v b) : MReg → Fin 8 → Fin 8 → Fin 8 → Instr) k d a b)) ∧
      CleanV s a ∧
      CleanV s b ∧
      CleanV s d ∧
      CleanM s k) ∧
    (∃ (t : _) (r : _) (sat : _) (s : State) (d : _) (a : _) (b : _),
      t.isFloat = false ∧
      laneTy (t : Ty) = true ∧
      (VecReady s ((fun d a b => .vmul t r sat none (.v d) (.v a) (.v b) : Fin 8 → Fin 8 → Fin 8 → Instr) d a b)) ∧
      CleanV s a ∧
      CleanV s b) ∧
    (∃ (t : _) (r : _) (sat : _) (s : State) (k : _) (d : _) (a : _) (b : _),
      t.isFloat = false ∧
      laneTy (t : Ty) = true ∧
      (VecReady s ((fun k d a b => .vmul t r sat (some k) (.v d) (.v a) (.v b) : MReg → Fin 8 → Fin 8 → Fin 8 → Instr) k d a b)) ∧
      CleanV s a ∧
      CleanV s b ∧
      CleanV s d ∧
      CleanM s k) ∧
    (∃ (t : _) (r : _) (sat : _) (s : State) (d : _) (a : _) (b : _),
      t.isFloat = false ∧
      laneTy (t : Ty) = true ∧
      (VecReady s ((fun d a b => .vmin t r sat none (.v d) (.v a) (.v b) : Fin 8 → Fin 8 → Fin 8 → Instr) d a b)) ∧
      CleanV s a ∧
      CleanV s b) ∧
    (∃ (t : _) (r : _) (sat : _) (s : State) (k : _) (d : _) (a : _) (b : _),
      t.isFloat = false ∧
      laneTy (t : Ty) = true ∧
      (VecReady s ((fun k d a b => .vmin t r sat (some k) (.v d) (.v a) (.v b) : MReg → Fin 8 → Fin 8 → Fin 8 → Instr) k d a b)) ∧
      CleanV s a ∧
      CleanV s b ∧
      CleanV s d ∧
      CleanM s k) ∧
    (∃ (t : _) (r : _) (sat : _) (s : State) (d : _) (a : _) (b : _),
      t.isFloat = false ∧
      laneTy (t : Ty) = true ∧
      (VecReady s ((fun d a b => .vmax t r sat none (.v d) (.v a) (.v b) : Fin 8 → Fin 8 → Fin 8 → Instr) d a b)) ∧
      CleanV s a ∧
      CleanV s b) ∧
    (∃ (t : _) (r : _) (sat : _) (s : State) (k : _) (d : _) (a : _) (b : _),
      t.isFloat = false ∧
      laneTy (t : Ty) = true ∧
      (VecReady s ((fun k d a b => .vmax t r sat (some k) (.v d) (.v a) (.v b) : MReg → Fin 8 → Fin 8 → Fin 8 → Instr) k d a b)) ∧
      CleanV s a ∧
      CleanV s b ∧
      CleanV s d ∧
      CleanM s k) ∧
    (∃ (t : _) (r : _) (sat : _) (s : State) (d : _) (a : _) (b : _),
      t.isFloat = true ∧
      laneTy (t : Ty) = true ∧
      (VecReady s ((fun d a b => .vadd t r sat none (.v d) (.v a) (.v b) : Fin 8 → Fin 8 → Fin 8 → Instr) d a b)) ∧
      CleanV s a ∧
      CleanV s b) ∧
    (∃ (t : _) (r : _) (sat : _) (s : State) (k : _) (d : _) (a : _) (b : _),
      t.isFloat = true ∧
      laneTy (t : Ty) = true ∧
      (VecReady s ((fun k d a b => .vadd t r sat (some k) (.v d) (.v a) (.v b) : MReg → Fin 8 → Fin 8 → Fin 8 → Instr) k d a b)) ∧
      CleanV s a ∧
      CleanV s b ∧
      CleanV s d ∧
      CleanM s k) ∧
    (∃ (t : _) (r : _) (sat : _) (s : State) (d : _) (a : _) (b : _),
      t.isFloat = true ∧
      laneTy (t : Ty) = true ∧
      (VecReady s ((fun d a b => .vsub t r sat none (.v d) (.v a) (.v b) : Fin 8 → Fin 8 → Fin 8 → Instr) d a b)) ∧
      CleanV s a ∧
      CleanV s b) ∧
    (∃ (t : _) (r : _) (sat : _) (s : State) (k : _) (d : _) (a : _) (b : _),
      t.isFloat = true ∧
      laneTy (t : Ty) = true ∧
      (VecReady s ((fun k d a b => .vsub t r sat (some k) (.v d) (.v a) (.v b) : MReg → Fin 8 → Fin 8 → Fin 8 → Instr) k d a b)) ∧
      CleanV s a ∧
      CleanV s b ∧
      CleanV s d ∧
      CleanM s k) ∧
    (∃ (t : _) (r : _) (sat : _) (s : State) (d : _) (a : _) (b : _),
      t.isFloat = true ∧
      laneTy (t : Ty) = true ∧
      (VecReady s ((fun d a b => .vmul t r sat none (.v d) (.v a) (.v b) : Fin 8 → Fin 8 → Fin 8 → Instr) d a b)) ∧
      CleanV s a ∧
      CleanV s b) ∧
    (∃ (t : _) (r : _) (sat : _) (s : State) (k : _) (d : _) (a : _) (b : _),
      t.isFloat = true ∧
      laneTy (t : Ty) = true ∧
      (VecReady s ((fun k d a b => .vmul t r sat (some k) (.v d) (.v a) (.v b) : MReg → Fin 8 → Fin 8 → Fin 8 → Instr) k d a b)) ∧
      CleanV s a ∧
      CleanV s b ∧
      CleanV s d ∧
      CleanM s k) ∧
    (∃ (t : _) (r : _) (sat : _) (s : State) (d : _) (a : _) (b : _),
      t.isFloat = true ∧
      laneTy (t : Ty) = true ∧
      (VecReady s ((fun d a b => .vmin t r sat none (.v d) (.v a) (.v b) : Fin 8 → Fin 8 → Fin 8 → Instr) d a b)) ∧
      CleanV s a ∧
      CleanV s b) ∧
    (∃ (t : _) (r : _) (sat : _) (s : State) (k : _) (d : _) (a : _) (b : _),
      t.isFloat = true ∧
      laneTy (t : Ty) = true ∧
      (VecReady s ((fun k d a b => .vmin t r sat (some k) (.v d) (.v a) (.v b) : MReg → Fin 8 → Fin 8 → Fin 8 → Instr) k d a b)) ∧
      CleanV s a ∧
      CleanV s b ∧
      CleanV s d ∧
      CleanM s k) ∧
    (∃ (t : _) (r : _) (sat : _) (s : State) (d : _) (a : _) (b : _),
      t.isFloat = true ∧
      laneTy (t : Ty) = true ∧
      (VecReady s ((fun d a b => .vmax t r sat none (.v d) (.v a) (.v b) : Fin 8 → Fin 8 → Fin 8 → Instr) d a b)) ∧
      CleanV s a ∧
      CleanV s b) ∧
    (∃ (t : _) (r : _) (sat : _) (s : State) (k : _) (d : _) (a : _) (b : _),
      t.isFloat = true ∧
      laneTy (t : Ty) = true ∧
      (VecReady s ((fun k d a b => .vmax t r sat (some k) (.v d) (.v a) (.v b) : MReg → Fin 8 → Fin 8 → Fin 8 → Instr) k d a b)) ∧
      CleanV s a ∧
      CleanV s b ∧
      CleanV s d ∧
      CleanM s k) ∧
    (∃ (t : _) (s : State) (d : _) (a : _),
      t.isFloat = false ∧
      laneTy (t : Ty) = true ∧
      (VecReady s ((fun d a => .vabs t none (.v d) (.v a) : Fin 8 → Fin 8 → Instr) d a)) ∧
      CleanV s a) ∧
    (∃ (t : _) (s : State) (d : _) (a : _),
      t.isFloat = false ∧
      laneTy (t : Ty) = true ∧
      (VecReady s ((fun d a => .vneg t none (.v d) (.v a) : Fin 8 → Fin 8 → Instr) d a)) ∧
      CleanV s a) ∧
    (∃ (t : _) (s : State) (d : _) (a : _),
      t.isFloat = true ∧
      laneTy (t : Ty) = true ∧
      (VecReady s ((fun d a => .vabs t none (.v d) (.v a) : Fin 8 → Fin 8 → Instr) d a)) ∧
      CleanV s a) ∧
    (∃ (t : _) (s : State) (d : _) (a : _),
      t.isFloat = true ∧
      laneTy (t : Ty) = true ∧
      (VecReady s ((fun d a => .vneg t none (.v d) (.v a) : Fin 8 → Fin 8 → Instr) d a)) ∧
      CleanV s a) ∧
    (∃ (s : State) (t : _) (r : _) (d : _) (a : _) (b : _) (c : _),
      laneTy t = true ∧
      t.isFloat = false ∧
      VecReady s (.vfma t r (.v d) (.v a) (.v b) (.v c)) ∧
      CleanV s a ∧
      CleanV s b ∧
      CleanV s c) ∧
    (∃ (s : State) (t : _) (r : _) (d : _) (a : _) (b : _) (c : _),
      laneTy t = true ∧
      t.isFloat = true ∧
      VecReady s (.vfma t r (.v d) (.v a) (.v b) (.v c)) ∧
      CleanV s a ∧
      CleanV s b ∧
      CleanV s c) := by
  refine ⟨⟨.i16, .rne, true, exVec, 0, 1, 2, ?_⟩,
    ⟨.i16, .rne, true, exVec, 4, 0, 1, 2, ?_⟩,
    ⟨.i16, .rne, true, exVec, 0, 1, 2, ?_⟩,
    ⟨.i16, .rne, true, exVec, 4, 0, 1, 2, ?_⟩,
    ⟨.i16, .rne, true, exVec, 0, 1, 2, ?_⟩,
    ⟨.i16, .rne, true, exVec, 4, 0, 1, 2, ?_⟩,
    ⟨.i16, .rne, true, exVec, 0, 1, 2, ?_⟩,
    ⟨.i16, .rne, true, exVec, 4, 0, 1, 2, ?_⟩,
    ⟨.i16, .rne, true, exVec, 0, 1, 2, ?_⟩,
    ⟨.i16, .rne, true, exVec, 4, 0, 1, 2, ?_⟩,
    ⟨.f32, .rne, false, exVec, 0, 1, 2, ?_⟩,
    ⟨.f16, .rne, true, exVec, 4, 3, 1, 2, ?_⟩,
    ⟨.f32, .rne, false, exVec, 0, 1, 2, ?_⟩,
    ⟨.f16, .rne, true, exVec, 4, 3, 1, 2, ?_⟩,
    ⟨.f32, .rne, false, exVec, 0, 1, 2, ?_⟩,
    ⟨.f16, .rne, true, exVec, 4, 3, 1, 2, ?_⟩,
    ⟨.f32, .rne, false, exVec, 0, 1, 2, ?_⟩,
    ⟨.f16, .rne, true, exVec, 4, 3, 1, 2, ?_⟩,
    ⟨.f32, .rne, false, exVec, 0, 1, 2, ?_⟩,
    ⟨.f16, .rne, true, exVec, 4, 3, 1, 2, ?_⟩,
    ⟨.i16, exVec, 0, 1, ?_⟩,
    ⟨.i32, exVec, 0, 1, ?_⟩,
    ⟨.f16, exVec, 0, 1, ?_⟩,
    ⟨.bf16, exVec, 0, 1, ?_⟩,
    ⟨exVec, .i16, .rne, 0, 1, 2, 3, ?_⟩,
    ⟨exVec, .f32, .rne, 0, 1, 2, 3, ?_⟩⟩
    <;> (try simp only [CleanV, CleanM, VecReady]) <;> decide +kernel

/-- The hypotheses of each clause of VectorBitsAndMasks can be met together. -/
theorem witness_VectorBitsAndMasks :
    (∃ (t : _) (s : State) (d : _) (a : _) (b : _),
      laneTy t = true ∧
      (VecReady s ((fun d a b => .vand t (.v d) (.v a) (.v b) : Fin 8 → Fin 8 → Fin 8 → Instr) d a b)) ∧
      CleanV s a ∧
      CleanV s b) ∧
    (∃ (t : _) (s : State) (d : _) (a : _) (b : _),
      laneTy t = true ∧
      (VecReady s ((fun d a b => .vor t (.v d) (.v a) (.v b) : Fin 8 → Fin 8 → Fin 8 → Instr) d a b)) ∧
      CleanV s a ∧
      CleanV s b) ∧
    (∃ (t : _) (s : State) (d : _) (a : _) (b : _),
      laneTy t = true ∧
      (VecReady s ((fun d a b => .vxor t (.v d) (.v a) (.v b) : Fin 8 → Fin 8 → Fin 8 → Instr) d a b)) ∧
      CleanV s a ∧
      CleanV s b) ∧
    (∃ (t : _) (s : State) (d : _) (a : _) (b : _),
      t.isFloat = false ∧
      laneTy (t : Ty) = true ∧
      (VecReady s ((fun d a b => .vshl t (.v d) (.v a) (.v b) : Fin 8 → Fin 8 → Fin 8 → Instr) d a b)) ∧
      CleanV s a ∧
      CleanV s b) ∧
    (∃ (t : _) (s : State) (d : _) (a : _) (b : _),
      t.isFloat = false ∧
      laneTy (t : Ty) = true ∧
      (VecReady s ((fun d a b => .vshr t (.v d) (.v a) (.v b) : Fin 8 → Fin 8 → Fin 8 → Instr) d a b)) ∧
      CleanV s a ∧
      CleanV s b) ∧
    (∃ (t : FTy) (r : _) (s : State) (d : _) (a : _) (b : _),
      laneTy (t.ty : Ty) = true ∧
      (VecReady s ((fun d a b => .vscale t r (.v d) (.v a) (.v b) : Fin 8 → Fin 8 → Fin 8 → Instr) d a b)) ∧
      CleanV s a ∧
      CleanV s b) ∧
    (∃ (s : State) (c : _) (t : _) (d : _) (a : _) (b : _),
      laneTy t = true ∧
      t.isFloat = false ∧
      VecReady s (.vcmp c t d (.v a) (.v b)) ∧
      CleanV s a ∧
      CleanV s b) ∧
    (∃ (s : State) (d : _) (m : _) (b : _) (c : _),
      VecReady s (.vsel (.v d) m (.v b) (.v c)) ∧
      CleanV s b ∧
      CleanV s c ∧
      CleanM s m) ∧
    (∃ (s : State) (ta : _) (tb : _) (r : _) (sat : _) (d : _) (a : _),
      laneTy ta = true ∧
      laneTy tb = true ∧
      VecReady s (.vcvt ta tb r sat (.v d) (.v a)) ∧
      CleanV s a) ∧
    (∃ (s : State) (t : _) (d : _) (a : _),
      laneTy t = true ∧
      VecReady s (.vbcastG t (.v d) a)) ∧
    (∃ (s : State) (t : _) (d : _) (a : _),
      laneTy t = true ∧
      VecReady s (.vbcastF t (.v d) a)) ∧
    (∃ (s : State) (d : _) (a : _) (b : _),
      VecReady s (.vmask d a b) ∧
      s.lab (s.me.g a).lab = 0 ∧
      s.lab (s.me.g b).lab = 0) := by
  refine ⟨⟨.f32, exVec, 0, 1, 2, ?_⟩,
    ⟨.i16, exVec, 0, 1, 2, ?_⟩,
    ⟨.n64, exVec, 0, 1, 2, ?_⟩,
    ⟨.i16, exVec, 0, 1, 2, ?_⟩,
    ⟨.i16, exVec, 0, 1, 2, ?_⟩,
    ⟨.f32, .rne, exVec, 0, 1, 2, ?_⟩,
    ⟨exVec, .lt, .i16, 0, 1, 2, ?_⟩,
    ⟨exVec, 0, 4, 1, 2, ?_⟩,
    ⟨exVec, .f32, .i16, .rne, false, 0, 1, ?_⟩,
    ⟨exVec, .i16, 0, 2, ?_⟩,
    ⟨exVec, .f32, 0, 2, ?_⟩,
    ⟨exVec, 0, 6, 5, ?_⟩⟩
    <;> (try simp only [CleanV, CleanM, VecReady]) <;> decide +kernel

/-- The hypotheses of each clause of VectorReductions can be met together. -/
theorem witness_VectorReductions :
    (∃ (s : State) (t : _) (r : _) (d : _) (a : _),
      laneTy t = true ∧
      t.isFloat = false ∧
      VecReady s (.vred .add t r d (.v a)) ∧
      CleanV s a) ∧
    (∃ (s : State) (t : _) (r : _) (d : _) (a : _),
      laneTy t = true ∧
      t.isFloat = false ∧
      VecReady s (.vred .max t r d (.v a)) ∧
      CleanV s a ∧
      d ≠ 0) ∧
    (∃ (s : State) (t : _) (r : _) (d : _) (a : _),
      laneTy t = true ∧
      t.isFloat = false ∧
      VecReady s (.vred .min t r d (.v a)) ∧
      CleanV s a ∧
      d ≠ 0) ∧
    (∃ (s : State) (r : Rnd) (d : GReg) (a : _) (f : FReg),
      f.val = d.val ∧
      VecReady s (.vred .add .f32 r d (.v a)) ∧
      CleanV s a) := by
  refine ⟨⟨exVec, .i16, .rne, 1, 1, ?_⟩,
    ⟨exVec, .i16, .rne, 1, 1, ?_⟩,
    ⟨exVec, .n16, .rne, 1, 1, ?_⟩,
    ⟨exVec, .rne, 5, 1, 5, ?_⟩⟩
    <;> (try simp only [CleanV, VecReady]) <;> decide +kernel

/-- The hypotheses of each clause of VectorMemory can be met together. -/
theorem witness_VectorMemory :
    (∃ (s : State) (acq : _) (d : _) (m : _) (l : _),
      VecReady s (.vld acq (.v d) m) ∧
      s.unlabelled m.regs = true ∧
      (s.me.ea m).toNat % 256 ≤ 128 ∧
      s.check (s.me.ea m) 128 1 .load = .ok l ∧
      OwnHome s l ∧
      homeOf l.ha = s.core ∧
      (acq.isSome = true → s.here.window = []) ∧
      (∀ x ∈ s.loadLabs (s.req .load l 0 128), s.lab x = 0)) ∧
    (∃ (s : State) (a : _) (k : _) (m : _) (l : _),
      VecReady s (.vst none (.v a) k m) ∧
      s.unlabelled m.regs = true ∧
      s.Inv ∧
      (s.me.ea m).toNat % 256 ≤ 128 ∧
      s.check (s.me.ea m) 128 1 .store = .ok l ∧
      OwnHome s l ∧
      homeOf l.ha = s.core ∧
      l.fixed = false ∧
      s.readOnly l.ha 128 = false ∧
      l.plane = none ∧
      CleanV s a ∧
      CleanM s k) := by
  refine ⟨⟨exVec, none, 0, .off 14 0, {ha := 0x1FF000000000040, home := 0, ls := true}, ?_⟩,
    ⟨exVec, 1, 4, .off 14 1, {ha := 0x1FF000000000041, home := 0, ls := true}, ?_⟩⟩
    <;> (try simp only [OwnHome, CleanV, CleanM, VecReady, State.Inv, ball_iff, ok_iff]) <;> decide +kernel

/-- The hypotheses of each clause of LoopsAndStreams can be met together. -/
theorem witness_LoopsAndStreams :
    (∃ (s : State) (n : _) (c : _) (body : _) (k : _),
      s.clear (.vloop n c) = true ∧
      s.unlabelled [c] = true ∧
      c ≠ 0 ∧
      s.me.dbg.step = false ∧
      (s.me.g c).val.toNat = k + 1 ∧
      s.capture (slotsFrom n.toNat (nextPc s.me.pc)) = .ok body) ∧
    (∃ (s : State) (n : _) (c : _) (body : _),
      s.clear (.vloop n c) = true ∧
      s.unlabelled [c] = true ∧
      c ≠ 0 ∧
      (s.me.g c).val = 0 ∧
      s.capture (slotsFrom n.toNat (nextPc s.me.pc)) = .ok body) ∧
    (∃ (s : State) (core : _) (l : _) (n : _),
      (s.coreAt core).loops = [l] ∧
      keySet l.key = (s.coreAt core).cur ∧
      (s.coreAt core).live = true ∧
      l.stopped = false ∧
      l.at_ = l.body.length ∧
      l.left = some (n + 1)) ∧
    (∃ (s : State) (core : _) (l : _),
      (s.coreAt core).loops = [l] ∧
      keySet l.key = (s.coreAt core).cur ∧
      (s.coreAt core).live = true ∧
      l.stopped = false ∧
      l.at_ = l.body.length ∧
      l.left = some 0) ∧
    (∃ (s : State) (d : FReg) (n : Fin 8),
      s.clear (.scfg d 0 0) = true ∧
      d.val = 24 + n.val) ∧
    (∃ (s : State) (d : FReg) (n : Fin 8) (b : _) (off : _) (l : _),
      s.clear (.scfg d b off) = true ∧
      d.val = 24 + n.val ∧
      (¬ (b = 0 ∧ off = 0)) ∧
      s.unlabelled [b] = true ∧
      (s.me.eaOff b off).toNat % 64 = 0 ∧
      s.allPerformed = true ∧
      s.check (s.me.eaOff b off) 64 1 .load = .ok l ∧
      l.home = s.core ∧
      s.here.halted = false ∧
      s.store.bad = [] ∧
      s.inOwnTurn = true ∧
      Shape.check { raw := BitVec.ofNat 512 (readNat s l.ha 64), addr := s.me.eaOff b off } scfgWant = 0) ∧
    (∃ (s : State) (t : _) (d : _) (n : _) (b : _) (x : _) (v : _),
      VecReady s (.vand t (.v d) (.s n) (.v b)) ∧
      s.me.strm n = some x ∧
      x.dir ≠ some false ∧
      x.next ≠ 0 ∧
      s.popStream x = .ok v ∧
      CleanV s b ∧
      (∀ l ∈ v.lab, ∀ h ∈ l, s.lab h = 0)) := by
  refine ⟨⟨exLoop 3, 1, 5, [(0x1001, .vand .f32 (.v 1) (.v 2) (.v 3))], 2, ?_⟩,
    ⟨exLoop 0, 1, 5, [(0x1001, .vand .f32 (.v 1) (.v 2) (.v 3))], ?_⟩,
    ⟨exLooping (some 3), 0, theLoop (some 3) 1, 2, ?_⟩,
    ⟨exLooping (some 0), 0, theLoop (some 0) 1, ?_⟩,
    ⟨exStrm, 24, 0, ?_⟩,
    ⟨exVec, 25, 1, 14, 0x40, {ha := 0x1FF000000000080, home := 0, ls := true}, ?_⟩,
    ⟨exStrm, .i32, 1, 0, 2, strm0, ((exStrm.popStream strm0).toOption.getD ⟨0, [], 0⟩), ?_, ?_, ?_, ?_, rfl, ?_, ?_⟩⟩
    <;> (try simp only [CleanV, VecReady, ball_iff, ok_iff]) <;> decide +kernel

/-- The hypotheses of each clause of MatrixAcceptance can be met together. -/
theorem witness_MatrixAcceptance :
    (∃ (s : State) (t : _) (neg : _) (nacc : _) (tok : _) (c : _) (a : _) (b : _) (k : _) (ra : _) (rb : _) (off : _) (len : _) (kr : Option KReg),
      s.clear (.mmul t neg nacc tok c a b k) = true ∧
      s.unlabelled [c, a, b, k] = true ∧
      HalfFree s ∧
      Records s a b ra rb ∧
      (s.me.g c).val.toNat ≤ 5 ∧
      (s.me.g k).val.toNat = off + len * 2 ^ 32 + (match kr with | some r => (4 + r.val) * 2 ^ 48 | none => 0) ∧
      off < 2 ^ 32 ∧
      0 < len ∧
      len < 2 ^ 16 ∧
      off + len ≤ ra.ext 0 ∧
      (∀ r, kr = some r → len % 8 = 0 ∧ s.kOther r = false) ∧
      mmulFmt t false ra.ty = true ∧
      mmulFmt t true rb.ty = true) ∧
    (∃ (s : State) (t : _) (tok : _) (c : _) (a : _) (b : _) (la : _) (lb : _),
      s.clear (.msca t tok c a b) = true ∧
      s.unlabelled [c, a, b] = true ∧
      HalfFree s ∧
      s.clusterSpot (s.me.g a).val 2 = .ok la ∧
      s.clusterSpot (s.me.g b).val 2 = .ok lb ∧
      (s.me.g c).val.toNat ≤ 5) ∧
    (∃ (s : State) (t : _) (neg : _) (nacc : _) (tok : _) (c : _) (a : _) (b : _) (r : _) (ra : _) (rb : _),
      s.clear (.msliceReg t neg nacc tok c a b r) = true ∧
      s.unlabelled [c, a, b, r] = true ∧
      HalfFree s ∧
      Records s a b ra rb ∧
      (s.me.g c).val.toNat ≤ 5 ∧
      ra.ty = some t ∧
      rb.ty = some t ∧
      0 < (s.me.g r).val.toNat ∧
      (s.me.g r).val.toNat ≤ maxS t) ∧
    (∃ (s : State) (t : _) (neg : _) (nacc : _) (tok : _) (c : _) (a : _) (b : _) (n : BitVec 40) (ra : _) (rb : _),
      s.clear (.msliceImm t neg nacc tok c a b n) = true ∧
      s.unlabelled [c, a, b] = true ∧
      HalfFree s ∧
      Records s a b ra rb ∧
      (s.me.g c).val.toNat ≤ 5 ∧
      ra.ty = some t ∧
      rb.ty = some t ∧
      0 < n.toNat ∧
      n.toNat ≤ maxS t) ∧
    (∃ (s : State) (tok : _) (c : _),
      s.clear (.mzero tok c) = true ∧
      s.unlabelled [c] = true ∧
      HalfFree s ∧
      (s.me.g c).val.toNat ≤ 5) ∧
    (∃ (s : State) (tok : _) (c : _),
      s.clear (.mzero tok c) = true ∧
      s.unlabelled [c] = true ∧
      CanTrap s ∧
      5 < (s.me.g c).val.toNat) ∧
    (∃ (s : State) (tok : _) (c : _) (a : _) (rows : _) (cols : _),
      s.clear (.rtest tok c a) = true ∧
      s.unlabelled [c, a] = true ∧
      HalfFree s ∧
      (s.me.g c).val.toNat ≤ 5 ∧
      (s.me.g a).val.toNat = rows + 256 * cols ∧
      0 < rows ∧
      rows ≤ s.here.rows s.key ∧
      0 < cols ∧
      cols ≤ 64) ∧
    (∃ (s : State) (k : _) (a : _) (l : _),
      s.clear (.kset k a) = true ∧
      s.unlabelled [a] = true ∧
      HalfFree s ∧
      s.kOther k = false ∧
      s.clusterSpot (s.me.g a).val 2 = .ok l) ∧
    (∃ (s : State) (a : _) (b : _),
      (s.clear ((.mctlSetP : GReg → GReg → Instr) a b) = true) ∧
      s.unlabelled [a, b] = true ∧
      HalfFree s ∧
      ((false : Bool) = true → Root s) ∧
      (s.me.g a).val.toNat = (0 : Nat) ∧
      ((fun _ v => v.toNat ∈ [32, 64, 128, 256, 512, 1024] : State → Word → Prop) s (s.me.g b).val)) ∧
    (∃ (s : State) (a : _) (b : _),
      (s.clear ((.mctlSetSplit : GReg → GReg → Instr) a b) = true) ∧
      s.unlabelled [a, b] = true ∧
      HalfFree s ∧
      ((true : Bool) = true → Root s) ∧
      (s.me.g a).val.toNat = (1 : Nat) ∧
      ((fun s v => v.toNat ≤ 1 ∧ Unpaired s : State → Word → Prop) s (s.me.g b).val)) ∧
    (∃ (s : State) (a : _) (b : _),
      (s.clear ((.mctlSetRhalf : GReg → GReg → Instr) a b) = true) ∧
      s.unlabelled [a, b] = true ∧
      HalfFree s ∧
      ((true : Bool) = true → Root s) ∧
      (s.me.g a).val.toNat = (2 : Nat) ∧
      ((fun s v => v.toNat ≤ 1 ∧ s.here.matrix.split = true ∧ Unpaired s : State → Word → Prop) s (s.me.g b).val)) ∧
    (∃ (s : State) (a : _) (b : _),
      (s.clear ((.mctlSetTol : GReg → GReg → Instr) a b) = true) ∧
      s.unlabelled [a, b] = true ∧
      HalfFree s ∧
      ((false : Bool) = true → Root s) ∧
      (s.me.g a).val.toNat = (3 : Nat) ∧
      ((fun _ v => ∃ m e, decF .f64 v.toNat = .fin false m e : State → Word → Prop) s (s.me.g b).val)) ∧
    (∃ (s : State) (a : _) (b : _),
      (s.clear ((.mctlSetBnorm : GReg → GReg → Instr) a b) = true) ∧
      s.unlabelled [a, b] = true ∧
      HalfFree s ∧
      ((false : Bool) = true → Root s) ∧
      (s.me.g a).val.toNat = (4 : Nat) ∧
      ((fun _ v => ∃ m e, decF .f64 v.toNat = .fin false m e : State → Word → Prop) s (s.me.g b).val)) ∧
    (∃ (s : State) (a : _) (b : _),
      (s.clear ((.mctlSetCap : GReg → GReg → Instr) a b) = true) ∧
      s.unlabelled [a, b] = true ∧
      HalfFree s ∧
      ((false : Bool) = true → Root s) ∧
      (s.me.g a).val.toNat = (5 : Nat) ∧
      ((fun _ v => v.toNat < 2 ^ 32 : State → Word → Prop) s (s.me.g b).val)) ∧
    (∃ (s : State) (a : _) (b : _),
      (s.clear ((.mctlSetIter : GReg → GReg → Instr) a b) = true) ∧
      s.unlabelled [a, b] = true ∧
      HalfFree s ∧
      ((false : Bool) = true → Root s) ∧
      (s.me.g a).val.toNat = (6 : Nat) ∧
      ((fun _ v => v.toNat < 2 ^ 32 : State → Word → Prop) s (s.me.g b).val)) := by
  refine ⟨⟨exMat, .i8, true, false, 4, 10, 11, 12, 13, shA, shB, 0, 4, none, ?_⟩,
    ⟨exMat, .f32, 4, 10, 11, 12, loc 0x100, loc 0x140, ?_⟩,
    ⟨exMat, .f64, false, false, 4, 10, 15, 16, 17, shC, shD, ?_⟩,
    ⟨exMat, .f64, true, true, 4, 10, 15, 16, 8, shC, shD, ?_⟩,
    ⟨exMat, 4, 10, ?_⟩,
    ⟨exMat, 4, 18, ?_⟩,
    ⟨exMat, 4, 10, 19, 2, 3, ?_⟩,
    ⟨exMat, 2, 11, loc 0x100, ?_⟩,
    ⟨exMat [(20, 0), (21, 128)], 20, 21, ?_⟩,
    ⟨exMat [(20, 1), (21, 1)] {} 0, 20, 21, ?_⟩,
    ⟨exMat [(20, 2), (21, 1)] { matrix := { split := true } } 0, 20, 21, ?_⟩,
    ⟨exMat [(20, 3), (21, 0x3FF0000000000000)], 20, 21, ?_, ?_, ?_, ?_, ?_, ⟨_, _, rfl⟩⟩,
    ⟨exMat [(20, 4), (21, 0)], 20, 21, ?_, ?_, ?_, ?_, ?_, ⟨_, _, rfl⟩⟩,
    ⟨exMat [(20, 5), (21, 0xFFFFFFFF)], 20, 21, ?_⟩,
    ⟨exMat [(20, 6), (21, 7)], 20, 21, ?_⟩⟩
    <;> (try simp only [CanTrap, Root, HalfFree, Records, Unpaired, ok_iff, Option.some.injEq, forall_eq', reduceCtorEq, false_implies, implies_true]) <;> decide +kernel

/-- The hypotheses of each clause of MatrixEngine can be met together. -/
theorem witness_MatrixEngine :
    (∃ (s : State) (b : _) (off : _) (a : _) (tn : _) (rows : _) (cols : _) (p : _) (l : _),
      s.clear (.mmove b off a) = true ∧
      s.unlabelled [b, a] = true ∧
      s.Inv ∧
      HalfDone s ∧
      (myHalf s).fault = none ∧
      Moves s b off a tn p rows cols l ∧
      OwnHome s l ∧
      l.fixed = false ∧
      s.here.window = [] ∧
      (∀ x n, s.readOnly (l.ha + x) n = false)) ∧
    (∃ (s : State) (b : _) (off : _) (a : _) (tn : _) (rows : _) (cols : _) (p : _) (l : _),
      s.clear (.mmove b off a) = true ∧
      s.unlabelled [b, a] = true ∧
      HalfDone s ∧
      (myHalf s).fault = none ∧
      Moves s b off a tn p rows cols l ∧
      l.home ≠ s.core ∧
      l.ha % 64 + rows * cols * moveBytes s tn p ≤ 64) ∧
    (∃ (s : State) (b : _) (off : _) (a : _) (code : _) (q : _),
      s.clear (.mmove b off a) = true ∧
      s.unlabelled [b, a] = true ∧
      CanTrap s ∧
      HalfDone s ∧
      (myHalf s).fault = some (code, q) ∧
      (s.me.g a).val.toNat ≤ 5) ∧
    (∃ (s : State) (d : _),
      s.clear (.mwait d) = true ∧
      HalfDone s) ∧
    (∃ (s : State) (d : _),
      s.clear (.mwait d) = true ∧
      s.me.goal = [] ∧
      (myHalf s).completed < (myHalf s).accepted) ∧
    (∃ (s : State) (d : _),
      s.clear (.mstat d) = true ∧
      HalfDone s) ∧
    (∃ (s : State) (core : _) (h : Fin 2) (key : _) (rest : _) (tok : _) (c : _),
      (s.half core h.val).offers = key :: rest ∧
      (s.half core h.val).queue.length < 2 ∧
      Waiting s core key .matQueue (.mzero tok c) ∧
      (s.coreAt core).halfNo key = h.val ∧
      (acting s core key).unlabelled [c] = true ∧
      ((s.ctxAt core key).g c).val.toNat ≤ 5) ∧
    (∃ (s : State) (core : _) (h : Fin 2) (op : _) (rest : _),
      Runs s core h ∧
      (s.half core h.val).run = none ∧
      (s.half core h.val).queue = op :: rest ∧
      (s.half core h.val).fault = none ∧
      (¬ (op.kind = .mctl ∧ op.x = 1))) ∧
    (∃ (s : State) (core : _) (h : Fin 2) (op : _) (rest : _) (c : _) (q : _),
      Runs s core h ∧
      (s.half core h.val).run = none ∧
      (s.half core h.val).queue = op :: rest ∧
      (s.half core h.val).fault = some (c, q)) ∧
    (∃ (s : State) (core : _) (h : Fin 2) (r : _),
      Going s core h r .mzero) ∧
    (∃ (s : State) (core : _) (h : Fin 2) (r : _),
      Going s core h r .mmul ∧
      r.op.neg = false ∧
      (s.half core h.val).pcode < 4 ∧
      r.steps.length ≤ 32 * 2 ^ (s.half core h.val).pcode ∧
      r.op.kreg = none ∧
      r.labs = [] ∧
      r.code = 0 ∧
      r.op.b.ext 0 ≤ 64) ∧
    (∃ (s : State) (core : _) (h : Fin 2) (r : _),
      Going s core h r .mctl ∧
      (r.op.x = 1 → (s.half core (1 - h.val)).idleFor r.op.num = true)) ∧
    (∃ (s : State) (core : _) (h : Fin 2) (r : _) (k : KReg),
      Going s core h r .kset ∧
      r.op.kreg = some k) ∧
    (∃ (s : State) (core : _) (h : Fin 2) (r : _),
      Going s core h r .rtest ∧
      s.resolveAt r.op.part ((s.half core h.val).tile r.op.tile).lab = 0) ∧
    (∃ (s : State) (core : _) (h : Fin 2) (r : _),
      (s.coreAt core).enginesRun = true ∧
      (s.half core h.val).run = some r ∧
      r.done = true ∧
      r.op.key < 64) ∧
    (∃ (s : State) (core : _) (h : Fin 2) (r : _) (code : _) (addr : _),
      (s.coreAt core).enginesRun = true ∧
      (s.half core h.val).run = some r ∧
      r.done = false ∧
      r.asked = none ∧
      r.stop = some (code, addr) ∧
      r.op.key < 64 ∧
      (s.partAt r.op.part).valid = false) ∧
    (∃ (s : State) (core : _) (h : Fin 2) (r : _) (code : _) (addr : _),
      (s.coreAt core).enginesRun = true ∧
      (s.half core h.val).run = some r ∧
      r.done = false ∧
      r.asked = none ∧
      r.stop = some (code, addr) ∧
      r.op.key < 64 ∧
      (s.partAt r.op.part).valid = true ∧
      code < 256 ∧
      s.Inv) := by
  refine ⟨⟨exMat [(20, 0x1FE000000000600), (21, 0x30202)] (half { tiles := tile2 }), 20, 0, 21, 2, 2, 3, 0, loc 0x600, ?_, ?_, ?_, ?_, ?_, ?_, ?_, ?_, ?_, (fun _ _ => readOnly_none _ rfl _ _)⟩,
    ⟨exMove, 20, 0, 21, 2, 2, 3, 0, { ha := LS + 0x100600, home := 1, ls := true }, ?_⟩,
    ⟨exMat [(20, 0x1FE000000000600), (21, 2)] (half { tiles := tile2, fault := some (0x46, 5) }), 20, 0, 21, 0x46, 5, ?_⟩,
    ⟨exMat [] (half { fault := some (0x46, 5) }), 6, ?_⟩,
    ⟨exMat [] (half { accepted := 2, completed := 1 }), 6, ?_⟩,
    ⟨exMat [] (half { counters := #v[1, 2, 3, 4, 5, 6, 7, 255] }), 6, ?_⟩,
    ⟨waitFor .matQueue (.mzero 4 17) (half { offers := [1] }), 0, 0, 1, [], 4, 17, ?_⟩,
    ⟨wait .run (half { queue := [mop .mzero] }), 0, 0, mop .mzero, [], ?_⟩,
    ⟨wait .run (half { queue := [mop .mzero], fault := some (0x46, 5) }), 0, 0, mop .mzero, [], 0x46, 5, ?_⟩,
    ⟨wait .run (half { tiles := tile2, run := some (mrun .mzero) }), 0, 0, mrun .mzero, ?_⟩,
    ⟨wait .run (half { tiles := tile2, run := some (mrun .mmul) }), 0, 0, mrun .mmul, ?_⟩,
    ⟨wait .run (half { tiles := tile2, run := some { op := { mop .mctl with x := 1, y := 1 }, stage := .read } }), 0, 0, { op := { mop .mctl with x := 1, y := 1 }, stage := .read }, ?_⟩,
    ⟨wait .run (half { run := some { op := { mop .kset with x := 0x1FE000000000100, kreg := some 1 }, stage := .read } }), 0, 0, { op := { mop .kset with x := 0x1FE000000000100, kreg := some 1 }, stage := .read }, 1, ?_⟩,
    ⟨wait .run (half { run := some { op := { mop .rtest with rows := 2, cols := 3 }, stage := .read }, cap := 1 }), 0, 0, { op := { mop .rtest with rows := 2, cols := 3 }, stage := .read }, ?_⟩,
    ⟨wait .run (half { run := some { mrun .mzero with done := true, code := 0x5F } }), 0, 0, { mrun .mzero with done := true, code := 0x5F }, ?_⟩,
    ⟨wait .run (half { tiles := tile2, run := some { mrun .mmul with stop := some (0x46, 7) } }), 0, 0, { mrun .mmul with stop := some (0x46, 7) }, 0x46, 7, ?_⟩,
    ⟨exMatFault, 0, 0, { mrun .mmul with stop := some (0x46, 7) }, 0x46, 7, ?_⟩⟩
    <;> (try simp only [Moves, OwnHome, CanTrap, Going, HalfDone, Runs, Waiting, State.Inv, ex_some, ex_some_and, ok_iff]) <;> decide +kernel

/-- The hypotheses of each clause of EngineAcceptance can be met together. -/
theorem witness_EngineAcceptance :
    (∃ (s : State) (tok : _) (d : _) (a : _) (n : _) (b : _),
      s.clear (.cpy tok d a n b) = true ∧
      s.unlabelled ([d, a, n] ++ barRegs b) = true ∧
      EngineFree s .copy ∧
      BarOk s b ∧
      (s.me.g n).val.toNat < 2 ^ 32) ∧
    (∃ (s : State) (tok : _) (d : _) (a : _) (n : _),
      s.clear (.cpy tok d a n none) = true ∧
      s.unlabelled [d, a, n] = true ∧
      CanTrap s ∧
      2 ^ 32 ≤ (s.me.g n).val.toNat) ∧
    (∃ (s : State) (tok : _) (d : _) (a : _) (x : _) (b : _) (list : _) (rowb : _) (rows : _) (iw : _),
      (s.clear ((.cpyg : GReg → GReg → GReg → GReg → Option BarOp → Instr) tok d a x b) = true) ∧
      s.unlabelled ([d, a, x] ++ barRegs b) = true ∧
      EngineFree s .copy ∧
      BarOk s b ∧
      s.record (s.me.g x).val 16 16 = .ok (list + rowb * 2 ^ 64 + rows * 2 ^ 88 + iw * 2 ^ 112) ∧
      list < 2 ^ 57 ∧
      0 < rowb ∧
      rowb < 2 ^ 24 ∧
      0 < rows ∧
      rows < 2 ^ 24 ∧
      iw ≤ 1 ∧
      list % (2 + 2 * iw) = 0 ∧
      rows * rowb < 2 ^ 32) ∧
    (∃ (s : State) (tok : _) (d : _) (a : _) (x : _) (b : _) (list : _) (rowb : _) (rows : _) (iw : _),
      (s.clear ((.cpys : GReg → GReg → GReg → GReg → Option BarOp → Instr) tok d a x b) = true) ∧
      s.unlabelled ([d, a, x] ++ barRegs b) = true ∧
      EngineFree s .copy ∧
      BarOk s b ∧
      s.record (s.me.g x).val 16 16 = .ok (list + rowb * 2 ^ 64 + rows * 2 ^ 88 + iw * 2 ^ 112) ∧
      list < 2 ^ 57 ∧
      0 < rowb ∧
      rowb < 2 ^ 24 ∧
      0 < rows ∧
      rows < 2 ^ 24 ∧
      iw ≤ 1 ∧
      list % (2 + 2 * iw) = 0 ∧
      rows * rowb < 2 ^ 32) ∧
    (∃ (s : State) (tok : _) (l : _) (r : _) (d : _) (e : _) (x : _) (y : _),
      (s.clear ((.xformReshape : GReg → GReg → GReg → Instr) tok l r) = true) ∧
      s.unlabelled [l, r] = true ∧
      EngineFree s .xform ∧
      (r ≠ 0 → ∃ p, s.localSpot (s.me.g r).val 16 = .ok p) ∧
      s.record (s.me.g l).val 64 64 = .ok d ∧
      s.record ((s.me.g l).val + 64) 64 64 = .ok e ∧
      x = { raw := BitVec.ofNat 512 d, addr := (s.me.g l).val } ∧
      y = { raw := BitVec.ofNat 512 e, addr := (s.me.g l).val + 64 } ∧
      s.recordSpots x = .ok () ∧
      s.recordSpots y = .ok () ∧
      xfCode (0 : Nat) x y = 0) ∧
    (∃ (s : State) (tok : _) (l : _) (r : _) (d : _) (e : _) (x : _) (y : _),
      (s.clear ((.xformCompact : GReg → GReg → GReg → Instr) tok l r) = true) ∧
      s.unlabelled [l, r] = true ∧
      EngineFree s .xform ∧
      (r ≠ 0 → ∃ p, s.localSpot (s.me.g r).val 16 = .ok p) ∧
      s.record (s.me.g l).val 64 64 = .ok d ∧
      s.record ((s.me.g l).val + 64) 64 64 = .ok e ∧
      x = { raw := BitVec.ofNat 512 d, addr := (s.me.g l).val } ∧
      y = { raw := BitVec.ofNat 512 e, addr := (s.me.g l).val + 64 } ∧
      s.recordSpots x = .ok () ∧
      s.recordSpots y = .ok () ∧
      xfCode (1 : Nat) x y = 0) ∧
    (∃ (s : State) (tok : _) (l : _) (r : _) (d : _) (e : _) (x : _) (y : _),
      (s.clear ((.xformExpand : GReg → GReg → GReg → Instr) tok l r) = true) ∧
      s.unlabelled [l, r] = true ∧
      EngineFree s .xform ∧
      (r ≠ 0 → ∃ p, s.localSpot (s.me.g r).val 16 = .ok p) ∧
      s.record (s.me.g l).val 64 64 = .ok d ∧
      s.record ((s.me.g l).val + 64) 64 64 = .ok e ∧
      x = { raw := BitVec.ofNat 512 d, addr := (s.me.g l).val } ∧
      y = { raw := BitVec.ofNat 512 e, addr := (s.me.g l).val + 64 } ∧
      s.recordSpots x = .ok () ∧
      s.recordSpots y = .ok () ∧
      xfCode (2 : Nat) x y = 0) ∧
    (∃ (s : State) (tok : _) (l : _) (r : _) (d : _) (e : _) (x : _) (y : _),
      (s.clear ((.xformMxPack : GReg → GReg → GReg → Instr) tok l r) = true) ∧
      s.unlabelled [l, r] = true ∧
      EngineFree s .xform ∧
      (r ≠ 0 → ∃ p, s.localSpot (s.me.g r).val 16 = .ok p) ∧
      s.record (s.me.g l).val 64 64 = .ok d ∧
      s.record ((s.me.g l).val + 64) 64 64 = .ok e ∧
      x = { raw := BitVec.ofNat 512 d, addr := (s.me.g l).val } ∧
      y = { raw := BitVec.ofNat 512 e, addr := (s.me.g l).val + 64 } ∧
      s.recordSpots x = .ok () ∧
      s.recordSpots y = .ok () ∧
      xfCode (3 : Nat) x y = 0) ∧
    (∃ (s : State) (tok : _) (l : _) (r : _) (d : _) (e : _) (x : _) (y : _),
      (s.clear ((.xformMxPackSat : GReg → GReg → GReg → Instr) tok l r) = true) ∧
      s.unlabelled [l, r] = true ∧
      EngineFree s .xform ∧
      (r ≠ 0 → ∃ p, s.localSpot (s.me.g r).val 16 = .ok p) ∧
      s.record (s.me.g l).val 64 64 = .ok d ∧
      s.record ((s.me.g l).val + 64) 64 64 = .ok e ∧
      x = { raw := BitVec.ofNat 512 d, addr := (s.me.g l).val } ∧
      y = { raw := BitVec.ofNat 512 e, addr := (s.me.g l).val + 64 } ∧
      s.recordSpots x = .ok () ∧
      s.recordSpots y = .ok () ∧
      xfCode (4 : Nat) x y = 0) ∧
    (∃ (s : State) (tok : _) (l : _) (r : _) (d : _) (e : _) (x : _) (y : _),
      (s.clear ((.xformMxUnpack : GReg → GReg → GReg → Instr) tok l r) = true) ∧
      s.unlabelled [l, r] = true ∧
      EngineFree s .xform ∧
      (r ≠ 0 → ∃ p, s.localSpot (s.me.g r).val 16 = .ok p) ∧
      s.record (s.me.g l).val 64 64 = .ok d ∧
      s.record ((s.me.g l).val + 64) 64 64 = .ok e ∧
      x = { raw := BitVec.ofNat 512 d, addr := (s.me.g l).val } ∧
      y = { raw := BitVec.ofNat 512 e, addr := (s.me.g l).val + 64 } ∧
      s.recordSpots x = .ok () ∧
      s.recordSpots y = .ok () ∧
      xfCode (5 : Nat) x y = 0) ∧
    (∃ (s : State) (tok : _) (l : _) (r : _) (d : _) (e : _) (x : _) (y : _),
      (s.clear ((.xformDeltaEncode : GReg → GReg → GReg → Instr) tok l r) = true) ∧
      s.unlabelled [l, r] = true ∧
      EngineFree s .xform ∧
      (r ≠ 0 → ∃ p, s.localSpot (s.me.g r).val 16 = .ok p) ∧
      s.record (s.me.g l).val 64 64 = .ok d ∧
      s.record ((s.me.g l).val + 64) 64 64 = .ok e ∧
      x = { raw := BitVec.ofNat 512 d, addr := (s.me.g l).val } ∧
      y = { raw := BitVec.ofNat 512 e, addr := (s.me.g l).val + 64 } ∧
      s.recordSpots x = .ok () ∧
      s.recordSpots y = .ok () ∧
      xfCode (6 : Nat) x y = 0) ∧
    (∃ (s : State) (tok : _) (l : _) (r : _) (d : _) (e : _) (x : _) (y : _),
      (s.clear ((.xformDeltaDecode : GReg → GReg → GReg → Instr) tok l r) = true) ∧
      s.unlabelled [l, r] = true ∧
      EngineFree s .xform ∧
      (r ≠ 0 → ∃ p, s.localSpot (s.me.g r).val 16 = .ok p) ∧
      s.record (s.me.g l).val 64 64 = .ok d ∧
      s.record ((s.me.g l).val + 64) 64 64 = .ok e ∧
      x = { raw := BitVec.ofNat 512 d, addr := (s.me.g l).val } ∧
      y = { raw := BitVec.ofNat 512 e, addr := (s.me.g l).val + 64 } ∧
      s.recordSpots x = .ok () ∧
      s.recordSpots y = .ok () ∧
      xfCode (7 : Nat) x y = 0) ∧
    (∃ (s : State) (tok : _) (l : _) (r : _) (d : _) (e : _) (x : _) (y : _),
      (s.clear ((.xformZeroRun : GReg → GReg → GReg → Instr) tok l r) = true) ∧
      s.unlabelled [l, r] = true ∧
      EngineFree s .xform ∧
      (r ≠ 0 → ∃ p, s.localSpot (s.me.g r).val 16 = .ok p) ∧
      s.record (s.me.g l).val 64 64 = .ok d ∧
      s.record ((s.me.g l).val + 64) 64 64 = .ok e ∧
      x = { raw := BitVec.ofNat 512 d, addr := (s.me.g l).val } ∧
      y = { raw := BitVec.ofNat 512 e, addr := (s.me.g l).val + 64 } ∧
      s.recordSpots x = .ok () ∧
      s.recordSpots y = .ok () ∧
      xfCode (8 : Nat) x y = 0) ∧
    (∃ (s : State) (tok : _) (l : _) (r : _) (d : _) (e : _) (x : _) (y : _),
      (s.clear ((.xformDeltaZeroRun : GReg → GReg → GReg → Instr) tok l r) = true) ∧
      s.unlabelled [l, r] = true ∧
      EngineFree s .xform ∧
      (r ≠ 0 → ∃ p, s.localSpot (s.me.g r).val 16 = .ok p) ∧
      s.record (s.me.g l).val 64 64 = .ok d ∧
      s.record ((s.me.g l).val + 64) 64 64 = .ok e ∧
      x = { raw := BitVec.ofNat 512 d, addr := (s.me.g l).val } ∧
      y = { raw := BitVec.ofNat 512 e, addr := (s.me.g l).val + 64 } ∧
      s.recordSpots x = .ok () ∧
      s.recordSpots y = .ok () ∧
      xfCode (9 : Nat) x y = 0) := by
  refine ⟨⟨exGather, 4, 11, 12, 20, none, ?_⟩,
    ⟨exGather, 4, 11, 12, 11, ?_⟩,
    ⟨exGather, 4, 12, 20, 11, none, 0x1FE000000000800, 16, 3, 1, ?_⟩,
    ⟨exGather, 4, 12, 20, 11, some ⟨14, 0⟩, 0x1FE000000000800, 16, 3, 1, ?_⟩,
    ⟨exXf 0, 4, 11, 0, (xfRec 0).1, (xfRec 0).2, xfX 0, xfY 0, ?_⟩,
    ⟨exXf 1, 4, 11, 14, (xfRec 1).1, (xfRec 1).2, xfX 1, xfY 1, ?_⟩,
    ⟨exXf 2, 4, 11, 0, (xfRec 2).1, (xfRec 2).2, xfX 2, xfY 2, ?_⟩,
    ⟨exXf 3, 4, 11, 14, (xfRec 3).1, (xfRec 3).2, xfX 3, xfY 3, ?_⟩,
    ⟨exXf 4, 4, 11, 0, (xfRec 4).1, (xfRec 4).2, xfX 4, xfY 4, ?_⟩,
    ⟨exXf 5, 4, 11, 14, (xfRec 5).1, (xfRec 5).2, xfX 5, xfY 5, ?_⟩,
    ⟨exXf 6, 4, 11, 0, (xfRec 6).1, (xfRec 6).2, xfX 6, xfY 6, ?_⟩,
    ⟨exXf 7, 4, 11, 14, (xfRec 7).1, (xfRec 7).2, xfX 7, xfY 7, ?_⟩,
    ⟨exXf 8, 4, 11, 0, (xfRec 8).1, (xfRec 8).2, xfX 8, xfY 8, ?_⟩,
    ⟨exXf 9, 4, 11, 14, (xfRec 9).1, (xfRec 9).2, xfX 9, xfY 9, ?_⟩⟩
    <;> (try simp only [CanTrap, EngineFree, BarOk, ex_some, ok_iff, Option.some.injEq, forall_eq', reduceCtorEq, false_implies, implies_true]) <;> decide +kernel

/-- The hypotheses of each clause of EngineOperation can be met together. -/
theorem witness_EngineOperation :
    (∃ (s : State) (core : _) (key : _) (rest : _) (tok : _) (d : _) (a : _) (n : _),
      (s.eng core .copy).offers = key :: rest ∧
      (s.eng core .copy).queue.length < 2 ∧
      Waiting s core key (.engQueue .copy) (.cpy tok d a n none) ∧
      (acting s core key).unlabelled [d, a, n] = true ∧
      ((s.ctxAt core key).g n).val.toNat < 2 ^ 32) ∧
    (∃ (s : State) (core : _) (e : _) (op : _) (rest : _),
      (s.coreAt core).enginesRun = true ∧
      (s.eng core e).run = none ∧
      (s.eng core e).queue = op :: rest) ∧
    (∃ (s : State) (u : State) (core : _) (op : _) (n : _) (ls : _) (ld : _),
      s.Inv ∧
      Begun s u core .copy op ∧
      (s.eng core .copy).buf = [] ∧
      op.kind = .cpy ∧
      op.opa ≠ portAddr ∧
      op.bytes = n ∧
      op.rowb = n ∧
      0 < n ∧
      op.opa.toNat % 64 + n ≤ 64 ∧
      op.opb.toNat % 64 + n ≤ 64 ∧
      u.engSpot core op.key op.opb.toNat .load = .ok (ls, u) ∧
      u.engSpot core op.key op.opa.toNat .store = .ok (ld, u) ∧
      ls.home = core ∧
      ld.home = core ∧
      s.store.bad = [] ∧
      (s.coreAt core).parks = [] ∧
      homeOf ld.ha = core ∧
      ld.plane = none ∧
      ld.fixed = false ∧
      s.readOnly ld.ha n = false ∧
      (∀ h ∈ s.loadLabs (s.engReq core op.key .copy (.read ls.ha) .load ls op.opb.toNat n), s.resolve core (s.partKey core op.key) h = 0)) ∧
    (∃ (s : State) (u : State) (core : _) (op : _),
      Begun s u core .copy op ∧
      op.kind = .cpy ∧
      op.bytes = 0) ∧
    (∃ (s : State) (core : _) (e : _) (r : _),
      (s.coreAt core).enginesRun = true ∧
      (s.eng core e).run = some r ∧
      r.done = true ∧
      r.pending = 0 ∧
      r.stop = none ∧
      r.op.bar = none ∧
      r.op.toPort = false ∧
      r.op.key < 64 ∧
      s.engTurn core e r = true) ∧
    (∃ (s : State) (core : _) (e : _) (r : _) (code : _) (addr : _),
      (s.coreAt core).enginesRun = true ∧
      (s.eng core e).run = some r ∧
      r.pending = 0 ∧
      r.asked = none ∧
      r.stop = some (code, addr)) ∧
    (∃ (s : State) (core : _) (e : _) (r : _),
      (s.eng core e).run = some r ∧
      r.held = true ∧
      r.acked = true) := by
  refine ⟨⟨waitFor (.engQueue .copy) (.cpy 4 11 12 10 none) { copyEng := { offers := [1] } }, 0, 1, [], 4, 11, 12, 10, ?_⟩,
    ⟨eng { queue := [cop] }, 0, .copy, cop, [], ?_⟩,
    ⟨eng { run := some { op := cop, seen := (eng {}).store } }, eng0 cop, 0, cop, 16, loc 0x204, loc 0x480, ?_⟩,
    ⟨eng { run := some { op := { cop with bytes := 0 }, seen := (eng {}).store } }, eng0 { cop with bytes := 0 }, 0, { cop with bytes := 0 }, ?_⟩,
    ⟨eng { run := some { op := cop, done := true, pos := 16 } }, 0, .copy, { op := cop, done := true, pos := 16 }, ?_⟩,
    ⟨eng { run := some { op := cop, stop := some (9, 7) } }, 0, .copy, { op := cop, stop := some (9, 7) }, 9, 7, ?_⟩,
    ⟨eng { run := some { op := cop, held := true, acked := true } }, 0, .copy, { op := cop, held := true, acked := true }, ?_⟩⟩
    <;> (try simp only [Begun, Waiting, State.Inv, ball_iff, ex_some, ex_some_and, ok_iff]) <;> decide +kernel

/-- The hypotheses of each clause of RewriteInstructions can be met together. -/
theorem witness_RewriteInstructions :
    (∃ (s : State) (d : _) (a : _),
      s.clear (.nalloc d a) = true ∧
      isCompute s.core = true ∧
      s.unlabelled [a] = true ∧
      s.Inv ∧
      (s.me.g a).val.toNat < 2 ^ 14 ∧
      headOfList s ≠ 0 ∧
      Quiet s) ∧
    (∃ (s : State) (d : _) (a : _),
      s.clear (.nalloc d a) = true ∧
      isCompute s.core = true ∧
      s.unlabelled [a] = true ∧
      CanTrap s ∧
      (s.me.g a).val.toNat < 2 ^ 14 ∧
      headOfList s = 0) ∧
    (∃ (s : State) (a : _) (l : _),
      s.clear (.nfree a) = true ∧
      isCompute s.core = true ∧
      s.unlabelled [a] = true ∧
      s.Inv ∧
      s.nodeSpot s.core s.key (s.me.g a).val = some l ∧
      l.home = s.core ∧
      Quiet s ∧
      field (s.natAt l.ha 8) 49 1 = 0) ∧
    (∃ (s : State) (a : _) (b : _) (x : _) (y : _),
      s.clear (.link a b) = true ∧
      isCompute s.core = true ∧
      s.unlabelled [a, b] = true ∧
      s.Inv ∧
      (s.me.g a).val.setWidth 40 = x ∧
      (s.me.g b).val.setWidth 40 = y ∧
      s.me.out = .none ∧
      s.orderly .pk = true ∧
      Ports s x y ∧
      Quiet s ∧
      (¬ (x.toNat % 4 = 0 ∧ y.toNat % 4 = 0))) ∧
    (∃ (s : State) (a : _) (b : _) (x : _) (y : _),
      s.clear (.link a b) = true ∧
      isCompute s.core = true ∧
      s.unlabelled [a, b] = true ∧
      s.Inv ∧
      (s.me.g a).val.setWidth 40 = x ∧
      (s.me.g b).val.setWidth 40 = y ∧
      s.me.out = .none ∧
      s.orderly .pk = true ∧
      Ports s x y ∧
      Quiet s ∧
      x.toNat % 4 = 0 ∧
      y.toNat % 4 = 0 ∧
      DequeRoom s) ∧
    (∃ (s : State) (a : _) (b : _) (l : _) (k : _),
      s.clear (.ppush a b) = true ∧
      isCompute s.core = true ∧
      s.unlabelled [a, b] = true ∧
      s.nodeSpot s.core s.key (s.me.g a).val = some l ∧
      s.nodeSpot s.core s.key (s.me.g b).val = some k ∧
      (s.me.g a).val ≠ (s.me.g b).val ∧
      DequeRoom s) ∧
    (∃ (s : State) (d : _) (a : _) (p : _) (rest : _),
      s.clear (.ppop d a) = true ∧
      isCompute s.core = true ∧
      pairRegs d a = false ∧
      realKey s.key % 16 ≠ 15 ∧
      s.here.rewrite.hold = p :: rest ∧
      p.hk = s.hkOf s.core s.key) ∧
    (∃ (s : State) (d : _) (a : _),
      s.clear (.ppop d a) = true ∧
      isCompute s.core = true ∧
      pairRegs d a = false ∧
      realKey s.key % 16 ≠ 15 ∧
      s.here.rewrite.hold = [] ∧
      s.here.basket (s.hkOf s.core s.key) = false ∧
      s.here.rewrite.taken = [] ∧
      s.here.steal.domain = 0) ∧
    (∃ (s : State) (a : _) (b : _) (v : _) (w : _) (m : _) (n : _) (r : _) (p : _) (q : _),
      s.clear (.rdisp a b) = true ∧
      isCompute s.core = true ∧
      pairRegs a b = false ∧
      s.unlabelled [a, b] = true ∧
      s.me.out = .none ∧
      s.me.fetched = [] ∧
      62 ∉ s.me.pend ∧
      Quiet s ∧
      s.here.window = [] ∧
      ReadsNode s (s.me.g a).val v ∧
      ReadsNode s (s.me.g b).val w ∧
      s.pairNodes s.core s.part (s.me.g a).val (s.me.g b).val v w = .ok m n ∧
      (s.partAt s.part).rule (nodeType m) (nodeType n) = some r ∧
      r.template = false ∧
      r.order (nodeType m) (nodeType n) (s.me.g a).val (s.me.g b).val = (p, q)) ∧
    (∃ (s : State) (t : _) (a : _) (h : _) (n : _) (bs : _),
      s.clear (.rtload t a) = true ∧
      Root s ∧
      t ≠ 0 ∧
      isCompute s.core = true ∧
      s.unlabelled [a] = true ∧
      (s.me.g a).val.toNat % 8 = 0 ∧
      s.imageRead (s.me.g a).val 8 = .ok h ∧
      field (leNat h) 0 13 = n ∧
      1 ≤ n ∧
      n ≤ 4096 ∧
      s.imageRead (s.me.g a).val (8 + 16 * n) = .ok bs) ∧
    (∃ (s : State) (core : _) (src : _) (m : _) (key : _) (tok : _) (addr : _) (pc : _) (image : _) (n : _) (rs : _),
      Next s src core .th m (.rtload key tok addr pc image) ∧
      (image.headD 0).toNat = n ∧
      1 ≤ n ∧
      n ≤ 4096 ∧
      (s.consume m).rulesOf src key image.tail [] = some rs) ∧
    (∃ (s : State) (core : _) (i : _),
      (s.coreAt core).live = true ∧
      isCompute core = true ∧
      (s.coreAt core).rewrite.taken = [] ∧
      (s.coreAt core).linkKey = none ∧
      ((s.coreAt core).dq ((s.coreAt core).half (s.coreAt core).cur false)).items = [i] ∧
      ((s.coreAt core).dq ((s.coreAt core).half (s.coreAt core).cur false)).busy = false ∧
      (s.coreAt core).holdRoom (2 * (s.coreAt core).cur) = true ∧
      i.kind = .pair ∧
      i.set = (s.coreAt core).cur ∧
      i.ten = false ∧
      s.itemReady i = true) ∧
    (∃ (s : State) (core : _) (r : _) (v : _) (w : _) (m : _) (n : _),
      (s.coreAt core).live = true ∧
      isCompute core = true ∧
      (s.coreAt core).linkKey = none ∧
      (s.coreAt core).rewrite.taken = [r] ∧
      r.pair.hk / 2 = (s.coreAt core).cur ∧
      r.tmpl = none ∧
      r.sent = none ∧
      r.err = none ∧
      r.got = [v, w] ∧
      (s.nodeSpot core (hkKey r.pair.hk) r.pair.a).isSome = true ∧
      (s.nodeSpot core (hkKey r.pair.hk) r.pair.b).isSome = true ∧
      s.pairNodes core (s.partKey core (hkKey r.pair.hk)) r.pair.a r.pair.b v w = .ok m n ∧
      (s.partAt (s.partKey core (hkKey r.pair.hk))).rule (nodeType m) (nodeType n) = none ∧
      (s.coreAt core).holdRoom r.pair.hk = true) := by
  refine ⟨⟨exFree, 6, 4, ?_⟩,
    ⟨exNode [(4, 0x1003)], 6, 4, ?_⟩,
    ⟨exFree, 5, loc 0x1000, ?_⟩,
    ⟨exNode [(4, 0x1001), (5, 0x1020)], 4, 5, 0x1001, 0x1020, ?_⟩,
    ⟨exNode [(4, 0x1000), (5, 0x1020)], 4, 5, 0x1000, 0x1020, ?_⟩,
    ⟨exNode [(4, 0x1FF000000001000), (5, 0x1FF000000001040)], 4, 5, loc 0x1000, loc 0x1040, ?_⟩,
    ⟨exNode [] { rewrite := { hold := [⟨7, 8, 0⟩, ⟨9, 10, 1⟩] } }, 1, 2, ⟨7, 8, 0⟩, [⟨9, 10, 1⟩], ?_⟩,
    ⟨exNode [] { steal := { domain := 0 } }, 1, 2, ?_⟩,
    ⟨exNode [(4, 0x1FF000000001000), (5, 0x1FF000000001040)] {} 1 rules39, 4, 5, nodeX, nodeY, (3 * 2 ^ 52 + 1 * 2 ^ 50), (9 * 2 ^ 52 + 2 ^ 50 + 0x123), rule39, 0x1FF000000001000, 0x1FF000000001040, ?_⟩,
    ⟨exImage, 6, 4, (exImage.vread .load 0x1FE000000003000 1 8).toOption.getD [], 1, (exImage.vread .load 0x1FE000000003000 2 24).toOption.getD [], ?_⟩,
    ⟨exApply, 0, 0, msg1 (.rtload 1 4 0x1FE000000003000 0x1000 [1, 0x9003, 0x4000]), 1, 4, 0x1FE000000003000, 0x1000, [1, 0x9003, 0x4000], 1, rules39, ?_⟩,
    ⟨exPairDue, 0, { kind := .pair, a := ⟨0x1FF000000001000, 0⟩, b := ⟨0x1FF000000001040, 0⟩ }, ?_⟩,
    ⟨exNode [] { rewrite := { taken := [{ pair := ⟨0x1FF000000001000, 0x1FF000000001040, 0⟩, got := [nodeX, nodeY] }] } }, 0, { pair := ⟨0x1FF000000001000, 0x1FF000000001040, 0⟩, got := [nodeX, nodeY] }, nodeX, nodeY, (3 * 2 ^ 52 + 1 * 2 ^ 50), (9 * 2 ^ 52 + 2 ^ 50 + 0x123), ?_⟩⟩
    <;> (try simp only [CanTrap, Root, Next, DequeRoom, Quiet, Ports, ReadsNode, State.Inv, ex_some, ex_some_and, read_iff, ok_iff]) <;> decide +kernel

/-- The hypotheses of each clause of MessageInstructions can be met together. -/
theorem witness_MessageInstructions :
    (∃ (s : State) (xp : _) (k : _) (a : _) (b : _) (disp : _) (i : Nat) (j : Nat) (dst : _),
      s.clear (.amsgMark xp k a b disp) = true ∧
      s.unlabelled [k] = true ∧
      s.me.pc = slotAddr i ∧
      SlotOk i ∧
      SlotOk j ∧
      (j : Int) = i + disp.toInt ∧
      DestOk s k dst [s.me.g a, s.me.g b]) ∧
    (∃ (s : State) (xp : _) (p : _) (k : _) (a : _) (b : _) (dst : _),
      s.clear (.amsgReg xp p k a b) = true ∧
      s.unlabelled [p, k] = true ∧
      DestOk s k dst [s.me.g a, s.me.g b]) ∧
    (∃ (s : State) (xp : _) (tok : _) (k : _) (a : _) (disp : _) (i : Nat) (j : Nat) (dst : _),
      s.clear (.callatMark xp tok k a disp) = true ∧
      s.unlabelled [k] = true ∧
      tok ≠ 0 ∧
      s.me.pc = slotAddr i ∧
      SlotOk i ∧
      SlotOk j ∧
      (j : Int) = i + disp.toInt ∧
      DestOk s k dst ((argRegs a).map s.me.g)) ∧
    (∃ (s : State) (xp : _) (tok : _) (k : _) (p : _) (a : _) (dst : _),
      s.clear (.callatReg xp tok k p a) = true ∧
      s.unlabelled [k, p] = true ∧
      tok ≠ 0 ∧
      DestOk s k dst ((argRegs a).map s.me.g)) ∧
    (∃ (s : State) (xp : _) (a : _) (i : _),
      s.clear (.reply xp a) = true ∧
      s.me.item = some i ∧
      i.kind = .callat ∧
      i.replied = false ∧
      (pkgOf i.caller = pkgOf s.core ∨ s.lab (s.me.g a).lab = 0)) ∧
    (∃ (s : State) (xp : _) (a : _),
      s.clear (.reply xp a) = true ∧
      s.me.item = none) ∧
    (∃ (s : State) (xp : _) (p : _) (k : _) (a : _) (b : _) (dst : CoreNo),
      s.clear (.amsgReg xp p k a b) = true ∧
      s.unlabelled [p, k] = true ∧
      CanTrap s ∧
      (s.me.g k).val = dst.setWidth 64 ∧
      assigned s dst = true ∧
      s.inReach s.part dst = false) ∧
    (∃ (s : State) (core : _) (src : _) (m : _) (pc : _) (a : _) (b : _) (ctx : _) (ten : _),
      Next s src core .th m (.amsg pc a b ctx false ten) ∧
      (s.coreAt core).tap = [] ∧
      (s.coreAt core).halted = false ∧
      (s.setAt m.part core).1 = (s.coreAt core).cur ∧
      (s.coreAt core).tapFree = true) ∧
    (∃ (s : State) (core : _) (src : _) (m : _) (pc : _) (a : _) (b : _) (ctx : _) (ten : _),
      Next s src core .th m (.amsg pc a b ctx true ten) ∧
      (s.coreAt core).tap = [] ∧
      (s.coreAt core).halted = false ∧
      (s.setAt m.part core).1 = (s.coreAt core).cur ∧
      (s.coreAt core).tapFree = true) ∧
    (∃ (s : State) (core : _) (src : _) (m : _) (i : _),
      Next s src core .th m (.callat i) ∧
      (s.coreAt core).halted = false ∧
      i.kind = .callat ∧
      ((s.coreAt core).dq ((s.coreAt core).half i.set i.ten)).busy = false ∧
      entries ((s.coreAt core).dq ((s.coreAt core).half i.set i.ten)).items + 2 ≤ hwPlaces ((s.coreAt core).half i.set i.ten)) ∧
    (∃ (s : State) (core : _) (src : _) (m : _) (key : _) (r : _) (v : _),
      Next s src core .th m (.reply key r v) ∧
      key < 64 ∧
      r ≠ 0 ∧
      r ∈ (s.ctxAt core key).pend) ∧
    (∃ (s : State) (core : _) (dst : _) (m : _),
      s.msgs = [m] ∧
      m.src = core ∧
      m.dst = dst ∧
      (∀ id, m.body ≠ .refused id) ∧
      m.retryAt ≠ 0 ∧
      m.retryAt ≤ s.cycle) ∧
    (∃ (s : State) (core : _) (dst : _) (m : _) (id : _) (x : _),
      s.refusalOf core dst = some (m, id) ∧
      x ∈ s.msgs ∧
      x.id = id ∧
      id ≠ m.id) := by
  refine ⟨⟨exMsg, false, 5, 6, 7, 2, 320, 322, 1, ?_⟩,
    ⟨exMsg, false, 8, 5, 6, 7, 1, ?_⟩,
    ⟨exMsg, false, 4, 5, 6, -1, 320, 319, 1, ?_⟩,
    ⟨exMsg, true, 4, 5, 8, 6, 1, ?_⟩,
    ⟨exMsg [] (some theItem), false, 6, theItem, ?_⟩,
    ⟨exMsg, false, 6, ?_⟩,
    ⟨exMsg [(5, 2)], false, 8, 5, 6, 7, 2, ?_⟩,
    ⟨exRecv (.amsg 0x4000 ⟨1, 0⟩ ⟨2, 0⟩ 3 false false), 0, 1, msg1 (.amsg 0x4000 ⟨1, 0⟩ ⟨2, 0⟩ 3 false false) 1, 0x4000, ⟨1, 0⟩, ⟨2, 0⟩, 3, false, ?_⟩,
    ⟨exRecv (.amsg 0 ⟨1, 0⟩ ⟨2, 0⟩ 3 true false), 0, 1, msg1 (.amsg 0 ⟨1, 0⟩ ⟨2, 0⟩ 3 true false) 1, 0, ⟨1, 0⟩, ⟨2, 0⟩, 3, false, ?_⟩,
    ⟨exRecv (.callat { kind := .callat, pc := 0x4000 }), 0, 1, msg1 (.callat { kind := .callat, pc := 0x4000 }) 1, { kind := .callat, pc := 0x4000 }, ?_⟩,
    ⟨exRecv (.reply 1 4 ⟨9, 5⟩), 0, 1, msg1 (.reply 1 4 ⟨9, 5⟩) 1, 1, 4, ⟨9, 5⟩, ?_⟩,
    ⟨{ withMsg exMsg { msg1 (.lflush 0) 1 with retryAt := 5 } with cycle := 9 }, 1, 0, { msg1 (.lflush 0) 1 with retryAt := 5 }, ?_⟩,
    ⟨{ cores := [], msgs := [{ msg1 (.refused 7) 0 1 with id := 9, vc := 1 }, { msg1 (.lflush 0) 1 with id := 7, refusals := 3 }] }, 1, 0, { msg1 (.refused 7) 0 1 with id := 9, vc := 1 }, 7, { msg1 (.lflush 0) 1 with id := 7, refusals := 3 }, ?_⟩⟩
    <;> (try simp only [CanTrap, Next, SlotOk, DestOk, ball_iff, refusal_iff]) <;> decide +kernel

/-- The hypotheses of each clause of SystemRegisters can be met together. -/
theorem witness_SystemRegisters :
    (∃ (s : State) (d : _),
      s.clear (.mfs d (0 : BitVec 12)) = true) ∧
    (∃ (s : State) (d : _),
      s.clear (.mfs d (1 : BitVec 12)) = true) ∧
    (∃ (s : State) (d : _),
      s.clear (.mfs d (2 : BitVec 12)) = true) ∧
    (∃ (s : State) (d : _),
      s.clear (.mfs d (3 : BitVec 12)) = true) ∧
    (∃ (s : State) (d : _),
      s.clear (.mfs d (4 : BitVec 12)) = true) ∧
    (∃ (s : State) (d : _),
      s.clear (.mfs d (5 : BitVec 12)) = true) ∧
    (∃ (s : State) (d : _),
      s.clear (.mfs d (6 : BitVec 12)) = true) ∧
    (∃ (s : State) (d : _),
      s.clear (.mfs d (7 : BitVec 12)) = true) ∧
    (∃ (s : State) (d : _),
      s.clear (.mfs d (14 : BitVec 12)) = true ∧
      isCompute s.core = true) ∧
    (∃ (s : State) (d : _),
      s.clear (.mfs d (16 : BitVec 12)) = true) ∧
    (∃ (s : State) (d : _),
      s.clear (.mfs d (20 : BitVec 12)) = true) ∧
    (∃ (s : State) (d : _),
      s.clear (.mfs d (26 : BitVec 12)) = true) ∧
    (∃ (s : State) (d : _),
      s.clear (.mfs d (27 : BitVec 12)) = true) ∧
    (∃ (s : State) (d : _),
      s.clear (.mfs d (29 : BitVec 12)) = true) ∧
    (∃ (s : State) (d : _),
      s.clear (.mfs d (30 : BitVec 12)) = true ∧
      isCompute s.core = true) ∧
    (∃ (n : _) (s : State) (d : _),
      n ∈ [(14 : BitVec 12), 30] ∧
      s.clear (.mfs d (n : BitVec 12)) = true ∧
      isCompute s.core = false) ∧
    (∃ (s : State) (d : _),
      s.clear (.mfs d (8 : BitVec 12)) = true) ∧
    (∃ (s : State) (d : _),
      s.clear (.mfs d (9 : BitVec 12)) = true) ∧
    (∃ (s : State) (d : _),
      s.clear (.mfs d (10 : BitVec 12)) = true) ∧
    (∃ (s : State) (d : _),
      s.clear (.mfs d (11 : BitVec 12)) = true) ∧
    (∃ (s : State) (d : _),
      s.clear (.mfs d (12 : BitVec 12)) = true) ∧
    (∃ (s : State) (d : _),
      s.clear (.mfs d (13 : BitVec 12)) = true) ∧
    (∃ (s : State) (d : _),
      s.clear (.mfs d (15 : BitVec 12)) = true) ∧
    (∃ (s : State) (d : _),
      s.clear (.mfs d (17 : BitVec 12)) = true) ∧
    (∃ (s : State) (d : _),
      s.clear (.mfs d (18 : BitVec 12)) = true) ∧
    (∃ (s : State) (d : _),
      s.clear (.mfs d (19 : BitVec 12)) = true) ∧
    (∃ (s : State) (d : _),
      s.clear (.mfs d (21 : BitVec 12)) = true) ∧
    (∃ (s : State) (d : _),
      s.clear (.mfs d (22 : BitVec 12)) = true) ∧
    (∃ (s : State) (d : _),
      s.clear (.mfs d (23 : BitVec 12)) = true) ∧
    (∃ (s : State) (d : _),
      s.clear (.mfs d (24 : BitVec 12)) = true) ∧
    (∃ (s : State) (d : _),
      s.clear (.mfs d (25 : BitVec 12)) = true) ∧
    (∃ (s : State) (d : _),
      s.clear (.mfs d (28 : BitVec 12)) = true) ∧
    (∃ (i : Fin 11) (s : State) (d : _),
      s.clear (.mfs d (BitVec.ofNat 12 (0x20 + i.val) : BitVec 12)) = true) ∧
    (∃ (s : State) (a : _),
      s.clear (.mts (4 : BitVec 12) a) = true ∧
      s.unlabelled [a] = true ∧
      s.me.raised = 0) ∧
    (∃ (s : State) (a : _),
      s.clear (.mts (5 : BitVec 12) a) = true ∧
      s.unlabelled [a] = true ∧
      s.me.raised = 0) ∧
    (∃ (s : State) (a : _),
      s.clear (.mts (8 : BitVec 12) a) = true ∧
      s.unlabelled [a] = true ∧
      s.me.raised = 0) ∧
    (∃ (s : State) (a : _),
      s.clear (.mts (11 : BitVec 12) a) = true ∧
      s.unlabelled [a] = true ∧
      s.me.raised = 0) ∧
    (∃ (s : State) (a : _),
      s.clear (.mts (13 : BitVec 12) a) = true ∧
      s.unlabelled [a] = true ∧
      s.me.raised = 0) ∧
    (∃ (s : State) (a : _),
      s.clear (.mts (21 : BitVec 12) a) = true ∧
      s.unlabelled [a] = true ∧
      s.me.raised = 0) ∧
    (∃ (s : State) (a : _),
      s.clear (.mts (25 : BitVec 12) a) = true ∧
      s.unlabelled [a] = true ∧
      s.me.raised = 0) ∧
    (∃ (s : State) (a : _),
      s.clear (.mts (26 : BitVec 12) a) = true ∧
      s.unlabelled [a] = true ∧
      s.me.raised = 0) ∧
    (∃ (s : State) (a : _),
      s.clear (.mts (27 : BitVec 12) a) = true ∧
      s.unlabelled [a] = true ∧
      s.me.raised = 0) ∧
    (∃ (s : State) (a : _),
      s.clear (.mts (28 : BitVec 12) a) = true ∧
      s.unlabelled [a] = true ∧
      s.me.raised = 0) ∧
    (∃ (s : State) (a : _),
      s.clear (.mts (6 : BitVec 12) a) = true ∧
      s.unlabelled [a] = true ∧
      s.me.raised = 0) ∧
    (∃ (n : _) (s : State) (a : _),
      n ∈ [0, 1, 2, 3, 14, 15, 16, 20, 23, 24, 29, 30] ∧
      s.clear (.mts (n : BitVec 12) a) = true ∧
      s.unlabelled [a] = true ∧
      s.me.raised = 0) ∧
    (∃ (i : Fin 11) (s : State) (a : _),
      s.clear (.mts (BitVec.ofNat 12 (0x20 + i.val) : BitVec 12) a) = true ∧
      s.unlabelled [a] = true ∧
      s.me.raised = 0) ∧
    (∃ (s : State) (a : _),
      s.clear (.mts (9 : BitVec 12) a) = true ∧
      s.unlabelled [a] = true ∧
      ((true : Bool) = true → Root s)) ∧
    (∃ (s : State) (a : _),
      s.clear (.mts (7 : BitVec 12) a) = true ∧
      s.unlabelled [a] = true ∧
      ((false : Bool) = true → Root s)) ∧
    (∃ (s : State) (a : _),
      s.clear (.mts (17 : BitVec 12) a) = true ∧
      s.unlabelled [a] = true ∧
      ((true : Bool) = true → Root s)) ∧
    (∃ (s : State) (a : _),
      s.clear (.mts (18 : BitVec 12) a) = true ∧
      s.unlabelled [a] = true ∧
      ((true : Bool) = true → Root s)) ∧
    (∃ (s : State) (a : _),
      s.clear (.mts (19 : BitVec 12) a) = true ∧
      s.unlabelled [a] = true ∧
      ((true : Bool) = true → Root s)) ∧
    (∃ (s : State) (a : _),
      s.clear (.mts (22 : BitVec 12) a) = true ∧
      s.unlabelled [a] = true ∧
      ((true : Bool) = true → Root s)) ∧
    (∃ (s : State) (a : _),
      s.clear (.mts 10 a) = true) ∧
    (∃ (s : State) (a : _),
      s.clear (.mts 12 a) = true) ∧
    (∃ (s : State) (a : _) (n : _),
      n ∈ [(9 : BitVec 12), 17, 18, 19, 22] ∧
      s.clear (.mts n a) = true ∧
      (¬ Root s)) ∧
    (∃ (n : BitVec 12),
      (n = 31 ∨ 0x2B ≤ n.toNat)) := by
  refine ⟨⟨exSys, 3, ?_⟩,
    ⟨exSys, 3, ?_⟩,
    ⟨exSys, 3, ?_⟩,
    ⟨exSys, 3, ?_⟩,
    ⟨exSys, 3, ?_⟩,
    ⟨exSys, 3, ?_⟩,
    ⟨exSys, 3, ?_⟩,
    ⟨exSys, 3, ?_⟩,
    ⟨exSys, 3, ?_⟩,
    ⟨exSys, 3, ?_⟩,
    ⟨exSys, 3, ?_⟩,
    ⟨exSys, 3, ?_⟩,
    ⟨exSys, 3, ?_⟩,
    ⟨exSys, 3, ?_⟩,
    ⟨exSys, 3, ?_⟩,
    ⟨14, { exSys with core := 16, cores := exSys.cores.map fun p => (16, p.2) }, 3, ?_⟩,
    ⟨exSys, 3, ?_⟩,
    ⟨exSys, 3, ?_⟩,
    ⟨exSys, 3, ?_⟩,
    ⟨exSys, 3, ?_⟩,
    ⟨exSys, 3, ?_⟩,
    ⟨exSys, 3, ?_⟩,
    ⟨exSys, 3, ?_⟩,
    ⟨exSys, 3, ?_⟩,
    ⟨exSys, 3, ?_⟩,
    ⟨exSys, 3, ?_⟩,
    ⟨exSys, 3, ?_⟩,
    ⟨exSys, 3, ?_⟩,
    ⟨exSys, 3, ?_⟩,
    ⟨exSys, 3, ?_⟩,
    ⟨exSys, 3, ?_⟩,
    ⟨exSys, 3, ?_⟩,
    ⟨10, exSys, 3, ?_⟩,
    ⟨exSys, 6, ?_⟩,
    ⟨exSys, 6, ?_⟩,
    ⟨exSys, 6, ?_⟩,
    ⟨exSys, 6, ?_⟩,
    ⟨exSys, 6, ?_⟩,
    ⟨exSys, 6, ?_⟩,
    ⟨exSys, 6, ?_⟩,
    ⟨exSys, 6, ?_⟩,
    ⟨exSys, 6, ?_⟩,
    ⟨exSys, 6, ?_⟩,
    ⟨exSys, 6, ?_⟩,
    ⟨0, exSys, 6, ?_⟩,
    ⟨10, exSys, 6, ?_⟩,
    ⟨exSys 0, 6, ?_⟩,
    ⟨exSys, 7, ?_⟩,
    ⟨exSys 0, 6, ?_⟩,
    ⟨exSys 0, 6, ?_⟩,
    ⟨exSys 0, 6, ?_⟩,
    ⟨exSys 0, 6, ?_⟩,
    ⟨exSys, 6, ?_⟩,
    ⟨exSys, 6, ?_⟩,
    ⟨exSys, 6, 22, ?_⟩,
    ⟨31, ?_⟩⟩
    <;> (try simp only [Root]) <;> decide +kernel

/-- The hypotheses of each clause of SystemInstructions can be met together. -/
theorem witness_SystemInstructions :
    (∃ (s : State) (a : _) (n : _) (va : _),
      s.clear (.ackReplay a) = true ∧
      AckFor s a n 0 ∧
      (s.ctxAt s.core (ackKey s n)).run = .wait (.fault va)) ∧
    (∃ (s : State) (a : _) (n : _),
      s.clear (.ackResume a) = true ∧
      AckFor s a n 1 ∧
      (s.ctxAt s.core (ackKey s n)).run = .park .supervisor) ∧
    (∃ (s : State) (a : _) (n : _) (va : _),
      s.clear (.ackRefuse a) = true ∧
      AckFor s a n 2 ∧
      0 < n ∧
      (s.ctxAt s.core (ackKey s n)).run = .wait (.fault va) ∧
      (s.ctxAt s.core (ackKey s n)).eheld = false ∧
      (s.ctxAt s.core (ackKey s n)).tvec ≠ 0) ∧
    (∃ (s : State) (d : _) (a : _) (e : _) (k : _) (r : _) (j : JEntry),
      s.clear (.jrnl d a) = true ∧
      s.unlabelled [a] = true ∧
      (s.me.g a).val.toNat = e + 64 * k + 256 * r ∧
      e < 32 ∧
      k < 4 ∧
      r < 2 ∧
      s.here.journal[e]? = some j) ∧
    (∃ (s : State) (a : _) (n : _) (va : _) (l : _) (k : _),
      s.clear (.csave a) = true ∧
      Root s ∧
      s.unlabelled [a] = true ∧
      s.Inv ∧
      n < 4 ∧
      (s.me.g a).val.toNat = n + va ∧
      va % 2 ^ 15 = 0 ∧
      va < 2 ^ 57 ∧
      s.here.banks[n]? = some .resident ∧
      n ≠ s.here.cur ∧
      keySet s.key ≠ n ∧
      s.localSpot (BitVec.ofNat 64 va) 0x8000 = .ok l ∧
      s.localSpot (BitVec.ofNat 64 va + 0x7FFF) 1 = .ok k ∧
      l.home = s.core ∧
      s.bound s.core n = false) ∧
    (∃ (s : State) (a : _) (n : _) (va : _) (l : _) (k : _) (b : _),
      s.clear (.crest a) = true ∧
      Root s ∧
      s.unlabelled [a] = true ∧
      n < 4 ∧
      (s.me.g a).val.toNat = n + va ∧
      va % 2 ^ 15 = 0 ∧
      va < 2 ^ 57 ∧
      s.here.banks[n]? = some b ∧
      b ≠ .resident ∧
      keySet s.key ≠ n ∧
      s.localSpot (BitVec.ofNat 64 va) 0x8000 = .ok l ∧
      s.localSpot (BitVec.ofNat 64 va + 0x7FFF) 1 = .ok k ∧
      l.home = s.core) ∧
    (∃ (s : State) (a : _) (n : _),
      s.clear (.banksel a) = true ∧
      Root s ∧
      s.unlabelled [a] = true ∧
      (s.here.resident[keySet s.key]?.getD {}).held = true ∧
      (s.me.g a).val.toNat = n ∧
      n < 4 ∧
      s.here.banks[n]? = some .resident ∧
      n ≠ s.here.cur ∧
      keySet s.key = s.here.cur ∧
      s.key < 64) ∧
    (∃ (s : State) (sc : _) (a : _),
      s.clear (.tlbinv sc a) = true ∧
      s.unlabelled [a] = true ∧
      (s.me.g a).val.toNat / 2 % 2 ^ 15 = 0 ∧
      (s.me.g a).val.toNat < 2 ^ 57 ∧
      s.orderly sc = true) ∧
    (∃ (s : State) (core : _) (x : _) (v : Word) (sc : _),
      (s.ctxAt core ((s.coreAt core).key x)).run = .wait (.tlbinv v sc) ∧
      (s.ctxAt core ((s.coreAt core).key x)).raised = 0 ∧
      (s.coreAt core).cur < 4 ∧
      (∀ p ∈ s.cores, ∀ q ∈ p.2.ctxs, ∀ a, q.2.run ≠ .wait (.walk a))) := by
  refine ⟨⟨exAck (.wait (.fault 0x77)) 0x200000, 6, 2, 0x77, ?_⟩,
    ⟨exAck (.park .supervisor) 0x1200000, 6, 2, ?_⟩,
    ⟨exAck (.wait (.fault 0x77)) 0x2200000, 6, 2, 0x77, ?_⟩,
    ⟨exJrnl 0x103, 1, 6, 3, 0, 1, { st := .refused, addr := 5, data := 6, pc := 7 }, ?_⟩,
    ⟨exMgmt [(6, 0x1FE000000010001)] { banks := #v[.resident, .resident, .empty, .empty] }, 6, 1, 0x1FE000000010000, loc 0x10000, loc 0x17FFF, ?_⟩,
    ⟨exMgmt [(6, 0x1FE000000010001)] { banks := #v[.resident, .sealed, .empty, .empty] }, 6, 1, 0x1FE000000010000, loc 0x10000, loc 0x17FFF, .sealed, ?_⟩,
    ⟨exMgmt [(6, 1)] { banks := #v[.resident, .resident, .empty, .empty], resident := (Vector.replicate 4 {}).set 0 { held := true } }, 6, 1, ?_⟩,
    ⟨exMgmt [(6, 0x10000)], .cl, 6, ?_⟩,
    ⟨exTlb, 0, 1, 0x10000, .co, ?_⟩⟩
    <;> (try simp only [Root, Quiet, AckFor, State.Inv, ball_iff, walk_iff, ok_iff]) <;> decide +kernel

/-- The hypotheses of each clause of PartitionControl can be met together. -/
theorem witness_PartitionControl :
    (∃ (s : State) (t : _) (a : _),
      s.clear (.rtswap t a) = true ∧
      Manages s a ∧
      (s.me.g a).val.toNat < 2 ^ 48 ∧
      (s.pkgAt (pkgOf s.core)).swap = none) ∧
    (∃ (s : State) (t : _) (a : _),
      s.clear (.rtswap t a) = true ∧
      Root s ∧
      s.unlabelled [a] = true ∧
      CanTrap s ∧
      (s.partAt s.part).mgmt = false) ∧
    (∃ (s : State) (a : _),
      s.clear (.sstop a) = true ∧
      (¬ Root s)) ∧
    (∃ (s : State) (a : _) (b : _) (die : _) (cl : _) (out : _) (slot : _) (v : _),
      s.clear (.calsetCalendar a b) = true ∧
      s.unlabelled [a, b] = true ∧
      (s.partAt s.part).mgmt = true ∧
      (s.me.g a).val.toNat = cl + 16 * die + 128 * out + 2 ^ 10 * slot ∧
      cl < 16 ∧
      die < 8 ∧
      out < 8 ∧
      slot < 64 ∧
      hasOutput (128 * pkgOf s.core + 16 * die + cl) out = true ∧
      (s.me.g b).val.toNat = v ∧
      field v 10 5 = 0 ∧
      mkCore (pkgOf s.core) die cl 16 ≠ s.core) ∧
    (∃ (s : State) (a : _) (b : _) (die : _) (cl : _) (out : _) (node : _) (v : _),
      s.clear (.calsetArbitration a b) = true ∧
      s.unlabelled [a, b] = true ∧
      Root s ∧
      s.part.node = node ∧
      node < 2 ^ 10 ∧
      (s.me.g a).val.toNat = cl + 16 * die + 128 * out + 2 ^ 16 + 2 ^ 17 * node ∧
      cl < 16 ∧
      die < 8 ∧
      out < 8 ∧
      hasOutput (128 * pkgOf s.core + 16 * die + cl) out = true ∧
      (s.me.g b).val.toNat = v ∧
      field v 16 8 = 0 ∧
      mkCore (pkgOf s.core) die cl 16 ≠ s.core) ∧
    (∃ (s : State) (t : _) (a : _) (l : _),
      s.clear (.psplit t a) = true ∧
      Manages s a ∧
      RequestAt s (s.me.g a).val 64 128 l) ∧
    (∃ (s : State) (t : _) (a : _),
      s.clear (.pmerge t a) = true ∧
      Manages s a ∧
      (s.me.g a).val.toNat < 2 ^ 10) ∧
    (∃ (s : State) (a : _) (l : _) (node : _) (next : _) (discard : Bool),
      s.clear (.sstop a) = true ∧
      Manages s a ∧
      s.Inv ∧
      RequestAt s (s.me.g a).val 16 16 l ∧
      (s.pkgAt (pkgOf s.core)).ctrl = [] ∧
      s.natAt l.ha 8 = node + 2 ^ 10 * next + 2 ^ 12 * discard.toNat ∧
      0 < node ∧
      node < 2 ^ 10 ∧
      next < 4 ∧
      s.nextOk (pkgOf s.core) node next = true ∧
      s.natAt (l.ha + 8) 8 + 64 < 2 ^ 64 ∧
      s.cycleOf (pkgOf s.core) + 1088 < 2 ^ 64) ∧
    (∃ (s : State) (p : Fin 64) (w : _),
      (s.pkgAt p.val).swap = some w ∧
      s.inFlight p.val w.classes = false ∧
      w.confirm = false ∧
      w.at_ ≤ s.cycleOf p.val ∧
      (s.cycleOf p.val - w.at_) % 64 = 0 ∧
      w.key < 64) ∧
    (∃ (s : State) (p : Fin 64) (q : _) (rest : _),
      (s.pkgAt p.val).ctrl = q :: rest ∧
      s.ctrlCode p.val q ≠ 0 ∧
      q.key < 64 ∧
      (s.partAt (s.partKey q.core q.key)).valid = false) ∧
    (∃ (s : State) (p : Fin 64) (q : _) (rest : _),
      (s.pkgAt p.val).ctrl = q :: rest ∧
      s.ctrlCode p.val q ≠ 0 ∧
      q.key < 64 ∧
      (s.partAt (s.partKey q.core q.key)).valid = true ∧
      s.Inv) ∧
    (∃ (s : State) (p : Fin 64) (q : _) (rest : _) (a : _) (ta : _) (b : _) (tb : _) (x : _) (y : _),
      (s.pkgAt p.val).ctrl = q :: rest ∧
      s.ctrlCode p.val q = 0 ∧
      q.key < 64 ∧
      q.merge = false ∧
      q.children = some (a, ta, b, tb) ∧
      q.recs = [x, y]) ∧
    (∃ (s : State) (p : Fin 64) (q : _) (rest : _) (a : _) (ta : _) (b : _) (tb : _),
      (s.pkgAt p.val).ctrl = q :: rest ∧
      s.ctrlCode p.val q = 0 ∧
      q.key < 64 ∧
      q.merge = true ∧
      q.children = some (a, ta, b, tb)) ∧
    (∃ (s : State) (p : Fin 64) (x : _),
      (s.pkgAt p.val).stops = [x] ∧
      x.begun = false ∧
      x.at_ ≤ s.cycleOf p.val) ∧
    (∃ (s : State) (p : Fin 64) (x : _),
      (s.pkgAt p.val).stops = [x] ∧
      x.begun = true ∧
      x.at_ + 2048 ≤ s.cycleOf p.val ∧
      (s.cycleOf p.val - x.at_) % 64 = 0 ∧
      s.stopDone p.val x = true ∧
      x.fn = none ∧
      x.discard = false) ∧
    (∃ (s : State) (p : Fin 64) (node : BitVec 10) (next : Fin 4),
      node ≠ 0 ∧
      s.nextOk p.val node.toNat next.val = true) := by
  refine ⟨⟨exMgmt [(6, 0x7D00003)], 4, 6, ?_⟩,
    ⟨exMgmt [(6, 0x7D00003)] {} {} false, 4, 6, ?_⟩,
    ⟨exMgmt [(6, 0x7D00003)] {} {} true 1, 6, ?_⟩,
    ⟨exMgmt [(6, 0x1701), (7, 0x8005)], 6, 7, 0, 1, 6, 5, 0x8005, ?_⟩,
    ⟨exMgmt [(6, 0x10301), (7, 0x12000005)] {} {} false, 6, 7, 0, 1, 6, 0, 0x12000005, ?_⟩,
    ⟨exMgmt [(6, 0x1FE000000001000)], 4, 6, loc 0x1000, ?_⟩,
    ⟨exMgmt [(6, 5)], 4, 6, ?_⟩,
    ⟨exSstop, 6, loc 0x1000, 512, 1, true, ?_⟩,
    ⟨{ exMgmt [] {} { swap := some theSwap } with routers := [(5, { shadow := [(3, 4)], routes := [(3, 5)] })], cycle := 64 }, 0, theSwap, ?_⟩,
    ⟨exMgmt [] {} { ctrl := [theMerge 0] }, 0, theMerge 0, [], ?_⟩,
    ⟨exCtrl (theMerge 0), 0, theMerge 0, [], ?_⟩,
    ⟨exMgmt [] {} { ctrl := [theSplit] }, 0, theSplit, [], 600, false, 601, false, theSplit.recs.headD 0, theSplit.recs.getLastD 0, ?_⟩,
    ⟨exMgmt [] {} { ctrl := [theMerge 300] }, 0, theMerge 300, [], 600, false, 601, false, ?_⟩,
    ⟨exMgmt [] {} { stops := [theStop false] }, 0, theStop false, ?_⟩,
    ⟨{ exMgmt [] {} { stops := [theStop true] } with cycle := 2048 }, 0, theStop true, ?_⟩,
    ⟨exMgmt [], 0, 512, 1, ?_⟩⟩
    <;> (try simp only [CanTrap, Root, Manages, RequestAt, State.Inv, ex_some, win_ok]) <;> decide +kernel

/-- The hypotheses of each clause of AccessEvents can be met together. -/
theorem witness_AccessEvents :
    (∃ (s : State) (core : _) (src : _) (p : _) (r : _),
      Reaches s src core p r ∧
      r.act = .load) ∧
    (∃ (s : State) (core : _) (src : _) (p : _) (r : _),
      Reaches s src core p r ∧
      r.act = .store (2 ^ r.n - 1) ∧
      s.Inv ∧
      r.data.length = r.n ∧
      s.readOnly r.ha r.n = false ∧
      (∀ h ∈ r.labs, h = 0) ∧
      r.plane = none ∧
      (r.localStore = true → r.ha % 4 = 0 ∧ r.n % 4 = 0)) ∧
    (∃ (s : State) (core : _) (src : _) (p : _) (r : _),
      Reaches s src core p r ∧
      (∀ k, r.act ≠ .bararr k) ∧
      (∀ a b c, r.act ≠ .engarr a b c) ∧
      r.act ≠ .gldRead) ∧
    (∃ (s : State) (core : _) (src : _) (p : _) (r : _) (router : _) (out : _) (arb : _) (slot : _) (node : _),
      Reaches s src core p r ∧
      r.act = .calset router out arb slot node) ∧
    (∃ (s : State) (core : _) (src : _) (p : _) (m : _) (key : _) (d : _) (n : _) (signed : _) (resp : _) (va : _),
      Next s src core p m (.resp (.ctx key) resp va) ∧
      (s.ctxAt core key).out = .g d n signed ∧
      (s.ctxAt core key).raised = 0 ∧
      resp.code = 0 ∧
      d ≠ 0 ∧
      (∀ h ∈ resp.labs, h = 0)) ∧
    (∃ (s : State) (core : _) (src : _) (p : _) (m : _) (key : _) (resp : _) (va : _),
      Next s src core p m (.resp (.ctx key) resp va) ∧
      (s.ctxAt core key).out = .none ∧
      resp.code = 0x02 ∧
      resp.eaddr = none ∧
      MayTrap s core key) ∧
    (∃ (s : State) (core : _) (src : _) (p : _) (m : _) (e : _) (resp : Resp) (va : _) (j : _),
      Next s src core p m (.resp (.journal e) resp va) ∧
      resp.code = 0 ∧
      (s.coreAt core).journal[e]? = some j) ∧
    (∃ (s : State) (core : _) (src : _) (p : _) (m : _) (e : _) (resp : Resp) (va : _) (j : _),
      Next s src core p m (.resp (.journal e) resp va) ∧
      resp.code ≠ 0 ∧
      (s.coreAt core).journal[e]? = some j ∧
      (s.coreAt core).assist.getLsbD 2 = false ∧
      e < 32 ∧
      resp.code < 256) ∧
    (∃ (s : State) (core : _) (src : _) (x : CtxNo) (e : _) (key : _) (k : _),
      (s.coreAt core).parks = [e] ∧
      e.req.src = src ∧
      e.req.who = .ctx key ∧
      realKey key % 16 = x.val ∧
      keySet key = (s.coreAt src).cur ∧
      src ≠ core ∧
      e.since + e.req.limit ≤ s.cycleOf (pkgOf core) ∧
      s.condMet e.req = false ∧
      k = (if e.req.peer then s.peerPart e.req.part core else e.req.part)) ∧
    (∃ (s : State) (core : _) (e : _),
      (s.coreAt core).parks = [e] ∧
      s.condMet e.req = true) ∧
    (∃ (s : State) (core : _) (src : _) (e : _) (key : _),
      (s.coreAt core).parks = [e] ∧
      e.req.src = src ∧
      e.req.who = .ctx key ∧
      keySet key ≠ (s.coreAt src).cur) ∧
    (∃ (s : State) (core : _) (x : CtxNo) (at_ : _) (r : _),
      (s.ctxAt core ((s.coreAt core).key x)).run = .wait (.backoff at_) ∧
      at_ ≤ s.cycle ∧
      (s.ctxAt core ((s.coreAt core).key x)).sent = some r ∧
      r.src = core ∧
      homeOf r.ha ≠ core) ∧
    (∃ (s : State) (core : _) (src : _) (e : _),
      (s.coreAt src).window = [e] ∧
      e.widening = true ∧
      e.core = core ∧
      e.waiters = [] ∧
      e.held = [] ∧
      (s.coreAt src).parks = [] ∧
      (∀ j ∈ (s.coreAt core).journal.toList, j.st = .outstanding → j.key = e.key → e.jpos ≤ j.num)) := by
  refine ⟨⟨exReq (rq .load), 0, 1, .th, rq .load, ?_⟩,
    ⟨exReq { rq (.store 255) with data := [1, 2, 3, 4, 5, 6, 7, 0] }, 0, 1, .th, { rq (.store 255) with data := [1, 2, 3, 4, 5, 6, 7, 0] }, ?_⟩,
    ⟨exReq (rq .load), 0, 1, .th, rq .load, ?_, (fun _ h => nomatch h), (fun _ _ _ h => nomatch h), ?_⟩,
    ⟨exReq { rq (.calset 3 6 false 5 0) with data := [5, 0, 0, 0] }, 0, 1, .th, { rq (.calset 3 6 false 5 0) with data := [5, 0, 0, 0] }, 3, 6, false, 5, 0, ?_⟩,
    ⟨exReply (.g 4 1 true) { data := [0x80], labs := [0] }, 0, 1, .th, msg1 (.resp (.ctx 1) { data := [0x80], labs := [0] } 0x77) 1, 1, 4, 1, true, { data := [0x80], labs := [0] }, 0x77, ?_⟩,
    ⟨exReply .none { code := 2 }, 0, 1, .th, msg1 (.resp (.ctx 1) { code := 2 } 0x77) 1, 1, { code := 2 }, 0x77, ?_⟩,
    ⟨exJournal {}, 0, 1, .th, msg1 (.resp (.journal 2) {} 0x99) 1, 2, {}, 0x99, jx, ?_⟩,
    ⟨exJournal { code := 4 }, 0, 1, .th, msg1 (.resp (.journal 2) { code := 4 } 0x99) 1, 2, { code := 4 }, 0x99, jx, ?_⟩,
    ⟨exParked, 0, 1, 1, { req := { rq .lds with limit := 0x400 }, since := 0 }, 1, thisPart, ?_⟩,
    ⟨exMet, 0, { req := { rq .lds with limit := 0x400 }, since := 0 }, ?_⟩,
    ⟨exNotCur, 0, 1, { req := { rq .lds with limit := 0x400 }, since := 0 }, 1, ?_⟩,
    ⟨exBackoff, 0, 1, 5, { rq .load with src := 0, ha := LS + 0x100040 }, ?_⟩,
    ⟨exWin false, 0, 1, winE false, ?_⟩⟩
    <;> (try simp only [Next, MayTrap, Reaches, State.Inv, ball_iff, ex_some, ex_some_and, ex_some_and2]) <;> decide +kernel

/-- The hypotheses of each clause of TranslationAndArrivalEvents can be met together. -/
theorem witness_TranslationAndArrivalEvents :
    (∃ (s : State) (core : _) (x : CtxNo) (va : _) (e : _),
      (s.ctxAt core ((s.coreAt core).key x)).run = .wait (.walk va) ∧
      s.walk (s.partKey core ((s.coreAt core).key x)) va.toNat = .entry e) ∧
    (∃ (s : State) (core : _) (x : CtxNo) (va : _),
      (s.ctxAt core ((s.coreAt core).key x)).run = .wait (.walk va) ∧
      (s.coreAt core).cur < 4 ∧
      s.walk (s.partKey core ((s.coreAt core).key x)) va.toNat = .fault ∧
      (s.ctxAt core ((s.coreAt core).key x)).pair = none ∧
      x ≠ 0 ∧
      (s.coreAt core).rvec ≠ 0 ∧
      (s.coreAt core).assist.getLsbD 0 = false) ∧
    (∃ (s : State) (core : _) (x : CtxNo) (va : _) (code : _),
      (s.ctxAt core ((s.coreAt core).key x)).run = .wait (.walk va) ∧
      (s.coreAt core).cur < 4 ∧
      s.walk (s.partKey core ((s.coreAt core).key x)) va.toNat = .bad code ∧
      MayTrap s core ((s.coreAt core).key x)) ∧
    (∃ (s : State) (core : _) (key : _) (line : Word) (flip : BitVec 480) (ha : _),
      (s.ctxAt core key).run = .wait (.line line) ∧
      (∀ p ∈ (s.coreAt core).ctxs, p.2.run = .wait (.line line) → p.1 = key) ∧
      s.lineSpot core key line = some ha ∧
      parityOk (BitVec.ofNat 512 (s.natAt ha 64) ^^^ (flip ++ 0#32)) = true) ∧
    (∃ (s : State) (core : _) (key : _) (line : Word) (flip : BitVec 480) (ha : _),
      (s.ctxAt core key).run = .wait (.line line) ∧
      (∀ p ∈ (s.coreAt core).ctxs, p.2.run = .wait (.line line) → p.1 = key) ∧
      s.lineSpot core key line = some ha ∧
      parityOk (BitVec.ofNat 512 (s.natAt ha 64) ^^^ (flip ++ 0#32)) = false ∧
      3 ≤ (assoc (s.coreAt core).attempts line.toNat).getD 0) ∧
    (∃ (s : State) (core : _) (h : _),
      (s.coreAt core).barHolds = [h] ∧
      h.since + 16 ≤ s.cycleOf (pkgOf core) ∧
      h.req.src = core ∧
      homeOf h.req.ha ≠ core) ∧
    (∃ (s : State) (core : _) (src : _) (r : _) (k : _),
      Reaches s src core .th r ∧
      r.act = .bararr k ∧
      BarrierReached s core r ∧
      s.Inv) ∧
    (∃ (s : State) (core : _) (src : _) (p : _) (r : _),
      Reaches s src core p r ∧
      r.act = .engarr 0 0 true ∧
      BarrierReached s core r ∧
      s.Inv) ∧
    (∃ (s : State) (core : _) (x : CtxNo) (op : _) (sz : _) (d : _) (m : _) (c : _) (v : _) (got : _) (h : _),
      (s.ctxAt core ((s.coreAt core).key x)).run = .wait .reply ∧
      (s.ctxAt core ((s.coreAt core).key x)).inst = some h ∧
      h.i1 = .gldInt op sz d m ∧
      (s.ctxAt core ((s.coreAt core).key x)).out = .gld (GldOp.code op) false d.val (wdBytes sz) ((c, v, []) :: got) [] 0 ∧
      (s.ctxAt core ((s.coreAt core).key x)).raised = 0 ∧
      (((c, v, []) :: got).map (·.1)).Pairwise (· < ·) ∧
      (∀ e ∈ (c, v, []) :: got, e.1 < 2048 ∧ e.2.1 < 2 ^ (8 * wdBytes sz) ∧ e.2.2 = []) ∧
      d ≠ 0) ∧
    (∃ (s : State) (core : _) (src : _) (m : _) (key : _) (regs : _) (pc : _) (va : _) (ha : _) (u : _) (rs : _) (next : _),
      Next s src core .th m (.migrate key regs pc va ha) ∧
      (s.coreAt core).halted = false ∧
      (s.consume m).blockRun src key m.part core regs pc = (u, .ok (rs, next))) ∧
    (∃ (s : State) (core : _) (src : _) (m : _) (key : _) (rs : _) (next : _),
      Next s src core .th m (.migrated key rs next none) ∧
      (s.ctxAt core key).raised = 0 ∧
      rs.length = 15) ∧
    (∃ (s : State) (core : _) (src : _) (m : _) (key : _) (va : Word),
      Next s src core .th m (.migrated key [] 0 (some (0x0A, 0x04, va))) ∧
      MayTrap s core key) := by
  refine ⟨⟨exWalk 0x10008, 0, 1, 0x10008, walkE, ?_⟩,
    ⟨exWalk 0x30008, 0, 1, 0x30008, ?_⟩,
    ⟨exWalk 0x20008, 0, 1, 0x20008, 8, ?_⟩,
    ⟨exLine, 0, 1, 0x1FE000000000040, 0, LS + 0x40, ?_⟩,
    ⟨exLine 3, 0, 1, 0x1FE000000000040, 1, LS + 0x40, ?_⟩,
    ⟨{ cores := [(0, { barHolds := [hold] })], cycle := 16 }, 0, hold, ?_⟩,
    ⟨exBarReq (rq (.bararr 2) 16) 3 1, 0, 1, rq (.bararr 2) 16, 2, ?_⟩,
    ⟨exBarReq { rq (.engarr 0 0 true) 16 with path := .cp } 5 1 .cp, 0, 1, .cp, { rq (.engarr 0 0 true) 16 with path := .cp }, ?_⟩,
    ⟨exGldWait, 0, 1, .max, .w, 4, .off 1 0, 3, 0x80000000, [(5, 7, [])], { pc := 0x1000, i1 := .gldInt .max .w 4 (.off 1 0) }, ?_⟩,
    ⟨exMig, 16, 0, migMsg, 1, List.replicate 15 {}, 0x10001, 0x10000, 0x20000, ((exMig.consume migMsg).blockRun 0 1 thisPart 16 (List.replicate 15 {}) 0x10001).1, List.replicate 15 {}, 0x10002, ?_, ?_, (pair_snd ?_)⟩,
    ⟨exMigRet (.migrated 1 (List.replicate 15 ⟨7, 0⟩) 0x2000 none), 0, 16, migRet (.migrated 1 (List.replicate 15 ⟨7, 0⟩) 0x2000 none), 1, List.replicate 15 ⟨7, 0⟩, 0x2000, ?_⟩,
    ⟨exMigRet (.migrated 1 [] 0 (some (0x0A, 0x04, 0x55))), 0, 16, migRet (.migrated 1 [] 0 (some (0x0A, 0x04, 0x55))), 1, 0x55, ?_⟩⟩
    <;> (try simp only [Next, BarrierReached, MayTrap, Reaches, State.Inv, ball_iff, ex_some, ex_some_and, ex_some_and2, ok_iff, ent_iff, fault_iff, bad_iff _ 8 (by decide)]) <;> decide +kernel

def tableOf (n : Nat) : List (Nat × LEntry) := (List.range n).map fun i => (65 + i, {})
theorem reduced_of (blight raw l : List Env) (h : l.Pairwise (fun x y => x.toNat < y.toNat) ∧
    (∀ x ∈ l, (x ∈ raw ∧ ∀ f ∈ blight, x &&& f ≠ f) ∧ ∀ y ∈ raw, (∀ f ∈ blight, y &&& f ≠ f) → x &&& y = y → y = x) ∧
    (∀ x ∈ raw, (∀ f ∈ blight, x &&& f ≠ f) → (∀ y ∈ raw, (∀ f ∈ blight, y &&& f ≠ f) → x &&& y = y → y = x) → x ∈ l)) :
    Reduced blight raw l :=
  ⟨h.1, fun x => ⟨fun m => ⟨(h.2.1 x m).1, fun y hy => (h.2.1 x m).2 y hy.1 hy.2⟩,
    fun m => h.2.2 x m.1.1 m.1.2 fun y hy hf => m.2 y ⟨hy, hf⟩⟩⟩
theorem combining_of (s : State) (core : CoreNo) (x : CtxNo) (u : Bool) (a b : Handle) (l raw B A1 A2 : List Env) (k : PartKey)
    (hk : s.partKey core ((s.coreAt core).key x) = k) (hB : s.blightOf core k = B) (h1 : s.envsOld core k a = A1) (h2 : s.envsOld core k b = A2)
    (hr : (s.ctxAt core ((s.coreAt core).key x)).run = .wait (.combine u a b)) (hs : (s.ctxAt core ((s.coreAt core).key x)).resp = none)
    (h : Reduced B raw l) (he : ∀ e, e ∈ raw ↔ if u then e ∈ A1 ∨ e ∈ A2 else ∃ p ∈ A1, ∃ q ∈ A2, e = p ||| q) :
    Combining s core x u a b l := by
  subst hk hB h1 h2; exact ⟨hr, hs, raw, h, he⟩
theorem blighted_of (old envs new : List Env) (h : (∀ x ∈ new, (x ∈ old ∧ ∀ y ∈ envs, (∀ f ∈ old, y &&& f ≠ f) → x &&& y ≠ y) ∨
      (x ∈ envs ∧ ∀ f ∈ old, x &&& f ≠ f)) ∧
    (∀ x ∈ old, (∀ y ∈ envs, (∀ f ∈ old, y &&& f ≠ f) → x &&& y ≠ y) → x ∈ new) ∧ ∀ x ∈ envs, (∀ f ∈ old, x &&& f ≠ f) → x ∈ new) :
    Blighted old envs new := by
  intro x
  constructor
  · intro m
    rcases h.1 x m with ⟨h1, h2⟩ | h1
    · exact .inl ⟨h1, fun y hy => h2 y hy.1 hy.2⟩
    · exact .inr h1
  · rintro (⟨h1, h2⟩ | h1)
    · exact h.2.1 x h1 fun y hy hf => h2 y ⟨hy, hf⟩
    · exact h.2.2 x h1.1 h1.2
/-- No entry of a table whose entries hold no environment holds this set. -/
theorem find_none (p : PartSt) (h : ∀ e ∈ p.table, e.2.envs = []) : p.find [0x30] = none := by
  have hb : ∀ n < 65, ∀ e : LEntry, PartSt.entry {} (BitVec.ofNat 16 n) = some e → (e.envs == [0x30]) = false := by
    intro n hn e he
    have : ∀ n < 65, ((PartSt.entry {} (BitVec.ofNat 16 n)).all fun e => !(e.envs == [0x30])) = true := by decide +kernel
    have := this n hn
    rw [he] at this
    simpa using this
  have : p.inPlace.filter (fun e => e.2.envs == [0x30]) = [] := by
    rw [List.filter_eq_nil_iff]
    intro e he
    rw [PartSt.inPlace, List.mem_append] at he
    rcases he with he | he
    · obtain ⟨n, hn, he⟩ := List.mem_filterMap.1 he
      have hn := List.mem_range.1 hn
      have hm : (BitVec.ofNat 16 n).toNat = n := Nat.mod_eq_of_lt (by omega)
      rcases ha : assoc p.table n with _ | v
      · rw [ha] at he
        obtain ⟨e', he2, rfl⟩ := Option.map_eq_some_iff.1 he
        rw [PartSt.entry, hm, ha] at he2
        exact Bool.eq_false_iff.1 (hb n hn e' (by rw [PartSt.entry, hm]; exact he2))
      · rw [ha] at he; cases he
    · rw [h e (List.mem_filter.1 he).1]; decide
  rw [PartSt.find, this]; rfl
theorem assoc_full (n : Nat) (k : Nat) (l : List Nat) (h : n ∈ l) : (assoc (l.map fun i => (k + i, ({} : LEntry))) (k + n)).isSome = true := by
  induction l with
  | nil => cases h
  | cons a l ih =>
    simp only [List.map_cons, assoc]
    split
    · rfl
    · rcases List.mem_cons.1 h with h | h
      · subst h; exact absurd rfl ‹_›
      · exact ih h
theorem assoc_table (n i : Nat) (h : i < n) : (assoc (tableOf n) (65 + i)).isSome = true := assoc_full i 65 _ (List.mem_range.2 h)
theorem table_envs (n : Nat) : ∀ e ∈ tableOf n, e.2.envs = [] := by
  intro e he
  obtain ⟨i, -, rfl⟩ := List.mem_map.1 he; rfl
theorem free_none (p : PartSt) (h : ∀ i, i < 65470 → (assoc p.table (65 + i)).isSome = true) : p.freeHandle = none := by
  rw [PartSt.freeHandle, List.findSome?_eq_none_iff]
  intro i hi
  obtain ⟨e, he⟩ := Option.isSome_iff_exists.1 (h i (List.mem_range.1 hi))
  rw [he]; rfl
theorem exHome_part (b : Body) (r : Run) (t : List (Nat × LEntry)) (l : List Env) :
    (exHome b r t l).partAt thisPart = { table := t, blight := l } := rfl
theorem full_free (b : Body) (r : Run) (n : Nat) (h : 65470 ≤ n) :
    ((exHome b r (tableOf n)).partAt (msg1 b 1).part).freeHandle = none :=
  free_none _ fun i hi => assoc_table n i (by omega)
theorem full_find (b : Body) (r : Run) (n : Nat) : ((exHome b r (tableOf n)).partAt (msg1 b 1).part).find [0x30] = none :=
  find_none _ (table_envs n)
theorem exHome_next (b : Body) (r : Run) (t : List (Nat × LEntry)) (l : List Env) :
    Next (exHome b r t l) 1 0 .th (msg1 b 1) b := ⟨rfl, rfl⟩

/-- The hypotheses of the first clauses of LabelEvents can be met together. -/
theorem witness_LabelEvents :
    (∃ (s : State) (core : CoreNo) (x : CtxNo) (u : Bool) (a : Handle) (b : Handle),
      Combining s core x u a b []) ∧
    (∃ (s : State) (core : CoreNo) (x : CtxNo) (u : Bool) (a : Handle) (b : Handle) (l : List Env) (h : Handle),
      Combining s core x u a b l ∧ l ≠ [] ∧ l.length ≤ 64 ∧
      (s.partAt (s.partKey core ((s.coreAt core).key x))).find l = some h) ∧
    (∃ (s : State) (core : CoreNo) (x : CtxNo) (u : Bool) (a : Handle) (b : Handle) (l : List Env),
      Combining s core x u a b l ∧ l ≠ [] ∧ l.length ≤ 64 ∧
      (s.partAt (s.partKey core ((s.coreAt core).key x))).find l = none) ∧
    (∃ (s : State) (core : CoreNo) (x : CtxNo) (u : Bool) (a : Handle) (b : Handle) (l : List Env),
      Combining s core x u a b l ∧ 64 < l.length ∧ (s.coreAt core).assist.getLsbD 1 = false ∧
      MayTrap s core ((s.coreAt core).key x)) := by
  refine ⟨⟨exComb false 5 0xFFFF, 0, 1, false, 5, 0xFFFF, ?_⟩,
    ⟨exComb true 5 5, 0, 1, true, 5, 5, [0x10], 5, ?_, ?_⟩,
    ⟨exComb false 5 6, 0, 1, false, 5, 6, [0x30], ?_, ?_⟩,
    ⟨exComb true 0x43 0x44 [(0x43, { envs := pairsOf 3 33 }), (0x44, { envs := pairsOf 5 33 })], 0, 1, true, 0x43, 0x44,
      (List.range 33).flatMap fun i => [3 <<< i, 5 <<< i], ?_, ?_⟩⟩
  · exact combining_of _ _ _ _ _ _ _ [] [] [0x10] [] thisPart rfl rfl (by decide +kernel) (by decide +kernel) rfl rfl
      (reduced_of _ _ _ (by simp only [ball_iff]; decide +kernel)) (by simp)
  · exact combining_of _ _ _ _ _ _ _ [0x10] [] [0x10] [0x10] thisPart rfl rfl (by decide +kernel) (by decide +kernel) rfl rfl
      (reduced_of _ _ _ (by simp only [ball_iff]; decide +kernel)) (by simp)
  · decide +kernel
  · exact combining_of _ _ _ _ _ _ _ [0x30] [] [0x10] [0x20] thisPart rfl rfl (by decide +kernel) (by decide +kernel) rfl rfl
      (reduced_of _ _ _ (by simp only [ball_iff]; decide +kernel)) (by simp)
  · decide +kernel
  · exact combining_of _ _ _ _ _ _ _ (pairsOf 3 33 ++ pairsOf 5 33) [] (pairsOf 3 33) (pairsOf 5 33) thisPart rfl rfl
      (by decide +kernel) (by decide +kernel) rfl rfl (reduced_of _ _ _ (by simp only [ball_iff]; decide +kernel)) (by simp)
  · simp only [MayTrap]; decide +kernel
/-- The hypotheses of the other clauses of LabelEvents can be met together. -/
theorem witness_LabelEvents_more :
    (∃ (s : State) (core : CoreNo) (src : CoreNo) (m : Msg) (key : Nat) (u : Bool) (a : Handle) (b : Handle) (raw : List Env) (l : List Env) (n : Nat),
      Next s src core .th m (.intern key u a b raw (s.partAt m.part).flushes) ∧ Reduced (s.partAt m.part).blight raw l ∧ l ≠ [] ∧ l.length < 5 ∧
      (s.partAt m.part).find l = none ∧ (s.partAt m.part).freeHandle = some n ∧ (s.ctxAt src key).run = .wait .intern ∧
      (s.ctxAt src key).resp = none) ∧
    (∃ (s : State) (core : CoreNo) (src : CoreNo) (m : Msg) (key : Nat) (u : Bool) (a : Handle) (b : Handle) (raw : List Env) (l : List Env),
      Next s src core .th m (.intern key u a b raw (s.partAt m.part).flushes) ∧ Reduced (s.partAt m.part).blight raw l ∧ l ≠ [] ∧ l.length ≤ 64 ∧
      (s.partAt m.part).find l = none ∧ (s.partAt m.part).freeHandle = none ∧ (s.ctxAt src key).run = .wait .intern ∧ (s.coreAt src).assist.getLsbD 1 = false ∧
      MayTrap s src key) ∧
    (∃ (s : State) (core : CoreNo) (src : CoreNo) (m : Msg) (key : Nat) (tok : GReg) (pc : Word) (envs : List Env) (l : List Env),
      Next s src core .th m (.nogood key tok pc envs) ∧ Blighted (s.partAt m.part).blight envs l ∧ l.Nodup ∧
      l.length ≤ 256 ∧ envs.Nodup ∧ (s.partAt m.part).blight.Nodup ∧ ((s.partAt m.part).table.map (·.1)).Nodup ∧
      assoc (s.partAt m.part).table 0xFFFF = none) ∧
    (∃ (s : State) (core : CoreNo) (src : CoreNo) (m : Msg) (key : Nat) (tok : GReg) (pc : Word) (envs : List Env),
      Next s src core .th m (.nogood key tok pc envs) ∧ 256 < (addBlight (s.partAt m.part).blight envs).1.length) ∧
    (∃ (s : State) (core : CoreNo) (n : Nat) (u : LabelUnit) (i : Install) (rest : List Install) (k : PartKey),
      (s.coreAt core).labels = [(n, u)] ∧ u.installs = i :: rest ∧ s.partKey core (16 * (n / 2) + 1 + 7 * (n % 2)) = k ∧
      2 * k.set + k.ten.toNat = n) ∧
    (∃ (s : State) (core : CoreNo) (k : PartKey) (p : PartSt) (g : Nogood),
      s.parts = [(k, p)] ∧ p.nogoods = [g] ∧ p.lhome = core ∧ g.waiting = []) ∧
    (∃ (s : State) (core : CoreNo) (src : CoreNo) (m : Msg) (key : Nat),
      Next s src core .th m (.lflush key) ∧ (s.partAt m.part).nogoods = [] ∧
      (s.ctxAt src key).run = .park .lflush ∧ (s.ctxAt src key).raised = 0) := by
  refine ⟨⟨exHome (.intern 1 false 5 6 [0x30] 0) (.wait .intern), 0, 1, msg1 (.intern 1 false 5 6 [0x30] 0) 1, 1, false, 5, 6, [0x30], [0x30], 0x41,
      exHome_next _ _ _ _, reduced_of _ _ _ ?_, ?_⟩,
    ⟨exHome (.intern 1 false 5 6 [0x30] 0) (.wait .intern) (tableOf 65470), 0, 1, msg1 (.intern 1 false 5 6 [0x30] 0) 1, 1, false, 5, 6, [0x30], [0x30],
      exHome_next _ _ _ _, reduced_of _ _ _ ?_, ?_, ?_, full_find _ _ _, full_free _ _ _ (Nat.le_refl _), rfl, ?_⟩,
    ⟨exHome (.nogood 1 4 0 [0x10]) .run [(0x43, { envs := [0x30] }), (0x44, { envs := [0x60] })], 0, 1, msg1 (.nogood 1 4 0 [0x10]) 1, 1, 4, 0, [0x10], [0x10],
      exHome_next _ _ _ _, blighted_of _ _ _ ?_, ?_⟩,
    ⟨exHome (.nogood 1 4 0 [0x8000000000000000]) .run [] blight256, 0, 1, msg1 (.nogood 1 4 0 [0x8000000000000000]) 1, 1, 4, 0, [0x8000000000000000],
      exHome_next _ _ _ _, ?_⟩,
    ⟨{ cores := [(0, { labels := [(0, { comb := [⟨true, 1, 2, 3⟩], installs := [{ blight := [], old := [] }] })] })] }, 0, 0, { comb := [⟨true, 1, 2, 3⟩], installs := [{ blight := [], old := [] }] }, { blight := [], old := [] }, [], thisPart, ?_⟩,
    ⟨exToken, 0, thisPart, { nogoods := [nog 3] }, nog 3, ?_⟩,
    ⟨exHome (.lflush 1) (.park .lflush) [(0x43, { envs := [0x30] })] [0x10], 0, 1, msg1 (.lflush 1) 1, 1, exHome_next _ _ _ _, ?_⟩⟩
  all_goals (try simp only [MayTrap, ball_iff]); decide +kernel

/-- The hypotheses of each clause of WorkEvents can be met together. -/
theorem witness_WorkEvents :
    (∃ (s : State) (core : _) (x : CtxNo) (t0 : _),
      (s.ctxAt core ((s.coreAt core).key x)).run = .park (.yield t0) ∧
      t0 + 64 ≤ s.cycleOf (pkgOf core)) ∧
    (∃ (s : State) (core : _),
      isCompute core = true ∧
      ((s.coreAt core).dq 0).moving = true) ∧
    (∃ (s : State) (core : _),
      ((s.coreAt core).dq 0).moving = false ∧
      ((s.coreAt core).dq 0).spilled ≠ 0 ∧
      entries ((s.coreAt core).dq 0).items = ((s.coreAt core).dq 0).spilled) ∧
    (∃ (s : State) (core : _) (fn : BitVec 8) (it : _) (l : _),
      (s.fnAt (pkgOf core) fn.toNat).launches = [l] ∧
      l.target = some core ∧
      l.item = it ∧
      l.retryAt = 0 ∧
      (s.fnAt (pkgOf core) fn.toNat).writes = [] ∧
      it.kind = .launch ∧
      Awaits s core fn.toNat) ∧
    (∃ (s : State) (pkg : Fin 64) (fn : BitVec 8) (core : _) (it : _) (l : _),
      pkgOf core = pkg.val ∧
      (s.fnAt pkg.val fn.toNat).launches = [l] ∧
      l.target = some core ∧
      l.item = it ∧
      l.retryAt ≠ 0 ∧
      l.retryAt ≤ s.cycle ∧
      (s.fnAt pkg.val fn.toNat).writes = [] ∧
      it.kind = .launch ∧
      Awaits s core fn.toNat) ∧
    (∃ (s : State) (pkg : Fin 64) (fn : BitVec 8) (it : _) (l : _),
      (s.fnAt pkg.val fn.toNat).launches = [l] ∧
      l.target = none ∧
      l.item = it ∧
      (s.fnAt pkg.val fn.toNat).writes = [] ∧
      it.kind = .launch ∧
      (∀ c ∈ coresOf pkg.val (s.fnAt pkg.val fn.toNat).node, Awaits s c fn.toNat)) ∧
    (∃ (s : State) (core : _) (i : _),
      (s.coreAt core).halted = false ∧
      (s.coreAt core).stopped = false ∧
      (s.ctxAt core (16 * (s.coreAt core).cur)).run = .idle ∧
      ((s.coreAt core).dq 0).busy = false ∧
      ((s.coreAt core).dq 0).items = [i] ∧
      i.kind = .launch ∧
      i.set = (s.coreAt core).cur) ∧
    (∃ (s : State) (core : _) (key : _) (keys : _) (i : _) (rest : _),
      (s.coreAt core).halted = false ∧
      (s.coreAt core).stopped = false ∧
      (s.ctxAt core (16 * (s.coreAt core).cur)).run ≠ .idle ∧
      (s.coreAt core).poolKeys = key :: keys ∧
      (dequeOf s core key).busy = false ∧
      (∀ j ∈ (dequeOf s core key).items, j.kind = .spawn ∧ j.set = (s.coreAt core).cur ∧ j.rel = none) ∧
      (if ((dequeOf s core key).takes + 1) % 64 = 0 then (dequeOf s core key).items = i :: rest else (dequeOf s core key).items = rest ++ [i])) ∧
    (∃ (s : State) (core : _) (ten : _) (v : _),
      s.maySteal core = true ∧
      s.wanting core = some ten ∧
      (s.coreAt core).steal.asked ≠ 0 ∧
      (s.victims core (s.coreAt core).cur)[(s.coreAt core).steal.asked]? = some v) ∧
    (∃ (s : State) (core : _),
      s.maySteal core = true ∧
      (s.victims core (s.coreAt core).cur).length ≤ (s.coreAt core).steal.asked) ∧
    (∃ (s : State) (core : _),
      (s.coreAt core).steal.until_ ≠ 0 ∧
      (s.coreAt core).steal.until_ ≤ s.cycle) ∧
    (∃ (s : State) (core : _) (src : _) (m : _) (ten : _) (set : _) (i : _) (rest : _),
      Next s src core .th m (.stealReq ten set) ∧
      (s.coreAt core).halted = false ∧
      (s.coreAt core).stopped = false ∧
      ((s.coreAt core).dq ((s.coreAt core).half set ten)).items = i :: rest ∧
      i.kind = .spawn ∧
      i.set = set ∧
      i.rel = none ∧
      (s.coreAt core).poolKeys = []) ∧
    (∃ (s : State) (core : _) (src : _) (m : _) (ten : _) (set : _),
      Next s src core .th m (.stealReq ten set) ∧
      (s.coreAt core).halted = true) ∧
    (∃ (s : State) (core : _) (src : _) (m : _),
      Next s src core .th m (.stealResp none) ∧
      (s.coreAt core).steal.asked < (s.victims core m.part.set).length) ∧
    (∃ (s : State) (core : _) (src : _) (m : _) (i : _) (key : _) (keys : _),
      Next s src core .th m (.stealResp (some i)) ∧
      i.kind = .spawn ∧
      i.set = (s.coreAt core).cur ∧
      (s.coreAt core).halted = false ∧
      (s.coreAt core).stopped = false ∧
      (s.coreAt core).poolKeys = key :: keys ∧
      (s.coreAt core).half i.set ((s.coreAt core).tenOf key) = (s.coreAt core).half i.set i.ten) ∧
    (∃ (s : State) (core : _) (src : _) (m : _) (set : _),
      Next s src core .th m (.notice set)) ∧
    (∃ (s : State) (core : _) (x : CtxNo) (mask : _),
      (s.ctxAt core ((s.coreAt core).key x)).run = .park (.reap mask) ∧
      (s.ctxAt core ((s.coreAt core).key x)).since + max (s.ctxAt core ((s.coreAt core).key x)).parklim.toNat 0x400 ≤ s.cycleOf (pkgOf core) ∧
      (s.ctxAt core ((s.coreAt core).key x)).eheld = false ∧
      (s.ctxAt core ((s.coreAt core).key x)).tvec ≠ 0 ∧
      (x = 0 → ((s.coreAt core).resident[(s.coreAt core).cur]?.getD {}).held = false) ∧
      (s.coreAt core).cur < 4) ∧
    (∃ (s : State) (core : _) (x : CtxNo) (e : _) (k : _),
      (s.ctxAt core ((s.coreAt core).key x)).run = .park .home ∧
      (s.ctxAt core ((s.coreAt core).key x)).sent.map (·.act) = some .join ∧
      (s.coreAt core).parks = [e] ∧
      e.req.src = core ∧
      e.req.who = .ctx ((s.coreAt core).key x) ∧
      k = (if e.req.peer then s.peerPart e.req.part core else e.req.part) ∧
      (s.ctxAt core ((s.coreAt core).key x)).since + max (s.ctxAt core ((s.coreAt core).key x)).parklim.toNat 0x400 ≤ s.cycleOf (pkgOf core) ∧
      MayTrap s core ((s.coreAt core).key x) ∧
      (s.ctxAt core ((s.coreAt core).key x)).out = .none ∧
      (s.coreAt core).cur < 4) := by
  refine ⟨⟨{ cores := [(0, { ctxs := [(1, { run1 with run := .park (.yield 0) })] })], cycle := 64 }, 0, 1, 0, ?_⟩,
    ⟨exDq { moving := true, items := (List.range 40).map fun i => itS (BitVec.ofNat 64 i) }, 0, ?_⟩,
    ⟨exDq { spilled := 40, items := (List.range 40).map fun i => itS (BitVec.ofNat 64 i) }, 0, ?_⟩,
    ⟨exLaunch (some 0), 0, 2, itL, { target := some 0, item := itL }, ?_⟩,
    ⟨exLaunch (some 0) 5, 0, 2, 0, itL, { target := some 0, item := itL, retryAt := 5 }, ?_⟩,
    ⟨exLaunch none, 0, 2, itL, { target := none, item := itL }, ?_⟩,
    ⟨exDq { items := [itL] }, 0, itL, ?_⟩,
    ⟨exDq { items := [itS, itS 0x4000] } { ctxs := [(0, run1), (1, { run1 with run := .pool, pooled := true })] }, 0, 1, [], itS 0x4000, [itS], ?_⟩,
    ⟨exThief { asked := 1, domain := 3 } [] |> fun s => { s with cores := s.cores ++ [(2, { nodes := n512 })] }, 0, false, 2, ?_⟩,
    ⟨exThief { asked := 1 }, 0, ?_⟩,
    ⟨exThief { until_ := 10 }, 0, ?_⟩,
    ⟨exVictim, 0, 1, msg1 (.stealReq false 0) 1, false, 0, itS, [itS 0x4000], ?_⟩,
    ⟨{ exVictim with cores := [(0, { halted := true })] }, 0, 1, msg1 (.stealReq false 0) 1, false, 0, ?_⟩,
    ⟨exThief { busy := true, asked := 0 } [thiefMsg none], 0, 1, thiefMsg none, ?_⟩,
    ⟨exThief { busy := true, asked := 1 } [thiefMsg (some { itS with victims := [1] })], 0, 1, thiefMsg (some { itS with victims := [1] }), { itS with victims := [1] }, 1, [], ?_⟩,
    ⟨withMsg (exDq { lent := 2 }) (msg1 (.notice 0) 1), 0, 1, msg1 (.notice 0) 1, 0, ?_⟩,
    ⟨exReapLimit, 0, 1, 6, ?_⟩,
    ⟨exJoinLimit, 0, 1, joinPark, thisPart, ?_⟩⟩
    <;> (try simp only [Next, Awaits, MayTrap, ball_iff]) <;> decide +kernel

/-- The hypotheses of each clause of NetworkAndSystemEvents can be met together. -/
theorem witness_NetworkAndSystemEvents :
    (∃ (s : State) (core : _) (l : _) (pc : _) (t : _) (d : _) (a : _) (b : _) (rest : _),
      (s.coreAt core).loops = [l] ∧
      keySet l.key = (s.coreAt core).cur ∧
      l.key < 64 ∧
      (s.coreAt core).live = true ∧
      (s.coreAt core).freeze = false ∧
      l.stopped = false ∧
      l.running = false ∧
      l.at_ = 0 ∧
      l.body = (pc, .vand t (.v d) (.v a) (.v b)) :: rest ∧
      isCompute core = true ∧
      (∀ j (h : j < 32), ((s.ctxAt core l.key).v a).lab[j] = 0 ∧ ((s.ctxAt core l.key).v b).lab[j] = 0)) ∧
    (∃ (s : State) (core : _) (x : CtxNo) (f : Fin 8) (st : _) (l : _),
      (s.coreAt core).cur < 4 ∧
      (s.ctxAt core ((s.coreAt core).key x)).strm f = some st ∧
      st.dir ≠ some false ∧
      st.asked = none ∧
      st.pos + st.ahead.length < st.shape.count ∧
      (s.coreAt core).loops = [] ∧
      st.shape.elem (st.pos + st.ahead.length) % 256 + st.shape.size ≤ 256 ∧
      (acting s core ((s.coreAt core).key x)).check (BitVec.ofNat 64 (st.shape.elem (st.pos + st.ahead.length))) st.shape.size 1 .load = .ok l ∧
      l.home = core ∧
      (s.coreAt core).halted = false ∧
      (s.coreAt core).parks = [] ∧
      s.store.bad = []) ∧
    (∃ (s : State) (core : _) (x : CtxNo) (f : Fin 8) (st : _) (l : _),
      (s.coreAt core).cur < 4 ∧
      (s.ctxAt core ((s.coreAt core).key x)).strm f = some st ∧
      st.dir ≠ some false ∧
      st.asked = none ∧
      st.pos + st.ahead.length < st.shape.count ∧
      (s.coreAt core).loops = [] ∧
      st.shape.elem (st.pos + st.ahead.length) % 256 + st.shape.size ≤ 256 ∧
      (acting s core ((s.coreAt core).key x)).check (BitVec.ofNat 64 (st.shape.elem (st.pos + st.ahead.length))) st.shape.size 1 .load = .ok l ∧
      l.home ≠ core) ∧
    (∃ (s : State) (r : BitVec 13) (out : Fin 8) (slot : Fin 64) (q : _) (f : _) (m : _),
      out.val ≠ 0 ∧
      out.val < 5 ∧
      FlitAt s r.toNat out.val slot.val q f m) ∧
    (∃ (s : State) (r : BitVec 13) (out : Fin 20),
      out.val < 8 ∧
      (s.routerAt r.toNat).dead = [] ∧
      (assoc (s.routerAt r.toNat).fails out.val).getD 0 < 16) ∧
    (∃ (s : State) (r : BitVec 13) (out : Fin 20),
      out.val < 8 ∧
      (s.routerAt r.toNat).dead = [] ∧
      s.flits = [] ∧
      assoc (s.routerAt r.toNat).fails out.val = some 16) ∧
    (∃ (s : State) (r : BitVec 13) (out : Fin 20),
      8 ≤ out.val ∧
      (s.pkgAt (r.toNat / 128)).peerDead = [] ∧
      s.flits = [] ∧
      assoc (s.pkgAt (r.toNat / 128)).peerFails (out.val - 8) = some 16) ∧
    (∃ (s : State) (r : BitVec 13) (out : Fin 8) (n : _) (v : _) (c : _),
      (s.routerAt r.toNat).pend = [(out.val, n, false, v, c)] ∧
      c ≤ s.cycleOf (r.toNat / 128)) ∧
    (∃ (s : State) (r : BitVec 13) (out : Fin 8) (n : _) (v : _) (c : _),
      (s.routerAt r.toNat).pend = [(out.val, n, true, v, c)] ∧
      c ≤ s.cycleOf (r.toNat / 128)) ∧
    (∃ (s : State) (core : _) (e : _),
      (s.coreAt core).halted = false ∧
      (s.coreAt core).stopped = false ∧
      (s.coreAt core).cur < 4 ∧
      ((s.coreAt core).resident[(s.coreAt core).cur]?.getD {}).held = false ∧
      AtBoundary s core ∧
      (s.coreAt core).events = [e] ∧
      e.set = (s.coreAt core).cur ∧
      (s.coreAt core).rvec ≠ 0) ∧
    (∃ (s : State) (core : _),
      (s.coreAt core).rvec ≠ 0) ∧
    (∃ (s : State) (core : _) (x : CtxNo) (a : _) (rest : _),
      assigned s core = true ∧
      (s.coreAt core).halted = false ∧
      (s.coreAt core).stopped = false ∧
      (s.coreAt core).cur < 4 ∧
      ((s.coreAt core).resident[(s.coreAt core).cur]?.getD {}).held = false ∧
      (s.ctxAt core ((s.coreAt core).key x)).run = .run ∧
      (s.ctxAt core ((s.coreAt core).key x)).stopped = false ∧
      (s.ctxAt core ((s.coreAt core).key x)).pair = none ∧
      (s.ctxAt core ((s.coreAt core).key x)).out = .none ∧
      (s.ctxAt core ((s.coreAt core).key x)).eheld = false ∧
      (s.ctxAt core ((s.coreAt core).key x)).tvec ≠ 0 ∧
      (s.ctxAt core ((s.coreAt core).key x)).asyncs = a :: rest) ∧
    (∃ (x : CtxNo),
      x ≠ 0) ∧
    (∃ (x : CtxNo) (whole : _),
      (whole = true ∨ x = 0)) ∧
    (∃ (s : State) (core : _) (x : CtxNo),
      (s.ctxAt core ((s.coreAt core).key x)).stopped = true) := by
  refine ⟨⟨exSeq, 0, theLoop (some 3) 0, 0x1001, .f32, 1, 2, 3, [], ?_⟩,
    ⟨exStrm, 0, 1, 0, strm0, loc 0x40, ?_⟩,
    ⟨exStrmFar, 0, 1, 0, strmFar, { ha := LS + 0x100040, home := 1, ls := true }, ?_⟩,
    ⟨exFlit, 0, 2, 0, 1, flit0, farMsg, ?_⟩,
    ⟨{}, 5, 2, ?_⟩,
    ⟨{ routers := [(5, { fails := [(2, 16)] })] }, 5, 2, ?_⟩,
    ⟨{ pkgs := [(0, { peerFails := [(1, 16)] })] }, 5, 9, ?_⟩,
    ⟨{ routers := [(5, { pend := [(2, 9, false, 0x8003, 64)] })], cycle := 64 }, 5, 2, 9, 0x8003, 64, ?_⟩,
    ⟨{ routers := [(5, { pend := [(2, 9, true, 0x12005678, 64)] })], cycle := 64 }, 5, 2, 9, 0x12005678, 64, ?_⟩,
    ⟨exEvent [{ trap := 0x24, detail := 3, addr := 0x55, set := 0 }], 0, { trap := 0x24, detail := 3, addr := 0x55, set := 0 }, ?_⟩,
    ⟨exEvent, 0, ?_⟩,
    ⟨exAsync, 0, 1, ⟨0x0C, 0x402, 0x99⟩, [⟨7, 1, 2⟩], ?_⟩,
    ⟨1, ?_⟩,
    ⟨1, true, ?_⟩,
    ⟨{ cores := [(0, { ctxs := [(1, { run1 with stopped := true })] })], ctx := 1 }, 0, 1, ?_⟩⟩
    <;> (try simp only [FlitAt, AtBoundary, ball_iff, ok_iff]) <;> decide +kernel

/-- The hypotheses of each clause of HostEvents can be met together. -/
theorem witness_HostEvents :
    (∃ (r : _),
      (recOf r).valid = true) ∧
    (∃ (r : BitVec 12),
      r.toNat < 128) ∧
    (∃ (n : Fin 65),
      n.val ≠ 0) ∧
    (∃ (s : State) (pkg : Fin 64) (fn : BitVec 8) (off : BitVec 12) (data : BitVec 256) (core : _) (pc : _) (a : _) (b : _),
      off.toNat % 32 = 0 ∧
      (s.fnAt pkg.val fn.toNat).en = true ∧
      (s.fnAt pkg.val fn.toNat).places < 64 ∧
      (s.fnAt pkg.val fn.toNat).writes = [] ∧
      LaunchTo (s.fnAt pkg.val fn.toNat) pkg.val data.toNat core pc a b) ∧
    (∃ (s : State) (pkg : Fin 64) (fn : BitVec 8),
      64 ≤ (s.fnAt pkg.val fn.toNat).places) ∧
    (∃ (s : State) (pkg : Fin 64) (fn : BitVec 8) (data : BitVec 256),
      (s.fnAt pkg.val fn.toNat).en = true ∧
      (s.fnAt pkg.val fn.toNat).places < 64 ∧
      (s.fnAt pkg.val fn.toNat).writes = [] ∧
      field data.toNat 32 32 ≠ (s.fnAt pkg.val fn.toNat).key.toNat) ∧
    (∃ (s : State) (pa : BitVec 57) (len : Fin 65),
      s.Inv ∧
      len.val ≠ 0 ∧
      s.paOk pa.toNat = true ∧
      s.paOk (pa.toNat + len.val - 1) = true ∧
      pa.toNat / 2 ^ 48 % 8 < 2 ∧
      (s.coreAt (homeOf pa.toNat)).halted = false ∧
      (s.coreAt (homeOf pa.toNat)).parks = [] ∧
      (s.coreAt (homeOf pa.toNat)).window.length < 16 ∧
      s.store.bad = [] ∧
      s.readOnly pa.toNat len.val = false) ∧
    (∃ (s : State) (pkg : Fin 64) (fn : BitVec 8) (e : _) (rest : _),
      s.Inv ∧
      (s.fnAt pkg.val fn.toNat).events = e :: rest ∧
      e.gen = (s.fnAt pkg.val fn.toNat).gen ∧
      (s.fnAt pkg.val fn.toNat).mig = false ∧
      e.kind = 10 ∧
      ((s.fnAt pkg.val fn.toNat).evtail + 128 - (s.fnAt pkg.val fn.toNat).evhead % 128) % 128 < 127) ∧
    (∃ (s : State) (pkg : Fin 64) (fn : BitVec 8) (h : _) (e : _) (rest : _),
      (s.coreAt ((s.fnAt pkg.val fn.toNat).lowest pkg.val)).assist.getLsbD 6 = false ∧
      (s.fnAt pkg.val fn.toNat).events = h :: e :: rest ∧
      h.past (s.fnAt pkg.val fn.toNat) = false ∧
      s.heldBack pkg.val (s.fnAt pkg.val fn.toNat) h = true ∧
      e.past (s.fnAt pkg.val fn.toNat) = false ∧
      s.heldBack pkg.val (s.fnAt pkg.val fn.toNat) e = false ∧
      ((s.fnAt pkg.val fn.toNat).evtail + 128 - (s.fnAt pkg.val fn.toNat).evhead % 128) % 128 < 127) ∧
    (∃ (v : Word),
      2 ^ 26 ≤ v.toNat) ∧
    (∃ (s : State) (pkg : Fin 64) (fn : BitVec 8) (v : _) (core : _) (key : _),
      s.replyTo pkg.val fn.toNat v 0 = some (core, key) ∧
      s.owed core key = none) ∧
    (∃ (s : State) (pkg : Fin 64) (fn : BitVec 8) (v : _) (core : _) (key : _) (va : _),
      s.replyTo pkg.val fn.toNat v 0 = some (core, key) ∧
      (s.ctxAt core key).run = .wait (.fault va) ∧
      (s.ctxAt core key).told = true) ∧
    (∃ (s : State) (pkg : Fin 64) (fn : BitVec 8) (v : _) (core : _) (key : _) (va : _),
      s.replyTo pkg.val fn.toNat v 2 = some (core, key) ∧
      (s.ctxAt core key).run = .wait (.fault va) ∧
      (s.ctxAt core key).told = true ∧
      MayTrap s core key) ∧
    (∃ (s : State) (pkg : Fin 64) (fn : BitVec 8) (v : _) (core : _) (key : _) (w : _),
      s.replyTo pkg.val fn.toNat v 0 = some (core, key) ∧
      (s.pkgAt pkg.val).swap = some w ∧
      w.recorded = true ∧
      w.confirm = true ∧
      w.core = core ∧
      realKey w.key % 16 = key % 16) ∧
    (∃ (s : State) (pkg : Fin 64) (fn : BitVec 8),
      (s.pkgAt pkg.val).recovery = false ∧
      (s.fnAt pkg.val fn.toNat).vfstat = 0) ∧
    (∃ (s : State) (pkg : Fin 64) (fn : BitVec 8),
      (s.fnAt pkg.val fn.toNat).vfstat = 1 ∧
      (s.fnAt pkg.val fn.toNat).en = true ∧
      (∀ y ∈ (s.pkgAt pkg.val).stops, y.fn ≠ some fn.toNat)) ∧
    (∃ (s : State) (pkg : Fin 64) (fn : BitVec 8) (y : _),
      (s.fnAt pkg.val fn.toNat).vfstat = 4 ∧
      (s.fnAt pkg.val fn.toNat).en = true ∧
      (s.pkgAt pkg.val).stops = [y] ∧
      y.fn = some fn.toNat ∧
      y.discard = false) ∧
    (∃ (s : State) (pkg : Fin 64) (fn : BitVec 8) (node : _) (ten : _),
      (s.fnAt pkg.val fn.toNat).vfstat = 3 ∧
      (s.fnAt pkg.val fn.toNat).enLater = false ∧
      (s.fnAt pkg.val fn.toNat).ending = some (node, ten)) ∧
    (∃ (s : State) (pkg : Fin 64) (fn : BitVec 8),
      (s.fnAt pkg.val fn.toNat).vfstat = 1 ∧
      (s.fnAt pkg.val fn.toNat).mig = false) ∧
    (∃ (s : State) (pkg : Fin 64) (fn : BitVec 8) (x : _),
      (s.fnAt pkg.val fn.toNat).vfstat = 4 ∧
      (s.fnAt pkg.val fn.toNat).en = true ∧
      (s.pkgAt pkg.val).stops = [x] ∧
      x.fn = some fn.toNat ∧
      x.discard = false ∧
      x.begun = true) ∧
    (∃ (s : State) (pkg : Fin 64) (fn : BitVec 8),
      (s.fnAt pkg.val fn.toNat).en = false) := by
  refine ⟨⟨BitVec.ofNat 512 (512 + 2 ^ 63 + 255 * 2 ^ 19), ?_⟩,
    ⟨5, ?_⟩,
    ⟨2, ?_⟩,
    ⟨exFn { en := true, vfstat := 1 }, 0, 2, 32, launchData 0x77, 1, 0x4000, 5, 6, ?_⟩,
    ⟨exFn { en := true, vfstat := 1, launches := List.replicate 64 { target := some 0, item := itL } }, 0, 2, ?_⟩,
    ⟨exFn { en := true, vfstat := 1 }, 0, 2, launchData 0x78, ?_⟩,
    ⟨{}, 0x20004, 3, ?_⟩,
    ⟨exFn { en := true, events := [evr] }, 0, 2, evr, [], ?_⟩,
    ⟨exHeldEv, 0, 2, { evr with kind := 1, core := 1 }, evr, [], ?_⟩,
    ⟨0x4000000, ?_⟩,
    ⟨exFn {} (waiting2 .run), 0, 2, 0x200000, 0, 2, ?_⟩,
    ⟨exFn {} waitTold, 0, 2, 0x200000, 0, 2, 0x77, ?_⟩,
    ⟨exFn {} waitTold, 0, 2, 0x2200000, 0, 2, 0x77, ?_⟩,
    ⟨exFn {} (waiting2 .run) { swap := some { theSwap with confirm := true, recorded := true } }, 0, 2, 0x100000, 0, 1, { theSwap with confirm := true, recorded := true }, ?_⟩,
    ⟨exFn {}, 0, 2, ?_⟩,
    ⟨exFn { en := true, vfstat := 1 }, 0, 2, ?_⟩,
    ⟨exFn { en := true, vfstat := 4, mig := true } { nodes := n512, stopped := true } { stops := [{ theStop true with fn := some 2 }] }, 0, 2, { theStop true with fn := some 2 }, ?_⟩,
    ⟨{ exFn { vfstat := 3, ending := some (512, false) } with store := { mem := bytes8, tags := [(0x1FF000000000040 / 4, 5)] } }, 0, 2, 512, false, ?_⟩,
    ⟨exFn { en := true, vfstat := 1 }, 0, 2, ?_⟩,
    ⟨exFn { en := true, vfstat := 4, mig := true } { nodes := n512, stopped := true } { stops := [{ theStop true with fn := some 2 }] }, 0, 2, { theStop true with fn := some 2 }, ?_⟩,
    ⟨exFn {}, 0, 2, ?_⟩⟩
    <;> (try simp only [LaunchTo, MayTrap, State.Inv, ball_iff]) <;> decide +kernel

/-- The hypotheses of each clause of StepRunsDecoded can be met together. -/
theorem witness_StepRunsDecoded :
    (∃ (s : State) (rest : _) (cycles : _) (core : _) (x : _) (u : _) (b : _) (n : _) (i : _),
      s.agenda = ⟨cycles, .issue core x⟩ :: rest ∧
      u = issuing s rest cycles core x ∧
      Fetches u ∧
      LineAt u b n ∧
      (firsts (b.toNat / 2 ^ 5 % 2 ^ 5)).contains n = false ∧
      b.toNat / 2 ^ 5 % 2 ^ 5 < 8 ∧
      decode (b.extractLsb' (32 + 96 * n) 96) = .ok i ∧
      u.slotIllegal (resolveRow u.me i) = false) ∧
    (∃ (s : State) (rest : _) (cycles : _) (core : _) (x : _) (u : _) (b : _) (n : _) (i : _),
      s.agenda = ⟨cycles, .issue core x⟩ :: rest ∧
      u = issuing s rest cycles core x ∧
      Fetches u ∧
      LineAt u b n ∧
      b.toNat / 2 ^ 5 % 2 ^ 5 < 8 ∧
      decode (b.extractLsb' (32 + 96 * n) 96) = .ok i ∧
      u.slotIllegal (resolveRow u.me i) = true) ∧
    (∃ (s : State) (rest : _) (cycles : _) (core : _) (x : _),
      s.agenda = ⟨cycles, .issue core x⟩ :: rest ∧
      CoreSt.nextCtx (issuing s rest cycles core x) core ≠ some x) ∧
    (∃ (s : State) (rest : _) (cycles : _) (core : _) (x : _) (u : _) (b : _) (n : _) (i : _) (j : _),
      s.agenda = ⟨cycles, .issue core x⟩ :: rest ∧
      u = issuing s rest cycles core x ∧
      Fetches u ∧
      u.me.pair = none ∧
      LineAt u b n ∧
      (firsts (b.toNat / 2 ^ 5 % 2 ^ 5)).contains n = true ∧
      decode (b.extractLsb' (32 + 96 * n) 96) = .ok i ∧
      decode (b.extractLsb' (32 + 96 * (n + 1)) 96) = .ok j ∧
      u.slotIllegal (resolveRow u.me i) = false ∧
      u.slotIllegal (resolveRow u.me j) = false ∧
      pairLegal (resolveRow u.me i) (resolveRow u.me j) = true) ∧
    (∃ (s : State) (rest : _) (cycles : _) (e : _),
      s.agenda = ⟨cycles, .event e⟩ :: rest ∧
      encode e = none) ∧
    (∃ (s : State) (rest : _) (cycles : _),
      s.agenda = ⟨cycles, .pass⟩ :: rest) ∧
    (∃ (s : State) (cycles : _),
      (∀ p ∈ s.pkgs, ∀ x ∈ p.2.stops, x.begun = false → s.cycleOf p.1 + cycles < x.at_)) := by
  refine ⟨⟨exStep (lineOfTwo 0 nopW wAddi) 0x1001, [], 1, 0, 1, issuing (exStep (lineOfTwo 0 nopW wAddi) 0x1001) [] 1 0 1, lineOfTwo 0 nopW wAddi, 1, .addi false 1 2 5, ?_⟩,
    ⟨exStepPend (lineOfTwo 0 wAddi wAddi) 0x1000, [], 1, 0, 1, issuing (exStepPend (lineOfTwo 0 wAddi wAddi) 0x1000) [] 1 0 1, lineOfTwo 0 wAddi wAddi, 0, .addi false 1 2 5, ?_⟩,
    ⟨{ agenda := [⟨1, .issue 0 1⟩] }, [], 1, 0, 1, ?_⟩,
    ⟨exStep (lineOfTwo 1 wAddi wVand) 0x1000, [], 1, 0, 1, issuing (exStep (lineOfTwo 1 wAddi wVand) 0x1000) [] 1 0 1, lineOfTwo 1 wAddi wVand, 0, .addi false 1 2 5, .vand .f32 (.v 1) (.v 2) (.v 3), ?_⟩,
    ⟨{ agenda := [⟨5, .event (.debugFreezeSet 3)⟩] }, [], 5, .debugFreezeSet 3, ?_⟩,
    ⟨{ agenda := [⟨5, .pass⟩] }, [], 5, ?_⟩,
    ⟨{ agenda := [⟨5, .pass⟩] }, 5, ?_⟩⟩
    <;> (try simp only [Fetches, LineAt, ball_iff, ok_iff]) <;> decide +kernel

/-- The hypotheses of each clause of DecodeEncode can be met together. -/
theorem witness_DecodeEncode :
    (∃ (i : Instr) (w : BitVec 96), i.wellFormed = true ∧ encode i = some w) ∧
    (∃ (i : Instr) (w : BitVec 96), i.wellFormed = true ∧ encode i = some w ∧
      (∀ a b, i ≠ .mctlSetSplit a b) ∧ (∀ a b, i ≠ .mctlSetRhalf a b) ∧ (∀ a b, i ≠ .mctlSetTol a b) ∧
      (∀ a b, i ≠ .mctlSetBnorm a b) ∧ (∀ a b, i ≠ .mctlSetCap a b) ∧ (∀ a b, i ≠ .mctlSetIter a b) ∧
      (∀ a, i ≠ .ackResume a) ∧ (∀ a, i ≠ .ackRefuse a) ∧ (∀ a b, i ≠ .calsetArbitration a b)) ∧
    (∃ (i : Instr) (j : Instr) (w : BitVec 96), i.wellFormed = true ∧ j.wellFormed = true ∧ encode i = some w ∧ encode j = some w) :=
  ⟨⟨.addi false 1 2 5, _, by decide +kernel, rfl⟩,
   ⟨.ackReplay 5, _, by decide +kernel, rfl, (fun _ _ h => nomatch h), (fun _ _ h => nomatch h), (fun _ _ h => nomatch h),
     (fun _ _ h => nomatch h), (fun _ _ h => nomatch h), (fun _ _ h => nomatch h), (fun _ h => nomatch h), (fun _ h => nomatch h),
     (fun _ _ h => nomatch h)⟩,
   ⟨.ackReplay 5, .ackResume 5, _, by decide +kernel, by decide +kernel, rfl, rfl⟩⟩

/-- The hypotheses of each clause of MemoryStaysCanonical can be met together. -/
theorem witness_MemoryStaysCanonical :
    (∃ (s : State) (t : State),
      StepsTo s t ∧
      s.Inv) := by
  refine ⟨exStep (lineOfTwo 0 nopW wAddi) 0x1000, nx (step (exStep (lineOfTwo 0 nopW wAddi) 0x1000)), ?_⟩
    <;> (try simp only [State.Inv, StepsTo, nx_iff]) <;> decide +kernel

/-- The hypotheses of each clause of ResetState can be met together. -/
theorem witness_ResetState :
    (∃ (s : State) (r : Nat) (m : Msg),
      s.routers = [] ∧
      dieOf m.dst < 8 ∧
      pkgOf m.dst = r / 128 ∧
      colOf (routerOf m.dst) ≠ colOf r) := by
  refine ⟨{}, 0, farMsg, ?_⟩ <;> decide +kernel
end

section
/-!
The control transfers (R116 to R119). First what the shared operations of a transfer do: the target of a displacement in
terms of slots, the conditions in terms of the library's comparisons, and a transfer that no enabled flag stops. Each
instruction's effect then follows from them.
-/
open Sys2Proof Sys2Proof.Machine Sys2Proof.Claims

namespace Sys2Proof.Proofs.Control

-- Displacements (R116)

theorem slotAddr_toNat {i : Nat} (hi : SlotOk i) : (slotAddr i).toNat = i / 5 * 64 + i % 5 := by
  unfold SlotOk at hi
  rw [slotAddr, BitVec.toNat_ofNat, Nat.mod_eq_of_lt (by omega)]

/-- The slot number that `dispTarget` computes from an instruction address. -/
theorem slot_of_slotAddr {i : Nat} (hi : SlotOk i) :
    5 * ((slotAddr i).toNat / 64) + (slotAddr i).toNat % 8 = i := by
  rw [slotAddr_toNat hi]
  omega

theorem dispTarget_slotAddr {i j : Nat} {disp : BitVec 40} (hi : SlotOk i) (hj : SlotOk j)
    (hd : (j : Int) = i + disp.toInt) : dispTarget (slotAddr i) disp = some (slotAddr j) := by
  unfold SlotOk at hj
  have hneg : ¬ (j : Int) < 0 := by omega
  simp only [dispTarget, slot_of_slotAddr hi, ← hd, hneg, if_false, Int.toNat_natCast, hj, if_true]
  rfl

theorem goDisp_slot {s : State} {i j : Nat} {disp : BitVec 40} (hpc : s.me.pc = slotAddr i) (hi : SlotOk i)
    (hj : SlotOk j) (hd : (j : Int) = i + disp.toInt) (k : State → State) :
    s.goDisp disp k = (k s).transfer (slotAddr j) := by
  rw [State.goDisp, hpc, dispTarget_slotAddr hi hj hd]

-- Conditions (R117)

theorem toSigned_toNat (x : Word) : toSigned 64 x.toNat = x.toInt := by
  have hmsb : x.toNat.testBit 63 = x.msb := (BitVec.msb_eq_getLsbD_last x).symm
  simp only [toSigned, Nat.mod_eq_of_lt x.isLt, hmsb, BitVec.toInt_eq_msb_cond]
  have hlt : (x.toNat : Int) % 2 ^ 64 = x.toNat := by omega
  rw [hlt, Int.natCast_pow]
  rfl

@[simp] theorem nat_false (x : Word) : nat false x = x.toNat := by simp [nat, Machine.src]
@[simp] theorem int_false (x : Word) : int false x = x.toInt := toSigned_toNat x

theorem condHolds_false (c : Cond) (x y : Word) : condHolds c false x y = taken c x y := by
  rw [Bool.eq_iff_iff]
  cases c with
  | eq | ne => simp [condHolds, taken, BitVec.toNat_eq]
  | lt | ge => simp [condHolds, taken, BitVec.slt]
  | lo | hs => simp [condHolds, taken, BitVec.ult]

-- Transfers and writes of one register

theorem commits_quiet {c : Ctx} (h : c.raised &&& c.fenable = 0) : c.commits &&& c.fenable = 0 := by
  unfold Ctx.commits
  split
  · simp
  · exact h

/-- An instruction that raises no enabled flag changes its context alone when it retires. -/
theorem retiring_quiet {s : State} (h : s.me.raised &&& s.me.fenable = 0) (f : Ctx → Ctx) :
    s.retiring s.core s.key f = s.modMe f :=
  if_pos (commits_quiet h)

theorem transfer_quiet {s : State} (h : s.me.raised &&& s.me.fenable = 0) (pc : Word) :
    s.transfer pc = s.modMe fun c => jumpTo c pc :=
  retiring_quiet h _

theorem setG_transfer_quiet {s : State} (h : s.me.raised &&& s.me.fenable = 0) (r : GReg) (v : LWord) (pc : Word) :
    (s.modMe fun c => c.setG r v).transfer pc = s.modMe fun c => jumpTo (c.setG r v) pc := by
  rw [transfer_quiet (by simpa using h), State.modMe_modMe]

theorem setG_retire_quiet {s : State} (h : s.me.raised &&& s.me.fenable = 0) (r : GReg) (v : LWord) :
    (s.modMe fun c => c.setG r v).retire = s.modMe fun c => (c.setG r v).retire := by
  rw [State.retire_quiet (by simpa using h), State.modMe_modMe]

theorem linkReg_eq (s : State) : s.linkReg = s.modMe fun c => c.setG 62 ⟨nextPc s.me.pc, 0⟩ :=
  State.modMe_congr rfl

/-- LOOP's count (R117): the counter less one, under its own label. -/
def counted (s : State) (c : GReg) : State :=
  s.modMe fun x => x.setG c ⟨(s.me.g c).val - 1, (s.me.g c).lab⟩

theorem counted_val {s : State} {c : GReg} (hc : c ≠ 0) : ((counted s c).me.g c).val = (s.me.g c).val - 1 := by
  rw [counted, State.me_modMe, Ctx.g_setG_same _ _ hc]

theorem unlabelled_zero (s : State) : s.unlabelled [0] = true := rfl

-- The instructions (R117, R119)

theorem exec_brCond {s : State} {c : Cond} {a b : GReg} {disp : BitVec 40} (hc : s.clear (.brCond c a b disp) = true)
    (hu : s.unlabelled [a, b] = true) :
    exec (.brCond c a b disp) s =
      .next (if taken c (s.me.g a).val (s.me.g b).val then s.goDisp disp id else s.retire) := by
  rw [← condHolds_false]
  show execBrCond c a b disp s = _
  rw [execBrCond, State.guarded_clear hc, State.deciding_unlabelled hu]

theorem exec_loop {s : State} {c : GReg} {disp : BitVec 40} (hc : s.clear (.loop c disp) = true)
    (hu : s.unlabelled [c] = true) :
    exec (.loop c disp) s =
      .next (if ((counted s c).me.g c).val ≠ 0 then s.goDisp disp (counted · c) else (counted s c).retire) := by
  have hdec (t : State) : (t.modMe fun x => x.setG c ⟨(x.g c).val - 1, (x.g c).lab⟩) = counted t c :=
    State.modMe_congr rfl
  show execLoop c disp s = _
  rw [execLoop, State.guarded_clear hc, State.deciding_unlabelled hu]
  simp only [hdec]

theorem exec_nop {s : State} (hc : s.clear .nop = true) : exec .nop s = .next (s.modMe Ctx.retire) := by
  show execNop s = _
  rw [execNop, State.guarded_clear hc, State.retire_quiet (State.clear_quiet hc)]

theorem exec_callr {s : State} {a : GReg} (hc : s.clear (.callr a) = true) (hu : s.unlabelled [a] = true) :
    exec (.callr a) s =
      .next (s.modMe fun c => jumpTo (c.setG 62 ⟨nextPc s.me.pc, 0⟩) (s.me.g a).val) := by
  show execCallr a s = _
  rw [execCallr, State.guarded_clear hc, State.deciding_unlabelled hu, linkReg_eq,
    setG_transfer_quiet (State.clear_quiet hc)]

theorem exec_jr {s : State} {a : GReg} (hc : s.clear (.jr a) = true) (hu : s.unlabelled [a] = true) :
    exec (.jr a) s = .next (s.modMe fun c => jumpTo c (s.me.g a).val) := by
  show execJr a s = _
  rw [execJr, State.guarded_clear hc, State.deciding_unlabelled hu, transfer_quiet (State.clear_quiet hc)]

theorem exec_brCond_not_taken {s : State} {c : Cond} {a b : GReg} {disp : BitVec 40}
    (hc : s.clear (.brCond c a b disp) = true) (hu : s.unlabelled [a, b] = true)
    (ht : taken c (s.me.g a).val (s.me.g b).val = false) :
    exec (.brCond c a b disp) s = .next (s.modMe Ctx.retire) := by
  rw [exec_brCond hc hu, ht, if_neg Bool.false_ne_true, State.retire_quiet (State.clear_quiet hc)]

theorem exec_loop_last {s : State} {c : GReg} {disp : BitVec 40} (hc : s.clear (.loop c disp) = true)
    (hu : s.unlabelled [c] = true) (h0 : c ≠ 0) (h1 : (s.me.g c).val = 1) :
    exec (.loop c disp) s = .next (s.modMe fun x => (x.setG c ⟨0, (s.me.g c).lab⟩).retire) := by
  have hz : (s.me.g c).val - 1 = 0 := by rw [h1]; rfl
  rw [exec_loop hc hu, counted_val h0, if_neg (not_not_intro hz), counted, hz, setG_retire_quiet (State.clear_quiet hc)]

/-- g0 reads zero after the count, so LOOP by it never goes back. -/
theorem exec_loop_zero {s : State} {disp : BitVec 40} (hc : s.clear (.loop 0 disp) = true) :
    exec (.loop 0 disp) s = .next (s.modMe Ctx.retire) := by
  have hz : ((counted s 0).me.g 0).val = 0 := by rw [Ctx.g_zero]
  rw [exec_loop hc (unlabelled_zero s), if_neg (not_not_intro hz), counted, setG_retire_quiet (State.clear_quiet hc)]
  simp only [Ctx.setG_zero]

section
variable {s : State} {i j : Nat} {disp : BitVec 40} (hpc : s.me.pc = slotAddr i) (hi : SlotOk i) (hj : SlotOk j)
  (hd : (j : Int) = i + disp.toInt)
include hpc hi hj hd

theorem exec_br_slot (hc : s.clear (.br disp) = true) :
    exec (.br disp) s = .next (s.modMe fun c => jumpTo c (slotAddr j)) := by
  show execBr disp s = _
  rw [execBr, State.guarded_clear hc, goDisp_slot hpc hi hj hd, id, transfer_quiet (State.clear_quiet hc)]

theorem exec_brCond_taken {c : Cond} {a b : GReg} (hc : s.clear (.brCond c a b disp) = true)
    (hu : s.unlabelled [a, b] = true) (ht : taken c (s.me.g a).val (s.me.g b).val = true) :
    exec (.brCond c a b disp) s = .next (s.modMe fun c => jumpTo c (slotAddr j)) := by
  rw [exec_brCond hc hu, if_pos ht, goDisp_slot hpc hi hj hd, id, transfer_quiet (State.clear_quiet hc)]

theorem exec_call_slot (hc : s.clear (.call disp) = true) :
    exec (.call disp) s = .next (s.modMe fun c => jumpTo (c.setG 62 ⟨nextPc s.me.pc, 0⟩) (slotAddr j)) := by
  show execCall disp s = _
  rw [execCall, State.guarded_clear hc, goDisp_slot hpc hi hj hd, linkReg_eq,
    setG_transfer_quiet (State.clear_quiet hc)]

theorem exec_loop_again {c : GReg} (hc : s.clear (.loop c disp) = true) (hu : s.unlabelled [c] = true) (h0 : c ≠ 0)
    (h1 : (s.me.g c).val ≠ 1) :
    exec (.loop c disp) s =
      .next (s.modMe fun x => jumpTo (x.setG c ⟨(s.me.g c).val - 1, (s.me.g c).lab⟩) (slotAddr j)) := by
  have hz : (s.me.g c).val - 1 ≠ 0 := fun h => h1 (BitVec.sub_eq_iff_eq_add.mp h)
  rw [exec_loop hc hu, counted_val h0, if_pos hz, goDisp_slot hpc hi hj hd, counted,
    setG_transfer_quiet (State.clear_quiet hc)]

end

/-- Settles O9: one lemma for each instruction and outcome. -/
theorem controlTransfers : Obligations.ControlTransfers := by
  refine ⟨?nop, ?br, ?taken, ?notTaken, ?call, ?callr, ?jr, ?again, ?last, ?zero⟩
  case nop => exact fun _ => exec_nop
  case br => exact fun _ _ _ _ hc hpc hi hj hd => exec_br_slot hpc hi hj hd hc
  case taken => exact fun _ _ _ _ _ _ _ hc hu hpc hi hj hd => exec_brCond_taken hpc hi hj hd hc hu
  case notTaken => exact fun _ _ _ _ _ => exec_brCond_not_taken
  case call => exact fun _ _ _ _ hc hpc hi hj hd => exec_call_slot hpc hi hj hd hc
  case callr => exact fun _ _ => exec_callr
  case jr => exact fun _ _ => exec_jr
  case again => exact fun _ _ _ _ _ hc hu h0 h1 hpc hi hj hd => exec_loop_again hpc hi hj hd hc hu h0 h1
  case last => exact fun _ _ _ => exec_loop_last
  case zero => exact fun _ _ => exec_loop_zero

end Sys2Proof.Proofs.Control
end

section
/-!
The integer instructions (R128 to R137). A source is its low bits as a vector of the width, and a result is such a
vector sign-extended; in these terms the model's arithmetic on numbers is the library's on vectors, at either width.
-/
open Sys2Proof Sys2Proof.Machine Sys2Proof.Claims

namespace Sys2Proof.Proofs.Integer

-- Completion (R128)

/-- An instruction that performs an integer operation writes the operation's value. -/
theorem writes_of_alu {i : Instr} (u : Alu) {v : (GReg → Word) → Word} (he : ∀ s, exec i s = .next (s.alu i u))
    (hv : ∀ g, u.f g = v g) : Writes i u.d u.srcs v := by
  intro s t h hc hd hl
  rw [he, State.alu_writes hc hd hl]
  simp only [hv]

-- Sources and results (R128)

/-- The bits of a source over its width. -/
def low (w : Bool) (x : Word) : BitVec (width w) := x.setWidth (width w)

/-- A result from the bits of its width. -/
def result (w : Bool) (r : BitVec (width w)) : Word := r.signExtend 64

theorem low_false (x : Word) : low false x = x := x.setWidth_eq

theorem result_false (r : Word) : result false r = r := r.signExtend_eq

theorem width_le (w : Bool) : width w ≤ 64 := by cases w <;> decide

theorem low_add (w : Bool) (x y : Word) : low w (x + y) = low w x + low w y := BitVec.setWidth_add x y (width_le w)

theorem low_mul (w : Bool) (x y : Word) : low w (x * y) = low w x * low w y := BitVec.setWidth_mul x y (width_le w)

theorem low_neg (w : Bool) (x : Word) : low w (-x) = -low w x := BitVec.setWidth_neg_of_le (width_le w)

theorem low_sub (w : Bool) (x y : Word) : low w (x - y) = low w x - low w y := by
  rw [BitVec.sub_eq_add_neg, BitVec.sub_eq_add_neg, low_add, low_neg]

theorem low_ofNat (w : Bool) (n : Nat) : low w (BitVec.ofNat 64 n) = BitVec.ofNat (width w) n :=
  BitVec.setWidth_ofNat_of_le (width_le w) n

theorem low_ofInt (w : Bool) (i : Int) : low w (BitVec.ofInt 64 i) = BitVec.ofInt (width w) i := by
  obtain ⟨n, rfl | rfl⟩ := Int.eq_nat_or_neg i
  · rw [BitVec.ofInt_natCast, BitVec.ofInt_natCast, low_ofNat]
  · rw [BitVec.ofInt_neg, BitVec.ofInt_neg, BitVec.ofInt_natCast, BitVec.ofInt_natCast, low_neg, low_ofNat]

theorem low_src (w : Bool) (x : Word) : low w (src w x) = low w x := by
  cases w
  · rfl
  · exact (x.setWidth 32).setWidth_setWidth_of_le (by decide) |>.trans (BitVec.setWidth_eq _)

theorem out_eq_keep (w : Bool) (x : Word) : out w x = keep w x := rfl

theorem keep_eq (w : Bool) (x : Word) : keep w x = result w (low w x) := by
  cases w
  · rw [low_false, result_false]; rfl
  · rfl

theorem keep_src (w : Bool) (x : Word) : keep w (src w x) = keep w x := by rw [keep_eq, keep_eq, low_src]

theorem ofN_eq (w : Bool) (n : Nat) : ofN w n = result w (BitVec.ofNat (width w) n) := by
  rw [ofN, out_eq_keep, keep_eq, low_ofNat]

theorem ofI_eq_keep (w : Bool) (i : Int) : ofI w i = keep w (BitVec.ofInt 64 i) := by
  have h : BitVec.ofNat 64 (wrapInt 64 i) = BitVec.ofInt 64 i := by
    apply BitVec.eq_of_toNat_eq
    simp only [wrapInt, BitVec.toNat_ofNat, BitVec.toNat_ofInt]
    omega
  rw [ofI, h, out_eq_keep]

theorem ofI_eq (w : Bool) (i : Int) : ofI w i = result w (BitVec.ofInt (width w) i) := by
  rw [ofI_eq_keep, keep_eq, low_ofInt]

/-- `Control.toSigned_toNat` at any width. -/
theorem toSigned_bits {n : Nat} (x : BitVec n) : toSigned n x.toNat = x.toInt := by
  have hmsb : x.toNat.testBit (n - 1) = x.msb := (BitVec.msb_eq_getLsbD_last x).symm
  have hlt : (x.toNat : Int) % 2 ^ n = x.toNat := by exact_mod_cast Nat.mod_eq_of_lt x.isLt
  simp only [toSigned, Nat.mod_eq_of_lt x.isLt, hmsb, BitVec.toInt_eq_msb_cond, hlt]
  norm_cast

theorem nat_eq (w : Bool) (x : Word) : nat w x = (low w x).toNat := by
  cases w
  · rw [low_false]; rfl
  · exact BitVec.toNat_setWidth_of_le (show 32 ≤ 64 by decide)

theorem int_eq (w : Bool) (x : Word) : int w x = (low w x).toInt := by
  rw [int, nat_eq]
  exact toSigned_bits (low w x)

theorem natural_eq_nat (w : Bool) (x : Word) : natural w x = nat w x := by
  rw [nat_eq]
  cases w
  · rw [low_false]; rfl
  · rfl

theorem signed_eq_int (w : Bool) (x : Word) : signed w x = int w x := by
  rw [int_eq]
  cases w
  · rw [low_false]; rfl
  · rfl

theorem ofN_nat (w : Bool) (x : Word) : ofN w (nat w x) = keep w x := by
  rw [ofN_eq, nat_eq, keep_eq, BitVec.ofNat_toNat, BitVec.setWidth_eq]

theorem ofI_int (w : Bool) (x : Word) : ofI w (int w x) = keep w x := by
  rw [ofI_eq, int_eq, keep_eq, BitVec.ofInt_toInt]

-- Arithmetic and comparisons (R131)

theorem out_add (w : Bool) (x y : Word) : out w (src w x + src w y) = keep w (x + y) := by
  simp only [out_eq_keep, keep_eq, low_add, low_src]

theorem out_sub (w : Bool) (x y : Word) : out w (src w x - src w y) = keep w (x - y) := by
  simp only [out_eq_keep, keep_eq, low_sub, low_src]

theorem ofI_mul (w : Bool) (x y : Word) : ofI w (int w x * int w y) = keep w (x * y) := by
  simp only [ofI_eq, int_eq, BitVec.ofInt_mul, BitVec.ofInt_toInt, keep_eq, low_mul]

theorem ofI_mulh (w : Bool) (x y : Word) :
    ofI w (int w x * int w y / 2 ^ wide w) = keep w (BitVec.ofInt 64 (signed w x * signed w y / 2 ^ width w)) := by
  rw [signed_eq_int, signed_eq_int]
  exact ofI_eq_keep w _

theorem ofN_mulhu (w : Bool) (x y : Word) :
    ofN w (nat w x * nat w y / 2 ^ wide w) = keep w (BitVec.ofNat 64 (natural w x * natural w y / 2 ^ width w)) := by
  rw [natural_eq_nat, natural_eq_nat]
  rfl

section
variable (w : Bool) (x y : Word)

theorem ofI_max : ofI w (max (int w x) (int w y)) = keep w (if signed w x < signed w y then y else x) := by
  rw [signed_eq_int, signed_eq_int]
  split
  next h => rw [Int.max_eq_right (Int.le_of_lt h), ofI_int]
  next h => rw [Int.max_eq_left (Int.not_lt.mp h), ofI_int]

theorem ofI_min : ofI w (min (int w x) (int w y)) = keep w (if signed w y < signed w x then y else x) := by
  rw [signed_eq_int, signed_eq_int]
  split
  next h => rw [Int.min_eq_right (Int.le_of_lt h), ofI_int]
  next h => rw [Int.min_eq_left (Int.not_lt.mp h), ofI_int]

theorem ofN_max : ofN w (max (nat w x) (nat w y)) = keep w (if natural w x < natural w y then y else x) := by
  rw [natural_eq_nat, natural_eq_nat]
  split
  next h => rw [Nat.max_eq_right (Nat.le_of_lt h), ofN_nat]
  next h => rw [Nat.max_eq_left (Nat.not_lt.mp h), ofN_nat]

theorem ofN_min : ofN w (min (nat w x) (nat w y)) = keep w (if natural w y < natural w x then y else x) := by
  rw [natural_eq_nat, natural_eq_nat]
  split
  next h => rw [Nat.min_eq_right (Nat.le_of_lt h), ofN_nat]
  next h => rw [Nat.min_eq_left (Nat.not_lt.mp h), ofN_nat]

end

theorem out_sel (w : Bool) (c x y : Word) :
    out w (if c ≠ 0 then src w x else src w y) = keep w (if c = 0 then y else x) := by
  rw [out_eq_keep, ite_not, ← apply_ite (src w), keep_src]

section
variable (w : Bool) (x y : Word)

theorem condHolds_eq : condHolds .eq w x y = true ↔ natural w x = natural w y := by simp [condHolds, natural_eq_nat]

theorem condHolds_ne : condHolds .ne w x y = true ↔ natural w x ≠ natural w y := by simp [condHolds, natural_eq_nat]

theorem condHolds_lt : condHolds .lt w x y = true ↔ signed w x < signed w y := by simp [condHolds, signed_eq_int]

theorem condHolds_ge : condHolds .ge w x y = true ↔ ¬ signed w x < signed w y := by simp [condHolds, signed_eq_int]

theorem condHolds_lo : condHolds .lo w x y = true ↔ natural w x < natural w y := by simp [condHolds, natural_eq_nat]

theorem condHolds_hs : condHolds .hs w x y = true ↔ ¬ natural w x < natural w y := by
  simp [condHolds, natural_eq_nat]

end

/-- CMP's value, by the condition under which it is 1. -/
theorem cmp_value {b : Bool} {p : Prop} [Decidable p] (h : b = true ↔ p) :
    (if b then 1 else 0 : Word) = if p then 1 else 0 :=
  ite_congr (propext h) (fun _ => rfl) fun _ => rfl

/-- CMP's value, by the condition under which it is 0. -/
theorem cmp_value_not {b : Bool} {p : Prop} [Decidable p] (h : b = true ↔ ¬ p) :
    (if b then 1 else 0 : Word) = if p then 0 else 1 :=
  (cmp_value h).trans (ite_not ..)

/-- Settles O1: one lemma above for what each operation computes. -/
theorem integerArithmetic : Obligations.IntegerArithmetic := by
  refine ⟨?add, ?sub, ?and, ?or, ?xor, ?andn, ?addi, ?subi, ?andi, ?ori, ?xori, ?mul, ?mulh, ?mulhu, ?max, ?min, ?maxu,
    ?minu, ?eq, ?ne, ?lt, ?ge, ?lo, ?hs, ?sel⟩
  case add => exact fun w d a b => writes_of_alu (addOp w d a b) (fun _ => rfl) fun g => out_add w (g a) (g b)
  case sub => exact fun w d a b => writes_of_alu (subOp w d a b) (fun _ => rfl) fun g => out_sub w (g a) (g b)
  case and => exact fun w d a b => writes_of_alu (andOp w d a b) (fun _ => rfl) fun _ => out_eq_keep w _
  case or => exact fun w d a b => writes_of_alu (orOp w d a b) (fun _ => rfl) fun _ => out_eq_keep w _
  case xor => exact fun w d a b => writes_of_alu (xorOp w d a b) (fun _ => rfl) fun _ => out_eq_keep w _
  case andn => exact fun w d a b => writes_of_alu (andnOp w d a b) (fun _ => rfl) fun _ => out_eq_keep w _
  case addi => exact fun w d a i => writes_of_alu (addiOp w d a i) (fun _ => rfl) fun g => out_add w (g a) (immW i)
  case subi => exact fun w d a i => writes_of_alu (subiOp w d a i) (fun _ => rfl) fun g => out_sub w (g a) (immW i)
  case andi => exact fun w d a i => writes_of_alu (andiOp w d a i) (fun _ => rfl) fun _ => out_eq_keep w _
  case ori => exact fun w d a i => writes_of_alu (oriOp w d a i) (fun _ => rfl) fun _ => out_eq_keep w _
  case xori => exact fun w d a i => writes_of_alu (xoriOp w d a i) (fun _ => rfl) fun _ => out_eq_keep w _
  case mul => exact fun w d a b => writes_of_alu (mulOp w d a b) (fun _ => rfl) fun g => ofI_mul w (g a) (g b)
  case mulh => exact fun w d a b => writes_of_alu (mulhOp w d a b) (fun _ => rfl) fun g => ofI_mulh w (g a) (g b)
  case mulhu => exact fun w d a b => writes_of_alu (mulhuOp w d a b) (fun _ => rfl) fun g => ofN_mulhu w (g a) (g b)
  case max => exact fun w d a b => writes_of_alu (maxOp w d a b) (fun _ => rfl) fun g => ofI_max w (g a) (g b)
  case min => exact fun w d a b => writes_of_alu (minOp w d a b) (fun _ => rfl) fun g => ofI_min w (g a) (g b)
  case maxu => exact fun w d a b => writes_of_alu (maxuOp w d a b) (fun _ => rfl) fun g => ofN_max w (g a) (g b)
  case minu => exact fun w d a b => writes_of_alu (minuOp w d a b) (fun _ => rfl) fun g => ofN_min w (g a) (g b)
  case eq =>
    exact fun w d a b => writes_of_alu (cmpOp w .eq d a b) (fun _ => rfl) fun g =>
      cmp_value (condHolds_eq w (g a) (g b))
  case ne =>
    exact fun w d a b => writes_of_alu (cmpOp w .ne d a b) (fun _ => rfl) fun g =>
      cmp_value (condHolds_ne w (g a) (g b))
  case lt =>
    exact fun w d a b => writes_of_alu (cmpOp w .lt d a b) (fun _ => rfl) fun g =>
      cmp_value (condHolds_lt w (g a) (g b))
  case ge =>
    exact fun w d a b => writes_of_alu (cmpOp w .ge d a b) (fun _ => rfl) fun g =>
      cmp_value_not (condHolds_ge w (g a) (g b))
  case lo =>
    exact fun w d a b => writes_of_alu (cmpOp w .lo d a b) (fun _ => rfl) fun g =>
      cmp_value (condHolds_lo w (g a) (g b))
  case hs =>
    exact fun w d a b => writes_of_alu (cmpOp w .hs d a b) (fun _ => rfl) fun g =>
      cmp_value_not (condHolds_hs w (g a) (g b))
  case sel => exact fun w d c a b => writes_of_alu (selOp w d c a b) (fun _ => rfl) fun g => out_sel w (g c) (g a) (g b)

end Sys2Proof.Proofs.Integer
end

section
/-!
The shifts, rotates and funnel shifts (R133). Each is the library's shift of vectors of one width; the rotates and the
funnels put together two parts that share no bit.
-/
open Sys2Proof Sys2Proof.Machine Sys2Proof.Claims

namespace Sys2Proof.Proofs.Integer

-- Shifts of a vector as arithmetic on its number

section
variable {m : Nat} (x : BitVec m) (n : Nat)

theorem ofNat_mul_two_pow : BitVec.ofNat m (x.toNat * 2 ^ n) = x <<< n := by
  apply BitVec.eq_of_toNat_eq
  rw [BitVec.toNat_ofNat, BitVec.toNat_shiftLeft, Nat.shiftLeft_eq]

theorem ofNat_div_two_pow : BitVec.ofNat m (x.toNat / 2 ^ n) = x >>> n := by
  apply BitVec.eq_of_toNat_eq
  rw [BitVec.toNat_ofNat, BitVec.toNat_ushiftRight, Nat.shiftRight_eq_div_pow,
    Nat.mod_eq_of_lt (Nat.lt_of_le_of_lt (Nat.div_le_self ..) x.isLt)]

theorem ofInt_div_two_pow : BitVec.ofInt m (x.toInt / 2 ^ n) = x.sshiftRight n := by
  rw [← BitVec.ofInt_toInt (x := x.sshiftRight n), BitVec.toInt_sshiftRight, Int.shiftRight_eq_div_pow]
  norm_cast

end

/-- What a left and a right shift by `m` bits together leave shares no bit. -/
theorem shiftLeft_and_ushiftRight {m n : Nat} (x y : BitVec m) (k : Nat) (h : m ≤ n + k) :
    x <<< n &&& y >>> k = 0#m := by
  apply BitVec.eq_of_getLsbD_eq
  intro i hi
  by_cases hn : i < n
  · simp [hn]
  · simp [show m ≤ k + i by omega]

theorem ofNat_rotateLeft {m n : Nat} (x : BitVec m) (h : n < m) :
    BitVec.ofNat m (x.toNat * 2 ^ n + x.toNat / 2 ^ (m - n)) = x.rotateLeft n := by
  rw [BitVec.ofNat_add, ofNat_mul_two_pow, ofNat_div_two_pow, BitVec.rotateLeft_def, Nat.mod_eq_of_lt h]
  exact BitVec.add_eq_or_of_and_eq_zero _ _ (shiftLeft_and_ushiftRight _ _ _ (by omega))

theorem ofNat_rotateRight {m n : Nat} (x : BitVec m) (h : n < m) :
    BitVec.ofNat m (x.toNat / 2 ^ n + x.toNat * 2 ^ (m - n)) = x.rotateRight n := by
  rw [BitVec.ofNat_add, ofNat_mul_two_pow, ofNat_div_two_pow, BitVec.rotateRight_def, Nat.mod_eq_of_lt h]
  refine BitVec.add_eq_or_of_and_eq_zero _ _ ?_
  rw [BitVec.and_comm]
  exact shiftLeft_and_ushiftRight _ _ _ (by omega)

theorem toNat_append_eq_add {m k : Nat} (x : BitVec m) (y : BitVec k) : (x ++ y).toNat = x.toNat * 2 ^ k + y.toNat := by
  rw [BitVec.toNat_append, ← Nat.shiftLeft_add_eq_or_of_lt y.isLt, Nat.shiftLeft_eq]

theorem ofNat_funnelLeft {m : Nat} (x y : BitVec m) (n : Nat) :
    BitVec.ofNat m ((x.toNat * 2 ^ m + y.toNat) * 2 ^ n / 2 ^ m % 2 ^ m) = ((x ++ y) <<< n).extractLsb' m m := by
  apply BitVec.eq_of_toNat_eq
  rw [BitVec.toNat_ofNat, Nat.mod_mod, BitVec.extractLsb'_toNat, BitVec.toNat_shiftLeft, toNat_append_eq_add,
    Nat.shiftLeft_eq, Nat.shiftRight_eq_div_pow, Nat.pow_add, Nat.mod_mul_right_div_self, Nat.mod_mod]

theorem ofNat_funnelRight {m : Nat} (x y : BitVec m) (n : Nat) :
    BitVec.ofNat m ((x.toNat * 2 ^ m + y.toNat) / 2 ^ n % 2 ^ m) = ((x ++ y) >>> n).extractLsb' 0 m := by
  apply BitVec.eq_of_toNat_eq
  rw [BitVec.toNat_ofNat, Nat.mod_mod, BitVec.extractLsb'_toNat, BitVec.toNat_ushiftRight, toNat_append_eq_add,
    Nat.shiftRight_zero, Nat.shiftRight_eq_div_pow]

-- The model's shifts

theorem shifted_eq (w : Bool) (f : {n : Nat} → BitVec n → Nat → BitVec n) (x : Word) (n : Nat) :
    shifted w f x n = result w (f (low w x) n) := by
  cases w
  · exact ((result_false _).trans (congrArg (f · n) (low_false x))).symm
  · rfl

section
variable (w : Bool) (x y : Word) (n : Nat)

theorem amount_lt : amount w x < width w := Nat.mod_lt _ (by cases w <;> decide)

theorem shlV_eq : shlV w x n = shifted w (· <<< ·) x n := by
  rw [shlV, ofN_eq, nat_eq, ofNat_mul_two_pow, shifted_eq]

theorem shrV_eq : shrV w x n = shifted w (· >>> ·) x n := by
  rw [shrV, ofN_eq, nat_eq, ofNat_div_two_pow, shifted_eq]

theorem sraV_eq : sraV w x n = shifted w BitVec.sshiftRight x n := by
  rw [sraV, ofI_eq, int_eq, ofInt_div_two_pow, shifted_eq]

theorem funlV_false : funlV false x y n = ((x ++ y) <<< n).extractLsb' 64 64 := by
  rw [funlV, Control.nat_false, Control.nat_false]
  exact ofNat_funnelLeft x y n

theorem funlV_true : funlV true x y n =
    (((x.setWidth 32 ++ y.setWidth 32) <<< n).extractLsb' 32 32).signExtend 64 := by
  rw [funlV, ofN_eq, nat_eq, nat_eq]
  exact congrArg _ (ofNat_funnelLeft (x.setWidth 32) (y.setWidth 32) n)

theorem funrV_false : funrV false x y n = ((x ++ y) >>> n).extractLsb' 0 64 := by
  rw [funrV, Control.nat_false, Control.nat_false]
  exact ofNat_funnelRight x y n

theorem funrV_true : funrV true x y n =
    (((x.setWidth 32 ++ y.setWidth 32) >>> n).extractLsb' 0 32).signExtend 64 := by
  rw [funrV, ofN_eq, nat_eq, nat_eq]
  exact congrArg _ (ofNat_funnelRight (x.setWidth 32) (y.setWidth 32) n)

variable {n} (hn : n < width w)
include hn

theorem rolV_eq : rolV w x n = shifted w BitVec.rotateLeft x n := by
  rw [rolV, ofN_eq, nat_eq, shifted_eq, ← ofNat_rotateLeft _ hn]
  rfl

theorem rorV_eq : rorV w x n = shifted w BitVec.rotateRight x n := by
  rw [rorV, ofN_eq, nat_eq, shifted_eq, ← ofNat_rotateRight _ hn]
  rfl

end

/-- The limit of R130 on an immediate amount is that of the width. -/
theorem lt_width_of_shiftOk {w : Bool} {n : Fin 64} (h : shiftOk w n = true) : n.val < width w := by
  cases w
  · exact n.isLt
  · exact of_decide_eq_true h

/-- Settles O3: each shift is that of vectors of the width; an immediate amount is below it by R130. -/
theorem integerShifts : Obligations.IntegerShifts := by
  refine ⟨?shl, ?shr, ?sra, ?rol, ?ror, ?shli, ?shri, ?srai, ?roli, ?rori, ?funl, ?funlW, ?funr, ?funrW⟩
  case shl => exact fun w d a b => writes_of_alu (shlOp w d a b) (fun _ => rfl) fun g => shlV_eq w (g a) _
  case shr => exact fun w d a b => writes_of_alu (shrOp w d a b) (fun _ => rfl) fun g => shrV_eq w (g a) _
  case sra => exact fun w d a b => writes_of_alu (sraOp w d a b) (fun _ => rfl) fun g => sraV_eq w (g a) _
  case rol =>
    exact fun w d a b => writes_of_alu (rolOp w d a b) (fun _ => rfl) fun g => rolV_eq w (g a) (amount_lt w (g b))
  case ror =>
    exact fun w d a b => writes_of_alu (rorOp w d a b) (fun _ => rfl) fun g => rorV_eq w (g a) (amount_lt w (g b))
  case shli => exact fun w d a n _ => writes_of_alu (shliOp w d a n) (fun _ => rfl) fun g => shlV_eq w (g a) n.val
  case shri => exact fun w d a n _ => writes_of_alu (shriOp w d a n) (fun _ => rfl) fun g => shrV_eq w (g a) n.val
  case srai => exact fun w d a n _ => writes_of_alu (sraiOp w d a n) (fun _ => rfl) fun g => sraV_eq w (g a) n.val
  case roli =>
    exact fun w d a n h => writes_of_alu (roliOp w d a n) (fun _ => rfl) fun g =>
      rolV_eq w (g a) (lt_width_of_shiftOk h)
  case rori =>
    exact fun w d a n h => writes_of_alu (roriOp w d a n) (fun _ => rfl) fun g =>
      rorV_eq w (g a) (lt_width_of_shiftOk h)
  case funl =>
    exact fun d a b c => writes_of_alu (funlOp false d a b c) (fun _ => rfl) fun g => funlV_false (g a) (g b) _
  case funlW =>
    exact fun d a b c => writes_of_alu (funlOp true d a b c) (fun _ => rfl) fun g => funlV_true (g a) (g b) _
  case funr =>
    exact fun d a b c => writes_of_alu (funrOp false d a b c) (fun _ => rfl) fun g => funrV_false (g a) (g b) _
  case funrW =>
    exact fun d a b c => writes_of_alu (funrOp true d a b c) (fun _ => rfl) fun g => funrV_true (g a) (g b) _

end Sys2Proof.Proofs.Integer
end

section
/-!
Bit counts, bit reversal and byte swap (R134). The bits of a source are the first bits of a number, listed from bit 0;
the counts follow the list from either end, and the swap puts the number's bytes together in the other order.
-/
open Sys2Proof Sys2Proof.Machine Sys2Proof.Claims

namespace Sys2Proof.Proofs.Integer

-- The first bits of a number

/-- The first `n` bits of a number, from bit 0. -/
def firstBits (n x : Nat) : List Bool := (List.range n).map x.testBit

theorem firstBits_length (n x : Nat) : (firstBits n x).length = n := by
  rw [firstBits, List.length_map, List.length_range]

theorem firstBits_succ (n x : Nat) : firstBits (n + 1) x = decide (x % 2 = 1) :: firstBits n (x / 2) := by
  rw [firstBits, List.range_succ_eq_map, List.map_cons, List.map_map, Nat.testBit_zero]
  exact congrArg _ (List.map_congr_left fun i _ => Nat.testBit_succ x i)

theorem firstBits_concat (n x : Nat) : firstBits (n + 1) x = firstBits n x ++ [x.testBit n] := by
  rw [firstBits, List.range_succ, List.map_append]
  rfl

theorem bitsOf_eq (w : Bool) (x : Word) : bitsOf w x = firstBits (width w) (nat w x) := by
  refine List.map_congr_left fun i hi => ?_
  rw [nat_eq, BitVec.testBit_toNat, low, BitVec.getLsbD_setWidth, decide_eq_true (List.mem_range.mp hi), Bool.true_and]

theorem bitsOf_length (w : Bool) (x : Word) : (bitsOf w x).length = width w := by
  rw [bitsOf_eq, firstBits_length]

-- The counts

theorem zerosBefore_cons (b : Bool) (l : List Bool) : zerosBefore (b :: l) = if b then 0 else 1 + zerosBefore l := by
  cases b
  · exact Nat.add_comm ..
  · rfl

theorem zerosBefore_le_length (l : List Bool) : zerosBefore l ≤ l.length := (List.takeWhile_sublist _).length_le

theorem ctzN_eq (n x : Nat) : ctzN n x = zerosBefore (firstBits n x) := by
  induction n generalizing x with
  | zero => rfl
  | succ n ih => simp only [ctzN, firstBits_succ, zerosBefore_cons, ih, decide_eq_true_eq]

theorem popCount_eq (n x : Nat) : popCount n x = (firstBits n x).count true := by
  induction n generalizing x with
  | zero => rfl
  | succ n ih =>
    rw [popCount, firstBits_succ, List.count_cons, ih, Nat.add_comm]
    rcases Nat.mod_two_eq_zero_or_one x with h | h <;> simp [h]

theorem bitLen_le {n x : Nat} : bitLen x ≤ n ↔ x < 2 ^ n := by
  unfold bitLen
  split
  next h => exact iff_of_true (Nat.zero_le n) (h ▸ Nat.two_pow_pos n)
  next h => exact Nat.log2_lt h

theorem sub_bitLen_eq {n x : Nat} (hx : x < 2 ^ n) : n - bitLen x = zerosBefore (firstBits n x).reverse := by
  induction n with
  | zero => exact Nat.zero_sub _
  | succ n ih =>
    have hle : bitLen x ≤ n + 1 := bitLen_le.mpr hx
    rw [firstBits_concat, List.reverse_concat, zerosBefore_cons]
    by_cases hn : x < 2 ^ n
    · have : bitLen x ≤ n := bitLen_le.mpr hn
      rw [Nat.testBit_lt_two_pow hn, if_neg Bool.false_ne_true, ← ih hn]
      omega
    · have hgt : ¬ bitLen x ≤ n := fun h => hn (bitLen_le.mp h)
      have htop : x.testBit n = true := Nat.testBit_of_two_pow_le_and_two_pow_add_one_gt (Nat.not_lt.mp hn) hx
      rw [htop, if_pos rfl]
      omega

/-- A count is at most the width, so its sign extension leaves it as it is. -/
theorem ofN_count {w : Bool} {n : Nat} (h : n ≤ width w) : ofN w n = BitVec.ofNat 64 n := by
  cases w
  · rfl
  · have hn : n ≤ 32 := h
    have hmsb : (BitVec.ofNat 32 n).msb = false := by
      rw [BitVec.msb_eq_false_iff_two_mul_lt, BitVec.toNat_ofNat]
      omega
    rw [ofN_eq]
    refine (BitVec.signExtend_eq_setWidth_of_msb_false hmsb).trans (BitVec.eq_of_toNat_eq ?_)
    simp only [BitVec.toNat_setWidth, BitVec.toNat_ofNat]
    omega

-- Bit reversal

theorem ofBits_concat (l : List Bool) (b : Bool) : ofBits (l ++ [b]) = ofBits l + b.toNat * 2 ^ l.length := by
  induction l with
  | nil => simp [ofBits]
  | cons c l ih =>
    have hpow : b.toNat * 2 ^ (l.length + 1) = 2 * (b.toNat * 2 ^ l.length) := by
      rw [Nat.pow_succ, ← Nat.mul_assoc, Nat.mul_comm]
    rw [List.cons_append, ofBits, ofBits, ih, List.length_cons, hpow]
    omega

theorem brevN_eq (n x : Nat) : brevN n x = ofBits (firstBits n x).reverse := by
  induction n generalizing x with
  | zero => rfl
  | succ n ih =>
    have hbit : (decide (x % 2 = 1)).toNat = x % 2 := by
      rcases Nat.mod_two_eq_zero_or_one x with h | h <;> rw [h] <;> rfl
    rw [brevN, firstBits_succ, List.reverse_cons, ofBits_concat, List.length_reverse, firstBits_length, hbit, ih,
      Nat.add_comm]

-- Byte swap

theorem leBytes_toNat {m : Nat} (x : BitVec m) (n k : Nat) :
    leBytes n (x.toNat / 256 ^ k) = (List.range n).map fun i => x.extractLsb' (8 * (k + i)) 8 := by
  induction n generalizing k with
  | zero => rfl
  | succ n ih =>
    rw [leBytes, Nat.div_div_eq_div_mul, ← Nat.pow_succ, ih, List.range_succ_eq_map, List.map_cons, List.map_map]
    congr 1
    · rw [BitVec.extractLsb', Nat.shiftRight_eq_div_pow, Nat.pow_mul]
      rfl
    · exact List.map_congr_left fun i _ => by rw [Function.comp_apply, Nat.succ_eq_add_one, Nat.add_right_comm]; rfl

theorem bswapN_toNat {m : Nat} (x : BitVec m) (n : Nat) :
    bswapN n x.toNat = leNat ((List.range n).map fun i => x.extractLsb' (8 * i) 8).reverse := by
  have h := leBytes_toNat x n 0
  simp only [Nat.pow_zero, Nat.div_one, Nat.zero_add] at h
  rw [bswapN, h]

theorem leNat_singleton (b : Byte) : leNat [b] = b.toNat := rfl

/-- A byte under the bytes of a vector is appended to it. -/
theorem leNat_cons {m : Nat} {a : BitVec m} {l : List Byte} (b : Byte) (h : leNat l = a.toNat) :
    leNat (b :: l) = (a ++ b).toNat := by
  have ha : (a ++ b).toNat = a.toNat * 256 + b.toNat := toNat_append_eq_add a b
  rw [leNat, h, ha, Nat.add_comm, Nat.mul_comm]

theorem bswapN_four {m : Nat} (x : BitVec m) : bswapN 4 x.toNat =
    (x.extractLsb' 0 8 ++ x.extractLsb' 8 8 ++ x.extractLsb' 16 8 ++ x.extractLsb' 24 8).toNat := by
  rw [bswapN_toNat]
  exact leNat_cons _ (leNat_cons _ (leNat_cons _ (leNat_singleton _)))

theorem bswapN_eight {m : Nat} (x : BitVec m) : bswapN 8 x.toNat =
    (x.extractLsb' 0 8 ++ x.extractLsb' 8 8 ++ x.extractLsb' 16 8 ++ x.extractLsb' 24 8 ++
      x.extractLsb' 32 8 ++ x.extractLsb' 40 8 ++ x.extractLsb' 48 8 ++ x.extractLsb' 56 8).toNat := by
  rw [bswapN_toNat]
  exact leNat_cons _ (leNat_cons _ (leNat_cons _ (leNat_cons _ (leNat_cons _ (leNat_cons _ (leNat_cons _
    (leNat_singleton _)))))))

-- The model's values

section
variable (w : Bool) (x : Word)

theorem ofN_clz : ofN w (wide w - bitLen (nat w x)) = BitVec.ofNat 64 (zerosBefore (bitsOf w x).reverse) := by
  have hlt : nat w x < 2 ^ width w := nat_eq w x ▸ BitVec.isLt _
  have hle : zerosBefore (bitsOf w x).reverse ≤ width w := by
    simpa only [List.length_reverse, bitsOf_length] using zerosBefore_le_length (bitsOf w x).reverse
  rw [← ofN_count hle, bitsOf_eq, ← sub_bitLen_eq hlt]
  rfl

theorem ofN_ctz : ofN w (ctzN (wide w) (nat w x)) = BitVec.ofNat 64 (zerosBefore (bitsOf w x)) := by
  have hle : zerosBefore (bitsOf w x) ≤ width w := bitsOf_length w x ▸ zerosBefore_le_length _
  rw [← ofN_count hle, bitsOf_eq, ← ctzN_eq]
  rfl

theorem ofN_popc : ofN w (popCount (wide w) (nat w x)) = BitVec.ofNat 64 ((bitsOf w x).count true) := by
  have hle : (bitsOf w x).count true ≤ width w := bitsOf_length w x ▸ List.count_le_length
  rw [← ofN_count hle, bitsOf_eq, ← popCount_eq]
  rfl

theorem ofN_brev : ofN w (brevN (wide w) (nat w x)) = keep w (BitVec.ofNat 64 (ofBits (bitsOf w x).reverse)) := by
  rw [brevN_eq, bitsOf_eq]
  rfl

end

theorem ofN_bswap_false (x : Word) : ofN false (bswapN 8 (nat false x)) =
    x.extractLsb' 0 8 ++ x.extractLsb' 8 8 ++ x.extractLsb' 16 8 ++ x.extractLsb' 24 8 ++
      x.extractLsb' 32 8 ++ x.extractLsb' 40 8 ++ x.extractLsb' 48 8 ++ x.extractLsb' 56 8 := by
  rw [Control.nat_false, bswapN_eight]
  exact (BitVec.ofNat_toNat ..).trans (BitVec.setWidth_eq _)

theorem ofN_bswap_true (x : Word) : ofN true (bswapN 4 (nat true x)) =
    (x.extractLsb' 0 8 ++ x.extractLsb' 8 8 ++ x.extractLsb' 16 8 ++ x.extractLsb' 24 8).signExtend 64 := by
  have hbyte (i : Nat) (hi : i + 8 ≤ 32) : (low true x).extractLsb' i 8 = x.extractLsb' i 8 :=
    BitVec.extractLsb'_setWidth_of_le hi
  rw [ofN_eq, nat_eq, bswapN_four, hbyte 0 (by decide), hbyte 8 (by decide), hbyte 16 (by decide), hbyte 24 (by decide)]
  exact congrArg _ ((BitVec.ofNat_toNat ..).trans (BitVec.setWidth_eq _))

/-- Settles O4: the counts and the reversal through the list of bits, the swap through the list of bytes. -/
theorem integerBitCounts : Obligations.IntegerBitCounts := by
  refine ⟨?clz, ?ctz, ?popc, ?brev, ?bswapW, ?bswap⟩
  case clz => exact fun w d a => writes_of_alu (clzOp w d a) (fun _ => rfl) fun g => ofN_clz w (g a)
  case ctz => exact fun w d a => writes_of_alu (ctzOp w d a) (fun _ => rfl) fun g => ofN_ctz w (g a)
  case popc => exact fun w d a => writes_of_alu (popcOp w d a) (fun _ => rfl) fun g => ofN_popc w (g a)
  case brev => exact fun w d a => writes_of_alu (brevOp w d a) (fun _ => rfl) fun g => ofN_brev w (g a)
  case bswapW => exact fun d a => writes_of_alu (bswapOp true d a) (fun _ => rfl) fun g => ofN_bswap_true (g a)
  case bswap => exact fun d a => writes_of_alu (bswapOp false d a) (fun _ => rfl) fun g => ofN_bswap_false (g a)

end Sys2Proof.Proofs.Integer
end

section
/-!
Fields, constants and addresses (R135 to R137). A field of a number is an extract of its vector; INS is settled bit by
bit, since both sides take a field's bits from the source and every other bit from the old value.
-/
open Sys2Proof Sys2Proof.Machine Sys2Proof.Claims

namespace Sys2Proof.Proofs.Integer

-- Reading a field (R135)

theorem bitsAt_toNat {m : Nat} (x : BitVec m) (p l : Nat) : bitsAt x.toNat p l = (x.extractLsb' p l).toNat :=
  (BitVec.extractLsb'_toNat p l x).symm

theorem sextNat_toNat {l : Nat} (x : BitVec l) (h : l ≤ 64) : sextNat l x.toNat = x.signExtend 64 := by
  have hmsb : x.toNat.testBit (l - 1) = x.msb := (BitVec.msb_eq_getLsbD_last x).symm
  have hx : (x.setWidth 64).toNat = x.toNat := BitVec.toNat_setWidth_of_le h
  have hlt : x.toNat < 2 ^ 64 := Nat.lt_of_lt_of_le x.isLt (Nat.pow_le_pow_right (by decide) h)
  apply BitVec.eq_of_toNat_eq
  rw [sextNat, Nat.mod_eq_of_lt x.isLt, hmsb, BitVec.toNat_signExtend, hx]
  split
  · exact Nat.mod_eq_of_lt (by have := x.isLt; omega)
  · exact Nat.mod_eq_of_lt hlt

/-- What R130 allows of a field: it lies within the width. -/
theorem le_width_of_fieldOk {w : Bool} {p l : Fin 64} (h : fieldOk w p l = true) : p.val + l.val ≤ width w := by
  simp only [fieldOk, Bool.and_eq_true, decide_eq_true_eq] at h
  obtain ⟨⟨-, h64⟩, h32⟩ := h
  cases w
  · exact h64
  · exact of_decide_eq_true h32

theorem bitsAt_nat {w : Bool} {p l : Nat} (x : Word) (h : p + l ≤ width w) :
    bitsAt (nat w x) p l = (x.extractLsb' p l).toNat := by
  rw [nat_eq, bitsAt_toNat, low, BitVec.extractLsb'_setWidth_of_le h]

section
variable {w : Bool} {p l : Fin 64} (x : Word) (h : fieldOk w p l = true)
include h

theorem out_ext : out w (sextNat l.val (bitsAt (nat w x) p.val l.val)) =
    keep w ((x.extractLsb' p.val l.val).signExtend 64) := by
  rw [bitsAt_nat x (le_width_of_fieldOk h), sextNat_toNat _ (Nat.le_of_lt l.isLt)]
  rfl

theorem ofN_extz : ofN w (bitsAt (nat w x) p.val l.val) = keep w ((x.extractLsb' p.val l.val).setWidth 64) := by
  rw [bitsAt_nat x (le_width_of_fieldOk h), ← BitVec.ofNat_toNat]
  rfl

end

-- Writing a field (R135)

/-- A number without a field of it: what is above the field and what is below. -/
theorem sub_field (n p l : Nat) : n - bitsAt n p l * 2 ^ p = 2 ^ p * (2 ^ l * (n / 2 ^ p / 2 ^ l)) + n % 2 ^ p := by
  have hn := Nat.div_add_mod n (2 ^ p)
  have hq : 2 ^ p * (n / 2 ^ p) = 2 ^ p * (2 ^ l * (n / 2 ^ p / 2 ^ l)) + n / 2 ^ p % 2 ^ l * 2 ^ p := by
    rw [Nat.mul_comm (n / 2 ^ p % 2 ^ l), ← Nat.mul_add, Nat.div_add_mod]
  rw [bitsAt, Nat.shiftRight_eq_div_pow]
  omega

theorem testBit_insert (n x p l i : Nat) :
    (n - bitsAt n p l * 2 ^ p + x % 2 ^ l * 2 ^ p).testBit i =
      if p ≤ i ∧ i < p + l then x.testBit (i - p) else n.testBit i := by
  have h : n - bitsAt n p l * 2 ^ p + x % 2 ^ l * 2 ^ p =
      2 ^ p * (2 ^ l * (n / 2 ^ p / 2 ^ l) + x % 2 ^ l) + n % 2 ^ p := by
    rw [sub_field, Nat.mul_add, Nat.mul_comm (x % 2 ^ l), Nat.add_right_comm]
  rw [h, Nat.testBit_two_pow_mul_add _ (Nat.mod_lt _ (Nat.two_pow_pos _)),
    Nat.testBit_two_pow_mul_add _ (Nat.mod_lt _ (Nat.two_pow_pos _))]
  simp only [Nat.testBit_mod_two_pow, Nat.testBit_div_two_pow]
  by_cases hp : i < p
  · simp [hp, show ¬ p ≤ i by omega]
  · by_cases hl : i < p + l
    · simp [hp, hl, show i - p < l by omega, show p ≤ i by omega]
    · simp [hp, hl, show ¬ i - p < l by omega, show i - p - l + l + p = i by omega]

/-- The bits of a field, as the number whose ones they are. -/
theorem testBit_field (p l i : Nat) : ((2 ^ l - 1) * 2 ^ p).testBit i = decide (p ≤ i ∧ i < p + l) := by
  rw [Nat.testBit_mul_two_pow, Nat.testBit_two_pow_sub_one, ← Bool.decide_and]
  exact decide_eq_decide.mpr (by omega)

theorem insV_eq (w : Bool) (old x : Word) (p l : Nat) : insV w old x p l =
    keep w ((old &&& ~~~(BitVec.ofNat 64 ((2 ^ l - 1) * 2 ^ p))) |||
      (x <<< p &&& BitVec.ofNat 64 ((2 ^ l - 1) * 2 ^ p))) := by
  refine congrArg (keep w) (BitVec.eq_of_getLsbD_eq fun i hi => ?_)
  rw [BitVec.getLsbD_ofNat, testBit_insert]
  simp only [BitVec.getLsbD_or, BitVec.getLsbD_and, BitVec.getLsbD_not, BitVec.getLsbD_shiftLeft, BitVec.getLsbD_ofNat,
    testBit_field, decide_eq_true hi, Bool.true_and]
  split
  next h => simp [h, Nat.not_lt.mpr h.1, BitVec.testBit_toNat]
  next h => simp [h, BitVec.testBit_toNat]

-- Addresses (R137)

theorem shiftLeft_eq_mul_ofNat (x : Word) (k : Nat) : x <<< k = x * BitVec.ofNat 64 (2 ^ k) := by
  rw [← ofNat_mul_two_pow, BitVec.ofNat_mul, BitVec.ofNat_toNat, BitVec.setWidth_eq]

/-- Settles O5: a field within the limits of R130 lies within the width; INS is settled bit by bit. -/
theorem integerFieldsAndConstants : Obligations.IntegerFieldsAndConstants := by
  refine ⟨?ext, ?extz, ?ins, ?li, ?lih, ?leaOff, ?leaIdx⟩
  case ext => exact fun w d a p l h => writes_of_alu (extOp w d a p l) (fun _ => rfl) fun g => out_ext (g a) h
  case extz => exact fun w d a p l h => writes_of_alu (extzOp w d a p l) (fun _ => rfl) fun g => ofN_extz (g a) h
  case ins =>
    exact fun w d a p l _ => writes_of_alu (insOp w d a p l) (fun _ => rfl) fun g => insV_eq w (g d) (g a) p.val l.val
  case li => exact fun d i => writes_of_alu (liOp d i) (fun _ => rfl) fun _ => rfl
  case lih => exact fun d i => writes_of_alu (lihOp d i) (fun _ => rfl) fun _ => rfl
  case leaOff => exact fun d b o => writes_of_alu (leaOp d (.off b o)) (fun _ => rfl) fun _ => rfl
  case leaIdx =>
    exact fun d b x k => writes_of_alu (leaOp d (.idx b x k)) (fun _ => rfl) fun g =>
      congrArg (g b + ·) (shiftLeft_eq_mul_ofNat (g x) k.val)

end Sys2Proof.Proofs.Integer
end

section
/-!
The entry of a trap (R340, R342) and the instructions that take one of their own (R347). A trap that can be taken changes
the acting context alone; what the two instructions claim is read off the context that it leaves.
-/
open Sys2Proof Sys2Proof.Machine Sys2Proof.Claims

namespace Sys2Proof.Proofs.Traps

-- ECAUSE (R340)

/-- The bit of ECAUSE for the second instruction of a pair and the detail lie apart, below the trap's number. -/
theorem slot2_add_detail (slot2 : Bool) (detail : Nat) :
    (if slot2 then 2 ^ 22 else 0) + detail % 65536 = (if slot2 then 2 ^ 22 else 0) ||| detail % 65536 := by
  have hlt : detail % 65536 < 2 ^ 22 := by omega
  cases slot2 with
  | false => simp
  | true => exact Nat.two_pow_add_eq_or_of_lt hlt 1

/-- The parts of ECAUSE lie in bits of their own, so the model's sum of them is their union. -/
theorem ecauseOf_eq_cause (trap detail : Nat) (slot2 : Bool) :
    ecauseOf trap false slot2 detail = cause trap detail slot2 := by
  have hlow : (if slot2 then 2 ^ 22 else 0) + detail % 65536 < 2 ^ 24 := by split <;> omega
  have hsum : trap * 2 ^ 24 + 0 + (if slot2 then 2 ^ 22 else 0) + detail % 65536 =
      trap <<< 24 ||| ((if slot2 then 2 ^ 22 else 0) ||| detail % 65536) := by
    rw [← slot2_add_detail, ← Nat.shiftLeft_add_eq_or_of_lt hlow, Nat.shiftLeft_eq, Nat.add_zero, Nat.add_assoc]
  calc ecauseOf trap false slot2 detail
      = BitVec.ofNat 64 (trap <<< 24 ||| ((if slot2 then 2 ^ 22 else 0) ||| detail % 65536)) := congrArg _ hsum
    _ = cause trap detail slot2 := by
      rw [BitVec.ofNat_or, BitVec.ofNat_or, ← BitVec.or_assoc, Nat.shiftLeft_eq, BitVec.ofNat_mul,
        ← Integer.shiftLeft_eq_mul_ofNat]
      cases slot2 <;> rfl

-- The entry of a trap (R342)

/-- Where a trap can be taken it is taken in the acting context alone, which goes on at its handler; with `next` the EPC is
the following instruction's, and what a pair wrote stands. -/
theorem trapCtx_of_canTrap {s : State} (h : CanTrap s) (trap detail : Nat) (ea : Word) (next : Bool) :
    ∃ c : Ctx, s.trapCtx s.core s.key trap detail ea next false = s.modMe (fun _ => c) ∧
      c.epc = (if next then nextPc s.me.pc else s.me.epcOf) ∧ c.ecause = cause trap detail s.me.slot2 ∧
      c.eheld = true ∧ c.pc = s.me.tvec ∧ c.run = .run ∧ c.regs = (if next then s.me else s.me.undone).regs := by
  obtain ⟨hheld, htvec, hroot⟩ := h
  have hres : ¬ (s.key % 16 = 0 ∧ (s.here.resident[s.key / 16]?.getD {}).held = true) :=
    fun ⟨hk, hr⟩ => Bool.false_ne_true ((hroot hk).symm.trans hr)
  have hfirst : ¬ s.me.eheld = true := Bool.eq_false_iff.mp hheld
  refine ⟨_, (if_neg hres).trans ((if_neg hfirst).trans (if_neg htvec)), ?_⟩
  exact ⟨rfl, ecauseOf_eq_cause trap detail s.me.slot2, rfl, rfl, rfl, rfl⟩

/-- A trap after the acting context's instruction (R347): the free value in EADDR is drawn first, which changes nothing
that the trap reads. -/
theorem trapAfterOpen_of_canTrap {s : State} (h : CanTrap s) (trap detail : Nat) :
    let t := s.trapAfterOpen trap detail
    t.me.epc = nextPc s.me.pc ∧ t.me.ecause = cause trap detail s.me.slot2 ∧ t.me.eheld = true ∧ t.me.pc = s.me.tvec ∧
      t.me.run = .run ∧ t.me.regs = s.me.regs ∧ s.sameMemory t := by
  have hdrawn : CanTrap s.draw.2 := h
  obtain ⟨c, ht, hepc, hcause, hheld, hpc, hrun, hregs⟩ :=
    trapCtx_of_canTrap hdrawn trap detail (Config.openAddr s.draw.1) true
  have hopen : s.trapAfterOpen trap detail = s.draw.2.modMe (fun _ => c) := ht
  simp only [hopen, State.me_modMe]
  exact ⟨hepc, hcause, hheld, hpc, hrun, hregs, fun _ => rfl, fun _ => rfl, fun _ => rfl⟩

-- The instructions (R347)

theorem exec_trap {s : State} {n : BitVec 40} (hc : s.clear (.trap n) = true) :
    exec (.trap n) s = .next (s.trapAfterOpen 0x1F n.toNat) := by
  show execTrap n s = _
  rw [execTrap, State.guarded_clear hc]

theorem exec_dbgbrk_detached {s : State} (hc : s.clear .dbgbrk = true) (hd : s.me.dbg.attach = false) :
    exec .dbgbrk s = .next (s.trapAfterOpen 0x21 0) := by
  show execDbgbrk s = _
  rw [execDbgbrk, State.guarded_clear hc, hd, if_neg Bool.false_ne_true]

theorem exec_dbgbrk_attached {s : State} (hc : s.clear .dbgbrk = true) (hd : s.me.dbg.attach = true) :
    exec .dbgbrk s = .next (s.modMe fun c => { c.retire with stopped := true }) := by
  show execDbgbrk s = _
  rw [execDbgbrk, State.guarded_clear hc, if_pos hd, State.retire_quiet (State.clear_quiet hc), State.modMe_modMe]

/-- Settles O14: both traps are the one taken after the instruction, and an attached debugger gets a stop after it. -/
theorem trapAndDebugBreak : Obligations.TrapAndDebugBreak := by
  refine ⟨?trap, ?detached, ?attached⟩
  case trap => exact fun _ n hc hcan _ => ⟨_, exec_trap hc, trapAfterOpen_of_canTrap hcan 0x1F n.toNat⟩
  case detached => exact fun _ hc hcan hd => ⟨_, exec_dbgbrk_detached hc hd, trapAfterOpen_of_canTrap hcan 0x21 0⟩
  case attached => exact fun _ => exec_dbgbrk_attached

end Sys2Proof.Proofs.Traps
end
